-- ==== Sys2Proof/Word.lean ====
section
/-! DEFINITION. The words of the CX-240 (spec/00_scope.md, Conventions): the widths that the links and the
clocks give a value, and the plain arithmetic of ticks. -/

namespace Sys2Proof

/-- One byte of a frame, a record or the external store. -/
abbrev Byte := BitVec 8

/-- A tick of the 32-bit tick counter, 250 microseconds (00_scope, Time). -/
abbrev Tick := BitVec 32

/-- A 16-bit word: change tags, notice sequences, capture sequences, CRCs, zone masks. -/
abbrev Word16 := BitVec 16

/-- A 12-bit sample code, 0-4095 (00_scope, Numbers and units). -/
abbrev Code := BitVec 12

/-- A set of zones, bit z for zone z (R190). -/
abbrev ZoneMask := BitVec 16

/-- An address of the external store of 4096 bytes. -/
abbrev StoreAddr := BitVec 12

/-- `a` is later than `b`: the difference modulo 2^32 taken as a signed number is positive (00_scope, Time; R57). -/
def Tick.later (a b : Tick) : Bool := decide (0 < (a - b).toInt)

/-- `a` is not later than `b`. -/
def Tick.notLater (a b : Tick) : Bool := !Tick.later a b

/-- The tick `n` ticks after `t`, modulo 2^32. -/
def Tick.plus (t : Tick) (n : Nat) : Tick := t + BitVec.ofNat 32 n

/-- The tick `n` ticks before `t`, modulo 2^32. -/
def Tick.minus (t : Tick) (n : Nat) : Tick := t - BitVec.ofNat 32 n

/-- The millisecond clock: the tick count divided by 4 and rounded down (00_scope, Time). -/
def Tick.ms (t : Tick) : BitVec 32 := t >>> 2

end Sys2Proof
end

