-- ==== Sys2Proof/Syntax.lean ====
section
/-! DEFINITION. The commands of the CX-240: one constructor for each row of spec/opcode_table.json.

A command is an event that reaches the block from outside its state: a request's arrival on a link (R172), a byte on a
link (R171), a sample or a switch change in the field, the end of a response's transmission, or the expiry of one of
the block's own timers. Requests carry the port, the request number that the response echoes (R189) and the operands
in the widths of R190; the other commands carry the equipment they concern and the level or code that is sampled. -/

namespace Sys2Proof

/-- The three ports (R169): the fire panel port, the process port, the service port. -/
inductive Port where
  | fp | pc | sv
  deriving DecidableEq, Repr

/-- The accepted or sensed state of the key switch (R170). -/
inductive KeyState where
  | opened | closed
  deriving DecidableEq, Repr

/-- The two position switches of an abort gate (R83). -/
inductive GateSwitch where
  | openSwitch | closedSwitch
  deriving DecidableEq, Repr

/-- The commands, in the order of spec/opcode_table.json. `p` is a port, `n` a request number, `d` a duct
(0-3 for ducts 1-4), `v` a valve (0 for E1, 1 for E2). -/
inductive Instr where
  /-- POWER_ON: release of the external reset lead or rise of the supply (R183). -/
  | powerOn
  /-- RESET_LEAD_LOW: the external reset lead falls and is held low (R183). -/
  | resetLeadLow
  /-- LOAD_COMPLETION at tick 1024 (R183, R184). -/
  | loadCompletion
  /-- STORE_WRITE_COMPLETION (R186); `held` is what the external store holds in the page when it is read back. -/
  | storeWriteCompletion (held : Vector Byte 32)
  /-- FRAME_DISCARD: a byte (or a byte with a framing error) that makes the receiver discard its partial frame (R171, R172). -/
  | frameDiscard (p : Port) (b : Byte) (framingError : Bool)
  /-- UNKNOWN_REQUEST: a valid frame whose code names no request (R174). -/
  | unknownRequest (p : Port) (n : Byte) (code : Byte)
  /-- RESPONSE_SENT: the last byte of the first response of the transmit list has been sent (R173). -/
  | responseSent (p : Port)
  /-- READ_IDENT (R188). -/
  | readIdent (p : Port) (n : Byte)
  /-- READ_ZONES(zone or 255) (R15). -/
  | readZones (p : Port) (n : Byte) (zone : Byte)
  /-- ACK_ZONE(zone, tag) (R8). -/
  | ackZone (p : Port) (n : Byte) (zone : Byte) (tag : Word16)
  /-- DECLARE(zone, level) (R9). -/
  | declare (p : Port) (n : Byte) (zone : Byte) (level : Byte)
  /-- WITHDRAW(zone) (R10). -/
  | withdraw (p : Port) (n : Byte) (zone : Byte)
  /-- RESET_ZONE(zone, tag) (R11). -/
  | resetZone (p : Port) (n : Byte) (zone : Byte) (tag : Word16)
  /-- READ_DUCT(duct) (R112). -/
  | readDuct (p : Port) (n : Byte) (duct : Byte)
  /-- START_DUCT(duct) (R95). -/
  | startDuct (p : Port) (n : Byte) (duct : Byte)
  /-- STOP_DUCT(duct) (R110). -/
  | stopDuct (p : Port) (n : Byte) (duct : Byte)
  /-- RESET_DUCT(duct) (R111). -/
  | resetDuct (p : Port) (n : Byte) (duct : Byte)
  /-- READ_TRACKS(duct, position or 255) (R72). -/
  | readTracks (p : Port) (n : Byte) (duct : Byte) (position : Byte)
  /-- READ_CHANNELS(channel or 255) (R40). -/
  | readChannels (p : Port) (n : Byte) (channel : Byte)
  /-- ISOLATE_CHANNEL(channel) (R37). -/
  | isolateChannel (p : Port) (n : Byte) (channel : Byte)
  /-- RESTORE_CHANNEL(channel) (R38). -/
  | restoreChannel (p : Port) (n : Byte) (channel : Byte)
  /-- CLEAR_CHANNEL_FAULT(channel) (R39). -/
  | clearChannelFault (p : Port) (n : Byte) (channel : Byte)
  /-- TEST_VALVE(duct, valve, seconds) (R88). -/
  | testValve (p : Port) (n : Byte) (duct : Byte) (valve : Byte) (seconds : Word16)
  /-- READ_OVERLAYS(duct) (R123). -/
  | readOverlays (p : Port) (n : Byte) (duct : Byte)
  /-- PUSH_OVERLAY(duct, duration, offset, Nq, three thresholds, rate window) (R118). -/
  | pushOverlay (p : Port) (n : Byte) (duct : Byte) (duration : Word16) (offset : Word16) (nq : Byte)
      (alert : Byte) (shutdown : Byte) (alertShutdown : Byte) (window : Word16)
  /-- POP_OVERLAY(duct) (R119). -/
  | popOverlay (p : Port) (n : Byte) (duct : Byte)
  /-- READ_DOORS(door or 255) (R140). -/
  | readDoors (p : Port) (n : Byte) (door : Byte)
  /-- HOLD_DOOR(door, seconds) (R129). -/
  | holdDoor (p : Port) (n : Byte) (door : Byte) (seconds : Word16)
  /-- UNHOLD_DOOR(door) (R131). -/
  | unholdDoor (p : Port) (n : Byte) (door : Byte)
  /-- CLOSE_DOOR(door) (R132). -/
  | closeDoor (p : Port) (n : Byte) (door : Byte)
  /-- READ_SIRENS(siren or 255) (R156). -/
  | readSirens (p : Port) (n : Byte) (siren : Byte)
  /-- SOUND_SIREN(mask, pattern, seconds) (R146). -/
  | soundSiren (p : Port) (n : Byte) (mask : Byte) (pattern : Byte) (seconds : Word16)
  /-- STOP_SOUND(mask) (R147). -/
  | stopSound (p : Port) (n : Byte) (mask : Byte)
  /-- SILENCE(mask) (R150). -/
  | silence (p : Port) (n : Byte) (mask : Byte)
  /-- TEST_SIRENS(mask) (R149). -/
  | testSirens (p : Port) (n : Byte) (mask : Byte)
  /-- READ_CAPTURE(list index, part, word offset, count) (R165). -/
  | readCapture (p : Port) (n : Byte) (index : Byte) (part : Byte) (offset : Word16) (count : Byte)
  /-- FREE_CAPTURES(n, expected oldest sequence) (R166). -/
  | freeCaptures (p : Port) (n : Byte) (num : Byte) (oldest : Word16)
  /-- SET_CAPTURE_LAYOUT(layout code, pre, post) (R167). -/
  | setCaptureLayout (p : Port) (n : Byte) (layout : Byte) (pre : Byte) (post : Word16)
  /-- FETCH_NOTICES(count) (R179). -/
  | fetchNotices (p : Port) (n : Byte) (count : Byte)
  /-- SET_SUBSCRIPTION(mask) (R180). -/
  | setSubscription (p : Port) (n : Byte) (mask : Byte)
  /-- SET_COALESCING(count threshold, age limit) (R181). -/
  | setCoalescing (p : Port) (n : Byte) (threshold : Byte) (age : Word16)
  /-- READ_STORE(offset) (R186). -/
  | readStore (p : Port) (n : Byte) (offset : Word16)
  /-- WRITE_STORE(offset, 32 data bytes) (R186). -/
  | writeStore (p : Port) (n : Byte) (offset : Word16) (bytes : Vector Byte 32)
  /-- RESTART (R187). -/
  | restart (p : Port) (n : Byte)
  /-- KEY_SWITCH_CHANGE: the key switch takes a level; the part samples it once each millisecond, and the 100th
  consecutive sample of the state that is not accepted makes it accepted (R170). -/
  | keySwitchChange (sensed : KeyState)
  /-- CONTACT_INPUT_ACCEPTED: the sample of a contact input's two lines that accepts a new state (R18, R19). -/
  | contactInputAccepted (input : Fin 8) (supervision : Bool) (line : Bool)
  /-- STATION_SAMPLE_EVENT (R23): `codes` are the samples of the station's channels in channel-number order. Where the
  Capture Store's own event of these samples and its settlement or extra-detection report fall together (R162, R163,
  "taken in either order"), `samplesFirst` says that the samples are taken first. -/
  | stationSampleEvent (d : Fin 4) (station : Fin 4) (codes : Vector Code 4) (samplesFirst : Bool)
  /-- VELOCITY_UPDATE: the 64th transducer sample since the last update (R43, R44). -/
  | velocityUpdate (d : Fin 4) (code : Code)
  /-- HOLD_TIMER_EXPIRY (R45). -/
  | holdTimerExpiry (d : Fin 4)
  /-- TRACK_RETIREMENT of the track with this id (R71). -/
  | trackRetirement (d : Fin 4) (id : Byte)
  /-- SPRAY_WINDOW_OPEN: the open tick of a track's window at a valve (R75). -/
  | sprayWindowOpen (d : Fin 4) (v : Fin 2)
  /-- SPRAY_WINDOW_CLOSE: the close tick of a track's window at a valve (R75). -/
  | sprayWindowClose (d : Fin 4) (v : Fin 2)
  /-- FLOW_SWITCH_CHANGE: the flow switch of a valve takes a level (R74, R76). -/
  | flowSwitchChange (d : Fin 4) (v : Fin 2) (active : Bool)
  /-- FLOW_CONFIRM_EXPIRY (R77). -/
  | flowConfirmExpiry (d : Fin 4) (v : Fin 2)
  /-- GATE_SWITCH_CHANGE: a position switch of the gate takes a level (R74, R85). -/
  | gateSwitchChange (d : Fin 4) (which : GateSwitch) (active : Bool)
  /-- GATE_SUPERVISION_EXPIRY (R86). -/
  | gateSupervisionExpiry (d : Fin 4)
  /-- FLOOD_END (R87). -/
  | floodEnd (d : Fin 4)
  /-- TEST_END (R89). -/
  | testEnd (d : Fin 4)
  /-- START_TIMER_EXPIRY (R98). -/
  | startTimerExpiry (d : Fin 4)
  /-- ARMING_WINDOW_EXPIRY (R97). -/
  | armingWindowExpiry (d : Fin 4)
  /-- RATE_WINDOW_EXPIRY (R100). -/
  | rateWindowExpiry (d : Fin 4)
  /-- QUIET_TIMER_EXPIRY (R101). -/
  | quietTimerExpiry (d : Fin 4)
  /-- LOW_FLOW_TIMER_EXPIRY (R102). -/
  | lowFlowTimerExpiry (d : Fin 4)
  /-- PURGE_TIMER_EXPIRY (R105). -/
  | purgeTimerExpiry (d : Fin 4)
  /-- OVERLAY_EXPIRY of the entry at this place of the stack, 0 being the bottom (R120). -/
  | overlayExpiry (d : Fin 4) (position : Fin 4)
  /-- CLOSED_SWITCH_CHANGE: a sample of a door's closed switch (R127). -/
  | closedSwitchChange (door : Fin 12) (active : Bool)
  /-- BARRIER_CHANGE: a sample of a door's obstruction barrier (R127). -/
  | barrierChange (door : Fin 12) (active : Bool)
  /-- HOLD_EXPIRY of the port's hold on a door (R130). -/
  | holdExpiry (door : Fin 12) (p : Port)
  /-- OBSTRUCTION_TIMER_EXPIRY (R135). -/
  | obstructionTimerExpiry (door : Fin 12)
  /-- CLOSE_TIMER_EXPIRY (R136). -/
  | closeTimerExpiry (door : Fin 12)
  /-- PROPPED_TIMER_EXPIRY (R138). -/
  | proppedTimerExpiry (door : Fin 12)
  /-- MANUAL_DEMAND_EXPIRY of the port's manual demand on a siren (R146). -/
  | manualDemandExpiry (siren : Fin 8) (p : Port)
  /-- ALL_CLEAR_EXPIRY (R148). -/
  | allClearExpiry (siren : Fin 8)
  /-- SIREN_TEST_EXPIRY (R149). -/
  | sirenTestExpiry (siren : Fin 8)
  /-- SLOT_BOUNDARY (R153). -/
  | slotBoundary
  /-- CADENCE_EXPIRY (R154). -/
  | cadenceExpiry
  /-- AGE_TIMER_EXPIRY of a port (R178). -/
  | ageTimerExpiry (p : Port)
  /-- BYTE_RECEIVED: a byte received on a link, with its stop bit absent when `framingError` is set (R171). -/
  | byteReceived (p : Port) (b : Byte) (framingError : Bool)
  /-- TRANSDUCER_SAMPLE that is not a velocity update (R43). -/
  | transducerSample (d : Fin 4) (code : Code)
  /-- CONTACT_INPUT_SAMPLE: a sample of a contact input's two lines that accepts no new state (R18). -/
  | contactInputSample (input : Fin 8) (supervision : Bool) (line : Bool)
  deriving DecidableEq, Repr

end Sys2Proof
end

