-- ==== Sys2Proof/Config.lean ====
section
/-! DEFINITION. The free values: what the spec leaves open and the model does not choose. Each is an opaque
constant without a body that a definition can see, applied to the plain counter `State.free` of the model. -/

namespace Sys2Proof.Config

/-- The byte that position `i` of a store page holds after a store write was cut off by a power-on or by the reset
lead (spec/12, R184: the page is left "partly written"). `n` is the model's own counter. Assumption 4. -/
opaque cutByte (n i : Nat) : Byte

/-- The byte that position `i` of a written store page reads back as, when the completion comes from the block's own
clock and no command says what the store holds (spec/12, R186: the read back may MATCH or MISMATCH). Assumption 5. -/
opaque heldByte (n i : Nat) : Byte

/-- The code that a detector channel converts to at a sample that no command brings (spec/02, R23: what the field shows is not
the part's); `i` is the channel's place in its station, `s` the station's place. Assumption 44. -/
opaque detectorCode (n s i : Nat) : Code

/-- The code that a duct's transducer converts to at a sample that no command brings (spec/03, R43). Assumption 44. -/
opaque transducerCode (n d : Nat) : Code

/-- Whether the Capture Store's samples come before the settlement of the same tick at a station sample event that no command
brings (spec/10, R162, R163: "taken in either order"). Assumption 44. -/
opaque samplesFirst (n s : Nat) : Bool

/-- Which of several expiry events due at one tick is taken first, as a number that is reduced modulo their count
(the spec: such events are "taken in either order"). Assumption 2. -/
opaque choice (n : Nat) : Nat

end Sys2Proof.Config
end

