-- ==== Sys2Proof/Machine/State.lean ====
section
/-! DEFINITION. The state of the CX-240 as plain data: every record, register, timer, queue, mark and output that the
spec gives a block, the configured values taken from the image at the load, the external store, and the queue of
commands that wait. INVENTORY.md lists each field with its rule. -/

namespace Sys2Proof.Machine

open Sys2Proof

/-! ### Named values -/

/-- Zone levels, NORMAL < WATCH < ALARM < FIRE (00_scope). -/
inductive Level where
  | normal | watch | alarm | fire
  deriving DecidableEq, Repr

/-- Zone kinds (R1, R2). -/
inductive ZoneKind where
  | duct | hall | filter | boiler | yard | unused
  deriving DecidableEq, Repr

/-- Trouble kinds, in the order of R14. -/
inductive TroubleKind where
  | channelStuck | channelDead | channelIsolated | reducedCoincidence | stationUnprotected
  | velocityFault | lowFlow | noFlow | valveFault | gateFault | doorStuck | doorPropped | inputFault
  deriving DecidableEq, Repr

/-- Sensed and accepted states of a contact input (R17). -/
inductive Sensed where
  | normal | active | fault
  deriving DecidableEq, Repr

/-- Fault kinds of a channel (R22). -/
inductive FaultKind where
  | stuck | dead
  deriving DecidableEq, Repr

/-- Channel states; the fault kind is part of FAULT, so it is absent in every other state (R22, R30). -/
inductive ChannelState where
  | unused | active | isolated | fault (kind : FaultKind)
  deriving DecidableEq, Repr

/-- Velocity states (R42). -/
inductive VelState where
  | valid | held | failed
  deriving DecidableEq, Repr

/-- Valve states (R74). -/
inductive ValveState where
  | closed | opened | fault
  deriving DecidableEq, Repr

/-- Gate states (R74). -/
inductive GateState where
  | opened | closing | closed | opening | fault
  deriving DecidableEq, Repr

/-- Duct states (R91). -/
inductive DuctState where
  | offline | starting | arming | guarded | alert | stopping | stopped
  deriving DecidableEq, Repr

/-- Stop kinds (R91). -/
inductive StopKind where
  | orderly | fire
  deriving DecidableEq, Repr

/-- Stop causes, in the order of R103. -/
inductive StopCause where
  | stopRequest | lowFlow | noFlow | startGate | sparkRate | zoneFire | diverted | outrun | overflow
  deriving DecidableEq, Repr

/-- Door states (R125). -/
inductive DoorState where
  | free | held | releaseWait | closing | stuck
  deriving DecidableEq, Repr

/-- Release causes of a door (R125). -/
inductive ReleaseCause where
  | holdExpired | holdWithdrawn | closeRequest | zoneAlarm | zoneFire
  deriving DecidableEq, Repr

/-- Siren patterns, in priority order (R144). -/
inductive Pattern where
  | evacuate | alert | allClear | test
  deriving DecidableEq, Repr

/-- Notice kinds (R176). -/
inductive NoticeKind where
  | zone | duct | detection | trouble | door | siren | overlay | captureReady
  deriving DecidableEq, Repr

/-- Result codes of a response (R189). -/
inductive Result where
  | ok | unknown | length | denied | key | range | stale | notNow | busy | stackFull | stackEmpty | notOwner | noData
  deriving DecidableEq, Repr

/-- Load states (R185). -/
inductive LoadState where
  | loading | running | safeHold
  deriving DecidableEq, Repr

/-- The failing check codes other than NONE, in the order of R184. -/
inductive CheckCode where
  | crc | magic | version | sections | fieldRange | servedMask | channelStation | sirenWeight | captureFit
  deriving DecidableEq, Repr

/-! ### Configured values (R192) -/

/-- Contact input configuration (R17); a mapped zone of none disables the input. -/
structure InputCfg where
  zone : Option (Fin 16)
  level : Level
  debounce : Nat
  deriving DecidableEq, Repr

/-- An assigned channel (R21). -/
structure ChannelCfg where
  duct : Fin 4
  station : Fin 4
  threshold : Nat
  deriving DecidableEq, Repr

/-- A valve's configuration (R74): position in cm, times in ms. -/
structure ValveCfg where
  installed : Bool
  position : Nat
  response : Nat
  hold : Nat
  flowConfirm : Nat
  deriving DecidableEq, Repr

/-- The abort gate's configuration (R74). -/
structure GateCfg where
  installed : Bool
  position : Nat
  stroke : Nat
  deriving DecidableEq, Repr

/-- The detection parameters that an overlay replaces (R115). -/
structure RateParams where
  offset : Nat
  nq : Nat
  alert : Nat
  shutdown : Nat
  alertShutdown : Nat
  window : Nat
  deriving DecidableEq, Repr

/-- The base parameter set (R114); its threshold offset is always 0. -/
structure BaseParams where
  rate : RateParams
  coincidence : Nat
  deadTime : Nat
  stuckLimit : Nat
  deriving DecidableEq, Repr

/-- All configured values of one duct (R42, R62, R74, R91, R114). -/
structure DuctCfg where
  span : Nat
  tol : Nat
  lmin : Nat
  valves : Vector ValveCfg 2
  gate : GateCfg
  floodTime : Nat
  margin : Nat
  served : ZoneMask
  startTime : Nat
  purgeTime : Nat
  lowFlowGrace : Nat
  quietTime : Nat
  base : BaseParams
  deriving DecidableEq, Repr

/-- A door's configuration (R125). -/
structure DoorCfg where
  zones : ZoneMask
  closeOnAlarm : Bool
  obstruction : Nat
  closeTime : Nat
  proppedTime : Nat
  deriving DecidableEq, Repr

/-- A siren's configuration (R142). -/
structure SirenCfg where
  cover : ZoneMask
  weight : Nat
  deriving DecidableEq, Repr

/-- A Port Unit's configured values (R182). -/
structure PortCfg where
  subscription : Byte
  threshold : Nat
  age : Nat
  deriving DecidableEq, Repr

/-- The configuration image's values (R192). Zone kinds are those of zones 4-15; positions are indexed by
4 x duct + station. -/
structure Cfg where
  zoneKinds : Vector ZoneKind 12
  inputs : Vector InputCfg 8
  channels : Vector (Option ChannelCfg) 16
  positions : Vector (Option Nat) 16
  ducts : Vector DuctCfg 4
  doors : Vector DoorCfg 12
  budget : Nat
  slotLength : Nat
  allClearTime : Nat
  sirens : Vector SirenCfg 8
  layout : Fin 3
  pre : Nat
  post : Nat
  readyThreshold : Nat
  ports : Vector PortCfg 3
  deriving DecidableEq, Repr

/-! ### The Zone Table (chapter 1) -/

/-- A trouble item: a kind and a subject (R13, R14). -/
structure Trouble where
  kind : TroubleKind
  subject : Nat
  deriving DecidableEq, Repr

/-- A set of acknowledging ports, a subset of FP and PC (R2). -/
structure AckSet where
  fp : Bool
  pc : Bool
  deriving DecidableEq, Repr

/-- A zone record (R2). The cause set is held by its 13 places in the order of R15 (DUCT_STATE, VELOCITY, EMBER, INPUT
0-7, DECLARATION FP, DECLARATION PC): the level of the record with that kind and source, NORMAL where there is none. The
source of the three duct kinds is the zone's own duct (R1). Troubles stand in the order of R15, without repeats. -/
structure Zone where
  kind : ZoneKind
  causes : Vector Level 13
  latch : Bool
  level : Level
  acked : AckSet
  tag : Word16
  troubles : List Trouble
  deriving DecidableEq, Repr

/-- A contact input (R18). -/
structure Input where
  accepted : Sensed
  candidate : Option Sensed
  stable : Nat
  deriving DecidableEq, Repr

/-! ### Detector Front End (chapter 2) -/

/-- A detector channel (R22), with the effective threshold of its last station sample event (R40). The history ring
stands oldest first. -/
structure Channel where
  state : ChannelState
  run : Nat
  runStart : Tick
  qualified : Bool
  low : Nat
  clean : Nat
  ring : List Code
  flash : Nat
  effective : Nat
  deriving DecidableEq, Repr

/-- A station's dead-time count and capture-in-flight mark (R22). -/
structure Station where
  dead : Nat
  inFlight : Bool
  deriving DecidableEq, Repr

/-! ### Velocity Unit (chapter 3) -/

/-- The bounds record (R42, R50). -/
structure Bounds where
  blind : Bool
  vHi : Nat
  vLo : Nat
  pHi : Nat
  pLo : Nat
  deriving DecidableEq, Repr

/-- A Velocity Unit (R42). -/
structure Velocity where
  count : Nat
  sum : Nat
  bad : Bool
  state : VelState
  value : Nat
  hold : Option Tick
  recovery : Nat
  bounds : Bounds
  deriving DecidableEq, Repr

/-! ### Track Unit (chapter 4) -/

/-- A valve entry of a track (R59). -/
structure ValveEntry where
  valve : Fin 2
  te : Nat
  tl : Nat
  openTick : Tick
  closeTick : Tick
  late : Bool
  deriving DecidableEq, Repr

/-- The gate entry of a track (R59). -/
structure GateEntry where
  te : Nat
  deadline : Tick
  deriving DecidableEq, Repr

/-- A station entry of a track (R59, R62). -/
structure StationEntry where
  station : Fin 4
  te : Nat
  tl : Nat
  winBegin : Tick
  winEnd : Tick
  deriving DecidableEq, Repr

/-- A track record (R59). -/
structure Track where
  id : Byte
  station : Fin 4
  origin : Tick
  confirm : Tick
  blind : Bool
  vHi : Nat
  vLo : Nat
  valves : List ValveEntry
  gate : Option GateEntry
  stations : List StationEntry
  retire : Tick
  quenched : Bool
  matched : List (Fin 4)
  capture : Option Word16
  deriving DecidableEq, Repr

/-! ### Quench Unit (chapter 5) -/

/-- A valve (R74) with its flow switch as last sampled. -/
structure Valve where
  state : ValveState
  output : Bool
  openTick : Tick
  timer : Option Tick
  confirmed : Bool
  flow : Bool
  deriving DecidableEq, Repr

/-- The abort gate (R74) with its position switches as last sampled. -/
structure Gate where
  state : GateState
  openDrive : Bool
  closeDrive : Bool
  cmdTick : Tick
  timer : Option Tick
  troubleMark : Bool
  openSwitch : Bool
  closedSwitch : Bool
  deriving DecidableEq, Repr

/-- A running test opening (R88). -/
structure TestRun where
  valve : Fin 2
  until_ : Tick
  deriving DecidableEq, Repr

/-! ### Duct Controller (chapter 6) -/

/-- The recorded stop: kind, cause and asserted level, absent outside STOPPING and STOPPED (R91). -/
structure Stop where
  kind : StopKind
  cause : StopCause
  level : Level
  deriving DecidableEq, Repr

/-- A Duct Controller (R91). -/
structure Ctl where
  state : DuctState
  stop : Option Stop
  start : Option Tick
  arm : Option Tick
  windowClean : Bool
  cleanCount : Nat
  rateCount : Nat
  rate : Option Tick
  quiet : Option Tick
  lowFlow : Option Tick
  purge : Option Tick
  listMark : Bool
  feeder : Bool
  fan : Bool
  deriving DecidableEq, Repr

/-- An overlay entry (R115). -/
structure Overlay where
  owner : Port
  expiry : Tick
  params : RateParams
  deriving DecidableEq, Repr

/-- What the five blocks of one duct hold: Velocity Unit, Track Unit (track list and next-id count), Quench Unit (valves,
gate, flood, test), Duct Controller and Overlay Stack (top entry first). -/
structure Duct where
  vel : Velocity
  tracks : List Track
  nextId : Byte
  valves : Vector Valve 2
  gate : Gate
  flood : Option Tick
  test : Option TestRun
  ctl : Ctl
  overlays : List Overlay
  deriving DecidableEq, Repr

/-! ### Doors and sirens (chapters 8 and 9) -/

/-- A door record (R125); the hold set is the expiry of FP's hold and of PC's hold. -/
structure Door where
  state : DoorState
  holdFp : Option Tick
  holdPc : Option Tick
  cause : Option ReleaseCause
  obstruction : Option Tick
  close : Option Tick
  propped : Option Tick
  closedSwitch : Bool
  barrier : Bool
  magnet : Bool
  deriving DecidableEq, Repr

/-- A manual demand (R142). -/
structure Manual where
  pattern : Pattern
  until_ : Tick
  deriving DecidableEq, Repr

/-- A siren record (R142). -/
structure Siren where
  demand : Option Pattern
  manualFp : Option Manual
  manualPc : Option Manual
  snapshot : ZoneMask
  allClear : Option Tick
  test : Option Tick
  sounding : Bool
  drive : Bool
  deriving DecidableEq, Repr

/-- The Arbiter's view of one zone (R143). -/
structure ZoneView where
  level : Level
  acked : AckSet
  deriving DecidableEq, Repr

/-- The Siren Arbiter (R142, R143). -/
structure Arbiter where
  sirens : Vector Siren 8
  view : Vector ZoneView 16
  pointer : Fin 8
  mark : Option (Fin 8)
  slot : Option Tick
  cadence : Option Tick
  phaseOn : Bool
  units : Nat
  deriving DecidableEq, Repr

/-! ### Capture Store (chapter 10) -/

/-- A capture record: header (R161) and sample words. -/
structure Capture where
  sequence : Word16
  duct : Fin 4
  station : Fin 4
  origin : Tick
  confirm : Tick
  trackId : Option Byte
  matched : Bool
  channels : List (Fin 16)
  preHeld : Nat
  post : Nat
  extra : Nat
  vHi : Nat
  vLo : Nat
  words : List Code
  deriving DecidableEq, Repr

/-- A capture block: FREE, FILLING with the post samples still to come, or STORED (R159). -/
inductive Block where
  | free
  | filling (record : Capture) (remaining : Nat)
  | stored (record : Capture)
  deriving DecidableEq, Repr

/-- The Capture Store (R159). `filling` is indexed by 4 x duct + station. -/
structure Captures where
  layout : Fin 3
  pre : Nat
  post : Nat
  blocks : List Block
  filling : Vector (Option Nat) 16
  stored : List Nat
  nextSeq : Word16
  lost : Bool
  deriving DecidableEq, Repr

/-! ### Port Units (chapter 11) -/

/-- The receiver state with its partial frame (R171): in BODY the body length and the bytes so far, in CRC the body and
the low CRC byte once it has been received. -/
inductive Rx where
  | hunting
  | length
  | body (size : Nat) (got : List Byte)
  | crc (body : List Byte) (low : Option Byte)
  deriving DecidableEq, Repr

/-- A response frame's content (R189). -/
structure Response where
  code : Byte
  number : Byte
  result : Result
  payload : List Byte
  deriving DecidableEq, Repr

/-- A queued notice (R176) with the tick of its admission, which the age timer follows (R178). -/
structure Notice where
  sequence : Word16
  time : BitVec 32
  kind : NoticeKind
  subject : Byte
  old : Byte
  new : Byte
  cause : Byte
  detail : List Byte
  urgent : Bool
  admitted : Tick
  deriving DecidableEq, Repr

/-- A request that waits for its response: only WRITE_STORE ever does (R173). -/
structure PendingRequest where
  code : Byte
  number : Byte
  deriving DecidableEq, Repr

/-- A Port Unit (R169); `rxTick` is the tick of the last byte received. -/
structure PortUnit where
  rx : Rx
  rxTick : Tick
  waiting : Option PendingRequest
  tx : List Response
  queue : List Notice
  overflow : Bool
  nextSeq : Word16
  subscription : Byte
  threshold : Nat
  age : Nat
  ageTimer : Option Tick
  line : Bool
  deriving DecidableEq, Repr

/-! ### Store Loader (chapter 12) -/

/-- A store write in progress: page offset, the 32 bytes sent, and the completion tick (R186). -/
structure StoreWrite where
  offset : StoreAddr
  bytes : Vector Byte 32
  due : Tick
  deriving DecidableEq, Repr

/-- The Store Loader (chapter 12). The store-write busy mark is set exactly while `write` is not none; NONE is the
failing check code none. -/
structure Loader where
  state : LoadState
  failing : Option CheckCode
  imageCrc : Word16
  write : Option StoreWrite
  deriving DecidableEq, Repr

/-- The key switch: the accepted state, and how many consecutive samples have differed from it (R170; Assumption 37). -/
structure KeySwitch where
  accepted : KeyState
  count : Nat
  deriving DecidableEq, Repr

/-! ### Leads and their samples -/

/-- The two lines of a contact input (R17). -/
structure ContactLines where
  supervision : Bool
  line : Bool
  deriving DecidableEq, Repr

/-- The level of the leads that the part samples of itself: flow switches and gate position switches (R74), contact inputs (R17),
closed switches and obstruction barriers of the doors (R127), and the key switch (R170). -/
structure Leads where
  flow : Vector (Vector Bool 2) 4
  gateOpen : Vector Bool 4
  gateClosed : Vector Bool 4
  contacts : Vector ContactLines 8
  closedSwitches : Vector Bool 12
  barriers : Vector Bool 12
  key : KeyState
  deriving DecidableEq, Repr

/-- What the part samples of itself, each at its own cadence: the key switch (R170), the contact inputs (R17), the stations (R23),
the transducers (R43), the flow switches and gate position switches (R74), and the inputs of the doors (R127). -/
inductive Sampler where
  | key
  | contact (i : Fin 8)
  | station (d st : Fin 4)
  | transducer (d : Fin 4)
  | flow (d : Fin 4) (v : Fin 2)
  | gate (d : Fin 4) (which : GateSwitch)
  | closedSwitch (i : Fin 12)
  | barrier (i : Fin 12)
  deriving DecidableEq, Repr

/-! ### The whole block -/

/-- The state of the CX-240. `store` is the external store of 4096 bytes in canonical form, `resetLow` the external reset
lead, `samples` the tick of the last sample of every input, `free` the model's own counter of free values, `pending` the commands
that wait, first in first out. -/
structure State where
  tick : Tick
  resetLow : Bool
  cfg : Cfg
  zones : Vector Zone 16
  inputs : Vector Input 8
  channels : Vector Channel 16
  stations : Vector Station 16
  ducts : Vector Duct 4
  doors : Vector Door 12
  arbiter : Arbiter
  captures : Captures
  ports : Vector PortUnit 3
  key : KeySwitch
  loader : Loader
  store : List Host.Cell
  leads : Leads
  samples : Vector Tick 69
  free : Nat
  pending : List Instr
  deriving DecidableEq, Repr

/-- The reasons a command can stop with a fault: there are none. Every command of the block goes on in every state, and
the one memory, the external store, has no address outside its 4096 bytes. (Safe: nothing raises it;
Assumption 33.) -/
inductive Fault where
  deriving DecidableEq, Repr

/-- The reasons a command can be refused. -/
inductive Refusal where
  /-- A command without a meaning in this model, by its mnemonic. No arm of exec answers with it. (Safe.) -/
  | notModelled (mnemonic : String)
  deriving DecidableEq, Repr

/-! ### Power-on values -/

/-- No rate parameters: what the base set holds before a load (R124: "holds no values"). -/
def RateParams.blank : RateParams := ⟨0, 0, 0, 0, 0, 0⟩

/-- A duct's configured values before a load (Assumption 3). -/
def DuctCfg.blank : DuctCfg :=
  { span := 0, tol := 0, lmin := 0, valves := Vector.replicate 2 ⟨false, 0, 0, 0, 0⟩, gate := ⟨false, 0, 0⟩,
    floodTime := 0, margin := 0, served := 0, startTime := 0, purgeTime := 0, lowFlowGrace := 0, quietTime := 0,
    base := ⟨RateParams.blank, 0, 0, 0⟩ }

/-- The configured values before a load ends in RUNNING: none are held, so every one is zero, none or UNUSED, but for
the port settings, which R182 gives (Assumption 3). -/
def Cfg.blank : Cfg :=
  { zoneKinds := Vector.replicate 12 .unused, inputs := Vector.replicate 8 ⟨none, .normal, 0⟩,
    channels := Vector.replicate 16 none, positions := Vector.replicate 16 none,
    ducts := Vector.replicate 4 DuctCfg.blank, doors := Vector.replicate 12 ⟨0, false, 0, 0, 0⟩,
    budget := 0, slotLength := 0, allClearTime := 0, sirens := Vector.replicate 8 ⟨0, 0⟩,
    layout := 0, pre := 0, post := 0, readyThreshold := 0, ports := Vector.replicate 3 ⟨0, 1, 10⟩ }

/-- A zone record at power-on (R16). -/
def Zone.initial (kind : ZoneKind) : Zone :=
  { kind := kind, causes := Vector.replicate 13 .normal, latch := false, level := .normal, acked := ⟨false, false⟩,
    tag := 0, troubles := [] }

/-- A contact input at power-on (R20). -/
def Input.initial : Input := ⟨.normal, none, 0⟩

/-- A channel at power-on (R41; Assumption 37). -/
def Channel.initial : Channel :=
  { state := .unused, run := 0, runStart := 0, qualified := false, low := 0, clean := 0, ring := [], flash := 0,
    effective := 0 }

/-- The bounds record before a load: R49's blind bounds with the unloaded Lmin (Assumption 6). -/
def Bounds.initial : Bounds := ⟨true, 500, 0, 33554, 0⟩

/-- A Velocity Unit at power-on (R47). -/
def Velocity.initial : Velocity :=
  { count := 0, sum := 0, bad := false, state := .failed, value := 0, hold := none, recovery := 0,
    bounds := Bounds.initial }

/-- A valve at power-on (R90); its flow switch as last sampled is inactive, whatever its lead, until the load reads it
(Assumption 41). -/
def Valve.initial : Valve := ⟨.closed, false, 0, none, false, false⟩

/-- A gate at power-on (R90); its two switches as last sampled are inactive, whatever their leads, until the load reads them
(Assumption 41). -/
def Gate.initial : Gate := ⟨.fault, false, false, 0, none, false, false, false⟩

/-- A Duct Controller at power-on (R113). -/
def Ctl.initial : Ctl :=
  { state := .offline, stop := none, start := none, arm := none, windowClean := false, cleanCount := 0, rateCount := 0,
    rate := none, quiet := none, lowFlow := none, purge := none, listMark := false, feeder := false, fan := false }

/-- The blocks of a duct at power-on (R47, R73, R90, R113, R124). -/
def Duct.initial : Duct :=
  { vel := Velocity.initial, tracks := [], nextId := 0, valves := Vector.replicate 2 Valve.initial,
    gate := Gate.initial, flood := none, test := none, ctl := Ctl.initial, overlays := [] }

/-- A door at power-on (R141). -/
def Door.initial : Door := ⟨.free, none, none, none, none, none, none, true, false, false⟩

/-- A siren at power-on (R157). -/
def Siren.initial : Siren := ⟨none, none, none, 0, none, none, false, false⟩

/-- The Siren Arbiter at power-on (R157). -/
def Arbiter.initial : Arbiter :=
  { sirens := Vector.replicate 8 Siren.initial, view := Vector.replicate 16 ⟨.normal, ⟨false, false⟩⟩, pointer := 0,
    mark := none, slot := none, cadence := none, phaseOn := true, units := 0 }

/-- The Capture Store at power-on (R168); the layout holds no values yet and stands at 0 (Assumption 3). -/
def Captures.initial : Captures :=
  { layout := 0, pre := 0, post := 0, blocks := List.replicate 16 .free, filling := Vector.replicate 16 none,
    stored := [], nextSeq := 0, lost := false }

/-- A Port Unit at power-on (R182; Assumption 37). -/
def PortUnit.initial : PortUnit :=
  { rx := .hunting, rxTick := 0, waiting := none, tx := [], queue := [], overflow := false, nextSeq := 0,
    subscription := 0, threshold := 1, age := 10, ageTimer := none, line := false }

/-- The Store Loader at power-on (R183). -/
def Loader.initial : Loader := ⟨.loading, none, 0, none⟩

/-- Leads that no command has moved yet: every switch and line inactive but the closed switches of the doors, which are active,
and the key open (Assumption 7). -/
def Leads.initial : Leads :=
  { flow := Vector.replicate 4 (Vector.replicate 2 false), gateOpen := Vector.replicate 4 false,
    gateClosed := Vector.replicate 4 false, contacts := Vector.replicate 8 ⟨false, false⟩,
    closedSwitches := Vector.replicate 12 true, barriers := Vector.replicate 12 false, key := .opened }

/-- The zone records at power-on: zones 0-3 are of kind DUCT, the others UNUSED until a load (R16, Assumption 3). -/
def initialZones : Vector Zone 16 :=
  Vector.ofFn fun z => Zone.initial (if z.val < 4 then .duct else .unused)

/-- The machine right after reset: the power-on event has taken place (R183), the load begins at tick 0, the external
store lists nothing (every byte reads 0xFF, Assumption 8), no command waits (Assumption 38). -/
def State.reset : State :=
  { tick := 0, resetLow := false, cfg := Cfg.blank, zones := initialZones, inputs := Vector.replicate 8 Input.initial,
    channels := Vector.replicate 16 Channel.initial, stations := Vector.replicate 16 ⟨0, false⟩,
    ducts := Vector.replicate 4 Duct.initial, doors := Vector.replicate 12 Door.initial, arbiter := Arbiter.initial,
    captures := Captures.initial, ports := Vector.replicate 3 PortUnit.initial, key := ⟨.opened, 0⟩,
    loader := Loader.initial, store := [], leads := Leads.initial, samples := Vector.replicate 69 0, free := 0, pending := [] }

/-! ### Reads and updates by name -/

/-- The place of a port's unit. -/
def portIx : Port → Fin 3
  | .fp => 0
  | .pc => 1
  | .sv => 2

/-- The place of a station among the 16 pairs of duct and station. -/
def stationIx (d st : Fin 4) : Fin 16 := ⟨4 * d.val + st.val, by omega⟩

/-- The duct zone of a duct (R1). -/
def ductZone (d : Fin 4) : Fin 16 := ⟨d.val, by omega⟩

/-- The place of an input among the 69 that the part samples. -/
def Sampler.ix : Sampler → Fin 69
  | .key => 0
  | .contact i => ⟨1 + i.val, by omega⟩
  | .station d st => ⟨9 + (4 * d.val + st.val), by omega⟩
  | .transducer d => ⟨25 + d.val, by omega⟩
  | .flow d v => ⟨29 + (2 * d.val + v.val), by omega⟩
  | .gate d .openSwitch => ⟨37 + d.val, by omega⟩
  | .gate d .closedSwitch => ⟨41 + d.val, by omega⟩
  | .closedSwitch i => ⟨45 + i.val, by omega⟩
  | .barrier i => ⟨57 + i.val, by omega⟩

/-- The zone record of zone `z`. -/
def State.zone (s : State) (z : Fin 16) : Zone := s.zones[z]
/-- The blocks of duct `d`. -/
def State.duct (s : State) (d : Fin 4) : Duct := s.ducts[d]
/-- The configured values of duct `d`. -/
def State.ductCfg (s : State) (d : Fin 4) : DuctCfg := s.cfg.ducts[d]
/-- Channel `c`. -/
def State.channel (s : State) (c : Fin 16) : Channel := s.channels[c]
/-- The station record of station `st` of duct `d`. -/
def State.station (s : State) (d st : Fin 4) : Station := s.stations[stationIx d st]
/-- Door `i`. -/
def State.door (s : State) (i : Fin 12) : Door := s.doors[i]
/-- Contact input `i`. -/
def State.input (s : State) (i : Fin 8) : Input := s.inputs[i]
/-- The Port Unit of a port. -/
def State.port (s : State) (p : Port) : PortUnit := s.ports[portIx p]
/-- The tick of the last sample of an input (Assumption 37). -/
def State.sampled (s : State) (x : Sampler) : Tick := s.samples[x.ix]

/-- Replace zone record `z`. -/
def State.setZone (s : State) (z : Fin 16) (x : Zone) : State := { s with zones := s.zones.set z x }
/-- Replace the blocks of duct `d`. -/
def State.setDuct (s : State) (d : Fin 4) (x : Duct) : State := { s with ducts := s.ducts.set d x }
/-- Replace channel `c`. -/
def State.setChannel (s : State) (c : Fin 16) (x : Channel) : State := { s with channels := s.channels.set c x }
/-- Replace the station record of station `st` of duct `d`. -/
def State.setStation (s : State) (d st : Fin 4) (x : Station) : State :=
  { s with stations := s.stations.set (stationIx d st) x }
/-- Replace door `i`. -/
def State.setDoor (s : State) (i : Fin 12) (x : Door) : State := { s with doors := s.doors.set i x }
/-- Replace contact input `i`. -/
def State.setInput (s : State) (i : Fin 8) (x : Input) : State := { s with inputs := s.inputs.set i x }
/-- Replace the Port Unit of a port. -/
def State.setPort (s : State) (p : Port) (x : PortUnit) : State := { s with ports := s.ports.set (portIx p) x }
/-- Replace the Siren Arbiter. -/
def State.setArbiter (s : State) (x : Arbiter) : State := { s with arbiter := x }
/-- Replace the Capture Store. -/
def State.setCaptures (s : State) (x : Captures) : State := { s with captures := x }
/-- Replace the Store Loader. -/
def State.setLoader (s : State) (x : Loader) : State := { s with loader := x }
/-- Replace the levels of the leads. -/
def State.setLeads (s : State) (x : Leads) : State := { s with leads := x }
/-- An input has been sampled at the present tick. -/
def State.tookSample (s : State) (x : Sampler) : State := { s with samples := s.samples.set x.ix s.tick }

end Sys2Proof.Machine
end

