-- ==== Sys2Proof/Machine/Operands.lean ====
section
/-! DEFINITION. The encodings of fields on the links and in the configuration image (R189, R190): named values as
numbers, fields as bytes (least significant byte first), optional fields and lists, and the reading of a request's
operands, with the clamping of R175. -/

namespace Sys2Proof.Machine

open Sys2Proof

/-! ### Fields as bytes -/

/-- A one-byte field: counts, numbers and named values (R190). -/
def byteOf (n : Nat) : Byte := BitVec.ofNat 8 n

/-- A flag, 0 or 1 (R190). -/
def flagByte (b : Bool) : Byte := if b then 1 else 0

/-- A one-byte field. -/
def le8 (n : Nat) : List Byte := [byteOf n]

/-- A flag as a field. -/
def leFlag (b : Bool) : List Byte := [flagByte b]

/-- A two-byte field, least significant byte first. -/
def le16 (w : Word16) : List Byte := [w.truncate 8, (w >>> 8).truncate 8]

/-- A two-byte field of a number. -/
def leNat16 (n : Nat) : List Byte := le16 (BitVec.ofNat 16 n)

/-- A four-byte field: ticks, clock readings, margins in two's complement, reciprocals (R190). -/
def le32 (w : BitVec 32) : List Byte :=
  [w.truncate 8, (w >>> 8).truncate 8, (w >>> 16).truncate 8, (w >>> 24).truncate 8]

/-- A four-byte field of a number. -/
def leNat32 (n : Nat) : List Byte := le32 (BitVec.ofNat 32 n)

/-- A named value that may be absent: 0xFF when absent (R190). -/
def absentByte : Byte := 0xFF

/-- A one-byte named value that may be absent. -/
def optByte (o : Option Byte) : Byte := o.getD absentByte

/-- An optional field of `size` bytes: a presence byte, and the field or zeros in its full size (R190). -/
def optField (size : Nat) (o : Option (List Byte)) : List Byte :=
  match o with
  | some bs => 1 :: bs
  | none => 0 :: List.replicate size 0

/-- An optional tick with its presence byte. -/
def optTick (o : Option Tick) : List Byte := optField 4 (o.map le32)

/-- A list: a count byte and the entries (R190). -/
def listField (entries : List (List Byte)) : List Byte := byteOf entries.length :: entries.flatten

/-- `bs` filled with `fill` to `size` bytes. -/
def padTo (size : Nat) (fill : Byte) (bs : List Byte) : List Byte := bs ++ List.replicate (size - bs.length) fill

/-- A duct's number, 1-4. -/
def ductNumber (d : Fin 4) : Byte := byteOf (d.val + 1)

/-- Duct and station together: the duct in the upper four bits, the station in the lower four (R190). -/
def ductStationByte (d st : Fin 4) : Byte := byteOf (16 * (d.val + 1) + st.val)

/-- A 16-bit word of two bytes, low byte first. -/
def wordOf (lo hi : Byte) : Word16 := hi ++ lo

/-! ### Named values as numbers (R190: numbered from 0 in the order of the table or list that defines them) -/

/-- NORMAL 0, WATCH 1, ALARM 2, FIRE 3. -/
def Level.num : Level → Nat
  | .normal => 0 | .watch => 1 | .alarm => 2 | .fire => 3

/-- The level of a number, if it is one. -/
def levelOfNat : Nat → Option Level
  | 0 => some .normal | 1 => some .watch | 2 => some .alarm | 3 => some .fire | _ => none

/-- FP 0, PC 1, SV 2. -/
def portNum (p : Port) : Nat := (portIx p).val

/-- Zone kinds in the order of R2. -/
def ZoneKind.num : ZoneKind → Nat
  | .duct => 0 | .hall => 1 | .filter => 2 | .boiler => 3 | .yard => 4 | .unused => 5

/-- Trouble kinds in the order of R14. -/
def TroubleKind.num : TroubleKind → Nat
  | .channelStuck => 0 | .channelDead => 1 | .channelIsolated => 2 | .reducedCoincidence => 3
  | .stationUnprotected => 4 | .velocityFault => 5 | .lowFlow => 6 | .noFlow => 7 | .valveFault => 8 | .gateFault => 9
  | .doorStuck => 10 | .doorPropped => 11 | .inputFault => 12

/-- Channel states in the order of R22. -/
def ChannelState.num : ChannelState → Nat
  | .unused => 0 | .active => 1 | .isolated => 2 | .fault _ => 3

/-- The fault kind of a channel, absent outside FAULT. -/
def ChannelState.faultKind : ChannelState → Option FaultKind
  | .fault k => some k
  | _ => none

/-- STUCK 0, DEAD 1. -/
def FaultKind.num : FaultKind → Nat
  | .stuck => 0 | .dead => 1

/-- VALID 0, HELD 1, FAILED 2. -/
def VelState.num : VelState → Nat
  | .valid => 0 | .held => 1 | .failed => 2

/-- CLOSED 0, OPEN 1, FAULT 2. -/
def ValveState.num : ValveState → Nat
  | .closed => 0 | .opened => 1 | .fault => 2

/-- OPEN 0, CLOSING 1, CLOSED 2, OPENING 3, FAULT 4. -/
def GateState.num : GateState → Nat
  | .opened => 0 | .closing => 1 | .closed => 2 | .opening => 3 | .fault => 4

/-- Duct states in the order of R91. -/
def DuctState.num : DuctState → Nat
  | .offline => 0 | .starting => 1 | .arming => 2 | .guarded => 3 | .alert => 4 | .stopping => 5 | .stopped => 6

/-- ORDERLY 0, FIRE 1. -/
def StopKind.num : StopKind → Nat
  | .orderly => 0 | .fire => 1

/-- Stop causes in the order of R103. -/
def StopCause.num : StopCause → Nat
  | .stopRequest => 0 | .lowFlow => 1 | .noFlow => 2 | .startGate => 3 | .sparkRate => 4 | .zoneFire => 5
  | .diverted => 6 | .outrun => 7 | .overflow => 8

/-- Door states in the order of R125. -/
def DoorState.num : DoorState → Nat
  | .free => 0 | .held => 1 | .releaseWait => 2 | .closing => 3 | .stuck => 4

/-- Release causes in the order of R125. -/
def ReleaseCause.num : ReleaseCause → Nat
  | .holdExpired => 0 | .holdWithdrawn => 1 | .closeRequest => 2 | .zoneAlarm => 3 | .zoneFire => 4

/-- EVACUATE 0, ALERT 1, ALL_CLEAR 2, TEST 3. -/
def Pattern.num : Pattern → Nat
  | .evacuate => 0 | .alert => 1 | .allClear => 2 | .test => 3

/-- A siren demand; none is 0xFF (R190). -/
def demandByte (o : Option Pattern) : Byte := optByte (o.map fun p => byteOf p.num)

/-- Notice kinds, in the order of R190; also their place in a subscription. -/
def NoticeKind.num : NoticeKind → Nat
  | .zone => 0 | .duct => 1 | .detection => 2 | .trouble => 3 | .door => 4 | .siren => 5 | .overlay => 6
  | .captureReady => 7

/-- Result codes (13.2). -/
def Result.num : Result → Nat
  | .ok => 0 | .unknown => 1 | .length => 2 | .denied => 3 | .key => 4 | .range => 5 | .stale => 6 | .notNow => 7
  | .busy => 8 | .stackFull => 9 | .stackEmpty => 10 | .notOwner => 11 | .noData => 12

/-- LOADING 0, RUNNING 1, SAFE_HOLD 2. -/
def LoadState.num : LoadState → Nat
  | .loading => 0 | .running => 1 | .safeHold => 2

/-- NONE 0, then 1-9 in the order of R184. -/
def checkNum : Option CheckCode → Nat
  | none => 0
  | some .crc => 1
  | some .magic => 2
  | some .version => 3
  | some .sections => 4
  | some .fieldRange => 5
  | some .servedMask => 6
  | some .channelStation => 7
  | some .sirenWeight => 8
  | some .captureFit => 9

/-- An acknowledged set: bit 0 FP, bit 1 PC (R190). -/
def AckSet.byte (a : AckSet) : Byte := byteOf ((if a.fp then 1 else 0) + (if a.pc then 2 else 0))

/-- Causes of a ZONE notice, in the order of R6. -/
inductive ZoneCause where
  | ductState | velocity | ember | input | declaration | acknowledge | reset
  deriving DecidableEq, Repr

/-- The number of a ZONE notice's cause; the first five number the cause kinds of R2 too. -/
def ZoneCause.num : ZoneCause → Nat
  | .ductState => 0 | .velocity => 1 | .ember => 2 | .input => 3 | .declaration => 4 | .acknowledge => 5 | .reset => 6

/-- Causes of a DUCT notice (R190). -/
inductive DuctCause where
  | velocity | valve | gate | flood | test | outrun | diverted | state
  deriving DecidableEq, Repr

/-- The number of a DUCT notice's cause. -/
def DuctCause.num : DuctCause → Nat
  | .velocity => 0 | .valve => 1 | .gate => 2 | .flood => 3 | .test => 4 | .outrun => 5 | .diverted => 6 | .state => 7

/-- Causes of a DETECTION notice (R190). -/
inductive DetectionCause where
  | tracked | matched | overflow | retired | unconfirmed
  deriving DecidableEq, Repr

/-- The number of a DETECTION notice's cause. -/
def DetectionCause.num : DetectionCause → Nat
  | .tracked => 0 | .matched => 1 | .overflow => 2 | .retired => 3 | .unconfirmed => 4

/-- Causes of a DOOR notice: a release cause, or one of the further causes in the order of R139's table. -/
inductive DoorCause where
  | release (c : ReleaseCause)
  | hold | unhold | expiry | barrier | waitExpired | closed | closeTimeout
  deriving DecidableEq, Repr

/-- The number of a DOOR notice's cause: the release causes in R125's order, the others numbered on after them (R190). -/
def DoorCause.num : DoorCause → Nat
  | .release c => c.num
  | .hold => 5 | .unhold => 6 | .expiry => 7 | .barrier => 8 | .waitExpired => 9 | .closed => 10 | .closeTimeout => 11

/-- Causes of a SIREN notice, in the order of R155. -/
inductive SirenCause where
  | zone | manual | allClear | test | expiry | silence | resound | grant | rotation
  deriving DecidableEq, Repr

/-- The number of a SIREN notice's cause. -/
def SirenCause.num : SirenCause → Nat
  | .zone => 0 | .manual => 1 | .allClear => 2 | .test => 3 | .expiry => 4 | .silence => 5 | .resound => 6 | .grant => 7
  | .rotation => 8

/-- Causes of an OVERLAY notice, in the order of R122. -/
inductive OverlayCause where
  | pushed | popped | expired | cleared
  deriving DecidableEq, Repr

/-- The number of an OVERLAY notice's cause. -/
def OverlayCause.num : OverlayCause → Nat
  | .pushed => 0 | .popped => 1 | .expired => 2 | .cleared => 3

/-- Causes of a CAPTURE_READY notice, in the order of R164. -/
inductive CaptureCause where
  | ready | lost | layout
  deriving DecidableEq, Repr

/-- The number of a CAPTURE_READY notice's cause. -/
def CaptureCause.num : CaptureCause → Nat
  | .ready => 0 | .lost => 1 | .layout => 2

/-- What ended a gate's stroke (R78): switch 0, expiry 1, command 2. -/
inductive StrokeEnd where
  | switch | expiry | command
  deriving DecidableEq, Repr

/-- The number of a stroke end. -/
def StrokeEnd.num : StrokeEnd → Nat
  | .switch => 0 | .expiry => 1 | .command => 2

/-! ### Request codes (13.2) -/

/-- READ_IDENT. -/
def codeReadIdent : Byte := 0x01
/-- READ_ZONES. -/
def codeReadZones : Byte := 0x10
/-- ACK_ZONE. -/
def codeAckZone : Byte := 0x11
/-- DECLARE. -/
def codeDeclare : Byte := 0x12
/-- WITHDRAW. -/
def codeWithdraw : Byte := 0x13
/-- RESET_ZONE. -/
def codeResetZone : Byte := 0x14
/-- READ_DUCT. -/
def codeReadDuct : Byte := 0x20
/-- START_DUCT. -/
def codeStartDuct : Byte := 0x21
/-- STOP_DUCT. -/
def codeStopDuct : Byte := 0x22
/-- RESET_DUCT. -/
def codeResetDuct : Byte := 0x23
/-- READ_TRACKS. -/
def codeReadTracks : Byte := 0x24
/-- READ_CHANNELS. -/
def codeReadChannels : Byte := 0x30
/-- ISOLATE_CHANNEL. -/
def codeIsolateChannel : Byte := 0x31
/-- RESTORE_CHANNEL. -/
def codeRestoreChannel : Byte := 0x32
/-- CLEAR_CHANNEL_FAULT. -/
def codeClearChannelFault : Byte := 0x33
/-- TEST_VALVE. -/
def codeTestValve : Byte := 0x40
/-- READ_OVERLAYS. -/
def codeReadOverlays : Byte := 0x50
/-- PUSH_OVERLAY. -/
def codePushOverlay : Byte := 0x51
/-- POP_OVERLAY. -/
def codePopOverlay : Byte := 0x52
/-- READ_DOORS. -/
def codeReadDoors : Byte := 0x60
/-- HOLD_DOOR. -/
def codeHoldDoor : Byte := 0x61
/-- UNHOLD_DOOR. -/
def codeUnholdDoor : Byte := 0x62
/-- CLOSE_DOOR. -/
def codeCloseDoor : Byte := 0x63
/-- READ_SIRENS. -/
def codeReadSirens : Byte := 0x70
/-- SOUND_SIREN. -/
def codeSoundSiren : Byte := 0x71
/-- STOP_SOUND. -/
def codeStopSound : Byte := 0x72
/-- SILENCE. -/
def codeSilence : Byte := 0x73
/-- TEST_SIRENS. -/
def codeTestSirens : Byte := 0x74
/-- READ_CAPTURE. -/
def codeReadCapture : Byte := 0x80
/-- FREE_CAPTURES. -/
def codeFreeCaptures : Byte := 0x81
/-- SET_CAPTURE_LAYOUT. -/
def codeSetCaptureLayout : Byte := 0x82
/-- FETCH_NOTICES. -/
def codeFetchNotices : Byte := 0x90
/-- SET_SUBSCRIPTION. -/
def codeSetSubscription : Byte := 0x91
/-- SET_COALESCING. -/
def codeSetCoalescing : Byte := 0x92
/-- READ_STORE. -/
def codeReadStore : Byte := 0xA0
/-- WRITE_STORE. -/
def codeWriteStore : Byte := 0xA1
/-- RESTART. -/
def codeRestart : Byte := 0xA2

/-- Every request code of the catalogue (R174, 11.4; codes of 13.2). -/
def catalogue : List Byte :=
  [codeReadIdent, codeReadZones, codeAckZone, codeDeclare, codeWithdraw, codeResetZone, codeReadDuct, codeStartDuct,
    codeStopDuct, codeResetDuct, codeReadTracks, codeReadChannels, codeIsolateChannel, codeRestoreChannel,
    codeClearChannelFault, codeTestValve, codeReadOverlays, codePushOverlay, codePopOverlay] ++
  [codeReadDoors, codeHoldDoor, codeUnholdDoor, codeCloseDoor, codeReadSirens, codeSoundSiren, codeStopSound,
    codeSilence, codeTestSirens, codeReadCapture, codeFreeCaptures, codeSetCaptureLayout, codeFetchNotices,
    codeSetSubscription, codeSetCoalescing, codeReadStore, codeWriteStore, codeRestart]

/-! ### Operands -/

/-- An index operand below `n`, or none where it lies outside its range. -/
def indexBelow (n : Nat) (b : Byte) : Option (Fin n) := if h : b.toNat < n then some ⟨b.toNat, h⟩ else none

/-- A duct operand, 1-4. -/
def ductOperand (b : Byte) : Option (Fin 4) :=
  if h : 1 ≤ b.toNat ∧ b.toNat ≤ 4 then some ⟨b.toNat - 1, by omega⟩ else none

/-- A zone operand, 0-15. -/
def zoneOperand (b : Byte) : Option (Fin 16) := indexBelow 16 b

/-- A channel operand, 0-15. -/
def channelOperand (b : Byte) : Option (Fin 16) := indexBelow 16 b

/-- A valve operand, E1 0 or E2 1. -/
def valveOperand (b : Byte) : Option (Fin 2) := indexBelow 2 b

/-- A door operand, 0-11. -/
def doorOperand (b : Byte) : Option (Fin 12) := indexBelow 12 b

/-- A siren operand, 0-7. -/
def sirenOperand (b : Byte) : Option (Fin 8) := indexBelow 8 b

/-- An operand replaced by the nearer end of its range when it lies outside it (00_scope, R175). -/
def clamp (lo hi n : Nat) : Nat := max lo (min hi n)

/-- A seconds operand as ticks: one second is 4000 ticks (00_scope). -/
def secondsTicks (n : Nat) : Nat := 4000 * n

/-- A milliseconds value as ticks: one millisecond is 4 ticks (00_scope). -/
def msTicks (n : Nat) : Nat := 4 * n

/-- Siren `i` is named by a mask. -/
def sirenIn (mask : Byte) (i : Fin 8) : Bool := mask.getLsbD i.val

/-- Zone `z` is in a zone mask. -/
def zoneIn (mask : ZoneMask) (z : Fin 16) : Bool := mask.getLsbD z.val

/-- The zone mask that holds exactly the zones where `f` is true. -/
def maskOf (f : Fin 16 → Bool) : ZoneMask :=
  (List.finRange 16).foldl (fun m z => if f z then m ||| BitVec.twoPow 16 z.val else m) 0

end Sys2Proof.Machine
end

