-- ==== Sys2Proof/Machine/Flags.lean ====
section
/-! DEFINITION. The derived conditions of the spec: levels, marks, flags and outputs that a rule computes from other
values. Each is a plain function of records; the blocks' events store what these give. -/

namespace Sys2Proof.Machine

open Sys2Proof

/-! ### Levels (R4, R5) -/

/-- `a` is at `b` or above in NORMAL < WATCH < ALARM < FIRE. -/
def Level.atLeast (a b : Level) : Bool := decide (b.num ≤ a.num)

/-- `a` is above `b`. -/
def Level.above (a b : Level) : Bool := decide (b.num < a.num)

/-- The higher of two levels. -/
def Level.max (a b : Level) : Level := if a.num < b.num then b else a

/-- The places of a zone's cause set, in the order of R15. -/
inductive CauseKey where
  | ductState | velocity | ember | input (i : Fin 8) | declaration (p : Port)
  deriving DecidableEq, Repr

/-- The place of a cause kind and source. Only FP and PC declare (R2); the place of PC stands for any other port. -/
def CauseKey.ix : CauseKey → Fin 13
  | .ductState => 0
  | .velocity => 1
  | .ember => 2
  | .input i => ⟨3 + i.val, by omega⟩
  | .declaration .fp => 11
  | .declaration _ => 12

/-- The notice cause of a posting (R6). -/
def CauseKey.cause : CauseKey → ZoneCause
  | .ductState => .ductState
  | .velocity => .velocity
  | .ember => .ember
  | .input _ => .input
  | .declaration _ => .declaration

/-- The highest level among the records of a cause set, NORMAL when it is empty (R4). -/
def causesLevel (causes : Vector Level 13) : Level :=
  (List.finRange 13).foldl (fun l i => l.max causes[i]) .normal

/-- The level of a zone from its latch and its cause set (R4). -/
def deriveLevel (latch : Bool) (causes : Vector Level 13) : Level := if latch then .fire else causesLevel causes

/-- No port has acknowledged. -/
def AckSet.none : AckSet := ⟨false, false⟩

/-- The acknowledged set is empty. -/
def AckSet.isEmpty (a : AckSet) : Bool := !a.fp && !a.pc

/-- The set with a port added; SV never acknowledges (R2). -/
def AckSet.add (a : AckSet) : Port → AckSet
  | .fp => ⟨true, a.pc⟩
  | .pc => ⟨a.fp, true⟩
  | .sv => a

/-- The port is in the set. -/
def AckSet.has (a : AckSet) : Port → Bool
  | .fp => a.fp
  | .pc => a.pc
  | .sv => false

/-- A zone record after an event that changed its cause set, latch or acknowledged set to those of `raw`: the level is
derived and the latch set at FIRE (R4), the acknowledged set emptied where the level rises, falls to NORMAL or the zone
is reset, and the tag increased once where level, latch or acknowledged set changed (R5). -/
def settleZone (old raw : Zone) (reset : Bool) : Zone :=
  let level := deriveLevel raw.latch raw.causes
  let latch := raw.latch || decide (level = .fire)
  let emptied := level.above old.level || (old.level.above level && decide (level = .normal)) || reset
  let acked := if emptied then AckSet.none else raw.acked
  let changed := decide (level ≠ old.level) || decide (latch ≠ old.latch) || decide (acked ≠ old.acked)
  { raw with level := level, latch := latch, acked := acked, tag := if changed then old.tag + 1 else old.tag }

/-- The event increased the zone's change tag (R5, R6). -/
def zoneChanged (old new : Zone) : Bool :=
  decide (new.level ≠ old.level) || decide (new.latch ≠ old.latch) || decide (new.acked ≠ old.acked)

/-- The sensed state of a contact input's two lines (R17). -/
def sensedOf (supervision line : Bool) : Sensed :=
  if supervision then .fault else if line then .active else .normal

/-! ### Detection (R24, R31, R116) -/

/-- The effective threshold of a channel: base plus offset, at most 4095 (R24). -/
def effectiveThreshold (base offset : Nat) : Nat := min (base + offset) 4095

/-- The live floor (R22). -/
def liveFloor : Nat := 8

/-- The coincidence requirement: the level capped at ACTIVE channels minus one, never below 0 (R31). -/
def coincidenceRequirement (level active : Nat) : Nat := min level (active - 1)

/-- REDUCED_COINCIDENCE should be present (R31). -/
def reducedCoincidence (level active : Nat) : Bool := decide (0 < active) && decide (active - 1 < level)

/-- The effective parameters that overlays replace: the top entry's, or the base set's (R116). -/
def effectiveParams (base : BaseParams) (stack : List Overlay) : RateParams :=
  match stack with
  | [] => base.rate
  | top :: _ => top.params

/-! ### Velocity bounds and arrivals (R48-R57) -/

/-- The reciprocal P(w) of a velocity (R52). -/
def reciprocal (w : Nat) : Nat := 16777216 / w

/-- The arrival tick offset of distance `d` by the reciprocal `p` (R52). -/
def arrivalBy (d p : Nat) : Nat := d * 400 * p / 16777216

/-- The arrival tick offset T(d, w) (R52). -/
def arrival (d w : Nat) : Nat := arrivalBy d (reciprocal w)

/-- The blind condition (R49). -/
def isBlind (vel : VelState) (duct : DuctState) : Bool :=
  decide (vel = .failed) || decide (duct = .offline) || decide (duct = .stopped)

/-- The lower bound of a trusted velocity (R48). -/
def lowerBound (v tol : Nat) : Nat := min (max (v - tol) 20) 500

/-- The upper bound of a trusted velocity (R48). -/
def upperBound (v tol : Nat) : Nat := max (min (v + tol) 500) (lowerBound v tol)

/-- The bounds record that R48 to R50 give for a velocity and a duct state. -/
def boundsFor (c : DuctCfg) (vel : VelState) (value : Nat) (duct : DuctState) : Bounds :=
  let blind := isBlind vel duct
  let vLo := if blind then c.lmin else lowerBound value c.tol
  let vHi := if blind then 500 else upperBound value c.tol
  ⟨blind, vHi, vLo, reciprocal vHi, reciprocal vLo⟩

/-- A spray window contains a tick: not earlier than the open tick and earlier than the close tick (R54). -/
def ValveEntry.contains (e : ValveEntry) (now : Tick) : Bool :=
  Tick.notLater e.openTick now && Tick.later e.closeTick now

/-- A match window contains an origin tick, both ends included (R62). -/
def StationEntry.admits (e : StationEntry) (origin : Tick) : Bool :=
  Tick.notLater e.winBegin origin && Tick.notLater origin e.winEnd

/-- The later of two ticks. -/
def laterTick (a b : Tick) : Tick := if Tick.later b a then b else a

/-! ### Quench judgment (R75, R79) -/

/-- A valve entry fails at a judgment (R79): it is late, or its valve is in FAULT and its close tick is later than the
valve's opening tick. -/
def entryFails (valves : Vector Valve 2) (e : ValveEntry) : Bool :=
  e.late || (decide (valves[e.valve].state = .fault) && Tick.later e.closeTick valves[e.valve].openTick)

/-- The judgment QUENCHED: at least one valve entry does not fail (R79). -/
def judgeQuenched (valves : Vector Valve 2) (t : Track) : Bool := t.valves.any fun e => !entryFails valves e

/-- The flood is running: the tick is earlier than its end (R75). -/
def floodRuns (flood : Option Tick) (now : Tick) : Bool :=
  match flood with
  | some e => Tick.later e now
  | none => false

/-- A test opening of the valve is running (R75). -/
def testRuns (test : Option TestRun) (v : Fin 2) (now : Tick) : Bool :=
  match test with
  | some t => decide (t.valve = v) && Tick.later t.until_ now
  | none => false

/-- A track of the list has a spray window at the valve that contains the tick (R75). -/
def windowRuns (tracks : List Track) (v : Fin 2) (now : Tick) : Bool :=
  tracks.any fun t => t.valves.any fun e => decide (e.valve = v) && e.contains now

/-- The condition under which a valve's output is on (R75); a valve that is not installed is never driven (R74). -/
def valveWanted (installed : Bool) (D : Duct) (v : Fin 2) (now : Tick) : Bool :=
  installed && (windowRuns D.tracks v now || floodRuns D.flood now || testRuns D.test v now)

/-- The gate's two drives and its timer as its state fixes them (R83). -/
def Gate.withDrives (g : Gate) : Gate :=
  { g with openDrive := decide (g.state = .opening), closeDrive := decide (g.state = .closing) }

/-! ### Duct Controller (R92, R103, R107, R108) -/

/-- The running states (R103). -/
def DuctState.isRunning : DuctState → Bool
  | .starting | .arming | .guarded | .alert => true
  | .offline | .stopping | .stopped => false

/-- The kind of a stop cause (R103). -/
def StopCause.kind : StopCause → StopKind
  | .stopRequest | .lowFlow | .noFlow | .startGate => .orderly
  | .sparkRate | .zoneFire | .diverted | .outrun | .overflow => .fire

/-- The level a stop cause asserts (R103). -/
def StopCause.level : StopCause → Level
  | .stopRequest | .lowFlow | .noFlow | .startGate => .normal
  | .sparkRate | .zoneFire | .diverted => .alarm
  | .outrun | .overflow => .fire

/-- Of two causes arising in one event, the one recorded: the higher level, then the lower place in R103's table. -/
def StopCause.stronger (a b : StopCause) : StopCause :=
  if a.level.num < b.level.num then b
  else if b.level.num < a.level.num then a
  else if a.num < b.num then b else a

/-- The cause recorded of those arising in one event. -/
def strongest (causes : List StopCause) : Option StopCause :=
  causes.foldl (fun o c => some (match o with | none => c | some b => b.stronger c)) none

/-- The feeder permit that a duct state fixes (R92). -/
def feederOn : DuctState → Bool
  | .guarded | .alert => true
  | _ => false

/-- The fan contactor that the duct state, the stop kind and the purge timer fix (R92). -/
def fanOn (state : DuctState) (stop : Option Stop) (purge : Option Tick) : Bool :=
  match state with
  | .starting | .arming | .guarded | .alert => true
  | .stopping => (match stop with | some st => decide (st.kind = .orderly) | none => false) && purge.isSome
  | .offline | .stopped => false

/-- A Duct Controller with its two outputs as R92 fixes them. -/
def Ctl.withOutputs (c : Ctl) : Ctl :=
  { c with feeder := feederOn c.state, fan := fanOn c.state c.stop c.purge }

/-- The duct is in STOPPING of FIRE kind. -/
def Ctl.fireStopping (c : Ctl) : Bool :=
  decide (c.state = .stopping) && (match c.stop with | some st => decide (st.kind = .fire) | none => false)

/-- A STATE notice is urgent when the duct is in STOPPING of FIRE kind and was not before the event (R93). -/
def stateUrgent (before after : Ctl) : Bool := after.fireStopping && !before.fireStopping

/-- The asserted level, NORMAL where none is recorded. -/
def Ctl.asserted (c : Ctl) : Level :=
  match c.stop with
  | some st => st.level
  | none => .normal

/-- The level the DUCT_STATE cause should have (R107). -/
def ductStateLevel (c : Ctl) : Level :=
  match c.state with
  | .offline | .starting | .arming | .guarded => .normal
  | .alert => .watch
  | .stopping | .stopped => c.asserted

/-- The level the VELOCITY cause should have (R108). -/
def velocityLevel (state : DuctState) (vel : VelState) : Level :=
  match state, vel with
  | .guarded, .failed => .watch
  | .alert, .failed => .watch
  | _, _ => .normal

/-- The level the EMBER cause should have (R108). -/
def emberLevel (c : Ctl) : Level :=
  match c.state with
  | .offline | .stopped => if c.listMark then .alarm else .normal
  | _ => .normal

/-! ### Doors (R126, R129) -/

/-- The hold magnet that a door state fixes (R126). -/
def magnetOn : DoorState → Bool
  | .held | .releaseWait => true
  | .free | .closing | .stuck => false

/-- The lowest-numbered zone of a mask (R14). -/
def lowestZone (mask : ZoneMask) : Option (Fin 16) := (List.finRange 16).find? (zoneIn mask)

/-- The zone condition of a door (R129). -/
def zoneCondition (c : DoorCfg) (level : Fin 16 → Level) : Bool :=
  (List.finRange 16).any fun z =>
    zoneIn c.zones z && (decide (level z = .fire) || (c.closeOnAlarm && (level z).atLeast .alarm))

/-- The rank of a release cause (R134): ZONE_FIRE, ZONE_ALARM, CLOSE_REQUEST, then the two hold causes together. -/
def ReleaseCause.rank : ReleaseCause → Nat
  | .holdExpired | .holdWithdrawn => 0
  | .closeRequest => 1
  | .zoneAlarm => 2
  | .zoneFire => 3

/-! ### Sirens (R144, R154) -/

/-- The priority of a pattern (R144). -/
def Pattern.priority : Pattern → Nat
  | .evacuate => 4 | .alert => 3 | .allClear => 2 | .test => 1

/-- The higher of two contributions. -/
def higherPattern : Option Pattern → Option Pattern → Option Pattern
  | none, b => b
  | a, none => a
  | some a, some b => if a.priority < b.priority then some b else some a

/-- A siren's demand: the highest-priority of its contributions, or none (R144). -/
def sirenDemand (cover : ZoneMask) (view : Vector ZoneView 16) (x : Siren) : Option Pattern :=
  let fire := (List.finRange 16).any fun z =>
    zoneIn cover z && !zoneIn x.snapshot z && decide (view[z].level = .fire)
  let alarm := (List.finRange 16).any fun z =>
    zoneIn cover z && !zoneIn x.snapshot z && decide (view[z].level = .alarm) && view[z].acked.isEmpty
  [(if fire then some .evacuate else none), (if alarm then some .alert else none),
    x.manualFp.map Manual.pattern, x.manualPc.map Manual.pattern,
    (if x.allClear.isSome then some .allClear else none), (if x.test.isSome then some .test else none)].foldl
      higherPattern none

/-- A siren's drive (R154): its flag is set, and for ALERT the cadence phase is ON. -/
def sirenDrive (demand : Option Pattern) (sounding phaseOn : Bool) : Bool :=
  sounding && (decide (demand ≠ some .alert) || phaseOn)

/-! ### Captures (R158, R164) -/

/-- The number of blocks of a layout (R158). -/
def blockCount (layout : Fin 3) : Nat := match layout with | 0 => 16 | 1 => 32 | 2 => 64

/-- The block size of a layout in words (R158). -/
def blockSize (layout : Fin 3) : Nat := match layout with | 0 => 512 | 1 => 256 | 2 => 128

/-- The effective ready threshold (R164). -/
def effectiveReady (ready : Nat) (layout : Fin 3) : Nat := min ready (blockCount layout)

/-! ### Ports (R177, R180) -/

/-- A notice kind is in a subscription: bit k for kind k (R190). -/
def subscribed (mask : Byte) (k : NoticeKind) : Bool := mask.getLsbD k.num

/-- The load state is RUNNING. -/
def State.isRunning (s : State) : Bool := decide (s.loader.state = .running)

/-- The store-write busy mark (R186). -/
def State.storeBusy (s : State) : Bool := s.loader.write.isSome

/-- The key is closed: no KEY refusal (R170). -/
def State.keyClosed (s : State) : Bool := decide (s.key.accepted = .closed)

end Sys2Proof.Machine
end

