-- ==== Sys2Proof/Machine/Ops.lean ====
section
/-! DEFINITION. The operations that every block shares: the gate of the reset lead and the load state on events, timers,
the external store, the CRC, the offering of notices to the Port Units, troubles, and the answering of requests. -/

namespace Sys2Proof.Machine

open Sys2Proof

/-- What a command answers. -/
abbrev Answer := Host.Outcome State Fault Refusal

/-! ### Stations (R21) -/

/-- Channel `c` is assigned to station `st` of duct `d`. -/
def assignedTo (c : Cfg) (d st : Fin 4) (ch : Fin 16) : Bool :=
  match c.channels[ch] with
  | some x => decide (x.duct = d) && decide (x.station = st)
  | none => false

/-- The channels of a station, in channel-number order. -/
def stationChannels (c : Cfg) (d st : Fin 4) : List (Fin 16) := (List.finRange 16).filter (assignedTo c d st)

/-- The pair of duct and station number has a channel assigned (R21). -/
def stationConfigured (c : Cfg) (d st : Fin 4) : Bool := !(stationChannels c d st).isEmpty

/-- The position of a configured station. -/
def stationPosition (c : Cfg) (d st : Fin 4) : Nat := c.positions[stationIx d st].getD 0

/-! ### When events are taken -/

/-- An event of the part: while the external reset lead is held low, none is taken (R183). -/
def live (s : State) (f : State → State) : Answer := .next (if s.resetLow then s else f s)

/-- An event that the blocks take only while the load state is RUNNING (R185). -/
def whenRunning (s : State) (f : State → State) : Answer := live s fun s => if s.isRunning then f s else s

/-- The millisecond clock advances at a tick: at every fourth (00_scope, Time). -/
def msAdvances (now : Tick) : Bool := decide (now.toNat % 4 = 0)

/-- An input is sampled at a tick: stations, transducers, flow switches and gate switches at every tick (R23, R43, R74), the key,
the contact inputs and the doors' inputs where the millisecond clock advances (R17, R127, R170). -/
def Sampler.falls (now : Tick) : Sampler → Bool
  | .station _ _ | .transducer _ | .flow _ _ | .gate _ _ => true
  | .key | .contact _ | .closedSwitch _ | .barrier _ => msAdvances now

/-- The part samples an input: the key in every load state (R170), the others while RUNNING, a contact input where it is enabled
(R17), a station where it is configured (R23), the switches of a valve or gate where it is installed (R74). -/
def State.samplesInput (s : State) : Sampler → Bool
  | .key => true
  | .contact i => s.isRunning && s.cfg.inputs[i].zone.isSome
  | .station d st => s.isRunning && stationConfigured s.cfg d st
  | .flow d v => s.isRunning && (s.ductCfg d).valves[v].installed
  | .gate d _ => s.isRunning && (s.ductCfg d).gate.installed
  | .transducer _ | .closedSwitch _ | .barrier _ => s.isRunning

/-- The sample of an input at the present tick is still to be taken (Assumption 10). -/
def sampleDue (s : State) (x : Sampler) : Bool :=
  s.samplesInput x && x.falls s.tick && decide (s.sampled x ≠ s.tick)

/-- The sample of an input is taken where it is due. -/
def sampling (x : Sampler) (f : State → State) (s : State) : State := if sampleDue s x then f (s.tookSample x) else s

/-- A timer expires at the tick its duration reaches (00_scope, Time): it is running and its expiry tick is the present
tick. An expiry command that finds it otherwise does not take place (Assumption 9). -/
def expiresNow (s : State) (timer : Option Tick) : Bool := decide (timer = some s.tick)

/-- The tick `n` ticks after the present tick. -/
def State.after (s : State) (n : Nat) : Tick := s.tick.plus n

/-! ### The external store (chapter 12) -/

/-- What a byte of the store that nothing has written reads as: an absent or unwired store answers every byte as 0xFF
(R183; Assumption 8). -/
def unlistedByte : Byte := 0xFF

/-- The byte of the store at an address. -/
def readCell (m : List Host.Cell) (a : Nat) : Byte :=
  match m with
  | [] => unlistedByte
  | (k, b) :: rest => if k = a then b else if a < k then unlistedByte else readCell rest a

/-- The store with one byte written, in canonical form: a byte that an unlisted address reads as is not listed. -/
def writeCell (m : List Host.Cell) (a : Nat) (b : Byte) : List Host.Cell :=
  match m with
  | [] => if b = unlistedByte then [] else [(a, b)]
  | (k, x) :: rest =>
    if k < a then (k, x) :: writeCell rest a b
    else if k = a then (if b = unlistedByte then rest else (a, b) :: rest)
    else if b = unlistedByte then (k, x) :: rest else (a, b) :: (k, x) :: rest

/-- The canonical form: addresses strictly rising from `lo` and below 4096, no entry equal to the unlisted byte. -/
def wfFrom (lo : Nat) (m : List Host.Cell) : Bool :=
  match m with
  | [] => true
  | (k, b) :: rest => decide (lo ≤ k) && decide (k < 4096) && decide (b ≠ unlistedByte) && wfFrom (k + 1) rest

/-- The store is in its one canonical form. -/
def Memory.wf (m : List Host.Cell) : Bool := wfFrom 0 m

/-- Write a run of bytes from an address on. -/
def writeBytes (m : List Host.Cell) (a : Nat) : List Byte → List Host.Cell
  | [] => m
  | b :: rest => writeBytes (writeCell m a b) (a + 1) rest

/-- The `n` bytes from an address on. -/
def readBytes (m : List Host.Cell) (a n : Nat) : List Byte := (List.range n).map fun i => readCell m (a + i)

/-- The state with a page of the store replaced. -/
def State.putPage (s : State) (a : StoreAddr) (bytes : Vector Byte 32) : State :=
  { s with store := writeBytes s.store a.toNat bytes.toList }

/-! ### The CRC (R189) -/

/-- One of the eight shifts: left one place, and 0x1021 combined where the outgoing top bit was 1. -/
def crcShift (r : Word16) : Word16 := if r.msb then (r <<< 1) ^^^ 0x1021 else r <<< 1

/-- One byte: combined into the upper 8 bits, then eight shifts. -/
def crcByte (r : Word16) (b : Byte) : Word16 :=
  let r0 := r ^^^ (b ++ (0 : Byte))
  crcShift (crcShift (crcShift (crcShift (crcShift (crcShift (crcShift (crcShift r0)))))))

/-- The CRC of a run of bytes, from 0xFFFF, with no reflection and no final inversion. -/
def crc16 (bytes : List Byte) : Word16 := bytes.foldl crcByte 0xFFFF

/-- The bytes of a response frame on the link: sync 0x5A, length, code, number, result, payload, CRC (R189). -/
def Response.frame (r : Response) : List Byte :=
  let body := byteOf (3 + r.payload.length) :: r.code :: r.number :: byteOf r.result.num :: r.payload
  0x5A :: body ++ le16 (crc16 body)

/-! ### Notices (R176-R178) -/

/-- A notice as a block offers it: every field but the port's own sequence and the time. -/
structure Offer where
  kind : NoticeKind
  subject : Byte
  old : Byte
  new : Byte
  cause : Byte
  detail : List Byte
  urgent : Bool
  deriving DecidableEq, Repr

/-- The queue without its oldest notice that is not urgent (R177). -/
def dropOldestPlain : List Notice → List Notice
  | [] => []
  | n :: rest => if n.urgent then n :: dropOldestPlain rest else rest

/-- A notice enters a port's queue at the tail, and the attention line and age timer are evaluated (R177, R178). -/
def enqueueNotice (u : PortUnit) (n : Notice) : PortUnit :=
  let queue := u.queue ++ [n]
  let line := u.line || decide (u.threshold ≤ queue.length) || n.urgent
  let timer := if line then none else if u.queue.isEmpty then some (n.admitted.plus (msTicks u.age)) else u.ageTimer
  { u with queue := queue, line := line, ageTimer := timer }

/-- The notice record that a port makes of an offer (R176). -/
def noticeOf (u : PortUnit) (now : Tick) (o : Offer) : Notice :=
  { sequence := u.nextSeq, time := now.ms, kind := o.kind, subject := o.subject, old := o.old, new := o.new,
    cause := o.cause, detail := padTo 12 0 o.detail, urgent := o.urgent, admitted := now }

/-- A Port Unit takes an offered notice (R176, R177): not kept where its kind is not subscribed; else it takes the next
sequence and is admitted, displaces the oldest notice that is not urgent, or is dropped. -/
def takeNotice (u : PortUnit) (now : Tick) (o : Offer) : PortUnit :=
  if subscribed u.subscription o.kind then
    let n := noticeOf u now o
    let u1 := { u with nextSeq := u.nextSeq + 1 }
    if u.queue.length < 32 then enqueueNotice u1 n
    else if o.urgent && u.queue.any (fun q => !q.urgent) then
      enqueueNotice { u1 with queue := dropOldestPlain u.queue, overflow := true } n
    else { u1 with overflow := true }
  else u

/-- Offer a notice to all three Port Units at once (R176). -/
def offer (o : Offer) (s : State) : State :=
  { s with ports := Vector.ofFn fun i => takeNotice s.ports[i] s.tick o }

/-! ### Troubles (R13, R14) -/

/-- The order of trouble items in a READ_ZONES response: by kind, then by subject (R15). -/
def Trouble.rank (t : Trouble) : Nat := 16 * t.kind.num + t.subject

/-- A trouble set with an item added at its place, where it is absent. -/
def addTrouble (t : Trouble) : List Trouble → List Trouble
  | [] => [t]
  | x :: rest => if x = t then x :: rest else if t.rank < x.rank then t :: x :: rest else x :: addTrouble t rest

/-- The TROUBLE notice of a raise or a clear (R13). -/
def troubleOffer (z : Fin 16) (t : Trouble) (raised : Bool) : Offer :=
  { kind := .trouble, subject := byteOf z.val, old := flagByte (!raised), new := flagByte raised,
    cause := byteOf t.kind.num, detail := le8 t.subject, urgent := false }

/-- Raise a trouble on a zone: added with its notice where it is absent (R13). A duct's troubles carry the duct number, its gate 0
(Assumption 24). -/
def raiseTrouble (z : Fin 16) (kind : TroubleKind) (subject : Nat) (s : State) : State :=
  let t : Trouble := ⟨kind, subject⟩
  if t ∈ (s.zone z).troubles then s
  else offer (troubleOffer z t true) (s.setZone z { s.zone z with troubles := addTrouble t (s.zone z).troubles })

/-- Clear a trouble on a zone: removed with its notice where it is present (R13). -/
def clearTrouble (z : Fin 16) (kind : TroubleKind) (subject : Nat) (s : State) : State :=
  let t : Trouble := ⟨kind, subject⟩
  if t ∈ (s.zone z).troubles then
    offer (troubleOffer z t false) (s.setZone z { s.zone z with troubles := (s.zone z).troubles.erase t })
  else s

/-- Raise or clear a trouble so that it is present exactly where it should be (R31). -/
def setTrouble (z : Fin 16) (kind : TroubleKind) (subject : Nat) (present : Bool) (s : State) : State :=
  if present then raiseTrouble z kind subject s else clearTrouble z kind subject s

/-! ### Requests (R173, R174) -/

/-- The outcome of a request's checks: a result code, the response's payload, and the state after it. -/
structure Reply where
  result : Result
  payload : List Byte
  state : State

/-- A refused request changes nothing (R174); some refusals carry a payload (13.3). -/
def refuseWith (r : Result) (payload : List Byte) (s : State) : Reply := ⟨r, payload, s⟩

/-- A refusal without a payload. -/
def refuse (r : Result) (s : State) : Reply := refuseWith r [] s

/-- An accepted request. -/
def accept (payload : List Byte) (s : State) : Reply := ⟨.ok, payload, s⟩

/-- A response is issued to the port's transmit list (R173). -/
def issue (p : Port) (r : Response) (s : State) : State :=
  s.setPort p { s.port p with tx := (s.port p).tx ++ [r] }

/-- The arrival of a valid frame leaves the receiver in HUNTING (R171; Assumption 13). -/
def frameTaken (p : Port) (s : State) : State := s.setPort p { s.port p with rx := .hunting }

/-- A valid frame is dropped without response: the transmit list holds 4 frames, or 3 while a WRITE_STORE is pending
at the port (R173). -/
def frameDropped (u : PortUnit) : Bool :=
  decide (4 ≤ u.tx.length) || (decide (3 ≤ u.tx.length) && u.waiting.isSome)

/-- A valid frame arrives at a port (R173): dropped where the transmit list is full, answered BUSY where a request is
pending, and otherwise checked and answered in the event of its arrival. -/
def serve (p : Port) (code number : Byte) (reply : State → Reply) (s0 : State) : State :=
  let s := frameTaken p s0
  if frameDropped (s.port p) then s
  else if (s.port p).waiting.isSome then issue p ⟨code, number, .busy, []⟩ s
  else
    let r := reply s
    issue p ⟨code, number, r.result, r.payload⟩ r.state

/-- The power-on values of every block, with the clocks at 0 and every output in its safe state, and the load begun
(R183). What lies outside the part stays: the external store and the level of the leads; the commands that wait are the
sender's, and the free-value counter is the model's own (Assumption 16). -/
def State.powerUp (s : State) : State :=
  { State.reset with store := s.store, leads := s.leads, free := s.free, pending := s.pending }

/-- A store write that is cut off leaves its page partly written, with free bytes (R184; Assumption 4). -/
def tearStore (s : State) : State :=
  match s.loader.write with
  | none => s
  | some w =>
    { s with store := writeBytes s.store w.offset.toNat ((List.range 32).map fun i => Config.cutByte s.free i),
             free := s.free + 1 }

end Sys2Proof.Machine
end

