-- ==== Sys2Proof/Machine/Quench.lean ====
section
/-! DEFINITION. Chapter 5, the Quench Units: valve outputs and flow supervision, the gate's strokes, the judgment of
tracks, the gate decision, flood and test. What a Quench Unit reports to its Duct Controller is returned here and acted on
in Ducts.lean. -/

namespace Sys2Proof.Machine

open Sys2Proof

/-! ### Reads and updates -/

/-- Valve `v` of duct `d`. -/
def State.valve (s : State) (d : Fin 4) (v : Fin 2) : Valve := (s.duct d).valves[v]

/-- The configured values of valve `v` of duct `d`. -/
def State.valveCfg (s : State) (d : Fin 4) (v : Fin 2) : ValveCfg := (s.ductCfg d).valves[v]

/-- The gate of duct `d`. -/
def State.gate (s : State) (d : Fin 4) : Gate := (s.duct d).gate

/-- The configured values of the gate of duct `d`. -/
def State.gateCfg (s : State) (d : Fin 4) : GateCfg := (s.ductCfg d).gate

/-- Replace valve `v` of duct `d`. -/
def State.setValve (s : State) (d : Fin 4) (v : Fin 2) (x : Valve) : State :=
  s.setDuct d { s.duct d with valves := (s.duct d).valves.set v x }

/-- Replace the gate of duct `d`. -/
def State.setGate (s : State) (d : Fin 4) (x : Gate) : State := s.setDuct d { s.duct d with gate := x }

/-- The state of an installed gate (R74: a gate that is not installed has no gate state). -/
def State.gateState (s : State) (d : Fin 4) : Option GateState :=
  if (s.gateCfg d).installed then some (s.gate d).state else none

/-! ### Notices (R78) -/

/-- A DUCT notice that is not urgent. -/
def ductOffer (d : Fin 4) (cause : DuctCause) (old new : Byte) (detail : List Byte) : Offer :=
  { kind := .duct, subject := ductNumber d, old := old, new := new, cause := byteOf cause.num, detail := detail,
    urgent := false }

/-- The VALVE notice. -/
def valveOffer (d : Fin 4) (v : Fin 2) (old new : Valve) : Offer :=
  ductOffer d .valve (byteOf old.state.num) (byteOf new.state.num) (le8 v.val ++ le32 new.openTick ++ leFlag new.confirmed)

/-- The GATE notice; what ended the stroke is absent where no stroke ended (Assumption 22). -/
def gateOffer (d : Fin 4) (old new : Gate) (ended : Option StrokeEnd) : Offer :=
  ductOffer d .gate (byteOf old.state.num) (byteOf new.state.num)
    (le32 new.cmdTick ++ [optByte (ended.map fun e => byteOf e.num)])

/-- The FLOOD notice. -/
def floodOffer (d : Fin 4) (old new : Nat) (endTick : Tick) : Offer :=
  ductOffer d .flood (byteOf old) (byteOf new) (le32 endTick)

/-- The TEST notice. -/
def testOffer (d : Fin 4) (old new : Nat) (t : TestRun) : Offer :=
  ductOffer d .test (byteOf old) (byteOf new) (le8 t.valve.val ++ le32 t.until_)

/-! ### Valve outputs (R75 to R77) -/

/-- The valve's opening is confirmed: the timer stops, the mark is set, and VALVE_FAULT is cleared (R76). -/
def confirmOpening (d : Fin 4) (v : Fin 2) (s : State) : State :=
  clearTrouble (ductZone d) .valveFault v.val
    (s.setValve d v { s.valve d v with timer := none, confirmed := true })

/-- A valve whose output turns on: it enters OPEN with its flow-confirm timer started, or is confirmed at once where its
flow switch is active (R76). -/
def Valve.opening (c : ValveCfg) (now : Tick) (x : Valve) : Valve :=
  { x with state := .opened, output := true, openTick := now, confirmed := x.flow,
           timer := if x.flow then none else some (now.plus (msTicks c.flowConfirm)) }

/-- A valve whose output turns off returns to CLOSED; its timer stops without a fault (R76, R77). -/
def Valve.closing (x : Valve) : Valve := { x with state := .closed, output := false, timer := none }

/-- The valve's output turns on. -/
def turnOn (d : Fin 4) (v : Fin 2) (s : State) : State :=
  let old := s.valve d v
  let new := old.opening (s.valveCfg d v) s.tick
  let s1 := offer (valveOffer d v old new) (s.setValve d v new)
  if new.confirmed then clearTrouble (ductZone d) .valveFault v.val s1 else s1

/-- The valve's output turns off. -/
def turnOff (d : Fin 4) (v : Fin 2) (s : State) : State :=
  let old := s.valve d v
  offer (valveOffer d v old old.closing) (s.setValve d v old.closing)

/-- The condition of R75 at present. -/
def State.wanted (s : State) (d : Fin 4) (v : Fin 2) : Bool :=
  valveWanted (s.valveCfg d v).installed (s.duct d) v s.tick

/-- The valve's output is evaluated and set to match R75. -/
def evalValve (d : Fin 4) (v : Fin 2) (s : State) : State :=
  if s.wanted d v = (s.valve d v).output then s
  else if s.wanted d v then turnOn d v s
  else turnOff d v s

/-- Both valves of a duct are evaluated, E1 first. -/
def evalValves (d : Fin 4) (s : State) : State := evalValve d 1 (evalValve d 0 s)

/-! ### Gate strokes (R83 to R86) -/

/-- The gate enters a state, with the drives that R83 fixes, and the change is offered as a GATE notice. -/
def moveGate (d : Fin 4) (new : Gate) (ended : Option StrokeEnd) (s : State) : State :=
  offer (gateOffer d (s.gate d) new ended) (s.setGate d new.withDrives)

/-- The switch that the gate is driving towards is active (R85). -/
def Gate.arrived (g : Gate) : Bool :=
  match g.state with
  | .closing => g.closedSwitch
  | .opening => g.openSwitch
  | .opened | .closed | .fault => false

/-- The state in which a stroke ends. -/
def Gate.strokeGoal (g : Gate) : GateState := if g.state = .closing then .closed else .opened

/-- The stroke ends where its switch is active: the timer stops, and a standing GATE_FAULT is cleared with its mark
(R85). -/
def endStroke (d : Fin 4) (s : State) : State :=
  let g := s.gate d
  if g.arrived then
    let s1 := moveGate d { g with state := g.strokeGoal, timer := none, troubleMark := false } (some .switch) s
    if g.troubleMark then clearTrouble (ductZone d) .gateFault 0 s1 else s1
  else s

/-- A stroke begins: its command tick and supervision timer are set, a stroke under way is ended by the command, and the
new stroke ends at once where its switch is active (R83 to R85). DESIGN CHOICE (Assumption 45): so too in R84's cases of a
gate decision and a start at one tick, which name CLOSING or OPENING as the state that ends the tick. -/
def beginStroke (d : Fin 4) (st : GateState) (s : State) : State :=
  let g := s.gate d
  let ended := if g.state = .opening ∨ g.state = .closing then some .command else none
  endStroke d (moveGate d
    { g with state := st, cmdTick := s.tick, timer := some (s.after (msTicks (s.gateCfg d).stroke + 4000)) } ended s)

/-- A close command (R83). -/
def closeCommand (d : Fin 4) (s : State) : State :=
  match s.gateState d with
  | some .opened | some .opening | some .fault => beginStroke d .closing s
  | some .closing | some .closed | none => s

/-- An open command (R84). -/
def openCommand (d : Fin 4) (s : State) : State :=
  match s.gateState d with
  | some .closed | some .fault => beginStroke d .opening s
  | some .opened | some .opening | some .closing | none => s

/-! ### The gate decision (R81, R82) -/

/-- The result of a gate decision with its margin, where the table of R81 gives one. -/
structure Decision where
  cause : StopCause
  margin : Option (BitVec 32)
  deriving DecidableEq, Repr

/-- The result for a stroke that ends at a tick against a deadline. -/
def strokeDecision (ends deadline : Tick) : Decision :=
  ⟨if Tick.later ends deadline then .outrun else .diverted, some (deadline - ends)⟩

/-- The outcome of a gate decision by the table of R81; `gate` is none where the gate is not installed. -/
def decideGate (gate : Option Gate) (stroke : Nat) (now : Tick) (entry : Option GateEntry) : Decision :=
  match gate, entry with
  | some g, some e =>
    (match g.state with
      | .opened => strokeDecision (now.plus (msTicks stroke)) e.deadline
      | .closing => strokeDecision (g.cmdTick.plus (msTicks stroke)) e.deadline
      | .opening | .fault => ⟨.outrun, none⟩
      | .closed => ⟨.diverted, none⟩)
  | _, _ => ⟨.outrun, none⟩

/-- A gate's state as a notice value, absent where there is no gate. -/
def gateByte (g : Option GateState) : Byte := optByte (g.map fun x => byteOf x.num)

/-- The notice of a gate decision (R78, R82; Assumption 22). -/
def decisionOffer (d : Fin 4) (t : Track) (r : Decision) (old new : Option GateState) : Offer :=
  ductOffer d (if r.cause = .diverted then .diverted else .outrun) (gateByte old) (gateByte new)
    (le8 t.id.toNat ++ optField 4 (t.gate.map fun e => le32 e.deadline) ++ optField 4 (r.margin.map le32))

/-- The command of a gate decision: close, where the gate is installed and in the track (R81). -/
def decisionCommand (d : Fin 4) (t : Track) (s : State) : State :=
  if t.gate.isSome then closeCommand d s else s

/-- The gate decision for a track judged UNQUENCHED: the result that is reported to the Duct Controller, and the state
after the notice and the command. -/
def gateDecision (d : Fin 4) (t : Track) (s : State) : StopCause × State :=
  let gate := if (s.gateCfg d).installed then some (s.gate d) else none
  let r := decideGate gate (s.gateCfg d).stroke s.tick t.gate
  let after := (decisionCommand d t s).gateState d
  (r.cause, decisionCommand d t (offer (decisionOffer d t r (s.gateState d) after) s))

/-- The gate decisions for some tracks, in their order, with the causes reported. -/
def gateDecisions (d : Fin 4) : List Track → State → List StopCause × State
  | [], s => ([], s)
  | t :: rest, s =>
    let r := gateDecision d t s
    let q := gateDecisions d rest r.2
    (r.1 :: q.1, q.2)

/-! ### Judgment (R79, R80) -/

/-- The track with its judgment made again: never rewritten from UNQUENCHED to QUENCHED (R80). -/
def Track.rejudged (valves : Vector Valve 2) (t : Track) : Track := { t with quenched := t.quenched && judgeQuenched valves t }

/-- The tracks that a judgment turns UNQUENCHED, in list order (R80). -/
def newlyUnquenched (D : Duct) : List Track := D.tracks.filter fun t => t.quenched && !judgeQuenched D.valves t

/-- Every track of a duct is judged again at a valve's entry to FAULT, and each newly UNQUENCHED track has its gate
decision (R80). -/
def rejudge (d : Fin 4) (s : State) : List StopCause × State :=
  let D := s.duct d
  gateDecisions d (newlyUnquenched D) (s.setDuct d { D with tracks := D.tracks.map (Track.rejudged D.valves) })

/-! ### Flood and test (R87 to R89) -/

/-- The duct's flood is started or extended (R87). -/
def startFlood (d : Fin 4) (s : State) : State :=
  let new := s.after (secondsTicks (s.ductCfg d).floodTime)
  match (s.duct d).flood with
  | none => evalValves d (offer (floodOffer d 0 1 new) (s.setDuct d { s.duct d with flood := some new }))
  | some e =>
    let ends := laterTick e new
    evalValves d (offer (floodOffer d 1 1 ends) (s.setDuct d { s.duct d with flood := some ends }))

/-- The flood ends at its end tick (R87; Assumption 26). -/
def floodEnds (d : Fin 4) (s : State) : State :=
  match (s.duct d).flood with
  | some e =>
    if e = s.tick then evalValves d (offer (floodOffer d 1 0 e) (s.setDuct d { s.duct d with flood := none })) else s
  | none => s

/-- FLOOD_END (R87). -/
def execFloodEnd (d : Fin 4) (s : State) : Answer := whenRunning s (floodEnds d)

/-- The duct states in which TEST_VALVE is refused (R88). -/
def DuctState.refusesTest : DuctState → Bool
  | .starting | .arming | .guarded | .alert | .stopping => true
  | .offline | .stopped => false

/-- TEST_VALVE: the checks and the test opening (R88). -/
def testValveReply (p : Port) (duct valve : Byte) (seconds : Word16) (s : State) : Reply :=
  if p ≠ .sv then refuse .denied s
  else if !s.keyClosed then refuse .key s
  else
    match ductOperand duct, valveOperand valve with
    | some d, some v =>
      let D := s.duct d
      if !s.isRunning || D.ctl.state.refusesTest || !D.tracks.isEmpty || !(s.valveCfg d v).installed || D.test.isSome then
        refuse .notNow s
      else
        let t : TestRun := ⟨v, s.after (secondsTicks (clamp 1 30 seconds.toNat))⟩
        let s1 := evalValve d v (offer (testOffer d 0 1 t) (s.setDuct d { D with test := some t }))
        accept (le8 (s1.valve d v).state.num ++ le32 t.until_) s1
    | _, _ => refuse .range s

/-- TEST_VALVE (R88). -/
def execTestValve (p : Port) (n duct valve : Byte) (seconds : Word16) (s : State) : Answer :=
  live s (serve p codeTestValve n (testValveReply p duct valve seconds))

/-- The test ends at its end tick (R89; Assumption 26). -/
def testEnds (d : Fin 4) (s : State) : State :=
  match (s.duct d).test with
  | some t =>
    if t.until_ = s.tick then evalValve d t.valve (offer (testOffer d 1 0 t) (s.setDuct d { s.duct d with test := none }))
    else s
  | none => s

/-- TEST_END (R89). -/
def execTestEnd (d : Fin 4) (s : State) : Answer := whenRunning s (testEnds d)

/-! ### Spray windows and the flow switch (R75, R76) -/

/-- SPRAY_WINDOW_OPEN (R75): the condition is a statement about ticks, so the event is an evaluation of the valve
(Assumption 27). -/
def execSprayWindowOpen (d : Fin 4) (v : Fin 2) (s : State) : Answer := whenRunning s (evalValve d v)

/-- SPRAY_WINDOW_CLOSE (R75): an evaluation of the valve, whether or not the track has just retired. -/
def execSprayWindowClose (d : Fin 4) (v : Fin 2) (s : State) : Answer := whenRunning s (evalValve d v)

/-- The level of a flow switch's lead (Assumption 11). -/
def setFlowLead (d : Fin 4) (v : Fin 2) (active : Bool) (s : State) : State :=
  s.setLeads { s.leads with flow := s.leads.flow.set d (s.leads.flow[d].set v active) }

/-- A sample of an installed valve's flow switch; where it differs from the last one it is an event of the Quench Unit: while the
flow-confirm timer runs, an active switch confirms the opening (R74, R76). -/
def flowSwitchEvent (d : Fin 4) (v : Fin 2) (active : Bool) (s : State) : State :=
  if (s.valve d v).flow ≠ active then
    let s1 := s.setValve d v { s.valve d v with flow := active }
    if active && decide ((s.valve d v).state = .opened) && (s.valve d v).timer.isSome then confirmOpening d v s1 else s1
  else s

/-- FLOW_SWITCH_CHANGE (R74, R76): the lead takes the level at any time; the part samples it once at every tick while RUNNING, the
tick of the load completion apart (Assumptions 10 and 11). -/
def execFlowSwitchChange (d : Fin 4) (v : Fin 2) (active : Bool) (s : State) : Answer :=
  live (setFlowLead d v active s) (sampling (.flow d v) (flowSwitchEvent d v active))

end Sys2Proof.Machine
end

