-- ==== Sys2Proof/Machine/Doors.lean ====
section
/-! DEFINITION. Chapter 8, the Door Controller: holds, release, closing supervision, and its answer to a zone report. -/

namespace Sys2Proof.Machine

open Sys2Proof

/-! ### The door record -/

/-- The port's hold on a door, if any (R125); SV never holds. -/
def Door.hold (d : Door) : Port → Option Tick
  | .fp => d.holdFp
  | .pc => d.holdPc
  | .sv => none

/-- A door with the port's hold set or removed; SV never holds. -/
def Door.setHold (d : Door) (p : Port) (t : Option Tick) : Door :=
  match p with
  | .fp => { d with holdFp := t }
  | .pc => { d with holdPc := t }
  | .sv => d

/-- The hold set is empty. -/
def Door.noHolds (d : Door) : Bool := d.holdFp.isNone && d.holdPc.isNone

/-- A door in a new state, with the magnet that the state fixes (R126). -/
def Door.enter (d : Door) (st : DoorState) : Door := { d with state := st, magnet := magnetOn st }

/-- The door enters FREE; its three supervision timers are idle (R126, R136, R137). -/
def Door.toFree (d : Door) : Door :=
  { d.enter .free with obstruction := none, close := none, propped := none }

/-- The door enters CLOSING, with the close timer started, or passes at once into FREE where its closed switch is
active (R134 to R136). -/
def Door.toClosing (c : DoorCfg) (now : Tick) (d : Door) : Door :=
  if d.closedSwitch then d.toFree
  else { d.enter .closing with obstruction := none, close := some (now.plus (secondsTicks c.closeTime)), propped := none }

/-- A release: the holds leave, the cause is set, and the door waits for a clear doorway or closes (R134). -/
def Door.release (c : DoorCfg) (now : Tick) (cause : ReleaseCause) (d : Door) : Door :=
  let d1 := { d with holdFp := none, holdPc := none, cause := some cause }
  if d1.barrier && decide (c.obstruction ≠ 0) then
    { d1.enter .releaseWait with obstruction := some (now.plus (secondsTicks c.obstruction)), close := none,
                                 propped := none }
  else d1.toClosing c now

/-- The door enters or stays in HELD with the port's hold (R129): the propped and obstruction timers stop and the
release cause becomes absent. -/
def Door.toHeld (d : Door) (p : Port) (expiry : Tick) : Door :=
  { (d.setHold p (some expiry)).enter .held with cause := none, obstruction := none, close := none, propped := none }

/-! ### Notices and troubles -/

/-- A hold as 5 bytes: port and expiry as a millisecond clock reading (13.3). -/
def holdFields (p : Port) (t : Tick) : List Byte := le8 (portNum p) ++ le32 t.ms

/-- The hold set as a list that takes 11 bytes whatever its count (13.3; Assumption 28); of two holds FP's stands first
(Assumption 42). -/
def holdSetFields (d : Door) : List Byte :=
  padTo 11 0 (listField ((d.holdFp.map (holdFields .fp)).toList ++ (d.holdPc.map (holdFields .pc)).toList))

/-- The release cause, or its absence. -/
def releaseByte (d : Door) : Byte := optByte (d.cause.map fun c => byteOf c.num)

/-- The DOOR notice (R139). -/
def doorOffer (i : Fin 12) (old new : Door) (cause : DoorCause) : Offer :=
  { kind := .door, subject := byteOf i.val, old := byteOf old.state.num, new := byteOf new.state.num,
    cause := byteOf cause.num, detail := holdSetFields new ++ [releaseByte new], urgent := false }

/-- A door's trouble is raised or cleared on the lowest-numbered zone it borders (R14). -/
def doorTrouble (i : Fin 12) (kind : TroubleKind) (present : Bool) (s : State) : State :=
  match lowestZone s.cfg.doors[i].zones with
  | some z => setTrouble z kind i.val present s
  | none => s

/-- The door record changes in an event that offers a DOOR notice; an entry to FREE clears DOOR_PROPPED, and from STUCK
DOOR_STUCK (R136 to R139). The DOOR notice goes before the TROUBLE notices of its event (Assumption 39). -/
def doorEvent (i : Fin 12) (new : Door) (cause : DoorCause) (s : State) : State :=
  let old := s.door i
  let s1 := offer (doorOffer i old new cause) (s.setDoor i new)
  if new.state = .free ∧ old.state ≠ .free then
    let s2 := if old.state = .stuck then doorTrouble i .doorStuck false s1 else s1
    doorTrouble i .doorPropped false s2
  else s1

/-- Release a door with a cause (R134). -/
def releaseDoor (i : Fin 12) (cause : ReleaseCause) (s : State) : State :=
  doorEvent i ((s.door i).release s.cfg.doors[i] s.tick cause) (.release cause) s

/-! ### The zone report (R133) -/

/-- The release cause that a report calls for at a door: ZONE_FIRE at FIRE, ZONE_ALARM at ALARM with close-on-alarm. -/
def reportCause (c : DoorCfg) (level : Level) : Option ReleaseCause :=
  if level = .fire then some .zoneFire
  else if level = .alarm ∧ c.closeOnAlarm then some .zoneAlarm
  else none

/-- A zone report at one door (R133). -/
def doorReport (z : Fin 16) (level : Level) (i : Fin 12) (s : State) : State :=
  let c := s.cfg.doors[i]
  if zoneIn c.zones z then
    match reportCause c level with
    | none => s
    | some cause =>
      match (s.door i).state with
      | .held => releaseDoor i cause s
      | .releaseWait =>
        let old := s.door i
        let ranked := match old.cause with
          | some r => decide (r.rank < cause.rank)
          | none => true
        if ranked then doorEvent i { old with cause := some cause } (.release cause) s else s
      | .free | .closing | .stuck => s
  else s

/-- A zone report acts on every door that borders the zone (R133), in door order (Assumption 39). -/
def doorsReport (z : Fin 16) (level : Level) (s : State) : State :=
  (List.finRange 12).foldl (fun s i => doorReport z level i s) s

/-! ### Requests (R128 to R132) -/

/-- The zone condition of a door in the present state (R129). -/
def doorZoneCondition (s : State) (i : Fin 12) : Bool := zoneCondition s.cfg.doors[i] fun z => (s.zone z).level

/-- The state, release cause and hold set that a door request's response carries (R128, 13.3). -/
def doorAnswer (s : State) (i : Fin 12) : List Byte :=
  [byteOf (s.door i).state.num, releaseByte (s.door i)] ++ holdSetFields (s.door i)

/-- The door may be held: FREE, HELD, or RELEASE_WAIT after a cause that is not a zone's (R129). -/
def Door.holdable (d : Door) : Bool :=
  match d.state with
  | .free | .held => true
  | .releaseWait =>
    (match d.cause with
      | some .holdExpired | some .holdWithdrawn | some .closeRequest => true
      | _ => false)
  | .closing | .stuck => false

/-- HOLD_DOOR: the checks and the hold (R129). -/
def holdDoorReply (p : Port) (door : Byte) (seconds : Word16) (s : State) : Reply :=
  match doorOperand door with
  | none => if p = .sv then refuse .denied s else refuse .range s
  | some i =>
    if p = .sv then refuseWith .denied (doorAnswer s i) s
    else if !s.isRunning || doorZoneCondition s i || !(s.door i).holdable then refuseWith .notNow (doorAnswer s i) s
    else
      let s1 := doorEvent i ((s.door i).toHeld p (s.after (secondsTicks (clamp 1 300 seconds.toNat)))) .hold s
      accept (doorAnswer s1 i) s1

/-- HOLD_DOOR (R129). -/
def execHoldDoor (p : Port) (n door : Byte) (seconds : Word16) (s : State) : Answer :=
  live s (serve p codeHoldDoor n (holdDoorReply p door seconds))

/-- The port's hold leaves a door: with another hold it stays HELD, the last one releases it (R130, R131). -/
def dropHold (i : Fin 12) (p : Port) (staying : DoorCause) (cause : ReleaseCause) (s : State) : State :=
  let d := (s.door i).setHold p none
  if d.noHolds then doorEvent i (d.release s.cfg.doors[i] s.tick cause) (.release cause) s
  else doorEvent i d staying s

/-- UNHOLD_DOOR: the checks and the removal of the port's hold (R131). -/
def unholdDoorReply (p : Port) (door : Byte) (s : State) : Reply :=
  match doorOperand door with
  | none => if p = .sv then refuse .denied s else refuse .range s
  | some i =>
    if p = .sv then refuseWith .denied (doorAnswer s i) s
    else if !s.isRunning then refuseWith .notNow (doorAnswer s i) s
    else if ((s.door i).hold p).isNone then refuseWith .noData (doorAnswer s i) s
    else
      let s1 := dropHold i p .unhold .holdWithdrawn s
      accept (doorAnswer s1 i) s1

/-- UNHOLD_DOOR (R131). -/
def execUnholdDoor (p : Port) (n door : Byte) (s : State) : Answer :=
  live s (serve p codeUnholdDoor n (unholdDoorReply p door))

/-- The door is ordered shut, whoever holds it (R132). -/
def closeDoor (i : Fin 12) (s : State) : State :=
  let d := s.door i
  match d.state with
  | .held => releaseDoor i .closeRequest s
  | .releaseWait =>
    (match d.cause with
      | some .holdExpired | some .holdWithdrawn =>
        doorEvent i { d with cause := some .closeRequest } (.release .closeRequest) s
      | _ => s)
  | .free | .closing | .stuck => s

/-- CLOSE_DOOR: the checks and the order (R132). -/
def closeDoorReply (p : Port) (door : Byte) (s : State) : Reply :=
  match doorOperand door with
  | none => if p = .sv then refuse .denied s else refuse .range s
  | some i =>
    if p = .sv then refuseWith .denied (doorAnswer s i) s
    else if !s.isRunning then refuseWith .notNow (doorAnswer s i) s
    else
      let s1 := closeDoor i s
      accept (doorAnswer s1 i) s1

/-- CLOSE_DOOR (R132). -/
def execCloseDoor (p : Port) (n door : Byte) (s : State) : Answer :=
  live s (serve p codeCloseDoor n (closeDoorReply p door))

/-- A door's trouble stands raised (R140). -/
def doorTroubled (s : State) (i : Fin 12) (kind : TroubleKind) : Bool :=
  match lowestZone s.cfg.doors[i].zones with
  | some z => decide ((⟨kind, i.val⟩ : Trouble) ∈ (s.zone z).troubles)
  | none => false

/-- A door summary of 14 bytes (R140, 13.3). -/
def doorSummary (s : State) (i : Fin 12) : List Byte :=
  let d := s.door i
  let flags := (if d.magnet then 1 else 0) + (if d.closedSwitch then 2 else 0) + (if d.barrier then 4 else 0) +
    (if doorTroubled s i .doorStuck then 8 else 0) + (if doorTroubled s i .doorPropped then 16 else 0)
  [byteOf d.state.num, releaseByte d] ++ holdSetFields d ++ le8 flags

/-- The running one of a door's three timers (R140; at most one runs, R126). -/
def Door.timer (d : Door) : Option Tick := d.obstruction.or (d.close.or d.propped)

/-- A door's configured values and running timer, after its summary (R140). -/
def doorDetail (s : State) (i : Fin 12) : List Byte :=
  let c := s.cfg.doors[i]
  le16 c.zones ++ leFlag c.closeOnAlarm ++ leNat16 c.obstruction ++ leNat16 c.closeTime ++ leNat16 c.proppedTime ++
    optTick ((s.door i).timer.map Tick.ms)

/-- READ_DOORS: the checks and the answer (R140). -/
def readDoorsReply (door : Byte) (s : State) : Reply :=
  if door = 255 then
    if s.isRunning then accept ((List.finRange 12).flatMap (doorSummary s)) s else refuse .notNow s
  else
    match doorOperand door with
    | none => refuse .range s
    | some i => if s.isRunning then accept (doorSummary s i ++ doorDetail s i) s else refuse .notNow s

/-- READ_DOORS (R140). -/
def execReadDoors (p : Port) (n door : Byte) (s : State) : Answer := live s (serve p codeReadDoors n (readDoorsReply door))

/-! ### Inputs and timers (R127, R130, R135 to R138) -/

/-- The level of a door's closed switch lead (Assumption 11). -/
def setClosedLead (i : Fin 12) (active : Bool) (s : State) : State :=
  s.setLeads { s.leads with closedSwitches := s.leads.closedSwitches.set i active }

/-- The level of a door's obstruction barrier lead (Assumption 11). -/
def setBarrierLead (i : Fin 12) (active : Bool) (s : State) : State :=
  s.setLeads { s.leads with barriers := s.leads.barriers.set i active }

/-- A sample of a door's closed switch; where it differs from the last one it is an event of the Door Controller (R127). -/
def closedSwitchEvent (i : Fin 12) (active : Bool) (s : State) : State :=
  let d := { s.door i with closedSwitch := active }
  if (s.door i).closedSwitch = active then s
  else if active then
    match d.state with
    | .closing => doorEvent i d.toFree .closed s
    | .stuck => doorEvent i d.toFree .closed s
    | .free => doorTrouble i .doorPropped false (s.setDoor i { d with propped := none })
    | .held | .releaseWait => doorTrouble i .doorPropped false (s.setDoor i d)
  else
    match d.state with
    | .free => s.setDoor i { d with propped := some (s.after (secondsTicks s.cfg.doors[i].proppedTime)) }
    | _ => s.setDoor i d

/-- CLOSED_SWITCH_CHANGE (R127): the lead takes the level at any time; the part samples it once each millisecond while RUNNING
(Assumptions 10 and 11). -/
def execClosedSwitchChange (door : Fin 12) (active : Bool) (s : State) : Answer :=
  live (setClosedLead door active s) (sampling (.closedSwitch door) (closedSwitchEvent door active))

/-- A sample of a door's obstruction barrier; where it differs from the last one it is an event of the Door Controller (R127,
R135). The notice of the wait's end carries BARRIER also where the closed switch takes the door to FREE in the same event (Assumption
43). -/
def barrierEvent (i : Fin 12) (active : Bool) (s : State) : State :=
  let d := { s.door i with barrier := active }
  if (s.door i).barrier = active then s
  else if !active && decide (d.state = .releaseWait) then doorEvent i (d.toClosing s.cfg.doors[i] s.tick) .barrier s
  else s.setDoor i d

/-- BARRIER_CHANGE (R127, R135): the lead takes the level at any time; the part samples it once each millisecond while RUNNING
(Assumptions 10 and 11). -/
def execBarrierChange (door : Fin 12) (active : Bool) (s : State) : Answer :=
  live (setBarrierLead door active s) (sampling (.barrier door) (barrierEvent door active))

/-- A hold expires (R130). -/
def holdExpires (i : Fin 12) (p : Port) (s : State) : State :=
  if expiresNow s ((s.door i).hold p) then dropHold i p .expiry .holdExpired s else s

/-- HOLD_EXPIRY (R130). -/
def execHoldExpiry (door : Fin 12) (p : Port) (s : State) : Answer := whenRunning s (holdExpires door p)

/-- The obstruction delay runs out (R135). The notice of the wait's end carries WAIT_EXPIRED also where the closed switch
takes the door to FREE in the same event (Assumption 43). -/
def obstructionExpires (i : Fin 12) (s : State) : State :=
  if expiresNow s (s.door i).obstruction && decide ((s.door i).state = .releaseWait) then
    doorEvent i ((s.door i).toClosing s.cfg.doors[i] s.tick) .waitExpired s
  else s

/-- OBSTRUCTION_TIMER_EXPIRY (R135). -/
def execObstructionTimerExpiry (door : Fin 12) (s : State) : Answer := whenRunning s (obstructionExpires door)

/-- The close time runs out (R136). -/
def closeExpires (i : Fin 12) (s : State) : State :=
  if expiresNow s (s.door i).close && decide ((s.door i).state = .closing) then
    doorTrouble i .doorStuck true (doorEvent i { (s.door i).enter .stuck with close := none } .closeTimeout s)
  else s

/-- CLOSE_TIMER_EXPIRY (R136). -/
def execCloseTimerExpiry (door : Fin 12) (s : State) : Answer := whenRunning s (closeExpires door)

/-- The propped time runs out (R138). -/
def proppedExpires (i : Fin 12) (s : State) : State :=
  if expiresNow s (s.door i).propped && decide ((s.door i).state = .free) then
    doorTrouble i .doorPropped true (s.setDoor i { s.door i with propped := none })
  else s

/-- PROPPED_TIMER_EXPIRY (R138). -/
def execProppedTimerExpiry (door : Fin 12) (s : State) : Answer := whenRunning s (proppedExpires door)

end Sys2Proof.Machine
end

