-- ==== Sys2Proof/Machine/Overlays.lean ====
section
/-! DEFINITION. Chapter 7, the Overlay Stacks: pushes, pops, expiry and the forced clear, and the base and effective
parameter sets they give their readers. -/

namespace Sys2Proof.Machine

open Sys2Proof

/-- The effective parameters of a duct that overlays replace (R116). -/
def State.effective (s : State) (d : Fin 4) : RateParams := effectiveParams (s.ductCfg d).base (s.duct d).overlays

/-- Replace a duct's overlay stack. -/
def State.setOverlays (s : State) (d : Fin 4) (l : List Overlay) : State := s.setDuct d { s.duct d with overlays := l }

/-- The OVERLAY notice of an entry that enters or leaves a stack (R122); `position` counts from the bottom, from 0, and
`eff` is the effective set after the change (Assumption 23). -/
def overlayOffer (d : Fin 4) (cause : OverlayCause) (old new : Nat) (e : Overlay) (position : Nat) (eff : RateParams) :
    Offer :=
  { kind := .overlay, subject := ductNumber d, old := byteOf old, new := byteOf new, cause := byteOf cause.num,
    detail := le8 (portNum e.owner) ++ le8 position ++ le32 e.expiry.ms ++ leNat16 eff.offset ++ le8 eff.nq, urgent := false }

/-- Remove the entries of a stack from the top downward, one CLEARED notice each (R121, R122). -/
def clearEntries (d : Fin 4) : List Overlay → State → State
  | [], s => s
  | e :: rest, s =>
    let s1 := s.setOverlays d rest
    clearEntries d rest
      (offer (overlayOffer d .cleared (rest.length + 1) rest.length e rest.length (s1.effective d)) s1)

/-- The forced clear: every entry leaves the duct's stack (R121). -/
def clearOverlays (d : Fin 4) (s : State) : State := clearEntries d (s.duct d).overlays s

/-- Parameters in the order of an overlay entry's record (13.3). -/
def rateFields (p : RateParams) : List Byte :=
  leNat16 p.offset ++ le8 p.nq ++ le8 p.alert ++ le8 p.shutdown ++ le8 p.alertShutdown ++ leNat16 p.window

/-- A parameter set of 12 bytes: the base set, or the effective set laid out as the base set (13.3). -/
def paramFields (p : RateParams) (b : BaseParams) : List Byte :=
  leNat16 p.offset ++ le8 p.nq ++ le8 b.coincidence ++ le8 b.deadTime ++ leNat16 b.stuckLimit ++ le8 p.alert ++
    le8 p.shutdown ++ le8 p.alertShutdown ++ leNat16 p.window

/-- An overlay entry of 13 bytes (13.3). -/
def overlayFields (e : Overlay) : List Byte := le8 (portNum e.owner) ++ le32 e.expiry.ms ++ rateFields e.params

/-- The overlay record of READ_OVERLAYS (R123, 13.3). -/
def overlayRecord (s : State) (d : Fin 4) : List Byte :=
  let b := (s.ductCfg d).base
  paramFields b.rate b ++ listField ((s.duct d).overlays.map overlayFields) ++ paramFields (s.effective d) b

/-- READ_OVERLAYS: the checks and the answer (R123, section 7.4). -/
def readOverlaysReply (duct : Byte) (s : State) : Reply :=
  match ductOperand duct with
  | none => refuse .range s
  | some d => if s.isRunning then accept (overlayRecord s d) s else refuse .notNow s

/-- READ_OVERLAYS (R123). -/
def execReadOverlays (p : Port) (n duct : Byte) (s : State) : Answer :=
  live s (serve p codeReadOverlays n (readOverlaysReply duct))

/-- What a refused PUSH_OVERLAY carries when its duct is in range: stack depth and duct zone level (R118, 13.3). -/
def pushRefusal (s : State) (d : Fin 4) : List Byte :=
  le8 (s.duct d).overlays.length ++ le8 (s.zone (ductZone d)).level.num

/-- PUSH_OVERLAY: the checks in the order of R174, and the new top entry (R118). -/
def pushOverlayReply (p : Port) (duct : Byte) (duration offset : Word16) (nq alert shutdown alertShutdown : Byte)
    (window : Word16) (s : State) : Reply :=
  match ductOperand duct with
  | none => if p = .sv then refuse .denied s else refuse .range s
  | some d =>
    let no := fun r => refuseWith r (pushRefusal s d) s
    if p = .sv then no .denied
    else if offset.toNat > 1023 || nq.toNat < 1 || nq.toNat > 16 || window.toNat < 1 || window.toNat > 60 then no .range
    else if !s.isRunning || (s.zone (ductZone d)).level.atLeast .alarm then no .notNow
    else if 4 ≤ (s.duct d).overlays.length then no .stackFull
    else
      let e : Overlay :=
        { owner := p, expiry := s.after (secondsTicks (clamp 60 14400 duration.toNat)),
          params := { offset := offset.toNat, nq := nq.toNat, alert := alert.toNat, shutdown := shutdown.toNat,
                      alertShutdown := alertShutdown.toNat, window := window.toNat } }
      let depth := (s.duct d).overlays.length
      let s1 := s.setOverlays d (e :: (s.duct d).overlays)
      accept (le8 (depth + 1) ++ le32 e.expiry.ms)
        (offer (overlayOffer d .pushed depth (depth + 1) e depth (s1.effective d)) s1)

/-- PUSH_OVERLAY (R118). -/
def execPushOverlay (p : Port) (n duct : Byte) (duration offset : Word16) (nq alert shutdown alertShutdown : Byte)
    (window : Word16) (s : State) : Answer :=
  live s (serve p codePushOverlay n (pushOverlayReply p duct duration offset nq alert shutdown alertShutdown window))

/-- POP_OVERLAY: the checks and the removal of the top entry (R119). -/
def popOverlayReply (p : Port) (duct : Byte) (s : State) : Reply :=
  match ductOperand duct with
  | none => if p = .sv then refuse .denied s else refuse .range s
  | some d =>
    let no := fun r => refuseWith r (le8 (s.duct d).overlays.length) s
    if p = .sv then no .denied
    else if !s.isRunning then no .notNow
    else
      match (s.duct d).overlays with
      | [] => no .stackEmpty
      | e :: rest =>
        if p = .pc ∧ e.owner ≠ .pc then no .notOwner
        else
          let s1 := s.setOverlays d rest
          accept (le8 rest.length ++ le8 (portNum e.owner) ++ le32 e.expiry.ms)
            (offer (overlayOffer d .popped (rest.length + 1) rest.length e rest.length (s1.effective d)) s1)

/-- POP_OVERLAY (R119). -/
def execPopOverlay (p : Port) (n duct : Byte) (s : State) : Answer :=
  live s (serve p codePopOverlay n (popOverlayReply p duct))

/-- The entry at a place counted from the bottom of a top-first stack (Assumption 23). -/
def entryFromBottom (l : List Overlay) (position : Nat) : Option Overlay := l.reverse[position]?

/-- The stack without the entry at a place counted from the bottom; the entries above it move down (R115). -/
def removeFromBottom (l : List Overlay) (position : Nat) : List Overlay := (l.reverse.eraseIdx position).reverse

/-- An entry expires and is removed wherever it stands (R120). -/
def overlayExpires (d : Fin 4) (position : Nat) (s : State) : State :=
  let l := (s.duct d).overlays
  match entryFromBottom l position with
  | none => s
  | some e =>
    if e.expiry = s.tick then
      let s1 := s.setOverlays d (removeFromBottom l position)
      offer (overlayOffer d .expired l.length (l.length - 1) e position (s1.effective d)) s1
    else s

/-- OVERLAY_EXPIRY (R120). -/
def execOverlayExpiry (d position : Fin 4) (s : State) : Answer := whenRunning s (overlayExpires d position.val)

end Sys2Proof.Machine
end

