-- ==== Sys2Proof/Machine/Sirens.lean ====
section
/-! DEFINITION. Chapter 9, the Siren Arbiter: demand, silence and resound, the grant of the amplifier budget, rotation
and cadence, and its answer to a zone report. -/

namespace Sys2Proof.Machine

open Sys2Proof

/-! ### The grant (R152, R153) -/

/-- Where a grant evaluation stands: the budget left, the sirens granted, whether a class did not fully fit, and the
siren granted last in that class. -/
structure GrantRun where
  remaining : Nat
  granted : List (Fin 8)
  blocked : Bool
  last : Option (Fin 8)
  deriving DecidableEq, Repr

/-- The classes of a grant evaluation, in turn (R152). -/
def grantClasses : List Pattern := [.evacuate, .alert, .allClear, .test]

/-- The sirens visited once each from the rotation pointer on, 7 followed by 0 (R152). -/
def visitOrder (pointer : Fin 8) : List (Fin 8) :=
  (List.finRange 8).map fun k => ⟨(pointer.val + k.val) % 8, Nat.mod_lt _ (by decide)⟩

/-- The siren after one, counting 7 as followed by 0. -/
def nextSiren (i : Fin 8) : Fin 8 := ⟨(i.val + 1) % 8, Nat.mod_lt _ (by decide)⟩

/-- The sum of the weights of some sirens. -/
def weightSum (weight : Fin 8 → Nat) (l : List (Fin 8)) : Nat := l.foldl (fun n i => n + weight i) 0

/-- One siren's turn in a class that does not fully fit (R152, step 3). -/
def visitSiren (weight : Fin 8 → Nat) (r : GrantRun) (i : Fin 8) : GrantRun :=
  if weight i ≤ r.remaining then
    { r with remaining := r.remaining - weight i, granted := r.granted ++ [i], last := some i }
  else r

/-- One class of a grant evaluation (R152, steps 2 and 3). -/
def grantClass (weight : Fin 8 → Nat) (demand : Fin 8 → Option Pattern) (pointer : Fin 8) (r : GrantRun) (c : Pattern) :
    GrantRun :=
  let members := (List.finRange 8).filter fun i => decide (demand i = some c)
  if r.blocked then r
  else if weightSum weight members ≤ r.remaining then
    { r with remaining := r.remaining - weightSum weight members, granted := r.granted ++ members }
  else
    let visited := (visitOrder pointer).filter fun i => decide (demand i = some c)
    { visited.foldl (visitSiren weight) r with blocked := true }

/-- A whole grant evaluation: the sirens granted and the siren granted last by rotation (R152). -/
def grantRun (budget : Nat) (weight : Fin 8 → Nat) (demand : Fin 8 → Option Pattern) (pointer : Fin 8) : GrantRun :=
  grantClasses.foldl (grantClass weight demand pointer) ⟨budget, [], false, none⟩

/-- The Arbiter after a grant evaluation: sounding flags, units in use, rotation mark, slot timer and cadence (R152 to
R154). -/
def evaluateGrants (c : Cfg) (now : Tick) (a : Arbiter) : Arbiter :=
  let weight := fun i : Fin 8 => c.sirens[i].weight
  let r := grantRun c.budget weight (fun i => a.sirens[i].demand) a.pointer
  let granted := fun i : Fin 8 => decide (i ∈ r.granted)
  let waiting := (List.finRange 8).any fun i => a.sirens[i].demand.isSome && !granted i
  let alertOn := (List.finRange 8).any fun i => granted i && decide (a.sirens[i].demand = some .alert)
  { a with
    sirens := Vector.ofFn fun i => { a.sirens[i] with sounding := granted i }
    units := weightSum weight r.granted
    mark := r.last.map nextSiren
    slot := if waiting then some (a.slot.getD (now.plus (secondsTicks c.slotLength))) else none
    cadence := if alertOn then some (a.cadence.getD (now.plus 4000)) else none
    phaseOn := if alertOn && a.cadence.isSome then a.phaseOn else true }

/-- The Arbiter with every drive as R154 fixes it. -/
def Arbiter.withDrives (a : Arbiter) : Arbiter :=
  { a with sirens := Vector.ofFn fun i =>
      { a.sirens[i] with drive := sirenDrive a.sirens[i].demand a.sirens[i].sounding a.phaseOn } }

/-- The Arbiter with the demands of some sirens derived again (R144). -/
def Arbiter.derive (c : Cfg) (touched : Fin 8 → Bool) (a : Arbiter) : Arbiter :=
  { a with sirens := Vector.ofFn fun i =>
      if touched i then { a.sirens[i] with demand := sirenDemand c.sirens[i].cover a.view a.sirens[i] }
      else a.sirens[i] }

/-! ### Events of the Arbiter (R144, R155) -/

/-- The SIREN notice of a siren (R155). -/
def sirenOffer (i : Fin 8) (old new : Siren) (cause : SirenCause) (units : Nat) : Offer :=
  { kind := .siren, subject := byteOf i.val, old := demandByte old.demand, new := demandByte new.demand,
    cause := byteOf cause.num, detail := leFlag new.sounding ++ le16 new.snapshot ++ le8 units, urgent := false }

/-- The notice of one siren in an event: with the event's cause where its demand or snapshot changed, with the flag's
cause where only its sounding flag did (R155). -/
def sirenNotice (old new : Arbiter) (causeOf : Fin 8 → Siren → SirenCause) (flagCause : SirenCause) (i : Fin 8)
    (s : State) : State :=
  let o := old.sirens[i]
  let n := new.sirens[i]
  if o.demand ≠ n.demand ∨ o.snapshot ≠ n.snapshot then offer (sirenOffer i o n (causeOf i n) new.units) s
  else if o.sounding ≠ n.sounding then offer (sirenOffer i o n flagCause new.units) s
  else s

/-- The SIREN notices of an event, in siren order. -/
def sirenNotices (old new : Arbiter) (causeOf : Fin 8 → Siren → SirenCause) (flagCause : SirenCause) (s : State) : State :=
  (List.finRange 8).foldl (fun s i => sirenNotice old new causeOf flagCause i s) s

/-- The Arbiter's part of an event: `a` holds the changed contributions of the touched sirens; their demands are derived
again, and where one changed the grants are evaluated once (R144). -/
def settleArbiter (c : Cfg) (now : Tick) (old a : Arbiter) (touched : Fin 8 → Bool) : Arbiter :=
  let d := a.derive c touched
  let changed := (List.finRange 8).any fun i => decide (d.sirens[i].demand ≠ old.sirens[i].demand)
  (if changed then evaluateGrants c now d else d).withDrives

/-- An event of the Arbiter with its notices. -/
def arbiterEvent (a : Arbiter) (touched : Fin 8 → Bool) (causeOf : Fin 8 → Siren → SirenCause) (s : State) : State :=
  let new := settleArbiter s.cfg s.tick s.arbiter a touched
  sirenNotices s.arbiter new causeOf .grant (s.setArbiter new)

/-- The Arbiter with some sirens changed. -/
def Arbiter.update (a : Arbiter) (touched : Fin 8 → Bool) (f : Fin 8 → Siren → Siren) : Arbiter :=
  { a with sirens := Vector.ofFn fun i => if touched i then f i a.sirens[i] else a.sirens[i] }

/-! ### The zone report (R143, R148, R151) -/

/-- What a zone report does to the contributions of a siren that covers the zone: the snapshot is maintained and
resound made (R151), the all-clear ended by a rise (R148), or started or extended by a reset below ALARM. -/
def reportSiren (z : Fin 16) (was level : Level) (reset : Bool) (newEnd : Tick) (x : Siren) : Siren :=
  let low := !level.atLeast .alarm
  let rises := level.atLeast .alarm && !was.atLeast .alarm
  let kept := if low then x.snapshot &&& ~~~(BitVec.twoPow 16 z.val) else x.snapshot
  let resound := (rises && !zoneIn kept z) || (zoneIn kept z && decide (level = .fire) && decide (was = .alarm))
  let clear := if rises then none
    else if reset && low then
      some (match x.allClear with
        | some e => laterTick e newEnd
        | none => newEnd)
    else x.allClear
  { x with snapshot := if resound then 0 else kept, allClear := clear }

/-- The cause of a siren's notice at a zone report (R155): RESOUND where the report cleared its snapshot, ALL_CLEAR where
the reset's all-clear is now its demand, ZONE otherwise (Assumption 28). -/
def reportSirenCause (z : Fin 16) (level : Level) (reset : Bool) (old : Arbiter) (i : Fin 8) (x : Siren) : SirenCause :=
  let kept := if level.atLeast .alarm then old.sirens[i].snapshot
    else old.sirens[i].snapshot &&& ~~~(BitVec.twoPow 16 z.val)
  if decide (kept ≠ 0) && decide (x.snapshot = 0) then .resound
  else if reset && !level.atLeast .alarm && decide (x.demand = some .allClear) then .allClear
  else .zone

/-- A zone report reaches the Arbiter: the zone view first, then the sirens that cover the zone (R143). -/
def sirensReport (z : Fin 16) (level : Level) (acked : AckSet) (reset : Bool) (s : State) : State :=
  let old := s.arbiter
  let touched := fun i : Fin 8 => zoneIn s.cfg.sirens[i].cover z
  let a1 := { old with view := old.view.set z ⟨level, acked⟩ }
  let a2 := a1.update touched fun _ x =>
    reportSiren z old.view[z].level level reset (s.after (secondsTicks s.cfg.allClearTime)) x
  arbiterEvent a2 touched (reportSirenCause z level reset old) s

/-! ### Requests (R145 to R150) -/

/-- The demand and sounding flag of all eight sirens and the units in use (R145, 13.3). -/
def sirenAnswer (s : State) : List Byte :=
  (List.finRange 8).flatMap (fun i => [demandByte s.arbiter.sirens[i].demand, flagByte s.arbiter.sirens[i].sounding]) ++
    le8 s.arbiter.units

/-- The port's manual demand on a siren; SV has none (R142). -/
def Siren.manual (x : Siren) : Port → Option Manual
  | .fp => x.manualFp
  | .pc => x.manualPc
  | .sv => none

/-- A siren with the port's manual demand placed or removed. -/
def Siren.setManual (x : Siren) (p : Port) (m : Option Manual) : Siren :=
  match p with
  | .fp => { x with manualFp := m }
  | .pc => { x with manualPc := m }
  | .sv => x

/-- The pattern that a port may sound, by its code: FP EVACUATE or ALERT, PC ALERT (R145, R190). -/
def soundable (p : Port) (code : Byte) : Option Pattern :=
  match p with
  | .fp => if code = 0 then some .evacuate else if code = 1 then some .alert else none
  | .pc => if code = 1 then some .alert else none
  | .sv => none

/-- SOUND_SIREN: the checks and the manual demands (R146). -/
def soundSirenReply (p : Port) (mask pattern : Byte) (seconds : Word16) (s : State) : Reply :=
  match soundable p pattern with
  | none => refuseWith .denied (sirenAnswer s) s
  | some pat =>
    if mask = 0 then refuseWith .range (sirenAnswer s) s
    else if !s.isRunning then refuseWith .notNow (sirenAnswer s) s
    else
      let m : Manual := ⟨pat, s.after (secondsTicks (clamp 1 600 seconds.toNat))⟩
      let s1 := arbiterEvent (s.arbiter.update (sirenIn mask) fun _ x => x.setManual p (some m)) (sirenIn mask)
        (fun _ _ => .manual) s
      accept (sirenAnswer s1) s1

/-- SOUND_SIREN (R146). -/
def execSoundSiren (p : Port) (n mask pattern : Byte) (seconds : Word16) (s : State) : Answer :=
  live s (serve p codeSoundSiren n (soundSirenReply p mask pattern seconds))

/-- STOP_SOUND: the checks and the removal of the port's manual demands (R147). -/
def stopSoundReply (p : Port) (mask : Byte) (s : State) : Reply :=
  if p = .sv then refuseWith .denied (sirenAnswer s) s
  else if mask = 0 then refuseWith .range (sirenAnswer s) s
  else if !s.isRunning then refuseWith .notNow (sirenAnswer s) s
  else if (List.finRange 8).any (fun i => sirenIn mask i && (s.arbiter.sirens[i].manual p).isSome) then
    let s1 := arbiterEvent (s.arbiter.update (sirenIn mask) fun _ x => x.setManual p none) (sirenIn mask)
      (fun _ _ => .manual) s
    accept (sirenAnswer s1) s1
  else refuseWith .noData (sirenAnswer s) s

/-- STOP_SOUND (R147). -/
def execStopSound (p : Port) (n mask : Byte) (s : State) : Answer := live s (serve p codeStopSound n (stopSoundReply p mask))

/-- The zones of a siren's coverage that stand at ALARM or above in the zone view (R150). -/
def alarmedCover (c : Cfg) (a : Arbiter) (i : Fin 8) : ZoneMask :=
  maskOf fun z => zoneIn c.sirens[i].cover z && a.view[z].level.atLeast .alarm

/-- SILENCE: the checks and the snapshots (R150). -/
def silenceReply (p : Port) (mask : Byte) (s : State) : Reply :=
  if p ≠ .fp then refuseWith .denied (sirenAnswer s) s
  else if mask = 0 then refuseWith .range (sirenAnswer s) s
  else if !s.isRunning then refuseWith .notNow (sirenAnswer s) s
  else
    let s1 := arbiterEvent
      (s.arbiter.update (sirenIn mask) fun i x =>
        { x with snapshot := alarmedCover s.cfg s.arbiter i, manualFp := none, manualPc := none })
      (sirenIn mask) (fun _ _ => .silence) s
    accept (sirenAnswer s1) s1

/-- SILENCE (R150). -/
def execSilence (p : Port) (n mask : Byte) (s : State) : Answer := live s (serve p codeSilence n (silenceReply p mask))

/-- Some zone stands at ALARM or above in the zone view (R149). -/
def viewAlarmed (a : Arbiter) : Bool := (List.finRange 16).any fun z => a.view[z].level.atLeast .alarm

/-- TEST_SIRENS: the checks and the tests (R149). -/
def testSirensReply (p : Port) (mask : Byte) (s : State) : Reply :=
  if p ≠ .sv then refuseWith .denied (sirenAnswer s) s
  else if !s.keyClosed then refuseWith .key (sirenAnswer s) s
  else if mask = 0 then refuseWith .range (sirenAnswer s) s
  else if !s.isRunning || viewAlarmed s.arbiter then refuseWith .notNow (sirenAnswer s) s
  else
    let s1 := arbiterEvent (s.arbiter.update (sirenIn mask) fun _ x => { x with test := some (s.after 8000) })
      (sirenIn mask) (fun _ _ => .test) s
    accept (sirenAnswer s1) s1

/-- TEST_SIRENS (R149). -/
def execTestSirens (p : Port) (n mask : Byte) (s : State) : Answer := live s (serve p codeTestSirens n (testSirensReply p mask))

/-- A manual demand as 5 bytes: pattern and end, 0xFF and 0 where absent (13.3). -/
def manualFields (m : Option Manual) : List Byte :=
  match m with
  | some x => le8 x.pattern.num ++ le32 x.until_.ms
  | none => absentByte :: leNat32 0

/-- An end as a millisecond clock reading, 0 where it is not running (13.3). -/
def endFields (o : Option Tick) : List Byte := le32 ((o.map Tick.ms).getD 0)

/-- A siren summary of 22 bytes (R156, 13.3). -/
def sirenSummary (x : Siren) : List Byte :=
  let flags := (if x.sounding then 1 else 0) + (if x.drive then 2 else 0) + (if x.allClear.isSome then 4 else 0) +
    (if x.test.isSome then 8 else 0)
  [demandByte x.demand] ++ le8 flags ++ manualFields x.manualFp ++ manualFields x.manualPc ++ le16 x.snapshot ++
    endFields x.allClear ++ endFields x.test

/-- The 10-byte header of every READ_SIRENS answer (R156, 13.3; Assumption 29). -/
def sirenHeader (s : State) : List Byte :=
  let a := s.arbiter
  le8 s.cfg.budget ++ le8 a.units ++ le8 a.pointer.val ++ [optByte (a.mark.map fun i => byteOf i.val)] ++
    optTick a.slot ++ le8 (if a.phaseOn then 0 else 1)

/-- A siren's configured values, after its summary (R156). -/
def sirenDetail (s : State) (i : Fin 8) : List Byte :=
  le8 s.cfg.sirens[i].weight ++ le16 s.cfg.sirens[i].cover ++ leNat16 s.cfg.slotLength ++ leNat16 s.cfg.allClearTime

/-- READ_SIRENS: the checks and the answer (R156). -/
def readSirensReply (siren : Byte) (s : State) : Reply :=
  if siren = 255 then
    if s.isRunning then
      accept (sirenHeader s ++ (List.finRange 8).flatMap fun i => sirenSummary s.arbiter.sirens[i]) s
    else refuse .notNow s
  else
    match sirenOperand siren with
    | none => refuse .range s
    | some i =>
      if s.isRunning then accept (sirenHeader s ++ sirenSummary s.arbiter.sirens[i] ++ sirenDetail s i) s
      else refuse .notNow s

/-- READ_SIRENS (R156). -/
def execReadSirens (p : Port) (n siren : Byte) (s : State) : Answer :=
  live s (serve p codeReadSirens n (readSirensReply siren))

/-! ### Expiries (R146, R148, R149, R153, R154) -/

/-- One siren's contribution ends, by expiry. -/
def sirenExpiry (i : Fin 8) (f : Siren → Siren) (s : State) : State :=
  let touched := fun j : Fin 8 => decide (j = i)
  arbiterEvent (s.arbiter.update touched fun _ x => f x) touched (fun _ _ => .expiry) s

/-- A port's manual demand reaches its end tick (R146). -/
def manualExpires (i : Fin 8) (p : Port) (s : State) : State :=
  if expiresNow s ((s.arbiter.sirens[i].manual p).map Manual.until_) then sirenExpiry i (fun x => x.setManual p none) s
  else s

/-- MANUAL_DEMAND_EXPIRY (R146). -/
def execManualDemandExpiry (siren : Fin 8) (p : Port) (s : State) : Answer := whenRunning s (manualExpires siren p)

/-- A siren's all-clear reaches its end tick (R148). -/
def allClearExpires (i : Fin 8) (s : State) : State :=
  if expiresNow s s.arbiter.sirens[i].allClear then sirenExpiry i (fun x => { x with allClear := none }) s else s

/-- ALL_CLEAR_EXPIRY (R148). -/
def execAllClearExpiry (siren : Fin 8) (s : State) : Answer := whenRunning s (allClearExpires siren)

/-- A siren's test reaches its end tick (R149). -/
def sirenTestExpires (i : Fin 8) (s : State) : State :=
  if expiresNow s s.arbiter.sirens[i].test then sirenExpiry i (fun x => { x with test := none }) s else s

/-- SIREN_TEST_EXPIRY (R149). -/
def execSirenTestExpiry (siren : Fin 8) (s : State) : Answer := whenRunning s (sirenTestExpires siren)

/-- The slot timer expires: the pointer moves to the mark, the grants are evaluated, and the timer restarts where a
siren is left waiting (R153). -/
def slotExpires (s : State) : State :=
  if expiresNow s s.arbiter.slot then
    let a := s.arbiter
    let moved := { a with pointer := a.mark.getD a.pointer, slot := none }
    let new := (evaluateGrants s.cfg s.tick moved).withDrives
    sirenNotices a new (fun _ _ => .rotation) .rotation (s.setArbiter new)
  else s

/-- SLOT_BOUNDARY (R153). -/
def execSlotBoundary (s : State) : Answer := whenRunning s slotExpires

/-- The cadence timer expires: the phase changes, the drives follow, and the timer restarts for 4000 ticks (R154). -/
def cadenceExpires (s : State) : State :=
  if expiresNow s s.arbiter.cadence then
    s.setArbiter { s.arbiter with phaseOn := !s.arbiter.phaseOn, cadence := some (s.after 4000) }.withDrives
  else s

/-- CADENCE_EXPIRY (R154). -/
def execCadenceExpiry (s : State) : Answer := whenRunning s cadenceExpires

end Sys2Proof.Machine
end

