-- ==== Sys2Proof/Machine/Zones.lean ====
section
/-! DEFINITION. Chapter 1, the Zone Table as the other blocks meet it: a change of a zone record, its ZONE notice, and its
report to the Overlay Stacks, the Door Controller and the Siren Arbiter. The Duct Controllers' part of a report is in
Ducts.lean. -/

namespace Sys2Proof.Machine

open Sys2Proof

/-- The ZONE notice of a change (R6): urgent where the zone comes to FIRE from below. -/
def zoneOffer (z : Fin 16) (old new : Zone) (cause : ZoneCause) : Offer :=
  { kind := .zone, subject := byteOf z.val, old := byteOf old.level.num, new := byteOf new.level.num,
    cause := byteOf cause.num, detail := le16 new.tag ++ leFlag new.latch ++ [new.acked.byte],
    urgent := decide (new.level = .fire) && decide (old.level ≠ .fire) }

/-- The duct whose duct zone this is (R1). -/
def zoneDuct (z : Fin 16) : Option (Fin 4) := if h : z.val < 4 then some ⟨z.val, h⟩ else none

/-- A report reaches the Overlay Stack of a duct zone: at ALARM or FIRE the stack empties (R121). -/
def overlaysReport (z : Fin 16) (level : Level) (s : State) : State :=
  match zoneDuct z with
  | some d => if level.atLeast .alarm then clearOverlays d s else s
  | none => s

/-- What an event at one zone leaves: the state, and whether the zone's report shows it at FIRE. -/
structure Posted where
  state : State
  fire : Bool

/-- The zone record is settled from `raw` (R4, R5); where its tag rises, the ZONE notice is offered and the report made to
the blocks that only act on their own state (R6; Assumption 17). -/
def zoneEvent (z : Fin 16) (raw : Zone) (cause : ZoneCause) (reset : Bool) (s : State) : Posted :=
  let old := s.zone z
  let new := settleZone old raw reset
  let s1 := s.setZone z new
  if zoneChanged old new then
    let s2 := offer (zoneOffer z old new cause) s1
    let s3 := sirensReport z new.level new.acked reset (doorsReport z new.level (overlaysReport z new.level s2))
    ⟨s3, decide (new.level = .fire)⟩
  else ⟨s1, false⟩

/-- A posting of a cause to a zone (R3): entered, replaced, or at NORMAL removed. -/
def zonePosting (z : Fin 16) (key : CauseKey) (level : Level) (s : State) : Posted :=
  zoneEvent z { s.zone z with causes := (s.zone z).causes.set key.ix level } key.cause false s

end Sys2Proof.Machine
end

