-- ==== Sys2Proof/Machine/Ducts.lean ====
section
/-! DEFINITION. Chapter 6, the Duct Controllers: duct states and outputs, the requests on ducts, arming, spark rate, low
flow, the stop sequences, the causes posted to the duct zone, and the Duct Controllers' part of a zone report. The gate's
own events and a valve's entry to FAULT, which report to the Duct Controller, stand here too. -/

namespace Sys2Proof.Machine

open Sys2Proof

/-! ### The Duct Controller's record and its notices -/

/-- The Duct Controller of duct `d`. -/
def State.ctl (s : State) (d : Fin 4) : Ctl := (s.duct d).ctl

/-- The Duct Controller's record changes: its outputs follow (R92), and the Velocity Unit's bounds record is brought up to
date with the blind condition (R50, R93). -/
def State.setCtl (s : State) (d : Fin 4) (c : Ctl) : State :=
  let D := s.duct d
  s.setDuct d { D with ctl := c.withOutputs,
                       vel := { D.vel with bounds := boundsFor (s.ductCfg d) D.vel.state D.vel.value c.state } }

/-- Stop kind, stop cause and asserted level, each absent where the state has none. -/
def stopFields (stop : Option Stop) : List Byte :=
  [optByte (stop.map fun x => byteOf x.kind.num), optByte (stop.map fun x => byteOf x.cause.num),
    optByte (stop.map fun x => byteOf x.level.num)]

/-- The STATE notice (R93). -/
def stateOffer (d : Fin 4) (old new : Ctl) : Offer :=
  { kind := .duct, subject := ductNumber d, old := byteOf old.state.num, new := byteOf new.state.num,
    cause := byteOf DuctCause.state.num, detail := stopFields new.stop, urgent := stateUrgent old new }

/-- The Duct Controller changes its state or its recorded stop, with its STATE notice (R93). -/
def changeCtl (d : Fin 4) (new : Ctl) (s : State) : State := offer (stateOffer d (s.ctl d) new) (s.setCtl d new)

/-! ### Stop sequences (R103 to R106) -/

/-- The duct enters STOPPED. -/
def enterStopped (d : Fin 4) (s : State) : State := changeCtl d { s.ctl d with state := .stopped, purge := none } s

/-- A FIRE-kind stop has its gate: none is installed, or it is CLOSED or in FAULT (R106). -/
def gateShutEnough (gate : Option GateState) : Bool :=
  match gate with
  | none | some .closed | some .fault => true
  | some .opened | some .closing | some .opening => false

/-- A duct in STOPPING of FIRE kind enters STOPPED in the first event in which its gate allows it (R106). -/
def fireWait (d : Fin 4) (s : State) : State :=
  if (s.ctl d).fireStopping && gateShutEnough (s.gateState d) then enterStopped d s else s

/-- The recorded stop of a cause (R103). -/
def stopOf (cause : StopCause) : Stop := ⟨cause.kind, cause, cause.level⟩

/-- A stop cause takes a running duct into STOPPING, and the stop sequence begins (R103, R105, R106; Assumption 32). The STATE notice
of STOPPING goes before the Quench Unit's GATE notices of a FIRE-kind stop, and the STATE notice of STOPPED after them: the model's
choice, since R93 and R176 leave that order open (Assumption 39). -/
def beginStop (d : Fin 4) (cause : StopCause) (s : State) : State :=
  let purgeTime := (s.ductCfg d).purgeTime
  let purge := if cause.kind = .orderly ∧ purgeTime ≠ 0 then some (s.after (secondsTicks purgeTime)) else none
  let s1 := changeCtl d
    { s.ctl d with state := .stopping, stop := some (stopOf cause), start := none, arm := none, cleanCount := 0,
                   rateCount := 0, rate := none, quiet := none, lowFlow := none, purge := purge } s
  match cause.kind with
  | .fire => fireWait d (closeCommand d s1)
  | .orderly => if purgeTime = 0 then enterStopped d s1 else s1

/-- A cause replaces the recorded one in STOPPING or STOPPED, and may turn an ORDERLY stop into FIRE kind (R104). Where it turns, the
STATE notice of the replaced stop goes before the GATE notices and the STATE notice of STOPPED after them, the model's choice (R93,
R176; Assumption 39). -/
def replaceStop (d : Fin 4) (cause : StopCause) (s : State) : State :=
  let c := s.ctl d
  let orderly := match c.stop with
    | some x => decide (x.kind = .orderly)
    | none => true
  let turning := orderly && decide (cause.kind = .fire)
  let kind := if orderly then cause.kind else .fire
  let s1 := changeCtl d
    { c with stop := some ⟨kind, cause, cause.level⟩, purge := if turning then none else c.purge } s
  if turning then fireWait d (closeCommand d s1) else s1

/-- A cause replaces the recorded one where its level is higher than the asserted level (R104). -/
def replaceIfHigher (d : Fin 4) (cause : Option StopCause) (s : State) : State :=
  match cause with
  | some x => if x.level.above (s.ctl d).asserted then replaceStop d x s else s
  | none => s

/-- The causes taken in STOPPING (R104). -/
def StopCause.takenStopping : StopCause → Bool
  | .zoneFire | .diverted | .outrun | .overflow => true
  | .stopRequest | .lowFlow | .noFlow | .startGate | .sparkRate => false

/-- The stop causes that arise in one event are taken by the duct's state: the strongest of those it takes (R103,
R104; Assumption 20). -/
def takeCauses (d : Fin 4) (causes : List StopCause) (s : State) : State :=
  match (s.ctl d).state with
  | .starting | .arming | .guarded | .alert =>
    (match strongest causes with
      | some c => beginStop d c s
      | none => s)
  | .stopping => replaceIfHigher d (strongest (causes.filter StopCause.takenStopping)) s
  | .stopped => replaceIfHigher d (strongest (causes.filter fun c => decide (c = .zoneFire))) s
  | .offline => s

/-! ### Postings and zone reports (R107 to R109) -/

/-- The three postings of a Duct Controller to its duct zone, each at the level its condition gives now (R107, R108;
Assumption 18). -/
def dcPost (d : Fin 4) (s : State) : Posted :=
  let z := ductZone d
  let r1 := zonePosting z .ductState (ductStateLevel (s.ctl d)) s
  let r2 := zonePosting z .velocity (velocityLevel (r1.state.ctl d).state (r1.state.duct d).vel.state) r1.state
  let r3 := zonePosting z .ember (emberLevel (r2.state.ctl d)) r2.state
  ⟨r3.state, r1.fire || r2.fire || r3.fire⟩

/-- A Duct Controller acts on reports of its served zones and of its own duct zone (R109). -/
def actsOn (s : State) (d : Fin 4) (z : Fin 16) : Bool := decide (ductZone d = z) || zoneIn (s.ductCfg d).served z

/-- A report of a zone at FIRE at one Duct Controller: the stop cause ZONE_FIRE (R109). A ZONE_FIRE asserts ALARM, so its
own postings show no further zone at FIRE. -/
def fireReportAt (z : Fin 16) (s : State) (d : Fin 4) : State :=
  if actsOn s d z then (dcPost d (takeCauses d [.zoneFire] s)).state else s

/-- A report of a zone at FIRE reaches the four Duct Controllers (R109). -/
def fireReport (z : Fin 16) (s : State) : State := (List.finRange 4).foldl (fireReportAt z) s

/-- The rest of a zone's event after its own report: a zone shown at FIRE reaches the Duct Controllers. -/
def deliver (z : Fin 16) (r : Posted) : State := if r.fire then fireReport z r.state else r.state

/-- A cause is posted to a zone, with all that its report brings about (R3, R6). -/
def postZone (z : Fin 16) (key : CauseKey) (level : Level) (s : State) : State := deliver z (zonePosting z key level s)

/-- A Duct Controller's postings after its event, with all that their reports bring about. -/
def settleDuct (d : Fin 4) (s : State) : State := deliver (ductZone d) (dcPost d s)

/-- An event of a Duct Controller ends: stop causes are taken, a waiting FIRE-kind stop looks at its gate, and the
postings are made. -/
def dcEvent (d : Fin 4) (causes : List StopCause) (s : State) : State := settleDuct d (fireWait d (takeCauses d causes s))

/-! ### Reports of the other blocks (R69, R96, R97, R99, R100, R102) -/

/-- The velocity after an update is VALID and not below Lmin. -/
def soundAir (s : State) (d : Fin 4) : Bool :=
  let v := (s.duct d).vel
  decide (v.state = .valid) && decide ((s.ductCfg d).lmin ≤ v.value)

/-- The gate is OPEN, or not installed (R96). -/
def gateReady (gate : Option GateState) : Bool :=
  match gate with
  | none | some .opened => true
  | some .closing | some .closed | some .opening | some .fault => false

/-- The low-flow timer after a velocity update report (R102). -/
def lowFlowAfter (c : DuctCfg) (v : Velocity) (now : Tick) (timer : Option Tick) : Option Tick :=
  match v.state with
  | .failed => none
  | .valid | .held =>
    if v.value < c.lmin then some (timer.getD (now.plus (secondsTicks c.lowFlowGrace))) else none

/-- A velocity update report (R46) at the Duct Controller (R96, R97, R102). -/
def velocityReport (d : Fin 4) (s : State) : State :=
  let c := s.ctl d
  match c.state with
  | .starting =>
    if soundAir s d && gateReady (s.gateState d) then
      changeCtl d { c with state := .arming, arm := some (s.after 8000), windowClean := true, cleanCount := 0 } s
    else s
  | .arming => if soundAir s d then s else s.setCtl d { c with windowClean := false }
  | .guarded | .alert =>
    s.setCtl d { c with lowFlow := lowFlowAfter (s.ductCfg d) (s.duct d).vel s.tick c.lowFlow }
  | .offline | .stopping | .stopped => s

/-- A channel of the duct entered FAULT: a running arming window is spoiled (R97). -/
def spoilWindow (d : Fin 4) (s : State) : State :=
  if (s.ctl d).state = .arming then s.setCtl d { s.ctl d with windowClean := false } else s

/-- The Track Unit reports its list as empty or non-empty (R69). -/
def setListMark (d : Fin 4) (mark : Bool) (s : State) : State := s.setCtl d { s.ctl d with listMark := mark }

/-- A detection is counted in ARMING, GUARDED and ALERT (R99). -/
def DuctState.counts : DuctState → Bool
  | .arming | .guarded | .alert => true
  | .offline | .starting | .stopping | .stopped => false

/-- The rate counter and window after a counted detection (R100, steps 1 and 2). -/
def countedCtl (now : Tick) (window : Nat) (c : Ctl) : Ctl :=
  { c with rate := if c.rateCount = 0 then some (now.plus (secondsTicks window)) else c.rate,
           rateCount := min 255 (c.rateCount + 1),
           windowClean := if c.state = .arming then false else c.windowClean }

/-- The counter is at the shutdown threshold in force (R100, step 3). -/
def atShutdown (p : RateParams) (c : Ctl) : Bool :=
  let threshold := if c.state = .alert then p.alertShutdown else p.shutdown
  decide (threshold ≠ 0) && decide (threshold ≤ c.rateCount)

/-- A TRACKED or OVERFLOW report (R97, R99, R100), with the stop causes that the same event has already brought: the
causes with SPARK_RATE added where it arises, and the state after the counting. Where the event stops the duct, neither
ALERT nor the quiet timer is touched (Assumption 20). -/
def countDetection (d : Fin 4) (causes : List StopCause) (s : State) : List StopCause × State :=
  if (s.ctl d).state.counts then
    let p := s.effective d
    let c := countedCtl s.tick p.window (s.ctl d)
    let s1 := s.setCtl d c
    let quiet := some (s.after (secondsTicks (s.ductCfg d).quietTime))
    if atShutdown p c then (causes ++ [.sparkRate], s1)
    else if !causes.isEmpty then (causes, s1)
    else if c.state = .guarded ∧ p.alert ≠ 0 ∧ p.alert ≤ c.rateCount then
      (causes, changeCtl d { c with state := .alert, quiet := quiet } s1)
    else if c.state = .alert then (causes, s1.setCtl d { c with quiet := quiet })
    else (causes, s1)
  else (causes, s)

/-! ### Requests (R94, R95, R110 to R112) -/

/-- Duct state, stop kind, stop cause and asserted level, as the answers to the duct requests carry them (R94). -/
def ductAnswer (s : State) (d : Fin 4) : List Byte := byteOf (s.ctl d).state.num :: stopFields (s.ctl d).stop

/-- START_DUCT is forbidden by the state of the part (R95). -/
def startForbidden (s : State) (d : Fin 4) : Bool :=
  !s.isRunning || decide ((s.ctl d).state ≠ .offline) || (s.zone (ductZone d)).level.atLeast .alarm ||
    (List.finRange 16).any fun z => zoneIn (s.ductCfg d).served z && decide ((s.zone z).level = .fire)

/-- The duct enters STARTING (R95). Its STATE notice goes before the Quench Unit's GATE notices of the open command, and those before
the ZONE notice of the postings: the model's choice, since R93 and R176 leave that order open (Assumption 39). -/
def startDuct (d : Fin 4) (s : State) : State :=
  let s1 := changeCtl d
    { s.ctl d with state := .starting, stop := none, start := some (s.after (secondsTicks (s.ductCfg d).startTime)),
                   arm := none, cleanCount := 0, rateCount := 0, rate := none, quiet := none, lowFlow := none,
                   purge := none } s
  settleDuct d (openCommand d s1)

/-- START_DUCT: the checks and the start (R95). -/
def startDuctReply (p : Port) (duct : Byte) (s : State) : Reply :=
  match ductOperand duct with
  | none => if p = .sv then refuse .denied s else refuse .range s
  | some d =>
    if p = .sv then refuseWith .denied (ductAnswer s d) s
    else if startForbidden s d then refuseWith .notNow (ductAnswer s d) s
    else
      let s1 := startDuct d s
      accept (ductAnswer s1 d) s1

/-- START_DUCT (R95). -/
def execStartDuct (p : Port) (n duct : Byte) (s : State) : Answer := live s (serve p codeStartDuct n (startDuctReply p duct))

/-- STOP_DUCT: the checks and the stop cause STOP_REQUEST (R110). -/
def stopDuctReply (p : Port) (duct : Byte) (s : State) : Reply :=
  match ductOperand duct with
  | none => if p = .sv then refuse .denied s else refuse .range s
  | some d =>
    if p = .sv then refuseWith .denied (ductAnswer s d) s
    else if !s.isRunning then refuseWith .notNow (ductAnswer s d) s
    else
      match (s.ctl d).state with
      | .starting | .arming | .guarded | .alert =>
        let s1 := dcEvent d [.stopRequest] s
        accept (ductAnswer s1 d) s1
      | .stopping => accept (ductAnswer s d) s
      | .offline | .stopped => refuseWith .notNow (ductAnswer s d) s

/-- STOP_DUCT (R110). -/
def execStopDuct (p : Port) (n duct : Byte) (s : State) : Answer := live s (serve p codeStopDuct n (stopDuctReply p duct))

/-- The port may not reset this duct: SV never, PC not while it is STOPPED of FIRE kind (R94). -/
def resetDenied (p : Port) (c : Ctl) : Bool :=
  match p with
  | .fp => false
  | .sv => true
  | .pc => decide (c.state = .stopped) &&
      (match c.stop with
        | some x => decide (x.kind = .fire)
        | none => false)

/-- RESET_DUCT is forbidden by the state of the part (R111). -/
def resetForbidden (s : State) (d : Fin 4) : Bool :=
  let c := s.ctl d
  !s.isRunning || decide (c.state ≠ .stopped) || c.listMark ||
    ((s.zone (ductZone d)).latch && decide (c.asserted ≠ .fire))

/-- The duct returns to OFFLINE (R111); the TROUBLE notices of LOW_FLOW and NO_FLOW go before the ZONE notice of the
removed DUCT_STATE cause (Assumption 39). -/
def resetDuct (d : Fin 4) (s : State) : State :=
  let s1 := changeCtl d { s.ctl d with state := .offline, stop := none } s
  settleDuct d (clearTrouble (ductZone d) .noFlow (d.val + 1) (clearTrouble (ductZone d) .lowFlow (d.val + 1) s1))

/-- RESET_DUCT: the checks and the reset (R94, R111). -/
def resetDuctReply (p : Port) (duct : Byte) (s : State) : Reply :=
  match ductOperand duct with
  | none => if p = .sv then refuse .denied s else refuse .range s
  | some d =>
    if resetDenied p (s.ctl d) then refuseWith .denied (ductAnswer s d) s
    else if resetForbidden s d then refuseWith .notNow (ductAnswer s d) s
    else
      let s1 := resetDuct d s
      accept (ductAnswer s1 d) s1

/-- RESET_DUCT (R111). -/
def execResetDuct (p : Port) (n duct : Byte) (s : State) : Answer := live s (serve p codeResetDuct n (resetDuctReply p duct))

/-- The bounds record as fields (R191). -/
def boundsFields (b : Bounds) : List Byte :=
  leFlag b.blind ++ leNat16 b.vHi ++ leNat16 b.vLo ++ leNat32 b.pHi ++ leNat32 b.pLo

/-- A valve entry of the duct record, 9 bytes. -/
def valveFields (v : Fin 2) (x : Valve) : List Byte :=
  le8 v.val ++ le8 x.state.num ++ leFlag x.output ++ leFlag x.flow ++ leFlag x.confirmed ++ le32 x.openTick

/-- The gate of the duct record, 12 bytes. -/
def gateFields (g : Gate) : List Byte :=
  le8 g.state.num ++ leFlag g.openSwitch ++ leFlag g.closedSwitch ++ le32 g.cmdTick ++ optTick g.timer

/-- The duct record of READ_DUCT (R112, R191). -/
def ductRecord (s : State) (d : Fin 4) : List Byte :=
  let D := s.duct d
  let k := s.ductCfg d
  let c := D.ctl
  let valves := ((List.finRange 2).filter fun v => k.valves[v].installed).map fun v => valveFields v D.valves[v]
  ductAnswer s d ++ optTick c.start ++ optTick c.arm ++ optTick c.rate ++ optTick c.quiet ++ optTick c.lowFlow ++
    optTick c.purge ++ le8 c.cleanCount ++ leFlag c.windowClean ++ le8 c.rateCount ++ leFlag c.listMark ++
    leFlag c.feeder ++ leFlag c.fan ++ le8 D.vel.state.num ++ leNat16 D.vel.value ++ le8 D.vel.recovery ++
    boundsFields D.vel.bounds ++ listField valves ++
    optField 12 (if k.gate.installed then some (gateFields D.gate) else none) ++ optTick D.flood ++
    [optByte (D.test.map fun t => byteOf t.valve.val)] ++ optTick (D.test.map TestRun.until_) ++
    le16 k.served ++ leNat16 k.startTime ++ leNat16 k.purgeTime ++ leNat16 k.lowFlowGrace ++ leNat16 k.quietTime

/-- READ_DUCT: the checks and the answer (R112). -/
def readDuctReply (duct : Byte) (s : State) : Reply :=
  match ductOperand duct with
  | none => refuse .range s
  | some d => if s.isRunning then accept (ductRecord s d) s else refuse .notNow s

/-- READ_DUCT (R112). -/
def execReadDuct (p : Port) (n duct : Byte) (s : State) : Answer := live s (serve p codeReadDuct n (readDuctReply duct))

/-! ### Timers (R97, R98, R100 to R102, R105) -/

/-- The start timer runs out in STARTING or ARMING: the stop NO_FLOW with its trouble (R98). -/
def startTimerExpires (d : Fin 4) (s : State) : State :=
  if expiresNow s (s.ctl d).start && decide ((s.ctl d).state = .starting ∨ (s.ctl d).state = .arming) then
    raiseTrouble (ductZone d) .noFlow (d.val + 1) (dcEvent d [.noFlow] s)
  else s

/-- START_TIMER_EXPIRY (R98). -/
def execStartTimerExpiry (d : Fin 4) (s : State) : Answer := whenRunning s (startTimerExpires d)

/-- An arming window ends (R97). -/
def armingExpires (d : Fin 4) (s : State) : State :=
  let c := s.ctl d
  if expiresNow s c.arm && decide (c.state = .arming) then
    if c.windowClean then
      if c.cleanCount + 1 = 2 then
        settleDuct d (changeCtl d
          { c with state := .guarded, start := none, arm := none, cleanCount := 2, lowFlow := none } s)
      else s.setCtl d { c with arm := some (s.after 8000), cleanCount := c.cleanCount + 1 }
    else s.setCtl d { c with arm := some (s.after 8000), windowClean := true, cleanCount := 0 }
  else s

/-- ARMING_WINDOW_EXPIRY (R97). -/
def execArmingWindowExpiry (d : Fin 4) (s : State) : Answer := whenRunning s (armingExpires d)

/-- The rate window ends (R100). -/
def rateExpires (d : Fin 4) (s : State) : State :=
  if expiresNow s (s.ctl d).rate then s.setCtl d { s.ctl d with rateCount := 0, rate := none } else s

/-- RATE_WINDOW_EXPIRY (R100). -/
def execRateWindowExpiry (d : Fin 4) (s : State) : Answer := whenRunning s (rateExpires d)

/-- The quiet time runs out in ALERT (R101). -/
def quietExpires (d : Fin 4) (s : State) : State :=
  let c := s.ctl d
  if expiresNow s c.quiet && decide (c.state = .alert) then
    settleDuct d (changeCtl d { c with state := .guarded, quiet := none } s)
  else s

/-- QUIET_TIMER_EXPIRY (R101). -/
def execQuietTimerExpiry (d : Fin 4) (s : State) : Answer := whenRunning s (quietExpires d)

/-- The low-flow grace runs out in GUARDED or ALERT: the stop LOW_FLOW with its trouble (R102). -/
def lowFlowExpires (d : Fin 4) (s : State) : State :=
  if expiresNow s (s.ctl d).lowFlow && decide ((s.ctl d).state = .guarded ∨ (s.ctl d).state = .alert) then
    raiseTrouble (ductZone d) .lowFlow (d.val + 1) (dcEvent d [.lowFlow] s)
  else s

/-- LOW_FLOW_TIMER_EXPIRY (R102). -/
def execLowFlowTimerExpiry (d : Fin 4) (s : State) : Answer := whenRunning s (lowFlowExpires d)

/-- The purge time runs out (R105). -/
def purgeExpires (d : Fin 4) (s : State) : State :=
  if expiresNow s (s.ctl d).purge && decide ((s.ctl d).state = .stopping) then settleDuct d (enterStopped d s) else s

/-- PURGE_TIMER_EXPIRY (R105). -/
def execPurgeTimerExpiry (d : Fin 4) (s : State) : Answer := whenRunning s (purgeExpires d)

/-! ### Quench Unit events that report to the Duct Controller (R77, R80, R85, R86) -/

/-- A flow-confirm timer runs out: the valve enters FAULT with VALVE_FAULT, every track is judged again, and the gate
decisions are reported (R77, R80, R82). -/
def flowConfirmExpires (d : Fin 4) (v : Fin 2) (s : State) : State :=
  let old := s.valve d v
  if expiresNow s old.timer && decide (old.state = .opened) then
    let new := { old with state := .fault, timer := none }
    let s1 := raiseTrouble (ductZone d) .valveFault v.val (offer (valveOffer d v old new) (s.setValve d v new))
    let r := rejudge d s1
    dcEvent d r.1 r.2
  else s

/-- FLOW_CONFIRM_EXPIRY (R77). -/
def execFlowConfirmExpiry (d : Fin 4) (v : Fin 2) (s : State) : Answer := whenRunning s (flowConfirmExpires d v)

/-- The level of a gate position switch's lead (Assumption 11). -/
def setGateLead (d : Fin 4) (which : GateSwitch) (active : Bool) (s : State) : State :=
  s.setLeads
    (match which with
    | .openSwitch => { s.leads with gateOpen := s.leads.gateOpen.set d active }
    | .closedSwitch => { s.leads with gateClosed := s.leads.gateClosed.set d active })

/-- A gate's switch as last sampled. -/
def Gate.switch (g : Gate) : GateSwitch → Bool
  | .openSwitch => g.openSwitch
  | .closedSwitch => g.closedSwitch

/-- A gate with a switch sampled. -/
def Gate.withSwitch (g : Gate) (which : GateSwitch) (active : Bool) : Gate :=
  match which with
  | .openSwitch => { g with openSwitch := active }
  | .closedSwitch => { g with closedSwitch := active }

/-- A sample of a position switch of an installed gate; where it differs from the last one it is an event of the Quench Unit: a
stroke towards it ends, and the Duct Controller is told (R74, R85). -/
def gateSwitchEvent (d : Fin 4) (which : GateSwitch) (active : Bool) (s : State) : State :=
  if (s.gate d).switch which ≠ active then
    dcEvent d [] (endStroke d (s.setGate d ((s.gate d).withSwitch which active)))
  else s

/-- GATE_SWITCH_CHANGE (R74, R85): the lead takes the level at any time; the part samples it once at every tick while RUNNING, the
tick of the load completion apart (Assumptions 10 and 11). -/
def execGateSwitchChange (d : Fin 4) (which : GateSwitch) (active : Bool) (s : State) : Answer :=
  live (setGateLead d which active s) (sampling (.gate d which) (gateSwitchEvent d which active))

/-- A gate's entry to FAULT raises the asserted level of a FIRE-kind STOPPING to FIRE (R106; Assumption 31). -/
def raiseAsserted (d : Fin 4) (s : State) : State :=
  let c := s.ctl d
  match c.stop with
  | some x => if c.fireStopping && decide (x.level ≠ .fire) then changeCtl d { c with stop := some { x with level := .fire } } s
              else s
  | none => s

/-- The gate supervision timer runs out: the gate enters FAULT with GATE_FAULT, and the Duct Controller acts on it (R86,
R96, R106). -/
def gateSupervisionExpires (d : Fin 4) (s : State) : State :=
  let g := s.gate d
  if expiresNow s g.timer && decide (g.state = .closing ∨ g.state = .opening) then
    let s1 := moveGate d { g with state := .fault, timer := none, troubleMark := true } (some .expiry) s
    let s2 := if g.troubleMark then s1 else raiseTrouble (ductZone d) .gateFault 0 s1
    if g.state = .opening ∧ (s2.ctl d).state = .starting then dcEvent d [.startGate] s2
    else dcEvent d [] (raiseAsserted d s2)
  else s

/-- GATE_SUPERVISION_EXPIRY (R86). -/
def execGateSupervisionExpiry (d : Fin 4) (s : State) : Answer := whenRunning s (gateSupervisionExpires d)

end Sys2Proof.Machine
end

