-- ==== Sys2Proof/Machine/Tracks.lean ====
section
/-! DEFINITION. Chapters 3 and 4, the Track Units: the arrivals, windows and deadlines of a new track, the settlement of a
confirmed detection by matching, creation or overflow, retirement, and READ_TRACKS. -/

namespace Sys2Proof.Machine

open Sys2Proof

/-! ### Detections (R33) -/

/-- A detection record. -/
structure Detection where
  duct : Fin 4
  station : Fin 4
  origin : Tick
  confirm : Tick
  channels : List (Fin 16)
  deriving DecidableEq, Repr

/-- The outcome of a detection at the Track Unit (R61 to R65). -/
inductive TrackOutcome where
  | tracked (id : Byte)
  | matched (id : Byte)
  | overflow
  deriving DecidableEq, Repr

/-! ### A new track's entries (R51 to R56, R62, R70) -/

/-- The valve entry of a track from position `pos` at a valve, where it is installed and downstream (R51, R54, R55). -/
def valveEntry (c : ValveCfg) (v : Fin 2) (pos : Nat) (origin now : Tick) (b : Bounds) : Option ValveEntry :=
  if c.installed ∧ pos < c.position then
    let te := arrivalBy (c.position - pos) b.pHi
    let tl := arrivalBy (c.position - pos) b.pLo
    some { valve := v, te := te, tl := tl, openTick := (origin.plus te).minus (msTicks c.response),
           closeTick := origin.plus (tl + msTicks c.hold),
           late := Tick.later (now.plus (msTicks c.response)) (origin.plus te) }
  else none

/-- The gate entry of a track, where the gate is installed and downstream (R56). -/
def gateEntry (c : GateCfg) (pos : Nat) (origin : Tick) (b : Bounds) : Option GateEntry :=
  if c.installed ∧ pos < c.position then
    let te := arrivalBy (c.position - pos) b.pHi
    some ⟨te, origin.plus te⟩
  else none

/-- The station entry of a track at another station, where it is configured and downstream (R62). -/
def stationEntry (c : Cfg) (d st : Fin 4) (pos : Nat) (origin : Tick) (b : Bounds) : Option StationEntry :=
  if stationConfigured c d st ∧ pos < stationPosition c d st then
    let te := arrivalBy (stationPosition c d st - pos) b.pHi
    let tl := arrivalBy (stationPosition c d st - pos) b.pLo
    let m := msTicks c.ducts[d].margin
    some { station := st, te := te, tl := tl, winBegin := (origin.plus te).minus m, winEnd := origin.plus (tl + m) }
  else none

/-- The retirement tick (R70). -/
def retirementTick (confirm : Tick) (valves : List ValveEntry) (gate : Option GateEntry) (stations : List StationEntry) :
    Tick :=
  let t1 := valves.foldl (fun t e => laterTick t e.closeTick) (confirm.plus 1)
  let t2 := match gate with
    | some g => laterTick t1 (g.deadline.plus 1)
    | none => t1
  stations.foldl (fun t e => laterTick t (e.winEnd.plus 16)) t2

/-- The track of an unmatched detection (R59, R64), not yet judged. -/
def newTrack (c : Cfg) (b : Bounds) (id : Byte) (x : Detection) : Track :=
  let pos := stationPosition c x.duct x.station
  let k := c.ducts[x.duct]
  let valves := (List.finRange 2).filterMap fun v => valveEntry k.valves[v] v pos x.origin x.confirm b
  let gate := gateEntry k.gate pos x.origin b
  let stations := (List.finRange 4).filterMap fun st => stationEntry c x.duct st pos x.origin b
  { id := id, station := x.station, origin := x.origin, confirm := x.confirm, blind := b.blind, vHi := b.vHi, vLo := b.vLo,
    valves := valves, gate := gate, stations := stations, retire := retirementTick x.confirm valves gate stations,
    quenched := true, matched := [], capture := none }

/-- The first id from `next` on that no track of the list holds, within `fuel` steps (R60). -/
def freshId (l : List Track) : Nat → Byte → Byte
  | 0, next => next
  | fuel + 1, next => if l.any fun t => decide (t.id = next) then freshId l fuel (next + 1) else next

/-- A track inserted at its place: before the first track whose origin tick is later (R58). -/
def insertTrack (t : Track) : List Track → List Track
  | [] => [t]
  | x :: rest => if Tick.later x.origin t.origin then t :: x :: rest else x :: insertTrack t rest

/-! ### Matching (R61) -/

/-- A detection at a station with an origin matches a track. -/
def matchesTrack (st : Fin 4) (origin : Tick) (t : Track) : Bool :=
  t.stations.any (fun e => decide (e.station = st) && e.admits origin) && !t.matched.any fun m => decide (m = st)

/-- The oldest fitting track joins the station to its matched-stations list (R61, R63); the track as it was is given
too. -/
def matchFirst (st : Fin 4) (origin : Tick) : List Track → Option (Track × List Track)
  | [] => none
  | t :: rest =>
    if matchesTrack st origin t then some (t, { t with matched := t.matched ++ [st] } :: rest)
    else (matchFirst st origin rest).map fun r => (r.1, t :: r.2)

/-! ### Notices (R66) -/

/-- A DETECTION notice. -/
def detectionOffer (d st : Fin 4) (old new : Nat) (cause : DetectionCause) (detail : List Byte) : Offer :=
  { kind := .detection, subject := ductStationByte d st, old := byteOf old, new := byteOf new,
    cause := byteOf cause.num, detail := detail, urgent := false }

/-! ### Settlement (R61 to R65, R79, R81) -/

/-- What the Track Unit and the Quench Unit make of a detection: the outcome, the bounds its capture names, the stop
causes reported to the Duct Controller, and the state. -/
structure Settled where
  outcome : TrackOutcome
  vHi : Nat
  vLo : Nat
  causes : List StopCause
  state : State

/-- A matched detection (R63). -/
def settleMatched (x : Detection) (t : Track) (tracks : List Track) (s : State) : Settled :=
  let n := tracks.length
  let s1 := s.setDuct x.duct { s.duct x.duct with tracks := tracks }
  ⟨.matched t.id, t.vHi, t.vLo, [],
    offer (detectionOffer x.duct x.station n n .matched
      (le8 t.id.toNat ++ le8 t.station.val ++ le32 x.origin ++ le32 x.confirm)) s1⟩

/-- An overflow: the duct is flooded (R65, R87; Assumption 25). -/
def settleOverflow (x : Detection) (s : State) : Settled :=
  let n := (s.duct x.duct).tracks.length
  let b := (s.duct x.duct).vel.bounds
  ⟨.overflow, b.vHi, b.vLo, [.overflow],
    offer (detectionOffer x.duct x.station n n .overflow (le32 x.origin ++ le32 x.confirm)) (startFlood x.duct s)⟩

/-- The Quench Unit takes a new track: its judgment is already written, the valves it has an entry for are evaluated, and
an UNQUENCHED one has its gate decision (R75, R79, R81). Where one event turns both valves on, E1 is evaluated and its VALVE notice
offered before E2, and both go before the decision's notices: the model's choice, R64 and R75 give no order (Assumption 39). -/
def takeNewTrack (d : Fin 4) (t : Track) (s : State) : List StopCause × State :=
  let s1 := t.valves.foldl (fun s e => evalValve d e.valve s) s
  if t.quenched then ([], s1)
  else
    let r := gateDecision d t s1
    ([r.1], r.2)

/-- An unmatched detection at a list with room becomes a track (R64). -/
def settleTracked (x : Detection) (s : State) : Settled :=
  let D := s.duct x.duct
  let b := D.vel.bounds
  let id := freshId D.tracks 256 D.nextId
  let t0 := newTrack s.cfg b id x
  let t := { t0 with quenched := judgeQuenched D.valves t0 }
  let n := D.tracks.length
  let s1 := s.setDuct x.duct { D with tracks := insertTrack t D.tracks, nextId := id + 1 }
  let r := takeNewTrack x.duct t s1
  ⟨.tracked id, t.vHi, t.vLo, r.1,
    offer (detectionOffer x.duct x.station n (n + 1) .tracked
      (le8 id.toNat ++ le32 t.origin ++ le32 t.confirm ++ leFlag t.blind)) r.2⟩

/-- The Track Unit settles a confirmed detection: matching first, then creation, then overflow (R61, R64, R65). -/
def settleDetection (x : Detection) (s : State) : Settled :=
  match matchFirst x.station x.origin (s.duct x.duct).tracks with
  | some (t, tracks) => settleMatched x t tracks s
  | none => if (s.duct x.duct).tracks.length < 8 then settleTracked x s else settleOverflow x s

/-- The Duct Controller takes the reports of a detection's event: the list's occupancy (R69), the counted detection and
the stop causes (R99, R100, R103). A MATCHED report does nothing there. -/
def reportDetection (x : Detection) (r : Settled) (s : State) : State :=
  match r.outcome with
  | .matched _ => s
  | .tracked _ =>
    let s1 := if (s.duct x.duct).tracks.length = 1 then setListMark x.duct true s else s
    let q := countDetection x.duct r.causes s1
    dcEvent x.duct q.1 q.2
  | .overflow =>
    let q := countDetection x.duct r.causes s
    dcEvent x.duct q.1 q.2

/-- The Capture Store hands a capture's sequence to the new track (R65). -/
def handSequence (d : Fin 4) (id : Byte) (sequence : Word16) (s : State) : State :=
  let D := s.duct d
  s.setDuct d { D with tracks := D.tracks.map fun t => if t.id = id then { t with capture := some sequence } else t }

/-! ### Retirement (R71) -/

/-- The RETIRED notice. -/
def retiredOffer (d : Fin 4) (old : Nat) (t : Track) : Offer :=
  detectionOffer d t.station old (old - 1) .retired
    (le8 t.id.toNat ++ le32 t.origin ++ le8 (if t.quenched then 0 else 1) ++ listField (t.matched.map fun m => le8 m.val))

/-- The track with an id retires at its retirement tick (R71): it leaves the list, and the Duct Controller is told when the
list is left empty (R69). -/
def trackRetires (d : Fin 4) (id : Byte) (s : State) : State :=
  let D := s.duct d
  match D.tracks.find? fun t => decide (t.id = id) with
  | none => s
  | some t =>
    if t.retire = s.tick then
      let rest := D.tracks.erase t
      let s1 := offer (retiredOffer d D.tracks.length t) (s.setDuct d { D with tracks := rest })
      if rest.isEmpty then settleDuct d (setListMark d false s1) else s1
    else s

/-- TRACK_RETIREMENT (R71). -/
def execTrackRetirement (d : Fin 4) (id : Byte) (s : State) : Answer := whenRunning s (trackRetires d id)

/-! ### READ_TRACKS (R72) -/

/-- A matched-stations list as a count and three entries, unused ones 0xFF (R191). -/
def matchedFields (l : List (Fin 4)) : List Byte := padTo 4 absentByte (listField (l.map fun m => le8 m.val))

/-- A track summary of 22 bytes (R72, R191). -/
def trackSummary (t : Track) : List Byte :=
  le8 t.id.toNat ++ le8 t.station.val ++ le32 t.origin ++ le32 t.confirm ++
    le8 ((if t.blind then 1 else 0) + (if t.quenched then 0 else 2)) ++ matchedFields t.matched ++
    optField 2 (t.capture.map le16) ++ le32 t.retire

/-- A valve entry of 18 bytes. -/
def valveEntryFields (e : ValveEntry) : List Byte :=
  le8 e.valve.val ++ leNat32 e.te ++ leNat32 e.tl ++ le32 e.openTick ++ le32 e.closeTick ++ leFlag e.late

/-- A station entry of 18 bytes. -/
def stationEntryFields (t : Track) (e : StationEntry) : List Byte :=
  le8 e.station.val ++ leNat32 e.te ++ leNat32 e.tl ++ le32 e.winBegin ++ le32 e.winEnd ++
    leFlag (t.matched.any fun m => decide (m = e.station))

/-- The margin of the gate for a track, at the event of the request (R72). -/
def readMargin (g : Gate) (stroke : Nat) (now : Tick) (e : GateEntry) : Option (BitVec 32) :=
  match g.state with
  | .opened => some (e.deadline - now.plus (msTicks stroke))
  | .closing => some (e.deadline - g.cmdTick.plus (msTicks stroke))
  | .closed | .opening | .fault => none

/-- The gate entry of a full track record. -/
def gateEntryFields (s : State) (d : Fin 4) (e : GateEntry) : List Byte :=
  leNat32 e.te ++ le32 e.deadline ++ optField 4 ((readMargin (s.gate d) (s.gateCfg d).stroke s.tick e).map le32)

/-- The full record of a track (R72, R191). -/
def trackRecord (s : State) (d : Fin 4) (t : Track) : List Byte :=
  trackSummary t ++ leNat16 t.vHi ++ leNat16 t.vLo ++ listField (t.valves.map valveEntryFields) ++
    optField 13 (t.gate.map (gateEntryFields s d)) ++ listField (t.stations.map (stationEntryFields t))

/-- READ_TRACKS: the checks and the answer (R72). -/
def readTracksReply (duct position : Byte) (s : State) : Reply :=
  match ductOperand duct with
  | none => refuse .range s
  | some d =>
    let D := s.duct d
    let count := le8 D.tracks.length
    if position = 255 then
      if s.isRunning then accept (count ++ le8 D.nextId.toNat ++ D.tracks.flatMap trackSummary) s else refuse .notNow s
    else if 8 ≤ position.toNat then refuse .range s
    else if !s.isRunning then refuse .notNow s
    else
      match D.tracks[position.toNat]? with
      | some t => accept (count ++ trackRecord s d t) s
      | none => refuseWith .noData count s

/-- READ_TRACKS (R72). -/
def execReadTracks (p : Port) (n duct position : Byte) (s : State) : Answer :=
  live s (serve p codeReadTracks n (readTracksReply duct position))

end Sys2Proof.Machine
end

