-- ==== Sys2Proof/Machine/Captures.lean ====
section
/-! DEFINITION. Chapter 10, the Capture Store: settlement, start, samples and completion of a capture, and the requests
READ_CAPTURE, FREE_CAPTURES and SET_CAPTURE_LAYOUT. -/

namespace Sys2Proof.Machine

open Sys2Proof

/-! ### Blocks and records -/

/-- The record of a block that is not FREE. -/
def Block.record : Block → Option Capture
  | .free => none
  | .filling r _ => some r
  | .stored r => some r

/-- The block is FREE. -/
def Block.isFree : Block → Bool
  | .free => true
  | .filling _ _ | .stored _ => false

/-- The block is FILLING. -/
def Block.isFilling : Block → Bool
  | .filling _ _ => true
  | .free | .stored _ => false

/-- The block at a place; a place outside the layout holds none. -/
def Captures.block (c : Captures) (i : Nat) : Block := c.blocks[i]?.getD .free

/-- Replace the block at a place. -/
def Captures.setBlock (c : Captures) (i : Nat) (b : Block) : Captures := { c with blocks := c.blocks.set i b }

/-- The lowest-numbered FREE block (R160). -/
def Captures.lowestFree (c : Captures) : Option Nat := c.blocks.findIdx? Block.isFree

/-- The record at a place of the stored list, 0 being the oldest (R165). -/
def Captures.storedRecord (c : Captures) (i : Nat) : Option Capture := c.stored[i]?.bind fun b => (c.block b).record

/-- The sequence of the oldest stored record, or none. -/
def Captures.oldestSequence (c : Captures) : Option Word16 := (c.storedRecord 0).map Capture.sequence

/-- The filling block of a station. -/
def Captures.fillingOf (c : Captures) (d st : Fin 4) : Option Nat := c.filling[stationIx d st]

/-- The CAPTURE_READY notice (R164). -/
def captureOffer (cause : CaptureCause) (old new : Captures) : Offer :=
  { kind := .captureReady, subject := 0, old := byteOf old.stored.length, new := byteOf new.stored.length,
    cause := byteOf cause.num, detail := optField 2 (new.oldestSequence.map le16) ++ leFlag new.lost, urgent := false }

/-- The extra-detection count of a filling block increases by one, saturating at 255 (R160, R163). -/
def Block.counted : Block → Block
  | .filling r n => .filling { r with extra := min 255 (r.extra + 1) } n
  | .free => .free
  | .stored r => .stored r

/-- A further detection or absorbed qualification is counted into the station's filling capture. -/
def countExtra (b : Nat) (s : State) : State :=
  s.setCaptures (s.captures.setBlock b (s.captures.block b).counted)

/-! ### Start (R158, R161) -/

/-- How many of a station's channels a capture records (R158). -/
def capturedCount (layout : Fin 3) (pre post channels : Nat) : Nat := min channels (blockSize layout / (pre + post))

/-- The pre count held: the smaller of pre and the codes in the captured channels' rings (R161). -/
def preHeldCount (pre : Nat) (rings : List (List Code)) : Nat := rings.foldl (fun n r => min n r.length) pre

/-- The pre samples: the last `held` codes of each ring, by tick and within a tick by channel (R158, R161). -/
def preSamples (held : Nat) (rings : List (List Code)) : List Code :=
  (List.range held).flatMap fun j => rings.map fun r => (r.drop (r.length - held))[j]?.getD 0

/-- The record of a capture at its start (R161). -/
def newCapture (s : State) (x : Detection) (outcome : TrackOutcome) (vHi vLo : Nat) : Capture :=
  let c := s.captures
  let all := stationChannels s.cfg x.duct x.station
  let channels := all.take (capturedCount c.layout c.pre c.post all.length)
  let rings := channels.map fun ch => (s.channel ch).ring
  let held := preHeldCount c.pre rings
  { sequence := c.nextSeq, duct := x.duct, station := x.station, origin := x.origin, confirm := x.confirm,
    trackId := (match outcome with
      | .tracked id | .matched id => some id
      | .overflow => none),
    matched := (match outcome with
      | .matched _ => true
      | .tracked _ | .overflow => false),
    channels := channels, preHeld := held, post := c.post, extra := 0, vHi := vHi, vLo := vLo,
    words := preSamples held rings }

/-- The station's capture-in-flight mark in the DFE (R22). -/
def setInFlight (d st : Fin 4) (mark : Bool) (s : State) : State := s.setStation d st { s.station d st with inFlight := mark }

/-- A capture starts in a block; a TRACKED detection's track is handed its sequence (R65, R161). -/
def startCapture (b : Nat) (x : Detection) (outcome : TrackOutcome) (vHi vLo : Nat) (s : State) : State :=
  let c := s.captures
  let r := newCapture s x outcome vHi vLo
  let c1 := { c.setBlock b (.filling r c.post) with
    filling := c.filling.set (stationIx x.duct x.station) (some b), nextSeq := c.nextSeq + 1 }
  let s1 := setInFlight x.duct x.station true (s.setCaptures c1)
  match outcome with
  | .tracked id => handSequence x.duct id r.sequence s1
  | .matched _ | .overflow => s1

/-- A capture is skipped: the LOST flag is set, with its notice where it was clear (R160, R164). -/
def skipCapture (s : State) : State :=
  let c := s.captures
  if c.lost then s
  else
    let c1 := { c with lost := true }
    offer (captureOffer .lost c c1) (s.setCaptures c1)

/-- A detection is settled at the Capture Store (R160). -/
def settleCapture (x : Detection) (outcome : TrackOutcome) (vHi vLo : Nat) (s : State) : State :=
  match s.captures.fillingOf x.duct x.station with
  | some b => countExtra b s
  | none =>
    match s.captures.lowestFree with
    | some b => startCapture b x outcome vHi vLo s
    | none => skipCapture s

/-- An absorbed qualification is reported to the Store where the station's in-flight mark is set (R34, R163). -/
def absorbCapture (d st : Fin 4) (s : State) : State :=
  if (s.station d st).inFlight then
    match s.captures.fillingOf d st with
    | some b => countExtra b s
    | none => s
  else s

/-! ### Samples and completion (R162, R164) -/

/-- The capture in a block is complete: the block is STORED, its station has no filling block, and READY is offered at the
rise to the threshold. -/
def completeCapture (b : Nat) (r : Capture) (d st : Fin 4) (s : State) : State :=
  let c := s.captures
  let c1 := { c.setBlock b (.stored r) with filling := c.filling.set (stationIx d st) none, stored := c.stored ++ [b] }
  let s1 := setInFlight d st false (s.setCaptures c1)
  if c.stored.length + 1 = effectiveReady s.cfg.readyThreshold c.layout then offer (captureOffer .ready c c1) s1 else s1

/-- The Store takes a station's samples for its filling capture, at a tick after the confirmation (R162). -/
def captureSamples (d st : Fin 4) (codes : List Code) (s : State) : State :=
  match s.captures.fillingOf d st with
  | none => s
  | some b =>
    match s.captures.block b with
    | .filling r remaining =>
      if Tick.later s.tick r.confirm then
        let r1 := { r with words := r.words ++ codes.take r.channels.length }
        if remaining ≤ 1 then completeCapture b r1 d st s
        else s.setCaptures (s.captures.setBlock b (.filling r1 (remaining - 1)))
      else s
    | .free | .stored _ => s

/-! ### Requests (R165 to R167) -/

/-- A capture header of 26 bytes (R191). -/
def captureHeader (r : Capture) : List Byte :=
  le16 r.sequence ++ [ductStationByte r.duct r.station] ++ le32 r.origin ++ le32 r.confirm ++
    [optByte r.trackId] ++ leFlag r.matched ++ padTo 5 absentByte (listField (r.channels.map fun c => le8 c.val)) ++
    le8 r.preHeld ++ leNat16 r.post ++ le8 r.extra ++ leNat16 r.vHi ++ leNat16 r.vLo

/-- A sample code as a field. -/
def codeField (c : Code) : List Byte := leNat16 c.toNat

/-- READ_CAPTURE: the checks and the answer (R165; Assumption 29). -/
def readCaptureReply (index part : Byte) (offset : Word16) (count : Byte) (s : State) : Reply :=
  match s.captures.storedRecord index.toNat with
  | none => refuse .range s
  | some r =>
    if part ≠ 0 ∧ part ≠ 1 then refuse .range s
    else if !s.isRunning then refuse .notNow s
    else
      let lead := le16 r.sequence ++ leNat16 r.words.length
      if part = 0 then accept (lead ++ captureHeader r) s
      else
        let words := (r.words.drop offset.toNat).take (clamp 1 100 count.toNat)
        accept (lead ++ listField (words.map codeField)) s

/-- READ_CAPTURE (R165). -/
def execReadCapture (p : Port) (n index part : Byte) (offset : Word16) (count : Byte) (s : State) : Answer :=
  live s (serve p codeReadCapture n (readCaptureReply index part offset count))

/-- The stored count and the oldest sequence, which every FREE_CAPTURES answer carries (R166). -/
def freeAnswer (s : State) : List Byte :=
  le8 s.captures.stored.length ++ optField 2 (s.captures.oldestSequence.map le16)

/-- The oldest `n` stored blocks become FREE, and LOST is cleared (R166). -/
def freeCaptures (n : Nat) (s : State) : State :=
  let c := s.captures
  s.setCaptures { c with blocks := (c.stored.take n).foldl (fun l b => l.set b .free) c.blocks,
                         stored := c.stored.drop n, lost := false }

/-- FREE_CAPTURES: the checks and the release (R166). -/
def freeCapturesReply (num : Byte) (oldest : Word16) (s : State) : Reply :=
  if num = 0 ∨ s.captures.stored.length < num.toNat then refuseWith .range (freeAnswer s) s
  else if s.captures.oldestSequence ≠ some oldest then refuseWith .stale (freeAnswer s) s
  else if !s.isRunning then refuseWith .notNow (freeAnswer s) s
  else
    let s1 := freeCaptures num.toNat s
    accept (freeAnswer s1) s1

/-- FREE_CAPTURES (R166). -/
def execFreeCaptures (p : Port) (n num : Byte) (oldest : Word16) (s : State) : Answer :=
  live s (serve p codeFreeCaptures n (freeCapturesReply num oldest))

/-- A layout code, if it is one (R158). -/
def layoutOperand (b : Byte) : Option (Fin 3) := indexBelow 3 b

/-- The operands of a layout lie in range (R167). -/
def layoutFits (layout : Fin 3) (pre post : Nat) : Bool :=
  decide (pre ≤ 64) && decide (1 ≤ post) && decide (post ≤ 448) && decide (pre + post ≤ blockSize layout)

/-- The Capture Store emptied into a layout, its sequence going on (R167). -/
def Captures.emptied (c : Captures) (layout : Fin 3) (pre post : Nat) : Captures :=
  { c with layout := layout, pre := pre, post := post, blocks := List.replicate (blockCount layout) .free, stored := [],
           lost := false }

/-- SET_CAPTURE_LAYOUT: the checks and the new layout (R167). -/
def setCaptureLayoutReply (p : Port) (layout pre : Byte) (post : Word16) (s : State) : Reply :=
  if p ≠ .sv then refuse .denied s
  else if !s.keyClosed then refuse .key s
  else
    match layoutOperand layout with
    | none => refuse .range s
    | some l =>
      if !layoutFits l pre.toNat post.toNat then refuse .range s
      else if s.captures.blocks.any Block.isFilling then refuse .busy s
      else if !s.isRunning then refuse .notNow s
      else
        let c1 := s.captures.emptied l pre.toNat post.toNat
        accept [] (offer (captureOffer .layout s.captures c1) (s.setCaptures c1))

/-- SET_CAPTURE_LAYOUT (R167). -/
def execSetCaptureLayout (p : Port) (n layout pre : Byte) (post : Word16) (s : State) : Answer :=
  live s (serve p codeSetCaptureLayout n (setCaptureLayoutReply p layout pre post))

end Sys2Proof.Machine
end

