-- ==== Sys2Proof/Machine/Detectors.lean ====
section
/-! DEFINITION. Chapter 2, the Detector Front End: the station sample event with its five stages, channel supervision and
coincidence troubles, and the requests on channels. -/

namespace Sys2Proof.Machine

open Sys2Proof

/-! ### One channel's sample (R24 to R27) -/

/-- The channel is ACTIVE. -/
def Channel.isActive (x : Channel) : Bool := decide (x.state = .active)

/-- A history ring with a code appended, of at most 64 codes (R25). -/
def ringAppend (l : List Code) (c : Code) : List Code := (l ++ [c]).drop (l.length + 1 - 64)

/-- Stage 2: a channel that is not UNUSED takes its sample (R25). -/
def Channel.recorded (threshold : Nat) (code : Code) (x : Channel) : Channel :=
  match x.state with
  | .unused => x
  | .active | .isolated | .fault _ =>
    { x with ring := ringAppend x.ring code,
             low := if code.toNat < liveFloor then min 400 (x.low + 1) else 0,
             clean := if liveFloor ≤ code.toNat ∧ code.toNat < threshold then min 400 (x.clean + 1) else 0,
             effective := threshold }

/-- Stage 3: an ACTIVE channel updates its run (R26). -/
def Channel.runUpdated (threshold : Nat) (code : Code) (now : Tick) (x : Channel) : Channel :=
  if x.isActive then
    if threshold ≤ code.toNat then
      if x.run = 0 then { x with run := 1, runStart := now, qualified := false }
      else { x with run := min 65535 (x.run + 1) }
    else { x with run := 0, qualified := false }
  else x

/-- A channel after stage 3 qualifies at this event (R27). -/
def Channel.qualifies (threshold nq : Nat) (code : Code) (x : Channel) : Bool :=
  x.isActive && decide (threshold ≤ code.toNat) && !x.qualified && decide (nq ≤ x.run)

/-- The fault that stage 4 finds at a channel: stuck, or dead (R28, R29). A channel that both rules find at one event, as a
threshold below the live floor allows, is STUCK (Assumption 40). -/
def Channel.faultFound (stuckLimit : Nat) (x : Channel) : Option FaultKind :=
  if !x.isActive then none
  else if x.run = secondsTicks stuckLimit then some .stuck
  else if x.low = 400 then some .dead
  else none

/-- A channel that leaves ACTIVE, or enters it, has no run (R26, R30). -/
def Channel.enter (x : Channel) (st : ChannelState) : Channel := { x with state := st, run := 0, qualified := false }

/-- What stages 2 to 4 make of one channel. -/
structure Sampled where
  channel : Channel
  reached : Bool
  qualified : Bool
  fault : Option FaultKind
  deriving DecidableEq, Repr

/-- Stages 2 to 4 at one channel (R25 to R29). -/
def sampleChannel (threshold nq stuckLimit : Nat) (code : Code) (now : Tick) (x : Channel) : Sampled :=
  let x2 := (x.recorded threshold code).runUpdated threshold code now
  let q := x2.qualifies threshold nq code
  let x3 := if q then { x2 with qualified := true } else x2
  let f := x3.faultFound stuckLimit
  let x4 := match f with
    | some k => x3.enter (.fault k)
    | none => x3
  { channel := x4, reached := decide (threshold ≤ code.toNat), qualified := q && f.isNone, fault := f }

/-! ### Coincidence (R31) -/

/-- The number of ACTIVE channels of a station. -/
def activeCount (s : State) (d st : Fin 4) : Nat :=
  ((stationChannels s.cfg d st).filter fun c => (s.channel c).isActive).length

/-- A station's two coincidence troubles are evaluated (R31), REDUCED_COINCIDENCE with its notice before
STATION_UNPROTECTED (Assumption 39). -/
def evalCoincidence (d st : Fin 4) (s : State) : State :=
  let n := activeCount s d st
  let s1 := setTrouble (ductZone d) .reducedCoincidence st.val
    (reducedCoincidence (s.ductCfg d).base.coincidence n) s
  setTrouble (ductZone d) .stationUnprotected st.val (decide (n = 0)) s1

/-! ### The station sample event (R23, R32 to R35) -/

/-- The trouble kind of a fault (R30). -/
def FaultKind.trouble : FaultKind → TroubleKind
  | .stuck => .channelStuck
  | .dead => .channelDead

/-- A channel's fault is reported: its trouble, and the Duct Controller's arming window (R29). -/
def reportFault (d : Fin 4) (c : Fin 16) (k : FaultKind) (s : State) : State :=
  spoilWindow d (raiseTrouble (ductZone d) k.trouble c.val s)

/-- The effective threshold of a channel at an event of its duct (R24). -/
def thresholdOf (s : State) (d : Fin 4) (c : Fin 16) : Nat :=
  match s.cfg.channels[c] with
  | some x => effectiveThreshold x.threshold (s.effective d).offset
  | none => 0

/-- Stages 1 to 4 at one channel of a station, in the state before the event. -/
def channelSample (s : State) (d : Fin 4) (c : Fin 16) (code : Code) : Sampled :=
  sampleChannel (thresholdOf s d c) (s.effective d).nq (s.ductCfg d).base.stuckLimit code s.tick (s.channel c)

/-- The samples of a station's channels: each channel with its code, in channel-number order. -/
def stationCodes (s : State) (d st : Fin 4) (codes : Vector Code 4) : List (Fin 16 × Code) :=
  (stationChannels s.cfg d st).zip codes.toList

/-- Stages 1 to 4 at every channel of the station, each judged from the state before the event. -/
def stationSamples (s : State) (d st : Fin 4) (codes : Vector Code 4) : List (Fin 16 × Sampled) :=
  (stationCodes s d st codes).map fun x => (x.1, channelSample s d x.1 x.2)

/-- One channel's result is taken into the state, with the report of its fault. -/
def takeSampled (d : Fin 4) (s : State) (x : Fin 16 × Sampled) : State :=
  let s1 := s.setChannel x.1 x.2.channel
  match x.2.fault with
  | some k => reportFault d x.1 k s1
  | none => s1

/-- Stages 1 to 4 of the event: the channels, the faults they enter, and the coincidence troubles where one did. The faults come in
channel order and the station is evaluated once after them, the model's choice (R31; Assumption 39). -/
def takeSamples (d st : Fin 4) (l : List (Fin 16 × Sampled)) (s : State) : State :=
  let s1 := l.foldl (takeSampled d) s
  if l.any fun x => x.2.fault.isSome then evalCoincidence d st s1 else s1

/-- The qualifying set (R32). -/
def qualifyingSet (l : List (Fin 16 × Sampled)) : List (Fin 16) := (l.filter fun x => x.2.qualified).map Prod.fst

/-- The coincidence count (R32). -/
def coincidenceCount (l : List (Fin 16 × Sampled)) : Nat :=
  (l.filter fun x => x.2.channel.isActive && x.2.reached && !x.2.qualified).length + ((qualifyingSet l).length - 1)

/-- The earliest run start tick among some channels (R33). -/
def earliestStart (s : State) (l : List (Fin 16)) : Tick :=
  match l with
  | [] => s.tick
  | c :: rest => rest.foldl (fun t x => if Tick.later t (s.channel x).runStart then (s.channel x).runStart else t)
      (s.channel c).runStart

/-- A confirmed detection: dead time begins, and the record reaches the Track Unit and the Quench Unit, the Capture Store
and the Duct Controller (R33; Assumption 19). -/
def confirmDetection (x : Detection) (s : State) : State :=
  let s1 := s.setStation x.duct x.station
    { s.station x.duct x.station with dead := (s.ductCfg x.duct).base.deadTime }
  let r := settleDetection x s1
  reportDetection x r (settleCapture x r.outcome r.vHi r.vLo r.state)

/-- The DETECTION notice of an unconfirmed flash (R35; Assumption 25). -/
def flashOffer (d st : Fin 4) (requirement count : Nat) (set : List (Fin 16)) (start : Tick) : Offer :=
  detectionOffer d st requirement count .unconfirmed (listField (set.map fun c => le8 c.val) ++ le32 start)

/-- An unconfirmed flash: the flash counters of the qualifying set rise (R35). -/
def unconfirmedFlash (d st : Fin 4) (requirement count : Nat) (set : List (Fin 16)) (s : State) : State :=
  let start := earliestStart s set
  let s1 := set.foldl (fun s c => s.setChannel c { s.channel c with flash := min 65535 ((s.channel c).flash + 1) }) s
  offer (flashOffer d st requirement count set start) s1

/-- Stage 5: the one confirmation of a station whose channels qualified (R32 to R35); `dead` is the dead-time count at the
start of the event. -/
def judgeStation (d st : Fin 4) (dead : Nat) (l : List (Fin 16 × Sampled)) (s : State) : State :=
  let set := qualifyingSet l
  if set.isEmpty then s
  else if 0 < dead then absorbCapture d st s
  else
    let requirement := coincidenceRequirement (s.ductCfg d).base.coincidence (activeCount s d st)
    let count := coincidenceCount l
    if requirement ≤ count then
      confirmDetection ⟨d, st, earliestStart s set, s.tick, set⟩ s
    else unconfirmedFlash d st requirement count set s

/-- The dead-time count falls by one at an event in dead time (R34). -/
def passDeadTime (d st : Fin 4) (s : State) : State :=
  s.setStation d st { s.station d st with dead := (s.station d st).dead - 1 }

/-- A station sample event (R23). Where the Capture Store's samples and the report or settlement of stage 5 fall together,
`samplesFirst` says which is taken first (R162, R163; Assumption 21). The TROUBLE notices of stage 4, of channel faults and then of the
station's coincidence, go before every notice of the Capture Store, the CAPTURE_READY of a capture that these samples complete among
them, whatever `samplesFirst` says: the model's choice, since R162 and R176 leave that order open (Assumption 39). -/
def stationEvent (d st : Fin 4) (codes : Vector Code 4) (samplesFirst : Bool) (s : State) : State :=
  let l := stationSamples s d st codes
  let dead := (s.station d st).dead
  let s1 := takeSamples d st l (passDeadTime d st s)
  let words := (stationCodes s d st codes).map Prod.snd
  if samplesFirst then judgeStation d st dead l (captureSamples d st words s1)
  else captureSamples d st words (judgeStation d st dead l s1)

/-- STATION_SAMPLE_EVENT (R23): the sample of a configured station at this tick (Assumptions 10 and 21). -/
def execStationSampleEvent (d station : Fin 4) (codes : Vector Code 4) (samplesFirst : Bool) (s : State) : Answer :=
  live s (sampling (.station d station) (stationEvent d station codes samplesFirst))

/-! ### Requests on channels (R36 to R40) -/

/-- A channel's state and fault kind, as the answers to the channel requests carry them (R36). -/
def channelAnswer (s : State) (c : Fin 16) : List Byte :=
  [byteOf (s.channel c).state.num, optByte ((s.channel c).state.faultKind.map fun k => byteOf k.num)]

/-- The trouble that a channel's state holds (R30). -/
def ChannelState.trouble : ChannelState → Option TroubleKind
  | .unused | .active => none
  | .isolated => some .channelIsolated
  | .fault k => some k.trouble

/-- A channel moves to a state by request: its troubles follow on the duct zone, and the station's coincidence troubles are
evaluated (R30, R31). -/
def moveChannel (c : Fin 16) (x : ChannelCfg) (st : ChannelState) (s : State) : State :=
  let old := s.channel c
  let s1 := s.setChannel c (old.enter st)
  let s2 := match old.state.trouble with
    | some k => clearTrouble (ductZone x.duct) k c.val s1
    | none => s1
  let s3 := match st.trouble with
    | some k => raiseTrouble (ductZone x.duct) k c.val s2
    | none => s2
  evalCoincidence x.duct x.station s3

/-- The move of a channel that a request asks for: none is NOT_NOW, and its own state is no change. -/
def requestMove (c : Fin 16) (target : Option ChannelState) (s : State) : Reply :=
  match s.cfg.channels[c], target with
  | some x, some st =>
    if !s.isRunning then refuseWith .notNow (channelAnswer s c) s
    else if st = (s.channel c).state then accept (channelAnswer s c) s
    else
      let s1 := moveChannel c x st s
      accept (channelAnswer s1 c) s1
  | _, _ => refuseWith .notNow (channelAnswer s c) s

/-- The state that ISOLATE_CHANNEL takes a channel to (R37). -/
def isolateTarget (x : Channel) : Option ChannelState :=
  match x.state with
  | .unused => none
  | .active | .isolated | .fault _ => some .isolated

/-- The state that RESTORE_CHANNEL takes a channel to (R38). -/
def restoreTarget (x : Channel) : Option ChannelState :=
  match x.state with
  | .isolated => some .active
  | .unused | .active | .fault _ => none

/-- The state that CLEAR_CHANNEL_FAULT takes a channel to (R39). -/
def clearTarget (x : Channel) : Option ChannelState :=
  match x.state with
  | .fault _ => if x.clean = 400 then some .active else none
  | .unused | .active | .isolated => none

/-- A channel request after its authority check: KEY for SV with the key open, then RANGE, then the move (R36). -/
def channelReply (p : Port) (channel : Byte) (target : Channel → Option ChannelState) (s : State) : Reply :=
  match channelOperand channel with
  | none => if p = .sv ∧ !s.keyClosed then refuse .key s else refuse .range s
  | some c =>
    if p = .sv ∧ !s.keyClosed then refuseWith .key (channelAnswer s c) s
    else requestMove c (target (s.channel c)) s

/-- A channel request from a port that may not make it (R36, 13.3). -/
def channelDenied (channel : Byte) (s : State) : Reply :=
  match channelOperand channel with
  | none => refuse .denied s
  | some c => refuseWith .denied (channelAnswer s c) s

/-- ISOLATE_CHANNEL: the checks and the move (R37). -/
def isolateChannelReply (p : Port) (channel : Byte) (s : State) : Reply :=
  if p = .sv then channelReply p channel isolateTarget s else channelDenied channel s

/-- ISOLATE_CHANNEL (R37). -/
def execIsolateChannel (p : Port) (n channel : Byte) (s : State) : Answer :=
  live s (serve p codeIsolateChannel n (isolateChannelReply p channel))

/-- RESTORE_CHANNEL: the checks and the move (R38). -/
def restoreChannelReply (p : Port) (channel : Byte) (s : State) : Reply :=
  if p = .pc then channelDenied channel s else channelReply p channel restoreTarget s

/-- RESTORE_CHANNEL (R38). -/
def execRestoreChannel (p : Port) (n channel : Byte) (s : State) : Answer :=
  live s (serve p codeRestoreChannel n (restoreChannelReply p channel))

/-- CLEAR_CHANNEL_FAULT: the checks and the move (R39). -/
def clearChannelFaultReply (p : Port) (channel : Byte) (s : State) : Reply :=
  if p = .pc then channelDenied channel s else channelReply p channel clearTarget s

/-- CLEAR_CHANNEL_FAULT (R39). -/
def execClearChannelFault (p : Port) (n channel : Byte) (s : State) : Answer :=
  live s (serve p codeClearChannelFault n (clearChannelFaultReply p channel))

/-- The duct and station of a channel, 0xFF for UNUSED (R191). -/
def channelPlace (s : State) (c : Fin 16) : Byte :=
  match s.cfg.channels[c] with
  | some x => ductStationByte x.duct x.station
  | none => absentByte

/-- The base threshold of a channel (R40). An UNUSED channel has none and the field no absent form: it shows 0, DESIGN CHOICE
(Assumption 29), unsafe for a claim about these two bytes. -/
def baseThreshold (s : State) (c : Fin 16) : Nat :=
  match s.cfg.channels[c] with
  | some x => x.threshold
  | none => 0

/-- A channel summary: in full 19 bytes, in short 13, without base threshold, low count and clean count (R40, R191). -/
def channelSummary (s : State) (full : Bool) (c : Fin 16) : List Byte :=
  let x := s.channel c
  [channelPlace s c] ++ (if full then leNat16 (baseThreshold s c) else []) ++ leNat16 x.effective ++ channelAnswer s c ++
    leNat16 x.run ++ leFlag x.qualified ++ (if full then leNat16 x.low ++ leNat16 x.clean else []) ++ leNat16 x.flash ++
    optField 2 (x.ring.getLast?.map codeField)

/-- What follows the full summary of a configured channel: its station's requirement and dead-time count, and its history
ring (R40). -/
def channelDetail (s : State) (c : Fin 16) : List Byte :=
  match s.cfg.channels[c] with
  | some x =>
    le8 (coincidenceRequirement (s.ductCfg x.duct).base.coincidence (activeCount s x.duct x.station)) ++
      le8 (s.station x.duct x.station).dead ++ listField ((s.channel c).ring.map codeField)
  | none => []

/-- READ_CHANNELS: the checks and the answer (R40). -/
def readChannelsReply (channel : Byte) (s : State) : Reply :=
  if channel = 255 then
    if s.isRunning then accept ((List.finRange 16).flatMap (channelSummary s false)) s else refuse .notNow s
  else
    match channelOperand channel with
    | none => refuse .range s
    | some c => if s.isRunning then accept (channelSummary s true c ++ channelDetail s c) s else refuse .notNow s

/-- READ_CHANNELS (R40). -/
def execReadChannels (p : Port) (n channel : Byte) (s : State) : Answer :=
  live s (serve p codeReadChannels n (readChannelsReply channel))

end Sys2Proof.Machine
end

