-- ==== Sys2Proof/Machine/Velocity.lean ====
section
/-! DEFINITION. Chapter 3, the Velocity Units: transducer samples, the velocity update, the hold timer, and their reports to
the Duct Controller. -/

namespace Sys2Proof.Machine

open Sys2Proof

/-- A code inside the live band of a transducer (R42). -/
def liveBand (code : Code) : Bool := decide (16 ≤ code.toNat) && decide (code.toNat ≤ 4079)

/-- A transducer sample added to the sum (R43). -/
def Velocity.sampled (code : Code) (v : Velocity) : Velocity :=
  { v with count := v.count + 1, sum := v.sum + code.toNat, bad := v.bad || !liveBand code }

/-- The measured velocity of a good update (R43). -/
def measured (sum span : Nat) : Nat := sum * span / 262080

/-- A Velocity Unit moves at a good update with a measured velocity (R44). -/
def Velocity.good (m : Nat) (v : Velocity) : Velocity :=
  match v.state with
  | .valid | .held => { v with state := .valid, value := m, hold := none, recovery := 0 }
  | .failed =>
    if v.recovery + 1 < 8 then { v with recovery := v.recovery + 1 }
    else { v with state := .valid, value := m, hold := none, recovery := 0 }

/-- A Velocity Unit moves at a bad update (R44). -/
def Velocity.poor (now : Tick) (v : Velocity) : Velocity :=
  match v.state with
  | .valid => { v with state := .held, hold := some (now.plus 8000), recovery := 0 }
  | .held => v
  | .failed => { v with recovery := 0 }

/-- A Velocity Unit after the velocity update that its 64th sample makes (R43, R44). -/
def Velocity.updated (span : Nat) (code : Code) (now : Tick) (v : Velocity) : Velocity :=
  let x := v.sampled code
  let y := if x.bad then x.poor now else x.good (measured x.sum span)
  { y with count := 0, sum := 0, bad := false }

/-- The DUCT notice of a change of velocity state (R46). -/
def velocityOffer (d : Fin 4) (old new : Velocity) : Offer :=
  ductOffer d .velocity (byteOf old.state.num) (byteOf new.state.num) (leNat16 new.value)

/-- The Velocity Unit's record changes: the bounds record follows (R50), a change of state is offered as a notice, and
VELOCITY_FAULT is raised on entry to FAILED and cleared on exit (R44 to R46), its TROUBLE notice after the VELOCITY notice
(Assumption 39). -/
def changeVelocity (d : Fin 4) (new : Velocity) (s : State) : State :=
  let D := s.duct d
  let old := D.vel
  let s1 := s.setDuct d { D with vel := { new with bounds := boundsFor (s.ductCfg d) new.state new.value D.ctl.state } }
  if old.state = new.state then s1
  else
    let s2 := offer (velocityOffer d old new) s1
    if new.state = .failed then raiseTrouble (ductZone d) .velocityFault (d.val + 1) s2
    else if old.state = .failed then clearTrouble (ductZone d) .velocityFault (d.val + 1) s2
    else s2

/-- The transducer's next sample is the velocity update (R43). -/
def updatesNow (s : State) (d : Fin 4) : Bool := decide (63 ≤ (s.duct d).vel.count)

/-- A transducer sample that is not a velocity update (R43). -/
def transducerEvent (d : Fin 4) (code : Code) (s : State) : State :=
  s.setDuct d { s.duct d with vel := (s.duct d).vel.sampled code }

/-- TRANSDUCER_SAMPLE (R43): the sample of this tick, where it is not the update's (Assumptions 10 and 12). -/
def execTransducerSample (d : Fin 4) (code : Code) (s : State) : Answer :=
  live s fun s => if updatesNow s d then s else sampling (.transducer d) (transducerEvent d code) s

/-- The velocity update, at the sample at which the count would reach 64: the unit moves, and the Duct Controller takes the
report (R43, R44, R46). The notices come in this order, the model's choice, since R44 to R46 name none and R176 allows each (Assumption
39): VELOCITY, VELOCITY_FAULT, the Duct Controller's STATE, and the ZONE notice of its postings with those of the zone's report. -/
def velocityEvent (d : Fin 4) (code : Code) (s : State) : State :=
  let v := (s.duct d).vel
  settleDuct d (velocityReport d (changeVelocity d (v.updated (s.ductCfg d).span code s.tick) s))

/-- VELOCITY_UPDATE (R43, R44): the sample of this tick, where it is the update's (Assumptions 10 and 12). -/
def execVelocityUpdate (d : Fin 4) (code : Code) (s : State) : Answer :=
  live s fun s => if updatesNow s d then sampling (.transducer d) (velocityEvent d code) s else s

/-- The hold timer runs out in HELD: the unit goes to FAILED, and the Duct Controller is told (R45, R46). VELOCITY and VELOCITY_FAULT go
before the ZONE notice of the VELOCITY posting, the model's choice (Assumption 39). -/
def holdTimerExpires (d : Fin 4) (s : State) : State :=
  let v := (s.duct d).vel
  if expiresNow s v.hold && decide (v.state = .held) then
    settleDuct d (changeVelocity d { v with state := .failed, hold := none, recovery := 0 } s)
  else s

/-- HOLD_TIMER_EXPIRY (R45). -/
def execHoldTimerExpiry (d : Fin 4) (s : State) : Answer := whenRunning s (holdTimerExpires d)

end Sys2Proof.Machine
end

