-- ==== Sys2Proof/Machine/Loader.lean ====
section
/-! DEFINITION. Chapter 12, the Store Loader: power-on and the reset lead, the configuration image with its checks, the load
completion, the store's reads and writes, RESTART and READ_IDENT. -/

namespace Sys2Proof.Machine

open Sys2Proof

/-! ### The configuration image (R192) -/

/-- The byte of an image at an offset, as a number. -/
abbrev Image := Nat → Nat

/-- The image that the external store holds. -/
def imageOf (m : List Host.Cell) : Image := fun i => (readCell m i).toNat

/-- A two-byte field, low byte first. -/
def Image.word (img : Image) (o : Nat) : Nat := img o + 256 * img (o + 1)

/-- The section counts that the fourteen regions must give, with the offset of each count byte (R192). -/
def sectionCounts : List (Nat × Nat) :=
  [(3, 12), (16, 8), (49, 16), (98, 16), (131, 4), (156, 4), (257, 4), (266, 4), (307, 4), (348, 12), (457, 1), (463, 8),
    (488, 1), (494, 3)]

/-- A value lies in a range, ends included. -/
def inRange (lo hi n : Nat) : Bool := decide (lo ≤ n) && decide (n ≤ hi)

/-- The offset of section `i` of a region of sections of `size` bytes whose first section stands at `base`. -/
def sectionAt (base size i : Nat) : Nat := base + size * i

/-- A zone kind of the image (R2, R192). -/
def kindOfNat : Nat → ZoneKind
  | 0 => .duct | 1 => .hall | 2 => .filter | 3 => .boiler | 4 => .yard | _ => .unused

/-- The fields of a zone kind in range: DUCT fails. -/
def kindInRange (img : Image) (i : Nat) : Bool := inRange 1 5 (img (4 + i))

/-- A contact input's section in range (R17). -/
def inputInRange (img : Image) (i : Nat) : Bool :=
  let o := sectionAt 17 4 i
  (inRange 0 15 (img o) || decide (img o = 255)) && inRange 1 3 (img (o + 1)) && inRange 50 2000 (img.word (o + 2))

/-- A contact input's values. -/
def readInput (img : Image) (i : Nat) : InputCfg :=
  let o := sectionAt 17 4 i
  { zone := if h : img o < 16 then some ⟨img o, h⟩ else none, level := (levelOfNat (img (o + 1))).getD .normal,
    debounce := img.word (o + 2) }

/-- A duct-and-station byte that names a pair of duct 1-4 and station 0-3. -/
def pairInRange (b : Nat) : Bool := inRange 1 4 (b / 16) && inRange 0 3 (b % 16)

/-- A channel's section in range (R21). -/
def channelInRange (img : Image) (i : Nat) : Bool :=
  let o := sectionAt 50 3 i
  (pairInRange (img o) || decide (img o = 255)) && inRange 1 4095 (img.word (o + 1))

/-- A channel's values: none for UNUSED. -/
def readChannel (img : Image) (i : Nat) : Option ChannelCfg :=
  let o := sectionAt 50 3 i
  if img o = 255 then none
  else some { duct := ⟨(img o / 16 - 1) % 4, Nat.mod_lt _ (by decide)⟩, station := ⟨img o % 4, Nat.mod_lt _ (by decide)⟩,
              threshold := img.word (o + 1) }

/-- A station position in range (R21). -/
def positionInRange (img : Image) (i : Nat) : Bool :=
  let w := img.word (sectionAt 99 2 i)
  inRange 0 20000 w || decide (w = 65535)

/-- A station position, none for 0xFFFF. -/
def readPosition (img : Image) (i : Nat) : Option Nat :=
  let w := img.word (sectionAt 99 2 i)
  if w = 65535 then none else some w

/-- A flag in range (R190). -/
def flagInRange (n : Nat) : Bool := inRange 0 1 n

/-- A valve's fields in range (R74). -/
def valveInRange (img : Image) (o : Nat) : Bool :=
  flagInRange (img o) && inRange 0 20000 (img.word (o + 1)) && inRange 0 1000 (img.word (o + 3)) &&
    inRange 100 10000 (img.word (o + 5)) && inRange 100 2000 (img.word (o + 7))

/-- A valve's values. -/
def readValve (img : Image) (o : Nat) : ValveCfg :=
  ⟨decide (img o = 1), img.word (o + 1), img.word (o + 3), img.word (o + 5), img.word (o + 7)⟩

/-- A duct's fields in range: Velocity Unit, Quench Unit, Track Unit, Duct Controller and base parameter set (R42, R62, R74,
R91, R114). -/
def ductInRange (img : Image) (d : Nat) : Bool :=
  let v := sectionAt 132 6 d
  let q := sectionAt 157 25 d
  let c := sectionAt 267 10 d
  let b := sectionAt 308 10 d
  (inRange 100 600 (img.word v) && inRange 0 50 (img.word (v + 2)) && inRange 50 300 (img.word (v + 4))) &&
  (valveInRange img q && valveInRange img (q + 9) && flagInRange (img (q + 18)) && inRange 0 20000 (img.word (q + 19)) &&
    inRange 100 5000 (img.word (q + 21)) && inRange 1 60 (img.word (q + 23))) &&
  inRange 0 100 (img.word (sectionAt 258 2 d)) &&
  (inRange 5 120 (img.word (c + 2)) && inRange 0 120 (img.word (c + 4)) && inRange 1 30 (img.word (c + 6)) &&
    inRange 5 600 (img.word (c + 8))) &&
  (inRange 1 16 (img b) && inRange 0 3 (img (b + 1)) && inRange 1 10 (img.word (b + 3)) && inRange 1 60 (img.word (b + 8)))

/-- A duct's served zone mask. -/
def servedMask (img : Image) (d : Nat) : ZoneMask := BitVec.ofNat 16 (img.word (sectionAt 267 10 d))

/-- A duct's values. -/
def readDuctCfg (img : Image) (d : Nat) : DuctCfg :=
  let v := sectionAt 132 6 d
  let q := sectionAt 157 25 d
  let c := sectionAt 267 10 d
  let b := sectionAt 308 10 d
  { span := img.word v, tol := img.word (v + 2), lmin := img.word (v + 4),
    valves := Vector.ofFn fun i : Fin 2 => readValve img (q + 9 * i.val),
    gate := ⟨decide (img (q + 18) = 1), img.word (q + 19), img.word (q + 21)⟩, floodTime := img.word (q + 23),
    margin := img.word (sectionAt 258 2 d), served := servedMask img d, startTime := img.word (c + 2),
    purgeTime := img.word (c + 4), lowFlowGrace := img.word (c + 6), quietTime := img.word (c + 8),
    base := { rate := { offset := 0, nq := img b, alert := img (b + 5), shutdown := img (b + 6),
                        alertShutdown := img (b + 7), window := img.word (b + 8) },
              coincidence := img (b + 1), deadTime := img (b + 2), stuckLimit := img.word (b + 3) } }

/-- A door's section in range, its zone mask non-empty (R125). -/
def doorInRange (img : Image) (i : Nat) : Bool :=
  let o := sectionAt 349 9 i
  decide (img.word o ≠ 0) && flagInRange (img (o + 2)) && inRange 0 30 (img.word (o + 3)) &&
    inRange 5 60 (img.word (o + 5)) && inRange 10 600 (img.word (o + 7))

/-- A door's values. -/
def readDoor (img : Image) (i : Nat) : DoorCfg :=
  let o := sectionAt 349 9 i
  ⟨BitVec.ofNat 16 (img.word o), decide (img (o + 2) = 1), img.word (o + 3), img.word (o + 5), img.word (o + 7)⟩

/-- The Siren Arbiter's section in range (R142). -/
def arbiterInRange (img : Image) : Bool :=
  inRange 1 16 (img 458) && inRange 1 10 (img.word 459) && inRange 5 60 (img.word 461)

/-- A siren's weight. -/
def sirenWeight (img : Image) (i : Nat) : Nat := img (sectionAt 464 3 i + 2)

/-- A siren's values. -/
def readSiren (img : Image) (i : Nat) : SirenCfg := ⟨BitVec.ofNat 16 (img.word (sectionAt 464 3 i)), sirenWeight img i⟩

/-- The Capture Store's section in range (R158, R159). -/
def captureInRange (img : Image) : Bool :=
  inRange 0 2 (img 489) && inRange 0 64 (img 490) && inRange 1 448 (img.word 491) && inRange 1 64 (img 493)

/-- The layout code of the image. -/
def imageLayout (img : Image) : Fin 3 := ⟨img 489 % 3, Nat.mod_lt _ (by decide)⟩

/-- A port's section in range (R181). -/
def portInRange (img : Image) (i : Nat) : Bool :=
  let o := sectionAt 495 4 i
  inRange 1 32 (img (o + 1)) && inRange 10 5000 (img.word (o + 2))

/-- A port's values. -/
def readPort (img : Image) (i : Nat) : PortCfg :=
  let o := sectionAt 495 4 i
  ⟨BitVec.ofNat 8 (img o), img (o + 1), img.word (o + 2)⟩

/-- Every configured value of the image. -/
def readImage (img : Image) : Cfg :=
  { zoneKinds := Vector.ofFn fun i : Fin 12 => kindOfNat (img (4 + i.val)),
    inputs := Vector.ofFn fun i : Fin 8 => readInput img i.val,
    channels := Vector.ofFn fun i : Fin 16 => readChannel img i.val,
    positions := Vector.ofFn fun i : Fin 16 => readPosition img i.val,
    ducts := Vector.ofFn fun d : Fin 4 => readDuctCfg img d.val,
    doors := Vector.ofFn fun i : Fin 12 => readDoor img i.val,
    budget := img 458, slotLength := img.word 459, allClearTime := img.word 461,
    sirens := Vector.ofFn fun i : Fin 8 => readSiren img i.val,
    layout := imageLayout img, pre := img 490, post := img.word 491, readyThreshold := img 493,
    ports := Vector.ofFn fun i : Fin 3 => readPort img i.val }

/-! ### The checks (R184) -/

/-- Every configured value lies in its range (R184, check 5; Assumption 30). -/
def fieldsInRange (img : Image) : Bool :=
  (List.range 12).all (kindInRange img) && (List.range 8).all (inputInRange img) &&
    (List.range 16).all (channelInRange img) && (List.range 16).all (positionInRange img) &&
    (List.range 4).all (ductInRange img) && (List.range 12).all (doorInRange img) && arbiterInRange img &&
    (List.range 8).all (fun i => inRange 1 4 (sirenWeight img i)) && captureInRange img &&
    (List.range 3).all (portInRange img)

/-- A served zone mask holds none of zones 0-3 (check 6). -/
def maskServes (img : Image) (d : Nat) : Bool := decide (servedMask img d &&& 0x000F = 0)

/-- A station of the loaded values: at most 4 channels, and a position where it has any (check 7). -/
def stationSound (c : Cfg) (d st : Fin 4) : Bool :=
  let l := stationChannels c d st
  decide (l.length ≤ 4) && (l.isEmpty || c.positions[stationIx d st].isSome)

/-- Every pair of duct and station is sound. -/
def stationsSound (c : Cfg) : Bool :=
  (List.finRange 4).all fun d => (List.finRange 4).all fun st => stationSound c d st

/-- The CRC field of the image, bytes 1022 and 1023, low byte first. -/
def imageCrcField (m : List Host.Cell) : Word16 := wordOf (readCell m 1022) (readCell m 1023)

/-- The failing check code of an image, or none where every check passes (R184). -/
def judgeImage (m : List Host.Cell) : Option CheckCode :=
  let img := imageOf m
  if crc16 (readBytes m 0 1022) ≠ imageCrcField m then some .crc
  else if img 0 ≠ 0x43 ∨ img 1 ≠ 0x58 then some .magic
  else if img 2 ≠ 1 then some .version
  else if !sectionCounts.all (fun x => decide (img x.1 = x.2)) then some .sections
  else if !fieldsInRange img then some .fieldRange
  else if !(List.range 4).all (maskServes img) then some .servedMask
  else if !stationsSound (readImage img) then some .channelStation
  else if !(List.range 8).all (fun i => decide (sirenWeight img i ≤ img 458)) then some .sirenWeight
  else if blockSize (imageLayout img) < img 490 + img.word 491 then some .captureFit
  else none

/-! ### The load completion (R183, R184) -/

/-- A gate as its position switches show it at the load completion, idle (R90). DESIGN CHOICE (Assumption 46): no GATE notice
of R78 is offered for it. -/
def loadedGate (c : GateCfg) (openLead closedLead : Bool) (g : Gate) : Gate :=
  if c.installed then
    { g with openSwitch := openLead, closedSwitch := closedLead, openDrive := false, closeDrive := false, timer := none,
             state := if closedLead && !openLead then .closed else if openLead && !closedLead then .opened else .fault }
  else g

/-- The blocks of a duct when a load ends in RUNNING: flow switches and gate read, bounds set (R47, R49, R90, R113). -/
def loadedDuct (c : DuctCfg) (leads : Leads) (d : Fin 4) (x : Duct) : Duct :=
  { x with vel := { x.vel with bounds := boundsFor c x.vel.state x.vel.value x.ctl.state },
           valves := Vector.ofFn fun v : Fin 2 =>
             if c.valves[v].installed then { x.valves[v] with flow := leads.flow[d][v] } else x.valves[v],
           gate := loadedGate c.gate leads.gateOpen[d] leads.gateClosed[d] x.gate }

/-- A channel when a load ends in RUNNING: ACTIVE where the image assigns it (R41; Assumption 29). -/
def loadedChannel (c : Option ChannelCfg) (x : Channel) : Channel :=
  match c with
  | some k => { x with state := .active, effective := k.threshold }
  | none => x

/-- The kind of a zone when a load ends in RUNNING (R1). -/
def loadedZone (c : Cfg) (z : Fin 16) (x : Zone) : Zone :=
  if h : 4 ≤ z.val then { x with kind := c.zoneKinds[z.val - 4]'(by omega) } else x

/-- Every block takes its configured values (R183), the Port Units among them (R182). -/
def takeConfiguration (c : Cfg) (s : State) : State :=
  { s with
    cfg := c
    zones := Vector.ofFn fun z => loadedZone c z s.zones[z]
    channels := Vector.ofFn fun i => loadedChannel c.channels[i] s.channels[i]
    ducts := Vector.ofFn fun d => loadedDuct c.ducts[d] s.leads d s.ducts[d]
    captures := { s.captures with layout := c.layout, pre := c.pre, post := c.post,
                                  blocks := List.replicate (blockCount c.layout) .free }
    ports := Vector.ofFn fun i =>
      { s.ports[i] with subscription := c.ports[i].subscription, threshold := c.ports[i].threshold, age := c.ports[i].age } }

/-- The coincidence troubles of a duct's configured stations, in station order 0 to 3, and its VELOCITY_FAULT (R31, R41, R47;
Assumptions 17 and 39). -/
def startingTroubles (s : State) (d : Fin 4) : State :=
  let s1 := (List.finRange 4).foldl
    (fun s st => if stationConfigured s.cfg d st then evalCoincidence d st s else s) s
  raiseTrouble (ductZone d) .velocityFault (d.val + 1) s1

/-- Sampling begins after the load completion: the inputs that are sampled only while RUNNING have no sample at its tick, and the
key goes on (R20, R74, R170; Assumption 10). -/
def startSampling (s : State) : State :=
  { s with samples := (Vector.replicate 69 s.tick).set Sampler.key.ix (s.sampled .key) }

/-- The load ends in RUNNING: the blocks take their values, then make their starting actions (R182, R183). -/
def enterRunning (c : Cfg) (s : State) : State :=
  (List.finRange 4).foldl startingTroubles
    (startSampling ((takeConfiguration c s).setLoader { s.loader with state := .running, failing := none }))

/-- The load completion: the image is judged, its CRC field kept, and the load state set (R183, R184; Assumption 36). -/
def completeLoad (s : State) : State :=
  let s1 := s.setLoader { s.loader with imageCrc := imageCrcField s.store }
  match judgeImage s.store with
  | none => enterRunning (readImage (imageOf s.store)) s1
  | some c => s1.setLoader { s1.loader with state := .safeHold, failing := some c }

/-- The tick of the load completion (R183). -/
def loadTick : Tick := 1024

/-- LOAD_COMPLETION (R183, R184): the event of tick 1024 in LOADING. -/
def execLoadCompletion (s : State) : Answer :=
  live s fun s => if s.loader.state = .loading ∧ s.tick = loadTick then completeLoad s else s

/-! ### Power-on and the reset lead (R183) -/

/-- POWER_ON (R183): every block takes its power-on values, every output its safe state, and the load begins. A store write
in progress is cut off. -/
def execPowerOn (s : State) : Answer := .next (tearStore s).powerUp

/-- RESET_LEAD_LOW (R183): the state is discarded, every output is in its safe state, and no event is taken until
POWER_ON (Assumption 15). -/
def execResetLeadLow (s : State) : Answer := .next { (tearStore s).powerUp with resetLow := true }

/-! ### The store (R186) -/

/-- A store request is answered BUSY: the part is loading or a store write is in progress (R185, R186). -/
def storeUnready (s : State) : Bool := decide (s.loader.state = .loading) || s.storeBusy

/-- READ_STORE: the checks and the 32 bytes (R186). -/
def readStoreReply (offset : Word16) (s : State) : Reply :=
  if 4064 < offset.toNat then refuse .range s
  else if storeUnready s then refuse .busy s
  else accept (le16 offset ++ readBytes s.store offset.toNat 32) s

/-- READ_STORE (R186). -/
def execReadStore (p : Port) (n : Byte) (offset : Word16) (s : State) : Answer :=
  live s (serve p codeReadStore n (readStoreReply offset))

/-- The first check that a WRITE_STORE fails (R174, R186). -/
def writeStoreRefusal (p : Port) (offset : Word16) (s : State) : Option Result :=
  if p ≠ .sv then some .denied
  else if !s.keyClosed then some .key
  else if 4064 < offset.toNat ∨ offset.toNat % 32 ≠ 0 then some .range
  else if storeUnready s then some .busy
  else none

/-- A WRITE_STORE that is accepted stays pending while the store's write cycle runs for 20 ticks (R173, R186). -/
def beginStoreWrite (p : Port) (n : Byte) (offset : Word16) (bytes : Vector Byte 32) (s : State) : State :=
  (s.setLoader { s.loader with write := some ⟨offset.truncate 12, bytes, s.after 20⟩ }).setPort p
    { s.port p with waiting := some ⟨codeWriteStore, n⟩ }

/-- A WRITE_STORE frame arrives (R173, R186). -/
def serveWriteStore (p : Port) (n : Byte) (offset : Word16) (bytes : Vector Byte 32) (s0 : State) : State :=
  let s := frameTaken p s0
  if frameDropped (s.port p) then s
  else if (s.port p).waiting.isSome then issue p ⟨codeWriteStore, n, .busy, []⟩ s
  else
    match writeStoreRefusal p offset s with
    | some r => issue p ⟨codeWriteStore, n, r, []⟩ s
    | none => beginStoreWrite p n offset bytes s

/-- WRITE_STORE (R186). -/
def execWriteStore (p : Port) (n : Byte) (offset : Word16) (bytes : Vector Byte 32) (s : State) : Answer :=
  live s (serveWriteStore p n offset bytes)

/-- The response that a completed store write issues to SV, where its request is pending there (R186). -/
def issueWritten (w : StoreWrite) (isMatch : Bool) (s : State) : State :=
  match (s.port .sv).waiting with
  | some q =>
    issue .sv ⟨q.code, q.number, .ok, leNat16 w.offset.toNat ++ leFlag (!isMatch)⟩
      (s.setPort .sv { s.port .sv with waiting := none })
  | none => s

/-- The store-write completion: the page is as the store holds it, read back and compared with the bytes sent (R186). -/
def completeStoreWrite (held : Vector Byte 32) (s : State) : State :=
  match s.loader.write with
  | some w =>
    if w.due = s.tick then
      issueWritten w (decide (held = w.bytes)) ((s.putPage w.offset held).setLoader { s.loader with write := none })
    else s
  | none => s

/-- STORE_WRITE_COMPLETION (R186). -/
def execStoreWriteCompletion (held : Vector Byte 32) (s : State) : Answer := live s (completeStoreWrite held)

/-! ### RESTART and READ_IDENT (R187, R188) -/

/-- RESTART is forbidden: a zone is at FIRE, or a duct is neither OFFLINE nor STOPPED (R187). -/
def restartForbidden (s : State) : Bool :=
  (List.finRange 16).any (fun z => decide ((s.zone z).level = .fire)) ||
    (List.finRange 4).any fun d => decide ((s.ctl d).state ≠ .offline) && decide ((s.ctl d).state ≠ .stopped)

/-- RESTART: the checks, and start-up repeated; FP's response is the first frame after it (R187). -/
def restartReply (p : Port) (s : State) : Reply :=
  if p ≠ .fp then refuse .denied s
  else if s.storeBusy then refuse .busy s
  else if restartForbidden s then refuse .notNow s
  else accept [] s.powerUp

/-- RESTART (R187). -/
def execRestart (p : Port) (n : Byte) (s : State) : Answer := live s (serve p codeRestart n (restartReply p))

/-- The identification of 8 bytes (R188, R191). -/
def identification (s : State) : List Byte :=
  [0x3B] ++ leNat16 0x0240 ++ [0x01] ++ le8 s.loader.state.num ++ le8 (checkNum s.loader.failing) ++ le16 s.loader.imageCrc

/-- READ_IDENT: the answer in every load state (R188). -/
def readIdentReply (s : State) : Reply := accept (identification s) s

/-- READ_IDENT (R188). -/
def execReadIdent (p : Port) (n : Byte) (s : State) : Answer := live s (serve p codeReadIdent n readIdentReply)

end Sys2Proof.Machine
end

