-- ==== Sys2Proof/Machine/Ports.lean ====
section
/-! DEFINITION. Chapter 11, the Port Units and the key switch: the notice queue's requests, the attention line and its age
timer, transmission, the answer to an unknown request, and the key's debounce. -/

namespace Sys2Proof.Machine

open Sys2Proof

/-! ### The key switch (R170) -/

/-- The key switch after a sample: the 100th consecutive sample of the other state is accepted, and a sample of the accepted state
abandons the change (R170). -/
def KeySwitch.sampled (k : KeySwitch) (sensed : KeyState) : KeySwitch :=
  if sensed = k.accepted then ⟨k.accepted, 0⟩
  else if 100 ≤ k.count + 1 then ⟨sensed, 0⟩
  else ⟨k.accepted, k.count + 1⟩

/-- The level of the key switch's lead (Assumption 11). -/
def setKeyLead (sensed : KeyState) (s : State) : State := s.setLeads { s.leads with key := sensed }

/-- A sample of the key. -/
def keyEvent (sensed : KeyState) (s : State) : State := { s with key := s.key.sampled sensed }

/-- KEY_SWITCH_CHANGE (R170): the lead takes the level at any time; the part samples it once at each tick at which the
millisecond clock advances, in every load state (Assumptions 10 and 11). -/
def execKeySwitchChange (sensed : KeyState) (s : State) : Answer :=
  live (setKeyLead sensed s) (sampling .key (keyEvent sensed))

/-! ### The attention line and the age timer (R178) -/

/-- The tick at which the oldest notice of a queue has waited the age limit. -/
def ageDue (u : PortUnit) : Option Tick := u.queue.head?.map fun n => n.admitted.plus (msTicks u.age)

/-- A queue that is left non-empty with the line released has its timer armed for its oldest notice, or taken as expired
where that tick is not later than the present tick (R178). -/
def rearmAge (now : Tick) (u : PortUnit) : PortUnit :=
  if u.line then u
  else
    match ageDue u with
    | none => { u with ageTimer := none }
    | some due => if Tick.later due now then { u with ageTimer := some due } else { u with line := true, ageTimer := none }

/-- The age timer expires: the line is asserted (R178). -/
def ageExpires (p : Port) (s : State) : State :=
  if expiresNow s (s.port p).ageTimer then s.setPort p { s.port p with line := true, ageTimer := none } else s

/-- AGE_TIMER_EXPIRY (R178). -/
def execAgeTimerExpiry (p : Port) (s : State) : Answer := live s (ageExpires p)

/-! ### Requests on the queue (R179 to R181) -/

/-- A notice record of 24 bytes (R191). -/
def noticeFields (n : Notice) : List Byte :=
  le16 n.sequence ++ le32 n.time ++ le8 n.kind.num ++ [n.subject, n.old, n.new, n.cause, flagByte n.urgent] ++ n.detail

/-- A Port Unit after the oldest `k` notices are fetched (R178, R179). -/
def PortUnit.fetched (now : Tick) (k : Nat) (u : PortUnit) : PortUnit :=
  let u1 := { u with queue := u.queue.drop k, overflow := false }
  if u1.queue.isEmpty then { u1 with line := false, ageTimer := none } else rearmAge now u1

/-- FETCH_NOTICES: the answer and the removal (R179). -/
def fetchNoticesReply (p : Port) (count : Byte) (s : State) : Reply :=
  if !s.isRunning then refuse .notNow s
  else
    let u := s.port p
    let k := clamp 1 8 count.toNat
    accept (leFlag u.overflow ++ le8 (u.queue.length - k) ++ listField ((u.queue.take k).map noticeFields))
      (s.setPort p (u.fetched s.tick k))

/-- FETCH_NOTICES (R179). -/
def execFetchNotices (p : Port) (n count : Byte) (s : State) : Answer :=
  live s (serve p codeFetchNotices n (fetchNoticesReply p count))

/-- SET_SUBSCRIPTION: the new subscription (R180). -/
def setSubscriptionReply (p : Port) (mask : Byte) (s : State) : Reply :=
  if !s.isRunning then refuse .notNow s
  else accept [mask] (s.setPort p { s.port p with subscription := mask })

/-- SET_SUBSCRIPTION (R180). -/
def execSetSubscription (p : Port) (n mask : Byte) (s : State) : Answer :=
  live s (serve p codeSetSubscription n (setSubscriptionReply p mask))

/-- A Port Unit with new coalescing settings, its line and timer brought up to them (R181). -/
def PortUnit.coalesced (now : Tick) (threshold age : Nat) (u : PortUnit) : PortUnit :=
  let u1 := { u with threshold := threshold, age := age }
  if u1.queue.isEmpty then u1
  else if !u1.line && decide (threshold ≤ u1.queue.length) then { u1 with line := true, ageTimer := none }
  else rearmAge now u1

/-- SET_COALESCING: the checks and the new settings (R181). -/
def setCoalescingReply (p : Port) (threshold : Byte) (age : Word16) (s : State) : Reply :=
  if threshold.toNat < 1 ∨ 32 < threshold.toNat ∨ age.toNat < 10 ∨ 5000 < age.toNat then refuse .range s
  else if !s.isRunning then refuse .notNow s
  else
    let u := (s.port p).coalesced s.tick threshold.toNat age.toNat
    accept (le8 u.threshold ++ leNat16 u.age ++ le8 u.queue.length ++ leFlag u.line) (s.setPort p u)

/-- SET_COALESCING (R181). -/
def execSetCoalescing (p : Port) (n threshold : Byte) (age : Word16) (s : State) : Answer :=
  live s (serve p codeSetCoalescing n (setCoalescingReply p threshold age))

/-! ### Transmission and unknown requests (R173, R174) -/

/-- The first response of a port's transmit list has been sent whole and leaves it (R173;
Assumption 14). -/
def responseSent (p : Port) (s : State) : State := s.setPort p { s.port p with tx := (s.port p).tx.drop 1 }

/-- RESPONSE_SENT (R173). -/
def execResponseSent (p : Port) (s : State) : Answer := live s (responseSent p)

/-- The answer to a request code that the catalogue does not name (R174, place 1). -/
def unknownReply (s : State) : Reply := refuse .unknown s

/-- UNKNOWN_REQUEST (R174): a valid frame whose code names no request; a code of the catalogue is none. -/
def execUnknownRequest (p : Port) (n code : Byte) (s : State) : Answer :=
  live s fun s => if code ∈ catalogue then s else serve p code n unknownReply s

end Sys2Proof.Machine
end

