-- ==== Sys2Proof/Machine/ZoneRequests.lean ====
section
/-! DEFINITION. Chapter 1, the requests on zones and the contact inputs: READ_ZONES, ACK_ZONE, DECLARE, WITHDRAW,
RESET_ZONE, and the debounce of the inputs with the causes and troubles it brings. -/

namespace Sys2Proof.Machine

open Sys2Proof

/-! ### Requests on zones (R7 to R15) -/

/-- A zone's level and change tag, as the accepted zone requests answer them (R7, 13.3). -/
def zoneAnswer (s : State) (z : Fin 16) : List Byte := le8 (s.zone z).level.num ++ le16 (s.zone z).tag

/-- The refusal STALE carries the zone's present change tag (R7). -/
def refuseStale (s : State) (z : Fin 16) : Reply := refuseWith .stale (le16 (s.zone z).tag) s

/-- The port joins the acknowledged set of a zone above NORMAL (R8). -/
def ackZone (z : Fin 16) (p : Port) (s : State) : State :=
  let x := s.zone z
  if x.level = .normal ∨ x.acked.has p then s
  else deliver z (zoneEvent z { x with acked := x.acked.add p } .acknowledge false s)

/-- ACK_ZONE: the checks and the acknowledgement (R8). -/
def ackZoneReply (p : Port) (zone : Byte) (tag : Word16) (s : State) : Reply :=
  if p = .sv then refuse .denied s
  else
    match zoneOperand zone with
    | none => refuse .range s
    | some z =>
      if tag ≠ (s.zone z).tag then refuseStale s z
      else if !s.isRunning then refuse .notNow s
      else
        let s1 := ackZone z p s
        accept (zoneAnswer s1 z) s1

/-- ACK_ZONE (R8). -/
def execAckZone (p : Port) (n zone : Byte) (tag : Word16) (s : State) : Answer :=
  live s (serve p codeAckZone n (ackZoneReply p zone tag))

/-- The level that a port may declare, by its code: FP ALARM or FIRE, PC WATCH or ALARM (R7). -/
def declarable (p : Port) (code : Byte) : Option Level :=
  match p, levelOfNat code.toNat with
  | .fp, some .alarm => some .alarm
  | .fp, some .fire => some .fire
  | .pc, some .watch => some .watch
  | .pc, some .alarm => some .alarm
  | _, _ => none

/-- DECLARE: the checks and the declaration (R9). -/
def declareReply (p : Port) (zone level : Byte) (s : State) : Reply :=
  match declarable p level with
  | none => refuse .denied s
  | some l =>
    match zoneOperand zone with
    | none => refuse .range s
    | some z =>
      if !s.isRunning then refuse .notNow s
      else
        let s1 := postZone z (.declaration p) l s
        accept (zoneAnswer s1 z) s1

/-- DECLARE (R9). -/
def execDeclare (p : Port) (n zone level : Byte) (s : State) : Answer := live s (serve p codeDeclare n (declareReply p zone level))

/-- WITHDRAW: the checks and the removal of the port's declaration (R10). -/
def withdrawReply (p : Port) (zone : Byte) (s : State) : Reply :=
  if p = .sv then refuse .denied s
  else
    match zoneOperand zone with
    | none => refuse .range s
    | some z =>
      if !s.isRunning then refuse .notNow s
      else if (s.zone z).causes[(CauseKey.declaration p).ix] = .normal then refuse .noData s
      else
        let s1 := postZone z (.declaration p) .normal s
        accept (zoneAnswer s1 z) s1

/-- WITHDRAW (R10). -/
def execWithdraw (p : Port) (n zone : Byte) (s : State) : Answer := live s (serve p codeWithdraw n (withdrawReply p zone))

/-- Some cause of the zone is at FIRE (R11). -/
def fireCause (x : Zone) : Bool := decide (causesLevel x.causes = .fire)

/-- The latch of a zone is cleared, and its level derived from the causes that remain (R11). -/
def resetZone (z : Fin 16) (s : State) : State :=
  deliver z (zoneEvent z { s.zone z with latch := false, acked := AckSet.none } .reset true s)

/-- RESET_ZONE: the checks in their order and the reset (R11). -/
def resetZoneReply (p : Port) (zone : Byte) (tag : Word16) (s : State) : Reply :=
  if p ≠ .fp then refuse .denied s
  else
    match zoneOperand zone with
    | none => refuse .range s
    | some z =>
      if tag ≠ (s.zone z).tag then refuseStale s z
      else if !s.isRunning || !(s.zone z).latch || fireCause (s.zone z) then refuse .notNow s
      else
        let s1 := resetZone z s
        accept (zoneAnswer s1 z) s1

/-- RESET_ZONE (R11). -/
def execResetZone (p : Port) (n zone : Byte) (tag : Word16) (s : State) : Answer :=
  live s (serve p codeResetZone n (resetZoneReply p zone tag))

/-- The places of a cause set that hold a record, in the order of R15. -/
def heldCauses (x : Zone) : List (Fin 13) := (List.finRange 13).filter fun i => decide (x.causes[i] ≠ .normal)

/-- The cause kind's number at a place of the cause set (R2, R15). -/
def causeKindNum (i : Fin 13) : Nat := if i.val < 3 then i.val else if i.val < 11 then 3 else 4

/-- The source at a place of the cause set: the duct of the zone, the input, or the port (R2). -/
def causeSource (z : Fin 16) (i : Fin 13) : Nat :=
  if i.val < 3 then z.val + 1 else if i.val < 11 then i.val - 3 else i.val - 11

/-- A cause record of 3 bytes (R191). -/
def causeFields (z : Fin 16) (x : Zone) (i : Fin 13) : List Byte :=
  le8 (causeKindNum i) ++ le8 (causeSource z i) ++ le8 x.causes[i].num

/-- A trouble item of 2 bytes (R191). -/
def troubleFields (t : Trouble) : List Byte := le8 t.kind.num ++ le8 t.subject

/-- A zone summary of 8 bytes (R15, R191). -/
def zoneSummary (s : State) (z : Fin 16) : List Byte :=
  let x := s.zone z
  le8 x.kind.num ++ le8 x.level.num ++ leFlag x.latch ++ [x.acked.byte] ++ le16 x.tag ++ le8 (heldCauses x).length ++
    le8 x.troubles.length

/-- A zone's cause records and trouble items, after its summary (R15). -/
def zoneDetail (s : State) (z : Fin 16) : List Byte :=
  (heldCauses (s.zone z)).flatMap (causeFields z (s.zone z)) ++ (s.zone z).troubles.flatMap troubleFields

/-- READ_ZONES: the checks and the answer (R15). -/
def readZonesReply (zone : Byte) (s : State) : Reply :=
  if zone = 255 then
    if s.isRunning then accept (zone :: (List.finRange 16).flatMap (zoneSummary s)) s else refuse .notNow s
  else
    match zoneOperand zone with
    | none => refuse .range s
    | some z => if s.isRunning then accept (zone :: (zoneSummary s z ++ zoneDetail s z)) s else refuse .notNow s

/-- READ_ZONES (R15). -/
def execReadZones (p : Port) (n zone : Byte) (s : State) : Answer := live s (serve p codeReadZones n (readZonesReply zone))

/-! ### Contact inputs (R17 to R19) -/

/-- The sample of an enabled input accepts a new state (R18). -/
def inputAccepts (debounce : Nat) (x : Input) (sensed : Sensed) : Bool :=
  decide (sensed ≠ x.accepted) && decide (x.candidate = some sensed) && decide (debounce ≤ x.stable + 1)

/-- An input after a sample (R18). -/
def Input.sampled (debounce : Nat) (x : Input) (sensed : Sensed) : Input :=
  if sensed = x.accepted then { x with candidate := none, stable := 0 }
  else if inputAccepts debounce x sensed then ⟨sensed, none, 0⟩
  else if x.candidate = some sensed then { x with stable := x.stable + 1 }
  else { x with candidate := some sensed, stable := 0 }

/-- The level that an accepted state posts (R19). -/
def inputLevel (c : InputCfg) : Sensed → Level
  | .active => c.level
  | .normal | .fault => .normal

/-- The accepted state of an input changes: its cause is posted or removed on the mapped zone, and INPUT_FAULT raised or
cleared (R19). The posting's ZONE notice and the notices of its report go before the TROUBLE notice (Assumption 39). -/
def inputAcceptedEvent (i : Fin 8) (z : Fin 16) (sensed : Sensed) (s : State) : State :=
  let c := s.cfg.inputs[i]
  let s1 := postZone z (.input i) (inputLevel c sensed) (s.setInput i ((s.input i).sampled c.debounce sensed))
  if sensed = .fault then raiseTrouble z .inputFault i.val s1
  else if (s.input i).accepted = .fault then clearTrouble z .inputFault i.val s1
  else s1

/-- The sample that an enabled input would take now accepts a new state (R18). -/
def acceptsNow (s : State) (i : Fin 8) (sensed : Sensed) : Bool := inputAccepts s.cfg.inputs[i].debounce (s.input i) sensed

/-- The level of a contact input's two leads (Assumption 11). -/
def setContactLead (i : Fin 8) (supervision line : Bool) (s : State) : State :=
  s.setLeads { s.leads with contacts := s.leads.contacts.set i ⟨supervision, line⟩ }

/-- A sample of an enabled input that accepts a new state (R18, R19). -/
def inputAcceptedSample (i : Fin 8) (sensed : Sensed) (s : State) : State :=
  match s.cfg.inputs[i].zone with
  | some z => inputAcceptedEvent i z sensed s
  | none => s

/-- CONTACT_INPUT_ACCEPTED (R18, R19): the leads take the level at any time; the part samples them once each millisecond while
RUNNING (R17, R20), and this command takes the sample where it accepts a new state (Assumptions 10 to 12). -/
def execContactInputAccepted (input : Fin 8) (supervision line : Bool) (s : State) : Answer :=
  let sensed := sensedOf supervision line
  live (setContactLead input supervision line s) fun s =>
    if acceptsNow s input sensed then sampling (.contact input) (inputAcceptedSample input sensed) s else s

/-- A sample of an enabled input that accepts no new state (R18). -/
def inputQuietSample (i : Fin 8) (sensed : Sensed) (s : State) : State :=
  s.setInput i ((s.input i).sampled s.cfg.inputs[i].debounce sensed)

/-- CONTACT_INPUT_SAMPLE (R18): the leads take the level at any time; the part samples them once each millisecond while RUNNING
(R17, R20), and this command takes the sample where it accepts no new state (Assumptions 10 to 12). -/
def execContactInputSample (input : Fin 8) (supervision line : Bool) (s : State) : Answer :=
  let sensed := sensedOf supervision line
  live (setContactLead input supervision line s) fun s =>
    if acceptsNow s input sensed then s else sampling (.contact input) (inputQuietSample input sensed) s

end Sys2Proof.Machine
end

