-- ==== Sys2Proof/Machine/Link.lean ====
section
/-! DEFINITION. Chapter 11, the receivers: frames assembled from the bytes of a link, their discard, and the serving of a
frame that a byte completes. -/

namespace Sys2Proof.Machine

open Sys2Proof

/-! ### Frame assembly (R171, R172) -/

/-- What a received byte does besides moving the receiver: nothing, a discard, or the completion of a valid frame. -/
inductive ByteEffect where
  | plain
  | discard
  | frame (body : List Byte)
  deriving DecidableEq, Repr

/-- A complete frame is judged by its CRC over the length byte and the body (R172). -/
def judgeFrame (body : List Byte) (lo hi : Byte) : ByteEffect :=
  if crc16 (byteOf body.length :: body) = wordOf lo hi then .frame body else .discard

/-- A byte without a framing error at a receiver (R171). -/
def rxByte (rx : Rx) (b : Byte) : Rx × ByteEffect :=
  match rx with
  | .hunting => (if b = 0xA5 then .length else .hunting, .plain)
  | .length => if 2 ≤ b.toNat ∧ b.toNat ≤ 64 then (.body b.toNat [], .plain) else (.hunting, .discard)
  | .body size got => (if size ≤ got.length + 1 then .crc (got ++ [b]) none else .body size (got ++ [b]), .plain)
  | .crc body none => (.crc body (some b), .plain)
  | .crc body (some lo) => (.hunting, judgeFrame body lo b)

/-- The receiver holds a partial frame. -/
def Rx.partialFrame (rx : Rx) : Bool := decide (rx ≠ .hunting)

/-- The byte comes more than 80 ticks after the previous byte of the same frame (R172). -/
def lateByte (u : PortUnit) (now : Tick) : Bool := u.rx.partialFrame && Tick.later now (u.rxTick.plus 80)

/-- A received byte at a Port Unit: a framing error discards a partial frame; a late byte discards it and is then examined in
HUNTING (R171, R172). -/
def portByte (u : PortUnit) (now : Tick) (b : Byte) (framingError : Bool) : Rx × ByteEffect :=
  if framingError then (.hunting, if u.rx.partialFrame then .discard else .plain)
  else if lateByte u now then ((rxByte .hunting b).1, .discard)
  else rxByte u.rx b

/-! ### Serving a frame (R173, R174, R190) -/

/-- What a request's payload leads to. -/
abbrev PayloadReply := List Byte → State → Reply

/-- A request without operands; any other payload is refused LENGTH. -/
def take0 (f : State → Reply) : PayloadReply
  | [], s => f s
  | _, s => refuse .length s

/-- A request with one byte of operands. -/
def take1 (f : Byte → State → Reply) : PayloadReply
  | [a], s => f a s
  | _, s => refuse .length s

/-- A request with two one-byte operands. -/
def take2 (f : Byte → Byte → State → Reply) : PayloadReply
  | [a, b], s => f a b s
  | _, s => refuse .length s

/-- A request with a two-byte operand. -/
def takeWord (f : Word16 → State → Reply) : PayloadReply
  | [l, h], s => f (wordOf l h) s
  | _, s => refuse .length s

/-- A request with a one-byte and a two-byte operand. -/
def take1Word (f : Byte → Word16 → State → Reply) : PayloadReply
  | [a, l, h], s => f a (wordOf l h) s
  | _, s => refuse .length s

/-- A request with two one-byte operands and a two-byte one. -/
def take2Word (f : Byte → Byte → Word16 → State → Reply) : PayloadReply
  | [a, b, l, h], s => f a b (wordOf l h) s
  | _, s => refuse .length s

/-- READ_CAPTURE's payload: list index, part, word offset, count. -/
def takeCapture : PayloadReply
  | [a, b, l, h, c], s => readCaptureReply a b (wordOf l h) c s
  | _, s => refuse .length s

/-- PUSH_OVERLAY's payload: duct, duration, offset, Nq, the three thresholds, rate window. -/
def takeOverlay (p : Port) : PayloadReply
  | [d, dl, dh, ol, oh, nq, a, b, c, wl, wh], s =>
    pushOverlayReply p d (wordOf dl dh) (wordOf ol oh) nq a b c (wordOf wl wh) s
  | _, s => refuse .length s

/-- The requests that are answered at arrival, by code, with the payload each takes (R174, R190). -/
def requestTable (p : Port) : List (Byte × PayloadReply) :=
  [(codeReadIdent, take0 readIdentReply), (codeReadZones, take1 readZonesReply),
    (codeAckZone, take1Word (ackZoneReply p)), (codeDeclare, take2 (declareReply p)),
    (codeWithdraw, take1 (withdrawReply p)), (codeResetZone, take1Word (resetZoneReply p)),
    (codeReadDuct, take1 readDuctReply), (codeStartDuct, take1 (startDuctReply p)),
    (codeStopDuct, take1 (stopDuctReply p)), (codeResetDuct, take1 (resetDuctReply p)),
    (codeReadTracks, take2 readTracksReply), (codeReadChannels, take1 readChannelsReply)] ++
  [(codeIsolateChannel, take1 (isolateChannelReply p)), (codeRestoreChannel, take1 (restoreChannelReply p)),
    (codeClearChannelFault, take1 (clearChannelFaultReply p)), (codeTestValve, take2Word (testValveReply p)),
    (codeReadOverlays, take1 readOverlaysReply), (codePushOverlay, takeOverlay p),
    (codePopOverlay, take1 (popOverlayReply p)), (codeReadDoors, take1 readDoorsReply),
    (codeHoldDoor, take1Word (holdDoorReply p)), (codeUnholdDoor, take1 (unholdDoorReply p)),
    (codeCloseDoor, take1 (closeDoorReply p)), (codeReadSirens, take1 readSirensReply)] ++
  [(codeSoundSiren, take2Word (soundSirenReply p)), (codeStopSound, take1 (stopSoundReply p)),
    (codeSilence, take1 (silenceReply p)), (codeTestSirens, take1 (testSirensReply p)),
    (codeReadCapture, takeCapture), (codeFreeCaptures, take1Word freeCapturesReply),
    (codeSetCaptureLayout, take2Word (setCaptureLayoutReply p)), (codeFetchNotices, take1 (fetchNoticesReply p)),
    (codeSetSubscription, take1 (setSubscriptionReply p)), (codeSetCoalescing, take1Word (setCoalescingReply p)),
    (codeReadStore, takeWord readStoreReply), (codeRestart, take0 (restartReply p))]

/-- The answer to a request frame other than a WRITE_STORE: UNKNOWN where its code names no request (R174). -/
def frameReply (p : Port) (code : Byte) (payload : List Byte) (s : State) : Reply :=
  match (requestTable p).find? fun x => decide (x.1 = code) with
  | some x => x.2 payload s
  | none => unknownReply s

/-- The page of a WRITE_STORE's payload, where it has its length. -/
def storePage (payload : List Byte) : Option (Vector Byte 32) :=
  if h : payload.length = 34 then some ⟨(payload.drop 2).toArray, by simp [h]⟩ else none

/-- A valid frame arrives with its body: code, number and payload (R172 to R174). -/
def serveFrame (p : Port) (body : List Byte) (s : State) : State :=
  match body with
  | code :: number :: payload =>
    if code = codeWriteStore then
      match storePage payload, payload with
      | some page, l :: h :: _ => serveWriteStore p number (wordOf l h) page s
      | _, _ => serve p code number (refuse .length) s
    else serve p code number (frameReply p code payload) s
  | _ => s

/-- A byte is received at a port, and a valid frame that it completes is served. -/
def receiveByte (p : Port) (b : Byte) (framingError : Bool) (s : State) : State :=
  let r := portByte (s.port p) s.tick b framingError
  let s1 := s.setPort p { s.port p with rx := r.1, rxTick := s.tick }
  match r.2 with
  | .frame body => serveFrame p body s1
  | .plain | .discard => s1

/-- BYTE_RECEIVED (R171, R172). -/
def execByteReceived (p : Port) (b : Byte) (framingError : Bool) (s : State) : Answer :=
  live s (receiveByte p b framingError)

/-- FRAME_DISCARD (R172): a byte that discards the partial frame of the port; any other byte is not this event
(Assumption 12). -/
def execFrameDiscard (p : Port) (b : Byte) (framingError : Bool) (s : State) : Answer :=
  live s fun s =>
    if (portByte (s.port p) s.tick b framingError).2 = .discard then receiveByte p b framingError s else s

end Sys2Proof.Machine
end

