-- ==== Sys2Proof/Machine/Dispatch.lean ====
section
/-! DEFINITION. The meaning of each command, one arm per row of spec/opcode_table.json. -/

namespace Sys2Proof.Machine

open Sys2Proof

/-- The effect of a command on everything but the queue of waiting commands. -/
def exec (i : Instr) (s : State) : Host.Outcome State Fault Refusal :=
  match i with
  | .powerOn => Sys2Proof.Machine.execPowerOn s
  | .resetLeadLow => Sys2Proof.Machine.execResetLeadLow s
  | .loadCompletion => Sys2Proof.Machine.execLoadCompletion s
  | .storeWriteCompletion held => Sys2Proof.Machine.execStoreWriteCompletion held s
  | .frameDiscard p b framingError => Sys2Proof.Machine.execFrameDiscard p b framingError s
  | .unknownRequest p n code => Sys2Proof.Machine.execUnknownRequest p n code s
  | .responseSent p => Sys2Proof.Machine.execResponseSent p s
  | .readIdent p n => Sys2Proof.Machine.execReadIdent p n s
  | .readZones p n zone => Sys2Proof.Machine.execReadZones p n zone s
  | .ackZone p n zone tag => Sys2Proof.Machine.execAckZone p n zone tag s
  | .declare p n zone level => Sys2Proof.Machine.execDeclare p n zone level s
  | .withdraw p n zone => Sys2Proof.Machine.execWithdraw p n zone s
  | .resetZone p n zone tag => Sys2Proof.Machine.execResetZone p n zone tag s
  | .readDuct p n duct => Sys2Proof.Machine.execReadDuct p n duct s
  | .startDuct p n duct => Sys2Proof.Machine.execStartDuct p n duct s
  | .stopDuct p n duct => Sys2Proof.Machine.execStopDuct p n duct s
  | .resetDuct p n duct => Sys2Proof.Machine.execResetDuct p n duct s
  | .readTracks p n duct position => Sys2Proof.Machine.execReadTracks p n duct position s
  | .readChannels p n channel => Sys2Proof.Machine.execReadChannels p n channel s
  | .isolateChannel p n channel => Sys2Proof.Machine.execIsolateChannel p n channel s
  | .restoreChannel p n channel => Sys2Proof.Machine.execRestoreChannel p n channel s
  | .clearChannelFault p n channel => Sys2Proof.Machine.execClearChannelFault p n channel s
  | .testValve p n duct valve seconds => Sys2Proof.Machine.execTestValve p n duct valve seconds s
  | .readOverlays p n duct => Sys2Proof.Machine.execReadOverlays p n duct s
  | .pushOverlay p n duct duration offset nq alert shutdown alertShutdown window => Sys2Proof.Machine.execPushOverlay p n duct duration offset nq alert shutdown alertShutdown window s
  | .popOverlay p n duct => Sys2Proof.Machine.execPopOverlay p n duct s
  | .readDoors p n door => Sys2Proof.Machine.execReadDoors p n door s
  | .holdDoor p n door seconds => Sys2Proof.Machine.execHoldDoor p n door seconds s
  | .unholdDoor p n door => Sys2Proof.Machine.execUnholdDoor p n door s
  | .closeDoor p n door => Sys2Proof.Machine.execCloseDoor p n door s
  | .readSirens p n siren => Sys2Proof.Machine.execReadSirens p n siren s
  | .soundSiren p n mask pattern seconds => Sys2Proof.Machine.execSoundSiren p n mask pattern seconds s
  | .stopSound p n mask => Sys2Proof.Machine.execStopSound p n mask s
  | .silence p n mask => Sys2Proof.Machine.execSilence p n mask s
  | .testSirens p n mask => Sys2Proof.Machine.execTestSirens p n mask s
  | .readCapture p n index part offset count => Sys2Proof.Machine.execReadCapture p n index part offset count s
  | .freeCaptures p n num oldest => Sys2Proof.Machine.execFreeCaptures p n num oldest s
  | .setCaptureLayout p n layout pre post => Sys2Proof.Machine.execSetCaptureLayout p n layout pre post s
  | .fetchNotices p n count => Sys2Proof.Machine.execFetchNotices p n count s
  | .setSubscription p n mask => Sys2Proof.Machine.execSetSubscription p n mask s
  | .setCoalescing p n threshold age => Sys2Proof.Machine.execSetCoalescing p n threshold age s
  | .readStore p n offset => Sys2Proof.Machine.execReadStore p n offset s
  | .writeStore p n offset bytes => Sys2Proof.Machine.execWriteStore p n offset bytes s
  | .restart p n => Sys2Proof.Machine.execRestart p n s
  | .keySwitchChange sensed => Sys2Proof.Machine.execKeySwitchChange sensed s
  | .contactInputAccepted input supervision line => Sys2Proof.Machine.execContactInputAccepted input supervision line s
  | .stationSampleEvent d station codes samplesFirst => Sys2Proof.Machine.execStationSampleEvent d station codes samplesFirst s
  | .velocityUpdate d code => Sys2Proof.Machine.execVelocityUpdate d code s
  | .holdTimerExpiry d => Sys2Proof.Machine.execHoldTimerExpiry d s
  | .trackRetirement d id => Sys2Proof.Machine.execTrackRetirement d id s
  | .sprayWindowOpen d v => Sys2Proof.Machine.execSprayWindowOpen d v s
  | .sprayWindowClose d v => Sys2Proof.Machine.execSprayWindowClose d v s
  | .flowSwitchChange d v active => Sys2Proof.Machine.execFlowSwitchChange d v active s
  | .flowConfirmExpiry d v => Sys2Proof.Machine.execFlowConfirmExpiry d v s
  | .gateSwitchChange d which active => Sys2Proof.Machine.execGateSwitchChange d which active s
  | .gateSupervisionExpiry d => Sys2Proof.Machine.execGateSupervisionExpiry d s
  | .floodEnd d => Sys2Proof.Machine.execFloodEnd d s
  | .testEnd d => Sys2Proof.Machine.execTestEnd d s
  | .startTimerExpiry d => Sys2Proof.Machine.execStartTimerExpiry d s
  | .armingWindowExpiry d => Sys2Proof.Machine.execArmingWindowExpiry d s
  | .rateWindowExpiry d => Sys2Proof.Machine.execRateWindowExpiry d s
  | .quietTimerExpiry d => Sys2Proof.Machine.execQuietTimerExpiry d s
  | .lowFlowTimerExpiry d => Sys2Proof.Machine.execLowFlowTimerExpiry d s
  | .purgeTimerExpiry d => Sys2Proof.Machine.execPurgeTimerExpiry d s
  | .overlayExpiry d position => Sys2Proof.Machine.execOverlayExpiry d position s
  | .closedSwitchChange door active => Sys2Proof.Machine.execClosedSwitchChange door active s
  | .barrierChange door active => Sys2Proof.Machine.execBarrierChange door active s
  | .holdExpiry door p => Sys2Proof.Machine.execHoldExpiry door p s
  | .obstructionTimerExpiry door => Sys2Proof.Machine.execObstructionTimerExpiry door s
  | .closeTimerExpiry door => Sys2Proof.Machine.execCloseTimerExpiry door s
  | .proppedTimerExpiry door => Sys2Proof.Machine.execProppedTimerExpiry door s
  | .manualDemandExpiry siren p => Sys2Proof.Machine.execManualDemandExpiry siren p s
  | .allClearExpiry siren => Sys2Proof.Machine.execAllClearExpiry siren s
  | .sirenTestExpiry siren => Sys2Proof.Machine.execSirenTestExpiry siren s
  | .slotBoundary => Sys2Proof.Machine.execSlotBoundary s
  | .cadenceExpiry => Sys2Proof.Machine.execCadenceExpiry s
  | .ageTimerExpiry p => Sys2Proof.Machine.execAgeTimerExpiry p s
  | .byteReceived p b framingError => Sys2Proof.Machine.execByteReceived p b framingError s
  | .transducerSample d code => Sys2Proof.Machine.execTransducerSample d code s
  | .contactInputSample input supervision line => Sys2Proof.Machine.execContactInputSample input supervision line s

end Sys2Proof.Machine
end

