-- ==== Sys2Proof/Machine/Clock.lean ====
section
/-! DEFINITION. The block's own clock: the events that are due at the present tick without anything from outside (the
expiries of timers, the load completion, the store-write completion, the samples of the inputs), and the step of an empty command
queue, which takes one of them or moves the tick on (Assumptions 1, 2, 5 and 10). -/

namespace Sys2Proof.Machine

open Sys2Proof

/-- An event where its condition holds. -/
def dueIf (b : Bool) (i : Instr) : List Instr := if b then [i] else []

/-- The store page as it is read back when no command says what the store holds (Assumption 5). -/
def clockHeld (s : State) : Vector Byte 32 := Vector.ofFn fun i => Config.heldByte s.free i.val

/-- Due events of the Store Loader (R183, R186). -/
def dueLoader (s : State) : List Instr :=
  dueIf (decide (s.loader.state = .loading) && decide (s.tick = loadTick)) .loadCompletion ++
    dueIf (expiresNow s (s.loader.write.map StoreWrite.due)) (.storeWriteCompletion (clockHeld s))

/-- The inputs that the part samples (R17, R23, R43, R74, R127, R170). -/
def allSamplers : List Sampler :=
  .key :: (List.finRange 8).map .contact ++
    ((List.finRange 4).flatMap fun d =>
      (List.finRange 4).map (.station d) ++ [.transducer d] ++ (List.finRange 2).map (.flow d) ++
        [.gate d .openSwitch, .gate d .closedSwitch]) ++
    (List.finRange 12).map .closedSwitch ++ (List.finRange 12).map .barrier

/-- The codes of a station at a sample that no command brings (Assumption 44). -/
def clockCodes (s : State) (d st : Fin 4) : Vector Code 4 :=
  Vector.ofFn fun i => Config.detectorCode s.free (stationIx d st).val i.val

/-- The command that is the sample of an input now: a switch at the level of its lead, an analog input at a free code
(Assumptions 10 and 44). -/
def sampleCommand (s : State) : Sampler → Instr
  | .key => .keySwitchChange s.leads.key
  | .contact i =>
    let x := s.leads.contacts[i]
    if acceptsNow s i (sensedOf x.supervision x.line) then .contactInputAccepted i x.supervision x.line
    else .contactInputSample i x.supervision x.line
  | .station d st => .stationSampleEvent d st (clockCodes s d st) (Config.samplesFirst s.free (stationIx d st).val)
  | .transducer d =>
    let code := Config.transducerCode s.free d.val
    if updatesNow s d then .velocityUpdate d code else .transducerSample d code
  | .flow d v => .flowSwitchChange d v s.leads.flow[d][v]
  | .gate d .openSwitch => .gateSwitchChange d .openSwitch s.leads.gateOpen[d]
  | .gate d .closedSwitch => .gateSwitchChange d .closedSwitch s.leads.gateClosed[d]
  | .closedSwitch i => .closedSwitchChange i s.leads.closedSwitches[i]
  | .barrier i => .barrierChange i s.leads.barriers[i]

/-- The samples still to be taken at the present tick (Assumption 10). -/
def dueSamples (s : State) : List Instr := (allSamplers.filter (sampleDue s)).map (sampleCommand s)

/-- Due events of the Port Units (R178). -/
def duePorts (s : State) : List Instr :=
  [Port.fp, .pc, .sv].flatMap fun p => dueIf (expiresNow s (s.port p).ageTimer) (.ageTimerExpiry p)

/-- A track that its own retirement event would find at its retirement tick (R71). -/
def retiresNow (s : State) (d : Fin 4) (id : Byte) : Bool :=
  match (s.duct d).tracks.find? fun t => decide (t.id = id) with
  | some t => decide (t.retire = s.tick)
  | none => false

/-- Due events of the valves of a duct (R75, R77): an evaluation where the output does not match R75, and the flow-confirm
timer. -/
def dueValve (s : State) (d : Fin 4) (v : Fin 2) : List Instr :=
  dueIf (s.wanted d v && !(s.valve d v).output) (.sprayWindowOpen d v) ++
    dueIf (!s.wanted d v && (s.valve d v).output) (.sprayWindowClose d v) ++
    dueIf (expiresNow s (s.valve d v).timer && decide ((s.valve d v).state = .opened)) (.flowConfirmExpiry d v)

/-- Due events of the Duct Controller (R97, R98, R100 to R102, R105). -/
def dueCtl (s : State) (d : Fin 4) : List Instr :=
  let c := s.ctl d
  dueIf (expiresNow s c.start && decide (c.state = .starting ∨ c.state = .arming)) (.startTimerExpiry d) ++
    dueIf (expiresNow s c.arm && decide (c.state = .arming)) (.armingWindowExpiry d) ++
    dueIf (expiresNow s c.rate) (.rateWindowExpiry d) ++
    dueIf (expiresNow s c.quiet && decide (c.state = .alert)) (.quietTimerExpiry d) ++
    dueIf (expiresNow s c.lowFlow && decide (c.state = .guarded ∨ c.state = .alert)) (.lowFlowTimerExpiry d) ++
    dueIf (expiresNow s c.purge && decide (c.state = .stopping)) (.purgeTimerExpiry d)

/-- Due events of the blocks of a duct. -/
def dueDuct (s : State) (d : Fin 4) : List Instr :=
  let D := s.duct d
  dueIf (expiresNow s D.vel.hold && decide (D.vel.state = .held)) (.holdTimerExpiry d) ++
    D.tracks.flatMap (fun t => dueIf (retiresNow s d t.id) (.trackRetirement d t.id)) ++
    (List.finRange 2).flatMap (dueValve s d) ++
    dueIf (expiresNow s D.gate.timer && decide (D.gate.state = .closing ∨ D.gate.state = .opening))
      (.gateSupervisionExpiry d) ++
    dueIf (expiresNow s D.flood) (.floodEnd d) ++
    dueIf (expiresNow s (D.test.map TestRun.until_)) (.testEnd d) ++ dueCtl s d ++
    (List.finRange 4).flatMap fun i =>
      dueIf (expiresNow s ((entryFromBottom D.overlays i.val).map Overlay.expiry)) (.overlayExpiry d i)

/-- Due events of a door (R130, R135, R136, R138). -/
def dueDoor (s : State) (i : Fin 12) : List Instr :=
  let x := s.door i
  dueIf (expiresNow s x.holdFp) (.holdExpiry i .fp) ++ dueIf (expiresNow s x.holdPc) (.holdExpiry i .pc) ++
    dueIf (expiresNow s x.obstruction && decide (x.state = .releaseWait)) (.obstructionTimerExpiry i) ++
    dueIf (expiresNow s x.close && decide (x.state = .closing)) (.closeTimerExpiry i) ++
    dueIf (expiresNow s x.propped && decide (x.state = .free)) (.proppedTimerExpiry i)

/-- Due events of a siren (R146, R148, R149). -/
def dueSiren (s : State) (i : Fin 8) : List Instr :=
  let x := s.arbiter.sirens[i]
  dueIf (expiresNow s (x.manualFp.map Manual.until_)) (.manualDemandExpiry i .fp) ++
    dueIf (expiresNow s (x.manualPc.map Manual.until_)) (.manualDemandExpiry i .pc) ++
    dueIf (expiresNow s x.allClear) (.allClearExpiry i) ++ dueIf (expiresNow s x.test) (.sirenTestExpiry i)

/-- Due events of the blocks that work only while the load state is RUNNING (R185). -/
def dueRunning (s : State) : List Instr :=
  if s.isRunning then
    (List.finRange 4).flatMap (dueDuct s) ++ (List.finRange 12).flatMap (dueDoor s) ++
      (List.finRange 8).flatMap (dueSiren s) ++ dueIf (expiresNow s s.arbiter.slot) .slotBoundary ++
      dueIf (expiresNow s s.arbiter.cadence) .cadenceExpiry
  else []

/-- Every event due at the present tick. -/
def dueEvents (s : State) : List Instr := dueLoader s ++ dueSamples s ++ duePorts s ++ dueRunning s

/-- An event of the clock uses up a free value: what the store holds, a code of an analog input, or the choice among several due
events. -/
def State.spend (s : State) : State := { s with free := s.free + 1 }

/-- One event of the clock: the only one due, or one of several in an order that the spec leaves open (Assumption 2); with
nothing due, the tick moves on (Assumption 1). -/
def idle (s : State) : Answer :=
  if s.resetLow then .next s
  else
    match dueEvents s with
    | [] => .next { s with tick := s.tick + 1 }
    | [i] => exec i s.spend
    | i :: l => exec ((i :: l)[Config.choice s.free % (l.length + 1)]?.getD i) s.spend

end Sys2Proof.Machine
end

