-- ==== Sys2Proof/Safety.lean ====
section
/-! DEFINITION. What holds of the block at all times, in the terms that the claims use: the conditions that the spec states
of its records whatever has happened, each as a proposition over the state. -/

namespace Sys2Proof.Machine

open Sys2Proof

/-- A zone record: latched exactly at FIRE, its level the one that latch and causes give, and no two troubles alike (R4,
R13). -/
def ZoneOk (x : Zone) : Prop :=
  (x.latch = true ↔ x.level = .fire) ∧ x.level = deriveLevel x.latch x.causes ∧ x.troubles.Nodup

/-- Every zone record is sound. -/
def ZonesOk (s : State) : Prop := ∀ z : Fin 16, ZoneOk (s.zone z)

/-- A Port Unit: at most 32 notices, the line asserted only over a non-empty queue, the age timer armed exactly while notices
wait under a released line, and the transmit list with room for a pending WRITE_STORE's answer (R173, R177, R178). -/
def PortOk (u : PortUnit) : Prop :=
  u.queue.length ≤ 32 ∧ (u.line = true → u.queue ≠ []) ∧
    (u.ageTimer.isSome = true ↔ u.queue ≠ [] ∧ u.line = false) ∧
    u.tx.length ≤ 4 ∧ (u.waiting.isSome = true → u.tx.length ≤ 3)

/-- Every Port Unit is sound. -/
def PortsOk (s : State) : Prop := ∀ p : Port, PortOk (s.port p)

/-- A Duct Controller: its outputs as R92 fixes them, and a recorded stop exactly in STOPPING and STOPPED (R91, R92). -/
def CtlOk (c : Ctl) : Prop :=
  c.feeder = feederOn c.state ∧ c.fan = fanOn c.state c.stop c.purge ∧
    (c.stop.isSome = true ↔ c.state = .stopping ∨ c.state = .stopped)

/-- A valve: driven exactly outside CLOSED, its flow-confirm timer running only in OPEN (R76, R77). -/
def ValveOk (v : Valve) : Prop := (v.output = true ↔ v.state ≠ .closed) ∧ (v.timer.isSome = true → v.state = .opened)

/-- A gate: its two drives and its timer as its state fixes them, and no stroke under way whose switch is active (R83, R85). -/
def GateOk (g : Gate) : Prop :=
  (g.openDrive = true ↔ g.state = .opening) ∧ (g.closeDrive = true ↔ g.state = .closing) ∧
    (g.timer.isSome = true ↔ g.state = .opening ∨ g.state = .closing) ∧
    (g.state = .closing → g.closedSwitch = false) ∧ (g.state = .opening → g.openSwitch = false)

/-- The outputs of a duct: feeder permit, fan contactor, valve drives and gate drives. -/
def DuctOutputsOk (x : Duct) : Prop := CtlOk x.ctl ∧ (∀ v : Fin 2, ValveOk x.valves[v]) ∧ GateOk x.gate

/-- The outputs of every duct are as the rules fix them. -/
def OutputsOk (s : State) : Prop := ∀ d : Fin 4, DuctOutputsOk (s.duct d)

/-- A Duct Controller acts on a zone: its own duct zone, or a zone that it serves (R109). -/
def ActsOnZone (s : State) (d : Fin 4) (z : Fin 16) : Prop := z = ductZone d ∨ zoneIn (s.ductCfg d).served z = true

/-- No duct is in a running state while its duct zone or a zone that it serves is at FIRE (R95, R103, R109). -/
def DuctsClear (s : State) : Prop :=
  ∀ (d : Fin 4) (z : Fin 16), ActsOnZone s d z → (s.zone z).level = .fire → (s.ctl d).state.isRunning = false

/-- The bounds record of every duct is the one that R48 to R50 give at present. A duct is blind exactly while its velocity is FAILED
or its Duct Controller OFFLINE or STOPPED; then v_lo is Lmin and v_hi 500 cm/s. Else v_lo is the velocity less the tolerance, not
below 20 and not above 500, and v_hi the velocity plus the tolerance, not above 500 and not below v_lo. The reciprocals are those of
R52. -/
def BoundsOk (s : State) : Prop :=
  ∀ d : Fin 4,
    let vel := (s.duct d).vel
    let b := vel.bounds
    let tol := (s.ductCfg d).tol
    (b.blind = true ↔ vel.state = .failed ∨ (s.ctl d).state = .offline ∨ (s.ctl d).state = .stopped) ∧
      b.vLo = (if b.blind then (s.ductCfg d).lmin else min (max (vel.value - tol) 20) 500) ∧
      b.vHi = (if b.blind then 500 else max (min (vel.value + tol) 500) b.vLo) ∧
      b.pHi = 16777216 / b.vHi ∧ b.pLo = 16777216 / b.vLo

/-- The track list of every duct: at most 8 tracks, ids unique, and the Duct Controller's list mark showing whether any is
there (R58, R60, R69). -/
def TracksOk (s : State) : Prop :=
  ∀ d : Fin 4, (s.duct d).tracks.length ≤ 8 ∧ ((s.duct d).tracks.map Track.id).Nodup ∧
    ((s.ctl d).listMark = true ↔ (s.duct d).tracks ≠ [])

/-- The overlay stack of every duct: at most 4 entries, and none while the duct zone is at ALARM or above (R115, R121). -/
def OverlaysOk (s : State) : Prop :=
  ∀ d : Fin 4, (s.duct d).overlays.length ≤ 4 ∧
    ((s.zone (ductZone d)).level.atLeast .alarm = true → (s.duct d).overlays = [])

/-- A door: its magnet as its state fixes it, held exactly while a port holds it, waiting exactly while its obstruction timer
runs and only for an active barrier, closing exactly while its close timer runs, propped only while it is FREE and open, shut in no
state that still closes it, and with a release cause exactly as its state asks for one (R125, R126, R134 to R138). -/
def DoorOk (x : Door) : Prop :=
  x.magnet = magnetOn x.state ∧ (x.state = .held ↔ x.noHolds = false) ∧
    (x.obstruction.isSome = true ↔ x.state = .releaseWait) ∧ (x.close.isSome = true ↔ x.state = .closing) ∧
    (x.propped.isSome = true → x.state = .free ∧ x.closedSwitch = false) ∧
    (x.state = .releaseWait → x.barrier = true) ∧ (x.state = .closing ∨ x.state = .stuck → x.closedSwitch = false) ∧
    (x.state = .held → x.cause = none) ∧
    (x.state = .releaseWait ∨ x.state = .closing ∨ x.state = .stuck → x.cause.isSome = true)

/-- Every door is sound. -/
def DoorsOk (s : State) : Prop := ∀ i : Fin 12, DoorOk (s.door i)

/-- No door is HELD while a zone that it borders is at FIRE, or at ALARM where the door closes on alarm (R129, R133). -/
def DoorsClear (s : State) : Prop :=
  ∀ (i : Fin 12) (z : Fin 16), (s.door i).state = .held → zoneIn s.cfg.doors[i].zones z = true →
    (s.zone z).level ≠ .fire ∧ (s.cfg.doors[i].closeOnAlarm = true → (s.zone z).level ≠ .alarm)

/-- The sirens that sound. -/
def soundingSirens (a : Arbiter) : List (Fin 8) := (List.finRange 8).filter fun i => a.sirens[i].sounding

/-- The Siren Arbiter: the units in use are those of the sounding sirens and within the budget, a siren sounds only under a
demand, and every drive is as R154 fixes it (R152, R154). -/
def ArbiterOk (c : Cfg) (a : Arbiter) : Prop :=
  a.units = weightSum (fun i => c.sirens[i].weight) (soundingSirens a) ∧ a.units ≤ c.budget ∧
    ∀ i : Fin 8, (a.sirens[i].sounding = true → a.sirens[i].demand.isSome = true) ∧
      a.sirens[i].drive = sirenDrive a.sirens[i].demand a.sirens[i].sounding a.phaseOn

/-- A siren's demand is the highest of its present contributions, and its snapshot holds only zones of its coverage that stand
at ALARM or above in the zone view (R144, R151). -/
def DemandOk (c : SirenCfg) (view : Vector ZoneView 16) (x : Siren) : Prop :=
  x.demand = sirenDemand c.cover view x ∧
    ∀ z : Fin 16, zoneIn x.snapshot z = true → zoneIn c.cover z = true ∧ view[z].level.atLeast .alarm = true

/-- The amplifier is driven within its budget, every siren asks for what its contributions give, and the zone view shows every
zone as it is (R143, R144, R151, R152, R154). -/
def SirensOk (s : State) : Prop :=
  ArbiterOk s.cfg s.arbiter ∧ (∀ i : Fin 8, DemandOk s.cfg.sirens[i] s.arbiter.view s.arbiter.sirens[i]) ∧
    ∀ z : Fin 16, s.arbiter.view[z] = ⟨(s.zone z).level, (s.zone z).acked⟩

/-- A block is STORED. -/
def Block.isStored : Block → Bool
  | .stored _ => true
  | .free | .filling _ _ => false

/-- The Capture Store: as many blocks as the layout has, the stored list naming exactly the STORED blocks once each, every
station's filling block FILLING and its own, and every FILLING block named by a station (R159). -/
def CapturesOk (s : State) : Prop :=
  s.captures.blocks.length = blockCount s.captures.layout ∧ s.captures.stored.Nodup ∧
    (∀ b : Nat, b ∈ s.captures.stored ↔ (s.captures.block b).isStored = true) ∧
    (∀ i : Fin 16, ∀ b : Nat, s.captures.filling[i] = some b → (s.captures.block b).isFilling = true) ∧
    (∀ b : Nat, (s.captures.block b).isFilling = true → ∃ i : Fin 16, s.captures.filling[i] = some b) ∧
    (∀ i j : Fin 16, s.captures.filling[i].isSome = true → s.captures.filling[i] = s.captures.filling[j] → i = j) ∧
    (∀ i : Fin 16, s.stations[i].inFlight = s.captures.filling[i].isSome)

/-- The load state, the failing check code and the image CRC go together: while LOADING there is no code, no CRC and no store
write, RUNNING has no failing check and SAFE_HOLD has one (R183, R184, R188). -/
def LoaderOk (x : Loader) : Prop :=
  (x.state = .loading → x.failing = none ∧ x.imageCrc = 0 ∧ x.write = none) ∧ (x.state = .running → x.failing = none) ∧
    (x.state = .safeHold → x.failing.isSome = true)

/-- The external store is in its canonical form, a write in progress fills a page inside it, and the Store Loader's fields go
together (R184, R186). -/
def StoreOk (s : State) : Prop :=
  Memory.wf s.store = true ∧ (∀ w ∈ s.loader.write, w.offset.toNat ≤ 4064) ∧ LoaderOk s.loader

/-- While the load state is not RUNNING, every block but the Port Units and the Store Loader holds its power-on values, so that
every output is in its safe state and no zone is above NORMAL (R183, R185). -/
def QuietOk (s : State) : Prop :=
  s.isRunning = false →
    s.cfg = Cfg.blank ∧ s.zones = initialZones ∧ s.inputs = State.reset.inputs ∧ s.channels = State.reset.channels ∧
      s.stations = State.reset.stations ∧ s.ducts = State.reset.ducts ∧ s.doors = State.reset.doors ∧
      s.arbiter = Arbiter.initial ∧ s.captures = Captures.initial

/-- Every output of the field is off, and every attention line released: the safe state (R183). -/
def OutputsSafe (s : State) : Prop :=
  (∀ d : Fin 4, (s.ctl d).feeder = false ∧ (s.ctl d).fan = false ∧ (s.gate d).openDrive = false ∧
      (s.gate d).closeDrive = false ∧ ∀ v : Fin 2, (s.valve d v).output = false) ∧
    (∀ i : Fin 12, (s.door i).magnet = false) ∧ (∀ i : Fin 8, s.arbiter.sirens[i].drive = false) ∧
    ∀ p : Port, (s.port p).line = false

/-- A safe run's step goes on: neither a fault nor a refusal. -/
def GoesOn (r : Answer) : Prop := ∃ t : State, r = .next t

/-! ### What a command meets -/

/-- The Duct Controller's three causes stand on its duct zone at the levels that R107 and R108 give at present. -/
def PostedOk (s : State) : Prop :=
  ∀ d : Fin 4,
    (s.zone (ductZone d)).causes[CauseKey.ductState.ix] = ductStateLevel (s.ctl d) ∧
      (s.zone (ductZone d)).causes[CauseKey.velocity.ix] = velocityLevel (s.ctl d).state (s.duct d).vel.state ∧
      (s.zone (ductZone d)).causes[CauseKey.ember.ix] = emberLevel (s.ctl d)

/-- The port takes and checks a frame that arrives now: the reset lead is up, no request is pending at the port and its
transmit list has room (R173). -/
def TakesFrame (s : State) (p : Port) : Prop :=
  s.resetLow = false ∧ (s.port p).waiting = none ∧ (s.port p).tx.length < 4

/-- The part takes the events of its blocks: the reset lead is up and the load state is RUNNING (R183, R185). -/
def Working (s : State) : Prop := s.resetLow = false ∧ s.isRunning = true

/-- The part samples an input at the present tick: stations, transducers, flow switches and gate switches at every tick, contact
inputs and the inputs of the doors where the millisecond clock advances, all while RUNNING and only what is enabled, configured or
installed; the key where the millisecond clock advances, in every load state (R17, R23, R43, R74, R127, R170). -/
def SampledNow (s : State) : Sampler → Prop
  | .key => s.tick.toNat % 4 = 0
  | .contact i => s.isRunning = true ∧ s.cfg.inputs[i].zone.isSome = true ∧ s.tick.toNat % 4 = 0
  | .station d st => s.isRunning = true ∧ stationConfigured s.cfg d st = true
  | .transducer _ => s.isRunning = true
  | .flow d v => s.isRunning = true ∧ (s.valveCfg d v).installed = true
  | .gate d _ => s.isRunning = true ∧ (s.gateCfg d).installed = true
  | .closedSwitch _ => s.isRunning = true ∧ s.tick.toNat % 4 = 0
  | .barrier _ => s.isRunning = true ∧ s.tick.toNat % 4 = 0

/-- The sample of an input at the present tick is still to be taken: none has been taken at it. -/
def SampleDue (s : State) (x : Sampler) : Prop := SampledNow s x ∧ s.sampled x ≠ s.tick

/-- A trouble stands raised on a zone. -/
def Raised (s : State) (z : Fin 16) (kind : TroubleKind) (subject : Nat) : Prop :=
  (⟨kind, subject⟩ : Trouble) ∈ (s.zone z).troubles

/-- The condition of R75: an installed valve, and a track's window that contains the present tick, a flood that has not reached
its end, or a test of this valve that has not. -/
def SprayDue (s : State) (d : Fin 4) (v : Fin 2) : Prop :=
  (s.valveCfg d v).installed = true ∧
    ((∃ t ∈ (s.duct d).tracks, ∃ e ∈ t.valves, e.valve = v ∧ Tick.notLater e.openTick s.tick = true ∧
        Tick.later e.closeTick s.tick = true) ∨
      (∃ e ∈ (s.duct d).flood, Tick.later e s.tick = true) ∨
      (∃ t ∈ (s.duct d).test, t.valve = v ∧ Tick.later t.until_ s.tick = true))

/-! ### What a command answers -/

/-- The state with one response more in a port's transmit list, its receiver back in HUNTING, and nothing else changed: what a
request that changes nothing leaves (R171, R173, R174). -/
def State.answered (s : State) (p : Port) (r : Response) : State :=
  s.setPort p { s.port p with rx := .hunting, tx := (s.port p).tx ++ [r] }

/-- A Port Unit differs from another only in what notices bring: queue, overflow flag, next sequence, line and age timer. -/
def OnlyNotices (u v : PortUnit) : Prop :=
  v = { u with queue := v.queue, overflow := v.overflow, nextSeq := v.nextSeq, line := v.line, ageTimer := v.ageTimer }

/-- No port sends or receives anything; notices may be queued. -/
def KeepsLinks (s t : State) : Prop := ∀ p : Port, OnlyNotices (s.port p) (t.port p)

/-- The port's transmit list has gained exactly this response; notices may be queued at every port. -/
def Answers (p : Port) (r : Response) (s t : State) : Prop := KeepsLinks (s.answered p r) t

/-! ### What an offered notice does at a port -/

/-- A Port Unit has taken an offered notice (R176 to R178). A kind that is not subscribed is not kept. Else the notice takes the next
sequence, and joins a queue of fewer than 32 at the tail; at 32 an urgent one displaces the oldest that is not urgent, and any other is
dropped, both with the overflow flag set. An admission asserts the line at the count threshold or for an urgent notice; it arms the
age timer at an empty queue, and an asserted line disarms it. -/
def Takes (now : Tick) (o : Offer) (u v : PortUnit) : Prop :=
  let n : Notice :=
    { sequence := u.nextSeq, time := now >>> 2, kind := o.kind, subject := o.subject, old := o.old, new := o.new, cause := o.cause,
      detail := padTo 12 0 o.detail, urgent := o.urgent, admitted := now }
  let admitted := fun (queue : List Notice) (overflow : Bool) =>
    v = { u with
      nextSeq := u.nextSeq + 1, queue := queue, overflow := overflow,
      line := u.line || decide (u.threshold ≤ queue.length) || n.urgent, ageTimer := v.ageTimer } ∧
    v.ageTimer = (if v.line then none else if u.queue = [] then some (now.plus (4 * u.age)) else u.ageTimer)
  (subscribed u.subscription o.kind = false → v = u) ∧
    (subscribed u.subscription o.kind = true → u.queue.length < 32 → admitted (u.queue ++ [n]) u.overflow) ∧
    (subscribed u.subscription o.kind = true → 32 ≤ u.queue.length → o.urgent = true → (∃ q ∈ u.queue, q.urgent = false) →
      admitted (u.queue.eraseP (fun q => !q.urgent) ++ [n]) true) ∧
    (subscribed u.subscription o.kind = true → 32 ≤ u.queue.length → (o.urgent = true → ∀ q ∈ u.queue, q.urgent = true) →
      v = { u with nextSeq := u.nextSeq + 1, overflow := true })

/-- A Port Unit has taken these notices, one after the other. -/
def TakesAll (now : Tick) : List Offer → PortUnit → PortUnit → Prop
  | [], u, v => v = u
  | o :: rest, u, v => ∃ w : PortUnit, Takes now o u w ∧ TakesAll now rest w v

/-- From `s` to `t` all three ports have taken the same notices in the same order, this one first (R176). -/
def Notified (o : Offer) (s t : State) : Prop := ∃ rest : List Offer, ∀ p : Port, TakesAll s.tick (o :: rest) (s.port p) (t.port p)

/-- The ZONE notice of a change of zone `z` (R6): subject, levels before and after, cause, and the new tag, latch and acknowledged set;
urgent where the zone comes to FIRE. The causes used here are 4 DECLARATION, 5 ACKNOWLEDGE and 6 RESET (R190). -/
def zoneNotice (z : Fin 16) (cause : Byte) (old new : Zone) : Offer :=
  { kind := .zone, subject := byteOf z.val, old := byteOf old.level.num, new := byteOf new.level.num, cause := cause,
    detail := le16 new.tag ++ [flagByte new.latch, new.acked.byte], urgent := decide (new.level = .fire ∧ old.level ≠ .fire) }

/-- From `s` to `t` all three ports have taken the same notices in the same order, and these are exactly the notices of `l`; their order
is left open, as R176 leaves it. -/
def OffersAll (l : List Offer) (s t : State) : Prop :=
  ∃ os : List Offer, os.Perm l ∧ ∀ p : Port, TakesAll s.tick os (s.port p) (t.port p)

/-- From `s` to `t` all three ports have taken the same notices in the same order, and the notices of `l` are among them. -/
def OffersThese (l : List Offer) (s t : State) : Prop := ∃ more : List Offer, OffersAll (l ++ more) s t

/-! ### The notices of the blocks (R191) -/

/-- The TROUBLE notice of a raise or a clear (R13): subject the zone, 0 and 1 or 1 and 0, cause the trouble kind, detail the trouble's
subject. -/
def troubleNotice (z : Fin 16) (kind : TroubleKind) (subject : Nat) (raised : Bool) : Offer :=
  { kind := .trouble, subject := byteOf z.val, old := if raised then 0 else 1, new := if raised then 1 else 0,
    cause := byteOf kind.num, detail := [byteOf subject], urgent := false }

/-- The notice of raising a trouble on a zone: none where it stands already (R13). -/
def raiseNotices (s : State) (z : Fin 16) (kind : TroubleKind) (subject : Nat) : List Offer :=
  if (⟨kind, subject⟩ : Trouble) ∈ (s.zone z).troubles then [] else [troubleNotice z kind subject true]

/-- The notice of clearing a trouble on a zone: none where it does not stand (R13). -/
def clearNotices (s : State) (z : Fin 16) (kind : TroubleKind) (subject : Nat) : List Offer :=
  if (⟨kind, subject⟩ : Trouble) ∈ (s.zone z).troubles then [troubleNotice z kind subject false] else []

/-- The notice of bringing a trouble to a condition: raised where it holds, cleared where it does not (R31). -/
def setNotices (s : State) (z : Fin 16) (kind : TroubleKind) (subject : Nat) (present : Prop) [Decidable present] : List Offer :=
  if present then raiseNotices s z kind subject else clearNotices s z kind subject

/-- The notices of a station's two coincidence troubles, where `n` of its channels are ACTIVE (R31). -/
def coincidenceNotices (s : State) (d st : Fin 4) (n : Nat) : List Offer :=
  setNotices s (ductZone d) .reducedCoincidence st.val (0 < n ∧ n ≤ (s.ductCfg d).base.coincidence) ++
    setNotices s (ductZone d) .stationUnprotected st.val (n = 0)

/-- A DUCT notice that is not urgent: subject the duct's number (R46, R78). -/
def ductNotice (d : Fin 4) (cause old new : Byte) (detail : List Byte) : Offer :=
  { kind := .duct, subject := byteOf (d.val + 1), old := old, new := new, cause := cause, detail := detail, urgent := false }

/-- The VELOCITY notice of a change of velocity state (R46): detail the value after it. -/
def velocityNotice (d : Fin 4) (old new : Velocity) : Offer :=
  ductNotice d 0 (byteOf old.state.num) (byteOf new.state.num) (le16 (BitVec.ofNat 16 new.value))

/-- The VALVE notice (R78): detail the valve, its opening tick and its confirmed mark. -/
def valveNotice (d : Fin 4) (v : Fin 2) (old new : Valve) : Offer :=
  ductNotice d 1 (byteOf old.state.num) (byteOf new.state.num)
    (byteOf v.val :: (le32 new.openTick ++ [if new.confirmed then 1 else 0]))

/-- The GATE notice of a change of gate state (R78): detail the command tick and what ended the stroke, 0 the switch, 1 the expiry, 2 a
command, 0xFF where none ended (Assumption 22). -/
def gateNotice (d : Fin 4) (old new : GateState) (cmdTick : Tick) (ended : Byte) : Offer :=
  ductNotice d 2 (byteOf old.num) (byteOf new.num) (le32 cmdTick ++ [ended])

/-- The FLOOD notice (R78): 0 and 1 at a start, 1 and 1 at an extension, 1 and 0 at the end; detail the end tick. -/
def floodNotice (d : Fin 4) (old new : Byte) (ends : Tick) : Offer := ductNotice d 3 old new (le32 ends)

/-- The TEST notice (R78): 0 and 1 at a start, 1 and 0 at the end; detail the valve and the end tick. -/
def testNotice (d : Fin 4) (old new : Byte) (v : Fin 2) (ends : Tick) : Offer :=
  ductNotice d 4 old new (byteOf v.val :: le32 ends)

/-- Stop kind, stop cause and asserted level, each 0xFF where there is no stop (R93, R190). -/
def stopBytes (stop : Option Stop) : List Byte :=
  match stop with
  | none => [0xFF, 0xFF, 0xFF]
  | some x => [byteOf x.kind.num, byteOf x.cause.num, byteOf x.level.num]

/-- The STATE notice of a change of duct state or recorded stop (R93): urgent where it shows the duct in STOPPING of FIRE kind, which it
was not in before. -/
def stateNotice (d : Fin 4) (old new : Ctl) : Offer :=
  { kind := .duct, subject := byteOf (d.val + 1), old := byteOf old.state.num, new := byteOf new.state.num, cause := 7,
    detail := stopBytes new.stop, urgent := new.fireStopping && !old.fireStopping }

/-- A DETECTION notice (R35, R66): subject the duct, from 1 on, in the upper four bits and the station in the lower four. -/
def detectionNotice (d st : Fin 4) (old new : Nat) (cause : Byte) (detail : List Byte) : Offer :=
  { kind := .detection, subject := byteOf (16 * (d.val + 1) + st.val), old := byteOf old, new := byteOf new, cause := cause,
    detail := detail, urgent := false }

/-- A hold set as notices and answers carry it: the count, then port and expiry on the millisecond clock for each hold, zeros to 11
bytes (R191); of two holds FP's stands first (Assumptions 28 and 42). -/
def holdBytes (x : Door) : List Byte :=
  let hold := fun (port : Byte) (t : Option Tick) => match t with | none => [] | some e => port :: le32 (e >>> 2)
  let l := hold 0 x.holdFp ++ hold 1 x.holdPc
  byteOf (l.length / 5) :: (l ++ List.replicate (10 - l.length) 0)

/-- A release cause, 0xFF where there is none (R190). -/
def causeByte (cause : Option ReleaseCause) : Byte :=
  match cause with
  | none => 0xFF
  | some c => byteOf c.num

/-- The DOOR notice (R139): the door states before and after, detail the hold set and the release cause after it. The causes are the
five release causes from 0 on, then HOLD 5, UNHOLD 6, EXPIRY 7, BARRIER 8, WAIT_EXPIRED 9, CLOSED 10 and CLOSE_TIMEOUT 11. -/
def doorNotice (i : Fin 12) (old new : Door) (cause : Byte) : Offer :=
  { kind := .door, subject := byteOf i.val, old := byteOf old.state.num, new := byteOf new.state.num, cause := cause,
    detail := holdBytes new ++ [causeByte new.cause], urgent := false }

/-- The notices of raising and of clearing a door's trouble, on the lowest-numbered zone that it borders (R14). -/
def doorTroubleNotices (s : State) (i : Fin 12) (kind : TroubleKind) (present : Bool) : List Offer :=
  match lowestZone s.cfg.doors[i].zones with
  | none => []
  | some z => if present then raiseNotices s z kind i.val else clearNotices s z kind i.val

/-- The notices of an event that moves a door: the DOOR notice, and at an entry to FREE those of the troubles that it clears (R136 to
R139). -/
def doorNotices (s t : State) (i : Fin 12) (cause : Byte) : List Offer :=
  let old := s.door i
  let new := t.door i
  doorNotice i old new cause ::
    (if new.state = .free ∧ old.state ≠ .free then
      (if old.state = .stuck then doorTroubleNotices s i .doorStuck false else []) ++ doorTroubleNotices s i .doorPropped false
    else [])

/-- A siren demand, 0xFF where there is none (R190). -/
def patternByte (demand : Option Pattern) : Byte :=
  match demand with
  | none => 0xFF
  | some k => byteOf k.num

/-- The SIREN notice of a siren (R155): the demands before and after; detail the sounding flag, the snapshot and the units in use. The
causes are ZONE 0, MANUAL 1, ALL_CLEAR 2, TEST 3, EXPIRY 4, SILENCE 5, RESOUND 6, GRANT 7 and ROTATION 8. -/
def sirenTold (old new : Arbiter) (i : Fin 8) (cause : Byte) : Offer :=
  let y := new.sirens[i]
  { kind := .siren, subject := byteOf i.val, old := patternByte old.sirens[i].demand, new := patternByte y.demand, cause := cause,
    detail := (if y.sounding then 1 else 0) :: (le16 y.snapshot ++ [byteOf new.units]), urgent := false }

/-- The SIREN notices of an event (R155): one for each siren whose demand or snapshot changed, with the cause that the event gives that
siren, and one for each siren of which only the sounding flag changed. -/
def sirensTold (old new : Arbiter) (cause : Fin 8 → Byte) (flagCause : Byte) : List Offer :=
  (List.finRange 8).filterMap fun i =>
    let x : Siren := old.sirens[i]
    let y : Siren := new.sirens[i]
    if x.demand ≠ y.demand ∨ x.snapshot ≠ y.snapshot then some (sirenTold old new i (cause i))
    else if x.sounding ≠ y.sounding then some (sirenTold old new i flagCause)
    else none

/-- The effective parameters under a stack: those of its top entry, or the base set's (R116). -/
def paramsUnder (s : State) (d : Fin 4) (stack : List Overlay) : RateParams :=
  match stack with
  | [] => (s.ductCfg d).base.rate
  | e :: _ => e.params

/-- The OVERLAY notice of an entry that enters or leaves a stack (R122): the depths before and after; detail the owner, the position
from the bottom (Assumption 23), the expiry on the millisecond clock, and the threshold offset and Nq in effect after the change. The
causes are PUSHED 0, POPPED 1, EXPIRED 2 and CLEARED 3. -/
def overlayNotice (d : Fin 4) (cause : Byte) (old new : Nat) (e : Overlay) (position : Nat) (eff : RateParams) : Offer :=
  { kind := .overlay, subject := byteOf (d.val + 1), old := byteOf old, new := byteOf new, cause := cause,
    detail := byteOf (portIx e.owner).val :: byteOf position ::
      (le32 (e.expiry >>> 2) ++ le16 (BitVec.ofNat 16 eff.offset) ++ [byteOf eff.nq]), urgent := false }

/-- The OVERLAY notices of a forced clear, one for each entry from the top downward (R121, R122). -/
def clearedNotices (s : State) (d : Fin 4) : List Overlay → List Offer
  | [] => []
  | e :: rest =>
    overlayNotice d 3 (rest.length + 1) rest.length e rest.length (paramsUnder s d rest) :: clearedNotices s d rest

/-- The CAPTURE_READY notice (R164): the stored counts before and after; detail the oldest record's sequence with its presence byte, and
the LOST flag. The causes are READY 0, LOST 1 and LAYOUT 2. -/
def captureNotice (cause : Byte) (old new : Captures) : Offer :=
  { kind := .captureReady, subject := 0, old := byteOf old.stored.length, new := byteOf new.stored.length, cause := cause,
    detail := (match new.oldestSequence with | none => [0, 0, 0] | some q => 1 :: le16 q) ++ [if new.lost then 1 else 0],
    urgent := false }

/-- An event of one duct offers these notices. Where its postings leave the duct zone's tag as it was, these are all. Where they raise
it once, the ZONE notice of that change goes with them, its cause one of DUCT_STATE, VELOCITY and EMBER (R6, R107, R108). -/
def DuctTold (d : Fin 4) (l : List Offer) (s t : State) : Prop :=
  let z := ductZone d
  OffersThese l s t ∧ ((t.zone z).tag = (s.zone z).tag → OffersAll l s t) ∧
    ((t.zone z).tag = (s.zone z).tag + 1 →
      ∃ cause : Fin 3, OffersThese (zoneNotice z (byteOf cause.val) (s.zone z) (t.zone z) :: l) s t)

/-! ### What a command keeps -/

/-- What only start-up, the store and the outside change stays as it was. -/
def KeepsFixed (s t : State) : Prop :=
  t.tick = s.tick ∧ t.resetLow = s.resetLow ∧ t.cfg = s.cfg ∧ t.key = s.key ∧ t.loader = s.loader ∧ t.store = s.store ∧
    t.leads = s.leads ∧ t.samples = s.samples ∧ t.free = s.free ∧ t.pending = s.pending

/-- The detector channels, the stations, the contact inputs and the capture memory stay as they were. -/
def KeepsDetectors (s t : State) : Prop :=
  t.channels = s.channels ∧ t.stations = s.stations ∧ t.inputs = s.inputs ∧ t.captures = s.captures

/-- A zone record stays as it was but for its troubles. -/
def KeepsHazard (z : Fin 16) (s t : State) : Prop := t.zone z = { s.zone z with troubles := (t.zone z).troubles }

/-- Every zone record stays as it was but for its troubles. -/
def KeepsHazards (s t : State) : Prop := ∀ z : Fin 16, KeepsHazard z s t

/-- Every duct but one stays as it was. -/
def KeepsOtherDucts (d : Fin 4) (s t : State) : Prop := ∀ e : Fin 4, e ≠ d → t.duct e = s.duct e

/-- Every door but one stays as it was. -/
def KeepsOtherDoors (i : Fin 12) (s t : State) : Prop := ∀ j : Fin 12, j ≠ i → t.door j = s.door j

/-- The tracks, the valves, the flood and the test of a duct stay as they were. -/
def KeepsWater (d : Fin 4) (s t : State) : Prop :=
  (t.duct d).tracks = (s.duct d).tracks ∧ (t.duct d).nextId = (s.duct d).nextId ∧ (t.duct d).valves = (s.duct d).valves ∧
    (t.duct d).flood = (s.duct d).flood ∧ (t.duct d).test = (s.duct d).test

/-- An event of one duct: what it may touch beside that duct is the duct zone and, through that zone's report, doors and sirens
with their troubles and notices. Detectors, inputs, captures, the other ducts and the other zones' hazards stay. -/
def StaysInDuct (d : Fin 4) (s t : State) : Prop :=
  KeepsFixed s t ∧ KeepsDetectors s t ∧ KeepsOtherDucts d s t ∧ (∀ z : Fin 16, z ≠ ductZone d → KeepsHazard z s t)

/-- An event at one zone: it touches no detector, input, capture, track, valve, flood or test. While the zone does not stand at
FIRE it touches no Duct Controller, Velocity Unit or gate and no other zone's hazard; at FIRE it touches only ducts and their
zones beside itself. -/
def StaysAtZone (z : Fin 16) (s t : State) : Prop :=
  KeepsFixed s t ∧ t.channels = s.channels ∧ t.stations = s.stations ∧ t.captures = s.captures ∧
    (∀ d : Fin 4, KeepsWater d s t) ∧
    (∀ y : Fin 16, y ≠ z → (t.zone z).level ≠ .fire ∨ 4 ≤ y.val → KeepsHazard y s t) ∧
    ((t.zone z).level ≠ .fire → ∀ d : Fin 4,
      (ductZone d ≠ z → t.duct d = s.duct d) ∧ t.duct d = { s.duct d with overlays := (t.duct d).overlays })

/-- Only the Port Units differ. -/
def OnlyPortsDiffer (s t : State) : Prop :=
  KeepsFixed s t ∧ KeepsDetectors s t ∧ t.zones = s.zones ∧ t.ducts = s.ducts ∧ t.doors = s.doors ∧ t.arbiter = s.arbiter

/-! ### What some events leave -/

/-- A zone record after an event that brought its cause set, latch and acknowledged set to those of `raw`: the level is the latch's
FIRE or the highest cause level, FIRE latches, the acknowledged set empties at a rise, at a fall to NORMAL and at a reset, and
the tag rises once where level, latch or acknowledged set changed (R4, R5). -/
def SettledTo (old raw new : Zone) (reset : Bool) : Prop :=
  new.level = (if raw.latch then .fire else causesLevel raw.causes) ∧
    (new.latch = true ↔ raw.latch = true ∨ new.level = .fire) ∧
    new.acked = (if old.level.num < new.level.num ∨ (new.level = .normal ∧ old.level ≠ .normal) ∨ reset = true
      then ⟨false, false⟩ else raw.acked) ∧
    new.tag = (if new.level ≠ old.level ∨ new.latch ≠ old.latch ∨ new.acked ≠ old.acked then old.tag + 1 else old.tag) ∧
    new.kind = old.kind

/-- The cause at one place of a zone's set stands at this level, and the others are as they were; at FIRE the three causes of the
zone's own Duct Controller may follow its stop. -/
def CauseSet (z : Fin 16) (key : CauseKey) (level : Level) (s t : State) : Prop :=
  (t.zone z).causes[key.ix] = level ∧
    ∀ i : Fin 13, i ≠ key.ix → 3 ≤ i.val ∨ 4 ≤ z.val ∨ (t.zone z).level ≠ .fire →
      (t.zone z).causes[i] = (s.zone z).causes[i]

/-- A Duct Controller after an ORDERLY stop cause in a running state: STOPPING with the fan on and the purge timer started, or at
purge time 0 STOPPED with the fan off; the feeder permit is off and every other timer idle (R92, R103, R105). -/
def StoppedOrderly (d : Fin 4) (cause : StopCause) (s t : State) : Prop :=
  let purgeTime := (s.ductCfg d).purgeTime
  t.ctl d = { s.ctl d with
    state := if purgeTime = 0 then .stopped else .stopping, stop := some ⟨.orderly, cause, .normal⟩, start := none,
    arm := none, cleanCount := 0, rateCount := 0, rate := none, quiet := none, lowFlow := none,
    purge := if purgeTime = 0 then none else some (s.tick.plus (4000 * purgeTime)), feeder := false,
    fan := decide (purgeTime ≠ 0) }

/-- A gate after a close command (R83, R85): one that is OPEN, OPENING or in FAULT drives shut under its supervision timer, and
is CLOSED at once where its closed switch is active; any other stays as it is. -/
def shutGate (k : GateCfg) (now : Tick) (g : Gate) : Gate :=
  if k.installed = true ∧ (g.state = .opened ∨ g.state = .opening ∨ g.state = .fault) then
    (if g.closedSwitch then
      { g with state := .closed, openDrive := false, closeDrive := false, cmdTick := now, timer := none, troubleMark := false }
    else
      { g with state := .closing, openDrive := false, closeDrive := true, cmdTick := now,
               timer := some (now.plus (4 * k.stroke + 4000)) })
  else g

/-- The gate of a duct has taken a close command. -/
def GateShut (d : Fin 4) (s t : State) : Prop := t.gate d = shutGate (s.gateCfg d) s.tick (s.gate d)

/-- The notices of a command that sets a gate off (R78, R85): the GATE notice of the stroke's beginning, which a stroke under way ends
by the command; and where the switch that it drives towards is active, the GATE notice of its end and the clearing of a standing
GATE_FAULT. -/
def strokeNotices (s : State) (d : Fin 4) (g : Gate) (driving rest : GateState) (there : Bool) : List Offer :=
  gateNotice d g.state driving s.tick (if g.state = .opening ∨ g.state = .closing then 2 else 0xFF) ::
    (if there then
      gateNotice d driving rest s.tick 0 :: (if g.troubleMark then clearNotices s (ductZone d) .gateFault 0 else [])
    else [])

/-- The notices of a close command to a gate (R83). -/
def closeNotices (s : State) (d : Fin 4) (g : Gate) : List Offer :=
  if (s.gateCfg d).installed = true ∧ (g.state = .opened ∨ g.state = .opening ∨ g.state = .fault) then
    strokeNotices s d g .closing .closed g.closedSwitch
  else []

/-- The notices of an open command to a gate (R84). -/
def openNotices (s : State) (d : Fin 4) (g : Gate) : List Offer :=
  if (s.gateCfg d).installed = true ∧ (g.state = .closed ∨ g.state = .fault) then
    strokeNotices s d g .opening .opened g.openSwitch
  else []

/-- The STATE notices of an ORDERLY stop cause in a running state (R93, R103, R105): one into STOPPING, and one into STOPPED where the
purge time is 0. -/
def orderlyNotices (s : State) (d : Fin 4) (cause : StopCause) : List Offer :=
  let x : Ctl := { s.ctl d with state := .stopping, stop := some ⟨.orderly, cause, .normal⟩ }
  stateNotice d (s.ctl d) x :: (if (s.ductCfg d).purgeTime = 0 then [stateNotice d x { x with state := .stopped }] else [])

/-- The notices of a FIRE-kind stop cause that a duct takes in a running state or over an ORDERLY stop (R78, R93, R104, R106): STATE for
the recorded stop, GATE for the close command, and STATE for STOPPED where no gate is left to wait for. -/
def fireStopNotices (s : State) (d : Fin 4) (cause : StopCause) (old : Ctl) : List Offer :=
  let x : Ctl := { old with
    state := if old.state = .stopped then .stopped else .stopping, stop := some ⟨.fire, cause, cause.level⟩ }
  stateNotice d old x :: (closeNotices s d (s.gate d) ++
    (if x.state = .stopping ∧
        ((s.gateCfg d).installed = false ∨ (shutGate (s.gateCfg d) s.tick (s.gate d)).state = .closed) then
      [stateNotice d x { x with state := .stopped }]
    else []))

/-- A Duct Controller after a FIRE-kind stop cause that it takes in a running state or in an ORDERLY stop (R92, R103, R104, R106):
the gate is ordered shut, feeder and fan are off, the cause stands recorded at its level, the timers of a running duct are idle,
and the duct is STOPPED where no gate is left to wait for, with the notices of it; the window-clean mark stays (Assumption 32). `old`
is its record as the event's reports left it. -/
def FireStopped (d : Fin 4) (cause : StopCause) (old : Ctl) (s t : State) : Prop :=
  GateShut d s t ∧ OffersThese (fireStopNotices s d cause old) s t ∧
    t.ctl d = { (if old.state.isRunning = true then
        { old with start := none, arm := none, cleanCount := 0, rateCount := 0, rate := none, quiet := none, lowFlow := none }
      else old) with
      state := if (s.gateCfg d).installed = false ∨ (t.gate d).state = .closed ∨ old.state = .stopped then .stopped
        else .stopping,
      stop := some ⟨.fire, cause, cause.level⟩, purge := none, feeder := false, fan := false }

/-- A Duct Controller that takes every FIRE-kind stop cause: running, or in the purge of an ORDERLY stop (R103, R104). -/
def TakesFireStop (c : Ctl) : Prop :=
  c.state.isRunning = true ∨ (c.state = .stopping ∧ ∃ x ∈ c.stop, x.kind = .orderly ∧ x.level = .normal)

/-- A Duct Controller whose FIRE-kind stop waits in STOPPING, after an event that ends with it (R93, R104, R106). A cause of a higher
level than the asserted one replaces the recorded cause and raises the level; a cause of an equal or lower level, or none, leaves the
recorded stop as it is. The duct is STOPPED where no gate is installed or the gate is CLOSED or in FAULT, and else it waits on. -/
def FireStopGoes (d : Fin 4) (cause : Option StopCause) (old : Ctl) (s t : State) : Prop :=
  ∀ x ∈ old.stop,
    let stop : Stop :=
      match cause with
      | none => x
      | some c => if x.level.num < c.level.num then ⟨.fire, c, c.level⟩ else x
    let ends := (s.gateCfg d).installed = false ∨ (t.gate d).state = .closed ∨ (t.gate d).state = .fault
    let waits : Ctl := { old with stop := some stop }
    t.ctl d = { waits with state := if ends then .stopped else .stopping, purge := if ends then none else old.purge,
                           feeder := false, fan := false } ∧
      OffersThese ((if stop = x then [] else [stateNotice d old waits]) ++
        (if ends then [stateNotice d waits { waits with state := .stopped }] else [])) s t

/-- The result of a gate decision by the table of R81: DIVERTED where the stroke ends no later than the track's deadline, or the
gate is shut already; OUTRUN where it ends later, or no gate can be shown to be shut in time. -/
def gateResult (k : GateCfg) (g : Gate) (now : Tick) (entry : Option GateEntry) : StopCause :=
  match entry with
  | none => .outrun
  | some e =>
    if k.installed = false then .outrun
    else
      match g.state with
      | .closed => .diverted
      | .opening | .fault => .outrun
      | .opened => if Tick.later (now.plus (4 * k.stroke)) e.deadline then .outrun else .diverted
      | .closing => if Tick.later (g.cmdTick.plus (4 * k.stroke)) e.deadline then .outrun else .diverted

/-- The gate after a track's gate decision: ordered shut where the track lists it (R81). -/
def gateAfter (k : GateCfg) (now : Tick) (g : Gate) (x : Track) : Gate := if x.gate.isSome then shutGate k now g else g

/-- The results of the gate decisions for some tracks in their order, each with the gate as the one before left it (R82). -/
def decideAll (k : GateCfg) (now : Tick) (g : Gate) : List Track → List StopCause
  | [] => []
  | x :: rest => gateResult k g now x.gate :: decideAll k now (gateAfter k now g x) rest

/-- The notice of a gate decision (R78, R82): cause OUTRUN 5 or DIVERTED 6; the gate's states before and after, 0xFF where no gate is
installed; detail the track's id, its gate deadline and the margin, each of the two with its presence byte (Assumption 22). The margin
is the deadline less the stroke's end, in OPEN and CLOSING (R81). -/
def decisionNotice (k : GateCfg) (d : Fin 4) (now : Tick) (g : Gate) (x : Track) : Offer :=
  let stateByte := fun (y : Gate) => if k.installed then byteOf y.state.num else 0xFF
  let field := fun (o : Option (BitVec 32)) => match o with | none => [0, 0, 0, 0, 0] | some w => (1 : Byte) :: le32 w
  let ends := if g.state = .opened then some now else if g.state = .closing then some g.cmdTick else none
  let margin :=
    match x.gate, ends with
    | some e, some c => if k.installed then some (e.deadline - c.plus (4 * k.stroke)) else none
    | _, _ => none
  ductNotice d (if gateResult k g now x.gate = .diverted then 6 else 5) (stateByte g) (stateByte (gateAfter k now g x))
    (x.id :: (field (x.gate.map GateEntry.deadline) ++ field margin))

/-- The notices of the gate decisions for some tracks, with those of the close command that the first track with a gate entry gives
(R78, R81, R82). -/
def decisionNotices (s : State) (d : Fin 4) (g : Gate) : List Track → List Offer
  | [] => []
  | x :: rest =>
    decisionNotice (s.gateCfg d) d s.tick g x :: ((if x.gate.isSome then closeNotices s d g else []) ++
      decisionNotices s d (gateAfter (s.gateCfg d) s.tick g x) rest)

/-- What an evaluation by R75 leaves of a valve (R76): turned on it is a new opening with its flow-confirm timer, or confirmed at once
with VALVE_FAULT cleared where its flow switch is active; turned off it is CLOSED; and else it stays as it is. -/
def ValveTurned (d : Fin 4) (v : Fin 2) (s t : State) : Prop :=
  let x := s.valve d v
  let y := t.valve d v
  (x.output = false → y.output = true → y = { x with
    state := .opened, output := true, openTick := s.tick, confirmed := x.flow,
    timer := if x.flow then none else some (s.tick.plus (4 * (s.valveCfg d v).flowConfirm)) }) ∧
  (x.output = false → y.output = true → x.flow = true → ZonesOk s → ¬Raised t (ductZone d) .valveFault v.val) ∧
  (x.output = true → y.output = false → y = { x with state := .closed, output := false, timer := none }) ∧
  (x.output = y.output → y = x)

/-- The notices of a valve that an event has evaluated: VALVE where its output changed, and the clearing of VALVE_FAULT where the
opening is confirmed at once (R76, R78). -/
def valveNotices (s t : State) (d : Fin 4) (v : Fin 2) : List Offer :=
  let x := s.valve d v
  let y := t.valve d v
  if x.output = y.output then []
  else valveNotice d v x y :: (if y.output && y.confirmed then clearNotices s (ductZone d) .valveFault v.val else [])

/-- A door let go for a cause by R134 to R136: its holds are gone; with something in the doorway and an obstruction delay it
waits under its magnet, else it closes, or is FREE at once where its leaf is shut. -/
def LetGo (c : DoorCfg) (now : Tick) (cause : ReleaseCause) (old new : Door) : Prop :=
  new.holdFp = none ∧ new.holdPc = none ∧ new.cause = some cause ∧ new.closedSwitch = old.closedSwitch ∧
    new.barrier = old.barrier ∧ new.propped = none ∧
    (if old.barrier = true ∧ c.obstruction ≠ 0 then
      new.state = .releaseWait ∧ new.magnet = true ∧ new.close = none ∧
        new.obstruction = some (now.plus (4000 * c.obstruction))
    else if old.closedSwitch = true then
      new.state = .free ∧ new.magnet = false ∧ new.close = none ∧ new.obstruction = none
    else
      new.state = .closing ∧ new.magnet = false ∧ new.obstruction = none ∧
        new.close = some (now.plus (4000 * c.closeTime)))

/-- A zone report at one door for a release cause (R133): HELD it is let go, waiting it takes the cause unless its own ranks
higher, and in any other state it stays as it is. -/
def DoorTakes (c : DoorCfg) (now : Tick) (cause : ReleaseCause) (old new : Door) : Prop :=
  (old.state = .held → LetGo c now cause old new) ∧
    (old.state = .releaseWait →
      new = { old with cause := if old.cause = some .zoneFire then some .zoneFire else some cause }) ∧
    (old.state = .free ∨ old.state = .closing ∨ old.state = .stuck → new = old)

/-- What the report of a zone leaves at every door that borders it (R133): ZONE_FIRE at FIRE, ZONE_ALARM at ALARM where the door
closes on alarm, and nothing at a lower level; a door that it changes offers its notices (R139). -/
def DoorsReported (z : Fin 16) (s t : State) : Prop :=
  ∀ i : Fin 12, zoneIn s.cfg.doors[i].zones z = true →
    ((t.zone z).level = .fire → DoorTakes s.cfg.doors[i] s.tick .zoneFire (s.door i) (t.door i)) ∧
      ((t.zone z).level = .alarm → s.cfg.doors[i].closeOnAlarm = true →
        DoorTakes s.cfg.doors[i] s.tick .zoneAlarm (s.door i) (t.door i)) ∧
      ((t.zone z).level = .alarm → s.cfg.doors[i].closeOnAlarm = false → t.door i = s.door i) ∧
      ((t.zone z).level = .normal ∨ (t.zone z).level = .watch → t.door i = s.door i) ∧
      (t.door i ≠ s.door i → OffersThese (doorNotices s t i (if (t.zone z).level = .fire then 4 else 3)) s t)

/-- What the report of a duct zone leaves at its duct's Overlay Stack (R121): at ALARM or above it is empty, with a notice for each
entry that it held, and below it stands as it was. -/
def OverlaysReported (z : Fin 16) (s t : State) : Prop :=
  ∀ d : Fin 4, ductZone d = z →
    ((t.zone z).level = .normal ∨ (t.zone z).level = .watch → (t.duct d).overlays = (s.duct d).overlays) ∧
      ((t.zone z).level = .alarm ∨ (t.zone z).level = .fire →
        (t.duct d).overlays = [] ∧ OffersThese (clearedNotices s d (s.duct d).overlays) s t)

/-- An event of one door beside that door touches only troubles and Port Units. -/
def StaysAtDoor (i : Fin 12) (s t : State) : Prop :=
  KeepsFixed s t ∧ KeepsDetectors s t ∧ KeepsOtherDoors i s t ∧ KeepsHazards s t ∧ t.ducts = s.ducts ∧ t.arbiter = s.arbiter

/-- The trouble of a door on the lowest-numbered zone it borders stands raised (R14). -/
def DoorTrouble (s : State) (i : Fin 12) (kind : TroubleKind) : Prop :=
  ∃ z ∈ lowestZone s.cfg.doors[i].zones, Raised s z kind i.val

/-- The Arbiter's event touches only the Arbiter and the Port Units; the zone view and the rotation pointer stay, the demands of
the touched sirens are derived again from their contributions, and the others stay (R144). -/
def StaysInArbiter (touched : Fin 8 → Bool) (s t : State) : Prop :=
  KeepsFixed s t ∧ KeepsDetectors s t ∧ t.zones = s.zones ∧ t.ducts = s.ducts ∧ t.doors = s.doors ∧
    t.arbiter.view = s.arbiter.view ∧ t.arbiter.pointer = s.arbiter.pointer ∧
    ∀ i : Fin 8, t.arbiter.sirens[i].demand =
      if touched i then sirenDemand s.cfg.sirens[i].cover s.arbiter.view t.arbiter.sirens[i]
      else s.arbiter.sirens[i].demand

/-- The weights of the sirens that meet a condition. -/
def weightOf (c : Cfg) (p : Fin 8 → Bool) : Nat := weightSum (fun i => c.sirens[i].weight) ((List.finRange 8).filter p)

/-- The weights of the sirens whose class comes before class `k`, the classes being EVACUATE, ALERT, ALL_CLEAR and TEST (R152). -/
def weightAbove (c : Cfg) (a : Arbiter) (k : Pattern) : Nat :=
  weightOf c fun i => a.sirens[i].demand.any fun q => decide (q.num < k.num)

/-- The weights of the sirens of class `k` and of the classes before it; the class fully fits where they lie within the budget (R152). -/
def weightTo (c : Cfg) (a : Arbiter) (k : Pattern) : Nat :=
  weightOf c fun i => a.sirens[i].demand.any fun q => decide (q.num ≤ k.num)

/-- The turn of a siren in a rotation: how far it stands from the pointer, counting 7 as followed by 0 (R152). -/
def turnOf (pointer i : Fin 8) : Nat := (i.val + 8 - pointer.val) % 8

/-- The Arbiter after a grant evaluation of the demands it holds, from its rotation pointer on (R152 to R154); `old` is the Arbiter
before it. The sirens of every class that fully fits sound; in the class that does not, a siren sounds where its weight still fits
at its turn; no siren of a lower class sounds. The mark is the siren after the last one granted in that class. The slot timer runs
on or starts while a siren is left waiting, the cadence while an ALERT siren sounds. -/
def GrantsEvaluated (c : Cfg) (now : Tick) (old a : Arbiter) : Prop :=
  let alert := ∃ i : Fin 8, a.sirens[i].demand = some .alert ∧ a.sirens[i].sounding = true
  (∀ i : Fin 8, a.sirens[i].sounding = true ↔ ∃ k ∈ a.sirens[i].demand, weightAbove c a k ≤ c.budget ∧
    (weightTo c a k ≤ c.budget ∨
      c.sirens[i].weight + weightAbove c a k + weightOf c (fun j => decide (a.sirens[j].demand = some k) && a.sirens[j].sounding &&
        decide (turnOf a.pointer j < turnOf a.pointer i)) ≤ c.budget)) ∧
  (∀ i : Fin 8, a.mark = some i ↔ ∃ j : Fin 8, i.val = (j.val + 1) % 8 ∧ a.sirens[j].sounding = true ∧
    ∃ k ∈ a.sirens[j].demand, c.budget < weightTo c a k ∧
      ∀ o : Fin 8, a.sirens[o].demand = some k → a.sirens[o].sounding = true → turnOf a.pointer o ≤ turnOf a.pointer j) ∧
  a.units = weightOf c (fun i => a.sirens[i].sounding) ∧
  a.slot = (if ∃ i : Fin 8, a.sirens[i].demand.isSome = true ∧ a.sirens[i].sounding = false then
    some (old.slot.getD (now.plus (4000 * c.slotLength))) else none) ∧
  a.cadence = (if alert then some (old.cadence.getD (now.plus 4000)) else none) ∧
  a.phaseOn = (if alert ∧ old.cadence.isSome = true then old.phaseOn else true)

/-- The Arbiter after an event: where a demand has changed the grants are evaluated once, and else they stand (R144). -/
def GrantsSettled (c : Cfg) (now : Tick) (old a : Arbiter) : Prop :=
  if ∀ i : Fin 8, a.sirens[i].demand = old.sirens[i].demand then
    (∀ i : Fin 8, a.sirens[i].sounding = old.sirens[i].sounding) ∧ a.units = old.units ∧ a.mark = old.mark ∧ a.slot = old.slot ∧
      a.cadence = old.cadence ∧ a.phaseOn = old.phaseOn
  else GrantsEvaluated c now old a

/-- A siren's contributions of its own: the two manual demands, the snapshot, the all-clear and the test. -/
def SameContributions (x y : Siren) : Prop :=
  y.manualFp = x.manualFp ∧ y.manualPc = x.manualPc ∧ y.snapshot = x.snapshot ∧ y.allClear = x.allClear ∧ y.test = x.test

/-- No block beside the Overlay Stack, the Door Controller and the Siren Arbiter changes at the zone's report: the zone is below FIRE,
or every duct that acts on it is OFFLINE. -/
def NoDuctAnswers (z : Fin 16) (s t : State) : Prop :=
  (t.zone z).level ≠ .fire ∨ ∀ d : Fin 4, ActsOnZone s d z → (s.ctl d).state = .offline

/-- What the report of a zone without a reset leaves at the Siren Arbiter (R143, R148, R151). The zone view shows the zone. A siren that
covers it forgets the zone where it has fallen below ALARM; it resounds, its snapshot cleared, where the zone rises to ALARM or above
outside its snapshot, or from ALARM to FIRE inside it; a rise to ALARM or above ends its all-clear. No other contribution moves. Where
the report stops no duct, nothing else moves, the grants follow the demands, and the SIREN notices are those of R155, with RESOUND where
the report cleared a snapshot and ZONE else (Assumption 28). -/
def SirensReported (z : Fin 16) (s t : State) : Prop :=
  let was := s.arbiter.view[z].level
  let level := (t.zone z).level
  let rises := level.atLeast .alarm = true ∧ was.atLeast .alarm = false
  t.arbiter.view[z] = ⟨level, (t.zone z).acked⟩ ∧ t.arbiter.pointer = s.arbiter.pointer ∧
    (∀ i : Fin 8,
      let x := s.arbiter.sirens[i]
      let y := t.arbiter.sirens[i]
      let covers := zoneIn s.cfg.sirens[i].cover z = true
      let resound := covers ∧
        ((rises ∧ zoneIn x.snapshot z = false) ∨ (zoneIn x.snapshot z = true ∧ was = .alarm ∧ level = .fire))
      y.manualFp = x.manualFp ∧ y.manualPc = x.manualPc ∧ y.test = x.test ∧
        (resound → y.snapshot = 0) ∧ (covers → rises → y.allClear = none) ∧
        (¬rises → y.allClear = x.allClear ∨ y.allClear = none) ∧
        (NoDuctAnswers z s t → ¬(covers ∧ rises) → y.allClear = x.allClear) ∧
        (NoDuctAnswers z s t → ¬resound → ∀ q : Fin 16, zoneIn y.snapshot q = true ↔
          zoneIn x.snapshot q = true ∧ ¬(covers ∧ q = z ∧ level.atLeast .alarm = false))) ∧
    (NoDuctAnswers z s t → GrantsSettled s.cfg s.tick s.arbiter t.arbiter ∧
      OffersThese (sirensTold s.arbiter t.arbiter (fun i =>
        if level.atLeast .alarm = true ∧ s.arbiter.sirens[i].snapshot ≠ 0 ∧ t.arbiter.sirens[i].snapshot = 0 then 6 else 0) 7) s t ∧
      ∀ i : Fin 8, t.arbiter.sirens[i].demand =
        if zoneIn s.cfg.sirens[i].cover z then sirenDemand s.cfg.sirens[i].cover t.arbiter.view t.arbiter.sirens[i]
        else s.arbiter.sirens[i].demand)

/-! ### What a station sample event finds and makes -/

/-- The run counter of a channel whose sample reaches its threshold (R26). -/
def runAfter (x : Channel) : Nat := if x.run = 0 then 1 else min 65535 (x.run + 1)

/-- The run start tick that goes with it (R26). -/
def startAfter (now : Tick) (x : Channel) : Tick := if x.run = 0 then now else x.runStart

/-- The low count after a sample (R25). -/
def lowAfter (code : Code) (x : Channel) : Nat := if code.toNat < 8 then min 400 (x.low + 1) else 0

/-- The fault that a sample finds at a channel: stuck, or else dead (R28, R29; Assumption 40). -/
def faultAfter (s : State) (d : Fin 4) (c : Fin 16) (code : Code) : Option FaultKind :=
  let x := s.channel c
  if x.state ≠ .active then none
  else if thresholdOf s d c ≤ code.toNat ∧ runAfter x = 4000 * (s.ductCfg d).base.stuckLimit then some .stuck
  else if lowAfter code x = 400 then some .dead
  else none

/-- A channel that is ACTIVE behind stage 4 has a sample at its threshold (R32). -/
def reachesNow (s : State) (d : Fin 4) (c : Fin 16) (code : Code) : Bool :=
  decide ((s.channel c).state = .active) && decide (thresholdOf s d c ≤ code.toNat) && (faultAfter s d c code).isNone

/-- It also qualifies: a run that has not yet qualified has come to the effective Nq (R27). -/
def qualifiesNow (s : State) (d : Fin 4) (c : Fin 16) (code : Code) : Bool :=
  reachesNow s d c code && (decide ((s.channel c).run = 0) || !(s.channel c).qualified) &&
    decide ((s.effective d).nq ≤ runAfter (s.channel c))

/-- The qualifying set of a station sample event, in channel order (R32). -/
def qualifyingNow (s : State) (d st : Fin 4) (codes : Vector Code 4) : List (Fin 16) :=
  (((stationChannels s.cfg d st).zip codes.toList).filter fun x => qualifiesNow s d x.1 x.2).map Prod.fst

/-- The coincidence count of a station sample event (R32). -/
def coincidenceNow (s : State) (d st : Fin 4) (codes : Vector Code 4) : Nat :=
  (((stationChannels s.cfg d st).zip codes.toList).filter fun x => reachesNow s d x.1 x.2 && !qualifiesNow s d x.1 x.2).length +
    ((qualifyingNow s d st codes).length - 1)

/-- The coincidence count meets the requirement that the channels left ACTIVE give (R31, R32). -/
abbrev Coincides (s : State) (d st : Fin 4) (codes : Vector Code 4) (t : State) : Prop :=
  min (s.ductCfg d).base.coincidence (activeCount t d st - 1) ≤ coincidenceNow s d st codes

/-- The origin tick of a detection: the run start of a qualifying channel, every other one of which is later (R33). -/
def IsOrigin (s : State) (d st : Fin 4) (codes : Vector Code 4) (o : Tick) : Prop :=
  (∃ c ∈ qualifyingNow s d st codes, startAfter s.tick (s.channel c) = o) ∧
    ∀ c ∈ qualifyingNow s d st codes, startAfter s.tick (s.channel c) = o ∨
      Tick.later (startAfter s.tick (s.channel c)) o = true

/-- A track that a detection at a station with an origin fits: not yet matched there, and the origin inside its match window,
both ends included (R61, R62). -/
def Fits (st : Fin 4) (o : Tick) (t : Track) : Prop :=
  st ∉ t.matched ∧ ∃ e ∈ t.stations, e.station = st ∧ Tick.later e.winBegin o = false ∧ Tick.later o e.winEnd = false

/-- A new track of a detection: the bounds of the moment, an entry for every installed valve, the installed gate and every
configured station downstream, with arrivals, windows and deadline by these bounds; the retirement tick behind them all; and its
judgment (R51 to R56, R59, R62, R64, R70, R79). -/
def NewTrackOf (s : State) (d st : Fin 4) (o : Tick) (y : Track) : Prop :=
  let b := (s.duct d).vel.bounds
  let k := s.ductCfg d
  let far := fun position : Nat => position - stationPosition s.cfg d st
  let down := fun position : Nat => stationPosition s.cfg d st < position
  y.station = st ∧ y.origin = o ∧ y.confirm = s.tick ∧ y.blind = b.blind ∧ y.vHi = b.vHi ∧ y.vLo = b.vLo ∧ y.matched = [] ∧
    y.valves = (List.finRange 2).filterMap (fun v =>
      let c := k.valves[v]
      let te := arrival (far c.position) b.vHi
      let tl := arrival (far c.position) b.vLo
      if c.installed = true ∧ down c.position then
        some { valve := v, te := te, tl := tl, openTick := (o.plus te).minus (4 * c.response),
               closeTick := o.plus (tl + 4 * c.hold), late := Tick.later (s.tick.plus (4 * c.response)) (o.plus te) }
      else none) ∧
    y.gate = (if k.gate.installed = true ∧ down k.gate.position then
      some ⟨arrival (far k.gate.position) b.vHi, o.plus (arrival (far k.gate.position) b.vHi)⟩ else none) ∧
    y.stations = (List.finRange 4).filterMap (fun q =>
      let te := arrival (far (stationPosition s.cfg d q)) b.vHi
      let tl := arrival (far (stationPosition s.cfg d q)) b.vLo
      if stationConfigured s.cfg d q = true ∧ down (stationPosition s.cfg d q) then
        some { station := q, te := te, tl := tl, winBegin := (o.plus te).minus (4 * k.margin),
               winEnd := o.plus (tl + 4 * k.margin) }
      else none) ∧
    y.retire = (y.valves.map ValveEntry.closeTick ++ y.gate.toList.map (fun g => g.deadline.plus 1) ++
      y.stations.map (fun e => e.winEnd.plus 16)).foldl laterTick (s.tick.plus 1) ∧
    (y.quenched = true ↔ ∃ e ∈ y.valves, e.late = false ∧
      ¬((s.valve d e.valve).state = .fault ∧ Tick.later e.closeTick (s.valve d e.valve).openTick = true))

/-- A new track's id is the first one from the next-id count on that no track of the list holds (R60). -/
def FreshId (next : Byte) (l : List Track) (id : Byte) : Prop :=
  (∀ u ∈ l, u.id ≠ id) ∧ ∃ n : Fin 8, id = next + BitVec.ofNat 8 n.val ∧
    ∀ m : Fin 8, m.val < n.val → ∃ u ∈ l, u.id = next + BitVec.ofNat 8 m.val

/-- The state in which a counting duct meets its shutdown threshold in force at one detection more (R99, R100). -/
def RateReached (s : State) (d : Fin 4) : Prop :=
  let c := s.ctl d
  let limit := if c.state = .alert then (s.effective d).alertShutdown else (s.effective d).shutdown
  c.state.counts = true ∧ limit ≠ 0 ∧ limit ≤ min 255 (c.rateCount + 1)

/-- A Duct Controller after a counted detection that stops nothing (R97, R100). -/
def counted (s : State) (d : Fin 4) (c : Ctl) : Ctl :=
  let p := s.effective d
  let n := min 255 (c.rateCount + 1)
  let alerts := c.state = .guarded ∧ p.alert ≠ 0 ∧ p.alert ≤ n
  { c with
    rateCount := n, rate := if c.rateCount = 0 then some (s.tick.plus (4000 * p.window)) else c.rate,
    state := if alerts then .alert else c.state,
    quiet := if alerts ∨ c.state = .alert then some (s.tick.plus (4000 * (s.ductCfg d).quietTime)) else c.quiet }

/-- A capture starts in block `b` of the Capture Store `c` (R158 to R161): FILLING with its post count, the station's filling block, the
next sequence used. The record takes the channels that fit a block, the pre samples that every one of their rings holds, and the track
that the detection joined or became; one that finds its list full takes the duct's present bounds and no track. -/
def CaptureStarts (s : State) (c : Captures) (d st : Fin 4) (o : Tick) (b : Nat) (t : State) : Prop :=
  ∃ r ∈ (t.captures.block b).record,
    let D := s.duct d
    let all := stationChannels s.cfg d st
    let rings := r.channels.map fun q => (t.channel q).ring
    t.captures = { c with blocks := c.blocks.set b (.filling r c.post), filling := c.filling.set (stationIx d st) (some b),
                          nextSeq := c.nextSeq + 1 } ∧
    (t.station d st).inFlight = true ∧ r.sequence = c.nextSeq ∧ r.duct = d ∧ r.station = st ∧ r.origin = o ∧
    r.confirm = s.tick ∧ r.channels = all.take (min all.length (blockSize c.layout / (c.pre + c.post))) ∧
    r.preHeld = (rings.map List.length).foldl min c.pre ∧ r.post = c.post ∧ r.extra = 0 ∧
    r.words = (List.range r.preHeld).flatMap (fun i => rings.map fun l => (l.drop (l.length - r.preHeld)).getD i 0) ∧
    (∀ i : Fin 8, ∀ u ∈ D.tracks[i.val]?, Fits st o u → (∀ v ∈ D.tracks.take i.val, ¬Fits st o v) →
      r.trackId = some u.id ∧ r.matched = true ∧ r.vHi = u.vHi ∧ r.vLo = u.vLo) ∧
    ((∀ u ∈ D.tracks, ¬Fits st o u) → r.matched = false ∧ r.vHi = D.vel.bounds.vHi ∧ r.vLo = D.vel.bounds.vLo ∧
      (8 ≤ D.tracks.length → r.trackId = none) ∧
      (D.tracks.length < 8 → ∃ y ∈ (t.duct d).tracks, (∀ u ∈ D.tracks, u.id ≠ y.id) ∧ r.trackId = some y.id ∧
        y.capture = some c.nextSeq))

/-! ### The records of the answers (R191) -/

/-- A number of two bytes (R190). -/
def twoBytes (n : Nat) : List Byte := le16 (BitVec.ofNat 16 n)

/-- A number of four bytes (R190). -/
def fourBytes (n : Nat) : List Byte := le32 (BitVec.ofNat 32 n)

/-- A flag (R190). -/
def bitByte (b : Bool) : Byte := if b then 1 else 0

/-- An optional field of `n` bytes: a presence byte, and the field or zeros in its full size (R190). -/
def presence (n : Nat) (field : Option (List Byte)) : List Byte :=
  match field with
  | none => 0 :: List.replicate n 0
  | some l => 1 :: l

/-- An optional tick with its presence byte. -/
def tickBytes (t : Option Tick) : List Byte := presence 4 (t.map le32)

/-- The zone summary, 8 bytes: kind, level, latch, acknowledged set, tag, number of cause records, number of trouble items (R15,
R191). -/
def zoneBytes (s : State) (z : Fin 16) : List Byte :=
  let x := s.zone z
  [byteOf x.kind.num, byteOf x.level.num, bitByte x.latch, byteOf ((if x.acked.fp then 1 else 0) + if x.acked.pc then 2 else 0)] ++
    le16 x.tag ++ [byteOf ((List.finRange 13).filter fun i => decide (x.causes[i] ≠ .normal)).length, byteOf x.troubles.length]

/-- What follows it for one zone: the cause records of 3 bytes, of the zone's own duct (kinds 0 to 2), the inputs (3) and the declaring
ports (4), and then the trouble items of 2 bytes (R15, R191). -/
def zoneListBytes (s : State) (z : Fin 16) : List Byte :=
  let x := s.zone z
  ((List.finRange 13).filter fun i => decide (x.causes[i] ≠ .normal)).flatMap (fun i =>
    (if i.val < 3 then [byteOf i.val, byteOf (z.val + 1)]
      else if i.val < 11 then [3, byteOf (i.val - 3)] else [4, byteOf (i.val - 11)]) ++ [byteOf x.causes[i].num]) ++
    x.troubles.flatMap fun t => [byteOf t.kind.num, byteOf t.subject]

/-- Duct state, stop kind, stop cause and asserted level, 4 bytes (R191). -/
def ductStateBytes (s : State) (d : Fin 4) : List Byte := byteOf (s.ctl d).state.num :: stopBytes (s.ctl d).stop

/-- The valve entries of a duct's record: a count, and 9 bytes for each installed valve (R191). -/
def valveListBytes (s : State) (d : Fin 4) : List Byte :=
  let l := (List.finRange 2).filter fun v => (s.valveCfg d v).installed
  byteOf l.length :: l.flatMap fun v =>
    let x := s.valve d v
    [byteOf v.val, byteOf x.state.num, bitByte x.output, bitByte x.flow, bitByte x.confirmed] ++ le32 x.openTick

/-- The gate of a duct's record, 12 bytes (R191). -/
def gateBytes (g : Gate) : List Byte :=
  [byteOf g.state.num, bitByte g.openSwitch, bitByte g.closedSwitch] ++ le32 g.cmdTick ++ tickBytes g.timer

/-- The duct record (R112, R191). -/
def ductBytes (s : State) (d : Fin 4) : List Byte :=
  let D := s.duct d
  let k := s.ductCfg d
  let c := s.ctl d
  let b := D.vel.bounds
  ductStateBytes s d ++
    tickBytes c.start ++ tickBytes c.arm ++ tickBytes c.rate ++ tickBytes c.quiet ++ tickBytes c.lowFlow ++ tickBytes c.purge ++
    [byteOf c.cleanCount, bitByte c.windowClean, byteOf c.rateCount, bitByte c.listMark, bitByte c.feeder, bitByte c.fan] ++
    [byteOf D.vel.state.num] ++ twoBytes D.vel.value ++ [byteOf D.vel.recovery] ++
    [bitByte b.blind] ++ twoBytes b.vHi ++ twoBytes b.vLo ++ fourBytes b.pHi ++ fourBytes b.pLo ++
    valveListBytes s d ++ presence 12 (if k.gate.installed then some (gateBytes D.gate) else none) ++ tickBytes D.flood ++
    (match D.test with
      | none => [0xFF, 0, 0, 0, 0, 0]
      | some r => [byteOf r.valve.val, 1] ++ le32 r.until_) ++
    le16 k.served ++ twoBytes k.startTime ++ twoBytes k.purgeTime ++ twoBytes k.lowFlowGrace ++ twoBytes k.quietTime

/-- The track summary, 22 bytes (R72, R191). -/
def trackBytes (t : Track) : List Byte :=
  [t.id, byteOf t.station.val] ++ le32 t.origin ++ le32 t.confirm ++
    [byteOf ((if t.blind then 1 else 0) + if t.quenched then 0 else 2)] ++
    byteOf t.matched.length :: (t.matched.map (fun m => byteOf m.val) ++ List.replicate (3 - t.matched.length) 0xFF) ++
    presence 2 (t.capture.map le16) ++ le32 t.retire

/-- A track's full record: the summary, the bounds, the valve entries, the gate entry with the margin that the gate gives at present,
and the station entries (R72, R191). -/
def trackFullBytes (s : State) (d : Fin 4) (t : Track) : List Byte :=
  let g := s.gate d
  let stroke := 4 * (s.gateCfg d).stroke
  trackBytes t ++ twoBytes t.vHi ++ twoBytes t.vLo ++
    byteOf t.valves.length :: t.valves.flatMap (fun e =>
      byteOf e.valve.val :: (fourBytes e.te ++ fourBytes e.tl ++ le32 e.openTick ++ le32 e.closeTick ++ [bitByte e.late])) ++
    presence 13 (t.gate.map fun e => fourBytes e.te ++ le32 e.deadline ++ tickBytes (match g.state with
      | .opened => some (e.deadline - s.tick.plus stroke)
      | .closing => some (e.deadline - g.cmdTick.plus stroke)
      | .closed | .opening | .fault => none)) ++
    byteOf t.stations.length :: t.stations.flatMap (fun e =>
      byteOf e.station.val :: (fourBytes e.te ++ fourBytes e.tl ++ le32 e.winBegin ++ le32 e.winEnd ++
        [bitByte (t.matched.any fun m => decide (m = e.station))]))

/-- A channel's summary: in full 19 bytes, in short 13 without base threshold, low count and clean count (R40, R191). An UNUSED
channel's base threshold goes as 0, the model's choice (Assumption 29). -/
def channelBytes (s : State) (full : Bool) (c : Fin 16) : List Byte :=
  let x := s.channel c
  let place :=
    match s.cfg.channels[c] with
    | none => [0xFF] ++ if full then [0, 0] else []
    | some k => [byteOf (16 * (k.duct.val + 1) + k.station.val)] ++ if full then twoBytes k.threshold else []
  let state :=
    match x.state with
    | .unused => [0, 0xFF]
    | .active => [1, 0xFF]
    | .isolated => [2, 0xFF]
    | .fault .stuck => [3, 0]
    | .fault .dead => [3, 1]
  place ++ twoBytes x.effective ++ state ++ twoBytes x.run ++ [bitByte x.qualified] ++
    (if full then twoBytes x.low ++ twoBytes x.clean else []) ++ twoBytes x.flash ++
    presence 2 (x.ring.getLast?.map fun w => twoBytes w.toNat)

/-- What follows the full summary of a configured channel: its station's coincidence requirement and dead-time count, and its ring as a
list (R40, R191). -/
def channelListBytes (s : State) (c : Fin 16) : List Byte :=
  match s.cfg.channels[c] with
  | none => []
  | some k =>
    let l := (s.channel c).ring
    [byteOf (min (s.ductCfg k.duct).base.coincidence (activeCount s k.duct k.station - 1)),
      byteOf (s.station k.duct k.station).dead, byteOf l.length] ++ l.flatMap fun w => twoBytes w.toNat

/-- The overlay record (R123, R191): the base set, the entries from the top down, and the effective set laid out as the base set. -/
def overlayBytes (s : State) (d : Fin 4) : List Byte :=
  let b := (s.ductCfg d).base
  let l := (s.duct d).overlays
  let set := fun p : RateParams =>
    twoBytes p.offset ++ [byteOf p.nq, byteOf b.coincidence, byteOf b.deadTime] ++ twoBytes b.stuckLimit ++
      [byteOf p.alert, byteOf p.shutdown, byteOf p.alertShutdown] ++ twoBytes p.window
  set b.rate ++
    byteOf l.length :: l.flatMap (fun e : Overlay =>
      byteOf (portIx e.owner).val :: (le32 (e.expiry >>> 2) ++ twoBytes e.params.offset ++
        [byteOf e.params.nq, byteOf e.params.alert, byteOf e.params.shutdown, byteOf e.params.alertShutdown] ++
        twoBytes e.params.window)) ++
    set (paramsUnder s d l)

/-- Door state, release cause and hold set, 13 bytes (R191). -/
def doorStateBytes (s : State) (i : Fin 12) : List Byte :=
  [byteOf (s.door i).state.num, causeByte (s.door i).cause] ++ holdBytes (s.door i)

/-- The door summary, 14 bytes: state, release cause, hold set, and the flags of magnet, closed switch, barrier, DOOR_STUCK and
DOOR_PROPPED (R140, R191). -/
def doorBytes (s : State) (i : Fin 12) : List Byte :=
  let x := s.door i
  let raised := fun (kind : TroubleKind) => match lowestZone s.cfg.doors[i].zones with
    | none => false
    | some z => decide ((⟨kind, i.val⟩ : Trouble) ∈ (s.zone z).troubles)
  doorStateBytes s i ++ [byteOf ((if x.magnet then 1 else 0) + (if x.closedSwitch then 2 else 0) + (if x.barrier then 4 else 0) +
    (if raised .doorStuck then 8 else 0) + if raised .doorPropped then 16 else 0)]

/-- What follows it for one door: its configured values, and the expiry of its running timer on the millisecond clock (R140). -/
def doorListBytes (s : State) (i : Fin 12) : List Byte :=
  let x := s.door i
  let k := s.cfg.doors[i]
  le16 k.zones ++ [bitByte k.closeOnAlarm] ++ twoBytes k.obstruction ++ twoBytes k.closeTime ++ twoBytes k.proppedTime ++
    tickBytes ((x.obstruction.or (x.close.or x.propped)).map fun t : Tick => t >>> 2)

/-- Demand and sounding flag of the eight sirens, and the units in use, 17 bytes (R191). -/
def sirenStateBytes (s : State) : List Byte :=
  (List.finRange 8).flatMap (fun i => [patternByte s.arbiter.sirens[i].demand, bitByte s.arbiter.sirens[i].sounding]) ++
    [byteOf s.arbiter.units]

/-- The siren summary, 22 bytes: an absent manual demand has pattern 0xFF, an end that does not run is 0 (R156, R191). -/
def sirenBytes (x : Siren) : List Byte :=
  let manual := fun (m : Option Manual) => match m with
    | none => [0xFF, 0, 0, 0, 0]
    | some y => byteOf y.pattern.num :: le32 (y.until_ >>> 2)
  let ends := fun (t : Option Tick) => match t with
    | none => [0, 0, 0, 0]
    | some e => le32 (e >>> 2)
  [patternByte x.demand, byteOf ((if x.sounding then 1 else 0) + (if x.drive then 2 else 0) +
    (if x.allClear.isSome then 4 else 0) + if x.test.isSome then 8 else 0)] ++
    manual x.manualFp ++ manual x.manualPc ++ le16 x.snapshot ++ ends x.allClear ++ ends x.test

/-- The header of every READ_SIRENS answer, 10 bytes; the cadence phase is 0 ON and 1 OFF (R156, R191; Assumption 29). -/
def sirenHeaderBytes (s : State) : List Byte :=
  let a := s.arbiter
  [byteOf s.cfg.budget, byteOf a.units, byteOf a.pointer.val, (match a.mark with | none => 0xFF | some i => byteOf i.val)] ++
    tickBytes a.slot ++ [if a.phaseOn then 0 else 1]

/-- The capture header, 26 bytes (R161, R191). -/
def captureBytes (r : Capture) : List Byte :=
  le16 r.sequence ++ [byteOf (16 * (r.duct.val + 1) + r.station.val)] ++ le32 r.origin ++ le32 r.confirm ++
    [(match r.trackId with | none => 0xFF | some i => i), bitByte r.matched] ++
    byteOf r.channels.length :: (r.channels.map (fun q => byteOf q.val) ++ List.replicate (4 - r.channels.length) 0xFF) ++
    [byteOf r.preHeld] ++ twoBytes r.post ++ [byteOf r.extra] ++ twoBytes r.vHi ++ twoBytes r.vLo

/-- The notice record, 24 bytes (R191). -/
def noticeBytes (n : Notice) : List Byte :=
  le16 n.sequence ++ le32 n.time ++ [byteOf n.kind.num, n.subject, n.old, n.new, n.cause, bitByte n.urgent] ++ n.detail

/-! ### The configuration image (R184, R192) -/

/-- A byte of the image as a number. -/
def imageByte (m : List Host.Cell) (o : Nat) : Nat := (readCell m o).toNat

/-- A two-byte field of the image, low byte first. -/
def imageWord (m : List Host.Cell) (o : Nat) : Nat := imageByte m o + 256 * imageByte m (o + 1)

/-- Every configured value of the image lies in the range that its chapter gives (R184; R2, R17, R21, R42, R62, R74, R91, R114, R125,
R142, R158, R159, R181; Assumption 30). -/
def ValuesInRange (m : List Host.Cell) : Prop :=
  let b := imageByte m
  let w := imageWord m
  let valve := fun o : Nat => b o ≤ 1 ∧ w (o + 1) ≤ 20000 ∧ w (o + 3) ≤ 1000 ∧ 100 ≤ w (o + 5) ∧ w (o + 5) ≤ 10000 ∧
    100 ≤ w (o + 7) ∧ w (o + 7) ≤ 2000
  (∀ i : Fin 12, 1 ≤ b (4 + i.val) ∧ b (4 + i.val) ≤ 5) ∧
    (∀ i : Fin 8, let o := 17 + 4 * i.val
      (b o ≤ 15 ∨ b o = 255) ∧ 1 ≤ b (o + 1) ∧ b (o + 1) ≤ 3 ∧ 50 ≤ w (o + 2) ∧ w (o + 2) ≤ 2000) ∧
    (∀ i : Fin 16, let o := 50 + 3 * i.val
      ((1 ≤ b o / 16 ∧ b o / 16 ≤ 4 ∧ b o % 16 ≤ 3) ∨ b o = 255) ∧ 1 ≤ w (o + 1) ∧ w (o + 1) ≤ 4095) ∧
    (∀ i : Fin 16, w (99 + 2 * i.val) ≤ 20000 ∨ w (99 + 2 * i.val) = 65535) ∧
    (∀ d : Fin 4, let o := 132 + 6 * d.val
      100 ≤ w o ∧ w o ≤ 600 ∧ w (o + 2) ≤ 50 ∧ 50 ≤ w (o + 4) ∧ w (o + 4) ≤ 300) ∧
    (∀ d : Fin 4, let o := 157 + 25 * d.val
      valve o ∧ valve (o + 9) ∧ b (o + 18) ≤ 1 ∧ w (o + 19) ≤ 20000 ∧ 100 ≤ w (o + 21) ∧ w (o + 21) ≤ 5000 ∧
        1 ≤ w (o + 23) ∧ w (o + 23) ≤ 60) ∧
    (∀ d : Fin 4, w (258 + 2 * d.val) ≤ 100) ∧
    (∀ d : Fin 4, let o := 267 + 10 * d.val
      5 ≤ w (o + 2) ∧ w (o + 2) ≤ 120 ∧ w (o + 4) ≤ 120 ∧ 1 ≤ w (o + 6) ∧ w (o + 6) ≤ 30 ∧ 5 ≤ w (o + 8) ∧
        w (o + 8) ≤ 600) ∧
    (∀ d : Fin 4, let o := 308 + 10 * d.val
      1 ≤ b o ∧ b o ≤ 16 ∧ b (o + 1) ≤ 3 ∧ 1 ≤ w (o + 3) ∧ w (o + 3) ≤ 10 ∧ 1 ≤ w (o + 8) ∧ w (o + 8) ≤ 60) ∧
    (∀ i : Fin 12, let o := 349 + 9 * i.val
      w o ≠ 0 ∧ b (o + 2) ≤ 1 ∧ w (o + 3) ≤ 30 ∧ 5 ≤ w (o + 5) ∧ w (o + 5) ≤ 60 ∧ 10 ≤ w (o + 7) ∧ w (o + 7) ≤ 600) ∧
    (1 ≤ b 458 ∧ b 458 ≤ 16 ∧ 1 ≤ w 459 ∧ w 459 ≤ 10 ∧ 5 ≤ w 461 ∧ w 461 ≤ 60) ∧
    (∀ i : Fin 8, 1 ≤ b (466 + 3 * i.val) ∧ b (466 + 3 * i.val) ≤ 4) ∧
    (b 489 ≤ 2 ∧ b 490 ≤ 64 ∧ 1 ≤ w 491 ∧ w 491 ≤ 448 ∧ 1 ≤ b 493 ∧ b 493 ≤ 64) ∧
    (∀ i : Fin 3, let o := 495 + 4 * i.val
      1 ≤ b (o + 1) ∧ b (o + 1) ≤ 32 ∧ 10 ≤ w (o + 2) ∧ w (o + 2) ≤ 5000)

/-- An image fails a check of R184, from the store's bytes at the offsets of R192. -/
def CheckFails (m : List Host.Cell) (code : CheckCode) : Prop :=
  let b := imageByte m
  let w := imageWord m
  match code with
  | .crc => crc16 ((List.range 1022).map (readCell m)) ≠ readCell m 1023 ++ readCell m 1022
  | .magic => b 0 ≠ 0x43 ∨ b 1 ≠ 0x58
  | .version => b 2 ≠ 1
  | .sections =>
    ¬(b 3 = 12 ∧ b 16 = 8 ∧ b 49 = 16 ∧ b 98 = 16 ∧ b 131 = 4 ∧ b 156 = 4 ∧ b 257 = 4 ∧ b 266 = 4 ∧ b 307 = 4 ∧ b 348 = 12 ∧
      b 457 = 1 ∧ b 463 = 8 ∧ b 488 = 1 ∧ b 494 = 3)
  | .fieldRange => ¬ValuesInRange m
  | .servedMask => ∃ d : Fin 4, w (267 + 10 * d.val) % 16 ≠ 0
  | .channelStation =>
    ∃ d st : Fin 4,
      let mine := (List.finRange 16).filter fun c => decide (b (50 + 3 * c.val) = 16 * (d.val + 1) + st.val)
      4 < mine.length ∨ (mine ≠ [] ∧ w (99 + 2 * (4 * d.val + st.val)) = 65535)
  | .sirenWeight => ∃ i : Fin 8, b 458 < b (466 + 3 * i.val)
  | .captureFit => (if b 489 = 0 then 512 else if b 489 = 1 then 256 else 128) < b 490 + w 491

/-- The place of a check in the order of R184, from 1 on; it is the check's code in the identification too (R191). -/
def checkPlace : CheckCode → Nat
  | .crc => 1 | .magic => 2 | .version => 3 | .sections => 4 | .fieldRange => 5 | .servedMask => 6 | .channelStation => 7
  | .sirenWeight => 8 | .captureFit => 9

/-- The first check of R184 that an image fails. -/
def FirstFailing (m : List Host.Cell) (code : CheckCode) : Prop :=
  CheckFails m code ∧ ∀ c : CheckCode, checkPlace c < checkPlace code → ¬CheckFails m c

/-- The configured values are those of the image, each at its offset of R192. -/
def ConfigRead (m : List Host.Cell) (k : Cfg) : Prop :=
  let b := imageByte m
  let w := imageWord m
  let flag := fun o : Nat => decide (b o = 1)
  let mask := fun o : Nat => readCell m (o + 1) ++ readCell m o
  let valve := fun o : Nat => (⟨flag o, w (o + 1), w (o + 3), w (o + 5), w (o + 7)⟩ : ValveCfg)
  (∀ i : Fin 12, k.zoneKinds[i].num = b (4 + i.val)) ∧
    (∀ i : Fin 8, let o := 17 + 4 * i.val
      k.inputs[i].zone.map Fin.val = (if b o = 255 then none else some (b o)) ∧ k.inputs[i].level.num = b (o + 1) ∧
        k.inputs[i].debounce = w (o + 2)) ∧
    (∀ i : Fin 16, let o := 50 + 3 * i.val
      (k.channels[i] = none ↔ b o = 255) ∧
        ∀ x ∈ k.channels[i], b o = 16 * (x.duct.val + 1) + x.station.val ∧ x.threshold = w (o + 1)) ∧
    (∀ i : Fin 16, k.positions[i] = if w (99 + 2 * i.val) = 65535 then none else some (w (99 + 2 * i.val))) ∧
    (∀ d : Fin 4,
      let v := 132 + 6 * d.val
      let q := 157 + 25 * d.val
      let c := 267 + 10 * d.val
      let p := 308 + 10 * d.val
      k.ducts[d] = {
        span := w v, tol := w (v + 2), lmin := w (v + 4), valves := #v[valve q, valve (q + 9)],
        gate := ⟨flag (q + 18), w (q + 19), w (q + 21)⟩, floodTime := w (q + 23), margin := w (258 + 2 * d.val),
        served := mask c, startTime := w (c + 2), purgeTime := w (c + 4), lowFlowGrace := w (c + 6), quietTime := w (c + 8),
        base := ⟨⟨0, b p, b (p + 5), b (p + 6), b (p + 7), w (p + 8)⟩, b (p + 1), b (p + 2), w (p + 3)⟩ }) ∧
    (∀ i : Fin 12, let o := 349 + 9 * i.val
      k.doors[i] = ⟨mask o, flag (o + 2), w (o + 3), w (o + 5), w (o + 7)⟩) ∧
    k.budget = b 458 ∧ k.slotLength = w 459 ∧ k.allClearTime = w 461 ∧
    (∀ i : Fin 8, let o := 464 + 3 * i.val
      k.sirens[i] = ⟨mask o, b (o + 2)⟩) ∧
    k.layout.val = b 489 ∧ k.pre = b 490 ∧ k.post = w 491 ∧ k.readyThreshold = b 493 ∧
    (∀ i : Fin 3, let o := 495 + 4 * i.val
      k.ports[i] = ⟨readCell m o, b (o + 1), w (o + 2)⟩)

/-! ### Requests as commands and as frames -/

/-- The request of a command: its port, its number and its code (13.2). -/
def requestOf : Instr → Option (Port × Byte × Byte)
  | .unknownRequest p n code => some (p, n, code)
  | .readIdent p n => some (p, n, codeReadIdent)
  | .readZones p n _ => some (p, n, codeReadZones)
  | .ackZone p n _ _ => some (p, n, codeAckZone)
  | .declare p n _ _ => some (p, n, codeDeclare)
  | .withdraw p n _ => some (p, n, codeWithdraw)
  | .resetZone p n _ _ => some (p, n, codeResetZone)
  | .readDuct p n _ => some (p, n, codeReadDuct)
  | .startDuct p n _ => some (p, n, codeStartDuct)
  | .stopDuct p n _ => some (p, n, codeStopDuct)
  | .resetDuct p n _ => some (p, n, codeResetDuct)
  | .readTracks p n _ _ => some (p, n, codeReadTracks)
  | .readChannels p n _ => some (p, n, codeReadChannels)
  | .isolateChannel p n _ => some (p, n, codeIsolateChannel)
  | .restoreChannel p n _ => some (p, n, codeRestoreChannel)
  | .clearChannelFault p n _ => some (p, n, codeClearChannelFault)
  | .testValve p n _ _ _ => some (p, n, codeTestValve)
  | .readOverlays p n _ => some (p, n, codeReadOverlays)
  | .pushOverlay p n _ _ _ _ _ _ _ _ => some (p, n, codePushOverlay)
  | .popOverlay p n _ => some (p, n, codePopOverlay)
  | .readDoors p n _ => some (p, n, codeReadDoors)
  | .holdDoor p n _ _ => some (p, n, codeHoldDoor)
  | .unholdDoor p n _ => some (p, n, codeUnholdDoor)
  | .closeDoor p n _ => some (p, n, codeCloseDoor)
  | .readSirens p n _ => some (p, n, codeReadSirens)
  | .soundSiren p n _ _ _ => some (p, n, codeSoundSiren)
  | .stopSound p n _ => some (p, n, codeStopSound)
  | .silence p n _ => some (p, n, codeSilence)
  | .testSirens p n _ => some (p, n, codeTestSirens)
  | .readCapture p n _ _ _ _ => some (p, n, codeReadCapture)
  | .freeCaptures p n _ _ => some (p, n, codeFreeCaptures)
  | .setCaptureLayout p n _ _ _ => some (p, n, codeSetCaptureLayout)
  | .fetchNotices p n _ => some (p, n, codeFetchNotices)
  | .setSubscription p n _ => some (p, n, codeSetSubscription)
  | .setCoalescing p n _ _ => some (p, n, codeSetCoalescing)
  | .readStore p n _ => some (p, n, codeReadStore)
  | .writeStore p n _ _ => some (p, n, codeWriteStore)
  | .restart p n => some (p, n, codeRestart)
  | _ => none

/-- The operands of a request as its frame carries them, in order, each by its type (R190). -/
def requestPayload : Instr → List Byte
  | .readZones _ _ z => [z]
  | .ackZone _ _ z tag => z :: le16 tag
  | .declare _ _ z l => [z, l]
  | .withdraw _ _ z => [z]
  | .resetZone _ _ z tag => z :: le16 tag
  | .readDuct _ _ d => [d]
  | .startDuct _ _ d => [d]
  | .stopDuct _ _ d => [d]
  | .resetDuct _ _ d => [d]
  | .readTracks _ _ d position => [d, position]
  | .readChannels _ _ c => [c]
  | .isolateChannel _ _ c => [c]
  | .restoreChannel _ _ c => [c]
  | .clearChannelFault _ _ c => [c]
  | .testValve _ _ d v seconds => d :: v :: le16 seconds
  | .readOverlays _ _ d => [d]
  | .pushOverlay _ _ d duration offset nq a b c window =>
    d :: (le16 duration ++ le16 offset ++ [nq, a, b, c] ++ le16 window)
  | .popOverlay _ _ d => [d]
  | .readDoors _ _ i => [i]
  | .holdDoor _ _ i seconds => i :: le16 seconds
  | .unholdDoor _ _ i => [i]
  | .closeDoor _ _ i => [i]
  | .readSirens _ _ i => [i]
  | .soundSiren _ _ mask pattern seconds => mask :: pattern :: le16 seconds
  | .stopSound _ _ mask => [mask]
  | .silence _ _ mask => [mask]
  | .testSirens _ _ mask => [mask]
  | .readCapture _ _ index part offset count => index :: part :: (le16 offset ++ [count])
  | .freeCaptures _ _ num oldest => num :: le16 oldest
  | .setCaptureLayout _ _ layout pre post => layout :: pre :: le16 post
  | .fetchNotices _ _ count => [count]
  | .setSubscription _ _ mask => [mask]
  | .setCoalescing _ _ threshold age => threshold :: le16 age
  | .readStore _ _ offset => le16 offset
  | .writeStore _ _ offset bytes => le16 offset ++ bytes.toList
  | _ => []

/-- The port may not make this request, or not with this operand value: the catalogue of 11.4 with R7, R36, R88, R94, R118,
R119, R128, R145, R167, R186 and R187. -/
def deniedTo : Instr → Bool
  | .ackZone p _ _ _ | .withdraw p _ _ | .startDuct p _ _ | .stopDuct p _ _ | .resetDuct p _ _
  | .pushOverlay p _ _ _ _ _ _ _ _ _ | .popOverlay p _ _ | .holdDoor p _ _ _ | .unholdDoor p _ _ | .closeDoor p _ _
  | .stopSound p _ _ => decide (p = .sv)
  | .declare p _ _ level =>
    match p with
    | .fp => decide (level ≠ 2 ∧ level ≠ 3)
    | .pc => decide (level ≠ 1 ∧ level ≠ 2)
    | .sv => true
  | .soundSiren p _ _ pattern _ =>
    match p with
    | .fp => decide (pattern ≠ 0 ∧ pattern ≠ 1)
    | .pc => decide (pattern ≠ 1)
    | .sv => true
  | .resetZone p _ _ _ | .silence p _ _ | .restart p _ => decide (p ≠ .fp)
  | .restoreChannel p _ _ | .clearChannelFault p _ _ => decide (p = .pc)
  | .isolateChannel p _ _ | .testValve p _ _ _ _ | .testSirens p _ _ | .setCaptureLayout p _ _ _ _
  | .writeStore p _ _ _ => decide (p ≠ .sv)
  | _ => false

/-- The request needs the key switch closed: the catalogue of 11.4 (R36, R88, R149, R167, R186). -/
def needsKey : Instr → Bool
  | .isolateChannel p _ _ | .restoreChannel p _ _ | .clearChannelFault p _ _ | .testValve p _ _ _ _ | .testSirens p _ _
  | .setCaptureLayout p _ _ _ _ | .writeStore p _ _ _ => decide (p = .sv)
  | _ => false

/-- Every operand of the request that is not clamped lies in its range (R7, R15, R36, R40, R72, R88, R94, R118, R128, R140, R145,
R156, R165 to R167, R181, R186). -/
def operandsInRange (s : State) : Instr → Bool
  | .readZones _ _ z => decide (z.toNat < 16) || decide (z = 255)
  | .ackZone _ _ z _ | .declare _ _ z _ | .withdraw _ _ z | .resetZone _ _ z _ => decide (z.toNat < 16)
  | .readDuct _ _ d | .startDuct _ _ d | .stopDuct _ _ d | .resetDuct _ _ d | .readOverlays _ _ d | .popOverlay _ _ d =>
    decide (1 ≤ d.toNat ∧ d.toNat ≤ 4)
  | .readTracks _ _ d position => decide (1 ≤ d.toNat ∧ d.toNat ≤ 4) && (decide (position.toNat < 8) || decide (position = 255))
  | .readChannels _ _ c => decide (c.toNat < 16) || decide (c = 255)
  | .isolateChannel _ _ c | .restoreChannel _ _ c | .clearChannelFault _ _ c => decide (c.toNat < 16)
  | .testValve _ _ d v _ => decide (1 ≤ d.toNat ∧ d.toNat ≤ 4) && decide (v.toNat < 2)
  | .pushOverlay _ _ d _ offset nq _ _ _ window =>
    decide (1 ≤ d.toNat ∧ d.toNat ≤ 4) && decide (offset.toNat ≤ 1023) && decide (1 ≤ nq.toNat ∧ nq.toNat ≤ 16) &&
      decide (1 ≤ window.toNat ∧ window.toNat ≤ 60)
  | .readDoors _ _ i => decide (i.toNat < 12) || decide (i = 255)
  | .holdDoor _ _ i _ | .unholdDoor _ _ i | .closeDoor _ _ i => decide (i.toNat < 12)
  | .readSirens _ _ i => decide (i.toNat < 8) || decide (i = 255)
  | .soundSiren _ _ mask _ _ | .stopSound _ _ mask | .silence _ _ mask | .testSirens _ _ mask => decide (mask ≠ 0)
  | .readCapture _ _ index part _ _ => (s.captures.storedRecord index.toNat).isSome && decide (part.toNat ≤ 1)
  | .freeCaptures _ _ num _ => decide (1 ≤ num.toNat ∧ num.toNat ≤ s.captures.stored.length)
  | .setCaptureLayout _ _ layout pre post =>
    decide (pre.toNat ≤ 64) && decide (1 ≤ post.toNat ∧ post.toNat ≤ 448) &&
      ((decide (layout = 0) && decide (pre.toNat + post.toNat ≤ 512)) ||
        (decide (layout = 1) && decide (pre.toNat + post.toNat ≤ 256)) ||
        (decide (layout = 2) && decide (pre.toNat + post.toNat ≤ 128)))
  | .setCoalescing _ _ threshold age =>
    decide (1 ≤ threshold.toNat ∧ threshold.toNat ≤ 32) && decide (10 ≤ age.toNat ∧ age.toNat ≤ 5000)
  | .readStore _ _ offset => decide (offset.toNat ≤ 4064)
  | .writeStore _ _ offset _ => decide (offset.toNat ≤ 4064) && decide (offset.toNat % 32 = 0)
  | _ => true

/-- The tag or sequence that the request gives is the one that the part holds (R8, R11, R166). -/
def tagsAgree (s : State) : Instr → Bool
  | .ackZone _ _ z tag | .resetZone _ _ z tag =>
    (List.finRange 16).all fun i => decide (z.toNat ≠ i.val) || decide (tag = (s.zone i).tag)
  | .freeCaptures _ _ _ oldest => decide (s.captures.oldestSequence = some oldest)
  | _ => true

/-- The requests that are answered in other load states than RUNNING too: READ_IDENT, the store requests and RESTART (R185). -/
def servedInEveryState : Instr → Bool
  | .readIdent _ _ | .readStore _ _ _ | .writeStore _ _ _ _ | .restart _ _ => true
  | _ => false

/-- What the state of the part makes, while RUNNING, of a request that passes the checks of places 1 to 6: the refusal of place 7 or 8
that it meets, or none (R174, with each request's own rule: R10, R11, R37 to R39, R72, R88, R95, R110, R111, R118, R119, R129, R131,
R147, R149, R167, R186, R187). RESET_DUCT from PC is DENIED by the duct's state (R94). -/
def barred (s : State) : Instr → Option Result
  | .withdraw p _ z =>
    if ∃ i : Fin 16, z.toNat = i.val ∧ (s.zone i).causes[(CauseKey.declaration p).ix] = .normal then some .noData else none
  | .resetZone _ _ z _ =>
    if ∃ i : Fin 16, z.toNat = i.val ∧ ((s.zone i).latch = false ∨ ∃ k : Fin 13, (s.zone i).causes[k] = .fire) then some .notNow
    else none
  | .readTracks _ _ d position =>
    if ∃ e : Fin 4, d.toNat = e.val + 1 ∧ position ≠ 255 ∧ (s.duct e).tracks.length ≤ position.toNat then some .noData else none
  | .startDuct _ _ d =>
    if ∃ e : Fin 4, d.toNat = e.val + 1 ∧ ((s.ctl e).state ≠ .offline ∨
        (s.zone (ductZone e)).level = .alarm ∨ (s.zone (ductZone e)).level = .fire ∨
        ∃ z : Fin 16, zoneIn (s.ductCfg e).served z = true ∧ (s.zone z).level = .fire) then some .notNow
    else none
  | .stopDuct _ _ d =>
    if ∃ e : Fin 4, d.toNat = e.val + 1 ∧ ((s.ctl e).state = .offline ∨ (s.ctl e).state = .stopped) then some .notNow else none
  | .resetDuct p _ d =>
    if ∃ e : Fin 4, d.toNat = e.val + 1 ∧ p = .pc ∧ (s.ctl e).state = .stopped ∧ ∃ x ∈ (s.ctl e).stop, x.kind = .fire then
      some .denied
    else if ∃ e : Fin 4, d.toNat = e.val + 1 ∧ ((s.ctl e).state ≠ .stopped ∨ (s.ctl e).listMark = true ∨
        ((s.zone (ductZone e)).latch = true ∧ ∀ x ∈ (s.ctl e).stop, x.level ≠ .fire)) then some .notNow
    else none
  | .isolateChannel _ _ c =>
    if ∃ i : Fin 16, c.toNat = i.val ∧ (s.cfg.channels[i] = none ∨ (s.channel i).state = .unused) then some .notNow else none
  | .restoreChannel _ _ c =>
    if ∃ i : Fin 16, c.toNat = i.val ∧ (s.cfg.channels[i] = none ∨ (s.channel i).state ≠ .isolated) then some .notNow else none
  | .clearChannelFault _ _ c =>
    if ∃ i : Fin 16, c.toNat = i.val ∧ (s.cfg.channels[i] = none ∨
        ((s.channel i).state ≠ .fault .stuck ∧ (s.channel i).state ≠ .fault .dead) ∨ (s.channel i).clean ≠ 400) then some .notNow
    else none
  | .testValve _ _ d v _ =>
    if ∃ (e : Fin 4) (k : Fin 2), d.toNat = e.val + 1 ∧ v.toNat = k.val ∧
        (((s.ctl e).state ≠ .offline ∧ (s.ctl e).state ≠ .stopped) ∨ (s.duct e).tracks ≠ [] ∨
          (s.valveCfg e k).installed = false ∨ (s.duct e).test.isSome = true) then some .notNow
    else none
  | .pushOverlay _ _ d _ _ _ _ _ _ _ =>
    if ∃ e : Fin 4, d.toNat = e.val + 1 ∧ ((s.zone (ductZone e)).level = .alarm ∨ (s.zone (ductZone e)).level = .fire) then
      some .notNow
    else if ∃ e : Fin 4, d.toNat = e.val + 1 ∧ 4 ≤ (s.duct e).overlays.length then some .stackFull
    else none
  | .popOverlay p _ d =>
    if ∃ e : Fin 4, d.toNat = e.val + 1 ∧ (s.duct e).overlays = [] then some .stackEmpty
    else if ∃ e : Fin 4, d.toNat = e.val + 1 ∧ p = .pc ∧ ∃ x ∈ (s.duct e).overlays.head?, x.owner ≠ .pc then some .notOwner
    else none
  | .holdDoor _ _ i _ =>
    if ∃ j : Fin 12, i.toNat = j.val ∧
        ((∃ z : Fin 16, zoneIn s.cfg.doors[j].zones z = true ∧
          ((s.zone z).level = .fire ∨ (s.cfg.doors[j].closeOnAlarm = true ∧ (s.zone z).level = .alarm))) ∨
        (s.door j).state = .closing ∨ (s.door j).state = .stuck ∨
        ((s.door j).state = .releaseWait ∧ (s.door j).cause ≠ some .holdExpired ∧ (s.door j).cause ≠ some .holdWithdrawn ∧
          (s.door j).cause ≠ some .closeRequest)) then some .notNow
    else none
  | .unholdDoor p _ i =>
    if ∃ j : Fin 12, i.toNat = j.val ∧ (if p = .fp then (s.door j).holdFp else (s.door j).holdPc) = none then some .noData else none
  | .stopSound p _ mask =>
    if ∀ i : Fin 8, mask.getLsbD i.val = true →
        (if p = .fp then s.arbiter.sirens[i].manualFp else s.arbiter.sirens[i].manualPc) = none
      then some .noData
    else none
  | .testSirens _ _ _ =>
    if ∃ z : Fin 16, s.arbiter.view[z].level = .alarm ∨ s.arbiter.view[z].level = .fire then some .notNow else none
  | .setCaptureLayout _ _ _ _ _ => if ∃ x ∈ s.captures.blocks, x.isFilling = true then some .busy else none
  | .readStore _ _ _ => if s.loader.write.isSome = true then some .busy else none
  | .restart _ _ =>
    if s.loader.write.isSome = true then some .busy
    else if (∃ z : Fin 16, (s.zone z).level = .fire) ∨ ∃ e : Fin 4, (s.ctl e).state ≠ .offline ∧ (s.ctl e).state ≠ .stopped then
      some .notNow
    else none
  | _ => none

/-- The length of the operands that a request of the catalogue takes, in bytes (13.2). -/
def payloadLength (code : Byte) : Nat :=
  if code = codeReadIdent ∨ code = codeRestart then 0
  else if code = codeDeclare ∨ code = codeReadTracks ∨ code = codeReadStore then 2
  else if code = codeAckZone ∨ code = codeResetZone ∨ code = codeHoldDoor ∨ code = codeFreeCaptures ∨
    code = codeSetCoalescing then 3
  else if code = codeTestValve ∨ code = codeSoundSiren ∨ code = codeSetCaptureLayout then 4
  else if code = codeReadCapture then 5
  else if code = codePushOverlay then 11
  else if code = codeWriteStore then 34
  else 1

/-- A command that may clear a zone's latch: an accepted RESET_ZONE, as a command or as the last byte of its frame, and what starts
the part anew (R4, R11, R183, R187). -/
def mayUnlatch : Instr → Bool
  | .powerOn | .resetLeadLow | .resetZone _ _ _ _ | .restart _ _ | .byteReceived _ _ _ => true
  | _ => false

end Sys2Proof.Machine
end

