-- ==== Sys2Proof/WellFormed.lean ====
section
/-! DEFINITION. Well-formed commands: those that the spec's events and frames can be. An operand of a request outside its
range is well formed, since the part answers it (R174); a command is ill formed only where no such event exists. -/

namespace Sys2Proof

open Sys2Proof.Machine

/-- A port that can hold a door or demand a sound: FP or PC (R125, R142). -/
def holdingPort (p : Port) : Bool := decide (p ≠ .sv)

/-- The command can take place: an unknown code is none of the catalogue (R174), a discard is possible at a receiver in
some state, and only FP and PC hold doors and demand sounds. -/
def wellFormed (i : Instr) : Bool :=
  match i with
  | .unknownRequest _ _ code => !(catalogue.contains code)
  | .holdExpiry _ p => holdingPort p
  | .manualDemandExpiry _ p => holdingPort p
  | .powerOn | .resetLeadLow | .loadCompletion | .storeWriteCompletion _ | .frameDiscard _ _ _ | .responseSent _ => true
  | .readIdent _ _ | .readZones _ _ _ | .ackZone _ _ _ _ | .declare _ _ _ _ | .withdraw _ _ _ | .resetZone _ _ _ _ => true
  | .readDuct _ _ _ | .startDuct _ _ _ | .stopDuct _ _ _ | .resetDuct _ _ _ | .readTracks _ _ _ _ => true
  | .readChannels _ _ _ | .isolateChannel _ _ _ | .restoreChannel _ _ _ | .clearChannelFault _ _ _ => true
  | .testValve _ _ _ _ _ | .readOverlays _ _ _ | .pushOverlay _ _ _ _ _ _ _ _ _ _ | .popOverlay _ _ _ => true
  | .readDoors _ _ _ | .holdDoor _ _ _ _ | .unholdDoor _ _ _ | .closeDoor _ _ _ => true
  | .readSirens _ _ _ | .soundSiren _ _ _ _ _ | .stopSound _ _ _ | .silence _ _ _ | .testSirens _ _ _ => true
  | .readCapture _ _ _ _ _ _ | .freeCaptures _ _ _ _ | .setCaptureLayout _ _ _ _ _ => true
  | .fetchNotices _ _ _ | .setSubscription _ _ _ | .setCoalescing _ _ _ _ => true
  | .readStore _ _ _ | .writeStore _ _ _ _ | .restart _ _ => true
  | .keySwitchChange _ | .contactInputAccepted _ _ _ | .stationSampleEvent _ _ _ _ | .velocityUpdate _ _ => true
  | .holdTimerExpiry _ | .trackRetirement _ _ | .sprayWindowOpen _ _ | .sprayWindowClose _ _ => true
  | .flowSwitchChange _ _ _ | .flowConfirmExpiry _ _ | .gateSwitchChange _ _ _ | .gateSupervisionExpiry _ => true
  | .floodEnd _ | .testEnd _ | .startTimerExpiry _ | .armingWindowExpiry _ | .rateWindowExpiry _ => true
  | .quietTimerExpiry _ | .lowFlowTimerExpiry _ | .purgeTimerExpiry _ | .overlayExpiry _ _ => true
  | .closedSwitchChange _ _ | .barrierChange _ _ | .obstructionTimerExpiry _ | .closeTimerExpiry _ => true
  | .proppedTimerExpiry _ | .allClearExpiry _ | .sirenTestExpiry _ | .slotBoundary | .cadenceExpiry => true
  | .ageTimerExpiry _ | .byteReceived _ _ _ | .transducerSample _ _ | .contactInputSample _ _ _ => true

end Sys2Proof
end

