-- ==== Sys2Proof/Certificates/Slice0/Obligations.lean ====
section
/-! DEFINITION. The statements for the provers: what a step does, what holds at all times, and what each command does when
it takes effect. The docstring of each names the rules of spec/ that it says something of. A command that is a timer's expiry takes
place at its expiry tick only (the model's choice, assumption 9). -/

open Sys2Proof Sys2Proof.Machine

/-! ### The step, start-up and the safe state -/

/-- A step with a command at the front of the queue is that command's exec on the state with the queue's rest. -/
def Obligations.StepTakesFrontCommand : Prop :=
  ∀ (c : Instr) (rest : List Instr) (s : State),
    step { s with pending := c :: rest } = exec c { s with pending := rest }

/-- With no command waiting: the reset lead holds everything still (R183); with nothing due the tick moves on; of the events that are
due one takes place. Among them is the sample of every input that the part samples at this tick and has not sampled yet, so that no
tick passes without it, and once it is taken the tick has no further one (R17, R23, R43, R74, R127, R170). That time passes in the
steps of an empty queue, that the choice is free, and what a sample that no command brings reads, are the model's choices (assumptions
1, 2, 10 and 44). -/
def Obligations.IdleStepMovesTheClock : Prop :=
  ∀ s : State, s.pending = [] →
    (s.resetLow = true → step s = .next s) ∧
      (s.resetLow = false → dueEvents s = [] → step s = .next { s with tick := s.tick + 1 }) ∧
      (∀ c : Instr, s.resetLow = false → dueEvents s = [c] → step s = exec c { s with free := s.free + 1 }) ∧
      (s.resetLow = false → dueEvents s ≠ [] → ∃ c ∈ dueEvents s, step s = exec c { s with free := s.free + 1 }) ∧
      (∀ x : Sampler, SampleDue s x → sampleCommand s x ∈ dueEvents s ∧
        (s.resetLow = false → ∃ t : State, exec (sampleCommand s x) { s with free := s.free + 1 } = .next t ∧ t.tick = s.tick ∧
          ¬SampleDue t x))

/-- POWER_ON (R183): clocks at 0, every block at its power-on values, every output in its safe state, the load begun, whatever
came before. The store keeps every byte outside a page whose write was cut off (R184). That the leads, the waiting commands
and the free-value counter go on as they were, and the values that the spec does not give at power-on, are the model's choices
(assumptions 3, 6, 11, 16, 37 and 41). -/
def Obligations.PowerOnStartsTheLoadInTheSafeState : Prop :=
  ∀ (s : State) (a : Nat), ∃ t : State, exec .powerOn s = .next t ∧
    t = { State.reset with store := t.store, leads := s.leads, free := t.free, pending := s.pending } ∧
    t.tick = 0 ∧ t.resetLow = false ∧ t.loader.state = .loading ∧ t.loader.failing = none ∧ OutputsSafe t ∧
    (s.loader.write = none → t.store = s.store) ∧
    (Memory.wf s.store = true → (∀ w ∈ s.loader.write, a < w.offset.toNat ∨ w.offset.toNat + 32 ≤ a) →
      readCell t.store a = readCell s.store a)

/-- RESET_LEAD_LOW (R183): the state is discarded and every output is in its safe state; while the lead is low nothing but
POWER_ON has an effect, and only the outside's own switch levels move. That switch levels are still followed, what goes on
across the lead, and the values that the spec does not give, are the model's choices (assumptions 3, 6, 11, 15, 16, 37 and 41). -/
def Obligations.ResetLeadHoldsTheSafeState : Prop :=
  ∀ (s : State) (c : Instr),
    (∃ t : State, exec .resetLeadLow s = .next t ∧ t.resetLow = true ∧ OutputsSafe t ∧
      t = { State.reset with resetLow := true, store := t.store, leads := s.leads, free := t.free, pending := s.pending }) ∧
    (s.resetLow = true → c ≠ .powerOn → c ≠ .resetLeadLow →
      ∃ t : State, exec c s = .next t ∧ t = { s with leads := t.leads } ∧
        match c with
        | .flowSwitchChange _ _ _ | .gateSwitchChange _ _ _ | .keySwitchChange _ | .contactInputAccepted _ _ _
        | .contactInputSample _ _ _ | .closedSwitchChange _ _ | .barrierChange _ _ => True
        | _ => t = s)

/-! ### What every step keeps -/

/-- Every step keeps the zone records sound: latched exactly at FIRE, level from latch and causes, troubles without repeats (R4,
R13). -/
def Obligations.EveryStepKeepsZonesSound : Prop :=
  ∀ s t : State, ZonesOk s → step s = .next t → ZonesOk t

/-- Every step keeps each port's queue at 32 notices at most, its attention line down over an empty queue, its age timer armed
exactly while notices wait under a released line, and its transmit list within 4 frames with room for a pending answer
(R173, R177, R178). -/
def Obligations.EveryStepKeepsPortsSound : Prop :=
  ∀ s t : State, PortsOk s → step s = .next t → PortsOk t

/-- Every step keeps feeder permits, fan contactors, valve drives and gate drives as duct state, valve state and gate state fix them,
with no stroke left under way whose switch is active (R76, R83, R85, R92), and keeps every duct out of its running states while its
duct zone or a zone that it serves is at FIRE (R95, R103, R109). -/
def Obligations.EveryStepKeepsDuctOutputsRight : Prop :=
  ∀ s t : State, step s = .next t →
    (OutputsOk s → OutputsOk t) ∧ (QuietOk s → ZonesOk s → PostedOk s → DuctsClear s → DuctsClear t)

/-- Every step keeps each duct's bounds record at the values that R48 and R49 give for the present velocity and duct state: blind
exactly while the velocity is FAILED or the duct OFFLINE or STOPPED, with Lmin and 500 cm/s; else v_lo = min(max(v - tol, 20), 500)
and v_hi = max(min(v + tol, 500), v_lo); and their reciprocals (R50, R52). The record's values before a load are the model's choice
(assumption 6). -/
def Obligations.EveryStepKeepsBoundsUpToDate : Prop :=
  ∀ s t : State, BoundsOk s → step s = .next t → BoundsOk t

/-- Every step keeps each track list at 8 tracks at most with unique ids, and the Duct Controller's mark of its occupancy right
(R58, R60, R69). -/
def Obligations.EveryStepKeepsTrackListsSound : Prop :=
  ∀ s t : State, TracksOk s → step s = .next t → TracksOk t

/-- Every step keeps each overlay stack at 4 entries at most, and empty while the duct zone is at ALARM or above (R115, R121). -/
def Obligations.EveryStepKeepsOverlaysSound : Prop :=
  ∀ s t : State, OverlaysOk s → step s = .next t → OverlaysOk t

/-- Every step keeps each door's magnet and timers as its state fixes them, each timer running exactly in its own state, and holds
exactly in HELD (R126, R135 to R138); and it keeps every door out of HELD while a zone that it borders is at FIRE, or at ALARM
where the door closes on alarm (R129, R133). -/
def Obligations.EveryStepKeepsDoorsSound : Prop :=
  ∀ s t : State, step s = .next t → (DoorsOk s → DoorsOk t) ∧ (QuietOk s → DoorsClear s → DoorsClear t)

/-- Every step keeps the sounding sirens within the amplifier budget, each under a demand, and every drive as R154 fixes it (R152,
R154); every demand the one that the siren's contributions give, every snapshot inside the covered zones at ALARM or above, and
the zone view as the zones are (R143, R144, R151). -/
def Obligations.EveryStepKeepsSirensWithinBudget : Prop :=
  ∀ s t : State, QuietOk s → SirensOk s → step s = .next t → SirensOk t

/-- Every step keeps the stored list, the filling blocks, which the stations' fields name in both directions, and the block states of
the Capture Store in agreement (R159). -/
def Obligations.EveryStepKeepsCapturesSound : Prop :=
  ∀ s t : State, QuietOk s → CapturesOk s → step s = .next t → CapturesOk t

/-- Every step keeps the external store in its canonical form, a store write inside it, and the Store Loader's fields together
(R184, R186). -/
def Obligations.EveryStepKeepsStoreSound : Prop :=
  ∀ s t : State, StoreOk s → step s = .next t → StoreOk t

/-- Every step keeps this: while the load state is not RUNNING, every block but the Port Units and the Store Loader holds its
power-on values (R183, R185). The configured values held before a load are the model's choice (assumption 3). -/
def Obligations.EveryStepKeepsThePartQuietUnlessRunning : Prop :=
  ∀ s t : State, QuietOk s → step s = .next t → QuietOk t

/-- Every step keeps the DUCT_STATE, VELOCITY and EMBER causes on each duct zone at the levels of R107 and R108. -/
def Obligations.EveryStepKeepsDuctCausesPosted : Prop :=
  ∀ s t : State, PostedOk s → step s = .next t → PostedOk t

/-- The machine right after reset meets every one of these invariants. Values that the spec does not give at reset are the
model's choice (assumptions 3, 6, 7, 8, 37 and 41). -/
def Obligations.ResetMeetsTheInvariants : Prop :=
  ZonesOk State.reset ∧ PortsOk State.reset ∧ OutputsOk State.reset ∧ BoundsOk State.reset ∧ TracksOk State.reset ∧
    OverlaysOk State.reset ∧ DoorsOk State.reset ∧ SirensOk State.reset ∧ CapturesOk State.reset ∧
    StoreOk State.reset ∧ QuietOk State.reset ∧ PostedOk State.reset ∧ OutputsSafe State.reset ∧
    DuctsClear State.reset ∧ DoorsClear State.reset

/-- A zone's latch is cleared by nothing but a RESET_ZONE and what starts the part anew (R4, R11). -/
def Obligations.OnlyResetClearsALatch : Prop :=
  ∀ (c : Instr) (z : Fin 16) (s t : State), mayUnlatch c = false → (s.zone z).latch = true → exec c s = .next t →
    (t.zone z).latch = true

/-! ### Requests, answers and frames -/

/-- The reading requests answer from the present state with the records of R191, byte by byte, and change nothing else (R15, R40, R72,
R112, R123, R140, R156); READ_CAPTURE's part 1 gives up to the clamped count of words (R165, R175). READ_STORE answers the store's 32
bytes in every load state but LOADING, where no store write is in progress (R185, R186). Field widths the layouts leave open, the base
threshold of an UNUSED channel, and the order of a door's two holds, are the model's choices (assumptions 29 and 42). -/
def Obligations.ReadsAnswerTheStateAndChangeNothing : Prop :=
  ∀ (p : Port) (n : Byte) (z : Fin 16) (d : Fin 4) (c : Fin 16) (i : Fin 12) (w : Fin 8) (k count : Byte)
      (offset : Word16) (s : State), TakesFrame s p →
    (offset.toNat ≤ 4064 → s.loader.state ≠ .loading → s.loader.write = none →
      exec (.readStore p n offset) s = .next (s.answered p ⟨codeReadStore, n, .ok,
        le16 offset ++ (List.range 32).map fun i => readCell s.store (offset.toNat + i)⟩)) ∧
    (s.isRunning = true →
      exec (.readIdent p n) s = .next (s.answered p ⟨codeReadIdent, n, .ok,
        [0x3B, 0x40, 0x02, 0x01, 1, (match s.loader.failing with | none => 0 | some code => byteOf (checkPlace code))] ++
          le16 s.loader.imageCrc⟩) ∧
      exec (.readZones p n 255) s =
        .next (s.answered p ⟨codeReadZones, n, .ok, 255 :: (List.finRange 16).flatMap (zoneBytes s)⟩) ∧
      exec (.readZones p n (byteOf z.val)) s =
        .next (s.answered p ⟨codeReadZones, n, .ok, byteOf z.val :: (zoneBytes s z ++ zoneListBytes s z)⟩) ∧
      exec (.readDuct p n (ductNumber d)) s = .next (s.answered p ⟨codeReadDuct, n, .ok, ductBytes s d⟩) ∧
      exec (.readTracks p n (ductNumber d) 255) s = .next (s.answered p ⟨codeReadTracks, n, .ok,
        byteOf (s.duct d).tracks.length :: (s.duct d).nextId :: (s.duct d).tracks.flatMap trackBytes⟩) ∧
      (∀ h : k.toNat < 8 ∧ k.toNat < (s.duct d).tracks.length,
        exec (.readTracks p n (ductNumber d) k) s = .next (s.answered p ⟨codeReadTracks, n, .ok,
          byteOf (s.duct d).tracks.length :: trackFullBytes s d ((s.duct d).tracks[k.toNat]'h.2)⟩)) ∧
      exec (.readChannels p n 255) s =
        .next (s.answered p ⟨codeReadChannels, n, .ok, (List.finRange 16).flatMap (channelBytes s false)⟩) ∧
      exec (.readChannels p n (byteOf c.val)) s =
        .next (s.answered p ⟨codeReadChannels, n, .ok, channelBytes s true c ++ channelListBytes s c⟩) ∧
      exec (.readOverlays p n (ductNumber d)) s = .next (s.answered p ⟨codeReadOverlays, n, .ok, overlayBytes s d⟩) ∧
      exec (.readDoors p n 255) s =
        .next (s.answered p ⟨codeReadDoors, n, .ok, (List.finRange 12).flatMap (doorBytes s)⟩) ∧
      exec (.readDoors p n (byteOf i.val)) s =
        .next (s.answered p ⟨codeReadDoors, n, .ok, doorBytes s i ++ doorListBytes s i⟩) ∧
      exec (.readSirens p n 255) s = .next (s.answered p ⟨codeReadSirens, n, .ok,
        sirenHeaderBytes s ++ (List.finRange 8).flatMap fun j => sirenBytes s.arbiter.sirens[j]⟩) ∧
      exec (.readSirens p n (byteOf w.val)) s = .next (s.answered p ⟨codeReadSirens, n, .ok,
        sirenHeaderBytes s ++ sirenBytes s.arbiter.sirens[w] ++ byteOf s.cfg.sirens[w].weight ::
          (le16 s.cfg.sirens[w].cover ++ twoBytes s.cfg.slotLength ++ twoBytes s.cfg.allClearTime)⟩) ∧
      (∀ r ∈ s.captures.storedRecord k.toNat,
        exec (.readCapture p n k 0 offset count) s = .next (s.answered p ⟨codeReadCapture, n, .ok,
          le16 r.sequence ++ twoBytes r.words.length ++ captureBytes r⟩) ∧
        (let words := (r.words.drop offset.toNat).take (max 1 (min 100 count.toNat))
        exec (.readCapture p n k 1 offset count) s = .next (s.answered p ⟨codeReadCapture, n, .ok,
          le16 r.sequence ++ twoBytes r.words.length ++ byteOf words.length :: words.flatMap fun x => twoBytes x.toNat⟩))))

/-- READ_IDENT is answered in every load state from any port: vendor 0x3B, part 0x0240, revision 1, the load state, the failing
check code and the image CRC, which is 0 while LOADING (R188). -/
def Obligations.IdentificationIsAnsweredInEveryLoadState : Prop :=
  ∀ (p : Port) (n : Byte) (s : State), TakesFrame s p → StoreOk s →
    exec (.readIdent p n) s = .next (s.answered p ⟨codeReadIdent, n, .ok,
      ([0x3B, 0x40, 0x02, 0x01, (match s.loader.state with | .loading => 0 | .running => 1 | .safeHold => 2),
        (match s.loader.failing with
          | none => 0 | some .crc => 1 | some .magic => 2 | some .version => 3 | some .sections => 4 | some .fieldRange => 5
          | some .servedMask => 6 | some .channelStation => 7 | some .sirenWeight => 8 | some .captureFit => 9)] : List Byte) ++
        (if s.loader.state = .loading then [0, 0] else le16 s.loader.imageCrc)⟩)

/-- A refused request changes nothing: the port's transmit list gains the response with the request's code and number, and where
the result is not OK that is all that happens (R173, R174, R189). A WRITE_STORE, which may stay pending, is left out here. Outside
RUNNING no request but READ_IDENT, the store requests and RESTART is accepted, and one that passes the checks before place 7 is
answered NOT_NOW (R174, R185); a tag or sequence that differs is answered STALE. While RUNNING a request that passes the checks of
places 1 to 6 is answered with the refusal that the state of the part gives it by its own rule, NOT_NOW or BUSY at place 7, STACK_FULL,
STACK_EMPTY, NOT_OWNER or NO_DATA at place 8, and with OK where it meets none (R174). That a request's command leaves the receiver
in HUNTING is the model's choice (assumption 13). -/
def Obligations.RefusedRequestsChangeNothing : Prop :=
  ∀ (c : Instr) (p : Port) (n code : Byte) (s : State), requestOf c = some (p, n, code) → code ≠ codeWriteStore →
    wellFormed c = true → TakesFrame s p →
    ∃ (t : State) (result : Result) (payload : List Byte), exec c s = .next t ∧
      (t.port p).tx.getLast? = some ⟨code, n, result, payload⟩ ∧
      (result ≠ .ok → t = s.answered p ⟨code, n, result, payload⟩) ∧
      (s.isRunning = false → servedInEveryState c = false → result ≠ .ok) ∧
      (deniedTo c = false → (needsKey c = true → s.keyClosed = true) → operandsInRange s c = true → code ∈ catalogue →
        s.isRunning = false → QuietOk s → servedInEveryState c = false →
        result = if tagsAgree s c then .notNow else .stale) ∧
      (deniedTo c = false → (needsKey c = true → s.keyClosed = true) → operandsInRange s c = true → code ∈ catalogue →
        s.isRunning = true → result = if tagsAgree s c then (barred s c).getD .ok else .stale)

/-- The first checks of R174, in every load state: a request that the port's authority does not allow, or not with this operand
value, is answered DENIED; else one that needs the key while the key switch is open KEY; else one with an operand outside its
range RANGE; and none of them changes anything (places 3 to 5, and the catalogue of 11.4). What the duct's state forbids
PC at RESET_DUCT is left out here. -/
def Obligations.RequestsBeyondAuthorityAreDenied : Prop :=
  ∀ (c : Instr) (p : Port) (n code : Byte) (s : State), requestOf c = some (p, n, code) → TakesFrame s p →
    (deniedTo c = true → ∃ payload : List Byte, exec c s = .next (s.answered p ⟨code, n, .denied, payload⟩)) ∧
    (deniedTo c = false → needsKey c = true → s.keyClosed = false →
      ∃ payload : List Byte, exec c s = .next (s.answered p ⟨code, n, .key, payload⟩)) ∧
    (deniedTo c = false → (needsKey c = true → s.keyClosed = true) → operandsInRange s c = false →
      ∃ payload : List Byte, exec c s = .next (s.answered p ⟨code, n, .range, payload⟩))

/-- While a request is pending at a port, a valid frame is answered BUSY; while the transmit list is full it is dropped. An
unknown code is answered UNKNOWN, and a sent response leaves the transmit list (R173, R174). That a request's command leaves
the receiver in HUNTING is the model's choice (assumption 13). -/
def Obligations.TransmitListTakesBusyUnknownAndSent : Prop :=
  ∀ (c : Instr) (p : Port) (n code : Byte) (s : State), s.resetLow = false →
    (requestOf c = some (p, n, code) → wellFormed c = true → (s.port p).waiting.isSome = true → (s.port p).tx.length < 3 →
      exec c s = .next (s.answered p ⟨code, n, .busy, []⟩)) ∧
    (requestOf c = some (p, n, code) → wellFormed c = true →
      4 ≤ (s.port p).tx.length ∨ ((s.port p).waiting.isSome = true ∧ 3 ≤ (s.port p).tx.length) →
      exec c s = .next (s.setPort p { s.port p with rx := .hunting })) ∧
    (code ∉ catalogue → TakesFrame s p →
      exec (.unknownRequest p n code) s = .next (s.answered p ⟨code, n, .unknown, []⟩)) ∧
    exec (.responseSent p) s = .next (s.setPort p { s.port p with tx := (s.port p).tx.tail })

/-- The last byte of a request's frame is the request's arrival: a receiver that has taken the frame's body and the low CRC byte
does with the high CRC byte exactly what the request's command does (R171, R172, R174, R190). Every request of the catalogue, with
every operand at every value that its frame carries. A frame whose code names no request is answered UNKNOWN whatever its payload,
and one whose payload has not the length of its request's operands LENGTH; neither changes anything else (R174, places 1 and 2). -/
def Obligations.ACompletedFrameIsItsRequest : Prop :=
  ∀ (p : Port) (n code lo hi : Byte) (payload : List Byte) (s : State), s.resetLow = false →
    (s.port p).rx = .crc (code :: n :: payload) (some lo) → Tick.later s.tick ((s.port p).rxTick + 80) = false →
    hi ++ lo = crc16 (byteOf (2 + payload.length) :: code :: n :: payload) →
    let taken := s.setPort p { s.port p with rx := .hunting, rxTick := s.tick }
    (∀ c : Instr, requestOf c = some (p, n, code) → wellFormed c = true → requestPayload c = payload →
      (code ∈ catalogue → payload.length = payloadLength code) ∧ exec (.byteReceived p hi false) s = exec c taken) ∧
    (TakesFrame s p → code ∉ catalogue →
      exec (.byteReceived p hi false) s = .next (taken.answered p ⟨code, n, .unknown, []⟩)) ∧
    (TakesFrame s p → code ∈ catalogue → payload.length ≠ payloadLength code →
      exec (.byteReceived p hi false) s = .next (taken.answered p ⟨code, n, .length, []⟩))

/-- The receivers assemble frames byte by byte and discard a partial frame at a framing error, a late byte, a length outside
2-64 and a CRC that differs (R171, R172). A byte with a framing error leaves every receiver in HUNTING: it discards a partial frame, and
in HUNTING it is ignored. FRAME_DISCARD is a byte that discards; in HUNTING, where nothing is discarded, it does nothing. That
FRAME_DISCARD carries the byte is the model's choice (assumption 12). -/
def Obligations.ReceiversAssembleAndDiscardFrames : Prop :=
  ∀ (p : Port) (b lo : Byte) (size : Nat) (got body : List Byte) (s : State), s.resetLow = false →
    let u := s.port p
    let goes := fun rx : Rx => exec (.byteReceived p b false) s = .next (s.setPort p { u with rx := rx, rxTick := s.tick })
    let discarded := fun rx : Rx =>
      goes rx ∧ exec (.frameDiscard p b false) s = .next (s.setPort p { u with rx := rx, rxTick := s.tick })
    let intime := Tick.later s.tick (u.rxTick + 80) = false
    (u.rx = .hunting → goes (if b = 0xA5 then .length else .hunting)) ∧
    (u.rx = .length → intime → 2 ≤ b.toNat → b.toNat ≤ 64 → goes (.body b.toNat [])) ∧
    (u.rx = .length → intime → b.toNat < 2 ∨ 64 < b.toNat → discarded .hunting) ∧
    (u.rx = .body size got → intime → got.length + 1 < size → goes (.body size (got ++ [b]))) ∧
    (u.rx = .body size got → intime → got.length + 1 = size → goes (.crc (got ++ [b]) none)) ∧
    (u.rx = .crc body none → intime → goes (.crc body (some b))) ∧
    (u.rx = .crc body (some lo) → intime → b ++ lo ≠ crc16 (byteOf body.length :: body) → discarded .hunting) ∧
    (u.rx ≠ .hunting → ¬intime → discarded (if b = 0xA5 then .length else .hunting)) ∧
    exec (.byteReceived p b true) s = .next (s.setPort p { u with rx := .hunting, rxTick := s.tick }) ∧
    (u.rx ≠ .hunting →
      exec (.frameDiscard p b true) s = .next (s.setPort p { u with rx := .hunting, rxTick := s.tick })) ∧
    (u.rx = .hunting → exec (.frameDiscard p b true) s = .next s ∧ exec (.frameDiscard p b false) s = .next s)

/-- The key switch is sampled once at each tick at which the millisecond clock advances, in every load state: a sample of the other
state counts, the 100th in a row is accepted, and a sample of the accepted state abandons the change (R170). A change of the
switch at any other tick, or after its tick's sample, moves the lead alone; and the block's own clock has the sample due, at the
level of the lead, exactly while it has not been taken. That a change and the sample it meets are one command, and the tick of the
last sample at power-on, are the model's choices (assumptions 10, 11 and 37). -/
def Obligations.KeySwitchIsDebounced : Prop :=
  ∀ (k : KeyState) (s : State), s.resetLow = false →
    let x := s.key
    let moved := { s with leads := { s.leads with key := k } }
    let sampled := fun y : KeySwitch => Host.Outcome.next { moved.tookSample .key with key := y }
    (SampleDue s .key → k = x.accepted → exec (.keySwitchChange k) s = sampled ⟨x.accepted, 0⟩) ∧
    (SampleDue s .key → k ≠ x.accepted → x.count < 99 → exec (.keySwitchChange k) s = sampled ⟨x.accepted, x.count + 1⟩) ∧
    (SampleDue s .key → k ≠ x.accepted → 99 ≤ x.count → exec (.keySwitchChange k) s = sampled ⟨k, 0⟩) ∧
    (¬SampleDue s .key → exec (.keySwitchChange k) s = .next moved) ∧
    (Instr.keySwitchChange k ∈ dueEvents s ↔ SampleDue s .key ∧ k = s.leads.key)

/-- FETCH_NOTICES takes the oldest notices with the overflow flag; a queue left empty releases the line, and one left behind a
released line arms the age timer for its new oldest notice, at that notice's admission plus 4 times the age limit, or asserts the
line where that tick is not later than the present one (R178, R179). SET_SUBSCRIPTION and SET_COALESCING replace the port's settings,
the latter with line and timer brought up to them (R180, R181). The age timer asserts the line (R178). -/
def Obligations.NoticeQueueRequestsActOnTheirPort : Prop :=
  ∀ (p : Port) (n count mask threshold : Byte) (age : Word16) (s : State), Working s → TakesFrame s p → PortsOk s →
    let u := s.port p
    let k := max 1 (min 8 count.toNat)
    (∃ t : State, exec (.fetchNotices p n count) s = .next t ∧ OnlyPortsDiffer s t ∧
      (∀ q : Port, q ≠ p → t.port q = s.port q) ∧
      (let rest := u.queue.drop k
      let due := rest.head?.map fun x => x.admitted.plus (4 * u.age)
      t.port p = { u with
        rx := .hunting, queue := rest, overflow := false,
        line := decide (rest ≠ []) && (u.line || due.any fun e => !Tick.later e s.tick),
        ageTimer := if u.line || due.any fun e => !Tick.later e s.tick then none else due,
        tx := u.tx ++ [⟨codeFetchNotices, n, .ok, flagByte u.overflow :: byteOf (u.queue.length - k) ::
          byteOf (u.queue.take k).length :: (u.queue.take k).flatMap noticeBytes⟩] })) ∧
    exec (.setSubscription p n mask) s = .next
      ((s.setPort p { u with subscription := mask }).answered p ⟨codeSetSubscription, n, .ok, [mask]⟩) ∧
    (1 ≤ threshold.toNat → threshold.toNat ≤ 32 → 10 ≤ age.toNat → age.toNat ≤ 5000 →
      ∃ t : State, exec (.setCoalescing p n threshold age) s = .next t ∧ OnlyPortsDiffer s t ∧
        (∀ q : Port, q ≠ p → t.port q = s.port q) ∧
        (let due := u.queue.head?.map fun x => x.admitted.plus (4 * age.toNat)
        t.port p = { u with rx := .hunting, tx := (t.port p).tx, threshold := threshold.toNat, age := age.toNat,
                            line := (t.port p).line, ageTimer := if (t.port p).line then none else due } ∧
        ((t.port p).line = true ↔ u.line = true ∨ (u.queue ≠ [] ∧ threshold.toNat ≤ u.queue.length) ∨
          ∃ e ∈ due, Tick.later e s.tick = false)) ∧
        (t.port p).tx = u.tx ++ [⟨codeSetCoalescing, n, .ok, threshold :: le16 age ++
          [byteOf u.queue.length, flagByte (t.port p).line]⟩]) ∧
    (u.ageTimer = some s.tick →
      exec (.ageTimerExpiry p) s = .next (s.setPort p { u with line := true, ageTimer := none }))

/-! ### Zones and contact inputs -/

/-- ACK_ZONE: a wrong tag is answered STALE with the present one; at NORMAL, or from a port that has acknowledged, nothing changes;
otherwise the port joins the acknowledged set and the tag rises once, level, latch and causes standing as they were (R5, R7, R8), and
a ZONE notice is offered (R6). The Siren Arbiter takes the report, with the SIREN notices that it brings (R143, R144, R155). The ZONE
notice's place before the event's other notices, and the cause of a SIREN notice that several things made, are the model's choices
(assumptions 28 and 39). -/
def Obligations.AckZoneRecordsThePort : Prop :=
  ∀ (p : Port) (n : Byte) (z : Fin 16) (tag : Word16) (s : State), p ≠ .sv → TakesFrame s p → s.isRunning = true →
    ZonesOk s →
    let x := s.zone z
    (tag ≠ x.tag → exec (.ackZone p n (byteOf z.val) tag) s =
      .next (s.answered p ⟨codeAckZone, n, .stale, le16 x.tag⟩)) ∧
    (tag = x.tag → x.level = .normal ∨ x.acked.has p = true → exec (.ackZone p n (byteOf z.val) tag) s =
      .next (s.answered p ⟨codeAckZone, n, .ok, byteOf x.level.num :: le16 x.tag⟩)) ∧
    (tag = x.tag → x.level ≠ .normal → x.acked.has p = false →
      ∃ t : State, exec (.ackZone p n (byteOf z.val) tag) s = .next t ∧
        Answers p ⟨codeAckZone, n, .ok, byteOf x.level.num :: le16 (x.tag + 1)⟩ s t ∧
        (t.zone z).level = x.level ∧ (t.zone z).latch = x.latch ∧ (t.zone z).tag = x.tag + 1 ∧
        (t.zone z).acked = ⟨x.acked.fp || decide (p = .fp), x.acked.pc || decide (p = .pc)⟩ ∧ (t.zone z).kind = x.kind ∧
        (x.level ≠ .fire ∨ 4 ≤ z.val → (t.zone z).causes = x.causes) ∧ t.inputs = s.inputs ∧ StaysAtZone z s t ∧
        (let answered := s.answered p ⟨codeAckZone, n, .ok, byteOf x.level.num :: le16 (x.tag + 1)⟩
        Notified (zoneNotice z 5 x (t.zone z)) answered t ∧ (PostedOk s → SirensReported z answered t)))

/-- DECLARE posts the port's declaration at a level it may declare and WITHDRAW removes it; the zone is settled by R4 and R5, and the
answer carries its level and tag (R7, R9, R10). The report of a zone that changes acts on every door that borders it: at FIRE
ZONE_FIRE, and at ALARM ZONE_ALARM where the door closes on alarm, lets a HELD door go and is taken by a waiting one (R133, R134),
with the DOOR notice of each (R139). A duct zone at ALARM or above empties its duct's overlay stack, with a notice for each entry
(R121, R122). A zone that comes to FIRE stops every duct that serves it or has it as its duct zone with ZONE_FIRE: FIRE kind at ALARM,
feeder and fan off, the gate ordered shut, with the STATE and GATE notices (R78, R93, R103, R104, R106, R109); a duct whose stop
asserts ALARM or FIRE already keeps its recorded stop (R104). At the Siren Arbiter a covering siren resounds or keeps its snapshot, a
rise to ALARM or above ends its all-clear, the grants follow the demands, and a SIREN notice is offered for each siren that changes
(R143, R144, R148, R151, R152, R155). A ZONE notice is offered exactly where the tag rises (R6), and each port admits it at the tail,
displaces its oldest plain notice or drops it, and evaluates line and age timer (R176 to R178). What a GATE notice shows where no
stroke ended, overlay places, the hold list of a DOOR notice, the cause of a SIREN notice that several things made, that a stop keeps
the window-clean mark, and the place of the ZONE notice before the event's other notices, are the model's choices (assumptions 22, 23,
28, 32, 39 and 42). -/
def Obligations.DeclarationsArePostedAndWithdrawn : Prop :=
  ∀ (p : Port) (n : Byte) (z : Fin 16) (l : Level) (s : State), TakesFrame s p → s.isRunning = true →
    let answered := fun (code : Byte) (t : State) =>
      s.answered p ⟨code, n, .ok, byteOf (t.zone z).level.num :: le16 (t.zone z).tag⟩
    let told := fun (code : Byte) (t : State) =>
      ((t.zone z).tag ≠ (s.zone z).tag → Notified (zoneNotice z 4 (s.zone z) (t.zone z)) (answered code t) t ∧
        DoorsReported z (answered code t) t ∧ OverlaysReported z (answered code t) t ∧
        (ZonesOk s → PostedOk s → SirensReported z (answered code t) t)) ∧
      ((t.zone z).tag = (s.zone z).tag → t.ports = (answered code t).ports ∧ t.arbiter = s.arbiter ∧ t.doors = s.doors ∧
        t.ducts = s.ducts)
    ((p = .fp ∧ (l = .alarm ∨ l = .fire)) ∨ (p = .pc ∧ (l = .watch ∨ l = .alarm)) →
      ∃ t : State, exec (.declare p n (byteOf z.val) (byteOf l.num)) s = .next t ∧
        Answers p ⟨codeDeclare, n, .ok, byteOf (t.zone z).level.num :: le16 (t.zone z).tag⟩ s t ∧
        SettledTo (s.zone z) { s.zone z with causes := (s.zone z).causes.set (CauseKey.declaration p).ix l } (t.zone z) false ∧
        CauseSet z (.declaration p) l s t ∧ t.inputs = s.inputs ∧ StaysAtZone z s t ∧ told codeDeclare t ∧
        (l = .fire → (s.zone z).level ≠ .fire → ∀ d : Fin 4, ActsOnZone s d z →
          (TakesFireStop (s.ctl d) ∨ ((s.ctl d).state = .stopped ∧ ∃ x ∈ (s.ctl d).stop, x.kind = .orderly ∧ x.level = .normal) →
            FireStopped d .zoneFire (s.ctl d) (answered codeDeclare t) t) ∧
          ((s.ctl d).state = .stopping ∨ (s.ctl d).state = .stopped →
            (∃ x ∈ (s.ctl d).stop, x.level = .alarm ∨ x.level = .fire) → t.ctl d = s.ctl d ∧ t.gate d = s.gate d) ∧
          ((s.ctl d).state = .offline → t.ctl d = s.ctl d ∧ t.gate d = s.gate d))) ∧
    (p ≠ .sv → (s.zone z).causes[(CauseKey.declaration p).ix] ≠ .normal →
      ∃ t : State, exec (.withdraw p n (byteOf z.val)) s = .next t ∧
        Answers p ⟨codeWithdraw, n, .ok, byteOf (t.zone z).level.num :: le16 (t.zone z).tag⟩ s t ∧
        SettledTo (s.zone z) { s.zone z with causes := (s.zone z).causes.set (CauseKey.declaration p).ix .normal }
          (t.zone z) false ∧
        CauseSet z (.declaration p) .normal s t ∧ t.inputs = s.inputs ∧ StaysAtZone z s t ∧ told codeWithdraw t) ∧
    (p ≠ .sv → (s.zone z).causes[(CauseKey.declaration p).ix] = .normal →
      exec (.withdraw p n (byteOf z.val)) s = .next (s.answered p ⟨codeWithdraw, n, .noData, []⟩))

/-- RESET_ZONE from FP: with the right tag, the latch set and no FIRE cause, the latch is cleared, the zone falls to its highest
remaining cause, the acknowledged set empties and the tag rises once, with its ZONE notice; below ALARM the all-clear of every
covering siren starts or is extended (R5, R6, R11, R148). Each siren that the report changes offers its SIREN notice, with ALL_CLEAR
where the all-clear is now its demand, RESOUND where the report cleared its snapshot and ZONE else (R155), and the doors take the
report (R133). A wrong tag is STALE, a clear latch or a FIRE cause NOT_NOW. The place of the ZONE notice before the event's other
notices, the hold list of a DOOR notice, and the cause of a SIREN notice that several things made, are the model's choices
(assumptions 28, 39 and 42). -/
def Obligations.ResetZoneClearsTheLatch : Prop :=
  ∀ (n : Byte) (z : Fin 16) (tag : Word16) (s : State), TakesFrame s .fp → s.isRunning = true → ZonesOk s →
    let x := s.zone z
    let newEnd := s.tick.plus (4000 * s.cfg.allClearTime)
    (tag ≠ x.tag → exec (.resetZone .fp n (byteOf z.val) tag) s =
      .next (s.answered .fp ⟨codeResetZone, n, .stale, le16 x.tag⟩)) ∧
    (tag = x.tag → x.latch = false ∨ (∃ i : Fin 13, x.causes[i] = .fire) →
      exec (.resetZone .fp n (byteOf z.val) tag) s = .next (s.answered .fp ⟨codeResetZone, n, .notNow, []⟩)) ∧
    (tag = x.tag → x.latch = true → (∀ i : Fin 13, x.causes[i] ≠ .fire) →
      ∃ t : State, exec (.resetZone .fp n (byteOf z.val) tag) s = .next t ∧
        Answers .fp ⟨codeResetZone, n, .ok, byteOf (t.zone z).level.num :: le16 (x.tag + 1)⟩ s t ∧
        (t.zone z).latch = false ∧ (t.zone z).level = causesLevel x.causes ∧ (t.zone z).level ≠ .fire ∧
        (t.zone z).tag = x.tag + 1 ∧ (t.zone z).acked = ⟨false, false⟩ ∧ (t.zone z).causes = x.causes ∧
        (t.zone z).kind = x.kind ∧ t.inputs = s.inputs ∧ StaysAtZone z s t ∧
        (let answered := s.answered .fp ⟨codeResetZone, n, .ok, byteOf (t.zone z).level.num :: le16 (x.tag + 1)⟩
        Notified (zoneNotice z 6 x (t.zone z)) answered t ∧ DoorsReported z answered t ∧
          OffersThese (sirensTold s.arbiter t.arbiter (fun i =>
            if (t.zone z).level.atLeast .alarm = true ∧ s.arbiter.sirens[i].snapshot ≠ 0 ∧ t.arbiter.sirens[i].snapshot = 0 then 6
            else if (t.zone z).level.atLeast .alarm = false ∧ t.arbiter.sirens[i].demand = some .allClear then 2 else 0) 7)
            answered t) ∧
        ((t.zone z).level = .normal ∨ (t.zone z).level = .watch → ∀ i : Fin 8, zoneIn s.cfg.sirens[i].cover z = true →
          t.arbiter.sirens[i].allClear = some (match s.arbiter.sirens[i].allClear with
            | none => newEnd
            | some e => if Tick.later newEnd e then newEnd else e)))

/-- Contact inputs: each enabled input is sampled once at each tick at which the millisecond clock advances, while RUNNING and from
the first millisecond after the load on (R17, R20). The sample that completes the debounce time is accepted, its cause posted or
removed and INPUT_FAULT raised or cleared on the mapped zone; any other sample moves candidate and stable count alone (R18, R19).
Where the zone's tag rises its ZONE notice is offered (R6), and doors, overlays and sirens take the report (R121, R133, R143, R151); a
raise and a clear of INPUT_FAULT offer their TROUBLE notice (R13). The place of the ZONE notice, overlay places, the hold list of a
DOOR notice, and the cause of a SIREN notice that several things made, are the model's choices (assumptions 23, 28, 39 and 42). Where
no sample is due, or the sample is the other row's, the lines take their levels and nothing else happens; and the block's own clock
has the sample due, at the level of the lines, exactly while it has not been taken. That a level is kept until the sample, that one
command moves the lines and takes the sample they meet, and that acceptance has a row of its own, are the model's choices (assumptions
10 to 12). -/
def Obligations.ContactInputsDebounceAndPost : Prop :=
  ∀ (i : Fin 8) (z : Fin 16) (supervision line : Bool) (s : State), s.resetLow = false → ZonesOk s →
    let x := s.input i
    let k := s.cfg.inputs[i]
    let now := sensedOf supervision line
    let level := if now = .active then k.level else .normal
    let moved := { s with leads := { s.leads with contacts := s.leads.contacts.set i ⟨supervision, line⟩ } }
    let due := SampleDue s (.contact i)
    let accepts := now ≠ x.accepted ∧ x.candidate = some now ∧ k.debounce ≤ x.stable + 1
    let sampled := fun y : Input =>
      exec (.contactInputSample i supervision line) s = .next ((moved.tookSample (.contact i)).setInput i y)
    (due → k.zone = some z → accepts → ∃ t : State, exec (.contactInputAccepted i supervision line) s = .next t ∧
      t.input i = ⟨now, none, 0⟩ ∧ (∀ j : Fin 8, j ≠ i → t.input j = s.input j) ∧
      SettledTo (s.zone z) { s.zone z with causes := (s.zone z).causes.set (CauseKey.input i).ix level } (t.zone z) false ∧
      CauseSet z (.input i) level s t ∧ (now = .fault → Raised t z .inputFault i.val) ∧
      (x.accepted = .fault → ¬Raised t z .inputFault i.val) ∧ KeepsLinks s t ∧
      StaysAtZone z (moved.tookSample (.contact i)) t ∧
      (let troubles := if now = .fault then raiseNotices s z .inputFault i.val
        else if x.accepted = .fault then clearNotices s z .inputFault i.val else []
      OffersThese troubles s t ∧ ((t.zone z).tag = (s.zone z).tag → OffersAll troubles s t)) ∧
      ((t.zone z).tag ≠ (s.zone z).tag → Notified (zoneNotice z 3 (s.zone z) (t.zone z)) s t ∧ DoorsReported z s t ∧
        OverlaysReported z s t ∧ (PostedOk s → SirensReported z s t))) ∧
    (due → now = x.accepted → sampled ⟨x.accepted, none, 0⟩) ∧
    (due → now ≠ x.accepted → x.candidate ≠ some now → sampled ⟨x.accepted, some now, 0⟩) ∧
    (due → now ≠ x.accepted → x.candidate = some now → x.stable + 1 < k.debounce →
      sampled ⟨x.accepted, some now, x.stable + 1⟩) ∧
    (¬due ∨ accepts → exec (.contactInputSample i supervision line) s = .next moved) ∧
    (¬due ∨ ¬accepts → exec (.contactInputAccepted i supervision line) s = .next moved) ∧
    (s.leads.contacts[i] = ⟨supervision, line⟩ →
      (Instr.contactInputAccepted i supervision line ∈ dueEvents s ↔ due ∧ accepts) ∧
      (Instr.contactInputSample i supervision line ∈ dueEvents s ↔ due ∧ ¬accepts)) ∧
    (s.leads.contacts[i] ≠ ⟨supervision, line⟩ → Instr.contactInputAccepted i supervision line ∉ dueEvents s ∧
      Instr.contactInputSample i supervision line ∉ dueEvents s)

/-! ### Ducts -/

/-- START_DUCT from FP or PC: an OFFLINE duct whose zone is below ALARM and whose served zones show no FIRE enters STARTING with its
start timer running and the fan on; a gate that is CLOSED or in FAULT is ordered open, or is OPEN at once where its open switch is
active (R84, R85, R92, R95). Its notices are the STATE notice and the GATE notices of the stroke, and no other (R78, R93). What a GATE
notice shows where no stroke ended, and the subject of GATE_FAULT, are the model's choices (assumptions 22 and 24). -/
def Obligations.StartDuctEntersStarting : Prop :=
  ∀ (p : Port) (n : Byte) (d : Fin 4) (s : State), p ≠ .sv → TakesFrame s p → s.isRunning = true → ZonesOk s → PostedOk s →
    (s.ctl d).state = .offline → (s.zone (ductZone d)).level.atLeast .alarm = false →
    (∀ z : Fin 16, zoneIn (s.ductCfg d).served z = true → (s.zone z).level ≠ .fire) →
    let g := s.gate d
    let k := s.gateCfg d
    let answer : Response := ⟨codeStartDuct, n, .ok, [1, 0xFF, 0xFF, 0xFF]⟩
    ∃ t : State, exec (.startDuct p n (ductNumber d)) s = .next t ∧ Answers p answer s t ∧
      OffersAll (stateNotice d (s.ctl d) (t.ctl d) :: openNotices s d g) (s.answered p answer) t ∧
      t.ctl d = { s.ctl d with
        state := .starting, stop := none, start := some (s.tick.plus (4000 * (s.ductCfg d).startTime)), arm := none,
        cleanCount := 0, rateCount := 0, rate := none, quiet := none, lowFlow := none, purge := none, feeder := false,
        fan := true } ∧
      t.gate d = (if k.installed = true ∧ (g.state = .closed ∨ g.state = .fault) then
        (if g.openSwitch then
          { g with state := .opened, openDrive := false, closeDrive := false, cmdTick := s.tick, timer := none,
                   troubleMark := false }
        else
          { g with state := .opening, openDrive := true, closeDrive := false, cmdTick := s.tick,
                   timer := some (s.tick.plus (4 * k.stroke + 4000)) })
        else g) ∧
      KeepsWater d s t ∧ (t.duct d).overlays = (s.duct d).overlays ∧ KeepsHazards s t ∧ StaysInDuct d s t ∧
      t.doors = s.doors ∧ t.arbiter = s.arbiter

/-- STOP_DUCT from FP or PC: a running duct enters its ORDERLY stop with the cause STOP_REQUEST and its STATE notices, a stopping one
stays as it is (R93, R103, R105, R110). That the spoiled mark of an arming window stays is the model's choice (assumption 32). -/
def Obligations.StopDuctPurgesTheDuct : Prop :=
  ∀ (p : Port) (n : Byte) (d : Fin 4) (s : State), p ≠ .sv → TakesFrame s p → s.isRunning = true → ZonesOk s →
    let answer : Response := ⟨codeStopDuct, n, .ok, [(if (s.ductCfg d).purgeTime = 0 then 6 else 5), 0, 0, 0]⟩
    ((s.ctl d).state.isRunning = true → ∃ t : State, exec (.stopDuct p n (ductNumber d)) s = .next t ∧
      Answers p answer s t ∧ DuctTold d (orderlyNotices s d .stopRequest) (s.answered p answer) t ∧
      StoppedOrderly d .stopRequest s t ∧ t.gate d = s.gate d ∧ KeepsWater d s t ∧ StaysInDuct d s t) ∧
    ((s.ctl d).state = .stopping → exec (.stopDuct p n (ductNumber d)) s =
      .next (s.answered p ⟨codeStopDuct, n, .ok, ductStateBytes s d⟩))

/-- RESET_DUCT: a STOPPED duct with an empty track list, whose zone is not latched by another cause, returns to OFFLINE with its
stop record gone, DUCT_STATE off its zone and LOW_FLOW and NO_FLOW cleared, with the notices of each (R13, R93, R94, R111); PC may not
reset a FIRE-kind stop. The subject of the troubles is the model's choice (assumption 24). -/
def Obligations.ResetDuctReturnsToOffline : Prop :=
  ∀ (p : Port) (n : Byte) (d : Fin 4) (s : State), p ≠ .sv → TakesFrame s p → s.isRunning = true → ZonesOk s →
    (s.ctl d).state = .stopped →
    (p = .pc → (∃ x ∈ (s.ctl d).stop, x.kind = .fire) → exec (.resetDuct p n (ductNumber d)) s =
      .next (s.answered p ⟨codeResetDuct, n, .denied, ductStateBytes s d⟩)) ∧
    ((p = .pc → ∀ x ∈ (s.ctl d).stop, x.kind ≠ .fire) → (s.ctl d).listMark = false →
      ((s.zone (ductZone d)).latch = true → ∃ x ∈ (s.ctl d).stop, x.level = .fire) →
      ∃ t : State, exec (.resetDuct p n (ductNumber d)) s = .next t ∧
        Answers p ⟨codeResetDuct, n, .ok, [0, 0xFF, 0xFF, 0xFF]⟩ s t ∧
        DuctTold d (stateNotice d (s.ctl d) (t.ctl d) :: (clearNotices s (ductZone d) .lowFlow (d.val + 1) ++
          clearNotices s (ductZone d) .noFlow (d.val + 1))) (s.answered p ⟨codeResetDuct, n, .ok, [0, 0xFF, 0xFF, 0xFF]⟩) t ∧
        t.ctl d = { s.ctl d with state := .offline, stop := none, feeder := false, fan := false } ∧
        (t.zone (ductZone d)).causes[CauseKey.ductState.ix] = .normal ∧
        (t.zone (ductZone d)).latch = (s.zone (ductZone d)).latch ∧
        ¬Raised t (ductZone d) .lowFlow (d.val + 1) ∧ ¬Raised t (ductZone d) .noFlow (d.val + 1) ∧
        (t.duct d).vel.bounds.blind = true ∧ t.gate d = s.gate d ∧ KeepsWater d s t ∧ StaysInDuct d s t)

/-- The start timer in STARTING or ARMING stops the duct with NO_FLOW, the low-flow timer in GUARDED or ALERT with LOW_FLOW, each an
ORDERLY stop with its trouble raised and the notices of both (R13, R93, R98, R102, R103). That the mark of an arming window stays, and
the subject of the troubles, are the model's choices (assumptions 24 and 32). -/
def Obligations.FlowTimersStopTheDuct : Prop :=
  ∀ (d : Fin 4) (s : State), Working s → ZonesOk s →
    ((s.ctl d).start = some s.tick → (s.ctl d).state = .starting ∨ (s.ctl d).state = .arming →
      ∃ t : State, exec (.startTimerExpiry d) s = .next t ∧ StoppedOrderly d .noFlow s t ∧
        DuctTold d (orderlyNotices s d .noFlow ++ raiseNotices s (ductZone d) .noFlow (d.val + 1)) s t ∧
        Raised t (ductZone d) .noFlow (d.val + 1) ∧ t.gate d = s.gate d ∧ KeepsWater d s t ∧ KeepsLinks s t ∧
        StaysInDuct d s t) ∧
    ((s.ctl d).lowFlow = some s.tick → (s.ctl d).state = .guarded ∨ (s.ctl d).state = .alert →
      ∃ t : State, exec (.lowFlowTimerExpiry d) s = .next t ∧ StoppedOrderly d .lowFlow s t ∧
        DuctTold d (orderlyNotices s d .lowFlow ++ raiseNotices s (ductZone d) .lowFlow (d.val + 1)) s t ∧
        Raised t (ductZone d) .lowFlow (d.val + 1) ∧ t.gate d = s.gate d ∧ KeepsWater d s t ∧ KeepsLinks s t ∧
        StaysInDuct d s t)

/-- An arming window that ends clean counts, the second in a row brings GUARDED with the feeder permit on, and a spoiled one starts
the count afresh; every window but the last is followed by another of 8000 ticks (R92, R97). GUARDED comes with its STATE notice
(R93). -/
def Obligations.TwoCleanWindowsGuardTheDuct : Prop :=
  ∀ (d : Fin 4) (s : State), Working s → ZonesOk s → OutputsOk s → BoundsOk s → (s.ctl d).arm = some s.tick →
    (s.ctl d).state = .arming →
    let c := s.ctl d
    (c.windowClean = true → c.cleanCount = 1 → ∃ t : State, exec (.armingWindowExpiry d) s = .next t ∧
      t.ctl d = { c with state := .guarded, start := none, arm := none, cleanCount := 2, lowFlow := none, feeder := true,
                         fan := true } ∧
      DuctTold d [stateNotice d c (t.ctl d)] s t ∧
      (t.zone (ductZone d)).causes[CauseKey.velocity.ix] =
        (if (s.duct d).vel.state = .failed then .watch else .normal) ∧
      t.gate d = s.gate d ∧ KeepsWater d s t ∧ KeepsLinks s t ∧ StaysInDuct d s t) ∧
    (c.windowClean = true → c.cleanCount = 0 → exec (.armingWindowExpiry d) s =
      .next (s.setDuct d { s.duct d with ctl := { c with arm := some (s.tick.plus 8000), cleanCount := 1 } })) ∧
    (c.windowClean = false → exec (.armingWindowExpiry d) s =
      .next (s.setDuct d { s.duct d with
        ctl := { c with arm := some (s.tick.plus 8000), cleanCount := 0, windowClean := true } }))

/-- The rate window's end empties the counter, the quiet timer takes ALERT back to GUARDED, and the purge timer takes STOPPING to
STOPPED with the fan off, each change of state with its STATE notice (R92, R93, R100, R101, R105). -/
def Obligations.RateQuietAndPurgeTimersAct : Prop :=
  ∀ (d : Fin 4) (s : State), Working s → ZonesOk s → PostedOk s → OutputsOk s → BoundsOk s →
    let c := s.ctl d
    (c.rate = some s.tick → exec (.rateWindowExpiry d) s =
      .next (s.setDuct d { s.duct d with ctl := { c with rateCount := 0, rate := none } })) ∧
    (c.quiet = some s.tick → c.state = .alert → ∃ t : State, exec (.quietTimerExpiry d) s = .next t ∧
      t.ctl d = { c with state := .guarded, quiet := none } ∧ DuctTold d [stateNotice d c (t.ctl d)] s t ∧
      (t.zone (ductZone d)).causes[CauseKey.ductState.ix] = .normal ∧
      t.gate d = s.gate d ∧ KeepsWater d s t ∧ KeepsLinks s t ∧ StaysInDuct d s t) ∧
    (c.purge = some s.tick → c.state = .stopping → ∃ t : State, exec (.purgeTimerExpiry d) s = .next t ∧
      t.ctl d = { c with state := .stopped, purge := none, feeder := false, fan := false } ∧
      DuctTold d [stateNotice d c (t.ctl d)] s t ∧
      (t.zone (ductZone d)).causes[CauseKey.ember.ix] = (if c.listMark then .alarm else .normal) ∧
      t.gate d = s.gate d ∧ KeepsWater d s t ∧ KeepsLinks s t ∧ StaysInDuct d s t)

/-! ### Detector channels -/

/-- ISOLATE_CHANNEL from SV, RESTORE_CHANNEL and CLEAR_CHANNEL_FAULT from FP or SV, SV with the key closed, move the channel between its
states with its trouble, drop its run, and evaluate the station's coincidence troubles, with a TROUBLE notice for each raise and each
clear and no other notice; a channel that is already ISOLATED is left as it is (R13, R30, R31, R36 to R39). -/
def Obligations.ChannelRequestsMoveTheChannel : Prop :=
  ∀ (p : Port) (n : Byte) (c : Fin 16) (k : ChannelCfg) (kind : TroubleKind) (subject : Nat) (s : State),
    TakesFrame s p → s.isRunning = true → ZonesOk s → s.cfg.channels[c] = some k → (p = .sv → s.keyClosed = true) →
    let x := s.channel c
    let z := ductZone k.duct
    let moved := fun (code : Byte) (st : ChannelState) (t : State) =>
      let answer : Response := ⟨code, n, .ok, if st = .isolated then [2, 0xFF] else [1, 0xFF]⟩
      let left :=
        match x.state with
        | .fault .stuck => clearNotices s z .channelStuck c.val
        | .fault .dead => clearNotices s z .channelDead c.val
        | .isolated => clearNotices s z .channelIsolated c.val
        | .unused | .active => []
      Answers p answer s t ∧
        OffersAll (left ++ (if st = .isolated then raiseNotices s z .channelIsolated c.val else []) ++
          coincidenceNotices s k.duct k.station (activeCount t k.duct k.station)) (s.answered p answer) t ∧
        t.channel c = { x with state := st, run := 0, qualified := false } ∧
        (∀ o : Fin 16, o ≠ c → t.channel o = s.channel o) ∧
        (Raised t z .stationUnprotected k.station.val ↔ activeCount t k.duct k.station = 0) ∧
        (Raised t z .reducedCoincidence k.station.val ↔ 0 < activeCount t k.duct k.station ∧
          activeCount t k.duct k.station ≤ (s.ductCfg k.duct).base.coincidence) ∧
        (subject ≠ c.val → subject ≠ k.station.val → (Raised t z kind subject ↔ Raised s z kind subject)) ∧
        (∀ y : Fin 16, y ≠ z → t.zone y = s.zone y) ∧ KeepsHazards s t ∧ KeepsFixed s t ∧ t.stations = s.stations ∧
        t.inputs = s.inputs ∧ t.captures = s.captures ∧ t.ducts = s.ducts ∧ t.doors = s.doors ∧ t.arbiter = s.arbiter
    (p = .sv → x.state ≠ .unused → x.state ≠ .isolated → ∃ t : State, exec (.isolateChannel p n (byteOf c.val)) s = .next t ∧
      moved codeIsolateChannel .isolated t ∧ Raised t z .channelIsolated c.val ∧
      (x.state = .fault .stuck → ¬Raised t z .channelStuck c.val) ∧
      (x.state = .fault .dead → ¬Raised t z .channelDead c.val)) ∧
    (p = .sv → x.state = .isolated → exec (.isolateChannel p n (byteOf c.val)) s =
      .next (s.answered p ⟨codeIsolateChannel, n, .ok, [2, 0xFF]⟩)) ∧
    (p ≠ .pc → x.state = .isolated → ∃ t : State, exec (.restoreChannel p n (byteOf c.val)) s = .next t ∧
      moved codeRestoreChannel .active t ∧ ¬Raised t z .channelIsolated c.val) ∧
    (p ≠ .pc → x.state = .fault .stuck ∨ x.state = .fault .dead → x.clean = 400 →
      ∃ t : State, exec (.clearChannelFault p n (byteOf c.val)) s = .next t ∧
        moved codeClearChannelFault .active t ∧
        (x.state = .fault .stuck → ¬Raised t z .channelStuck c.val) ∧
        (x.state = .fault .dead → ¬Raised t z .channelDead c.val))

/-- A station sample event, which each configured station takes once at every tick while RUNNING (R23): every channel of the station
that is not UNUSED takes its code into ring, low count and clean count, a channel that is not ACTIVE changes in nothing else, an
ACTIVE one extends or ends its run; the dead-time count falls by one in dead time; channels of other stations are not touched (R23 to
R26, R30, R34). A run that comes to the effective Nq qualifies once (R27). A run that comes to the stuck limit is a STUCK fault and a
low count of 400 a DEAD one, each with its trouble, with the station's coincidence troubles evaluated, their TROUBLE notices offered
(R13) and an arming window spoiled (R28 to R31, R97). Where no sample of the station is due, nothing happens. That last point, the
order operand, and STUCK where both faults are found, are the model's choices (assumptions 10, 21 and 40). -/
def Obligations.StationSamplesReachTheirChannels : Prop :=
  ∀ (d st : Fin 4) (codes : Vector Code 4) (first : Bool) (j : Fin 4) (c : Fin 16) (s : State), s.resetLow = false →
    (¬SampleDue s (.station d st) → exec (.stationSampleEvent d st codes first) s = .next s) ∧
    (SampleDue s (.station d st) → (stationChannels s.cfg d st)[j.val]? = some c →
    let x := s.channel c
    let code := codes[j].toNat
    let threshold := thresholdOf s d c
    let low := if code < 8 then min 400 (x.low + 1) else 0
    let recorded : Channel := { x with
      ring := (x.ring ++ [codes[j]]).drop (x.ring.length + 1 - 64), low := low,
      clean := if 8 ≤ code ∧ code < threshold then min 400 (x.clean + 1) else 0, effective := threshold }
    ∃ t : State, exec (.stationSampleEvent d st codes first) s = .next t ∧
      (x.state = .unused → t.channel c = x) ∧
      (x.state ≠ .unused → x.state ≠ .active → t.channel c = recorded) ∧
      (x.state ≠ .unused → (t.channel c).ring = recorded.ring ∧ (t.channel c).low = recorded.low ∧
        (t.channel c).clean = recorded.clean) ∧
      (x.state = .active → code < threshold → (t.channel c).run = 0 ∧ (t.channel c).qualified = false) ∧
      (x.state = .active → threshold ≤ code → (t.channel c).state = .active →
        (t.channel c).run = (if x.run = 0 then 1 else min 65535 (x.run + 1)) ∧
        (t.channel c).runStart = (if x.run = 0 then s.tick else x.runStart)) ∧
      (x.state = .active → low = 400 → ∃ k : FaultKind, (t.channel c).state = .fault k) ∧
      (0 < (s.ductCfg d).base.stuckLimit → x.state = .active →
        (faultAfter s d c codes[j] = none → t.channel c = { recorded with
          run := if threshold ≤ code then runAfter x else 0,
          runStart := if threshold ≤ code then startAfter s.tick x else x.runStart,
          qualified := decide (threshold ≤ code) &&
            ((decide (x.run ≠ 0) && x.qualified) || decide ((s.effective d).nq ≤ runAfter x)),
          flash := (t.channel c).flash }) ∧
        (∀ k ∈ faultAfter s d c codes[j],
          t.channel c = { recorded with
            state := .fault k, run := 0, qualified := false,
            runStart := if threshold ≤ code then startAfter s.tick x else x.runStart } ∧
          Raised t (ductZone d) (match k with | .stuck => .channelStuck | .dead => .channelDead) c.val ∧
          OffersThese (raiseNotices s (ductZone d) (match k with | .stuck => .channelStuck | .dead => .channelDead) c.val ++
            coincidenceNotices s d st (activeCount t d st)) s t ∧
          ((s.ctl d).state = .arming → (t.ctl d).windowClean = false) ∧
          (ZonesOk s →
            (Raised t (ductZone d) .stationUnprotected st.val ↔ activeCount t d st = 0) ∧
            (Raised t (ductZone d) .reducedCoincidence st.val ↔ 0 < activeCount t d st ∧
              activeCount t d st ≤ (s.ductCfg d).base.coincidence)))) ∧
      (0 < (s.station d st).dead → (t.station d st).dead = (s.station d st).dead - 1) ∧
      (∀ o : Fin 16, o ∉ stationChannels s.cfg d st → t.channel o = s.channel o) ∧ t.inputs = s.inputs ∧
      KeepsFixed (s.tookSample (.station d st)) t)

/-- A station sample event at which no ACTIVE channel of the station reaches its threshold or reads below the live floor changes those
channels and the dead-time count, and beside them the station's capture where one is filling, with its mark, and the CAPTURE_READY
notice where its completion brings the stored count to the ready threshold (R162, R164), and nothing else (R23, R32): no channel of
another station, no other capture block. The order operand is the model's choice (assumption 21). -/
def Obligations.QuietSamplesChangeOnlyTheStation : Prop :=
  ∀ (d st : Fin 4) (codes : Vector Code 4) (first : Bool) (s : State), s.resetLow = false → SampleDue s (.station d st) →
    0 < (s.ductCfg d).base.stuckLimit →
    (∀ j : Fin 4, ∀ c ∈ (stationChannels s.cfg d st)[j.val]?, (s.channel c).state = .active →
      8 ≤ codes[j].toNat ∧ codes[j].toNat < thresholdOf s d c) →
    let c := s.captures
    ∃ t : State, exec (.stationSampleEvent d st codes first) s = .next t ∧
      (∀ o : Fin 16, o ∉ stationChannels s.cfg d st → t.channel o = s.channel o) ∧
      (c.fillingOf d st = none → t = { s.tookSample (.station d st) with
        channels := t.channels,
        stations := s.stations.set (stationIx d st) { s.station d st with dead := (s.station d st).dead - 1 } }) ∧
      t = { s.tookSample (.station d st) with
        channels := t.channels, captures := t.captures, ports := t.ports,
        stations := s.stations.set (stationIx d st)
          ⟨(s.station d st).dead - 1, (t.station d st).inFlight⟩ } ∧
      (∀ b ∈ c.fillingOf d st,
        t.captures = { c with
          blocks := c.blocks.set b (t.captures.block b), stored := t.captures.stored,
          filling := c.filling.set (stationIx d st) (t.captures.fillingOf d st) } ∧
        ((t.captures.stored = c.stored ∧ t.captures.fillingOf d st = some b) ∨
          (t.captures.stored = c.stored ++ [b] ∧ t.captures.fillingOf d st = none))) ∧ KeepsLinks s t ∧
      OffersAll (if t.captures.stored ≠ c.stored ∧ c.stored.length + 1 = min s.cfg.readyThreshold (blockCount c.layout) then
        [captureNotice 0 c t.captures] else []) s t

/-- A station sample event at which channels qualify, by its outcome (R32 to R35). In dead time it is absorbed: no track, no flash.
With too little coincidence it is an unconfirmed flash: the flash counters of the qualifying set rise. Else it is confirmed: dead time
begins, and the detection joins the first fitting track, or becomes a track at its place in a list with room, judged at once, with the
gate decided on where it is UNQUENCHED, or at a full list floods the duct, a running flood being extended (R51 to R65, R70, R75, R79,
R81, R87). The Duct Controller counts it, comes to ALERT, or stops with the strongest cause of the event (R97, R99, R100, R103, R104,
R106); where its FIRE-kind stop waits for the gate already, a result or an OVERFLOW of a higher level replaces the recorded cause and
raises the level, and one of an equal or lower level leaves the recorded stop (R104). The notices of the flash, the detection, the
valves, the flood, the decision, the gate and the stop are offered (R35, R66, R78, R82, R93). The order operand, the cause taken of
several, absent values and list forms in the notices, the subject of VALVE_FAULT, STUCK where both faults are found, and that a stop
keeps the window-clean mark, are the model's choices (assumptions 20, 21, 22, 24, 25, 32 and 40). -/
def Obligations.DetectionsMatchTrackOrFlood : Prop :=
  ∀ (d st : Fin 4) (codes : Vector Code 4) (first : Bool) (o : Tick) (s : State), s.resetLow = false → ZonesOk s →
      OutputsOk s → BoundsOk s → TracksOk s → PostedOk s → SampleDue s (.station d st) → 0 < (s.ductCfg d).base.stuckLimit →
    let D := s.duct d
    let c := s.ctl d
    let set := qualifyingNow s d st codes
    let unstopped := fun t : State => { c with windowClean := (t.ctl d).windowClean }
    let kept := fun (tracks : List Track) (t : State) =>
      t.duct d = { D with tracks := tracks, ctl := unstopped t } ∧ KeepsOtherDucts d s t ∧ KeepsHazards s t ∧
        t.doors = s.doors ∧ t.arbiter = s.arbiter
    let listed := fun t : State => { unstopped t with listMark := true }
    let fits := ∃ u ∈ D.tracks, Fits st o u
    ∃ t : State, exec (.stationSampleEvent d st codes first) s = .next t ∧
      KeepsFixed (s.tookSample (.station d st)) t ∧ KeepsLinks s t ∧
      t.inputs = s.inputs ∧ (∀ q : Fin 16, q ≠ stationIx d st → t.stations[q] = s.stations[q]) ∧
      ((t.zone (ductZone d)).level ≠ .fire →
        KeepsOtherDucts d s t ∧ ∀ z : Fin 16, z ≠ ductZone d → KeepsHazard z s t) ∧
      (c.state ≠ .arming → (t.ctl d).windowClean = c.windowClean) ∧
      (set = [] ∨ 0 < (s.station d st).dead → kept D.tracks t ∧ (t.station d st).dead = (s.station d st).dead - 1 ∧
        ∀ q : Fin 16, (t.channel q).flash = (s.channel q).flash) ∧
      ((s.station d st).dead = 0 → ¬Coincides s d st codes t → kept D.tracks t ∧ (t.station d st).dead = 0 ∧
        (∀ q : Fin 16, (t.channel q).flash =
          if q ∈ set then min 65535 ((s.channel q).flash + 1) else (s.channel q).flash) ∧
        (IsOrigin s d st codes o → OffersThese [detectionNotice d st (min (s.ductCfg d).base.coincidence (activeCount t d st - 1))
          (coincidenceNow s d st codes) 4 (byteOf set.length :: (set.map (fun q => byteOf q.val) ++ le32 o))] s t)) ∧
      ((s.station d st).dead = 0 → Coincides s d st codes t → IsOrigin s d st codes o →
        (t.station d st).dead = (s.ductCfg d).base.deadTime ∧
        (∀ q : Fin 16, (t.channel q).flash = (s.channel q).flash) ∧
        (fits → ∃ i : Fin 8, ∃ u ∈ D.tracks[i.val]?, Fits st o u ∧ (∀ v ∈ D.tracks.take i.val, ¬Fits st o v) ∧
          kept (D.tracks.set i.val { u with matched := u.matched ++ [st] }) t ∧
          OffersThese [detectionNotice d st D.tracks.length D.tracks.length 1
            (u.id :: byteOf u.station.val :: (le32 o ++ le32 s.tick))] s t) ∧
        (¬fits → D.tracks.length < 8 → ∃ y ∈ (t.duct d).tracks,
          NewTrackOf s d st o y ∧ FreshId D.nextId D.tracks y.id ∧ (t.duct d).nextId = y.id + 1 ∧
          (∃ i : Fin 9, (t.duct d).tracks = D.tracks.take i.val ++ y :: D.tracks.drop i.val ∧
            (∀ u ∈ D.tracks.take i.val, Tick.later u.origin o = false) ∧
            ∀ u ∈ (D.tracks.drop i.val).head?, Tick.later u.origin o = true) ∧
          (t.duct d).flood = D.flood ∧ (t.duct d).test = D.test ∧
          OffersThese (detectionNotice d st D.tracks.length (D.tracks.length + 1) 0
              (y.id :: (le32 o ++ le32 s.tick ++ [bitByte y.blind])) ::
            (valveNotices s t d 0 ++ valveNotices s t d 1 ++
              (if y.quenched then [] else decisionNotices s d (s.gate d) [y]))) s t ∧
          (∀ v : Fin 2, (∃ e ∈ y.valves, e.valve = v) →
            ((t.valve d v).output = true ↔ SprayDue t d v) ∧ ValveTurned d v s t) ∧
          (∀ v : Fin 2, (∀ e ∈ y.valves, e.valve ≠ v) → t.valve d v = s.valve d v) ∧
          (t.ctl d).listMark = true ∧ (c.state = .arming → (t.ctl d).windowClean = false) ∧
          (y.quenched = false → TakesFireStop c →
            FireStopped d (gateResult (s.gateCfg d) (s.gate d) s.tick y.gate) (listed t) s t) ∧
          (y.quenched = false → c.state = .offline ∨ c.state = .stopped → t.ctl d = listed t ∧
            (y.gate.isSome = true → GateShut d s t) ∧ (y.gate = none → t.gate d = s.gate d)) ∧
          (y.quenched = true → RateReached s d → FireStopped d .sparkRate (listed t) s t) ∧
          (y.quenched = true → c.state.counts = true → ¬RateReached s d →
            t.ctl d = counted s d (listed t) ∧ t.gate d = s.gate d ∧
              ((t.ctl d).state ≠ c.state → OffersThese [stateNotice d c (t.ctl d)] s t)) ∧
          (c.fireStopping = true →
            FireStopGoes d (if y.quenched then none else some (gateResult (s.gateCfg d) (s.gate d) s.tick y.gate)) (listed t) s t ∧
              t.gate d = (if y.quenched then s.gate d else gateAfter (s.gateCfg d) s.tick (s.gate d) y)) ∧
          (y.quenched = true → c.state.counts = false → c.fireStopping = false →
            t.ctl d = listed t ∧ t.gate d = s.gate d)) ∧
        (¬fits → 8 ≤ D.tracks.length → 1 ≤ (s.ductCfg d).floodTime → (s.ductCfg d).floodTime ≤ 60 →
          (∀ e ∈ D.flood, Tick.later e s.tick = true) →
          (t.duct d).tracks = D.tracks ∧ (t.duct d).nextId = D.nextId ∧ (t.duct d).test = D.test ∧
          (let new := s.tick.plus (4000 * (s.ductCfg d).floodTime)
          let ends :=
            match D.flood with
            | none => new
            | some e => if Tick.later e new then e else new
          (t.duct d).flood = some ends ∧
            OffersThese (detectionNotice d st 8 8 2 (le32 o ++ le32 s.tick) ::
              floodNotice d (if D.flood = none then 0 else 1) 1 ends :: (valveNotices s t d 0 ++ valveNotices s t d 1)) s t) ∧
          (∀ v : Fin 2, ValveTurned d v s t ∧ ((s.valveCfg d v).installed = true → (t.valve d v).output = true)) ∧
          (c.fireStopping = true → FireStopGoes d (some .overflow) (unstopped t) s t ∧ t.gate d = s.gate d) ∧
          (TakesFireStop c → FireStopped d .overflow (unstopped t) s t) ∧
          (c.state = .offline ∨ c.state = .stopped → t.ctl d = unstopped t ∧ t.gate d = s.gate d)))

/-! ### Velocity and tracks -/

/-- The transducer is sampled once at every tick while RUNNING: the samples add up, and the 64th is the velocity update (R43), which
moves the velocity state by the table of R44; where no sample is due, or it is the other row's, nothing happens. The Duct Controller
takes the report of every update (R46): STARTING enters ARMING at a VALID velocity of at least Lmin with the gate OPEN or not
installed, with a clean window of 8000 ticks begun (R96); any other velocity spoils an ARMING window (R97); in GUARDED and ALERT a
velocity below Lmin starts the low-flow timer or keeps it, one at or above Lmin or a FAILED one stops it (R102); in the other states
nothing moves. The hold timer takes HELD to FAILED with VELOCITY_FAULT (R45). A change of velocity state offers its VELOCITY notice, a
raise and a clear of VELOCITY_FAULT their TROUBLE notice, an entry to ARMING its STATE notice (R13, R46, R93). That one command is one
sample, and the subject of the trouble, are the model's choices (assumptions 10, 12 and 24). -/
def Obligations.VelocityMovesByItsTable : Prop :=
  ∀ (d : Fin 4) (code : Code) (s : State), s.resetLow = false → ZonesOk s → PostedOk s →
    let v := (s.duct d).vel
    let c := s.ctl d
    let bad := v.bad = true ∨ code.toNat < 16 ∨ 4079 < code.toNat
    let m := (v.sum + code.toNat) * (s.ductCfg d).span / 262080
    let lmin := (s.ductCfg d).lmin
    let due := SampleDue s (.transducer d)
    (due → v.count < 63 → exec (.transducerSample d code) s = .next ((s.tookSample (.transducer d)).setDuct d { s.duct d with
      vel := { v with count := v.count + 1, sum := v.sum + code.toNat,
                      bad := v.bad || decide (code.toNat < 16) || decide (4079 < code.toNat) } })) ∧
    (¬due ∨ v.count = 63 → exec (.transducerSample d code) s = .next s) ∧
    (¬due ∨ v.count < 63 → exec (.velocityUpdate d code) s = .next s) ∧
    (due → v.count = 63 → ∃ t : State, exec (.velocityUpdate d code) s = .next t ∧
      (let w := (t.duct d).vel
      w = { v with count := 0, sum := 0, bad := false, state := w.state, value := w.value, hold := w.hold,
                   recovery := w.recovery, bounds := w.bounds } ∧
      (¬bad → v.state ≠ .failed → w.state = .valid ∧ w.value = m ∧ w.hold = none ∧ w.recovery = 0) ∧
      (¬bad → v.state = .failed → v.recovery < 7 →
        w.state = .failed ∧ w.value = v.value ∧ w.hold = v.hold ∧ w.recovery = v.recovery + 1) ∧
      (¬bad → v.state = .failed → 7 ≤ v.recovery →
        w.state = .valid ∧ w.value = m ∧ w.hold = none ∧ w.recovery = 0 ∧ ¬Raised t (ductZone d) .velocityFault (d.val + 1)) ∧
      (bad → v.state = .valid →
        w.state = .held ∧ w.value = v.value ∧ w.hold = some (s.tick.plus 8000) ∧ w.recovery = 0) ∧
      (bad → v.state = .held → w.state = .held ∧ w.value = v.value ∧ w.hold = v.hold) ∧
      (bad → v.state = .failed → w.state = .failed ∧ w.value = v.value ∧ w.recovery = 0) ∧
      (OutputsOk s →
        let sound := w.state = .valid ∧ lmin ≤ w.value
        let ready := (s.gateCfg d).installed = false ∨ (s.gate d).state = .opened
        (c.state = .starting → sound → ready → t.ctl d = { c with
          state := .arming, arm := some (s.tick.plus 8000), windowClean := true, cleanCount := 0 }) ∧
        (c.state = .starting → ¬(sound ∧ ready) → t.ctl d = c) ∧
        (c.state = .arming → sound → t.ctl d = c) ∧
        (c.state = .arming → ¬sound → t.ctl d = { c with windowClean := false }) ∧
        (c.state = .guarded ∨ c.state = .alert → t.ctl d = { c with
          lowFlow := if w.state = .failed ∨ lmin ≤ w.value then none
            else some (c.lowFlow.getD (s.tick.plus (4000 * (s.ductCfg d).lowFlowGrace))) }) ∧
        (c.state = .offline ∨ c.state = .stopping ∨ c.state = .stopped → t.ctl d = c)) ∧
      DuctTold d ((if w.state = v.state then [] else [velocityNotice d v w]) ++
        (if v.state = .failed ∧ w.state ≠ .failed then clearNotices s (ductZone d) .velocityFault (d.val + 1) else []) ++
        (if (t.ctl d).state = c.state then [] else [stateNotice d c (t.ctl d)])) s t) ∧
      t.gate d = s.gate d ∧ KeepsWater d s t ∧ KeepsLinks s t ∧ StaysInDuct d (s.tookSample (.transducer d)) t) ∧
    (s.isRunning = true → v.hold = some s.tick → v.state = .held → ∃ t : State, exec (.holdTimerExpiry d) s = .next t ∧
      (t.duct d).vel = { v with state := .failed, hold := none, recovery := 0, bounds := (t.duct d).vel.bounds } ∧
      DuctTold d (velocityNotice d v (t.duct d).vel :: raiseNotices s (ductZone d) .velocityFault (d.val + 1)) s t ∧
      Raised t (ductZone d) .velocityFault (d.val + 1) ∧ t.ctl d = s.ctl d ∧ t.gate d = s.gate d ∧ KeepsWater d s t ∧
      KeepsLinks s t ∧ StaysInDuct d s t)

/-- The arrival arithmetic: for every distance and velocity in range the computed offset is the exact travel time's floor or one tick
less, a faster upper bound never arrives later, and so every entry of a track has its earliest arrival no later than its latest and
neither beyond the exact travel time at its bound (R52, R53). -/
def Obligations.ArrivalsAreNeverLate : Prop :=
  (∀ d w : Nat, 1 ≤ d → d ≤ 20000 → 20 ≤ w → w ≤ 500 →
    arrival d w = d * 400 * (16777216 / w) / 16777216 ∧ arrival d w * w ≤ d * 400 ∧
      (arrival d w = d * 400 / w ∨ arrival d w + 1 = d * 400 / w)) ∧
  (∀ d lo hi : Nat, 20 ≤ lo → lo ≤ hi → hi ≤ 500 → arrival d hi ≤ arrival d lo) ∧
  (∀ (c : ValveCfg) (v : Fin 2) (pos : Nat) (origin now : Tick) (k : DuctCfg) (vel : VelState) (value : Nat)
      (state : DuctState), 50 ≤ k.lmin → k.lmin ≤ 300 →
    let b := boundsFor k vel value state
    ∀ e ∈ valveEntry c v pos origin now b,
      e.te ≤ e.tl ∧ e.te * b.vHi ≤ (c.position - pos) * 400 ∧ e.tl * b.vLo ≤ (c.position - pos) * 400) ∧
  (∀ (c : GateCfg) (pos : Nat) (origin : Tick) (k : DuctCfg) (vel : VelState) (value : Nat) (state : DuctState),
    let b := boundsFor k vel value state
    ∀ e ∈ gateEntry c pos origin b, e.te * b.vHi ≤ (c.position - pos) * 400) ∧
  (∀ (c : Cfg) (d st : Fin 4) (pos : Nat) (origin : Tick) (vel : VelState) (value : Nat) (state : DuctState),
    50 ≤ c.ducts[d].lmin → c.ducts[d].lmin ≤ 300 →
    let b := boundsFor c.ducts[d] vel value state
    let far := stationPosition c d st - pos
    ∀ e ∈ stationEntry c d st pos origin b, e.te ≤ e.tl ∧ e.te * b.vHi ≤ far * 400 ∧ e.tl * b.vLo ≤ far * 400) ∧
  arrival 2200 500 = 1759

/-- A track retires at its retirement tick: it leaves the list, the others keep their order, a RETIRED notice is offered (R66), and an
emptied list is told to the Duct Controller, whose EMBER cause goes (R69, R71, R108). The judgment's byte in that notice is the
model's choice (assumption 25). -/
def Obligations.TracksRetireAtTheirTick : Prop :=
  ∀ (d : Fin 4) (x : Track) (s : State), Working s → ZonesOk s → PostedOk s → TracksOk s → x ∈ (s.duct d).tracks →
    x.retire = s.tick →
    ∃ t : State, exec (.trackRetirement d x.id) s = .next t ∧
      (t.duct d).tracks = (s.duct d).tracks.filter (fun y => decide (y.id ≠ x.id)) ∧
      DuctTold d [detectionNotice d x.station (s.duct d).tracks.length ((s.duct d).tracks.length - 1) 3
        (x.id :: (le32 x.origin ++ (if x.quenched then 0 else 1) ::
          byteOf x.matched.length :: x.matched.map fun m => byteOf m.val))] s t ∧
      (t.ctl d).state = (s.ctl d).state ∧ (t.ctl d).listMark = decide ((s.duct d).tracks.length ≠ 1) ∧
      ((s.duct d).tracks.length = 1 → (t.zone (ductZone d)).causes[CauseKey.ember.ix] = .normal) ∧
      (t.duct d).nextId = (s.duct d).nextId ∧ (t.duct d).valves = (s.duct d).valves ∧ t.gate d = s.gate d ∧
      (t.duct d).flood = (s.duct d).flood ∧ (t.duct d).test = (s.duct d).test ∧ KeepsLinks s t ∧ StaysInDuct d s t

/-! ### Valves and gates -/

/-- A spray window's open or close tick sets the valve's output to the condition of R75: turned on it is a new OPENING with its
flow-confirm timer, or confirmed at once with VALVE_FAULT cleared; turned off the valve is CLOSED; otherwise nothing happens. The end
of a flood evaluates both valves so, the end of a test its valve (R75, R76, R87, R89). The notices are VALVE for each output that
changed, TROUBLE for a cleared VALVE_FAULT, FLOOD and TEST for the ends, and no other (R13, R78). The subject of VALVE_FAULT, that a
window command is a plain evaluation, and what a flood or a test is at its very end tick, are the model's choices (assumptions 24, 26
and 27). -/
def Obligations.ValveOutputsFollowTheirWindows : Prop :=
  ∀ (d : Fin 4) (v : Fin 2) (s : State), Working s →
    let x := s.valve d v
    let evaluated := fun t : State =>
      ((t.valve d v).output = true ↔ SprayDue s d v) ∧ ValveTurned d v s t ∧ OffersAll (valveNotices s t d v) s t ∧
      (x.output = true → SprayDue s d v → t = s) ∧ (x.output = false → ¬SprayDue s d v → t = s) ∧
      t.duct d = { s.duct d with valves := (s.duct d).valves.set v (t.valve d v) } ∧ KeepsHazards s t ∧ KeepsLinks s t ∧
      StaysInDuct d s t ∧ t.doors = s.doors ∧ t.arbiter = s.arbiter
    (∃ t : State, exec (.sprayWindowOpen d v) s = .next t ∧ evaluated t) ∧
    (∃ t : State, exec (.sprayWindowClose d v) s = .next t ∧ evaluated t) ∧
    ((s.duct d).flood = some s.tick → ∃ t : State, exec (.floodEnd d) s = .next t ∧
      t.duct d = { s.duct d with flood := none, valves := (t.duct d).valves } ∧
      ((t.valve d v).output = true ↔ SprayDue t d v) ∧ ValveTurned d v s t ∧
      OffersAll (floodNotice d 1 0 s.tick :: (valveNotices s t d 0 ++ valveNotices s t d 1)) s t ∧ KeepsHazards s t ∧ KeepsLinks s t ∧
      StaysInDuct d s t ∧ t.doors = s.doors ∧ t.arbiter = s.arbiter) ∧
    (∀ r ∈ (s.duct d).test, r.until_ = s.tick → ∃ t : State, exec (.testEnd d) s = .next t ∧
      t.duct d = { s.duct d with test := none, valves := (s.duct d).valves.set r.valve (t.valve d r.valve) } ∧
      ((t.valve d r.valve).output = true ↔ SprayDue t d r.valve) ∧ ValveTurned d r.valve s t ∧
      OffersAll (testNotice d 1 0 r.valve s.tick :: valveNotices s t d r.valve) s t ∧ KeepsHazards s t ∧ KeepsLinks s t ∧
      StaysInDuct d s t ∧ t.doors = s.doors ∧ t.arbiter = s.arbiter)

/-- TEST_VALVE from SV with the key closed: on an OFFLINE or STOPPED duct without tracks, an installed valve is opened for the clamped
seconds: opening tick, flow-confirm timer or confirmation at once with VALVE_FAULT cleared, as at any opening (R75, R76, R88, R175),
with the TEST notice and the notices of the valve (R13, R78). The subject of VALVE_FAULT is the model's choice (assumption 24). -/
def Obligations.TestValveOpensTheValve : Prop :=
  ∀ (n : Byte) (d : Fin 4) (v : Fin 2) (seconds : Word16) (s : State), TakesFrame s .sv → s.isRunning = true →
    s.keyClosed = true → (s.ctl d).state = .offline ∨ (s.ctl d).state = .stopped → (s.duct d).tracks = [] →
    (s.valveCfg d v).installed = true → (s.duct d).test = none →
    let ends := s.tick.plus (4000 * max 1 (min 30 seconds.toNat))
    ∃ t : State, exec (.testValve .sv n (ductNumber d) (byteOf v.val) seconds) s = .next t ∧
      Answers .sv ⟨codeTestValve, n, .ok, byteOf (t.valve d v).state.num :: le32 ends⟩ s t ∧
      (t.duct d).test = some ⟨v, ends⟩ ∧ (t.valve d v).output = true ∧ ValveTurned d v s t ∧
      OffersAll (testNotice d 0 1 v ends :: valveNotices s t d v)
        (s.answered .sv ⟨codeTestValve, n, .ok, byteOf (t.valve d v).state.num :: le32 ends⟩) t ∧
      t.duct d = { s.duct d with test := (t.duct d).test, valves := (s.duct d).valves.set v (t.valve d v) } ∧
      KeepsHazards s t ∧ StaysInDuct d s t ∧ t.doors = s.doors ∧ t.arbiter = s.arbiter

/-- The flow switch of an installed valve is sampled once at every tick while RUNNING (R74). A sample that finds it active while the
flow-confirm timer of an OPEN valve runs, after one that found it inactive, confirms the opening and clears VALVE_FAULT, with the
TROUBLE notice of that clear and no other notice (R13, R78); any other change is kept as sampled and alters nothing else (R76). Where
no sample is due the lead takes its level and nothing else happens; a sample without a change leaves nothing but its tick. That a
level is kept until the sample, that one command moves the lead and takes the sample it meets, and the subject of VALVE_FAULT, are the
model's choices (assumptions 10, 11 and 24). -/
def Obligations.FlowSwitchConfirmsAnOpening : Prop :=
  ∀ (d : Fin 4) (v : Fin 2) (active : Bool) (s : State), s.resetLow = false → ZonesOk s →
    let x := s.valve d v
    let supervised := active = true ∧ x.state = .opened ∧ x.timer.isSome = true
    let moved := { s with leads := { s.leads with flow := s.leads.flow.set d (s.leads.flow[d].set v active) } }
    let base := moved.tookSample (.flow d v)
    (¬SampleDue s (.flow d v) → exec (.flowSwitchChange d v active) s = .next moved) ∧
    (SampleDue s (.flow d v) → x.flow = active → exec (.flowSwitchChange d v active) s = .next base) ∧
    (SampleDue s (.flow d v) → x.flow ≠ active → ∃ t : State, exec (.flowSwitchChange d v active) s = .next t ∧
      (supervised → t.valve d v = { x with flow := true, timer := none, confirmed := true } ∧
        OffersAll (clearNotices s (ductZone d) .valveFault v.val) s t ∧
        ¬Raised t (ductZone d) .valveFault v.val) ∧
      (¬supervised → t.valve d v = { x with flow := active } ∧ t.zones = s.zones ∧ t.ports = s.ports) ∧
      t.duct d = { s.duct d with valves := (s.duct d).valves.set v (t.valve d v) } ∧ KeepsFixed base t ∧ KeepsOtherDucts d s t ∧
      KeepsDetectors s t ∧ KeepsHazards s t ∧ KeepsLinks s t ∧ t.doors = s.doors ∧ t.arbiter = s.arbiter)

/-- A flow-confirm timer that runs out in OPEN puts the valve into FAULT with VALVE_FAULT, its output staying on, and every track is
judged again, never back to QUENCHED (R77, R79, R80). Each track that turns UNQUENCHED has its gate decision: a gate that one of them
lists is ordered shut, and a duct that takes the stop stops with OUTRUN or DIVERTED as R81 decides, each decision with the gate as the
one before left it (R81, R82, R103, R104, R106); where its FIRE-kind stop waits for the gate already, OUTRUN raises the level of an
ALARM stop and DIVERTED leaves the recorded stop (R104). The notices are VALVE, VALVE_FAULT's, one for each decision, GATE for the
close command and STATE for the stop (R13, R78, R82, R93). The subject of VALVE_FAULT, the cause taken of several, absent values in
the notices, and that a stop keeps the window-clean mark, are the model's choices (assumptions 20, 22, 24 and 32). -/
def Obligations.UnconfirmedOpeningFaultsTheValve : Prop :=
  ∀ (d : Fin 4) (v : Fin 2) (s : State), Working s → (s.valve d v).timer = some s.tick → (s.valve d v).state = .opened →
    let after := (s.duct d).valves.set v { s.valve d v with state := .fault, timer := none }
    ∃ t : State, exec (.flowConfirmExpiry d v) s = .next t ∧ (t.duct d).valves = after ∧
      Raised t (ductZone d) .valveFault v.val ∧
      (t.duct d).tracks = (s.duct d).tracks.map (fun x => { x with
        quenched := x.quenched && x.valves.any fun e => !(e.late ||
          (decide (after[e.valve].state = .fault) && Tick.later e.closeTick after[e.valve].openTick)) }) ∧
      (t.duct d).nextId = (s.duct d).nextId ∧ (t.duct d).flood = (s.duct d).flood ∧ (t.duct d).test = (s.duct d).test ∧
      KeepsLinks s t ∧ KeepsFixed s t ∧ KeepsDetectors s t ∧
      (let news := (s.duct d).tracks.filter fun x => x.quenched && !x.valves.any fun e => !(e.late ||
          (decide (after[e.valve].state = .fault) && Tick.later e.closeTick after[e.valve].openTick))
      OffersThese (valveNotice d v (s.valve d v) after[v] :: (raiseNotices s (ductZone d) .valveFault v.val ++
        decisionNotices s d (s.gate d) news)) s t) ∧
      (ZonesOk s → PostedOk s → OutputsOk s →
        let news := (s.duct d).tracks.filter fun x => x.quenched && !x.valves.any fun e => !(e.late ||
          (decide (after[e.valve].state = .fault) && Tick.later e.closeTick after[e.valve].openTick))
        let cause : StopCause :=
          if .outrun ∈ decideAll (s.gateCfg d) s.tick (s.gate d) news then .outrun else .diverted
        (news = [] → (s.ctl d).fireStopping = false → t.gate d = s.gate d ∧ t.ctl d = s.ctl d) ∧
        (∀ x ∈ news, x.gate.isSome = true → GateShut d s t) ∧
        (news ≠ [] → TakesFireStop (s.ctl d) → FireStopped d cause (s.ctl d) s t) ∧
        ((s.ctl d).fireStopping = true → FireStopGoes d (if news = [] then none else some cause) (s.ctl d) s t ∧
          ((∀ x ∈ news, x.gate = none) → t.gate d = s.gate d)) ∧
        ((s.ctl d).state = .offline ∨ (s.ctl d).state = .stopped → t.ctl d = s.ctl d ∧
          ((∀ x ∈ news, x.gate = none) → t.gate d = s.gate d)))

/-- The position switches of an installed gate are sampled once at every tick while RUNNING (R74). The switch that a stroke drives
towards ends it: drives off, timer idle, a standing GATE_FAULT cleared, and a FIRE-kind stop that waited for the gate is STOPPED. The
switches of a gate at rest do not move it, and during a stroke neither the other switch nor the awaited one's turning inactive does:
the gate records the switch and keeps its stroke (R85, R106). The notices are GATE for the stroke's end, TROUBLE for the clear and
STATE for the stop (R13, R78, R93). Where no sample is due the lead takes its level and nothing else happens; a sample without a
change leaves nothing but its tick. That a level is kept until the sample, that one command moves the lead and takes the sample it
meets, and subject 0 for the gate, are the model's choices (assumptions 10, 11 and 24). -/
def Obligations.GateSwitchEndsItsStroke : Prop :=
  ∀ (d : Fin 4) (which : GateSwitch) (active : Bool) (s : State), s.resetLow = false → ZonesOk s → PostedOk s →
    let g := s.gate d
    let moved := { s with leads := match which with
      | .openSwitch => { s.leads with gateOpen := s.leads.gateOpen.set d active }
      | .closedSwitch => { s.leads with gateClosed := s.leads.gateClosed.set d active } }
    let base := moved.tookSample (.gate d which)
    let seen := fun (st : GateState) (t : State) =>
      t.gate d = { (g.withSwitch which active) with
        state := st, openDrive := false, closeDrive := false, timer := none, troubleMark := false } ∧
      (g.troubleMark = true → ¬Raised t (ductZone d) .gateFault 0)
    (¬SampleDue s (.gate d which) → exec (.gateSwitchChange d which active) s = .next moved) ∧
    (SampleDue s (.gate d which) → g.switch which = active → exec (.gateSwitchChange d which active) s = .next base) ∧
    (SampleDue s (.gate d which) → g.switch which ≠ active →
      ∃ t : State, exec (.gateSwitchChange d which active) s = .next t ∧
        (g.state = .closing → which = .closedSwitch → active = true → seen .closed t) ∧
        (g.state = .opening → which = .openSwitch → active = true → seen .opened t) ∧
        (g.state = .opened ∨ g.state = .closed ∨ g.state = .fault → t.gate d = g.withSwitch which active) ∧
        (g.state = .closing → (g.withSwitch which active).closedSwitch = false → t.gate d = g.withSwitch which active) ∧
        (g.state = .opening → (g.withSwitch which active).openSwitch = false → t.gate d = g.withSwitch which active) ∧
        ((t.gate d).state = .closed ∨ (t.gate d).state = .fault → (s.ctl d).fireStopping = true →
          t.ctl d = { s.ctl d with state := .stopped, purge := none, feeder := false, fan := false }) ∧
        (OutputsOk s → (s.ctl d).fireStopping = true → FireStopGoes d none (s.ctl d) s t) ∧
        ((s.ctl d).fireStopping = false → t.ctl d = s.ctl d) ∧
        DuctTold d ((if (t.gate d).state = g.state then [] else
            gateNotice d g.state (t.gate d).state g.cmdTick 0 ::
              (if g.troubleMark then clearNotices s (ductZone d) .gateFault 0 else [])) ++
          (if (t.ctl d).state = (s.ctl d).state then [] else [stateNotice d (s.ctl d) (t.ctl d)])) s t ∧
        KeepsWater d s t ∧ KeepsLinks s t ∧ StaysInDuct d base t)

/-- A gate whose supervision timer runs out in a stroke enters FAULT with both drives off and GATE_FAULT; a FIRE-kind stop then
asserts FIRE and is STOPPED, and a duct that waited in STARTING for the gate stops with START_GATE (R86, R96, R106). The notices are
GATE, TROUBLE where GATE_FAULT was not standing, and STATE for the raised level and for each new state (R13, R78, R93). Subject 0 for
the gate, one STATE notice for each of two changes of a stop, and that a stop keeps the window-clean mark, are the model's choices
(assumptions 24, 31 and 32). -/
def Obligations.OverdueStrokeFaultsTheGate : Prop :=
  ∀ (d : Fin 4) (s : State), Working s → ZonesOk s → PostedOk s → (s.gate d).timer = some s.tick →
    (s.gate d).state = .closing ∨ (s.gate d).state = .opening → (s.gateCfg d).installed = true →
    let g := s.gate d
    let c := s.ctl d
    ∃ t : State, exec (.gateSupervisionExpiry d) s = .next t ∧
      t.gate d = { g with state := .fault, openDrive := false, closeDrive := false, timer := none, troubleMark := true } ∧
      (g.troubleMark = false → Raised t (ductZone d) .gateFault 0) ∧
      DuctTold d (gateNotice d g.state .fault g.cmdTick 1 ::
        ((if g.troubleMark then [] else raiseNotices s (ductZone d) .gateFault 0) ++
          (if g.state = .opening ∧ c.state = .starting then orderlyNotices s d .startGate
          else if c.fireStopping then
            (let raised : Ctl := { c with stop := c.stop.map fun x => { x with level := .fire } }
            (if raised = c then [] else [stateNotice d c raised]) ++ [stateNotice d raised { raised with state := .stopped }])
          else []))) s t ∧
      (c.fireStopping = true → (t.ctl d).state = .stopped ∧
        (t.ctl d).stop = c.stop.map (fun x => { x with level := .fire }) ∧ (t.ctl d).fan = false ∧
        (t.zone (ductZone d)).level = .fire ∧ (t.zone (ductZone d)).latch = true) ∧
      (g.state = .opening → c.state = .starting → StoppedOrderly d .startGate s t) ∧
      (c.fireStopping = false → ¬(g.state = .opening ∧ c.state = .starting) → t.ctl d = c) ∧
      KeepsWater d s t ∧ KeepsLinks s t ∧ KeepsFixed s t ∧ KeepsDetectors s t

/-! ### Overlays -/

/-- PUSH_OVERLAY places an entry on top, POP_OVERLAY removes the top one (FP any, PC its own), and an entry that expires leaves from
wherever it stands, the others keeping their order; nothing but the stack and the ports changes (R115, R118 to R120). Each offers its
OVERLAY notice, with the parameters in effect after it, and no other (R116, R122). That places are counted from 0 at the bottom, in
the notice and in OVERLAY_EXPIRY, is the model's choice (assumption 23). -/
def Obligations.OverlaysPushPopAndExpire : Prop :=
  ∀ (p : Port) (n : Byte) (d : Fin 4) (position : Fin 4) (duration offset : Word16) (nq a b c : Byte) (window : Word16)
      (s : State), Working s →
    let l := (s.duct d).overlays
    let stack := fun (new : List Overlay) (t : State) =>
      t.duct d = { s.duct d with overlays := new } ∧ KeepsFixed s t ∧ KeepsDetectors s t ∧ KeepsOtherDucts d s t ∧
        t.zones = s.zones ∧ t.doors = s.doors ∧ t.arbiter = s.arbiter
    let ends := s.tick.plus (4000 * max 60 (min 14400 duration.toNat))
    (p ≠ .sv → TakesFrame s p → offset.toNat ≤ 1023 → 1 ≤ nq.toNat → nq.toNat ≤ 16 → 1 ≤ window.toNat → window.toNat ≤ 60 →
      (s.zone (ductZone d)).level.atLeast .alarm = false → l.length < 4 →
      let e : Overlay := ⟨p, ends, ⟨offset.toNat, nq.toNat, a.toNat, b.toNat, c.toNat, window.toNat⟩⟩
      let answer : Response := ⟨codePushOverlay, n, .ok, byteOf (l.length + 1) :: le32 (ends >>> 2)⟩
      ∃ t : State, exec (.pushOverlay p n (ductNumber d) duration offset nq a b c window) s = .next t ∧
        Answers p answer s t ∧ stack (e :: l) t ∧
        OffersAll [overlayNotice d 0 l.length (l.length + 1) e l.length e.params] (s.answered p answer) t) ∧
    (∀ e ∈ l.head?, p = .fp ∨ (p = .pc ∧ e.owner = .pc) → TakesFrame s p →
      let answer : Response := ⟨codePopOverlay, n, .ok, byteOf l.tail.length :: byteOf (portNum e.owner) :: le32 (e.expiry >>> 2)⟩
      ∃ t : State, exec (.popOverlay p n (ductNumber d)) s = .next t ∧ Answers p answer s t ∧ stack l.tail t ∧
        OffersAll [overlayNotice d 1 l.length l.tail.length e l.tail.length (paramsUnder s d l.tail)] (s.answered p answer) t) ∧
    (∀ e ∈ l[l.length - 1 - position.val]?, position.val < l.length → e.expiry = s.tick →
      let left := l.eraseIdx (l.length - 1 - position.val)
      ∃ t : State, exec (.overlayExpiry d position) s = .next t ∧ KeepsLinks s t ∧ stack left t ∧
        OffersAll [overlayNotice d 2 l.length (l.length - 1) e position.val (paramsUnder s d left)] s t)

/-! ### Doors -/

/-- HOLD_DOOR from FP or PC: a door that is FREE, HELD or waiting after no zone's cause, with no bordering zone that forbids it, is
HELD under its magnet with the port's hold to the clamped end, the other port's hold kept (R126, R129, R175), with its DOOR notice
(R139). The hold list of a DOOR notice, and its order, are the model's choices (assumptions 28 and 42). -/
def Obligations.HoldDoorHoldsTheDoor : Prop :=
  ∀ (p : Port) (n : Byte) (i : Fin 12) (seconds : Word16) (s : State), p ≠ .sv → TakesFrame s p → s.isRunning = true →
    let x := s.door i
    let k := s.cfg.doors[i]
    let ends := s.tick.plus (4000 * max 1 (min 300 seconds.toNat))
    (∀ z : Fin 16, zoneIn k.zones z = true →
      (s.zone z).level ≠ .fire ∧ (k.closeOnAlarm = true → (s.zone z).level ≠ .alarm)) →
    x.state = .free ∨ x.state = .held ∨ (x.state = .releaseWait ∧
      (x.cause = some .holdExpired ∨ x.cause = some .holdWithdrawn ∨ x.cause = some .closeRequest)) →
    ∃ t : State, exec (.holdDoor p n (byteOf i.val) seconds) s = .next t ∧
      Answers p ⟨codeHoldDoor, n, .ok, doorStateBytes t i⟩ s t ∧
      OffersAll (doorNotices s t i 5) (s.answered p ⟨codeHoldDoor, n, .ok, doorStateBytes t i⟩) t ∧
      t.door i = { x with
        state := .held, magnet := true, cause := none, obstruction := none, close := none, propped := none,
        holdFp := if p = .fp then some ends else x.holdFp, holdPc := if p = .pc then some ends else x.holdPc } ∧
      t.zones = s.zones ∧ StaysAtDoor i s t

/-- The last hold that is withdrawn or expires lets the door go with that cause, an earlier one leaves it HELD; CLOSE_DOOR lets a HELD
door go whoever holds it, takes the cause of a wait after a hold, and leaves other doors as they are (R130 to R132, R134). Each change
offers its DOOR notice, and the clearing of DOOR_PROPPED at an entry to FREE its TROUBLE notice (R13, R138, R139). The hold list of a
DOOR notice, and its order, are the model's choices (assumptions 28 and 42). -/
def Obligations.DoorsAreLetGo : Prop :=
  ∀ (p : Port) (n : Byte) (i : Fin 12) (s : State), p ≠ .sv → Working s →
    let x := s.door i
    let mine := if p = .fp then x.holdFp else x.holdPc
    let other := if p = .fp then x.holdPc else x.holdFp
    let left := fun (cause : ReleaseCause) (staying : Byte) (from_ t : State) =>
      OffersAll (doorNotices s t i (if other = none then byteOf cause.num else staying)) from_ t ∧
      (other = none → LetGo s.cfg.doors[i] s.tick cause x (t.door i)) ∧
      (other.isSome = true → t.door i = { x with
        holdFp := if p = .fp then none else x.holdFp, holdPc := if p = .pc then none else x.holdPc }) ∧ StaysAtDoor i s t
    (TakesFrame s p → mine.isSome = true → ∃ t : State, exec (.unholdDoor p n (byteOf i.val)) s = .next t ∧
      Answers p ⟨codeUnholdDoor, n, .ok, doorStateBytes t i⟩ s t ∧
      left .holdWithdrawn 6 (s.answered p ⟨codeUnholdDoor, n, .ok, doorStateBytes t i⟩) t) ∧
    (TakesFrame s p → mine = none → exec (.unholdDoor p n (byteOf i.val)) s =
      .next (s.answered p ⟨codeUnholdDoor, n, .noData, doorStateBytes s i⟩)) ∧
    (mine = some s.tick → ∃ t : State, exec (.holdExpiry i p) s = .next t ∧ KeepsLinks s t ∧ left .holdExpired 7 s t) ∧
    (TakesFrame s p → ∃ t : State, exec (.closeDoor p n (byteOf i.val)) s = .next t ∧
      Answers p ⟨codeCloseDoor, n, .ok, doorStateBytes t i⟩ s t ∧ StaysAtDoor i s t ∧
      OffersAll (if t.door i = x then [] else doorNotices s t i 2) (s.answered p ⟨codeCloseDoor, n, .ok, doorStateBytes t i⟩) t ∧
      (x.state = .held → LetGo s.cfg.doors[i] s.tick .closeRequest x (t.door i)) ∧
      (x.state = .releaseWait → x.cause = some .holdExpired ∨ x.cause = some .holdWithdrawn →
        t.door i = { x with cause := some .closeRequest }) ∧
      (x.state = .releaseWait → x.cause = some .closeRequest ∨ x.cause = some .zoneAlarm ∨ x.cause = some .zoneFire →
        t.door i = x) ∧
      (x.state = .free ∨ x.state = .closing ∨ x.state = .stuck → t.door i = x))

/-- The closed switch and the barrier of a door are sampled once at each tick at which the millisecond clock advances, while RUNNING.
A closed switch that is found to have turned active shuts a CLOSING or STUCK door with its troubles, and clears DOOR_PROPPED in every
state; one found to have turned inactive in FREE starts the propped timer. A doorway that is found clear lets a waiting door close
(R127, R135 to R138). The notices are DOOR for a change of state and TROUBLE for each clear, and no other (R13, R139); that the notice
of a wait that ends in FREE carries BARRIER, and the hold list of a DOOR notice, are the model's choices (assumptions 28, 42 and 43).
Where no sample is due the lead takes its level and nothing else happens; a sample without a change leaves nothing but its tick. That
a level is kept until the sample, and that one command moves the lead and takes the sample it meets, are the model's choices
(assumptions 10 and 11). -/
def Obligations.DoorInputsMoveTheDoor : Prop :=
  ∀ (i : Fin 12) (active : Bool) (s : State), s.resetLow = false → ZonesOk s →
    let x := s.door i
    let k := s.cfg.doors[i]
    let closed := { s with leads := { s.leads with closedSwitches := s.leads.closedSwitches.set i active } }
    let barred := { s with leads := { s.leads with barriers := s.leads.barriers.set i active } }
    (¬SampleDue s (.closedSwitch i) → exec (.closedSwitchChange i active) s = .next closed) ∧
    (SampleDue s (.closedSwitch i) → x.closedSwitch = active →
      exec (.closedSwitchChange i active) s = .next (closed.tookSample (.closedSwitch i))) ∧
    (SampleDue s (.closedSwitch i) → x.closedSwitch ≠ active →
      ∃ t : State, exec (.closedSwitchChange i active) s = .next t ∧ KeepsLinks s t ∧
      StaysAtDoor i (closed.tookSample (.closedSwitch i)) t ∧
      OffersAll (if active = true ∧ (x.state = .closing ∨ x.state = .stuck) then doorNotices s t i 10
        else if active then doorTroubleNotices s i .doorPropped false else []) s t ∧
      (active = true → x.state = .closing ∨ x.state = .stuck → t.door i = { x with
        state := .free, magnet := false, closedSwitch := true, obstruction := none, close := none, propped := none } ∧
        (x.state = .stuck → ¬DoorTrouble t i .doorStuck)) ∧
      (active = true → ¬DoorTrouble t i .doorPropped) ∧
      (active = true → x.state = .free → t.door i = { x with closedSwitch := true, propped := none }) ∧
      (active = true → x.state = .held ∨ x.state = .releaseWait → t.door i = { x with closedSwitch := true }) ∧
      (active = false → t.door i = { x with
        closedSwitch := false,
        propped := if x.state = .free then some (s.tick.plus (4000 * k.proppedTime)) else x.propped })) ∧
    (¬SampleDue s (.barrier i) → exec (.barrierChange i active) s = .next barred) ∧
    (SampleDue s (.barrier i) → x.barrier = active →
      exec (.barrierChange i active) s = .next (barred.tookSample (.barrier i))) ∧
    (SampleDue s (.barrier i) → x.barrier ≠ active → ∃ t : State, exec (.barrierChange i active) s = .next t ∧
      KeepsLinks s t ∧ StaysAtDoor i (barred.tookSample (.barrier i)) t ∧
      OffersAll (if active = false ∧ x.state = .releaseWait then doorNotices s t i 8 else []) s t ∧
      (active = true ∨ x.state ≠ .releaseWait → t.door i = { x with barrier := active }) ∧
      (active = false → x.state = .releaseWait → t.door i = { x with
        barrier := false, magnet := false, obstruction := none, propped := none,
        state := if x.closedSwitch then .free else .closing,
        close := if x.closedSwitch then none else some (s.tick.plus (4000 * k.closeTime)) }))

/-- The obstruction delay's end lets a waiting door close, the close time's end leaves it STUCK with DOOR_STUCK, and the propped
time's end raises DOOR_PROPPED (R135, R136, R138), each with its DOOR and TROUBLE notices and no other (R13, R139). That the notice of
a wait that ends in FREE carries WAIT_EXPIRED, and the hold list of a DOOR notice, are the model's choices (assumptions 28, 42 and
43). -/
def Obligations.DoorTimersSuperviseTheDoor : Prop :=
  ∀ (i : Fin 12) (s : State), Working s →
    let x := s.door i
    let k := s.cfg.doors[i]
    (x.obstruction = some s.tick → x.state = .releaseWait → ∃ t : State, exec (.obstructionTimerExpiry i) s = .next t ∧
      t.door i = { x with
        magnet := false, obstruction := none, propped := none, state := if x.closedSwitch then .free else .closing,
        close := if x.closedSwitch then none else some (s.tick.plus (4000 * k.closeTime)) } ∧
      OffersAll (doorNotices s t i 9) s t ∧ KeepsLinks s t ∧ StaysAtDoor i s t) ∧
    (x.close = some s.tick → x.state = .closing → ∃ t : State, exec (.closeTimerExpiry i) s = .next t ∧
      t.door i = { x with state := .stuck, magnet := false, close := none } ∧
      (k.zones ≠ 0 → DoorTrouble t i .doorStuck) ∧
      OffersAll (doorNotices s t i 11 ++ doorTroubleNotices s i .doorStuck true) s t ∧ KeepsLinks s t ∧ StaysAtDoor i s t) ∧
    (x.propped = some s.tick → x.state = .free → ∃ t : State, exec (.proppedTimerExpiry i) s = .next t ∧
      t.door i = { x with propped := none } ∧ (k.zones ≠ 0 → DoorTrouble t i .doorPropped) ∧
      OffersAll (doorTroubleNotices s i .doorPropped true) s t ∧ KeepsLinks s t ∧ StaysAtDoor i s t)

/-! ### Sirens -/

/-- SOUND_SIREN places the port's manual demand on each siren of the mask and STOP_SOUND removes it; SILENCE takes the covered zones at
ALARM or above into the snapshot and removes every manual demand; TEST_SIRENS starts tests of 2 seconds. The demands follow from
the contributions; where one has changed the grants are evaluated: the classes that fully fit sound, the next by rotation, the
lower not at all, with mark, slot timer and cadence (R152 to R154), and else they stand. The answer shows all eight sirens, and each
siren that changes offers its SIREN notice, with the cause MANUAL, SILENCE or TEST, or GRANT where only its flag changed (R144 to R147,
R149, R150, R155, R175). -/
def Obligations.SirenRequestsChangeContributions : Prop :=
  ∀ (p : Port) (n mask : Byte) (pat : Pattern) (seconds : Word16) (s : State), TakesFrame s p → s.isRunning = true → mask ≠ 0 →
    let m : Manual := ⟨pat, s.tick.plus (4000 * max 1 (min 600 seconds.toNat))⟩
    let changed := fun (code cause : Byte) (f : Fin 8 → Siren → Siren) (t : State) =>
      Answers p ⟨code, n, .ok, sirenStateBytes t⟩ s t ∧ StaysInArbiter (sirenIn mask) s t ∧
        OffersAll (sirensTold s.arbiter t.arbiter (fun _ => cause) 7) (s.answered p ⟨code, n, .ok, sirenStateBytes t⟩) t ∧
        GrantsSettled s.cfg s.tick s.arbiter t.arbiter ∧
        ∀ i : Fin 8, SameContributions (if sirenIn mask i then f i s.arbiter.sirens[i] else s.arbiter.sirens[i])
          t.arbiter.sirens[i]
    ((p = .fp ∧ (pat = .evacuate ∨ pat = .alert)) ∨ (p = .pc ∧ pat = .alert) →
      ∃ t : State, exec (.soundSiren p n mask (byteOf pat.num) seconds) s = .next t ∧ changed codeSoundSiren 1
        (fun _ x => { x with manualFp := if p = .fp then some m else x.manualFp,
                             manualPc := if p = .pc then some m else x.manualPc }) t) ∧
    (p ≠ .sv → (∃ i : Fin 8, sirenIn mask i = true ∧ (s.arbiter.sirens[i].manual p).isSome = true) →
      ∃ t : State, exec (.stopSound p n mask) s = .next t ∧ changed codeStopSound 1
        (fun _ x => { x with manualFp := if p = .fp then none else x.manualFp,
                             manualPc := if p = .pc then none else x.manualPc }) t) ∧
    (p = .fp → ∃ t : State, exec (.silence p n mask) s = .next t ∧ changed codeSilence 5
      (fun i x => { x with manualFp := none, manualPc := none, snapshot := alarmedCover s.cfg s.arbiter i }) t) ∧
    (p = .sv → s.keyClosed = true → (∀ z : Fin 16, s.arbiter.view[z].level.atLeast .alarm = false) →
      ∃ t : State, exec (.testSirens p n mask) s = .next t ∧ changed codeTestSirens 3
        (fun _ x => { x with test := some (s.tick.plus 8000) }) t)

/-- A manual demand, an all-clear or a test that reaches its end leaves its siren, and the siren's demand follows from what remains;
the other sirens' contributions stay, and where a demand has changed the grants are evaluated (R144, R146, R148, R149). A slot
boundary moves the rotation pointer to the mark and evaluates the grants anew: the classes that fully fit sound, the next by rotation
from the pointer, the lower not at all, the slot restarting while a siren with a demand waits; a cadence expiry turns the phase
over for another 4000 ticks with the drives following (R152 to R154). Each siren that changes offers its SIREN notice, with EXPIRY, or
GRANT where only its flag changed, and ROTATION at a slot boundary (R155). -/
def Obligations.SirenTimersAct : Prop :=
  ∀ (i : Fin 8) (p : Port) (s : State), Working s → p ≠ .sv →
    let a := s.arbiter
    let x := a.sirens[i]
    let left := fun (y : Siren) (t : State) =>
      StaysInArbiter (fun j => decide (j = i)) s t ∧ GrantsSettled s.cfg s.tick a t.arbiter ∧ KeepsLinks s t ∧
        OffersAll (sirensTold a t.arbiter (fun _ => 4) 7) s t ∧
        SameContributions y t.arbiter.sirens[i] ∧
        ∀ j : Fin 8, j ≠ i → SameContributions a.sirens[j] t.arbiter.sirens[j]
    (∀ m ∈ x.manual p, m.until_ = s.tick → ∃ t : State, exec (.manualDemandExpiry i p) s = .next t ∧
      left { x with manualFp := if p = .fp then none else x.manualFp, manualPc := if p = .pc then none else x.manualPc } t) ∧
    (x.allClear = some s.tick → ∃ t : State, exec (.allClearExpiry i) s = .next t ∧ left { x with allClear := none } t) ∧
    (x.test = some s.tick → ∃ t : State, exec (.sirenTestExpiry i) s = .next t ∧ left { x with test := none } t) ∧
    (a.slot = some s.tick → ∃ t : State, exec .slotBoundary s = .next t ∧ KeepsLinks s t ∧
      StaysInArbiter (fun _ => false) { s with arbiter := { a with pointer := a.mark.getD a.pointer } } t ∧
      OffersAll (sirensTold a t.arbiter (fun _ => 8) 8) s t ∧
      ArbiterOk s.cfg t.arbiter ∧ (∀ i : Fin 8, SameContributions a.sirens[i] t.arbiter.sirens[i]) ∧
      GrantsEvaluated s.cfg s.tick { a with slot := none } t.arbiter) ∧
    (a.cadence = some s.tick → ∃ t : State, exec .cadenceExpiry s = .next t ∧
      t = { s with arbiter := { a with
        phaseOn := !a.phaseOn, cadence := some (s.tick.plus 4000), sirens := t.arbiter.sirens } } ∧
      ∀ i : Fin 8, t.arbiter.sirens[i] = { a.sirens[i] with
        drive := a.sirens[i].sounding && (decide (a.sirens[i].demand ≠ some .alert) || !a.phaseOn) })

/-! ### Captures -/

/-- FREE_CAPTURES hands back the oldest records: they leave the stored list and their blocks become FREE, the others stay, LOST is
cleared (R166). SET_CAPTURE_LAYOUT from SV with the key closed empties the store into the new layout, the sequence going on (R158,
R167). A station sample event starts a capture at a confirmed detection in the lowest FREE block, with the record of R161, and sets
LOST where none is FREE (R160); it fills the capture in flight with its samples to the last, which stores it (R162); and it counts a
further detection or an absorbed qualification into it (R160, R163). Where the last sample is taken first, a detection of the same
event finds the capture complete and starts one of its own (R162). CAPTURE_READY is offered with LAYOUT, with LOST where the flag was
clear, and with READY where the stored count comes to the threshold (R164). The order operand is the model's choice (assumption 21). -/
def Obligations.CapturesAreFreedAndLaidOut : Prop :=
  ∀ (p : Port) (n num : Byte) (oldest : Word16) (layout : Fin 3) (pre : Byte) (post : Word16) (b : Nat) (s : State)
      (d st : Fin 4) (codes : Vector Code 4) (first : Bool) (o : Tick),
    TakesFrame s p → s.isRunning = true → CapturesOk s →
    let c := s.captures
    (1 ≤ num.toNat → num.toNat ≤ c.stored.length → c.oldestSequence = some oldest →
      ∃ t : State, exec (.freeCaptures p n num oldest) s = .next t ∧
        t = ({ s with captures := t.captures }).answered p ⟨codeFreeCaptures, n, .ok,
          byteOf t.captures.stored.length :: optField 2 (t.captures.oldestSequence.map le16)⟩ ∧
        t.captures = { c with blocks := t.captures.blocks, stored := c.stored.drop num.toNat, lost := false } ∧
        (b ∈ c.stored.take num.toNat → t.captures.block b = .free) ∧
        (b ∉ c.stored.take num.toNat → t.captures.block b = c.block b)) ∧
    (p = .sv → s.keyClosed = true → pre.toNat ≤ 64 → 1 ≤ post.toNat → post.toNat ≤ 448 →
      pre.toNat + post.toNat ≤ blockSize layout → (∀ x ∈ c.blocks, x.isFilling = false) →
      ∃ t : State, exec (.setCaptureLayout p n (byteOf layout.val) pre post) s = .next t ∧
        Answers p ⟨codeSetCaptureLayout, n, .ok, []⟩ s t ∧
        t.captures = { c with layout := layout, pre := pre.toNat, post := post.toNat,
                              blocks := List.replicate (blockCount layout) .free, stored := [], lost := false } ∧
        OffersAll [captureNotice 2 c t.captures] (s.answered p ⟨codeSetCaptureLayout, n, .ok, []⟩) t ∧
        KeepsFixed s t ∧ t.zones = s.zones ∧ t.inputs = s.inputs ∧ t.channels = s.channels ∧ t.stations = s.stations ∧
        t.ducts = s.ducts ∧ t.doors = s.doors ∧ t.arbiter = s.arbiter) ∧
    (SampleDue s (.station d st) → 0 < (s.ductCfg d).base.stuckLimit → BoundsOk s →
      let set := qualifyingNow s d st codes
      let dead := (s.station d st).dead
      let confirmed := fun t : State => set ≠ [] ∧ dead = 0 ∧ Coincides s d st codes t
      ∃ t : State, exec (.stationSampleEvent d st codes first) s = .next t ∧
        (c.fillingOf d st = none → ¬confirmed t → t.captures = c) ∧
        (c.fillingOf d st = none → confirmed t → (∀ x ∈ c.blocks, x ≠ .free) → t.captures = { c with lost := true } ∧
          (c.lost = false → OffersThese [captureNotice 1 c t.captures] s t)) ∧
        (c.fillingOf d st = none → confirmed t → IsOrigin s d st codes o →
          c.blocks[b]? = some .free → (∀ x ∈ c.blocks.take b, x ≠ .free) → CaptureStarts s c d st o b t) ∧
        (c.fillingOf d st = some b → ∀ r ∈ (c.block b).record, Tick.later s.tick r.confirm = true →
          let extra := if set ≠ [] ∧ (0 < dead ∨ Coincides s d st codes t) then min 255 (r.extra + 1) else r.extra
          let words := r.words ++ (codes.toList.take (stationChannels s.cfg d st).length).take r.channels.length
          let complete := fun extra : Nat => { c with
            blocks := c.blocks.set b (.stored { r with words := words, extra := extra }),
            filling := c.filling.set (stationIx d st) none, stored := c.stored ++ [b] }
          (∀ left : Fin 449, c.block b = .filling r left.val → 1 < left.val → t.captures = { c with
            blocks := c.blocks.set b (.filling { r with words := words, extra := extra } (left.val - 1)) }) ∧
          (c.block b = .filling r 1 → c.stored.length + 1 = min s.cfg.readyThreshold (blockCount c.layout) →
            OffersThese [captureNotice 0 c (complete (if first then r.extra else extra))] s t) ∧
          (c.block b = .filling r 1 → ¬(first = true ∧ confirmed t) →
            t.captures = complete (if first then r.extra else extra) ∧ (t.station d st).inFlight = false) ∧
          (c.block b = .filling r 1 → first = true → confirmed t →
            let stored := complete r.extra
            ((∀ x ∈ c.blocks, x ≠ .free) → t.captures = { stored with lost := true } ∧ (t.station d st).inFlight = false ∧
              (c.lost = false → OffersThese [captureNotice 1 stored t.captures] s t)) ∧
            (∀ e : Fin 64, IsOrigin s d st codes o → c.blocks[e.val]? = some .free →
              (∀ x ∈ c.blocks.take e.val, x ≠ .free) → CaptureStarts s stored d st o e.val t))))

/-! ### The store and start-up -/

/-- WRITE_STORE from SV with the key closed and a page offset stays pending for 20 ticks; at its completion the page holds what
the store took, every other byte is as it was, and SV is answered whether what it holds matches what was sent (R173, R186).
With the key open it is refused KEY, with another offset RANGE, and while LOADING or writing BUSY; READ_STORE is refused RANGE
and BUSY alike; and nothing else changes (R174, R185, R186). That the command carries what the store holds is the model's
choice (assumption 5). -/
def Obligations.StoreWritesFillOnePage : Prop :=
  ∀ (n : Byte) (offset : Word16) (bytes held : Vector Byte 32) (a : Nat) (s : State), s.resetLow = false → StoreOk s →
    (TakesFrame s .sv → s.keyClosed = true → offset.toNat ≤ 4064 → offset.toNat % 32 = 0 → s.loader.state ≠ .loading →
      s.loader.write = none →
      exec (.writeStore .sv n offset bytes) s = .next
        { s.setPort .sv { s.port .sv with rx := .hunting, waiting := some ⟨codeWriteStore, n⟩ } with
          loader := { s.loader with write := some ⟨offset.truncate 12, bytes, s.tick.plus 20⟩ } }) ∧
    (TakesFrame s .sv → s.keyClosed = false →
      exec (.writeStore .sv n offset bytes) s = .next (s.answered .sv ⟨codeWriteStore, n, .key, []⟩)) ∧
    (TakesFrame s .sv → s.keyClosed = true → 4064 < offset.toNat ∨ offset.toNat % 32 ≠ 0 →
      exec (.writeStore .sv n offset bytes) s = .next (s.answered .sv ⟨codeWriteStore, n, .range, []⟩)) ∧
    (TakesFrame s .sv → s.keyClosed = true → offset.toNat ≤ 4064 → offset.toNat % 32 = 0 →
      s.loader.state = .loading ∨ s.loader.write.isSome = true →
      exec (.writeStore .sv n offset bytes) s = .next (s.answered .sv ⟨codeWriteStore, n, .busy, []⟩)) ∧
    (∀ p : Port, TakesFrame s p →
      (4064 < offset.toNat → exec (.readStore p n offset) s = .next (s.answered p ⟨codeReadStore, n, .range, []⟩)) ∧
      (offset.toNat ≤ 4064 → s.loader.state = .loading ∨ s.loader.write.isSome = true →
        exec (.readStore p n offset) s = .next (s.answered p ⟨codeReadStore, n, .busy, []⟩))) ∧
    (∀ w ∈ s.loader.write, w.due = s.tick → ∀ q ∈ (s.port .sv).waiting,
      ∃ t : State, exec (.storeWriteCompletion held) s = .next t ∧
        t = { s.setPort .sv { s.port .sv with
                waiting := none,
                tx := (s.port .sv).tx ++ [⟨q.code, q.number, .ok, leNat16 w.offset.toNat ++
                  [if held = w.bytes then 0 else 1]⟩] } with
              loader := { s.loader with write := none }, store := t.store } ∧
        (a < w.offset.toNat ∨ w.offset.toNat + 32 ≤ a → readCell t.store a = readCell s.store a) ∧
        ∀ i : Fin 32, readCell t.store (w.offset.toNat + i.val) = held[i])

/-- The load completion at tick 1024: an image that fails a check of R184 leaves SAFE_HOLD with the code of the first that it fails,
in the order CRC, MAGIC, VERSION, SECTIONS, FIELD_RANGE, SERVED_MASK, CHANNEL_STATION, SIREN_WEIGHT, CAPTURE_FIT, and changes nothing
else; one that fails none leaves RUNNING with its values taken, each from its offset of R192, gates as their switches show, configured
channels ACTIVE and VELOCITY_FAULT raised (R1, R41, R47, R90, R183, R184, R192), and with no sample left to take at that tick but the
key's (R20, R74). An accepted RESTART starts up anew with its answer as FP's first frame; it is refused BUSY while a store write is in
progress, and NOT_NOW while a zone is at FIRE or a duct neither OFFLINE nor STOPPED (R187). What goes on across a RESTART, the values
that the spec does not give at start-up, the subject of VELOCITY_FAULT, what counts as a configured value of FIELD_RANGE, and that the
image is read at the completion, are the model's choices (assumptions 3, 6, 16, 24, 30, 36, 37 and 41). -/
def Obligations.LoadEndsRunningOrSafe : Prop :=
  ∀ (n : Byte) (code : CheckCode) (s : State), s.resetLow = false →
    (s.loader.state = .loading → s.tick = 1024 → FirstFailing s.store code →
      exec .loadCompletion s = .next { s with
        loader := { s.loader with
          state := .safeHold, failing := some code, imageCrc := readCell s.store 1023 ++ readCell s.store 1022 } }) ∧
    (s.loader.state = .loading → s.tick = 1024 → (∀ c : CheckCode, ¬CheckFails s.store c) → QuietOk s →
      ∃ t : State, exec .loadCompletion s = .next t ∧
        t.loader = { s.loader with
          state := .running, failing := none, imageCrc := readCell s.store 1023 ++ readCell s.store 1022 } ∧
        ConfigRead s.store t.cfg ∧
        (∀ p : Port, t.port p = { s.port p with
          subscription := t.cfg.ports[portIx p].subscription, threshold := t.cfg.ports[portIx p].threshold,
          age := t.cfg.ports[portIx p].age, queue := (t.port p).queue, overflow := (t.port p).overflow,
          nextSeq := (t.port p).nextSeq, line := (t.port p).line, ageTimer := (t.port p).ageTimer }) ∧
        (∀ c : Fin 16, (t.channel c).state = (if t.cfg.channels[c].isSome then .active else .unused)) ∧
        (∀ d : Fin 4, Raised t (ductZone d) .velocityFault (d.val + 1) ∧ (t.ctl d).state = .offline ∧
          (t.gate d).openDrive = false ∧ (t.gate d).closeDrive = false ∧
          ((t.gateCfg d).installed = true → (t.gate d).state =
            (if s.leads.gateClosed[d] = true ∧ s.leads.gateOpen[d] = false then .closed
            else if s.leads.gateOpen[d] = true ∧ s.leads.gateClosed[d] = false then .opened else .fault))) ∧
        (∀ z : Fin 16, (t.zone z).level = .normal ∧
          (t.zone z).kind = (if h : 4 ≤ z.val then t.cfg.zoneKinds[z.val - 4]'(by omega) else .duct)) ∧
        (∀ x : Sampler, t.sampled x = if x = .key then s.sampled .key else s.tick) ∧
        t.tick = s.tick ∧ t.store = s.store ∧ t.leads = s.leads ∧ t.key = s.key ∧ t.pending = s.pending) ∧
    (TakesFrame s .fp → s.loader.write = none → (∀ z : Fin 16, (s.zone z).level ≠ .fire) →
      (∀ d : Fin 4, (s.ctl d).state = .offline ∨ (s.ctl d).state = .stopped) →
      exec (.restart .fp n) s = .next
        (({ State.reset with store := s.store, leads := s.leads, free := s.free, pending := s.pending }).answered .fp
          ⟨codeRestart, n, .ok, []⟩)) ∧
    (TakesFrame s .fp → s.loader.write.isSome = true →
      exec (.restart .fp n) s = .next (s.answered .fp ⟨codeRestart, n, .busy, []⟩)) ∧
    (TakesFrame s .fp → s.loader.write = none → (∃ z : Fin 16, (s.zone z).level = .fire) ∨
        (∃ d : Fin 4, (s.ctl d).state ≠ .offline ∧ (s.ctl d).state ≠ .stopped) →
      exec (.restart .fp n) s = .next (s.answered .fp ⟨codeRestart, n, .notNow, []⟩))
end

