-- ==== Sys2Proof/Laws/State.lean ====
section
/-! SUPPORT. One lemma for each update of the state and each field or read that it leaves alone, and for each read of what an update
wrote: later proofs use them and unfold no record update. -/

namespace Sys2Proof.Machine

open Sys2Proof

/-! ### setZone -/

@[simp] theorem State.setZone_tick (s : State) (z : Fin 16) (x : Zone) : (s.setZone z x).tick = s.tick := rfl
@[simp] theorem State.setZone_resetLow (s : State) (z : Fin 16) (x : Zone) : (s.setZone z x).resetLow = s.resetLow := rfl
@[simp] theorem State.setZone_cfg (s : State) (z : Fin 16) (x : Zone) : (s.setZone z x).cfg = s.cfg := rfl
@[simp] theorem State.setZone_inputs (s : State) (z : Fin 16) (x : Zone) : (s.setZone z x).inputs = s.inputs := rfl
@[simp] theorem State.setZone_channels (s : State) (z : Fin 16) (x : Zone) : (s.setZone z x).channels = s.channels := rfl
@[simp] theorem State.setZone_stations (s : State) (z : Fin 16) (x : Zone) : (s.setZone z x).stations = s.stations := rfl
@[simp] theorem State.setZone_ducts (s : State) (z : Fin 16) (x : Zone) : (s.setZone z x).ducts = s.ducts := rfl
@[simp] theorem State.setZone_doors (s : State) (z : Fin 16) (x : Zone) : (s.setZone z x).doors = s.doors := rfl
@[simp] theorem State.setZone_arbiter (s : State) (z : Fin 16) (x : Zone) : (s.setZone z x).arbiter = s.arbiter := rfl
@[simp] theorem State.setZone_captures (s : State) (z : Fin 16) (x : Zone) : (s.setZone z x).captures = s.captures := rfl
@[simp] theorem State.setZone_ports (s : State) (z : Fin 16) (x : Zone) : (s.setZone z x).ports = s.ports := rfl
@[simp] theorem State.setZone_key (s : State) (z : Fin 16) (x : Zone) : (s.setZone z x).key = s.key := rfl
@[simp] theorem State.setZone_loader (s : State) (z : Fin 16) (x : Zone) : (s.setZone z x).loader = s.loader := rfl
@[simp] theorem State.setZone_store (s : State) (z : Fin 16) (x : Zone) : (s.setZone z x).store = s.store := rfl
@[simp] theorem State.setZone_leads (s : State) (z : Fin 16) (x : Zone) : (s.setZone z x).leads = s.leads := rfl
@[simp] theorem State.setZone_samples (s : State) (z : Fin 16) (x : Zone) : (s.setZone z x).samples = s.samples := rfl
@[simp] theorem State.setZone_free (s : State) (z : Fin 16) (x : Zone) : (s.setZone z x).free = s.free := rfl
@[simp] theorem State.setZone_pending (s : State) (z : Fin 16) (x : Zone) : (s.setZone z x).pending = s.pending := rfl
@[simp] theorem State.setZone_duct (s : State) (z : Fin 16) (x : Zone) (e : Fin 4) : (s.setZone z x).duct e = s.duct e := rfl
@[simp] theorem State.setZone_ductCfg (s : State) (z : Fin 16) (x : Zone) (e : Fin 4) : (s.setZone z x).ductCfg e = s.ductCfg e := rfl
@[simp] theorem State.setZone_channel (s : State) (z : Fin 16) (x : Zone) (o : Fin 16) : (s.setZone z x).channel o = s.channel o := rfl
@[simp] theorem State.setZone_station (s : State) (z : Fin 16) (x : Zone) (e r : Fin 4) : (s.setZone z x).station e r = s.station e r := rfl
@[simp] theorem State.setZone_door (s : State) (z : Fin 16) (x : Zone) (j : Fin 12) : (s.setZone z x).door j = s.door j := rfl
@[simp] theorem State.setZone_input (s : State) (z : Fin 16) (x : Zone) (j : Fin 8) : (s.setZone z x).input j = s.input j := rfl
@[simp] theorem State.setZone_port (s : State) (z : Fin 16) (x : Zone) (q : Port) : (s.setZone z x).port q = s.port q := rfl
@[simp] theorem State.setZone_ctl (s : State) (z : Fin 16) (x : Zone) (e : Fin 4) : (s.setZone z x).ctl e = s.ctl e := rfl
@[simp] theorem State.setZone_valve (s : State) (z : Fin 16) (x : Zone) (e : Fin 4) (v : Fin 2) : (s.setZone z x).valve e v = s.valve e v := rfl
@[simp] theorem State.setZone_valveCfg (s : State) (z : Fin 16) (x : Zone) (e : Fin 4) (v : Fin 2) : (s.setZone z x).valveCfg e v = s.valveCfg e v := rfl
@[simp] theorem State.setZone_gate (s : State) (z : Fin 16) (x : Zone) (e : Fin 4) : (s.setZone z x).gate e = s.gate e := rfl
@[simp] theorem State.setZone_gateCfg (s : State) (z : Fin 16) (x : Zone) (e : Fin 4) : (s.setZone z x).gateCfg e = s.gateCfg e := rfl
@[simp] theorem State.setZone_isRunning (s : State) (z : Fin 16) (x : Zone) : (s.setZone z x).isRunning = s.isRunning := rfl
@[simp] theorem State.setZone_keyClosed (s : State) (z : Fin 16) (x : Zone) : (s.setZone z x).keyClosed = s.keyClosed := rfl

/-! ### setDuct -/

@[simp] theorem State.setDuct_tick (s : State) (d : Fin 4) (x : Duct) : (s.setDuct d x).tick = s.tick := rfl
@[simp] theorem State.setDuct_resetLow (s : State) (d : Fin 4) (x : Duct) : (s.setDuct d x).resetLow = s.resetLow := rfl
@[simp] theorem State.setDuct_cfg (s : State) (d : Fin 4) (x : Duct) : (s.setDuct d x).cfg = s.cfg := rfl
@[simp] theorem State.setDuct_zones (s : State) (d : Fin 4) (x : Duct) : (s.setDuct d x).zones = s.zones := rfl
@[simp] theorem State.setDuct_inputs (s : State) (d : Fin 4) (x : Duct) : (s.setDuct d x).inputs = s.inputs := rfl
@[simp] theorem State.setDuct_channels (s : State) (d : Fin 4) (x : Duct) : (s.setDuct d x).channels = s.channels := rfl
@[simp] theorem State.setDuct_stations (s : State) (d : Fin 4) (x : Duct) : (s.setDuct d x).stations = s.stations := rfl
@[simp] theorem State.setDuct_doors (s : State) (d : Fin 4) (x : Duct) : (s.setDuct d x).doors = s.doors := rfl
@[simp] theorem State.setDuct_arbiter (s : State) (d : Fin 4) (x : Duct) : (s.setDuct d x).arbiter = s.arbiter := rfl
@[simp] theorem State.setDuct_captures (s : State) (d : Fin 4) (x : Duct) : (s.setDuct d x).captures = s.captures := rfl
@[simp] theorem State.setDuct_ports (s : State) (d : Fin 4) (x : Duct) : (s.setDuct d x).ports = s.ports := rfl
@[simp] theorem State.setDuct_key (s : State) (d : Fin 4) (x : Duct) : (s.setDuct d x).key = s.key := rfl
@[simp] theorem State.setDuct_loader (s : State) (d : Fin 4) (x : Duct) : (s.setDuct d x).loader = s.loader := rfl
@[simp] theorem State.setDuct_store (s : State) (d : Fin 4) (x : Duct) : (s.setDuct d x).store = s.store := rfl
@[simp] theorem State.setDuct_leads (s : State) (d : Fin 4) (x : Duct) : (s.setDuct d x).leads = s.leads := rfl
@[simp] theorem State.setDuct_samples (s : State) (d : Fin 4) (x : Duct) : (s.setDuct d x).samples = s.samples := rfl
@[simp] theorem State.setDuct_free (s : State) (d : Fin 4) (x : Duct) : (s.setDuct d x).free = s.free := rfl
@[simp] theorem State.setDuct_pending (s : State) (d : Fin 4) (x : Duct) : (s.setDuct d x).pending = s.pending := rfl
@[simp] theorem State.setDuct_zone (s : State) (d : Fin 4) (x : Duct) (y : Fin 16) : (s.setDuct d x).zone y = s.zone y := rfl
@[simp] theorem State.setDuct_ductCfg (s : State) (d : Fin 4) (x : Duct) (e : Fin 4) : (s.setDuct d x).ductCfg e = s.ductCfg e := rfl
@[simp] theorem State.setDuct_channel (s : State) (d : Fin 4) (x : Duct) (o : Fin 16) : (s.setDuct d x).channel o = s.channel o := rfl
@[simp] theorem State.setDuct_station (s : State) (d : Fin 4) (x : Duct) (e r : Fin 4) : (s.setDuct d x).station e r = s.station e r := rfl
@[simp] theorem State.setDuct_door (s : State) (d : Fin 4) (x : Duct) (j : Fin 12) : (s.setDuct d x).door j = s.door j := rfl
@[simp] theorem State.setDuct_input (s : State) (d : Fin 4) (x : Duct) (j : Fin 8) : (s.setDuct d x).input j = s.input j := rfl
@[simp] theorem State.setDuct_port (s : State) (d : Fin 4) (x : Duct) (q : Port) : (s.setDuct d x).port q = s.port q := rfl
@[simp] theorem State.setDuct_valveCfg (s : State) (d : Fin 4) (x : Duct) (e : Fin 4) (v : Fin 2) : (s.setDuct d x).valveCfg e v = s.valveCfg e v := rfl
@[simp] theorem State.setDuct_gateCfg (s : State) (d : Fin 4) (x : Duct) (e : Fin 4) : (s.setDuct d x).gateCfg e = s.gateCfg e := rfl
@[simp] theorem State.setDuct_isRunning (s : State) (d : Fin 4) (x : Duct) : (s.setDuct d x).isRunning = s.isRunning := rfl
@[simp] theorem State.setDuct_keyClosed (s : State) (d : Fin 4) (x : Duct) : (s.setDuct d x).keyClosed = s.keyClosed := rfl

/-! ### setChannel -/

@[simp] theorem State.setChannel_tick (s : State) (c : Fin 16) (x : Channel) : (s.setChannel c x).tick = s.tick := rfl
@[simp] theorem State.setChannel_resetLow (s : State) (c : Fin 16) (x : Channel) : (s.setChannel c x).resetLow = s.resetLow := rfl
@[simp] theorem State.setChannel_cfg (s : State) (c : Fin 16) (x : Channel) : (s.setChannel c x).cfg = s.cfg := rfl
@[simp] theorem State.setChannel_zones (s : State) (c : Fin 16) (x : Channel) : (s.setChannel c x).zones = s.zones := rfl
@[simp] theorem State.setChannel_inputs (s : State) (c : Fin 16) (x : Channel) : (s.setChannel c x).inputs = s.inputs := rfl
@[simp] theorem State.setChannel_stations (s : State) (c : Fin 16) (x : Channel) : (s.setChannel c x).stations = s.stations := rfl
@[simp] theorem State.setChannel_ducts (s : State) (c : Fin 16) (x : Channel) : (s.setChannel c x).ducts = s.ducts := rfl
@[simp] theorem State.setChannel_doors (s : State) (c : Fin 16) (x : Channel) : (s.setChannel c x).doors = s.doors := rfl
@[simp] theorem State.setChannel_arbiter (s : State) (c : Fin 16) (x : Channel) : (s.setChannel c x).arbiter = s.arbiter := rfl
@[simp] theorem State.setChannel_captures (s : State) (c : Fin 16) (x : Channel) : (s.setChannel c x).captures = s.captures := rfl
@[simp] theorem State.setChannel_ports (s : State) (c : Fin 16) (x : Channel) : (s.setChannel c x).ports = s.ports := rfl
@[simp] theorem State.setChannel_key (s : State) (c : Fin 16) (x : Channel) : (s.setChannel c x).key = s.key := rfl
@[simp] theorem State.setChannel_loader (s : State) (c : Fin 16) (x : Channel) : (s.setChannel c x).loader = s.loader := rfl
@[simp] theorem State.setChannel_store (s : State) (c : Fin 16) (x : Channel) : (s.setChannel c x).store = s.store := rfl
@[simp] theorem State.setChannel_leads (s : State) (c : Fin 16) (x : Channel) : (s.setChannel c x).leads = s.leads := rfl
@[simp] theorem State.setChannel_samples (s : State) (c : Fin 16) (x : Channel) : (s.setChannel c x).samples = s.samples := rfl
@[simp] theorem State.setChannel_free (s : State) (c : Fin 16) (x : Channel) : (s.setChannel c x).free = s.free := rfl
@[simp] theorem State.setChannel_pending (s : State) (c : Fin 16) (x : Channel) : (s.setChannel c x).pending = s.pending := rfl
@[simp] theorem State.setChannel_zone (s : State) (c : Fin 16) (x : Channel) (y : Fin 16) : (s.setChannel c x).zone y = s.zone y := rfl
@[simp] theorem State.setChannel_duct (s : State) (c : Fin 16) (x : Channel) (e : Fin 4) : (s.setChannel c x).duct e = s.duct e := rfl
@[simp] theorem State.setChannel_ductCfg (s : State) (c : Fin 16) (x : Channel) (e : Fin 4) : (s.setChannel c x).ductCfg e = s.ductCfg e := rfl
@[simp] theorem State.setChannel_station (s : State) (c : Fin 16) (x : Channel) (e r : Fin 4) : (s.setChannel c x).station e r = s.station e r := rfl
@[simp] theorem State.setChannel_door (s : State) (c : Fin 16) (x : Channel) (j : Fin 12) : (s.setChannel c x).door j = s.door j := rfl
@[simp] theorem State.setChannel_input (s : State) (c : Fin 16) (x : Channel) (j : Fin 8) : (s.setChannel c x).input j = s.input j := rfl
@[simp] theorem State.setChannel_port (s : State) (c : Fin 16) (x : Channel) (q : Port) : (s.setChannel c x).port q = s.port q := rfl
@[simp] theorem State.setChannel_ctl (s : State) (c : Fin 16) (x : Channel) (e : Fin 4) : (s.setChannel c x).ctl e = s.ctl e := rfl
@[simp] theorem State.setChannel_valve (s : State) (c : Fin 16) (x : Channel) (e : Fin 4) (v : Fin 2) : (s.setChannel c x).valve e v = s.valve e v := rfl
@[simp] theorem State.setChannel_valveCfg (s : State) (c : Fin 16) (x : Channel) (e : Fin 4) (v : Fin 2) : (s.setChannel c x).valveCfg e v = s.valveCfg e v := rfl
@[simp] theorem State.setChannel_gate (s : State) (c : Fin 16) (x : Channel) (e : Fin 4) : (s.setChannel c x).gate e = s.gate e := rfl
@[simp] theorem State.setChannel_gateCfg (s : State) (c : Fin 16) (x : Channel) (e : Fin 4) : (s.setChannel c x).gateCfg e = s.gateCfg e := rfl
@[simp] theorem State.setChannel_isRunning (s : State) (c : Fin 16) (x : Channel) : (s.setChannel c x).isRunning = s.isRunning := rfl
@[simp] theorem State.setChannel_keyClosed (s : State) (c : Fin 16) (x : Channel) : (s.setChannel c x).keyClosed = s.keyClosed := rfl

/-! ### setStation -/

@[simp] theorem State.setStation_tick (s : State) (d st : Fin 4) (x : Station) : (s.setStation d st x).tick = s.tick := rfl
@[simp] theorem State.setStation_resetLow (s : State) (d st : Fin 4) (x : Station) : (s.setStation d st x).resetLow = s.resetLow := rfl
@[simp] theorem State.setStation_cfg (s : State) (d st : Fin 4) (x : Station) : (s.setStation d st x).cfg = s.cfg := rfl
@[simp] theorem State.setStation_zones (s : State) (d st : Fin 4) (x : Station) : (s.setStation d st x).zones = s.zones := rfl
@[simp] theorem State.setStation_inputs (s : State) (d st : Fin 4) (x : Station) : (s.setStation d st x).inputs = s.inputs := rfl
@[simp] theorem State.setStation_channels (s : State) (d st : Fin 4) (x : Station) : (s.setStation d st x).channels = s.channels := rfl
@[simp] theorem State.setStation_ducts (s : State) (d st : Fin 4) (x : Station) : (s.setStation d st x).ducts = s.ducts := rfl
@[simp] theorem State.setStation_doors (s : State) (d st : Fin 4) (x : Station) : (s.setStation d st x).doors = s.doors := rfl
@[simp] theorem State.setStation_arbiter (s : State) (d st : Fin 4) (x : Station) : (s.setStation d st x).arbiter = s.arbiter := rfl
@[simp] theorem State.setStation_captures (s : State) (d st : Fin 4) (x : Station) : (s.setStation d st x).captures = s.captures := rfl
@[simp] theorem State.setStation_ports (s : State) (d st : Fin 4) (x : Station) : (s.setStation d st x).ports = s.ports := rfl
@[simp] theorem State.setStation_key (s : State) (d st : Fin 4) (x : Station) : (s.setStation d st x).key = s.key := rfl
@[simp] theorem State.setStation_loader (s : State) (d st : Fin 4) (x : Station) : (s.setStation d st x).loader = s.loader := rfl
@[simp] theorem State.setStation_store (s : State) (d st : Fin 4) (x : Station) : (s.setStation d st x).store = s.store := rfl
@[simp] theorem State.setStation_leads (s : State) (d st : Fin 4) (x : Station) : (s.setStation d st x).leads = s.leads := rfl
@[simp] theorem State.setStation_samples (s : State) (d st : Fin 4) (x : Station) : (s.setStation d st x).samples = s.samples := rfl
@[simp] theorem State.setStation_free (s : State) (d st : Fin 4) (x : Station) : (s.setStation d st x).free = s.free := rfl
@[simp] theorem State.setStation_pending (s : State) (d st : Fin 4) (x : Station) : (s.setStation d st x).pending = s.pending := rfl
@[simp] theorem State.setStation_zone (s : State) (d st : Fin 4) (x : Station) (y : Fin 16) : (s.setStation d st x).zone y = s.zone y := rfl
@[simp] theorem State.setStation_duct (s : State) (d st : Fin 4) (x : Station) (e : Fin 4) : (s.setStation d st x).duct e = s.duct e := rfl
@[simp] theorem State.setStation_ductCfg (s : State) (d st : Fin 4) (x : Station) (e : Fin 4) : (s.setStation d st x).ductCfg e = s.ductCfg e := rfl
@[simp] theorem State.setStation_channel (s : State) (d st : Fin 4) (x : Station) (o : Fin 16) : (s.setStation d st x).channel o = s.channel o := rfl
@[simp] theorem State.setStation_door (s : State) (d st : Fin 4) (x : Station) (j : Fin 12) : (s.setStation d st x).door j = s.door j := rfl
@[simp] theorem State.setStation_input (s : State) (d st : Fin 4) (x : Station) (j : Fin 8) : (s.setStation d st x).input j = s.input j := rfl
@[simp] theorem State.setStation_port (s : State) (d st : Fin 4) (x : Station) (q : Port) : (s.setStation d st x).port q = s.port q := rfl
@[simp] theorem State.setStation_ctl (s : State) (d st : Fin 4) (x : Station) (e : Fin 4) : (s.setStation d st x).ctl e = s.ctl e := rfl
@[simp] theorem State.setStation_valve (s : State) (d st : Fin 4) (x : Station) (e : Fin 4) (v : Fin 2) : (s.setStation d st x).valve e v = s.valve e v := rfl
@[simp] theorem State.setStation_valveCfg (s : State) (d st : Fin 4) (x : Station) (e : Fin 4) (v : Fin 2) : (s.setStation d st x).valveCfg e v = s.valveCfg e v := rfl
@[simp] theorem State.setStation_gate (s : State) (d st : Fin 4) (x : Station) (e : Fin 4) : (s.setStation d st x).gate e = s.gate e := rfl
@[simp] theorem State.setStation_gateCfg (s : State) (d st : Fin 4) (x : Station) (e : Fin 4) : (s.setStation d st x).gateCfg e = s.gateCfg e := rfl
@[simp] theorem State.setStation_isRunning (s : State) (d st : Fin 4) (x : Station) : (s.setStation d st x).isRunning = s.isRunning := rfl
@[simp] theorem State.setStation_keyClosed (s : State) (d st : Fin 4) (x : Station) : (s.setStation d st x).keyClosed = s.keyClosed := rfl

/-! ### setDoor -/

@[simp] theorem State.setDoor_tick (s : State) (i : Fin 12) (x : Door) : (s.setDoor i x).tick = s.tick := rfl
@[simp] theorem State.setDoor_resetLow (s : State) (i : Fin 12) (x : Door) : (s.setDoor i x).resetLow = s.resetLow := rfl
@[simp] theorem State.setDoor_cfg (s : State) (i : Fin 12) (x : Door) : (s.setDoor i x).cfg = s.cfg := rfl
@[simp] theorem State.setDoor_zones (s : State) (i : Fin 12) (x : Door) : (s.setDoor i x).zones = s.zones := rfl
@[simp] theorem State.setDoor_inputs (s : State) (i : Fin 12) (x : Door) : (s.setDoor i x).inputs = s.inputs := rfl
@[simp] theorem State.setDoor_channels (s : State) (i : Fin 12) (x : Door) : (s.setDoor i x).channels = s.channels := rfl
@[simp] theorem State.setDoor_stations (s : State) (i : Fin 12) (x : Door) : (s.setDoor i x).stations = s.stations := rfl
@[simp] theorem State.setDoor_ducts (s : State) (i : Fin 12) (x : Door) : (s.setDoor i x).ducts = s.ducts := rfl
@[simp] theorem State.setDoor_arbiter (s : State) (i : Fin 12) (x : Door) : (s.setDoor i x).arbiter = s.arbiter := rfl
@[simp] theorem State.setDoor_captures (s : State) (i : Fin 12) (x : Door) : (s.setDoor i x).captures = s.captures := rfl
@[simp] theorem State.setDoor_ports (s : State) (i : Fin 12) (x : Door) : (s.setDoor i x).ports = s.ports := rfl
@[simp] theorem State.setDoor_key (s : State) (i : Fin 12) (x : Door) : (s.setDoor i x).key = s.key := rfl
@[simp] theorem State.setDoor_loader (s : State) (i : Fin 12) (x : Door) : (s.setDoor i x).loader = s.loader := rfl
@[simp] theorem State.setDoor_store (s : State) (i : Fin 12) (x : Door) : (s.setDoor i x).store = s.store := rfl
@[simp] theorem State.setDoor_leads (s : State) (i : Fin 12) (x : Door) : (s.setDoor i x).leads = s.leads := rfl
@[simp] theorem State.setDoor_samples (s : State) (i : Fin 12) (x : Door) : (s.setDoor i x).samples = s.samples := rfl
@[simp] theorem State.setDoor_free (s : State) (i : Fin 12) (x : Door) : (s.setDoor i x).free = s.free := rfl
@[simp] theorem State.setDoor_pending (s : State) (i : Fin 12) (x : Door) : (s.setDoor i x).pending = s.pending := rfl
@[simp] theorem State.setDoor_zone (s : State) (i : Fin 12) (x : Door) (y : Fin 16) : (s.setDoor i x).zone y = s.zone y := rfl
@[simp] theorem State.setDoor_duct (s : State) (i : Fin 12) (x : Door) (e : Fin 4) : (s.setDoor i x).duct e = s.duct e := rfl
@[simp] theorem State.setDoor_ductCfg (s : State) (i : Fin 12) (x : Door) (e : Fin 4) : (s.setDoor i x).ductCfg e = s.ductCfg e := rfl
@[simp] theorem State.setDoor_channel (s : State) (i : Fin 12) (x : Door) (o : Fin 16) : (s.setDoor i x).channel o = s.channel o := rfl
@[simp] theorem State.setDoor_station (s : State) (i : Fin 12) (x : Door) (e r : Fin 4) : (s.setDoor i x).station e r = s.station e r := rfl
@[simp] theorem State.setDoor_input (s : State) (i : Fin 12) (x : Door) (j : Fin 8) : (s.setDoor i x).input j = s.input j := rfl
@[simp] theorem State.setDoor_port (s : State) (i : Fin 12) (x : Door) (q : Port) : (s.setDoor i x).port q = s.port q := rfl
@[simp] theorem State.setDoor_ctl (s : State) (i : Fin 12) (x : Door) (e : Fin 4) : (s.setDoor i x).ctl e = s.ctl e := rfl
@[simp] theorem State.setDoor_valve (s : State) (i : Fin 12) (x : Door) (e : Fin 4) (v : Fin 2) : (s.setDoor i x).valve e v = s.valve e v := rfl
@[simp] theorem State.setDoor_valveCfg (s : State) (i : Fin 12) (x : Door) (e : Fin 4) (v : Fin 2) : (s.setDoor i x).valveCfg e v = s.valveCfg e v := rfl
@[simp] theorem State.setDoor_gate (s : State) (i : Fin 12) (x : Door) (e : Fin 4) : (s.setDoor i x).gate e = s.gate e := rfl
@[simp] theorem State.setDoor_gateCfg (s : State) (i : Fin 12) (x : Door) (e : Fin 4) : (s.setDoor i x).gateCfg e = s.gateCfg e := rfl
@[simp] theorem State.setDoor_isRunning (s : State) (i : Fin 12) (x : Door) : (s.setDoor i x).isRunning = s.isRunning := rfl
@[simp] theorem State.setDoor_keyClosed (s : State) (i : Fin 12) (x : Door) : (s.setDoor i x).keyClosed = s.keyClosed := rfl

/-! ### setInput -/

@[simp] theorem State.setInput_tick (s : State) (i : Fin 8) (x : Input) : (s.setInput i x).tick = s.tick := rfl
@[simp] theorem State.setInput_resetLow (s : State) (i : Fin 8) (x : Input) : (s.setInput i x).resetLow = s.resetLow := rfl
@[simp] theorem State.setInput_cfg (s : State) (i : Fin 8) (x : Input) : (s.setInput i x).cfg = s.cfg := rfl
@[simp] theorem State.setInput_zones (s : State) (i : Fin 8) (x : Input) : (s.setInput i x).zones = s.zones := rfl
@[simp] theorem State.setInput_channels (s : State) (i : Fin 8) (x : Input) : (s.setInput i x).channels = s.channels := rfl
@[simp] theorem State.setInput_stations (s : State) (i : Fin 8) (x : Input) : (s.setInput i x).stations = s.stations := rfl
@[simp] theorem State.setInput_ducts (s : State) (i : Fin 8) (x : Input) : (s.setInput i x).ducts = s.ducts := rfl
@[simp] theorem State.setInput_doors (s : State) (i : Fin 8) (x : Input) : (s.setInput i x).doors = s.doors := rfl
@[simp] theorem State.setInput_arbiter (s : State) (i : Fin 8) (x : Input) : (s.setInput i x).arbiter = s.arbiter := rfl
@[simp] theorem State.setInput_captures (s : State) (i : Fin 8) (x : Input) : (s.setInput i x).captures = s.captures := rfl
@[simp] theorem State.setInput_ports (s : State) (i : Fin 8) (x : Input) : (s.setInput i x).ports = s.ports := rfl
@[simp] theorem State.setInput_key (s : State) (i : Fin 8) (x : Input) : (s.setInput i x).key = s.key := rfl
@[simp] theorem State.setInput_loader (s : State) (i : Fin 8) (x : Input) : (s.setInput i x).loader = s.loader := rfl
@[simp] theorem State.setInput_store (s : State) (i : Fin 8) (x : Input) : (s.setInput i x).store = s.store := rfl
@[simp] theorem State.setInput_leads (s : State) (i : Fin 8) (x : Input) : (s.setInput i x).leads = s.leads := rfl
@[simp] theorem State.setInput_samples (s : State) (i : Fin 8) (x : Input) : (s.setInput i x).samples = s.samples := rfl
@[simp] theorem State.setInput_free (s : State) (i : Fin 8) (x : Input) : (s.setInput i x).free = s.free := rfl
@[simp] theorem State.setInput_pending (s : State) (i : Fin 8) (x : Input) : (s.setInput i x).pending = s.pending := rfl
@[simp] theorem State.setInput_zone (s : State) (i : Fin 8) (x : Input) (y : Fin 16) : (s.setInput i x).zone y = s.zone y := rfl
@[simp] theorem State.setInput_duct (s : State) (i : Fin 8) (x : Input) (e : Fin 4) : (s.setInput i x).duct e = s.duct e := rfl
@[simp] theorem State.setInput_ductCfg (s : State) (i : Fin 8) (x : Input) (e : Fin 4) : (s.setInput i x).ductCfg e = s.ductCfg e := rfl
@[simp] theorem State.setInput_channel (s : State) (i : Fin 8) (x : Input) (o : Fin 16) : (s.setInput i x).channel o = s.channel o := rfl
@[simp] theorem State.setInput_station (s : State) (i : Fin 8) (x : Input) (e r : Fin 4) : (s.setInput i x).station e r = s.station e r := rfl
@[simp] theorem State.setInput_door (s : State) (i : Fin 8) (x : Input) (j : Fin 12) : (s.setInput i x).door j = s.door j := rfl
@[simp] theorem State.setInput_port (s : State) (i : Fin 8) (x : Input) (q : Port) : (s.setInput i x).port q = s.port q := rfl
@[simp] theorem State.setInput_ctl (s : State) (i : Fin 8) (x : Input) (e : Fin 4) : (s.setInput i x).ctl e = s.ctl e := rfl
@[simp] theorem State.setInput_valve (s : State) (i : Fin 8) (x : Input) (e : Fin 4) (v : Fin 2) : (s.setInput i x).valve e v = s.valve e v := rfl
@[simp] theorem State.setInput_valveCfg (s : State) (i : Fin 8) (x : Input) (e : Fin 4) (v : Fin 2) : (s.setInput i x).valveCfg e v = s.valveCfg e v := rfl
@[simp] theorem State.setInput_gate (s : State) (i : Fin 8) (x : Input) (e : Fin 4) : (s.setInput i x).gate e = s.gate e := rfl
@[simp] theorem State.setInput_gateCfg (s : State) (i : Fin 8) (x : Input) (e : Fin 4) : (s.setInput i x).gateCfg e = s.gateCfg e := rfl
@[simp] theorem State.setInput_isRunning (s : State) (i : Fin 8) (x : Input) : (s.setInput i x).isRunning = s.isRunning := rfl
@[simp] theorem State.setInput_keyClosed (s : State) (i : Fin 8) (x : Input) : (s.setInput i x).keyClosed = s.keyClosed := rfl

/-! ### setPort -/

@[simp] theorem State.setPort_tick (s : State) (p : Port) (x : PortUnit) : (s.setPort p x).tick = s.tick := rfl
@[simp] theorem State.setPort_resetLow (s : State) (p : Port) (x : PortUnit) : (s.setPort p x).resetLow = s.resetLow := rfl
@[simp] theorem State.setPort_cfg (s : State) (p : Port) (x : PortUnit) : (s.setPort p x).cfg = s.cfg := rfl
@[simp] theorem State.setPort_zones (s : State) (p : Port) (x : PortUnit) : (s.setPort p x).zones = s.zones := rfl
@[simp] theorem State.setPort_inputs (s : State) (p : Port) (x : PortUnit) : (s.setPort p x).inputs = s.inputs := rfl
@[simp] theorem State.setPort_channels (s : State) (p : Port) (x : PortUnit) : (s.setPort p x).channels = s.channels := rfl
@[simp] theorem State.setPort_stations (s : State) (p : Port) (x : PortUnit) : (s.setPort p x).stations = s.stations := rfl
@[simp] theorem State.setPort_ducts (s : State) (p : Port) (x : PortUnit) : (s.setPort p x).ducts = s.ducts := rfl
@[simp] theorem State.setPort_doors (s : State) (p : Port) (x : PortUnit) : (s.setPort p x).doors = s.doors := rfl
@[simp] theorem State.setPort_arbiter (s : State) (p : Port) (x : PortUnit) : (s.setPort p x).arbiter = s.arbiter := rfl
@[simp] theorem State.setPort_captures (s : State) (p : Port) (x : PortUnit) : (s.setPort p x).captures = s.captures := rfl
@[simp] theorem State.setPort_key (s : State) (p : Port) (x : PortUnit) : (s.setPort p x).key = s.key := rfl
@[simp] theorem State.setPort_loader (s : State) (p : Port) (x : PortUnit) : (s.setPort p x).loader = s.loader := rfl
@[simp] theorem State.setPort_store (s : State) (p : Port) (x : PortUnit) : (s.setPort p x).store = s.store := rfl
@[simp] theorem State.setPort_leads (s : State) (p : Port) (x : PortUnit) : (s.setPort p x).leads = s.leads := rfl
@[simp] theorem State.setPort_samples (s : State) (p : Port) (x : PortUnit) : (s.setPort p x).samples = s.samples := rfl
@[simp] theorem State.setPort_free (s : State) (p : Port) (x : PortUnit) : (s.setPort p x).free = s.free := rfl
@[simp] theorem State.setPort_pending (s : State) (p : Port) (x : PortUnit) : (s.setPort p x).pending = s.pending := rfl
@[simp] theorem State.setPort_zone (s : State) (p : Port) (x : PortUnit) (y : Fin 16) : (s.setPort p x).zone y = s.zone y := rfl
@[simp] theorem State.setPort_duct (s : State) (p : Port) (x : PortUnit) (e : Fin 4) : (s.setPort p x).duct e = s.duct e := rfl
@[simp] theorem State.setPort_ductCfg (s : State) (p : Port) (x : PortUnit) (e : Fin 4) : (s.setPort p x).ductCfg e = s.ductCfg e := rfl
@[simp] theorem State.setPort_channel (s : State) (p : Port) (x : PortUnit) (o : Fin 16) : (s.setPort p x).channel o = s.channel o := rfl
@[simp] theorem State.setPort_station (s : State) (p : Port) (x : PortUnit) (e r : Fin 4) : (s.setPort p x).station e r = s.station e r := rfl
@[simp] theorem State.setPort_door (s : State) (p : Port) (x : PortUnit) (j : Fin 12) : (s.setPort p x).door j = s.door j := rfl
@[simp] theorem State.setPort_input (s : State) (p : Port) (x : PortUnit) (j : Fin 8) : (s.setPort p x).input j = s.input j := rfl
@[simp] theorem State.setPort_ctl (s : State) (p : Port) (x : PortUnit) (e : Fin 4) : (s.setPort p x).ctl e = s.ctl e := rfl
@[simp] theorem State.setPort_valve (s : State) (p : Port) (x : PortUnit) (e : Fin 4) (v : Fin 2) : (s.setPort p x).valve e v = s.valve e v := rfl
@[simp] theorem State.setPort_valveCfg (s : State) (p : Port) (x : PortUnit) (e : Fin 4) (v : Fin 2) : (s.setPort p x).valveCfg e v = s.valveCfg e v := rfl
@[simp] theorem State.setPort_gate (s : State) (p : Port) (x : PortUnit) (e : Fin 4) : (s.setPort p x).gate e = s.gate e := rfl
@[simp] theorem State.setPort_gateCfg (s : State) (p : Port) (x : PortUnit) (e : Fin 4) : (s.setPort p x).gateCfg e = s.gateCfg e := rfl
@[simp] theorem State.setPort_isRunning (s : State) (p : Port) (x : PortUnit) : (s.setPort p x).isRunning = s.isRunning := rfl
@[simp] theorem State.setPort_keyClosed (s : State) (p : Port) (x : PortUnit) : (s.setPort p x).keyClosed = s.keyClosed := rfl

/-! ### setArbiter -/

@[simp] theorem State.setArbiter_tick (s : State) (x : Arbiter) : (s.setArbiter x).tick = s.tick := rfl
@[simp] theorem State.setArbiter_resetLow (s : State) (x : Arbiter) : (s.setArbiter x).resetLow = s.resetLow := rfl
@[simp] theorem State.setArbiter_cfg (s : State) (x : Arbiter) : (s.setArbiter x).cfg = s.cfg := rfl
@[simp] theorem State.setArbiter_zones (s : State) (x : Arbiter) : (s.setArbiter x).zones = s.zones := rfl
@[simp] theorem State.setArbiter_inputs (s : State) (x : Arbiter) : (s.setArbiter x).inputs = s.inputs := rfl
@[simp] theorem State.setArbiter_channels (s : State) (x : Arbiter) : (s.setArbiter x).channels = s.channels := rfl
@[simp] theorem State.setArbiter_stations (s : State) (x : Arbiter) : (s.setArbiter x).stations = s.stations := rfl
@[simp] theorem State.setArbiter_ducts (s : State) (x : Arbiter) : (s.setArbiter x).ducts = s.ducts := rfl
@[simp] theorem State.setArbiter_doors (s : State) (x : Arbiter) : (s.setArbiter x).doors = s.doors := rfl
@[simp] theorem State.setArbiter_captures (s : State) (x : Arbiter) : (s.setArbiter x).captures = s.captures := rfl
@[simp] theorem State.setArbiter_ports (s : State) (x : Arbiter) : (s.setArbiter x).ports = s.ports := rfl
@[simp] theorem State.setArbiter_key (s : State) (x : Arbiter) : (s.setArbiter x).key = s.key := rfl
@[simp] theorem State.setArbiter_loader (s : State) (x : Arbiter) : (s.setArbiter x).loader = s.loader := rfl
@[simp] theorem State.setArbiter_store (s : State) (x : Arbiter) : (s.setArbiter x).store = s.store := rfl
@[simp] theorem State.setArbiter_leads (s : State) (x : Arbiter) : (s.setArbiter x).leads = s.leads := rfl
@[simp] theorem State.setArbiter_samples (s : State) (x : Arbiter) : (s.setArbiter x).samples = s.samples := rfl
@[simp] theorem State.setArbiter_free (s : State) (x : Arbiter) : (s.setArbiter x).free = s.free := rfl
@[simp] theorem State.setArbiter_pending (s : State) (x : Arbiter) : (s.setArbiter x).pending = s.pending := rfl
@[simp] theorem State.setArbiter_zone (s : State) (x : Arbiter) (y : Fin 16) : (s.setArbiter x).zone y = s.zone y := rfl
@[simp] theorem State.setArbiter_duct (s : State) (x : Arbiter) (e : Fin 4) : (s.setArbiter x).duct e = s.duct e := rfl
@[simp] theorem State.setArbiter_ductCfg (s : State) (x : Arbiter) (e : Fin 4) : (s.setArbiter x).ductCfg e = s.ductCfg e := rfl
@[simp] theorem State.setArbiter_channel (s : State) (x : Arbiter) (o : Fin 16) : (s.setArbiter x).channel o = s.channel o := rfl
@[simp] theorem State.setArbiter_station (s : State) (x : Arbiter) (e r : Fin 4) : (s.setArbiter x).station e r = s.station e r := rfl
@[simp] theorem State.setArbiter_door (s : State) (x : Arbiter) (j : Fin 12) : (s.setArbiter x).door j = s.door j := rfl
@[simp] theorem State.setArbiter_input (s : State) (x : Arbiter) (j : Fin 8) : (s.setArbiter x).input j = s.input j := rfl
@[simp] theorem State.setArbiter_port (s : State) (x : Arbiter) (q : Port) : (s.setArbiter x).port q = s.port q := rfl
@[simp] theorem State.setArbiter_ctl (s : State) (x : Arbiter) (e : Fin 4) : (s.setArbiter x).ctl e = s.ctl e := rfl
@[simp] theorem State.setArbiter_valve (s : State) (x : Arbiter) (e : Fin 4) (v : Fin 2) : (s.setArbiter x).valve e v = s.valve e v := rfl
@[simp] theorem State.setArbiter_valveCfg (s : State) (x : Arbiter) (e : Fin 4) (v : Fin 2) : (s.setArbiter x).valveCfg e v = s.valveCfg e v := rfl
@[simp] theorem State.setArbiter_gate (s : State) (x : Arbiter) (e : Fin 4) : (s.setArbiter x).gate e = s.gate e := rfl
@[simp] theorem State.setArbiter_gateCfg (s : State) (x : Arbiter) (e : Fin 4) : (s.setArbiter x).gateCfg e = s.gateCfg e := rfl
@[simp] theorem State.setArbiter_isRunning (s : State) (x : Arbiter) : (s.setArbiter x).isRunning = s.isRunning := rfl
@[simp] theorem State.setArbiter_keyClosed (s : State) (x : Arbiter) : (s.setArbiter x).keyClosed = s.keyClosed := rfl

/-! ### setCaptures -/

@[simp] theorem State.setCaptures_tick (s : State) (x : Captures) : (s.setCaptures x).tick = s.tick := rfl
@[simp] theorem State.setCaptures_resetLow (s : State) (x : Captures) : (s.setCaptures x).resetLow = s.resetLow := rfl
@[simp] theorem State.setCaptures_cfg (s : State) (x : Captures) : (s.setCaptures x).cfg = s.cfg := rfl
@[simp] theorem State.setCaptures_zones (s : State) (x : Captures) : (s.setCaptures x).zones = s.zones := rfl
@[simp] theorem State.setCaptures_inputs (s : State) (x : Captures) : (s.setCaptures x).inputs = s.inputs := rfl
@[simp] theorem State.setCaptures_channels (s : State) (x : Captures) : (s.setCaptures x).channels = s.channels := rfl
@[simp] theorem State.setCaptures_stations (s : State) (x : Captures) : (s.setCaptures x).stations = s.stations := rfl
@[simp] theorem State.setCaptures_ducts (s : State) (x : Captures) : (s.setCaptures x).ducts = s.ducts := rfl
@[simp] theorem State.setCaptures_doors (s : State) (x : Captures) : (s.setCaptures x).doors = s.doors := rfl
@[simp] theorem State.setCaptures_arbiter (s : State) (x : Captures) : (s.setCaptures x).arbiter = s.arbiter := rfl
@[simp] theorem State.setCaptures_ports (s : State) (x : Captures) : (s.setCaptures x).ports = s.ports := rfl
@[simp] theorem State.setCaptures_key (s : State) (x : Captures) : (s.setCaptures x).key = s.key := rfl
@[simp] theorem State.setCaptures_loader (s : State) (x : Captures) : (s.setCaptures x).loader = s.loader := rfl
@[simp] theorem State.setCaptures_store (s : State) (x : Captures) : (s.setCaptures x).store = s.store := rfl
@[simp] theorem State.setCaptures_leads (s : State) (x : Captures) : (s.setCaptures x).leads = s.leads := rfl
@[simp] theorem State.setCaptures_samples (s : State) (x : Captures) : (s.setCaptures x).samples = s.samples := rfl
@[simp] theorem State.setCaptures_free (s : State) (x : Captures) : (s.setCaptures x).free = s.free := rfl
@[simp] theorem State.setCaptures_pending (s : State) (x : Captures) : (s.setCaptures x).pending = s.pending := rfl
@[simp] theorem State.setCaptures_zone (s : State) (x : Captures) (y : Fin 16) : (s.setCaptures x).zone y = s.zone y := rfl
@[simp] theorem State.setCaptures_duct (s : State) (x : Captures) (e : Fin 4) : (s.setCaptures x).duct e = s.duct e := rfl
@[simp] theorem State.setCaptures_ductCfg (s : State) (x : Captures) (e : Fin 4) : (s.setCaptures x).ductCfg e = s.ductCfg e := rfl
@[simp] theorem State.setCaptures_channel (s : State) (x : Captures) (o : Fin 16) : (s.setCaptures x).channel o = s.channel o := rfl
@[simp] theorem State.setCaptures_station (s : State) (x : Captures) (e r : Fin 4) : (s.setCaptures x).station e r = s.station e r := rfl
@[simp] theorem State.setCaptures_door (s : State) (x : Captures) (j : Fin 12) : (s.setCaptures x).door j = s.door j := rfl
@[simp] theorem State.setCaptures_input (s : State) (x : Captures) (j : Fin 8) : (s.setCaptures x).input j = s.input j := rfl
@[simp] theorem State.setCaptures_port (s : State) (x : Captures) (q : Port) : (s.setCaptures x).port q = s.port q := rfl
@[simp] theorem State.setCaptures_ctl (s : State) (x : Captures) (e : Fin 4) : (s.setCaptures x).ctl e = s.ctl e := rfl
@[simp] theorem State.setCaptures_valve (s : State) (x : Captures) (e : Fin 4) (v : Fin 2) : (s.setCaptures x).valve e v = s.valve e v := rfl
@[simp] theorem State.setCaptures_valveCfg (s : State) (x : Captures) (e : Fin 4) (v : Fin 2) : (s.setCaptures x).valveCfg e v = s.valveCfg e v := rfl
@[simp] theorem State.setCaptures_gate (s : State) (x : Captures) (e : Fin 4) : (s.setCaptures x).gate e = s.gate e := rfl
@[simp] theorem State.setCaptures_gateCfg (s : State) (x : Captures) (e : Fin 4) : (s.setCaptures x).gateCfg e = s.gateCfg e := rfl
@[simp] theorem State.setCaptures_isRunning (s : State) (x : Captures) : (s.setCaptures x).isRunning = s.isRunning := rfl
@[simp] theorem State.setCaptures_keyClosed (s : State) (x : Captures) : (s.setCaptures x).keyClosed = s.keyClosed := rfl

/-! ### setLoader -/

@[simp] theorem State.setLoader_tick (s : State) (x : Loader) : (s.setLoader x).tick = s.tick := rfl
@[simp] theorem State.setLoader_resetLow (s : State) (x : Loader) : (s.setLoader x).resetLow = s.resetLow := rfl
@[simp] theorem State.setLoader_cfg (s : State) (x : Loader) : (s.setLoader x).cfg = s.cfg := rfl
@[simp] theorem State.setLoader_zones (s : State) (x : Loader) : (s.setLoader x).zones = s.zones := rfl
@[simp] theorem State.setLoader_inputs (s : State) (x : Loader) : (s.setLoader x).inputs = s.inputs := rfl
@[simp] theorem State.setLoader_channels (s : State) (x : Loader) : (s.setLoader x).channels = s.channels := rfl
@[simp] theorem State.setLoader_stations (s : State) (x : Loader) : (s.setLoader x).stations = s.stations := rfl
@[simp] theorem State.setLoader_ducts (s : State) (x : Loader) : (s.setLoader x).ducts = s.ducts := rfl
@[simp] theorem State.setLoader_doors (s : State) (x : Loader) : (s.setLoader x).doors = s.doors := rfl
@[simp] theorem State.setLoader_arbiter (s : State) (x : Loader) : (s.setLoader x).arbiter = s.arbiter := rfl
@[simp] theorem State.setLoader_captures (s : State) (x : Loader) : (s.setLoader x).captures = s.captures := rfl
@[simp] theorem State.setLoader_ports (s : State) (x : Loader) : (s.setLoader x).ports = s.ports := rfl
@[simp] theorem State.setLoader_key (s : State) (x : Loader) : (s.setLoader x).key = s.key := rfl
@[simp] theorem State.setLoader_store (s : State) (x : Loader) : (s.setLoader x).store = s.store := rfl
@[simp] theorem State.setLoader_leads (s : State) (x : Loader) : (s.setLoader x).leads = s.leads := rfl
@[simp] theorem State.setLoader_samples (s : State) (x : Loader) : (s.setLoader x).samples = s.samples := rfl
@[simp] theorem State.setLoader_free (s : State) (x : Loader) : (s.setLoader x).free = s.free := rfl
@[simp] theorem State.setLoader_pending (s : State) (x : Loader) : (s.setLoader x).pending = s.pending := rfl
@[simp] theorem State.setLoader_zone (s : State) (x : Loader) (y : Fin 16) : (s.setLoader x).zone y = s.zone y := rfl
@[simp] theorem State.setLoader_duct (s : State) (x : Loader) (e : Fin 4) : (s.setLoader x).duct e = s.duct e := rfl
@[simp] theorem State.setLoader_ductCfg (s : State) (x : Loader) (e : Fin 4) : (s.setLoader x).ductCfg e = s.ductCfg e := rfl
@[simp] theorem State.setLoader_channel (s : State) (x : Loader) (o : Fin 16) : (s.setLoader x).channel o = s.channel o := rfl
@[simp] theorem State.setLoader_station (s : State) (x : Loader) (e r : Fin 4) : (s.setLoader x).station e r = s.station e r := rfl
@[simp] theorem State.setLoader_door (s : State) (x : Loader) (j : Fin 12) : (s.setLoader x).door j = s.door j := rfl
@[simp] theorem State.setLoader_input (s : State) (x : Loader) (j : Fin 8) : (s.setLoader x).input j = s.input j := rfl
@[simp] theorem State.setLoader_port (s : State) (x : Loader) (q : Port) : (s.setLoader x).port q = s.port q := rfl
@[simp] theorem State.setLoader_ctl (s : State) (x : Loader) (e : Fin 4) : (s.setLoader x).ctl e = s.ctl e := rfl
@[simp] theorem State.setLoader_valve (s : State) (x : Loader) (e : Fin 4) (v : Fin 2) : (s.setLoader x).valve e v = s.valve e v := rfl
@[simp] theorem State.setLoader_valveCfg (s : State) (x : Loader) (e : Fin 4) (v : Fin 2) : (s.setLoader x).valveCfg e v = s.valveCfg e v := rfl
@[simp] theorem State.setLoader_gate (s : State) (x : Loader) (e : Fin 4) : (s.setLoader x).gate e = s.gate e := rfl
@[simp] theorem State.setLoader_gateCfg (s : State) (x : Loader) (e : Fin 4) : (s.setLoader x).gateCfg e = s.gateCfg e := rfl
@[simp] theorem State.setLoader_keyClosed (s : State) (x : Loader) : (s.setLoader x).keyClosed = s.keyClosed := rfl

/-! ### Reads of what was written -/

@[simp] theorem State.setZone_zone_self (s : State) (z : Fin 16) (x : Zone) : (s.setZone z x).zone z = x := by
  simp [State.setZone, State.zone]

theorem State.setZone_zone_ne (s : State) (z y : Fin 16) (x : Zone) (h : y ≠ z) : (s.setZone z x).zone y = s.zone y := by
  have : z.val ≠ y.val := fun e => h (Fin.ext e.symm)
  simp [State.setZone, State.zone, this]

@[simp] theorem State.setDuct_duct_self (s : State) (d : Fin 4) (x : Duct) : (s.setDuct d x).duct d = x := by
  simp [State.setDuct, State.duct]

theorem State.setDuct_duct_ne (s : State) (d e : Fin 4) (x : Duct) (h : e ≠ d) : (s.setDuct d x).duct e = s.duct e := by
  have : d.val ≠ e.val := fun k => h (Fin.ext k.symm)
  simp [State.setDuct, State.duct, this]

@[simp] theorem State.setChannel_channel_self (s : State) (c : Fin 16) (x : Channel) : (s.setChannel c x).channel c = x := by
  simp [State.setChannel, State.channel]

theorem State.setChannel_channel_ne (s : State) (c o : Fin 16) (x : Channel) (h : o ≠ c) :
    (s.setChannel c x).channel o = s.channel o := by
  have : c.val ≠ o.val := fun e => h (Fin.ext e.symm)
  simp [State.setChannel, State.channel, this]

@[simp] theorem State.setStation_station_self (s : State) (d st : Fin 4) (x : Station) :
    (s.setStation d st x).station d st = x := by
  simp [State.setStation, State.station]

@[simp] theorem State.setDoor_door_self (s : State) (i : Fin 12) (x : Door) : (s.setDoor i x).door i = x := by
  simp [State.setDoor, State.door]

theorem State.setDoor_door_ne (s : State) (i j : Fin 12) (x : Door) (h : j ≠ i) : (s.setDoor i x).door j = s.door j := by
  have : i.val ≠ j.val := fun e => h (Fin.ext e.symm)
  simp [State.setDoor, State.door, this]

@[simp] theorem State.setInput_input_self (s : State) (i : Fin 8) (x : Input) : (s.setInput i x).input i = x := by
  simp [State.setInput, State.input]

theorem State.setInput_input_ne (s : State) (i j : Fin 8) (x : Input) (h : j ≠ i) :
    (s.setInput i x).input j = s.input j := by
  have : i.val ≠ j.val := fun e => h (Fin.ext e.symm)
  simp [State.setInput, State.input, this]

@[simp] theorem State.setPort_port_self (s : State) (p : Port) (x : PortUnit) : (s.setPort p x).port p = x := by
  simp [State.setPort, State.port]

theorem State.setPort_port_ne (s : State) (p q : Port) (x : PortUnit) (h : q ≠ p) : (s.setPort p x).port q = s.port q := by
  cases p <;> cases q <;> first | exact absurd rfl h | simp [State.setPort, State.port, portIx]

@[simp] theorem State.setArbiter_arbiter (s : State) (x : Arbiter) : (s.setArbiter x).arbiter = x := rfl

@[simp] theorem State.setCaptures_captures (s : State) (x : Captures) : (s.setCaptures x).captures = x := rfl

@[simp] theorem State.setLoader_loader (s : State) (x : Loader) : (s.setLoader x).loader = x := rfl

/-! ### One duct's parts -/

@[simp] theorem State.setCtl_ctl_self (s : State) (d : Fin 4) (c : Ctl) : (s.setCtl d c).ctl d = c.withOutputs := by
  simp [State.setCtl, State.ctl]

@[simp] theorem State.setCtl_gate (s : State) (d : Fin 4) (c : Ctl) : (s.setCtl d c).gate d = s.gate d := by
  simp [State.setCtl, State.gate]

@[simp] theorem State.setCtl_valve (s : State) (d : Fin 4) (v : Fin 2) (c : Ctl) :
    (s.setCtl d c).valve d v = s.valve d v := by
  simp [State.setCtl, State.valve]

@[simp] theorem State.setCtl_bounds (s : State) (d : Fin 4) (c : Ctl) :
    ((s.setCtl d c).duct d).vel.bounds = boundsFor (s.ductCfg d) (s.duct d).vel.state (s.duct d).vel.value c.state := by
  simp [State.setCtl]

@[simp] theorem State.setGate_gate_self (s : State) (d : Fin 4) (g : Gate) : (s.setGate d g).gate d = g := by
  simp [State.setGate, State.gate]

@[simp] theorem State.setGate_ctl (s : State) (d : Fin 4) (g : Gate) : (s.setGate d g).ctl d = s.ctl d := by
  simp [State.setGate, State.ctl]

@[simp] theorem State.setGate_valve (s : State) (d : Fin 4) (v : Fin 2) (g : Gate) :
    (s.setGate d g).valve d v = s.valve d v := by
  simp [State.setGate, State.valve]

@[simp] theorem State.setValve_valve_self (s : State) (d : Fin 4) (v : Fin 2) (x : Valve) :
    (s.setValve d v x).valve d v = x := by
  simp [State.setValve, State.valve]

@[simp] theorem State.setValve_ctl (s : State) (d : Fin 4) (v : Fin 2) (x : Valve) : (s.setValve d v x).ctl d = s.ctl d := by
  simp [State.setValve, State.ctl]

@[simp] theorem State.setValve_gate (s : State) (d : Fin 4) (v : Fin 2) (x : Valve) : (s.setValve d v x).gate d = s.gate d := by
  simp [State.setValve, State.gate]

/-! ### setLeads -/

@[simp] theorem State.setLeads_tick (s : State) (x : Leads) : (s.setLeads x).tick = s.tick := rfl
@[simp] theorem State.setLeads_resetLow (s : State) (x : Leads) : (s.setLeads x).resetLow = s.resetLow := rfl
@[simp] theorem State.setLeads_cfg (s : State) (x : Leads) : (s.setLeads x).cfg = s.cfg := rfl
@[simp] theorem State.setLeads_zones (s : State) (x : Leads) : (s.setLeads x).zones = s.zones := rfl
@[simp] theorem State.setLeads_inputs (s : State) (x : Leads) : (s.setLeads x).inputs = s.inputs := rfl
@[simp] theorem State.setLeads_channels (s : State) (x : Leads) : (s.setLeads x).channels = s.channels := rfl
@[simp] theorem State.setLeads_stations (s : State) (x : Leads) : (s.setLeads x).stations = s.stations := rfl
@[simp] theorem State.setLeads_ducts (s : State) (x : Leads) : (s.setLeads x).ducts = s.ducts := rfl
@[simp] theorem State.setLeads_doors (s : State) (x : Leads) : (s.setLeads x).doors = s.doors := rfl
@[simp] theorem State.setLeads_arbiter (s : State) (x : Leads) : (s.setLeads x).arbiter = s.arbiter := rfl
@[simp] theorem State.setLeads_captures (s : State) (x : Leads) : (s.setLeads x).captures = s.captures := rfl
@[simp] theorem State.setLeads_ports (s : State) (x : Leads) : (s.setLeads x).ports = s.ports := rfl
@[simp] theorem State.setLeads_key (s : State) (x : Leads) : (s.setLeads x).key = s.key := rfl
@[simp] theorem State.setLeads_loader (s : State) (x : Leads) : (s.setLeads x).loader = s.loader := rfl
@[simp] theorem State.setLeads_store (s : State) (x : Leads) : (s.setLeads x).store = s.store := rfl
@[simp] theorem State.setLeads_samples (s : State) (x : Leads) : (s.setLeads x).samples = s.samples := rfl
@[simp] theorem State.setLeads_free (s : State) (x : Leads) : (s.setLeads x).free = s.free := rfl
@[simp] theorem State.setLeads_pending (s : State) (x : Leads) : (s.setLeads x).pending = s.pending := rfl
@[simp] theorem State.setLeads_zone (s : State) (x : Leads) (z : Fin 16) : (s.setLeads x).zone z = s.zone z := rfl
@[simp] theorem State.setLeads_duct (s : State) (x : Leads) (e : Fin 4) : (s.setLeads x).duct e = s.duct e := rfl
@[simp] theorem State.setLeads_ductCfg (s : State) (x : Leads) (e : Fin 4) : (s.setLeads x).ductCfg e = s.ductCfg e := rfl
@[simp] theorem State.setLeads_channel (s : State) (x : Leads) (o : Fin 16) : (s.setLeads x).channel o = s.channel o := rfl
@[simp] theorem State.setLeads_station (s : State) (x : Leads) (e r : Fin 4) : (s.setLeads x).station e r = s.station e r := rfl
@[simp] theorem State.setLeads_door (s : State) (x : Leads) (j : Fin 12) : (s.setLeads x).door j = s.door j := rfl
@[simp] theorem State.setLeads_input (s : State) (x : Leads) (j : Fin 8) : (s.setLeads x).input j = s.input j := rfl
@[simp] theorem State.setLeads_port (s : State) (x : Leads) (q : Port) : (s.setLeads x).port q = s.port q := rfl
@[simp] theorem State.setLeads_ctl (s : State) (x : Leads) (e : Fin 4) : (s.setLeads x).ctl e = s.ctl e := rfl
@[simp] theorem State.setLeads_valve (s : State) (x : Leads) (e : Fin 4) (v : Fin 2) : (s.setLeads x).valve e v = s.valve e v := rfl
@[simp] theorem State.setLeads_valveCfg (s : State) (x : Leads) (e : Fin 4) (v : Fin 2) : (s.setLeads x).valveCfg e v = s.valveCfg e v := rfl
@[simp] theorem State.setLeads_gate (s : State) (x : Leads) (e : Fin 4) : (s.setLeads x).gate e = s.gate e := rfl
@[simp] theorem State.setLeads_gateCfg (s : State) (x : Leads) (e : Fin 4) : (s.setLeads x).gateCfg e = s.gateCfg e := rfl
@[simp] theorem State.setLeads_isRunning (s : State) (x : Leads) : (s.setLeads x).isRunning = s.isRunning := rfl
@[simp] theorem State.setLeads_keyClosed (s : State) (x : Leads) : (s.setLeads x).keyClosed = s.keyClosed := rfl
@[simp] theorem State.setLeads_leads (s : State) (x : Leads) : (s.setLeads x).leads = x := rfl
@[simp] theorem State.setLeads_sampled (s : State) (x : Leads) (y : Sampler) : (s.setLeads x).sampled y = s.sampled y := rfl
@[simp] theorem State.setLeads_samplesInput (s : State) (x : Leads) (y : Sampler) :
    (s.setLeads x).samplesInput y = s.samplesInput y := by cases y <;> rfl
@[simp] theorem State.setLeads_sampleDue (s : State) (x : Leads) (y : Sampler) : sampleDue (s.setLeads x) y = sampleDue s y := by
  unfold sampleDue
  rw [State.setLeads_samplesInput]
  rfl

/-! ### tookSample -/

@[simp] theorem State.tookSample_tick (s : State) (x : Sampler) : (s.tookSample x).tick = s.tick := rfl
@[simp] theorem State.tookSample_resetLow (s : State) (x : Sampler) : (s.tookSample x).resetLow = s.resetLow := rfl
@[simp] theorem State.tookSample_cfg (s : State) (x : Sampler) : (s.tookSample x).cfg = s.cfg := rfl
@[simp] theorem State.tookSample_zones (s : State) (x : Sampler) : (s.tookSample x).zones = s.zones := rfl
@[simp] theorem State.tookSample_inputs (s : State) (x : Sampler) : (s.tookSample x).inputs = s.inputs := rfl
@[simp] theorem State.tookSample_channels (s : State) (x : Sampler) : (s.tookSample x).channels = s.channels := rfl
@[simp] theorem State.tookSample_stations (s : State) (x : Sampler) : (s.tookSample x).stations = s.stations := rfl
@[simp] theorem State.tookSample_ducts (s : State) (x : Sampler) : (s.tookSample x).ducts = s.ducts := rfl
@[simp] theorem State.tookSample_doors (s : State) (x : Sampler) : (s.tookSample x).doors = s.doors := rfl
@[simp] theorem State.tookSample_arbiter (s : State) (x : Sampler) : (s.tookSample x).arbiter = s.arbiter := rfl
@[simp] theorem State.tookSample_captures (s : State) (x : Sampler) : (s.tookSample x).captures = s.captures := rfl
@[simp] theorem State.tookSample_ports (s : State) (x : Sampler) : (s.tookSample x).ports = s.ports := rfl
@[simp] theorem State.tookSample_key (s : State) (x : Sampler) : (s.tookSample x).key = s.key := rfl
@[simp] theorem State.tookSample_loader (s : State) (x : Sampler) : (s.tookSample x).loader = s.loader := rfl
@[simp] theorem State.tookSample_store (s : State) (x : Sampler) : (s.tookSample x).store = s.store := rfl
@[simp] theorem State.tookSample_leads (s : State) (x : Sampler) : (s.tookSample x).leads = s.leads := rfl
@[simp] theorem State.tookSample_free (s : State) (x : Sampler) : (s.tookSample x).free = s.free := rfl
@[simp] theorem State.tookSample_pending (s : State) (x : Sampler) : (s.tookSample x).pending = s.pending := rfl
@[simp] theorem State.tookSample_zone (s : State) (x : Sampler) (z : Fin 16) : (s.tookSample x).zone z = s.zone z := rfl
@[simp] theorem State.tookSample_duct (s : State) (x : Sampler) (e : Fin 4) : (s.tookSample x).duct e = s.duct e := rfl
@[simp] theorem State.tookSample_ductCfg (s : State) (x : Sampler) (e : Fin 4) : (s.tookSample x).ductCfg e = s.ductCfg e := rfl
@[simp] theorem State.tookSample_channel (s : State) (x : Sampler) (o : Fin 16) : (s.tookSample x).channel o = s.channel o := rfl
@[simp] theorem State.tookSample_station (s : State) (x : Sampler) (e r : Fin 4) : (s.tookSample x).station e r = s.station e r := rfl
@[simp] theorem State.tookSample_door (s : State) (x : Sampler) (j : Fin 12) : (s.tookSample x).door j = s.door j := rfl
@[simp] theorem State.tookSample_input (s : State) (x : Sampler) (j : Fin 8) : (s.tookSample x).input j = s.input j := rfl
@[simp] theorem State.tookSample_port (s : State) (x : Sampler) (q : Port) : (s.tookSample x).port q = s.port q := rfl
@[simp] theorem State.tookSample_ctl (s : State) (x : Sampler) (e : Fin 4) : (s.tookSample x).ctl e = s.ctl e := rfl
@[simp] theorem State.tookSample_valve (s : State) (x : Sampler) (e : Fin 4) (v : Fin 2) : (s.tookSample x).valve e v = s.valve e v := rfl
@[simp] theorem State.tookSample_valveCfg (s : State) (x : Sampler) (e : Fin 4) (v : Fin 2) : (s.tookSample x).valveCfg e v = s.valveCfg e v := rfl
@[simp] theorem State.tookSample_gate (s : State) (x : Sampler) (e : Fin 4) : (s.tookSample x).gate e = s.gate e := rfl
@[simp] theorem State.tookSample_gateCfg (s : State) (x : Sampler) (e : Fin 4) : (s.tookSample x).gateCfg e = s.gateCfg e := rfl
@[simp] theorem State.tookSample_isRunning (s : State) (x : Sampler) : (s.tookSample x).isRunning = s.isRunning := rfl
@[simp] theorem State.tookSample_keyClosed (s : State) (x : Sampler) : (s.tookSample x).keyClosed = s.keyClosed := rfl

/-- No two inputs share a place. -/
theorem Sampler.ix_injective {x y : Sampler} (h : x.ix = y.ix) : x = y := by
  rcases x with _ | _ | _ | _ | _ | ⟨_, _ | _⟩ | _ | _ <;> rcases y with _ | _ | _ | _ | _ | ⟨_, _ | _⟩ | _ | _ <;>
    simp only [Sampler.ix, Fin.ext_iff, and_true, reduceCtorEq, Sampler.contact.injEq, Sampler.station.injEq,
      Sampler.transducer.injEq, Sampler.flow.injEq, Sampler.gate.injEq, Sampler.closedSwitch.injEq, Sampler.barrier.injEq]
      at h ⊢ <;> omega

@[simp] theorem State.tookSample_sampled_self (s : State) (x : Sampler) : (s.tookSample x).sampled x = s.tick := by
  simp [State.tookSample, State.sampled]

theorem State.tookSample_sampled_ne (s : State) (x y : Sampler) (h : y ≠ x) : (s.tookSample x).sampled y = s.sampled y := by
  have : x.ix.val ≠ y.ix.val := fun e => h (Sampler.ix_injective (Fin.ext e.symm))
  simp [State.tookSample, State.sampled, this]

/-- An input that has been sampled at this tick is not due again. -/
@[simp] theorem State.tookSample_sampleDue_self (s : State) (x : Sampler) : sampleDue (s.tookSample x) x = false := by
  simp [sampleDue]

/-! ### The leads -/

@[simp] theorem setKeyLead_eq (k : KeyState) (s : State) : setKeyLead k s = s.setLeads { s.leads with key := k } := rfl
@[simp] theorem setFlowLead_eq (d : Fin 4) (v : Fin 2) (b : Bool) (s : State) :
    setFlowLead d v b s = s.setLeads { s.leads with flow := s.leads.flow.set d (s.leads.flow[d].set v b) } := rfl
@[simp] theorem setContactLead_eq (i : Fin 8) (p l : Bool) (s : State) :
    setContactLead i p l s = s.setLeads { s.leads with contacts := s.leads.contacts.set i ⟨p, l⟩ } := rfl
@[simp] theorem setClosedLead_eq (i : Fin 12) (b : Bool) (s : State) :
    setClosedLead i b s = s.setLeads { s.leads with closedSwitches := s.leads.closedSwitches.set i b } := rfl
@[simp] theorem setBarrierLead_eq (i : Fin 12) (b : Bool) (s : State) :
    setBarrierLead i b s = s.setLeads { s.leads with barriers := s.leads.barriers.set i b } := rfl
@[simp] theorem setGateLead_open (d : Fin 4) (b : Bool) (s : State) :
    setGateLead d .openSwitch b s = s.setLeads { s.leads with gateOpen := s.leads.gateOpen.set d b } := rfl
@[simp] theorem setGateLead_closed (d : Fin 4) (b : Bool) (s : State) :
    setGateLead d .closedSwitch b s = s.setLeads { s.leads with gateClosed := s.leads.gateClosed.set d b } := rfl

end Sys2Proof.Machine
end

