-- ==== Sys2Proof/Laws/Frames.lean ====
section
/-! SUPPORT. What the shared operations may touch: for each one lemma that says which parts of the state it leaves as they are. The
port records change in nothing but what notices bring, unless a lemma says otherwise. -/

namespace Sys2Proof.Machine

open Sys2Proof

/-! ### The relation -/

/-- The parts of the state that an operation may touch. -/
structure Parts where
  zones : Bool := false
  inputs : Bool := false
  channels : Bool := false
  stations : Bool := false
  ducts : Bool := false
  doors : Bool := false
  arbiter : Bool := false
  captures : Bool := false
  deriving DecidableEq, Repr

/-- One set of parts lies inside another. -/
def Parts.le (m n : Parts) : Bool :=
  (!m.zones || n.zones) && (!m.inputs || n.inputs) && (!m.channels || n.channels) && (!m.stations || n.stations) &&
    (!m.ducts || n.ducts) && (!m.doors || n.doors) && (!m.arbiter || n.arbiter) && (!m.captures || n.captures)

/-- From `s` to `t` nothing has changed outside the parts of `m`, and the ports have at most gained notices. -/
structure Within (m : Parts) (s t : State) : Prop where
  fixed : KeepsFixed s t
  links : KeepsLinks s t
  zones : m.zones = false → t.zones = s.zones
  inputs : m.inputs = false → t.inputs = s.inputs
  channels : m.channels = false → t.channels = s.channels
  stations : m.stations = false → t.stations = s.stations
  ducts : m.ducts = false → t.ducts = s.ducts
  doors : m.doors = false → t.doors = s.doors
  arbiter : m.arbiter = false → t.arbiter = s.arbiter
  captures : m.captures = false → t.captures = s.captures

theorem OnlyNotices.refl (u : PortUnit) : OnlyNotices u u := rfl

theorem OnlyNotices.trans {u v w : PortUnit} (h : OnlyNotices u v) (k : OnlyNotices v w) : OnlyNotices u w := by
  unfold OnlyNotices at *
  rw [k, h]

theorem KeepsFixed.refl (s : State) : KeepsFixed s s := ⟨rfl, rfl, rfl, rfl, rfl, rfl, rfl, rfl, rfl, rfl⟩

theorem KeepsFixed.trans {s t u : State} (h : KeepsFixed s t) (k : KeepsFixed t u) : KeepsFixed s u := by
  simp_all [KeepsFixed]

theorem KeepsLinks.refl (s : State) : KeepsLinks s s := fun _ => rfl

theorem KeepsLinks.trans {s t u : State} (h : KeepsLinks s t) (k : KeepsLinks t u) : KeepsLinks s u :=
  fun p => (h p).trans (k p)

/-- Nothing changed. -/
theorem Within.refl (m : Parts) (s : State) : Within m s s := by
  constructor
  case fixed => exact .refl s
  all_goals exact fun _ => rfl

/-- One change after another. -/
theorem Within.trans {m : Parts} {s t u : State} (h : Within m s t) (k : Within m t u) : Within m s u :=
  ⟨h.fixed.trans k.fixed, h.links.trans k.links, fun e => (k.zones e).trans (h.zones e),
    fun e => (k.inputs e).trans (h.inputs e), fun e => (k.channels e).trans (h.channels e),
    fun e => (k.stations e).trans (h.stations e), fun e => (k.ducts e).trans (h.ducts e),
    fun e => (k.doors e).trans (h.doors e), fun e => (k.arbiter e).trans (h.arbiter e),
    fun e => (k.captures e).trans (h.captures e)⟩

/-- What stays inside some parts stays inside more. -/
theorem Within.mono {m n : Parts} {s t : State} (h : Within m s t) (hmn : m.le n = true) : Within n s t := by
  simp only [Parts.le, Bool.and_eq_true, Bool.or_eq_true, Bool.not_eq_true'] at hmn
  obtain ⟨⟨⟨⟨⟨⟨⟨h1, h2⟩, h3⟩, h4⟩, h5⟩, h6⟩, h7⟩, h8⟩ := hmn
  refine ⟨h.fixed, h.links, fun e => h.zones ?_, fun e => h.inputs ?_, fun e => h.channels ?_, fun e => h.stations ?_,
    fun e => h.ducts ?_, fun e => h.doors ?_, fun e => h.arbiter ?_, fun e => h.captures ?_⟩ <;> simp_all

/-- A run of changes over a list. -/
theorem Within.foldl {α : Type} {m : Parts} (f : State → α → State) (l : List α) (s : State)
    (h : ∀ t a, Within m t (f t a)) : Within m s (l.foldl f s) := by
  induction l generalizing s with
  | nil => exact Within.refl m s
  | cons a rest ih => exact (h s a).trans (ih (f s a))

/-- Only notices. -/
def Parts.notices : Parts := {}
/-- Troubles on zones. -/
def Parts.troubles : Parts := { zones := true }
/-- A duct, and troubles on its zone. -/
def Parts.water : Parts := { zones := true, ducts := true }
/-- A door, and troubles on its zone. -/
def Parts.closing : Parts := { zones := true, doors := true }
/-- The Siren Arbiter. -/
def Parts.sound : Parts := { arbiter := true }
/-- What a zone event and a Duct Controller's event reach. -/
def Parts.hazard : Parts := { zones := true, ducts := true, doors := true, arbiter := true }
/-- What a station sample event reaches. -/
def Parts.sampling : Parts :=
  { zones := true, channels := true, stations := true, ducts := true, doors := true, arbiter := true, captures := true }

/-! ### Updates -/

theorem setZone_within (s : State) (z : Fin 16) (x : Zone) : Within .troubles s (s.setZone z x) := by
  constructor
  case fixed => exact .refl _
  case zones => nofun
  all_goals exact fun _ => rfl

theorem setDuct_within (s : State) (d : Fin 4) (x : Duct) : Within { ducts := true } s (s.setDuct d x) := by
  constructor
  case fixed => exact .refl _
  case ducts => nofun
  all_goals exact fun _ => rfl

theorem setDoor_within (s : State) (i : Fin 12) (x : Door) : Within { doors := true } s (s.setDoor i x) := by
  constructor
  case fixed => exact .refl _
  case doors => nofun
  all_goals exact fun _ => rfl

theorem setArbiter_within (s : State) (a : Arbiter) : Within .sound s (s.setArbiter a) := by
  constructor
  case fixed => exact .refl _
  case arbiter => nofun
  all_goals exact fun _ => rfl

theorem setInput_within (s : State) (i : Fin 8) (x : Input) : Within { inputs := true } s (s.setInput i x) := by
  constructor
  case fixed => exact .refl _
  case inputs => nofun
  all_goals exact fun _ => rfl

theorem setChannel_within (s : State) (c : Fin 16) (x : Channel) : Within { channels := true } s (s.setChannel c x) := by
  constructor
  case fixed => exact .refl _
  case channels => nofun
  all_goals exact fun _ => rfl

theorem setStation_within (s : State) (d st : Fin 4) (x : Station) : Within { stations := true } s (s.setStation d st x) := by
  constructor
  case fixed => exact .refl _
  case stations => nofun
  all_goals exact fun _ => rfl

theorem setCaptures_within (s : State) (x : Captures) : Within { captures := true } s (s.setCaptures x) := by
  constructor
  case fixed => exact .refl _
  case captures => nofun
  all_goals exact fun _ => rfl

/-! ### Notices and troubles (R13, R176, R177) -/

/-- Taking a notice changes the queue, the overflow flag, the next sequence, the line and the age timer alone. -/
theorem takeNotice_onlyNotices (u : PortUnit) (now : Tick) (o : Offer) : OnlyNotices u (takeNotice u now o) := by
  unfold takeNotice enqueueNotice OnlyNotices
  repeat' split
  all_goals rfl

/-- Every port takes an offered notice by itself. -/
theorem offer_port (o : Offer) (s : State) (p : Port) : (offer o s).port p = takeNotice (s.port p) s.tick o := by
  simp [offer, State.port]

theorem offer_within (o : Offer) (s : State) : Within .notices s (offer o s) := by
  constructor
  case fixed => exact .refl _
  case links => exact fun p => offer_port o s p ▸ takeNotice_onlyNotices _ _ _
  all_goals exact fun _ => rfl

@[simp] theorem offer_zones (o : Offer) (s : State) : (offer o s).zones = s.zones := rfl
@[simp] theorem offer_ducts (o : Offer) (s : State) : (offer o s).ducts = s.ducts := rfl
@[simp] theorem offer_doors (o : Offer) (s : State) : (offer o s).doors = s.doors := rfl
@[simp] theorem offer_arbiter (o : Offer) (s : State) : (offer o s).arbiter = s.arbiter := rfl
@[simp] theorem offer_cfg (o : Offer) (s : State) : (offer o s).cfg = s.cfg := rfl
@[simp] theorem offer_tick (o : Offer) (s : State) : (offer o s).tick = s.tick := rfl
@[simp] theorem offer_zone (o : Offer) (s : State) (z : Fin 16) : (offer o s).zone z = s.zone z := rfl
@[simp] theorem offer_duct (o : Offer) (s : State) (d : Fin 4) : (offer o s).duct d = s.duct d := rfl
@[simp] theorem offer_ctl (o : Offer) (s : State) (d : Fin 4) : (offer o s).ctl d = s.ctl d := rfl
@[simp] theorem offer_gate (o : Offer) (s : State) (d : Fin 4) : (offer o s).gate d = s.gate d := rfl
@[simp] theorem offer_valve (o : Offer) (s : State) (d : Fin 4) (v : Fin 2) : (offer o s).valve d v = s.valve d v := rfl
@[simp] theorem offer_door (o : Offer) (s : State) (i : Fin 12) : (offer o s).door i = s.door i := rfl

theorem raiseTrouble_within (z : Fin 16) (k : TroubleKind) (n : Nat) (s : State) :
    Within .troubles s (raiseTrouble z k n s) := by
  unfold raiseTrouble
  dsimp only
  split
  · exact Within.refl _ s
  · exact (setZone_within s z _).trans ((offer_within _ _).mono rfl)

theorem clearTrouble_within (z : Fin 16) (k : TroubleKind) (n : Nat) (s : State) :
    Within .troubles s (clearTrouble z k n s) := by
  unfold clearTrouble
  dsimp only
  split
  · exact (setZone_within s z _).trans ((offer_within _ _).mono rfl)
  · exact Within.refl _ s

theorem setTrouble_within (z : Fin 16) (k : TroubleKind) (n : Nat) (b : Bool) (s : State) :
    Within .troubles s (setTrouble z k n b s) := by
  unfold setTrouble
  split
  · exact raiseTrouble_within z k n s
  · exact clearTrouble_within z k n s

/-- A trouble's raise or clear leaves every zone record but its troubles alone. -/
theorem raiseTrouble_keepsHazards (z : Fin 16) (k : TroubleKind) (n : Nat) (s : State) :
    KeepsHazards s (raiseTrouble z k n s) := by
  intro y
  unfold KeepsHazard raiseTrouble
  dsimp only
  split
  · rfl
  · by_cases h : y = z
    · subst h
      simp
    · simp [State.setZone_zone_ne _ _ _ _ h]

theorem clearTrouble_keepsHazards (z : Fin 16) (k : TroubleKind) (n : Nat) (s : State) :
    KeepsHazards s (clearTrouble z k n s) := by
  intro y
  unfold KeepsHazard clearTrouble
  dsimp only
  split
  · by_cases h : y = z
    · subst h
      simp
    · simp [State.setZone_zone_ne _ _ _ _ h]
  · rfl

/-- An item added to a trouble set is in it, and so is every earlier one; nothing else is. -/
theorem mem_addTrouble (t x : Trouble) (l : List Trouble) : x ∈ addTrouble t l ↔ x = t ∨ x ∈ l := by
  induction l with
  | nil => simp [addTrouble]
  | cons a rest ih =>
    unfold addTrouble
    split
    · rename_i h
      subst h
      simp
    · split
      · simp
      · simp only [List.mem_cons, ih]
        constructor
        · rintro (h | h | h)
          · exact .inr (.inl h)
          · exact .inl h
          · exact .inr (.inr h)
        · rintro (h | h | h)
          · exact .inr (.inl h)
          · exact .inl h
          · exact .inr (.inr h)

/-- A raised trouble stands raised. -/
theorem raised_raiseTrouble (z : Fin 16) (k : TroubleKind) (n : Nat) (s : State) : Raised (raiseTrouble z k n s) z k n := by
  unfold raiseTrouble Raised
  dsimp only
  split
  · assumption
  · simp [mem_addTrouble]

/-! ### The frames of requests (R171, R173, R174) -/

/-- A response issued where the frame's arrival changed nothing else. -/
theorem issue_frameTaken (p : Port) (r : Response) (s : State) : issue p r (frameTaken p s) = s.answered p r := by
  simp [issue, frameTaken, State.answered, State.setPort, State.port]

/-- A valid frame's arrival, once and for all: dropped at a full transmit list, BUSY while a request is pending, else checked in the
state with the receiver back in HUNTING and answered into that port's transmit list. -/
theorem serve_cases (p : Port) (code n : Byte) (reply : State → Reply) (s : State) :
    (frameDropped (s.port p) = true ∧ serve p code n reply s = frameTaken p s) ∨
    (frameDropped (s.port p) = false ∧ (s.port p).waiting.isSome = true ∧
      serve p code n reply s = s.answered p ⟨code, n, .busy, []⟩) ∨
    (frameDropped (s.port p) = false ∧ (s.port p).waiting.isSome = false ∧
      serve p code n reply s =
        issue p ⟨code, n, (reply (frameTaken p s)).result, (reply (frameTaken p s)).payload⟩ (reply (frameTaken p s)).state) := by
  have hport : (frameTaken p s).port p = { s.port p with rx := .hunting } := by simp [frameTaken]
  have hd : frameDropped ((frameTaken p s).port p) = frameDropped (s.port p) := by rw [hport]; rfl
  have hw : ((frameTaken p s).port p).waiting = (s.port p).waiting := by rw [hport]
  unfold serve
  dsimp only
  rw [hd, hw]
  by_cases h1 : frameDropped (s.port p) = true
  · exact .inl ⟨h1, by simp [h1]⟩
  · have h1' : frameDropped (s.port p) = false := by simpa using h1
    by_cases h2 : (s.port p).waiting.isSome = true
    · refine .inr (.inl ⟨h1', h2, ?_⟩)
      rw [← issue_frameTaken]
      simp [h1', h2]
    · have h2' : (s.port p).waiting.isSome = false := by simpa using h2
      exact .inr (.inr ⟨h1', h2', by simp [h1', h2']⟩)

/-- A port that takes frames checks this one. -/
theorem serve_takes (p : Port) (code n : Byte) (reply : State → Reply) (s : State) (h : TakesFrame s p) :
    serve p code n reply s =
      issue p ⟨code, n, (reply (frameTaken p s)).result, (reply (frameTaken p s)).payload⟩ (reply (frameTaken p s)).state := by
  obtain ⟨-, hw, ht⟩ := h
  rcases serve_cases p code n reply s with ⟨h1, -⟩ | ⟨-, h2, -⟩ | ⟨-, -, h3⟩
  · have : ¬ 4 ≤ (s.port p).tx.length := by omega
    simp [frameDropped, hw, this] at h1
  · simp [hw] at h2
  · exact h3

/-! ### Events and their gates (R183, R185) -/

/-- With the reset lead up an event takes place. -/
theorem live_up (s : State) (f : State → State) (h : s.resetLow = false) : live s f = .next (f s) := by
  simp [live, h]

/-- While the reset lead is low an event leaves the state alone. -/
theorem live_low (s : State) (f : State → State) (h : s.resetLow = true) : live s f = .next s := by
  simp [live, h]

/-- A block's event takes place where the part works. -/
theorem whenRunning_working (s : State) (f : State → State) (h : Working s) : whenRunning s f = .next (f s) := by
  obtain ⟨h1, h2⟩ := h
  simp [whenRunning, live, h1, h2]

/-- Elsewhere it leaves the state alone. -/
theorem whenRunning_idle (s : State) (f : State → State) (h : s.isRunning = false) : whenRunning s f = .next s := by
  unfold whenRunning live
  split
  · rfl
  · simp [h]

/-! ### Valves and gates (chapter 5) -/

theorem setValve_within (s : State) (d : Fin 4) (v : Fin 2) (x : Valve) : Within .water s (s.setValve d v x) :=
  (setDuct_within s d _).mono rfl

theorem setGate_within (s : State) (d : Fin 4) (g : Gate) : Within .water s (s.setGate d g) :=
  (setDuct_within s d _).mono rfl

theorem turnOn_within (d : Fin 4) (v : Fin 2) (s : State) : Within .water s (turnOn d v s) := by
  unfold turnOn
  dsimp only
  split
  · exact (setValve_within s d v _).trans (((offer_within _ _).mono rfl).trans ((clearTrouble_within _ _ _ _).mono rfl))
  · exact (setValve_within s d v _).trans ((offer_within _ _).mono rfl)

theorem turnOff_within (d : Fin 4) (v : Fin 2) (s : State) : Within .water s (turnOff d v s) :=
  (setValve_within s d v _).trans ((offer_within _ _).mono rfl)

theorem evalValve_within (d : Fin 4) (v : Fin 2) (s : State) : Within .water s (evalValve d v s) := by
  unfold evalValve
  split
  · exact Within.refl _ s
  · split
    · exact turnOn_within d v s
    · exact turnOff_within d v s

theorem evalValves_within (d : Fin 4) (s : State) : Within .water s (evalValves d s) :=
  (evalValve_within d 0 s).trans (evalValve_within d 1 _)

theorem moveGate_within (d : Fin 4) (g : Gate) (e : Option StrokeEnd) (s : State) : Within .water s (moveGate d g e s) :=
  (setGate_within s d _).trans ((offer_within _ _).mono rfl)

theorem endStroke_within (d : Fin 4) (s : State) : Within .water s (endStroke d s) := by
  unfold endStroke
  dsimp only
  split
  · split
    · exact (moveGate_within d _ _ s).trans ((clearTrouble_within _ _ _ _).mono rfl)
    · exact moveGate_within d _ _ s
  · exact Within.refl _ s

theorem beginStroke_within (d : Fin 4) (g : GateState) (s : State) : Within .water s (beginStroke d g s) :=
  (moveGate_within d _ _ s).trans (endStroke_within d _)

theorem closeCommand_within (d : Fin 4) (s : State) : Within .water s (closeCommand d s) := by
  unfold closeCommand
  split <;> first | exact beginStroke_within d _ s | exact Within.refl _ s

theorem openCommand_within (d : Fin 4) (s : State) : Within .water s (openCommand d s) := by
  unfold openCommand
  split <;> first | exact beginStroke_within d _ s | exact Within.refl _ s

theorem decisionCommand_within (d : Fin 4) (t : Track) (s : State) : Within .water s (decisionCommand d t s) := by
  unfold decisionCommand
  split
  · exact closeCommand_within d s
  · exact Within.refl _ s

theorem gateDecision_within (d : Fin 4) (t : Track) (s : State) : Within .water s (gateDecision d t s).2 :=
  ((offer_within _ s).mono rfl).trans (decisionCommand_within d t _)

theorem gateDecisions_within (d : Fin 4) (l : List Track) (s : State) : Within .water s (gateDecisions d l s).2 := by
  induction l generalizing s with
  | nil => exact Within.refl _ s
  | cons t rest ih => exact (gateDecision_within d t s).trans (ih _)

theorem rejudge_within (d : Fin 4) (s : State) : Within .water s (rejudge d s).2 :=
  ((setDuct_within s d _).mono rfl).trans (gateDecisions_within d _ _)

theorem startFlood_within (d : Fin 4) (s : State) : Within .water s (startFlood d s) := by
  unfold startFlood
  dsimp only
  split <;>
    exact ((setDuct_within s d _).mono rfl).trans (((offer_within _ _).mono rfl).trans (evalValves_within d _))

/-! ### Doors and sirens (chapters 8 and 9) -/

theorem doorTrouble_within (i : Fin 12) (k : TroubleKind) (b : Bool) (s : State) :
    Within .troubles s (doorTrouble i k b s) := by
  unfold doorTrouble
  split
  · exact setTrouble_within _ k _ b s
  · exact Within.refl _ s

theorem doorEvent_within (i : Fin 12) (x : Door) (c : DoorCause) (s : State) : Within .closing s (doorEvent i x c s) := by
  have h0 : Within .closing s (offer (doorOffer i (s.door i) x c) (s.setDoor i x)) :=
    ((setDoor_within s i x).mono rfl).trans ((offer_within _ _).mono rfl)
  unfold doorEvent
  dsimp only
  split
  · split
    · exact h0.trans (((doorTrouble_within i _ _ _).trans (doorTrouble_within i _ _ _)).mono rfl)
    · exact h0.trans ((doorTrouble_within i _ _ _).mono rfl)
  · exact h0

theorem releaseDoor_within (i : Fin 12) (c : ReleaseCause) (s : State) : Within .closing s (releaseDoor i c s) :=
  doorEvent_within i _ _ s

theorem doorReport_within (z : Fin 16) (l : Level) (i : Fin 12) (s : State) : Within .closing s (doorReport z l i s) := by
  unfold doorReport
  dsimp only
  repeat' split
  all_goals first | exact Within.refl _ s | exact doorEvent_within i _ _ s

theorem doorsReport_within (z : Fin 16) (l : Level) (s : State) : Within .closing s (doorsReport z l s) :=
  Within.foldl _ _ s fun t i => doorReport_within z l i t

theorem sirenNotice_within (a b : Arbiter) (f : Fin 8 → Siren → SirenCause) (c : SirenCause) (i : Fin 8) (s : State) :
    Within .notices s (sirenNotice a b f c i s) := by
  unfold sirenNotice
  dsimp only
  repeat' split
  all_goals first | exact offer_within _ s | exact Within.refl _ s

theorem sirenNotices_within (a b : Arbiter) (f : Fin 8 → Siren → SirenCause) (c : SirenCause) (s : State) :
    Within .notices s (sirenNotices a b f c s) :=
  Within.foldl _ _ s fun t i => sirenNotice_within a b f c i t

/-- An Arbiter's event leaves the settled Arbiter and notices. -/
theorem arbiterEvent_within (a : Arbiter) (g : Fin 8 → Bool) (f : Fin 8 → Siren → SirenCause) (s : State) :
    Within .sound s (arbiterEvent a g f s) :=
  (setArbiter_within s _).trans ((sirenNotices_within _ _ _ _ _).mono rfl)

theorem arbiterEvent_arbiter (a : Arbiter) (g : Fin 8 → Bool) (f : Fin 8 → Siren → SirenCause) (s : State) :
    (arbiterEvent a g f s).arbiter = settleArbiter s.cfg s.tick s.arbiter a g :=
  (sirenNotices_within _ _ _ _ _).arbiter rfl

theorem sirensReport_within (z : Fin 16) (l : Level) (k : AckSet) (r : Bool) (s : State) :
    Within .sound s (sirensReport z l k r s) :=
  arbiterEvent_within _ _ _ s

/-! ### Overlays and zones (chapters 1 and 7) -/

theorem clearEntries_within (d : Fin 4) (l : List Overlay) (s : State) :
    Within { ducts := true } s (clearEntries d l s) := by
  induction l generalizing s with
  | nil => exact Within.refl _ s
  | cons e rest ih => exact (setDuct_within s d _).trans (((offer_within _ _).mono rfl).trans (ih _))

theorem overlaysReport_within (z : Fin 16) (l : Level) (s : State) :
    Within { ducts := true } s (overlaysReport z l s) := by
  unfold overlaysReport
  split
  · split
    · exact clearEntries_within _ _ s
    · exact Within.refl _ s
  · exact Within.refl _ s

/-- A zone's event with its report to stacks, doors and sirens. -/
theorem zoneEvent_within (z : Fin 16) (raw : Zone) (c : ZoneCause) (r : Bool) (s : State) :
    Within .hazard s (zoneEvent z raw c r s).state := by
  unfold zoneEvent
  dsimp only
  have h1 : ∀ x, Within .hazard s (s.setZone z x) := fun x => (setZone_within s z x).mono rfl
  split
  · exact (h1 _).trans (((offer_within _ _).mono rfl).trans (((overlaysReport_within z _ _).mono rfl).trans
      (((doorsReport_within z _ _).mono rfl).trans ((sirensReport_within z _ _ r _).mono rfl))))
  · exact h1 _

theorem zonePosting_within (z : Fin 16) (k : CauseKey) (l : Level) (s : State) :
    Within .hazard s (zonePosting z k l s).state :=
  zoneEvent_within z _ _ _ s

/-! ### Duct Controllers (chapter 6) -/

theorem setCtl_within (s : State) (d : Fin 4) (c : Ctl) : Within .hazard s (s.setCtl d c) := (setDuct_within s d _).mono rfl

theorem changeCtl_within (d : Fin 4) (c : Ctl) (s : State) : Within .hazard s (changeCtl d c s) :=
  (setCtl_within s d c).trans ((offer_within _ _).mono rfl)

/-- A changed Duct Controller stands with its outputs. -/
theorem changeCtl_ctl (d : Fin 4) (c : Ctl) (s : State) : (changeCtl d c s).ctl d = c.withOutputs := by
  simp [changeCtl]

theorem enterStopped_within (d : Fin 4) (s : State) : Within .hazard s (enterStopped d s) := changeCtl_within d _ s

theorem fireWait_within (d : Fin 4) (s : State) : Within .hazard s (fireWait d s) := by
  unfold fireWait
  split
  · exact enterStopped_within d s
  · exact Within.refl _ s

theorem beginStop_within (d : Fin 4) (c : StopCause) (s : State) : Within .hazard s (beginStop d c s) := by
  unfold beginStop
  dsimp only
  split
  · exact (changeCtl_within d _ s).trans (((closeCommand_within d _).mono rfl).trans (fireWait_within d _))
  · split
    · exact (changeCtl_within d _ s).trans (enterStopped_within d _)
    · exact changeCtl_within d _ s

theorem replaceStop_within (d : Fin 4) (c : StopCause) (s : State) : Within .hazard s (replaceStop d c s) := by
  unfold replaceStop
  dsimp only
  repeat' split
  all_goals
    first
    | exact (changeCtl_within d _ s).trans (((closeCommand_within d _).mono rfl).trans (fireWait_within d _))
    | exact changeCtl_within d _ s

theorem replaceIfHigher_within (d : Fin 4) (c : Option StopCause) (s : State) :
    Within .hazard s (replaceIfHigher d c s) := by
  unfold replaceIfHigher
  repeat' split
  all_goals first | exact replaceStop_within d _ s | exact Within.refl _ s

theorem takeCauses_within (d : Fin 4) (l : List StopCause) (s : State) : Within .hazard s (takeCauses d l s) := by
  unfold takeCauses
  repeat' split
  all_goals first | exact beginStop_within d _ s | exact replaceIfHigher_within d _ s | exact Within.refl _ s

theorem dcPost_within (d : Fin 4) (s : State) : Within .hazard s (dcPost d s).state := by
  unfold dcPost
  extract_lets z r1 r2 r3
  have h1 : Within .hazard s r1.state := zonePosting_within _ _ _ s
  have h2 : Within .hazard r1.state r2.state := zonePosting_within _ _ _ _
  have h3 : Within .hazard r2.state r3.state := zonePosting_within _ _ _ _
  exact h1.trans (h2.trans h3)

theorem fireReport_within (z : Fin 16) (s : State) : Within .hazard s (fireReport z s) :=
  Within.foldl _ _ s fun t d => by
    unfold fireReportAt
    split
    · exact (takeCauses_within d _ t).trans (dcPost_within d _)
    · exact Within.refl _ t

theorem deliver_within (z : Fin 16) (r : Posted) (s : State) (h : Within .hazard s r.state) :
    Within .hazard s (deliver z r) := by
  unfold deliver
  split
  · exact h.trans (fireReport_within z _)
  · exact h

theorem postZone_within (z : Fin 16) (k : CauseKey) (l : Level) (s : State) : Within .hazard s (postZone z k l s) :=
  deliver_within z _ s (zonePosting_within z k l s)

theorem settleDuct_within (d : Fin 4) (s : State) : Within .hazard s (settleDuct d s) :=
  deliver_within _ _ s (dcPost_within d s)

/-- A Duct Controller's whole event. -/
theorem dcEvent_within (d : Fin 4) (l : List StopCause) (s : State) : Within .hazard s (dcEvent d l s) :=
  (takeCauses_within d l s).trans ((fireWait_within d _).trans (settleDuct_within d _))

theorem setListMark_within (d : Fin 4) (b : Bool) (s : State) : Within .hazard s (setListMark d b s) := setCtl_within s d _

theorem countDetection_within (d : Fin 4) (l : List StopCause) (s : State) :
    Within .hazard s (countDetection d l s).2 := by
  unfold countDetection
  dsimp only
  repeat' split
  all_goals
    first
    | exact Within.refl _ s
    | exact setCtl_within s d _
    | exact (setCtl_within s d _).trans (changeCtl_within d _ _)
    | exact (setCtl_within s d _).trans (setCtl_within _ d _)

theorem velocityReport_within (d : Fin 4) (s : State) : Within .hazard s (velocityReport d s) := by
  unfold velocityReport
  dsimp only
  repeat' split
  all_goals first | exact Within.refl _ s | exact changeCtl_within d _ s | exact setCtl_within s d _

/-! ### Tracks and velocity (chapters 3 and 4) -/

theorem takeNewTrack_within (d : Fin 4) (t : Track) (s : State) : Within .water s (takeNewTrack d t s).2 := by
  have h : Within .water s (t.valves.foldl (fun s e => evalValve d e.valve s) s) :=
    Within.foldl _ _ s fun t e => evalValve_within d _ t
  unfold takeNewTrack
  dsimp only
  split
  · exact h
  · exact h.trans (gateDecision_within d t _)

/-- The settlement of a detection at the Track Unit. -/
theorem settleDetection_within (x : Detection) (s : State) : Within .water s (settleDetection x s).state := by
  unfold settleDetection
  split
  · exact ((setDuct_within s _ _).mono rfl).trans ((offer_within _ _).mono rfl)
  · split
    · exact ((setDuct_within s _ _).mono rfl).trans ((takeNewTrack_within _ _ _).trans ((offer_within _ _).mono rfl))
    · exact (startFlood_within _ s).trans ((offer_within _ _).mono rfl)

theorem reportDetection_within (x : Detection) (r : Settled) (s : State) : Within .hazard s (reportDetection x r s) := by
  unfold reportDetection
  cases r.outcome with
  | matched id => exact Within.refl _ s
  | tracked id =>
    extract_lets s1 q
    have h1 : Within .hazard s s1 := by
      by_cases h : (s.duct x.duct).tracks.length = 1
      · simp only [s1, h, if_true]
        exact setListMark_within _ _ s
      · simp only [s1, h, if_false]
        exact Within.refl _ s
    have h2 : Within .hazard s1 q.2 := countDetection_within _ _ _
    exact h1.trans (h2.trans (dcEvent_within _ _ _))
  | overflow => exact (countDetection_within x.duct r.causes s).trans (dcEvent_within _ _ _)

theorem trackRetires_within (d : Fin 4) (id : Byte) (s : State) : Within .hazard s (trackRetires d id s) := by
  unfold trackRetires
  extract_lets D
  cases D.tracks.find? fun t => decide (t.id = id) with
  | none => exact Within.refl _ s
  | some t =>
    dsimp only
    have h : Within .hazard s
        (offer (retiredOffer d D.tracks.length t) (s.setDuct d { D with tracks := D.tracks.erase t })) :=
      ((setDuct_within s d _).mono rfl).trans ((offer_within _ _).mono rfl)
    revert h
    generalize offer (retiredOffer d D.tracks.length t) (s.setDuct d { D with tracks := D.tracks.erase t }) = u
    intro h
    split
    · split
      · exact h.trans ((setListMark_within d false u).trans (settleDuct_within d _))
      · exact h
    · exact Within.refl _ s

end Sys2Proof.Machine
end

