-- ==== Sys2Proof/Laws/Events.lean ====
section
/-! SUPPORT. What a station sample event, a velocity event and the events of the Duct Controllers' timers may touch, what a
sample can do, and that every command goes on in every state. -/

namespace Sys2Proof.Machine

open Sys2Proof

/-! ### Captures (chapter 10) -/

theorem countExtra_within (b : Nat) (s : State) : Within { captures := true } s (countExtra b s) := setCaptures_within s _

theorem handSequence_within (d : Fin 4) (id : Byte) (q : Word16) (s : State) :
    Within { ducts := true } s (handSequence d id q s) := setDuct_within s d _

theorem settleCapture_within (x : Detection) (o : TrackOutcome) (hi lo : Nat) (s : State) :
    Within .sampling s (settleCapture x o hi lo s) := by
  unfold settleCapture
  split
  · exact (countExtra_within _ s).mono rfl
  · split
    · unfold startCapture
      dsimp only
      split
      · exact ((setCaptures_within s _).mono rfl).trans (((setStation_within _ _ _ _).mono rfl).trans
          ((handSequence_within _ _ _ _).mono rfl))
      all_goals exact ((setCaptures_within s _).mono rfl).trans ((setStation_within _ _ _ _).mono rfl)
    · unfold skipCapture
      dsimp only
      split
      · exact Within.refl _ s
      · exact ((setCaptures_within s _).mono rfl).trans ((offer_within _ _).mono rfl)

theorem absorbCapture_within (d st : Fin 4) (s : State) : Within { captures := true } s (absorbCapture d st s) := by
  unfold absorbCapture
  repeat' split
  all_goals first | exact Within.refl _ s | exact countExtra_within _ s

theorem completeCapture_within (b : Nat) (r : Capture) (d st : Fin 4) (s : State) :
    Within .sampling s (completeCapture b r d st s) := by
  unfold completeCapture
  dsimp only
  split
  · exact ((setCaptures_within s _).mono rfl).trans (((setStation_within _ _ _ _).mono rfl).trans
      ((offer_within _ _).mono rfl))
  · exact ((setCaptures_within s _).mono rfl).trans ((setStation_within _ _ _ _).mono rfl)

theorem captureSamples_within (d st : Fin 4) (l : List Code) (s : State) :
    Within .sampling s (captureSamples d st l s) := by
  unfold captureSamples
  dsimp only
  repeat' split
  all_goals
    first
    | exact Within.refl _ s
    | exact completeCapture_within _ _ d st s
    | exact (setCaptures_within s _).mono rfl

/-! ### Stations (chapter 2) -/

theorem evalCoincidence_within (d st : Fin 4) (s : State) : Within .troubles s (evalCoincidence d st s) :=
  (setTrouble_within _ _ _ _ s).trans (setTrouble_within _ _ _ _ _)

theorem takeSampled_within (d : Fin 4) (s : State) (x : Fin 16 × Sampled) : Within .sampling s (takeSampled d s x) := by
  have h : Within .sampling s (s.setChannel x.1 x.2.channel) := (setChannel_within s _ _).mono rfl
  unfold takeSampled
  dsimp only
  split
  · unfold reportFault spoilWindow
    split
    · exact h.trans (((raiseTrouble_within _ _ _ _).mono rfl).trans ((setCtl_within _ d _).mono rfl))
    · exact h.trans ((raiseTrouble_within _ _ _ _).mono rfl)
  · exact h

theorem takeSamples_within (d st : Fin 4) (l : List (Fin 16 × Sampled)) (s : State) :
    Within .sampling s (takeSamples d st l s) := by
  have h : Within .sampling s (l.foldl (takeSampled d) s) := Within.foldl _ l s fun t x => takeSampled_within d t x
  unfold takeSamples
  dsimp only
  split
  · exact h.trans ((evalCoincidence_within d st _).mono rfl)
  · exact h

theorem confirmDetection_within (x : Detection) (s : State) : Within .sampling s (confirmDetection x s) := by
  have h (u : State) : Within .sampling u
      (reportDetection x (settleDetection x u)
        (settleCapture x (settleDetection x u).outcome (settleDetection x u).vHi (settleDetection x u).vLo
          (settleDetection x u).state)) :=
    ((settleDetection_within x u).mono rfl).trans ((settleCapture_within x _ _ _ _).trans
      ((reportDetection_within x _ _).mono rfl))
  exact Within.trans ((setStation_within s x.duct x.station _).mono rfl) (h _)

theorem judgeStation_within (d st : Fin 4) (n : Nat) (l : List (Fin 16 × Sampled)) (s : State) :
    Within .sampling s (judgeStation d st n l s) := by
  unfold judgeStation
  extract_lets set requirement count
  split
  · exact Within.refl _ s
  · split
    · exact (absorbCapture_within d st s).mono rfl
    · split
      · exact confirmDetection_within _ s
      · unfold unconfirmedFlash
        dsimp only
        refine (Within.foldl _ _ s fun t c => ?_).trans ((offer_within _ _).mono rfl)
        exact (setChannel_within t c _).mono rfl

/-- A whole station sample event (R23): channels, stations, captures, zones, ducts, doors and the Arbiter at most. -/
theorem stationEvent_within (d st : Fin 4) (codes : Vector Code 4) (b : Bool) (s : State) :
    Within .sampling s (stationEvent d st codes b s) := by
  unfold stationEvent
  extract_lets l n s1 words
  have h : Within .sampling s s1 := ((setStation_within s _ _ _).mono rfl).trans (takeSamples_within d st l _)
  split
  · exact h.trans ((captureSamples_within d st words _).trans (judgeStation_within d st n l _))
  · exact h.trans ((judgeStation_within d st n l _).trans (captureSamples_within d st words _))

/-! ### Velocity (chapter 3) -/

theorem changeVelocity_within (d : Fin 4) (v : Velocity) (s : State) : Within .water s (changeVelocity d v s) := by
  have h : ∀ x : Duct, Within .water s (s.setDuct d x) := fun x => (setDuct_within s d x).mono rfl
  unfold changeVelocity
  dsimp only
  repeat' split
  all_goals
    first
    | exact h _
    | exact (h _).trans ((offer_within _ _).mono rfl)
    | exact (h _).trans (((offer_within _ _).mono rfl).trans ((raiseTrouble_within _ _ _ _).mono rfl))
    | exact (h _).trans (((offer_within _ _).mono rfl).trans ((clearTrouble_within _ _ _ _).mono rfl))

theorem velocityEvent_within (d : Fin 4) (c : Code) (s : State) : Within .hazard s (velocityEvent d c s) :=
  ((changeVelocity_within d _ s).mono rfl).trans ((velocityReport_within d _).trans (settleDuct_within d _))

/-! ### Samples (R17, R23, R43, R74, R127, R170) -/

/-- What the sampling of an input can do: the sample is taken where it is due, and its tick recorded; else nothing happens. -/
theorem sampling_cases (x : Sampler) (f : State → State) (s : State) :
    (sampleDue s x = true ∧ sampling x f s = f (s.tookSample x)) ∨ (sampleDue s x = false ∧ sampling x f s = s) := by
  unfold sampling
  cases h : sampleDue s x <;> simp

/-- What a command that moves a lead and may be its sample can do. -/
theorem live_sampling_cases (x : Sampler) (f : State → State) (s : State) :
    (s.resetLow = false ∧ sampleDue s x = true ∧ live s (sampling x f) = .next (f (s.tookSample x))) ∨
      ((s.resetLow = true ∨ sampleDue s x = false) ∧ live s (sampling x f) = .next s) := by
  unfold live sampling
  cases hr : s.resetLow <;> cases hk : sampleDue s x <;> simp

/-- What a sample of the key can do: the accepted state again, with nothing counted; the 100th of the other state in a row, accepted;
or one of the other state more. -/
theorem KeySwitch.sampled_cases (k : KeySwitch) (sensed : KeyState) :
    (sensed = k.accepted ∧ k.sampled sensed = ⟨k.accepted, 0⟩) ∨
      (sensed ≠ k.accepted ∧ 99 ≤ k.count ∧ k.sampled sensed = ⟨sensed, 0⟩) ∨
      (sensed ≠ k.accepted ∧ k.count < 99 ∧ k.sampled sensed = ⟨k.accepted, k.count + 1⟩) := by
  unfold KeySwitch.sampled
  split
  · exact .inl ⟨‹_›, rfl⟩
  · split
    · exact .inr (.inl ⟨‹_›, by omega, rfl⟩)
    · exact .inr (.inr ⟨‹_›, by omega, rfl⟩)

/-- The part takes the sample of an input at most once at a tick: none is due among the events behind one. -/
theorem sampling_due_false (x : Sampler) (f : State → State) (s : State) (h : ∀ t, Within .sampling t (f t)) :
    sampleDue s x = true → sampleDue (sampling x f s) x = false := by
  intro hd
  have h1 : sampling x f s = f (s.tookSample x) := by simp [sampling, hd]
  have hs := (h (s.tookSample x)).fixed
  obtain ⟨ht, -, -, -, -, -, -, hsam, -, -⟩ := hs
  simp only [h1, sampleDue, State.sampled, hsam, ht]
  simp [State.tookSample]

/-! ### Every command goes on -/

theorem live_next (s : State) (f : State → State) : ∃ t : State, live s f = .next t := ⟨_, rfl⟩

theorem whenRunning_next (s : State) (f : State → State) : ∃ t : State, whenRunning s f = .next t := ⟨_, rfl⟩

/-- No command faults or is refused: exec answers a next state for every command in every state. -/
theorem exec_next (c : Instr) (s : State) : ∃ t : State, exec c s = .next t := by
  cases c <;> exact ⟨_, rfl⟩

/-- No step faults or is refused. -/
theorem step_next (s : State) : ∃ t : State, step s = .next t := by
  unfold step
  split
  · exact exec_next _ _
  · unfold idle
    repeat' split
    all_goals first | exact ⟨_, rfl⟩ | exact exec_next _ _

end Sys2Proof.Machine
end

