-- ==== Sys2Proof/Laws/Memory.lean ====
section
/-! SUPPORT. The external store: what a read gives after a write, and that every operation on it keeps the canonical form. -/

namespace Sys2Proof.Machine

open Sys2Proof

/-- Below the first address of a canonical store every byte is unlisted. -/
theorem readCell_below (m : List Host.Cell) (lo a : Nat) (h : wfFrom lo m = true) (ha : a < lo) :
    readCell m a = unlistedByte := by
  cases m with
  | nil => rfl
  | cons c rest =>
    obtain ⟨k, b⟩ := c
    simp only [wfFrom, Bool.and_eq_true, decide_eq_true_eq] at h
    have h1 : k ≠ a := by omega
    have h2 : a < k := by omega
    simp [readCell, h1, h2]

/-- A store that is canonical from an address on is canonical from every earlier one on. -/
theorem wfFrom_mono (m : List Host.Cell) (lo lo' : Nat) (h : wfFrom lo m = true) (hl : lo' ≤ lo) : wfFrom lo' m = true := by
  cases m with
  | nil => rfl
  | cons c rest =>
    obtain ⟨k, b⟩ := c
    simp only [wfFrom, Bool.and_eq_true, decide_eq_true_eq] at h ⊢
    exact ⟨⟨⟨by omega, h.1.1.2⟩, h.1.2⟩, h.2⟩

/-- Writing a byte keeps the canonical form. -/
theorem wfFrom_writeCell (m : List Host.Cell) (lo a : Nat) (b : Byte) (h : wfFrom lo m = true) (ha : lo ≤ a)
    (hb : a < 4096) : wfFrom lo (writeCell m a b) = true := by
  induction m generalizing lo with
  | nil =>
    by_cases hx : b = unlistedByte
    · simp [writeCell, hx, wfFrom]
    · simp [writeCell, hx, wfFrom, ha, hb]
  | cons c rest ih =>
    obtain ⟨k, x⟩ := c
    simp only [wfFrom, Bool.and_eq_true, decide_eq_true_eq] at h
    obtain ⟨⟨⟨h1, h2⟩, h3⟩, h4⟩ := h
    unfold writeCell
    split
    · simp only [wfFrom, Bool.and_eq_true, decide_eq_true_eq]
      exact ⟨⟨⟨h1, h2⟩, h3⟩, ih (k + 1) h4 (by omega)⟩
    · split
      · split
        · exact wfFrom_mono rest (k + 1) lo h4 (by omega)
        · rename_i hk hx
          subst hk
          simp only [wfFrom, Bool.and_eq_true, decide_eq_true_eq]
          exact ⟨⟨⟨h1, h2⟩, hx⟩, h4⟩
      · split
        · simp only [wfFrom, Bool.and_eq_true, decide_eq_true_eq]
          exact ⟨⟨⟨h1, h2⟩, h3⟩, h4⟩
        · rename_i hx
          simp only [wfFrom, Bool.and_eq_true, decide_eq_true_eq]
          exact ⟨⟨⟨ha, hb⟩, hx⟩, ⟨⟨by omega, h2⟩, h3⟩, h4⟩

/-- Reading the byte just written gives what was written. -/
theorem readCell_writeCell_same (m : List Host.Cell) (lo a : Nat) (b : Byte) (h : wfFrom lo m = true) :
    readCell (writeCell m a b) a = b := by
  induction m generalizing lo with
  | nil =>
    by_cases hx : b = unlistedByte
    · simp [writeCell, hx, readCell]
    · simp [writeCell, hx, readCell]
  | cons c rest ih =>
    obtain ⟨k, x⟩ := c
    simp only [wfFrom, Bool.and_eq_true, decide_eq_true_eq] at h
    unfold writeCell
    split
    · rename_i hk
      have h1 : k ≠ a := by omega
      have h2 : ¬ a < k := by omega
      simp only [readCell, h1, h2, if_false]
      exact ih (k + 1) h.2
    · split
      · rename_i hk
        split
        · rename_i hx
          rw [readCell_below rest (k + 1) a h.2 (by omega), hx]
        · simp [readCell]
      · rename_i h1 h2
        have h3 : a < k := by omega
        split
        · rename_i hx
          simp [readCell, h2, h3, hx]
        · simp [readCell]

/-- Writing one byte leaves every other byte alone. -/
theorem readCell_writeCell_ne (m : List Host.Cell) (lo a a' : Nat) (b : Byte) (h : wfFrom lo m = true) (hne : a' ≠ a) :
    readCell (writeCell m a b) a' = readCell m a' := by
  have hne' : a ≠ a' := fun e => hne e.symm
  induction m generalizing lo with
  | nil =>
    by_cases hx : b = unlistedByte
    · simp [writeCell, hx]
    · simp [writeCell, hx, readCell, hne']
  | cons c rest ih =>
    obtain ⟨k, x⟩ := c
    simp only [wfFrom, Bool.and_eq_true, decide_eq_true_eq] at h
    unfold writeCell
    split
    · simp only [readCell]
      rw [ih (k + 1) h.2]
    · split
      · rename_i hk
        split
        · by_cases hlt : a' < k
          · rw [readCell_below rest (k + 1) a' h.2 (by omega)]
            have hka : k ≠ a' := by omega
            simp [readCell, hlt, hka]
          · have hka : k ≠ a' := by omega
            simp [readCell, hlt, hka]
        · subst hk
          by_cases hlt : a' < k
          · simp [readCell, hlt, hne']
          · simp [readCell, hlt, hne']
      · rename_i h1 h2
        split
        · rfl
        · simp only [readCell, hne', if_false]
          by_cases hlt : a' < a
          · have h3 : k ≠ a' := by omega
            have h4 : a' < k := by omega
            simp [hlt, h3, h4]
          · simp [hlt]

/-- Writing a run of bytes that fits keeps the canonical form. -/
theorem wf_writeBytes (l : List Byte) (m : List Host.Cell) (a : Nat) (h : Memory.wf m = true) (ha : a + l.length ≤ 4096) :
    Memory.wf (writeBytes m a l) = true := by
  induction l generalizing m a with
  | nil => exact h
  | cons b rest ih =>
    simp only [List.length_cons] at ha
    exact ih (writeCell m a b) (a + 1) (wfFrom_writeCell m 0 a b h (Nat.zero_le _) (by omega)) (by omega)

/-- A run of bytes leaves every byte outside it alone. -/
theorem readCell_writeBytes_outside (l : List Byte) (m : List Host.Cell) (a a' : Nat) (h : Memory.wf m = true)
    (ha : a + l.length ≤ 4096) (ho : a' < a ∨ a + l.length ≤ a') : readCell (writeBytes m a l) a' = readCell m a' := by
  induction l generalizing m a with
  | nil => rfl
  | cons b rest ih =>
    simp only [List.length_cons] at ha ho
    have hw := wfFrom_writeCell m 0 a b h (Nat.zero_le _) (by omega)
    have h1 := ih (writeCell m a b) (a + 1) hw (by omega) (by omega)
    exact h1.trans (readCell_writeCell_ne m 0 a a' b h (by omega))

/-- A byte inside a written run reads as written. -/
theorem readCell_writeBytes_inside (l : List Byte) (m : List Host.Cell) (a i : Nat) (h : Memory.wf m = true)
    (ha : a + l.length ≤ 4096) (hi : i < l.length) : readCell (writeBytes m a l) (a + i) = l[i] := by
  induction l generalizing m a i with
  | nil => exact absurd hi (Nat.not_lt_zero _)
  | cons b rest ih =>
    simp only [List.length_cons] at ha hi
    have hw := wfFrom_writeCell m 0 a b h (Nat.zero_le _) (by omega)
    cases i with
    | zero =>
      have h1 := readCell_writeBytes_outside rest (writeCell m a b) (a + 1) (a + 0) hw (by omega) (by omega)
      exact h1.trans (readCell_writeCell_same m 0 a b h)
    | succ j =>
      have h1 := ih (writeCell m a b) (a + 1) j hw (by omega) (by omega)
      simpa [writeBytes, Nat.add_assoc, Nat.add_comm 1 j] using h1

/-- Replacing a page inside the store keeps the canonical form. -/
theorem wf_putPage (s : State) (a : StoreAddr) (bytes : Vector Byte 32) (h : Memory.wf s.store = true)
    (ha : a.toNat ≤ 4064) : Memory.wf (s.putPage a bytes).store = true := by
  apply wf_writeBytes _ _ _ h
  simp
  omega

/-- A store write that is cut off keeps the canonical form, where its page lies inside the store. -/
theorem wf_tearStore (s : State) (h : Memory.wf s.store = true) (ha : ∀ w ∈ s.loader.write, w.offset.toNat ≤ 4064) :
    Memory.wf (tearStore s).store = true := by
  unfold tearStore
  cases hw : s.loader.write with
  | none => exact h
  | some w =>
    have := ha w hw
    apply wf_writeBytes _ _ _ h
    simp
    omega

/-- The store right after reset is in its canonical form. -/
theorem wf_reset : Memory.wf State.reset.store = true := rfl

end Sys2Proof.Machine
end

