-- ==== Sys2Proof/Laws/Notices.lean ====
section
/-! SUPPORT. What offered notices do: the one spec lemma of `takeNotice`, how runs of notices join, and the notices of a trouble that is
raised or cleared. -/

namespace Sys2Proof.Machine

open Sys2Proof

theorem dropOldestPlain_eq (l : List Notice) : dropOldestPlain l = l.eraseP (fun q => !q.urgent) := by
  induction l with
  | nil => rfl
  | cons n rest ih => cases h : n.urgent <;> simp [dropOldestPlain, h, ih]

/-- Everything that `takeNotice` can do. -/
theorem takeNotice_takes (u : PortUnit) (now : Tick) (o : Offer) : Takes now o u (takeNotice u now o) := by
  have admits (w : PortUnit) (n : Notice) (hn : n.admitted = now) (he : u.queue = [] ↔ w.queue = [])
      (ha : w.age = u.age ∧ w.ageTimer = u.ageTimer) :
      (enqueueNotice w n).ageTimer =
        (if (enqueueNotice w n).line then none else if u.queue = [] then some (now.plus (4 * u.age)) else u.ageTimer) := by
    simp only [enqueueNotice, List.isEmpty_iff, ← he, hn, ha.1, ha.2, msTicks]
  refine ⟨fun h => ?_, fun h k => ?_, fun h k m hq => ?_, fun h k m => ?_⟩
  · simp [takeNotice, h]
  · have e : takeNotice u now o = enqueueNotice { u with nextSeq := u.nextSeq + 1 } (noticeOf u now o) := by
      simp [takeNotice, h, k]
    rw [e]
    exact ⟨rfl, admits _ _ rfl Iff.rfl ⟨rfl, rfl⟩⟩
  · have hq' : u.queue.any (fun q => !q.urgent) = true := by
      obtain ⟨q, hm, hu⟩ := hq
      exact List.any_eq_true.mpr ⟨q, hm, by simp [hu]⟩
    have k' : ¬u.queue.length < 32 := by omega
    have e : takeNotice u now o =
        enqueueNotice { u with nextSeq := u.nextSeq + 1, queue := dropOldestPlain u.queue, overflow := true }
          (noticeOf u now o) := by
      simp only [takeNotice, h, k', m, hq', Bool.and_self, if_true, if_false]
    have hd : u.queue = [] ↔ dropOldestPlain u.queue = [] := by
      have hp : ∃ q ∈ u.queue, (!q.urgent) = true := by
        obtain ⟨q, hm, hu⟩ := hq
        exact ⟨q, hm, by simp [hu]⟩
      obtain ⟨q, hm, hu⟩ := hp
      have := List.length_eraseP_of_mem (p := fun q : Notice => !q.urgent) hm hu
      rw [dropOldestPlain_eq]
      constructor
      · intro hn
        simp [hn]
      · intro hn
        simp [hn] at this
        omega
    rw [e]
    refine ⟨?_, admits _ _ rfl hd ⟨rfl, rfl⟩⟩
    rw [dropOldestPlain_eq]
    rfl
  · have k' : ¬u.queue.length < 32 := by omega
    have hq : (o.urgent && u.queue.any fun q => !q.urgent) = false := by
      cases ho : o.urgent with
      | false => rfl
      | true => simpa [List.any_eq_false] using m ho
    simp only [takeNotice, h, k', hq, if_true, if_false, Bool.false_eq_true]

/-! ### Runs of notices -/

theorem TakesAll.append {now : Tick} {l m : List Offer} {u v w : PortUnit} (h : TakesAll now l u v) (k : TakesAll now m v w) :
    TakesAll now (l ++ m) u w := by
  induction l generalizing u with
  | nil =>
    cases h
    exact k
  | cons o rest ih =>
    obtain ⟨x, hx, hr⟩ := h
    exact ⟨x, hx, ih hr⟩

theorem OffersAll.of_ports {s t : State} (h : t.ports = s.ports) : OffersAll [] s t :=
  ⟨[], .nil, fun p => by
    show t.port p = s.port p
    simp only [State.port, h]⟩

theorem OffersAll.trans {l m : List Offer} {s t w : State} (h : OffersAll l s t) (k : OffersAll m t w) (ht : t.tick = s.tick) :
    OffersAll (l ++ m) s w := by
  obtain ⟨x, hx, hp⟩ := h
  obtain ⟨y, hy, kp⟩ := k
  exact ⟨x ++ y, hx.append hy, fun p => (hp p).append (ht ▸ kp p)⟩

theorem OffersAll.perm {l m : List Offer} {s t : State} (h : OffersAll l s t) (k : l.Perm m) : OffersAll m s t := by
  obtain ⟨x, hx, hp⟩ := h
  exact ⟨x, hx.trans k, hp⟩

theorem OffersAll.these {l m : List Offer} {s t : State} (h : OffersAll (l ++ m) s t) : OffersThese l s t := ⟨m, h⟩

theorem OffersThese.trans_left {l : List Offer} {m : List Offer} {s t w : State} (h : OffersThese l s t) (k : OffersAll m t w)
    (ht : t.tick = s.tick) : OffersThese l s w := by
  obtain ⟨more, h⟩ := h
  exact ⟨more ++ m, by simpa only [List.append_assoc] using h.trans k ht⟩

/-- Offering one notice. -/
theorem offer_offers (o : Offer) (s : State) : OffersAll [o] s (offer o s) :=
  ⟨[o], .refl _, fun p => ⟨(offer o s).port p, offer_port o s p ▸ takeNotice_takes _ _ _, rfl⟩⟩

/-! ### Troubles (R13) -/

theorem troubleNotice_eq (z : Fin 16) (k : TroubleKind) (n : Nat) (b : Bool) :
    troubleOffer z ⟨k, n⟩ b = troubleNotice z k n b := by
  cases b <;> rfl

theorem raiseTrouble_offers (z : Fin 16) (k : TroubleKind) (n : Nat) (s : State) :
    OffersAll (raiseNotices s z k n) s (raiseTrouble z k n s) := by
  unfold raiseTrouble raiseNotices
  dsimp only
  split
  · exact .of_ports rfl
  · rw [troubleNotice_eq]
    exact (OffersAll.of_ports rfl).trans (offer_offers _ (s.setZone z _)) rfl

theorem clearTrouble_offers (z : Fin 16) (k : TroubleKind) (n : Nat) (s : State) :
    OffersAll (clearNotices s z k n) s (clearTrouble z k n s) := by
  unfold clearTrouble clearNotices
  dsimp only
  split
  · rw [troubleNotice_eq]
    exact (OffersAll.of_ports rfl).trans (offer_offers _ (s.setZone z _)) rfl
  · exact .of_ports rfl

theorem setTrouble_offers (z : Fin 16) (k : TroubleKind) (n : Nat) (present : Prop) [Decidable present] (s : State) :
    OffersAll (setNotices s z k n present) s (setTrouble z k n (decide present) s) := by
  by_cases h : present
  · simpa [setTrouble, setNotices, h] using raiseTrouble_offers z k n s
  · simpa [setTrouble, setNotices, h] using clearTrouble_offers z k n s

/-! ### The bounds record (R48 to R52) -/

/-- The bounds records are up to date exactly where each is the one that `boundsFor` gives. -/
theorem boundsOk_iff (s : State) :
    BoundsOk s ↔ ∀ d : Fin 4, (s.duct d).vel.bounds =
      boundsFor (s.ductCfg d) (s.duct d).vel.state (s.duct d).vel.value (s.ctl d).state := by
  refine forall_congr' fun d => ?_
  constructor
  · rintro ⟨h1, h2, h3, h4, h5⟩
    generalize (s.duct d).vel.bounds = b at *
    obtain ⟨blind, vHi, vLo, pHi, pLo⟩ := b
    have hb : blind = isBlind (s.duct d).vel.state (s.ctl d).state := by
      apply Bool.eq_iff_iff.mpr
      simpa [isBlind, or_assoc] using h1
    simp only at h2 h3 h4 h5
    rw [h4, h5, h3, h2, hb]
    cases h : isBlind (s.duct d).vel.state (s.ctl d).state <;> simp [boundsFor, h, lowerBound, upperBound, reciprocal]
  · intro h
    dsimp only
    rw [h]
    refine ⟨by simp [boundsFor, isBlind, or_assoc], rfl, ?_, rfl, rfl⟩
    cases h : isBlind (s.duct d).vel.state (s.ctl d).state <;> simp [boundsFor, h, lowerBound, upperBound]

end Sys2Proof.Machine
end

