-- ==== Sys2Proof/Tests/Witness.lean ====
section
/-! SUPPORT. Witnesses: for each statement of Certificates/Slice0/Obligations.lean with hypotheses, a concrete state and operands that
meet them, clause by clause and at boundary values of their ranges. -/

namespace Sys2Proof.Tests

set_option Elab.async false

open Sys2Proof Sys2Proof.Machine

/-! ### The states -/

/-- A small configuration: duct 0 with valve 0 and the gate, station 0 of duct 0 with channels 0 and 1, a second station further down
with channel 2, contact input 0 and door 0 at zone 5, siren 0 over every zone. -/
def cfg : Cfg :=
  let k : DuctCfg :=
    { DuctCfg.blank with
      span := 500, tol := 10, lmin := 50, valves := #v[⟨true, 1000, 20, 100, 50⟩, ⟨false, 0, 0, 0, 0⟩],
      gate := ⟨true, 2000, 300⟩, floodTime := 60, margin := 20, startTime := 10, purgeTime := 5, lowFlowGrace := 3,
      quietTime := 7, base := ⟨⟨0, 2, 2, 4, 3, 10⟩, 1, 40, 4⟩ }
  { Cfg.blank with
    inputs := Cfg.blank.inputs.set 0 ⟨some 5, .alarm, 2⟩
    channels := ((Cfg.blank.channels.set 0 (some ⟨0, 0, 100⟩)).set 1 (some ⟨0, 0, 100⟩)).set 2 (some ⟨0, 1, 100⟩)
    positions := (Cfg.blank.positions.set 0 (some 100)).set 1 (some 500)
    ducts := Cfg.blank.ducts.set 0 k
    doors := Cfg.blank.doors.set 0 ⟨0x0020, true, 3, 20, 30⟩
    budget := 4, slotLength := 5, allClearTime := 6
    sirens := Cfg.blank.sirens.set 0 ⟨0xFFFF, 2⟩
    readyThreshold := 2 }

/-- The part RUNNING with that configuration, the key closed, nothing going on, every input last sampled a tick ago. -/
def calm : State :=
  let ch : Channel := { Channel.initial with state := .active }
  { State.reset with
    cfg := cfg, loader := ⟨.running, none, 0x1234, none⟩, key := ⟨.closed, 0⟩, samples := Vector.replicate 69 (-1)
    channels := ((State.reset.channels.set 0 ch).set 1 ch).set 2 ch
    ducts := State.reset.ducts.set 0 { Duct.initial with vel := { Velocity.initial with bounds := ⟨true, 500, 50, 33554, 335544⟩ } } }

/-- The Arbiter with the zones as they stand in its view, its demands and grants as they follow. -/
def seen (s : State) : State :=
  let a := { s.arbiter with view := Vector.ofFn fun z => ⟨(s.zone z).level, (s.zone z).acked⟩ }
  s.setArbiter (evaluateGrants s.cfg s.tick (a.derive s.cfg fun _ => true)).withDrives

/-- Duct 0's three causes posted as its state has them. -/
def posted (s : State) : State :=
  let z := s.zone 0
  let cs := ((z.causes.set 0 (ductStateLevel (s.ctl 0))).set 1 (velocityLevel (s.ctl 0).state (s.duct 0).vel.state)).set 2
    (emberLevel (s.ctl 0))
  seen (s.setZone 0 { z with causes := cs, latch := z.latch || decide (causesLevel cs = .fire),
                             level := if causesLevel cs = .fire then .fire else deriveLevel z.latch cs })

/-- Duct 0's controller changed, with outputs, bounds and causes as they follow. -/
def ctl (f : Ctl → Ctl) (s : State) : State := posted (s.setCtl 0 (f (s.ctl 0)))

/-- Duct 0 changed. -/
def duct (f : Duct → Duct) (s : State) : State := s.setDuct 0 (f (s.duct 0))

/-- Zone 5 with a cause set, latch and acknowledged set. -/
def zone5 (key : CauseKey) (l : Level) (latch : Bool) (acked : AckSet) (s : State) : State :=
  let cs := (s.zone 5).causes.set key.ix l
  seen (s.setZone 5 { s.zone 5 with causes := cs, latch := latch, level := deriveLevel latch cs, acked := acked })

/-- Door 0 in a state, with its magnet. -/
def door (f : Door → Door) (s : State) : State :=
  let x := f (s.door 0)
  s.setDoor 0 { x with magnet := magnetOn x.state }

/-- A trackable spark of duct 0, retiring now. -/
def spark (id : Byte) : Track :=
  { id := id, station := 0, origin := 0, confirm := 0, blind := true, vHi := 500, vLo := 50,
    valves := [⟨0, 700, 7000, 0, 9000, false⟩], gate := some ⟨1500, 1500⟩, stations := [⟨1, 300, 3000, 0, 3000⟩],
    retire := 0, quenched := true, matched := [], capture := none }

/-- Duct 0 with tracks. -/
def tracked (l : List Track) : State :=
  ctl (fun c => { c with listMark := !l.isEmpty }) (duct (fun D => { D with tracks := l }) calm)

/-! ### What holds of them -/

/-- What most statements ask of the state: the part works, every port takes frames, every invariant that can be computed. -/
def Sound (s : State) : Prop :=
  Working s ∧ (TakesFrame s .fp ∧ TakesFrame s .pc ∧ TakesFrame s .sv) ∧ ZonesOk s ∧
    (PortOk (s.port .fp) ∧ PortOk (s.port .pc) ∧ PortOk (s.port .sv)) ∧ OutputsOk s ∧ BoundsOk s ∧ TracksOk s ∧
    OverlaysOk s ∧ DoorsOk s ∧ SirensOk s ∧ PostedOk s ∧ StoreOk s

/-! Each part of it is decidable. -/

def workingDec (s : State) : Decidable (Working s) := by
  unfold Working
  infer_instance

def takesDec (s : State) (p : Port) : Decidable (TakesFrame s p) := by
  unfold TakesFrame
  infer_instance

def zonesDec (s : State) : Decidable (ZonesOk s) := by
  unfold ZonesOk ZoneOk
  infer_instance

def portDec (u : PortUnit) : Decidable (PortOk u) := by
  unfold PortOk
  infer_instance

def outputsDec (s : State) : Decidable (OutputsOk s) := by
  unfold OutputsOk DuctOutputsOk CtlOk ValveOk GateOk
  infer_instance

def boundsDec (s : State) : Decidable (BoundsOk s) := by
  unfold BoundsOk
  infer_instance

def tracksDec (s : State) : Decidable (TracksOk s) := by
  unfold TracksOk
  infer_instance

def overlaysDec (s : State) : Decidable (OverlaysOk s) := by
  unfold OverlaysOk
  infer_instance

def doorsDec (s : State) : Decidable (DoorsOk s) := by
  unfold DoorsOk DoorOk
  infer_instance

def sirensDec (s : State) : Decidable (SirensOk s) := by
  unfold SirensOk ArbiterOk DemandOk
  infer_instance

def postedDec (s : State) : Decidable (PostedOk s) := by
  unfold PostedOk
  infer_instance

def storeDec (s : State) : Decidable (StoreOk s) := by
  unfold StoreOk LoaderOk
  infer_instance

def ductsClearDec (s : State) : Decidable (DuctsClear s) := by
  unfold DuctsClear ActsOnZone
  infer_instance

def doorsClearDec (s : State) : Decidable (DoorsClear s) := by
  unfold DoorsClear
  infer_instance

def soundDec (s : State) : Decidable (Sound s) := by
  letI := workingDec s
  letI := takesDec s
  letI := zonesDec s
  letI := portDec
  letI := outputsDec s
  letI := boundsDec s
  letI := tracksDec s
  letI := overlaysDec s
  letI := doorsDec s
  letI := sirensDec s
  letI := postedDec s
  letI := storeDec s
  unfold Sound
  infer_instance

/-- The part works and every port takes frames. -/
def Open (s : State) : Prop := Working s ∧ TakesFrame s .fp ∧ TakesFrame s .pc ∧ TakesFrame s .sv

def openDec (s : State) : Decidable (Open s) := by
  letI := workingDec s
  letI := takesDec s
  unfold Open
  infer_instance

def samplesDec (s : State) (x : Sampler) : Decidable (SampleDue s x) := by
  unfold SampleDue
  cases x <;> (unfold SampledNow; infer_instance)

theorem due_of (s : State) (x : Sampler) (h : @decide (SampleDue s x) (samplesDec s x) = true) : SampleDue s x :=
  @of_decide_eq_true _ (samplesDec s x) h

theorem not_due_of (s : State) (x : Sampler) (h : @decide (SampleDue s x) (samplesDec s x) = false) : ¬SampleDue s x :=
  @of_decide_eq_false _ (samplesDec s x) h

theorem ports_of_sound (s : State) (h : Sound s) : PortsOk s := fun p => by
  obtain ⟨-, -, -, ⟨h1, h2, h3⟩, -⟩ := h
  cases p <;> assumption

theorem takes_of_sound (s : State) (h : Sound s) (p : Port) : TakesFrame s p := by
  obtain ⟨-, ⟨h1, h2, h3⟩, -⟩ := h
  cases p <;> assumption

theorem quiet_of_working (s : State) (h : Working s) : QuietOk s := fun k => absurd h.2 (by simp [k])

theorem sound_of (s : State) (h : @decide (Sound s) (soundDec s) = true) : Sound s := @of_decide_eq_true _ (soundDec s) h

theorem open_of (s : State) (h : @decide (Open s) (openDec s) = true) : Open s := @of_decide_eq_true _ (openDec s) h

theorem takes_of (s : State) (p : Port) (h : @decide (TakesFrame s p) (takesDec s p) = true) : TakesFrame s p :=
  @of_decide_eq_true _ (takesDec s p) h

theorem store_of (s : State) (h : @decide (StoreOk s) (storeDec s) = true) : StoreOk s :=
  @of_decide_eq_true _ (storeDec s) h

/-- The state that an answer gives. -/
def after (r : Answer) : State :=
  match r with
  | .next t => t
  | .refused _ => State.reset
  | .fault f => nomatch f

theorem next_after (r : Answer) (h : ∃ t : State, r = .next t) : r = .next (after r) := by
  obtain ⟨t, rfl⟩ := h
  rfl

theorem sound_calm : Sound calm := sound_of _ (by decide +kernel)

/-- What CapturesOk asks, over the blocks that the layout has. -/
def capturesCheck (s : State) : Bool :=
  let c := s.captures
  let blocks := List.range c.blocks.length
  decide (c.blocks.length = blockCount c.layout) && decide c.stored.Nodup && c.stored.all (fun b => (c.block b).isStored) &&
    blocks.all (fun b => !(c.block b).isStored || decide (b ∈ c.stored)) &&
    blocks.all (fun b => !(c.block b).isFilling || (List.finRange 16).any fun i => decide (c.filling[i] = some b)) &&
    (List.finRange 16).all fun i =>
      c.filling[i].all (fun b => (c.block b).isFilling) && decide (s.stations[i].inFlight = c.filling[i].isSome) &&
        (List.finRange 16).all fun j => decide (c.filling[i] = none) || decide (c.filling[i] ≠ c.filling[j]) || decide (i = j)

theorem capturesOk_of (s : State) (h : capturesCheck s = true) : CapturesOk s := by
  simp only [capturesCheck, Bool.and_eq_true, decide_eq_true_eq, List.all_eq_true, List.mem_finRange, forall_const,
    Bool.or_eq_true, Bool.not_eq_true'] at h
  obtain ⟨⟨⟨⟨⟨hl, hn⟩, hs⟩, hb⟩, hf⟩, hi⟩ := h
  have beyond (b : Nat) (k : b ∉ List.range s.captures.blocks.length) : s.captures.block b = .free := by
    have : s.captures.blocks.length ≤ b := by simpa using k
    simp [Captures.block, this]
  refine ⟨hl, hn, fun b => ⟨hs b, fun k => ?_⟩, fun i b k => ?_, fun b k => ?_, fun i j k e => ?_, fun i => (hi i).1.2⟩
  · by_cases m : b ∈ List.range s.captures.blocks.length
    · exact (hb b m).resolve_left (by simp [k])
    · simp [beyond b m, Block.isStored] at k
  · have := (hi i).1.1
    rw [k] at this
    exact this
  · by_cases m : b ∈ List.range s.captures.blocks.length
    · have := (hf b m).resolve_left (by simp [k])
      simpa using this
    · simp [beyond b m, Block.isFilling] at k
  · rcases (hi i).2 j with (h1 | h1) | h1
    · rw [h1] at k
      cases k
    · exact absurd e h1
    · exact h1

theorem capturesOk_calm : CapturesOk calm := capturesOk_of _ (by decide +kernel)

/-! ### The step, start-up and the safe state -/

/-- Held in reset, nothing due, one event due, and two: the load and the key's sample of that millisecond; and samples that are due, of
every kind of input. -/
theorem witness_IdleStepMovesTheClock :
    let s : State := { State.reset with tick := 1024 }
    let q := { s with samples := Vector.replicate 69 1024 }
    ({ State.reset with resetLow := true }.pending = [] ∧ { State.reset with resetLow := true }.resetLow = true) ∧
    (State.reset.pending = [] ∧ State.reset.resetLow = false ∧ dueEvents State.reset = []) ∧
    (q.pending = [] ∧ q.resetLow = false ∧ dueEvents q = [.loadCompletion]) ∧
    (s.pending = [] ∧ s.resetLow = false ∧ dueEvents s = [.loadCompletion, .keySwitchChange .opened]) ∧
    SampleDue s .key ∧ SampleDue calm (.contact 0) ∧ SampleDue calm (.station 0 1) ∧ SampleDue calm (.transducer 3) ∧
    SampleDue calm (.flow 0 0) ∧ SampleDue calm (.gate 0 .openSwitch) ∧ SampleDue calm (.closedSwitch 11) ∧
    SampleDue calm (.barrier 0) := by
  refine ⟨?_, ?_, ?_, ?_, ?_, ?_, ?_, ?_, ?_, ?_, ?_, ?_⟩
  iterate 4 decide +kernel
  all_goals exact due_of _ _ (by decide +kernel)

theorem witness_PowerOnStartsTheLoadInTheSafeState :
    State.reset.loader.write = none ∧ Memory.wf [(31, (5 : Byte)), (64, 6)] = true ∧
    (∀ w ∈ some (⟨32, Vector.replicate 32 (0 : Byte), 20⟩ : StoreWrite), 31 < w.offset.toNat) ∧
    (∀ w ∈ some (⟨32, Vector.replicate 32 (0 : Byte), 20⟩ : StoreWrite), w.offset.toNat + 32 ≤ 64) := by
  refine ⟨rfl, rfl, fun w h => ?_, fun w h => ?_⟩ <;> (cases h; decide)

theorem witness_ResetLeadHoldsTheSafeState :
    { calm with resetLow := true }.resetLow = true ∧ Instr.responseSent .fp ≠ .powerOn ∧
      Instr.responseSent .fp ≠ .resetLeadLow ∧ Instr.flowSwitchChange 0 0 true ≠ .powerOn := by
  decide +kernel

/-! ### What every step keeps -/

/-- For every invariant: a state that meets it all, and a step from it. -/
theorem witness_EveryStepKeeps :
    Sound { calm with pending := [.startDuct .fp 7 1] } ∧ QuietOk { calm with pending := [.startDuct .fp 7 1] } ∧
      CapturesOk { calm with pending := [.startDuct .fp 7 1] } ∧ DuctsClear { calm with pending := [.startDuct .fp 7 1] } ∧
      DoorsClear { calm with pending := [.startDuct .fp 7 1] } ∧
      step { calm with pending := [.startDuct .fp 7 1] } =
        .next (after (step { calm with pending := [.startDuct .fp 7 1] })) ∧
      ((after (step { calm with pending := [.startDuct .fp 7 1] })).ctl 0).state = .starting :=
  ⟨sound_of _ (by decide +kernel), quiet_of_working _ ⟨by decide +kernel, by decide +kernel⟩, capturesOk_calm,
    @of_decide_eq_true _ (ductsClearDec _) (by decide +kernel), @of_decide_eq_true _ (doorsClearDec _) (by decide +kernel),
    next_after _ (step_next _), by decide +kernel⟩

theorem witness_OnlyResetClearsALatch :
    mayUnlatch (.withdraw .fp 1 5) = false ∧
      ((zone5 (.declaration .fp) .fire true ⟨false, false⟩ calm).zone 5).latch = true ∧
      ∃ t : State, exec (.withdraw .fp 1 5) (zone5 (.declaration .fp) .fire true ⟨false, false⟩ calm) = .next t :=
  ⟨rfl, by decide +kernel, exec_next _ _⟩

/-! ### Requests, answers and frames -/

/-- Duct 0 in a state. -/
def at_ (st : DuctState) : State := ctl (fun c => { c with state := st }) calm

/-- Duct 0 STOPPED with a stop. -/
def stopped (x : Stop) : State := ctl (fun c => { c with state := .stopped, stop := some x }) calm

/-- A FIRE-kind stop that waits for its gate. -/
def waitsForGate (c : Ctl) : Ctl := { c with state := .stopping, stop := some ⟨.fire, .diverted, .alarm⟩ }

/-- Duct 0 with that stop, its gate in the stroke. -/
def closing (s : State) : State :=
  ctl waitsForGate (s.setGate 0 { Gate.initial with state := .closing, timer := some 9 }.withDrives)

/-- Duct 0 with overlays. -/
def layered (l : List Overlay) : State := duct (fun D => { D with overlays := l }) calm

theorem witness_ReadsAnswerTheStateAndChangeNothing :
    Sound (tracked [spark 1]) ∧ (0 : Byte).toNat < ((tracked [spark 1]).duct 0).tracks.length ∧
      ((4064 : Word16).toNat ≤ 4064 ∧ (tracked [spark 1]).loader.state ≠ .loading ∧ (tracked [spark 1]).loader.write = none) ∧
      (let held := { calm with loader := ⟨.safeHold, some .captureFit, 5, none⟩ }
      TakesFrame held .pc ∧ held.loader.state ≠ .loading ∧ held.loader.write = none) ∧
      ∃ (c : Captures) (r : Capture), r ∈ c.storedRecord 0 :=
  ⟨sound_of _ (by decide +kernel), by decide +kernel, by decide +kernel,
    ⟨takes_of _ _ (by decide +kernel), by decide +kernel⟩,
    { Captures.initial with stored := [0], blocks := [.stored (newCapture calm ⟨0, 0, 0, 0, []⟩ .overflow 0 0)] }, _, rfl⟩

theorem witness_IdentificationIsAnsweredInEveryLoadState :
    (TakesFrame State.reset .pc ∧ StoreOk State.reset) ∧ (TakesFrame calm .fp ∧ StoreOk calm) ∧
      (TakesFrame { calm with loader := ⟨.safeHold, some .captureFit, 5, none⟩ } .sv ∧
        StoreOk { calm with loader := ⟨.safeHold, some .captureFit, 5, none⟩ }) :=
  ⟨⟨takes_of _ _ (by decide +kernel), store_of _ (by decide +kernel)⟩,
    ⟨takes_of _ _ (by decide +kernel), store_of _ (by decide +kernel)⟩,
    takes_of _ _ (by decide +kernel), store_of _ (by decide +kernel)⟩

/-- A refused request while the part runs, and outside RUNNING one that comes to the tag check with the right tag, with a wrong
one, and one without a tag. -/
theorem witness_RefusedRequestsChangeNothing :
    (requestOf (.ackZone .fp 1 16 0) = some (.fp, 1, codeAckZone) ∧ codeAckZone ≠ codeWriteStore ∧
      wellFormed (.ackZone .fp 1 16 0) = true ∧ TakesFrame calm .fp) ∧
    (TakesFrame State.reset .fp ∧ QuietOk State.reset) ∧
      (∀ c ∈ [Instr.ackZone .fp 1 15 0, .ackZone .fp 1 15 1, .startDuct .fp 1 4, .readZones .fp 1 255],
        wellFormed c = true ∧ deniedTo c = false ∧ needsKey c = false ∧ operandsInRange State.reset c = true ∧
          servedInEveryState c = false ∧ ∃ x ∈ requestOf c, x.1 = .fp ∧ x.2.2 ∈ catalogue) ∧
      State.reset.isRunning = false ∧ tagsAgree State.reset (.ackZone .fp 1 15 0) = true ∧
      tagsAgree State.reset (.ackZone .fp 1 15 1) = false :=
  ⟨⟨rfl, by decide, rfl, takes_of_sound _ sound_calm _⟩,
    ⟨takes_of _ _ (by decide +kernel), fun _ => ⟨rfl, rfl, rfl, rfl, rfl, rfl, rfl, rfl, rfl⟩⟩, by decide +kernel, rfl,
    by decide +kernel, by decide +kernel⟩

/-- Requests that pass the checks of places 1 to 6 while the part runs, with the refusal that its state gives them, or none: for every
request that a state can refuse, both. -/
theorem witness_StateRefusesRequests :
    let e : Overlay := ⟨.fp, 9, ⟨0, 1, 0, 0, 0, 1⟩⟩
    let fired := zone5 (.declaration .fp) .fire true ⟨false, false⟩ calm
    let still := fun n => calm.setChannel 0 { Channel.initial with state := .fault .stuck, clean := n }
    let cases : List (State × Instr × Option Result) :=
      [(calm, .withdraw .fp 1 5, some .noData), (fired, .withdraw .fp 1 5, none),
       (fired, .resetZone .fp 1 5 0, some .notNow),
       (zone5 (.declaration .pc) .alarm true ⟨false, false⟩ calm, .resetZone .fp 1 5 0, none),
       (calm, .readTracks .pc 1 1 0, some .noData), (tracked [spark 1], .readTracks .pc 1 1 0, none),
       (at_ .guarded, .startDuct .fp 1 1, some .notNow), (calm, .startDuct .fp 1 1, none),
       (calm, .stopDuct .pc 1 1, some .notNow), (at_ .guarded, .stopDuct .pc 1 1, none),
       (stopped ⟨.fire, .overflow, .fire⟩, .resetDuct .pc 1 1, some .denied), (calm, .resetDuct .fp 1 1, some .notNow),
       (stopped ⟨.fire, .overflow, .fire⟩, .resetDuct .fp 1 1, none),
       (calm, .isolateChannel .sv 1 5, some .notNow), (calm, .isolateChannel .sv 1 0, none),
       (calm, .restoreChannel .fp 1 0, some .notNow),
       (still 399, .clearChannelFault .sv 1 0, some .notNow), (still 400, .clearChannelFault .sv 1 0, none),
       (calm, .testValve .sv 1 1 1 5, some .notNow), (calm, .testValve .sv 1 1 0 5, none),
       (layered [e, e, e, e], .pushOverlay .fp 1 1 0 1023 16 0 0 0 60, some .stackFull),
       (layered [e, e, e], .pushOverlay .fp 1 1 0 1023 16 0 0 0 60, none),
       (calm, .popOverlay .fp 1 1, some .stackEmpty), (layered [e], .popOverlay .pc 1 1, some .notOwner),
       (layered [e], .popOverlay .fp 1 1, none), (fired, .holdDoor .fp 1 0 9, some .notNow), (calm, .holdDoor .fp 1 0 9, none),
       (calm, .unholdDoor .fp 1 0, some .noData), (calm, .stopSound .pc 1 1, some .noData),
       (fired, .testSirens .sv 1 1, some .notNow), (calm, .testSirens .sv 1 1, none), (calm, .setCaptureLayout .sv 1 0 64 448, none),
       (at_ .guarded, .restart .fp 1, some .notNow), (calm, .restart .fp 1, none), (calm, .readIdent .pc 1, none)]
    (∀ x ∈ cases, wellFormed x.2.1 = true ∧ deniedTo x.2.1 = false ∧ (needsKey x.2.1 = true → x.1.keyClosed = true) ∧
      operandsInRange x.1 x.2.1 = true ∧ x.1.isRunning = true ∧ tagsAgree x.1 x.2.1 = true ∧ barred x.1 x.2.1 = x.2.2 ∧
      ∃ y ∈ requestOf x.2.1, y.2.2 ∈ catalogue ∧ y.2.2 ≠ codeWriteStore ∧ x.1.resetLow = false ∧
        (x.1.port y.1).waiting = none ∧ (x.1.port y.1).tx = []) ∧
      barred (calm.setCaptures { Captures.initial with blocks := [.filling (newCapture calm ⟨0, 0, 0, 0, [0]⟩ .overflow 500 50) 1] })
        (.setCaptureLayout .sv 1 0 64 448) = some .busy ∧
      barred { calm with loader := { calm.loader with write := some ⟨0, Vector.replicate 32 0, 9⟩ } } (.readStore .fp 1 0) =
        some .busy := by
  decide +kernel

theorem witness_RequestsBeyondAuthorityAreDenied :
    requestOf (.declare .fp 1 5 1) = some (.fp, 1, codeDeclare) ∧ deniedTo (.declare .fp 1 5 1) = true ∧
      deniedTo (.writeStore .pc 1 0 (Vector.replicate 32 0)) = true ∧ TakesFrame State.reset .fp ∧
      (deniedTo (.isolateChannel .sv 1 16) = false ∧ needsKey (.isolateChannel .sv 1 16) = true ∧
        State.reset.keyClosed = false ∧ TakesFrame State.reset .sv) ∧
      (calm.keyClosed = true ∧ operandsInRange calm (.isolateChannel .sv 1 16) = false ∧ TakesFrame calm .sv) ∧
      (deniedTo (.readDuct .pc 1 5) = false ∧ needsKey (.readDuct .pc 1 5) = false ∧
        operandsInRange State.reset (.readDuct .pc 1 5) = false ∧ TakesFrame State.reset .pc) :=
  ⟨rfl, rfl, rfl, takes_of _ _ (by decide +kernel),
    ⟨rfl, rfl, by decide +kernel, takes_of _ _ (by decide +kernel)⟩,
    ⟨by decide +kernel, by decide +kernel, takes_of_sound _ sound_calm _⟩,
    rfl, rfl, by decide +kernel, takes_of _ _ (by decide +kernel)⟩

theorem witness_TransmitListTakesBusyUnknownAndSent :
    let r : Response := ⟨codeReadIdent, 0, .ok, []⟩
    let u : PortUnit := { PortUnit.initial with waiting := some ⟨codeWriteStore, 1⟩ }
    calm.resetLow = false ∧ requestOf (.readIdent .fp 1) = some (.fp, 1, codeReadIdent) ∧
      wellFormed (.readIdent .fp 1) = true ∧
      (((calm.setPort .fp { u with tx := [r, r] }).port .fp).waiting.isSome = true ∧
        ((calm.setPort .fp { u with tx := [r, r] }).port .fp).tx.length < 3) ∧
      3 ≤ ((calm.setPort .fp { u with tx := [r, r, r] }).port .fp).tx.length ∧
      4 ≤ ((calm.setPort .fp { PortUnit.initial with tx := [r, r, r, r] }).port .fp).tx.length ∧
      (0xFE : Byte) ∉ catalogue ∧ wellFormed (.unknownRequest .fp 1 0xFE) = true := by
  decide +kernel

/-- The high CRC byte of three frames that arrive in time: a request's, one with an unknown code and a payload, and one whose payload is
a byte too long for its request. -/
theorem witness_ACompletedFrameIsItsRequest :
    let arrives := fun (code : Byte) (payload : List Byte) =>
      let lo := (crc16 (byteOf (2 + payload.length) :: code :: 7 :: payload)).truncate 8
      { calm.setPort .fp { PortUnit.initial with rx := .crc (code :: 7 :: payload) (some lo) } with tick := 80 }
    (requestOf (.readIdent .fp 7) = some (.fp, 7, codeReadIdent) ∧ wellFormed (.readIdent .fp 7) = true ∧
      requestPayload (.readIdent .fp 7) = [] ∧ codeReadIdent ∈ catalogue) ∧
    (0xFE : Byte) ∉ catalogue ∧ (codeReadIdent ∈ catalogue ∧ [(9 : Byte)].length ≠ payloadLength codeReadIdent) ∧
    ∀ x ∈ [(codeReadIdent, []), (0xFE, [1, 2]), (codeReadIdent, [9])],
      let s := arrives x.1 x.2
      s.resetLow = false ∧ (s.port .fp).waiting = none ∧ (s.port .fp).tx = [] ∧
        Tick.later s.tick ((s.port .fp).rxTick + 80) = false ∧
        let check := crc16 (byteOf (2 + x.2.length) :: x.1 :: 7 :: x.2)
        (s.port .fp).rx = .crc (x.1 :: 7 :: x.2) (some (check.truncate 8)) ∧
          ((check >>> 8).truncate 8 : Byte) ++ (check.truncate 8 : Byte) = check := by
  decide +kernel

/-- The last tick that is in time and the first that is late, both length limits, the last byte of a body and the one before; a receiver
in HUNTING and one that is not. -/
theorem witness_ReceiversAssembleAndDiscardFrames :
    let at_ := fun (rx : Rx) (now : Tick) => { calm.setPort .fp { PortUnit.initial with rx := rx } with tick := now }
    Tick.later (at_ .length 80).tick (((at_ .length 80).port .fp).rxTick + 80) = false ∧
      Tick.later (at_ .length 81).tick (((at_ .length 81).port .fp).rxTick + 80) = true ∧
      ((at_ .hunting 80).port .fp).rx = .hunting ∧ ((at_ .length 80).port .fp).rx ≠ .hunting ∧
      ((at_ .length 80).port .fp).rx = .length ∧ ((at_ (.body 2 [1]) 80).port .fp).rx = .body 2 [1] ∧
      ((at_ (.crc [1, 2] (some 3)) 80).port .fp).rx = .crc [1, 2] (some 3) ∧
      (2 ≤ (2 : Byte).toNat ∧ (2 : Byte).toNat ≤ 64) ∧ (2 ≤ (64 : Byte).toNat ∧ (64 : Byte).toNat ≤ 64) ∧
      (1 : Byte).toNat < 2 ∧ 64 < (65 : Byte).toNat ∧ [(1 : Byte)].length + 1 = 2 ∧ [(1 : Byte)].length + 1 < 3 ∧
      (4 : Byte) ++ (3 : Byte) ≠ crc16 (byteOf [(1 : Byte), 2].length :: [1, 2]) := by
  decide +kernel

/-- The last sample that counts and the one that is accepted, both at a tick at which the millisecond clock advances; a tick at which
it does not; and a tick whose sample is taken. -/
theorem witness_KeySwitchIsDebounced :
    let s := fun (n : Nat) (now : Tick) => { calm with key := ⟨.opened, n⟩, tick := now }
    SampleDue (s 98 8) .key ∧ SampleDue (s 99 8) .key ∧ ¬SampleDue (s 99 9) .key ∧ ¬SampleDue ((s 99 8).tookSample .key) .key ∧
      (s 98 8).key.count < 99 ∧ 99 ≤ (s 99 8).key.count ∧ KeyState.closed ≠ (s 99 8).key.accepted ∧ calm.resetLow = false ∧
      (s 99 8).leads.key = .opened ∧ (.keySwitchChange .opened) ∈ dueEvents (s 99 8) ∧
      (.keySwitchChange .opened) ∉ dueEvents ((s 99 8).tookSample .key) :=
  ⟨due_of _ _ (by decide +kernel), due_of _ _ (by decide +kernel), not_due_of _ _ (by decide +kernel),
    not_due_of _ _ (by decide +kernel), by decide +kernel⟩

/-- The limits of the settings; an age timer that runs out now; and nine notices, of which a fetch of eight leaves one that is not yet due
or comes to its age limit now. -/
theorem witness_NoticeQueueRequestsActOnTheirPort :
    let n := noticeOf PortUnit.initial 0 (troubleOffer 5 ⟨.lowFlow, 1⟩ true)
    let s := fun (k : Nat) (timer now : Tick) =>
      { calm.setPort .fp { PortUnit.initial with
          queue := List.replicate k n, threshold := 32, ageTimer := some timer } with tick := now }
    ((1 ≤ (1 : Byte).toNat ∧ (32 : Byte).toNat ≤ 32) ∧ 10 ≤ (10 : Word16).toNat ∧ (5000 : Word16).toNat ≤ 5000) ∧
      (Sound (s 1 0 0) ∧ PortsOk (s 1 0 0) ∧ ((s 1 0 0).port .fp).ageTimer = some (s 1 0 0).tick) ∧
      (Sound (s 9 40 39) ∧ PortsOk (s 9 40 39) ∧ Tick.later (n.admitted.plus (4 * 10)) (s 9 40 39).tick = true) ∧
      (Sound (s 9 40 40) ∧ PortsOk (s 9 40 40) ∧ Tick.later (n.admitted.plus (4 * 10)) (s 9 40 40).tick = false) :=
  ⟨by decide,
    ⟨sound_of _ (by decide +kernel), ports_of_sound _ (sound_of _ (by decide +kernel)), by decide +kernel⟩,
    ⟨sound_of _ (by decide +kernel), ports_of_sound _ (sound_of _ (by decide +kernel)), by decide +kernel⟩,
    sound_of _ (by decide +kernel), ports_of_sound _ (sound_of _ (by decide +kernel)), by decide +kernel⟩

/-- A notice offered to a port that does not subscribe to it, that has room for one more, that is full and holds a plain notice, and
that is full of urgent ones; the offer urgent and plain (R176 to R178). -/
theorem witness_PortsTakeNotices :
    let o := zoneNotice 5 4 (Zone.initial .hall) { Zone.initial .hall with level := .fire, latch := true, tag := 1 }
    let n := noticeOf PortUnit.initial 0 o
    let q := noticeOf PortUnit.initial 0 (troubleOffer 5 ⟨.lowFlow, 1⟩ true)
    let u := fun l : List Notice => { PortUnit.initial with subscription := 0xFF, queue := l, line := true }
    (o.urgent = true ∧ (troubleOffer 5 ⟨.lowFlow, 1⟩ true).urgent = false ∧ n.urgent = true ∧ q.urgent = false) ∧
      subscribed PortUnit.initial.subscription o.kind = false ∧ subscribed (u []).subscription o.kind = true ∧
      (u (List.replicate 31 n)).queue.length < 32 ∧
      (32 ≤ (u (q :: List.replicate 31 n)).queue.length ∧ ∃ x ∈ (u (q :: List.replicate 31 n)).queue, x.urgent = false) ∧
      (32 ≤ (u (List.replicate 32 n)).queue.length ∧ ∀ x ∈ (u (List.replicate 32 n)).queue, x.urgent = true) := by
  decide +kernel

/-! ### Zones and contact inputs -/

theorem witness_AckZoneRecordsThePort :
    let s := zone5 (.declaration .pc) .alarm false ⟨false, true⟩ calm
    Sound s ∧ Port.fp ≠ .sv ∧ (1 : Word16) ≠ (s.zone 5).tag ∧ (0 : Word16) = (s.zone 5).tag ∧
      (s.zone 6).level = .normal ∧ (s.zone 5).acked.has .pc = true ∧ (s.zone 5).level ≠ .normal ∧
      (s.zone 5).acked.has .fp = false :=
  ⟨sound_of _ (by decide +kernel), by decide +kernel⟩

theorem witness_DeclarationsArePostedAndWithdrawn :
    let s := zone5 (.declaration .pc) .alarm false ⟨false, false⟩ calm
    Sound s ∧ (Level.fire = .alarm ∨ Level.fire = .fire) ∧ (Level.watch = .watch ∨ Level.watch = .alarm) ∧
      (s.zone 5).causes[(CauseKey.declaration .pc).ix] ≠ .normal ∧
      (s.zone 5).causes[(CauseKey.declaration .fp).ix] = .normal :=
  ⟨sound_of _ (by decide +kernel), by decide +kernel⟩

/-- Duct 0 in a state, serving zone 5, which door 0 borders. -/
def serving (f : Ctl → Ctl) (g : Door → Door) : State :=
  ctl f (door g { calm with cfg := { cfg with ducts := cfg.ducts.set 0 { cfg.ducts[0] with served := 0x0020 } } })

/-- The reports of a declaration and of its end: a served zone that comes to FIRE under a running duct, one in its purge, one after it
and one that is OFFLINE; a HELD door and a waiting one; and a zone whose tag moves, at FIRE, at ALARM and back at NORMAL. -/
theorem witness_DeclarationReports :
    let held := fun x : Door => { x with state := .held, holdFp := some 9 }
    let waits := fun x : Door =>
      { x with state := .releaseWait, cause := some .holdExpired, obstruction := some 9, barrier := true }
    let a := serving (fun c => { c with state := .guarded }) held
    let b := serving (fun c => { c with state := .stopping, stop := some ⟨.orderly, .noFlow, .normal⟩, purge := some 9 }) waits
    let c := serving (fun c => { c with state := .stopped, stop := some ⟨.orderly, .noFlow, .normal⟩ }) id
    let moved := fun (i : Instr) (s : State) => ((after (exec i s)).zone 5).tag ≠ (s.zone 5).tag
    Sound a ∧ Sound b ∧ Sound c ∧ zoneIn (a.ductCfg 0).served 5 = true ∧ zoneIn a.cfg.doors[0].zones 5 = true ∧
      (a.zone 5).level ≠ .fire ∧ (a.ctl 0).state.isRunning = true ∧ (b.ctl 0).state = .stopping ∧
      (c.ctl 0).state = .stopped ∧ ((serving id id).ctl 0).state = .offline ∧
      (moved (.declare .fp 1 5 3) a ∧ ((after (exec (.declare .fp 1 5 3) a)).zone 5).level = .fire) ∧
      (moved (.declare .pc 1 5 2) b ∧ ((after (exec (.declare .pc 1 5 2) b)).zone 5).level = .alarm) ∧
      moved (.withdraw .pc 1 5) (zone5 (.declaration .pc) .alarm false ⟨false, false⟩ calm) :=
  ⟨sound_of _ (by decide +kernel), sound_of _ (by decide +kernel), sound_of _ (by decide +kernel), by decide +kernel⟩

/-- Recorded stops that a zone at FIRE leaves as they are (R104): in STOPPING at ALARM and in STOPPED at FIRE; and a duct zone that comes
to ALARM over an overlay. -/
theorem witness_RecordedStopsStay :
    let a := serving waitsForGate id
    let f := serving (fun c => { c with state := .stopped, stop := some ⟨.fire, .overflow, .fire⟩ }) id
    let laden := layered [⟨.fp, 9, ⟨0, 1, 0, 0, 0, 1⟩⟩]
    Sound a ∧ Sound f ∧ Sound laden ∧ ActsOnZone a 0 5 ∧ (a.zone 5).level ≠ .fire ∧ (f.zone 5).level ≠ .fire ∧
      ((a.ctl 0).state = .stopping ∧ ∃ x ∈ (a.ctl 0).stop, x.level = .alarm) ∧
      ((f.ctl 0).state = .stopped ∧ ∃ x ∈ (f.ctl 0).stop, x.level = .fire) ∧ ductZone 0 = 0 ∧
      ((after (exec (.declare .fp 1 0 2) laden)).zone 0).tag ≠ (laden.zone 0).tag ∧
      ((after (exec (.declare .fp 1 0 2) laden)).zone 0).level = .alarm :=
  ⟨sound_of _ (by decide +kernel), sound_of _ (by decide +kernel), sound_of _ (by decide +kernel), .inr (by decide +kernel),
    by decide +kernel, by decide +kernel, ⟨by decide +kernel, _, rfl, rfl⟩, ⟨by decide +kernel, _, rfl, rfl⟩,
    by decide +kernel⟩

/-- Siren 0 with a snapshot and an all-clear under way. -/
def quieted (snapshot : Word16) (s : State) : State :=
  let x := { s.arbiter.sirens[0] with snapshot := snapshot, allClear := some 9 }
  seen (s.setArbiter { s.arbiter with sirens := s.arbiter.sirens.set 0 x })

/-- A report at the Siren Arbiter: a rise outside the snapshot, one from ALARM to FIRE inside it, one from ALARM to FIRE outside it,
which keeps it, a fall below ALARM, and one at which nothing of the zone changes; each where no duct acts on the zone, and one where
a running duct does. -/
theorem witness_SirensReported :
    let alarmed := zone5 (.declaration .pc) .alarm false ⟨false, false⟩ calm
    let inside := quieted 0x0020 alarmed
    let outside := quieted 0x0040 (seen (alarmed.setZone 6 { alarmed.zone 6 with
      causes := (alarmed.zone 6).causes.set (CauseKey.declaration .pc).ix .alarm, level := .alarm }))
    let snapshot := fun s : State => s.arbiter.sirens[0].snapshot
    let run := fun (i : Instr) (s : State) => after (exec i s)
    let moved := fun (i : Instr) (s : State) => ((run i s).zone 5).tag ≠ (s.zone 5).tag
    let busy := serving (fun c => { c with state := .guarded }) id
    (Sound (quieted 0 calm) ∧ Sound inside ∧ Sound outside ∧ Sound busy) ∧ zoneIn calm.cfg.sirens[0].cover 5 = true ∧
      (moved (.declare .fp 1 5 2) (quieted 0 calm) ∧ (run (.declare .fp 1 5 2) (quieted 0 calm)).arbiter.sirens[0].allClear = none) ∧
      (moved (.declare .fp 1 5 3) inside ∧ snapshot inside = 0x0020 ∧ snapshot (run (.declare .fp 1 5 3) inside) = 0) ∧
      (moved (.declare .fp 1 5 3) outside ∧ snapshot outside = 0x0040 ∧ snapshot (run (.declare .fp 1 5 3) outside) = 0x0040) ∧
      (moved (.withdraw .pc 1 5) inside ∧ snapshot (run (.withdraw .pc 1 5) inside) = 0) ∧
      ((run (.declare .fp 1 5 2) inside).zone 5).tag = (inside.zone 5).tag ∧
      (∀ d : Fin 4, (calm.ctl d).state = .offline) ∧
      (moved (.declare .fp 1 5 3) busy ∧ ((run (.declare .fp 1 5 3) busy).zone 5).level = .fire ∧
        (busy.ctl 0).state ≠ .offline) :=
  ⟨⟨sound_of _ (by decide +kernel), sound_of _ (by decide +kernel), sound_of _ (by decide +kernel),
    sound_of _ (by decide +kernel)⟩, by decide +kernel⟩

theorem witness_ResetZoneClearsTheLatch :
    let s := zone5 (.declaration .pc) .alarm true ⟨false, false⟩ calm
    let f := zone5 (.declaration .fp) .fire true ⟨false, false⟩ calm
    Sound s ∧ Sound f ∧ (1 : Word16) ≠ (s.zone 5).tag ∧ (0 : Word16) = (s.zone 5).tag ∧ (s.zone 6).latch = false ∧
      (∃ i : Fin 13, (f.zone 5).causes[i] = .fire) ∧ (s.zone 5).latch = true ∧ (∀ i : Fin 13, (s.zone 5).causes[i] ≠ .fire) ∧
      (zoneIn s.cfg.sirens[0].cover 5 = true) :=
  ⟨sound_of _ (by decide +kernel), sound_of _ (by decide +kernel), by decide +kernel⟩

/-- The last sample that counts and the one that is accepted; no sample due, at an input that is not enabled, at a tick at which the
millisecond clock does not advance, and where it has been taken. -/
theorem witness_ContactInputsDebounceAndPost :
    let s := calm.setInput 0 ⟨.normal, some .active, 1⟩
    let q := calm.setInput 0 ⟨.normal, some .active, 0⟩
    (Sound s ∧ Sound q ∧ SampleDue s (.contact 0) ∧ SampleDue q (.contact 0)) ∧
      (¬SampleDue calm (.contact 1) ∧ ¬SampleDue { s with tick := 1 } (.contact 0) ∧
        ¬SampleDue (s.tookSample (.contact 0)) (.contact 0)) ∧
      s.cfg.inputs[0].zone = some 5 ∧ sensedOf false true = .active ∧ s.leads.contacts[0] = ⟨false, false⟩ ∧
      (s.input 0).candidate = some .active ∧ s.cfg.inputs[0].debounce ≤ (s.input 0).stable + 1 ∧
      (q.input 0).stable + 1 < q.cfg.inputs[0].debounce ∧ (calm.input 0).candidate ≠ some .active ∧
      (calm.input 0).accepted = sensedOf false false ∧
      (let moved := fun (supervision : Bool) (from_ : Sensed) =>
        let x := calm.setInput 0 ⟨from_, some (sensedOf supervision true), 1⟩
        decide (((after (exec (.contactInputAccepted 0 supervision true) x)).zone 5).tag ≠ (x.zone 5).tag)
      moved false .normal = true ∧ moved true .normal = false ∧ sensedOf true true = .fault) :=
  ⟨⟨sound_of _ (by decide +kernel), sound_of _ (by decide +kernel), due_of _ _ (by decide +kernel),
    due_of _ _ (by decide +kernel)⟩, ⟨not_due_of _ _ (by decide +kernel), not_due_of _ _ (by decide +kernel),
    not_due_of _ _ (by decide +kernel)⟩, by decide +kernel⟩

/-! ### Ducts -/

theorem witness_StartDuctEntersStarting :
    Sound calm ∧ (calm.ctl 0).state = .offline ∧ (calm.zone (ductZone 0)).level.atLeast .alarm = false ∧
      (∀ z : Fin 16, zoneIn (calm.ductCfg 0).served z = true → (calm.zone z).level ≠ .fire) ∧ Port.pc ≠ .sv :=
  ⟨sound_calm, by decide +kernel⟩

theorem witness_StopDuctPurgesTheDuct :
    Sound (at_ .starting) ∧ Sound (at_ .alert) ∧ ((at_ .starting).ctl 0).state.isRunning = true ∧
      ((at_ .alert).ctl 0).state.isRunning = true ∧
      Sound (ctl (fun c => { c with state := .stopping, stop := some ⟨.orderly, .lowFlow, .normal⟩, purge := some 9 }) calm) :=
  ⟨sound_of _ (by decide +kernel), sound_of _ (by decide +kernel), by decide +kernel, by decide +kernel,
    sound_of _ (by decide +kernel)⟩

theorem witness_ResetDuctReturnsToOffline :
    let f := stopped ⟨.fire, .overflow, .fire⟩
    let o := stopped ⟨.orderly, .lowFlow, .normal⟩
    Sound f ∧ Sound o ∧ (f.ctl 0).state = .stopped ∧ (∃ x ∈ (f.ctl 0).stop, x.kind = .fire) ∧ (f.ctl 0).listMark = false ∧
      ((f.zone (ductZone 0)).latch = true ∧ ∃ x ∈ (f.ctl 0).stop, x.level = .fire) ∧
      (∀ x ∈ (o.ctl 0).stop, x.kind ≠ .fire) ∧ (o.zone (ductZone 0)).latch = false :=
  ⟨sound_of _ (by decide +kernel), sound_of _ (by decide +kernel), by decide +kernel, ⟨_, rfl, rfl⟩, by decide +kernel,
    ⟨by decide +kernel, _, rfl, rfl⟩, fun _ h => by cases h; decide, by decide +kernel⟩

theorem witness_FlowTimersStopTheDuct :
    let a := ctl (fun c => { c with state := .starting, start := some 0 }) calm
    let b := ctl (fun c => { c with state := .arming, start := some 0 }) calm
    let g := ctl (fun c => { c with state := .guarded, lowFlow := some 0 }) calm
    let h := ctl (fun c => { c with state := .alert, lowFlow := some 0 }) calm
    Sound a ∧ Sound b ∧ Sound g ∧ Sound h ∧ (a.ctl 0).start = some a.tick ∧ (b.ctl 0).start = some b.tick ∧
      (g.ctl 0).lowFlow = some g.tick ∧ (h.ctl 0).lowFlow = some h.tick :=
  ⟨sound_of _ (by decide +kernel), sound_of _ (by decide +kernel), sound_of _ (by decide +kernel),
    sound_of _ (by decide +kernel), by decide +kernel⟩

theorem witness_TwoCleanWindowsGuardTheDuct :
    let w := fun (clean : Bool) (n : Nat) =>
      ctl (fun c => { c with state := .arming, arm := some 0, windowClean := clean, cleanCount := n }) calm
    Sound (w true 1) ∧ Sound (w true 0) ∧ Sound (w false 1) ∧ ((w true 1).ctl 0).arm = some (w true 1).tick ∧
      ((w true 1).ctl 0).cleanCount = 1 ∧ ((w true 1).ctl 0).windowClean = true :=
  ⟨sound_of _ (by decide +kernel), sound_of _ (by decide +kernel), sound_of _ (by decide +kernel), by decide +kernel⟩

theorem witness_RateQuietAndPurgeTimersAct :
    let r := ctl (fun c => { c with state := .guarded, rate := some 0, rateCount := 3 }) calm
    let q := ctl (fun c => { c with state := .alert, quiet := some 0 }) calm
    let p := ctl (fun c => { c with state := .stopping, stop := some ⟨.orderly, .noFlow, .normal⟩, purge := some 0 }) calm
    Sound r ∧ Sound q ∧ Sound p ∧ (r.ctl 0).rate = some r.tick ∧ (q.ctl 0).quiet = some q.tick ∧
      (p.ctl 0).purge = some p.tick :=
  ⟨sound_of _ (by decide +kernel), sound_of _ (by decide +kernel), sound_of _ (by decide +kernel), by decide +kernel⟩

/-! ### Detectors -/

theorem witness_ChannelRequestsMoveTheChannel :
    let m := fun st n => calm.setChannel 0 { Channel.initial with state := st, clean := n }
    Sound calm ∧ Sound (m .isolated 0) ∧ Sound (m (.fault .stuck) 400) ∧ Sound (m (.fault .dead) 400) ∧
      calm.cfg.channels[0] = some ⟨0, 0, 100⟩ ∧ calm.keyClosed = true ∧ ((m .isolated 0).channel 0).state = .isolated ∧
      ((m (.fault .stuck) 400).channel 0).clean = 400 :=
  ⟨sound_calm, sound_of _ (by decide +kernel), sound_of _ (by decide +kernel), sound_of _ (by decide +kernel),
    by decide +kernel⟩

/-- Codes at the threshold and one below it, below the live floor, a low count about to be full, and both channels of the station. -/
theorem witness_StationSamplesReachTheirChannels :
    (Sound calm ∧ SampleDue calm (.station 0 0) ∧ ¬SampleDue (calm.tookSample (.station 0 0)) (.station 0 0)) ∧
      (stationChannels calm.cfg 0 0)[(0 : Fin 4).val]? = some 0 ∧
      (stationChannels calm.cfg 0 0)[(1 : Fin 4).val]? = some 1 ∧ thresholdOf calm 0 0 = 100 ∧
      (calm.channel 0).state = .active ∧ (calm.channel 5).state = .unused ∧
      min 400 ((calm.setChannel 0 { Channel.initial with low := 399 }).channel 0).low = 399 ∧
      ((calm.setChannel 0 { Channel.initial with state := .isolated }).channel 0).state ≠ .active ∧
      0 < (calm.ductCfg 0).base.stuckLimit ∧ faultAfter calm 0 0 100 = none ∧
      faultAfter (calm.setChannel 0 { Channel.initial with state := .active, run := 15999 }) 0 0 100 = some .stuck ∧
      faultAfter (calm.setChannel 0 { Channel.initial with state := .active, low := 399 }) 0 0 7 = some .dead ∧
      faultAfter (calm.setChannel 0 { Channel.initial with state := .active, low := 399 }) 0 0 8 = none ∧
      ((at_ .arming).ctl 0).state = .arming :=
  ⟨⟨sound_calm, due_of _ _ (by decide +kernel), not_due_of _ _ (by decide +kernel)⟩, by decide +kernel⟩

/-- Block 0 FILLING for station 0 of duct 0, with so many samples to come, the confirmation one tick ago. -/
def filling (left : Nat) (s : State) : State :=
  let q := { s with tick := 1 }.setCaptures { Captures.initial with
    blocks := .filling (newCapture s ⟨0, 0, 0, 0, [0]⟩ .overflow 500 50) left :: List.replicate 15 .free,
    filling := Captures.initial.filling.set 0 (some 0), nextSeq := 1 }
  q.setStation 0 0 { q.station 0 0 with inFlight := true }

theorem capturesOk_filling : CapturesOk (filling 2 calm) ∧ CapturesOk (filling 1 calm) :=
  ⟨capturesOk_of _ (by decide +kernel), capturesOk_of _ (by decide +kernel)⟩

theorem witness_QuietSamplesChangeOnlyTheStation :
    (Sound calm ∧ SampleDue calm (.station 0 0) ∧ SampleDue (filling 1 calm) (.station 0 0)) ∧
      calm.captures.fillingOf 0 0 = none ∧ 0 < (calm.ductCfg 0).base.stuckLimit ∧
      stationChannels calm.cfg 0 0 = [0, 1] ∧
      (8 ≤ (8 : Code).toNat ∧ (8 : Code).toNat < thresholdOf calm 0 0) ∧ (99 : Code).toNat < thresholdOf calm 0 1 ∧
      (filling 1 calm).resetLow = false ∧ (filling 1 calm).captures.fillingOf 0 0 = some 0 :=
  ⟨⟨sound_calm, due_of _ _ (by decide +kernel), due_of _ _ (by decide +kernel)⟩, by decide +kernel⟩

/-- Channel 0 about to qualify with an origin of 0, whatever else goes on. -/
def about (s : State) : State := s.setChannel 0 { Channel.initial with state := .active, run := 1 }

/-- Both channels of station 0 over their threshold, and channel 0 alone. -/
def both : Vector Code 4 := #v[100, 100, 0, 0]

def alone : Vector Code 4 := #v[100, 99, 0, 0]

def isOriginDec (s : State) (d st : Fin 4) (codes : Vector Code 4) (o : Tick) : Decidable (IsOrigin s d st codes o) := by
  unfold IsOrigin
  infer_instance

/-- No valve installed on duct 0: every track of it is UNQUENCHED. -/
def dry (s : State) : State :=
  { s with cfg := { cfg with ducts := cfg.ducts.set 0 { cfg.ducts[0] with valves := DuctCfg.blank.valves } } }

/-- Eight tracks that fit no detection at station 0. -/
def full : List Track := (List.range 8).map fun i => spark (byteOf i)

/-- A track that a detection at station 0 with origin 0 fits, at the first tick of its window. -/
def fitting : Track := { spark 9 with stations := [⟨0, 300, 3000, 0, 3000⟩] }

/-- A detection's outcome before a track is in question: absorbed in dead time, an unconfirmed flash, and confirmed. -/
theorem witness_DetectionsMatchTrackOrFlood :
    let s := about calm
    let dead := s.setStation 0 0 { s.station 0 0 with dead := 1 }
    let end_ := fun codes => after (exec (.stationSampleEvent 0 0 codes true) s)
    Sound s ∧ Sound dead ∧ (SampleDue s (.station 0 0) ∧ SampleDue dead (.station 0 0)) ∧ 0 < (s.ductCfg 0).base.stuckLimit ∧
      qualifyingNow calm 0 0 both = [] ∧ qualifyingNow s 0 0 both = [0] ∧ 0 < (dead.station 0 0).dead ∧
      (s.station 0 0).dead = 0 ∧ ¬Coincides s 0 0 alone (end_ alone) ∧ Coincides s 0 0 both (end_ both) ∧
      IsOrigin s 0 0 both 0 :=
  ⟨sound_of _ (by decide +kernel), sound_of _ (by decide +kernel),
    ⟨due_of _ _ (by decide +kernel), due_of _ _ (by decide +kernel)⟩, by decide +kernel, by decide +kernel,
    by decide +kernel, by decide +kernel, by decide +kernel, by decide +kernel, by decide +kernel,
    @of_decide_eq_true _ (isOriginDec _ _ _ _ _) (by decide +kernel)⟩

/-- A confirmed detection that joins a track, the second of the list; and one that finds a full list, a flood running or not, at a
running duct and at an OFFLINE one. -/
theorem witness_DetectionsMatchOrFlood :
    let m := about (tracked [spark 1, fitting])
    let f := about (tracked full)
    let e := about (duct (fun D => { D with flood := some 5 }) (ctl (fun c => { c with state := .guarded }) (tracked full)))
    (Sound m ∧ Sound f ∧ Sound e ∧ SampleDue m (.station 0 0) ∧ SampleDue f (.station 0 0) ∧ SampleDue e (.station 0 0)) ∧
      (0 : Fin 4) ∉ fitting.matched ∧ (0 : Fin 4) ∉ (spark 1).matched ∧
      (spark 1).stations.all (fun x => decide (x.station ≠ 0)) = true ∧ fitting ∈ (m.duct 0).tracks ∧
      8 ≤ (f.duct 0).tracks.length ∧ (f.duct 0).flood = none ∧ (e.duct 0).flood = some 5 ∧ Tick.later 5 e.tick = true ∧
      (1 ≤ (f.ductCfg 0).floodTime ∧ (f.ductCfg 0).floodTime ≤ 60) ∧ (e.ctl 0).state.isRunning = true ∧
      (f.ctl 0).state = .offline ∧
      Coincides m 0 0 both (after (exec (.stationSampleEvent 0 0 both true) m)) ∧
      Coincides f 0 0 both (after (exec (.stationSampleEvent 0 0 both true) f)) ∧
      Coincides e 0 0 both (after (exec (.stationSampleEvent 0 0 both true) e)) :=
  ⟨⟨sound_of _ (by decide +kernel), sound_of _ (by decide +kernel), sound_of _ (by decide +kernel),
    due_of _ _ (by decide +kernel), due_of _ _ (by decide +kernel), due_of _ _ (by decide +kernel)⟩, by decide +kernel⟩

/-- A confirmed detection that becomes a track: QUENCHED at a duct that counts it, that comes to its shutdown threshold by it, and that
is OFFLINE; UNQUENCHED at a running duct and at an OFFLINE one, with the gate in the track. -/
theorem witness_DetectionsBecomeTracks :
    let counts := about (ctl (fun c => { c with state := .guarded, rateCount := 2 }) calm)
    let stops := about (ctl (fun c => { c with state := .guarded, rateCount := 3 }) calm)
    let bare := dry (about (ctl (fun c => { c with state := .guarded }) calm))
    let end_ := fun s : State => after (exec (.stationSampleEvent 0 0 both true) s)
    let made := fun s : State => ((end_ s).duct 0).tracks.map fun y => (y.quenched, y.gate.isSome)
    (Sound counts ∧ Sound stops ∧ Sound bare ∧ Sound (dry (about calm)) ∧ SampleDue counts (.station 0 0) ∧
      SampleDue stops (.station 0 0) ∧ SampleDue bare (.station 0 0) ∧ SampleDue (dry (about calm)) (.station 0 0)) ∧
      made counts = [(true, true)] ∧ made stops = [(true, true)] ∧ made (about calm) = [(true, true)] ∧
      made bare = [(false, true)] ∧ made (dry (about calm)) = [(false, true)] ∧
      (counts.ctl 0).state.counts = true ∧ min 255 ((counts.ctl 0).rateCount + 1) < (counts.effective 0).shutdown ∧
      (stops.effective 0).shutdown ≤ min 255 ((stops.ctl 0).rateCount + 1) ∧ (calm.ctl 0).state.counts = false ∧
      (calm.ctl 0).fireStopping = false ∧ (bare.ctl 0).state.isRunning = true ∧
      (∀ s ∈ [counts, stops, about calm, bare, dry (about calm)], Coincides s 0 0 both (end_ s)) :=
  ⟨⟨sound_of _ (by decide +kernel), sound_of _ (by decide +kernel), sound_of _ (by decide +kernel),
    sound_of _ (by decide +kernel), due_of _ _ (by decide +kernel), due_of _ _ (by decide +kernel),
    due_of _ _ (by decide +kernel), due_of _ _ (by decide +kernel)⟩, by decide +kernel⟩

/-- Confirmed detections at a duct whose FIRE-kind stop waits for its gate: a QUENCHED track, an UNQUENCHED one, and a full list. -/
theorem witness_DetectionsMeetAWaitingStop :
    let wet := about (closing calm)
    let bare := dry wet
    let crowded := about (closing (tracked full))
    let end_ := fun s : State => after (exec (.stationSampleEvent 0 0 both true) s)
    let made := fun s : State => ((end_ s).duct 0).tracks.map Track.quenched
    (Sound wet ∧ Sound bare ∧ Sound crowded ∧ SampleDue wet (.station 0 0) ∧ SampleDue bare (.station 0 0) ∧
      SampleDue crowded (.station 0 0)) ∧ made wet = [true] ∧ made bare = [false] ∧ 8 ≤ (crowded.duct 0).tracks.length ∧
      (crowded.duct 0).flood = none ∧
      ∀ s ∈ [wet, bare, crowded], (s.ctl 0).fireStopping = true ∧ Coincides s 0 0 both (end_ s) :=
  ⟨⟨sound_of _ (by decide +kernel), sound_of _ (by decide +kernel), sound_of _ (by decide +kernel),
    due_of _ _ (by decide +kernel), due_of _ _ (by decide +kernel), due_of _ _ (by decide +kernel)⟩, by decide +kernel⟩

/-! ### Velocity and tracks -/

theorem witness_VelocityMovesByItsTable :
    let v := fun (st : VelState) (n recovery : Nat) (hold : Option Tick) =>
      posted (duct (fun D => { D with vel := { D.vel with
        state := st, count := n, recovery := recovery, hold := hold, bounds := boundsFor (calm.ductCfg 0) st 0 .offline } })
          calm)
    Sound (v .failed 62 0 none) ∧ Sound (v .failed 63 6 none) ∧ Sound (v .failed 63 7 none) ∧ Sound (v .valid 63 0 none) ∧
      Sound (v .held 63 0 (some 0)) ∧ ((v .held 63 0 (some 0)).duct 0).vel.hold = some calm.tick ∧
      ((15 : Code).toNat < 16 ∧ ¬(16 : Code).toNat < 16) ∧ (4079 < (4080 : Code).toNat ∧ ¬4079 < (4079 : Code).toNat) :=
  ⟨sound_of _ (by decide +kernel), sound_of _ (by decide +kernel), sound_of _ (by decide +kernel),
    sound_of _ (by decide +kernel), sound_of _ (by decide +kernel), by decide +kernel⟩

/-- A sample and an update that are due, and none of either; and an update at a duct in each state, at a velocity that reaches Lmin
and at one that does not, the gate OPEN and in FAULT, the low-flow timer idle and running. -/
theorem witness_VelocityReachesTheDuct :
    let v := fun (st : DuctState) (code : Code) (g : GateState) =>
      let s := (calm.setGate 0 { Gate.initial with state := g }.withDrives)
      let q := ctl (fun c => { c with state := st, lowFlow := if st = .alert then some 9 else none }) s
      let w := posted (duct (fun D => { D with vel := { D.vel with
        state := .valid, count := 63, sum := 63 * code.toNat, bounds := boundsFor (calm.ductCfg 0) .valid 0 st } }) q)
      (w, after (exec (.velocityUpdate 0 code) w))
    let lmin := (calm.ductCfg 0).lmin
    let fast := fun st g => (v st 2000 g).2
    let slow := fun st => (v st 100 .opened).2
    (SampleDue calm (.transducer 0) ∧ (calm.duct 0).vel.count < 63 ∧
        ¬SampleDue (calm.tookSample (.transducer 0)) (.transducer 0)) ∧
      (Sound (v .starting 2000 .opened).1 ∧ Sound (v .arming 100 .opened).1 ∧ Sound (v .guarded 100 .opened).1 ∧
        Sound (v .alert 100 .opened).1 ∧ SampleDue (v .starting 2000 .opened).1 (.transducer 0)) ∧
      (lmin ≤ ((fast .starting .opened).duct 0).vel.value ∧ ((slow .starting).duct 0).vel.value < lmin) ∧
      ((fast .starting .opened).ctl 0).state = .arming ∧ ((fast .starting .fault).ctl 0).state = .starting ∧
      ((slow .starting).ctl 0).state = .starting ∧ ((fast .arming .opened).ctl 0).state = .arming ∧
      ((slow .guarded).ctl 0).lowFlow = some 12000 ∧ ((slow .alert).ctl 0).lowFlow = some 9 ∧
      ((fast .alert .opened).ctl 0).lowFlow = none ∧ ((fast .offline .opened).ctl 0).state = .offline :=
  ⟨⟨due_of _ _ (by decide +kernel), by decide +kernel, not_due_of _ _ (by decide +kernel)⟩,
    ⟨sound_of _ (by decide +kernel), sound_of _ (by decide +kernel), sound_of _ (by decide +kernel),
      sound_of _ (by decide +kernel), due_of _ _ (by decide +kernel)⟩, by decide +kernel⟩

theorem witness_ArrivalsAreNeverLate :
    (1 ≤ 1 ∧ 20000 ≤ 20000 ∧ 20 ≤ 20 ∧ 500 ≤ 500) ∧
    (valveEntry (calm.valveCfg 0 0) 0 0 0 0 (boundsFor (calm.ductCfg 0) .failed 0 .offline)).isSome = true ∧
    (stationEntry calm.cfg 0 1 0 0 (boundsFor (calm.cfg.ducts[0]) .valid 250 .guarded)).isSome = true ∧
    (gateEntry (calm.gateCfg 0) 0 0 (boundsFor (calm.ductCfg 0) .failed 0 .offline)).isSome = true ∧
    (50 ≤ calm.cfg.ducts[0].lmin ∧ calm.cfg.ducts[0].lmin ≤ 300) := by
  decide +kernel

theorem witness_TracksRetireAtTheirTick :
    Sound (tracked [spark 1]) ∧ Sound (tracked [spark 1, spark 2]) ∧ spark 1 ∈ ((tracked [spark 1]).duct 0).tracks ∧
      spark 1 ∈ ((tracked [spark 1, spark 2]).duct 0).tracks ∧ (spark 1).retire = (tracked [spark 1]).tick :=
  ⟨sound_of _ (by decide +kernel), sound_of _ (by decide +kernel), by decide +kernel⟩

/-! ### Valves and gates -/

/-- A window at its open tick and one that ends now, a flood and a test that end now. -/
theorem witness_ValveOutputsFollowTheirWindows :
    let ended := { spark 2 with valves := [⟨0, 0, 0, 0, 0, false⟩] }
    let s := duct (fun D => { D with flood := some 0, test := some ⟨0, 0⟩ }) (tracked [spark 1])
    Open s ∧ (s.duct 0).flood = some s.tick ∧ ⟨0, 0⟩ ∈ (s.duct 0).test ∧ s.wanted 0 0 = true ∧
      (tracked [ended]).wanted 0 0 = false ∧ (tracked [ended]).wanted 0 1 = false :=
  ⟨open_of _ (by decide +kernel), by decide +kernel⟩

theorem witness_TestValveOpensTheValve :
    Sound calm ∧ Sound (stopped ⟨.orderly, .lowFlow, .normal⟩) ∧ calm.keyClosed = true ∧ (calm.ctl 0).state = .offline ∧
      (calm.duct 0).tracks = [] ∧ (calm.valveCfg 0 0).installed = true ∧ (calm.duct 0).test = none :=
  ⟨sound_calm, sound_of _ (by decide +kernel), by decide +kernel⟩

/-- Valve 0 of duct 0 OPEN with its flow-confirm timer running out now. -/
def opened : State := calm.setValve 0 0 ⟨.opened, true, 0, some 0, false, false⟩

theorem witness_FlowSwitchConfirmsAnOpening :
    (Sound opened ∧ SampleDue opened (.flow 0 0) ∧ SampleDue calm (.flow 0 0) ∧ ¬SampleDue calm (.flow 0 1) ∧
      ¬SampleDue State.reset (.flow 0 0) ∧ ¬SampleDue (opened.tookSample (.flow 0 0)) (.flow 0 0)) ∧
      (opened.valve 0 0).flow ≠ true ∧ (opened.valve 0 0).state = .opened ∧ (opened.valve 0 0).timer.isSome = true ∧
      (calm.valve 0 0).timer = none :=
  ⟨⟨sound_of _ (by decide +kernel), due_of _ _ (by decide +kernel), due_of _ _ (by decide +kernel),
    not_due_of _ _ (by decide +kernel), not_due_of _ _ (by decide +kernel), not_due_of _ _ (by decide +kernel)⟩,
    by decide +kernel⟩

theorem witness_UnconfirmedOpeningFaultsTheValve :
    Sound opened ∧ (opened.valve 0 0).timer = some opened.tick ∧ (opened.valve 0 0).state = .opened :=
  ⟨sound_of _ (by decide +kernel), by decide +kernel⟩

/-- A track that turns UNQUENCHED by it: at a running duct with the gate in FAULT, where the decision is OUTRUN, with the gate OPEN and
time enough, where it is DIVERTED, and at an OFFLINE duct, with a gate in the track and without. -/
theorem witness_UnconfirmedOpeningDecidesOnTheGate :
    let leaks := fun (x : Track) (s : State) =>
      ctl (fun c => { c with listMark := true }) (duct (fun D => { D with tracks := [x] }) (s.setValve 0 0 (opened.valve 0 0)))
    let runs := fun s => ctl (fun c => { c with state := .guarded }) s
    let out := leaks (spark 1) (runs calm)
    let ends := leaks (spark 1) (runs (calm.setGate 0 { Gate.initial with state := .opened }))
    let turned := fun s : State => ((after (exec (.flowConfirmExpiry 0 0) s)).duct 0).tracks.map Track.quenched
    (Sound out ∧ Sound ends ∧ Sound (leaks (spark 1) calm) ∧ Sound (leaks { spark 1 with gate := none } calm) ∧
      Sound (leaks (spark 1) (closing calm)) ∧ Sound (closing opened)) ∧
      (spark 1).quenched = true ∧ turned out = [false] ∧ turned ends = [false] ∧ turned (leaks (spark 1) calm) = [false] ∧
      gateResult (out.gateCfg 0) (out.gate 0) out.tick (spark 1).gate = .outrun ∧
      gateResult (ends.gateCfg 0) (ends.gate 0) ends.tick (spark 1).gate = .diverted ∧
      (out.ctl 0).state.isRunning = true ∧ ((leaks (spark 1) calm).ctl 0).state = .offline ∧
      turned (leaks (spark 1) (closing calm)) = [false] ∧ turned (closing opened) = [] ∧ ((leaks (spark 1) (closing calm)).ctl 0).fireStopping = true ∧
      ((closing opened).ctl 0).fireStopping = true := by
  refine ⟨⟨?_, ?_, ?_, ?_, ?_, ?_⟩, by decide +kernel⟩
  all_goals exact sound_of _ (by decide +kernel)

/-- Gate 0 in a stroke that ends now, at a duct in a state. -/
def stroke (st : GateState) (f : Ctl → Ctl) : State :=
  ctl f (calm.setGate 0 { Gate.initial with state := st, timer := some 0 }.withDrives)

theorem witness_GateSwitchEndsItsStroke :
    let s := stroke .closing waitsForGate
    let o := stroke .opening fun c => { c with state := .starting }
    (Sound s ∧ Sound o ∧ SampleDue s (.gate 0 .closedSwitch) ∧ SampleDue o (.gate 0 .openSwitch) ∧
      ¬SampleDue calm (.gate 1 .openSwitch) ∧ ¬SampleDue (s.tookSample (.gate 0 .closedSwitch)) (.gate 0 .closedSwitch)) ∧
      (s.gate 0).switch .closedSwitch ≠ true ∧
      (s.gate 0).state = .closing ∧ (s.ctl 0).fireStopping = true ∧ (o.gate 0).state = .opening ∧
      (o.ctl 0).fireStopping = false ∧ (calm.gate 0).state = .fault :=
  ⟨⟨sound_of _ (by decide +kernel), sound_of _ (by decide +kernel), due_of _ _ (by decide +kernel),
    due_of _ _ (by decide +kernel), not_due_of _ _ (by decide +kernel), not_due_of _ _ (by decide +kernel)⟩,
    by decide +kernel⟩

/-- The other switch of a stroke turns active, and an awaited switch that was active turns inactive. -/
theorem witness_OtherSwitchesKeepTheStroke :
    let s := stroke .closing waitsForGate
    let o := stroke .opening fun c => { c with state := .starting }
    let shut := s.setGate 0 { s.gate 0 with closedSwitch := true }
    let open_ := o.setGate 0 { o.gate 0 with openSwitch := true }
    (Sound s ∧ Sound o ∧ SampleDue s (.gate 0 .openSwitch) ∧ SampleDue o (.gate 0 .closedSwitch)) ∧
      (Working shut ∧ ZonesOk shut ∧ PostedOk shut ∧ SampleDue shut (.gate 0 .closedSwitch)) ∧
      (Working open_ ∧ ZonesOk open_ ∧ PostedOk open_ ∧ SampleDue open_ (.gate 0 .openSwitch)) ∧
      (s.gate 0).switch .openSwitch ≠ true ∧ (o.gate 0).switch .closedSwitch ≠ true ∧
      ((s.gate 0).withSwitch .openSwitch true).closedSwitch = false ∧
      ((o.gate 0).withSwitch .closedSwitch true).openSwitch = false ∧
      ((shut.gate 0).switch .closedSwitch ≠ false ∧ ((shut.gate 0).withSwitch .closedSwitch false).closedSwitch = false) ∧
      ((open_.gate 0).switch .openSwitch ≠ false ∧ ((open_.gate 0).withSwitch .openSwitch false).openSwitch = false) :=
  ⟨⟨sound_of _ (by decide +kernel), sound_of _ (by decide +kernel), due_of _ _ (by decide +kernel),
    due_of _ _ (by decide +kernel)⟩,
    ⟨@of_decide_eq_true _ (workingDec _) (by decide +kernel), @of_decide_eq_true _ (zonesDec _) (by decide +kernel),
      @of_decide_eq_true _ (postedDec _) (by decide +kernel), due_of _ _ (by decide +kernel)⟩,
    ⟨@of_decide_eq_true _ (workingDec _) (by decide +kernel), @of_decide_eq_true _ (zonesDec _) (by decide +kernel),
      @of_decide_eq_true _ (postedDec _) (by decide +kernel), due_of _ _ (by decide +kernel)⟩, by decide +kernel⟩

theorem witness_OverdueStrokeFaultsTheGate :
    let s := stroke .closing waitsForGate
    let o := stroke .opening fun c => { c with state := .starting }
    let g := stroke .closing fun c => { c with state := .guarded }
    Sound s ∧ Sound o ∧ Sound g ∧ (s.gate 0).timer = some s.tick ∧ (o.gate 0).timer = some o.tick ∧
      (s.ctl 0).fireStopping = true ∧ (o.ctl 0).state = .starting ∧ (g.ctl 0).fireStopping = false ∧
      (s.gate 0).troubleMark = false :=
  ⟨sound_of _ (by decide +kernel), sound_of _ (by decide +kernel), sound_of _ (by decide +kernel), by decide +kernel⟩

/-! ### Overlays, doors, sirens -/

/-- A stack with room for one entry, whose entries expire now; the limits of the ranges. -/
theorem witness_OverlaysPushPopAndExpire :
    let e : Overlay := ⟨.pc, 0, ⟨1023, 16, 0, 0, 0, 60⟩⟩
    let s := duct (fun D => { D with overlays := [e, e, e] }) calm
    Sound s ∧ Sound calm ∧ (s.duct 0).overlays.length < 4 ∧ (s.zone (ductZone 0)).level.atLeast .alarm = false ∧
      (calm.duct 0).overlays.head? = none ∧ (s.duct 0).overlays.head? = some e ∧ e.owner = .pc ∧
      (s.duct 0).overlays[(s.duct 0).overlays.length - 1 - (2 : Fin 4).val]? = some e ∧
      (2 : Fin 4).val < (s.duct 0).overlays.length ∧ e.expiry = s.tick ∧
      ((1023 : Word16).toNat ≤ 1023 ∧ 1 ≤ (1 : Byte).toNat ∧ (16 : Byte).toNat ≤ 16 ∧ (60 : Word16).toNat ≤ 60) :=
  ⟨sound_of _ (by decide +kernel), sound_calm, by decide +kernel⟩

theorem witness_HoldDoorHoldsTheDoor :
    let h := door (fun x => { x with state := .held, holdPc := some 9 }) calm
    let w := door (fun x => { x with state := .releaseWait, cause := some .closeRequest, obstruction := some 9, barrier := true }) calm
    Sound calm ∧ Sound h ∧ Sound w ∧ (calm.door 0).state = .free ∧ (h.door 0).state = .held ∧
      (w.door 0).state = .releaseWait ∧
      ∀ z : Fin 16, zoneIn calm.cfg.doors[0].zones z = true →
        (calm.zone z).level ≠ .fire ∧ (calm.cfg.doors[0].closeOnAlarm = true → (calm.zone z).level ≠ .alarm) :=
  ⟨sound_calm, sound_of _ (by decide +kernel), sound_of _ (by decide +kernel), by decide +kernel⟩

/-- One hold and two, expiring now; every other state of a door. -/
theorem witness_DoorsAreLetGo :
    let one := door (fun x => { x with state := .held, holdFp := some 0 }) calm
    let two := door (fun x => { x with state := .held, holdFp := some 0, holdPc := some 9 }) calm
    let w := fun c => door (fun x => { x with state := .releaseWait, cause := some c, obstruction := some 9, barrier := true }) calm
    Sound one ∧ Sound two ∧ Sound (w .holdExpired) ∧ Sound (w .zoneFire) ∧ (one.door 0).holdFp = some one.tick ∧
      (one.door 0).holdPc = none ∧ (two.door 0).holdPc.isSome = true ∧ (calm.door 0).holdFp = none ∧
      (calm.door 0).state = .free :=
  ⟨sound_of _ (by decide +kernel), sound_of _ (by decide +kernel), sound_of _ (by decide +kernel),
    sound_of _ (by decide +kernel), by decide +kernel⟩

theorem witness_DoorInputsMoveTheDoor :
    let m := fun st t c => door (fun x => { x with state := st, cause := c, close := t, closedSwitch := false }) calm
    let w := door (fun x =>
      { x with state := .releaseWait, cause := some .closeRequest, obstruction := some 9, barrier := true }) calm
    let h := door (fun x => { x with state := .held, holdFp := some 9 }) calm
    (Sound (m .closing (some 9) (some .zoneFire)) ∧ Sound (m .stuck none (some .zoneFire)) ∧ Sound (m .free none none) ∧
      Sound h ∧ Sound w) ∧
      (SampleDue (m .closing (some 9) (some .zoneFire)) (.closedSwitch 0) ∧ SampleDue w (.barrier 0) ∧
        ¬SampleDue { w with tick := 1 } (.barrier 0) ∧ ¬SampleDue { w with tick := 1 } (.closedSwitch 0)) ∧
      ((m .closing (some 9) (some .zoneFire)).door 0).closedSwitch ≠ true ∧ (w.door 0).barrier ≠ false ∧ (w.door 0).state = .releaseWait :=
  ⟨⟨sound_of _ (by decide +kernel), sound_of _ (by decide +kernel), sound_of _ (by decide +kernel),
    sound_of _ (by decide +kernel), sound_of _ (by decide +kernel)⟩,
    ⟨due_of _ _ (by decide +kernel), due_of _ _ (by decide +kernel), not_due_of _ _ (by decide +kernel),
      not_due_of _ _ (by decide +kernel)⟩, by decide +kernel⟩

theorem witness_DoorTimersSuperviseTheDoor :
    let o := door (fun x => { x with state := .releaseWait, cause := some .zoneFire, obstruction := some 0, barrier := true }) calm
    let c := door (fun x => { x with state := .closing, cause := some .zoneFire, close := some 0, closedSwitch := false }) calm
    let p := door (fun x => { x with state := .free, propped := some 0, closedSwitch := false }) calm
    Sound o ∧ Sound c ∧ Sound p ∧ (o.door 0).obstruction = some o.tick ∧ (c.door 0).close = some c.tick ∧
      (p.door 0).propped = some p.tick ∧ c.cfg.doors[0].zones ≠ 0 :=
  ⟨sound_of _ (by decide +kernel), sound_of _ (by decide +kernel), sound_of _ (by decide +kernel), by decide +kernel⟩

/-- Siren 0 with contributions of its own, all ending now, and its demand, sound and drive as they follow. -/
def sounding : State :=
  let x : Siren := ⟨some .evacuate, some ⟨.evacuate, 0⟩, some ⟨.alert, 0⟩, 0, some 0, some 0, true, true⟩
  calm.setArbiter { Arbiter.initial with
    sirens := Arbiter.initial.sirens.set 0 x, units := 2, slot := some 0, cadence := some 0, mark := some 1 }

theorem witness_SirenRequestsChangeContributions :
    Sound calm ∧ Sound sounding ∧ (1 : Byte) ≠ 0 ∧ sirenIn 1 0 = true ∧
      (sounding.arbiter.sirens[0].manual .pc).isSome = true ∧ calm.keyClosed = true ∧
      ∀ z : Fin 16, calm.arbiter.view[z].level.atLeast .alarm = false :=
  ⟨sound_calm, sound_of _ (by decide +kernel), by decide +kernel⟩

/-- The yard of section 9.9: eight sirens under a budget of 6, of which `on` ask for EVACUATE and siren 3 for ALERT. -/
def yard (pointer : Fin 8) (on : List Nat) : State :=
  let weights : Vector SirenCfg 8 := #v[⟨0, 2⟩, ⟨0, 2⟩, ⟨0, 3⟩, ⟨0, 1⟩, ⟨0, 2⟩, ⟨0, 1⟩, ⟨0, 3⟩, ⟨0, 2⟩]
  let asks : Vector Siren 8 := Vector.ofFn fun i =>
    { Siren.initial with manualFp := if i.val ∈ on then some ⟨.evacuate, 9⟩ else if i.val = 3 then some ⟨.alert, 9⟩ else none }
  seen ({ calm with cfg := { cfg with budget := 6, sirens := weights } }.setArbiter
    { Arbiter.initial with sirens := asks, pointer := pointer })

/-- Grants that the rotation decides, from pointers 0, 5 and 2, with the mark behind the last one granted; and a class that fully fits over
one that does. -/
theorem witness_GrantsAreEvaluated :
    let sounds := fun s : State => (List.finRange 8).filter fun i => s.arbiter.sirens[i].sounding
    (Sound (yard 0 [1, 4, 6]) ∧ Sound (yard 5 [1, 4, 6]) ∧ Sound (yard 2 [1, 4, 6]) ∧ Sound (yard 0 [1, 4])) ∧
      (sounds (yard 0 [1, 4, 6]) = [1, 4] ∧ (yard 0 [1, 4, 6]).arbiter.mark = some 5) ∧
      (sounds (yard 5 [1, 4, 6]) = [1, 6] ∧ (yard 5 [1, 4, 6]).arbiter.mark = some 2) ∧
      (sounds (yard 2 [1, 4, 6]) = [4, 6] ∧ (yard 2 [1, 4, 6]).arbiter.mark = some 7) ∧
      (sounds (yard 0 [1, 4]) = [1, 3, 4] ∧ (yard 0 [1, 4]).arbiter.mark = none ∧ (yard 0 [1, 4]).arbiter.slot = none) ∧
      weightTo (yard 0 [1, 4, 6]).cfg (yard 0 [1, 4, 6]).arbiter .evacuate = 7 ∧
      weightAbove (yard 0 [1, 4, 6]).cfg (yard 0 [1, 4, 6]).arbiter .alert = 7 ∧
      ((after (exec (.stopSound .fp 1 0x40) (yard 0 [1, 4, 6]))).arbiter.sirens[6].demand ≠
        (yard 0 [1, 4, 6]).arbiter.sirens[6].demand) ∧
      ∀ i : Fin 8, (after (exec (.soundSiren .fp 1 2 0 5) (yard 0 [1, 4, 6]))).arbiter.sirens[i].demand =
        (yard 0 [1, 4, 6]).arbiter.sirens[i].demand :=
  ⟨⟨sound_of _ (by decide +kernel), sound_of _ (by decide +kernel), sound_of _ (by decide +kernel),
    sound_of _ (by decide +kernel)⟩, by decide +kernel⟩

theorem witness_SirenTimersAct :
    Sound sounding ∧ (⟨.evacuate, 0⟩ : Manual) ∈ sounding.arbiter.sirens[0].manual .fp ∧
      sounding.arbiter.sirens[0].allClear = some sounding.tick ∧ sounding.arbiter.sirens[0].test = some sounding.tick ∧
      sounding.arbiter.slot = some sounding.tick ∧ sounding.arbiter.cadence = some sounding.tick :=
  ⟨sound_of _ (by decide +kernel), by decide +kernel⟩

/-! ### Captures, store and start-up -/

/-- One stored record in block 0. -/
def recorded : State :=
  calm.setCaptures { Captures.initial with
    blocks := .stored (newCapture calm ⟨0, 0, 0, 0, [0]⟩ .overflow 500 50) :: List.replicate 15 .free, stored := [0],
    nextSeq := 1 }

theorem capturesOk_recorded : CapturesOk recorded := capturesOk_of _ (by decide +kernel)

theorem witness_CapturesAreFreedAndLaidOut :
    Sound recorded ∧ CapturesOk recorded ∧ (1 ≤ (1 : Byte).toNat ∧ (1 : Byte).toNat ≤ recorded.captures.stored.length) ∧
      recorded.captures.oldestSequence = some 0 ∧ recorded.keyClosed = true ∧
      ((64 : Byte).toNat ≤ 64 ∧ (448 : Word16).toNat ≤ 448 ∧ (64 : Byte).toNat + (448 : Word16).toNat ≤ blockSize 0) ∧
      ∀ x ∈ recorded.captures.blocks, x.isFilling = false :=
  ⟨sound_of _ (by decide +kernel), capturesOk_recorded, by decide +kernel⟩

/-- A detection that starts a capture with a FREE block, becoming a track, joining one and finding a full list; one that finds no FREE
block; a capture that goes on, with an absorbed detection beside it, and one that comes to its last sample. -/
theorem witness_CapturesFollowTheirStation :
    let stored := Block.stored (newCapture calm ⟨0, 0, 0, 0, [0]⟩ .overflow 500 50)
    let noRoom := (about calm).setCaptures { Captures.initial with
      blocks := List.replicate 16 stored, stored := List.range 16 }
    let end_ := fun s : State => after (exec (.stationSampleEvent 0 0 both true) s)
    let busy := filling 2 (about calm)
    let dead := busy.setStation 0 0 { busy.station 0 0 with dead := 1 }
    (CapturesOk (about calm) ∧ CapturesOk noRoom ∧ CapturesOk (filling 2 calm) ∧ CapturesOk (filling 1 calm) ∧
      SampleDue (about calm) (.station 0 0) ∧ SampleDue noRoom (.station 0 0) ∧ SampleDue dead (.station 0 0) ∧
      SampleDue (filling 1 calm) (.station 0 0)) ∧
      ((about calm).captures.fillingOf 0 0 = none ∧ (about calm).captures.blocks[0]? = some .free ∧
        (end_ (about calm)).captures.fillingOf 0 0 = some 0) ∧
      (end_ (about (tracked [fitting]))).captures.fillingOf 0 0 = some 0 ∧
      (end_ (about (tracked full))).captures.fillingOf 0 0 = some 0 ∧
      ((∀ x ∈ noRoom.captures.blocks, x ≠ .free) ∧ (end_ noRoom).captures.lost = true) ∧
      (qualifyingNow dead 0 0 both = [0] ∧ 0 < (dead.station 0 0).dead ∧ dead.captures.fillingOf 0 0 = some 0) ∧
      (∀ r ∈ (dead.captures.block 0).record, Tick.later dead.tick r.confirm = true) ∧
      ((filling 1 calm).captures.block 0).record.isSome = true :=
  ⟨⟨capturesOk_of _ (by decide +kernel), capturesOk_of _ (by decide +kernel), capturesOk_filling.1, capturesOk_filling.2,
    due_of _ _ (by decide +kernel), due_of _ _ (by decide +kernel), due_of _ _ (by decide +kernel),
    due_of _ _ (by decide +kernel)⟩, by decide +kernel⟩

/-- A capture at its last sample beside a confirmed detection, the sample taken first: with a FREE block, and with none; and one at which
the stored count comes to the ready threshold. -/
theorem witness_LastSamplesBesideADetection :
    let stored := Block.stored (newCapture calm ⟨0, 0, 0, 0, [0]⟩ .overflow 500 50)
    let free := filling 1 (about calm)
    let last := (free.captures.block 0)
    let noRoom := free.setCaptures { free.captures with
      blocks := last :: List.replicate 15 stored, stored := (List.range 15).map (· + 1) }
    let ready := free.setCaptures { free.captures with blocks := last :: stored :: List.replicate 14 .free, stored := [1] }
    let end_ := fun s : State => after (exec (.stationSampleEvent 0 0 both true) s)
    (Sound free ∧ Sound noRoom ∧ Sound ready ∧ CapturesOk free ∧ CapturesOk noRoom ∧ CapturesOk ready) ∧
      (∀ r ∈ last.record, last = .filling r 1 ∧ Tick.later free.tick r.confirm = true) ∧ last.record.isSome = true ∧
      (free.captures.blocks[(1 : Fin 64).val]? = some .free ∧ ∀ x ∈ free.captures.blocks.take 1, x ≠ .free) ∧
      ((∀ x ∈ noRoom.captures.blocks, x ≠ .free) ∧ noRoom.captures.lost = false) ∧
      ready.captures.stored.length + 1 = min ready.cfg.readyThreshold (blockCount ready.captures.layout) ∧
      IsOrigin free 0 0 both 0 ∧
      ∀ s ∈ [free, noRoom, ready], SampleDue s (.station 0 0) ∧ s.captures.fillingOf 0 0 = some 0 ∧
        qualifyingNow s 0 0 both = [0] ∧ (s.station 0 0).dead = 0 ∧ Coincides s 0 0 both (end_ s) := by
  refine ⟨⟨sound_of _ (by decide +kernel), sound_of _ (by decide +kernel), sound_of _ (by decide +kernel),
    capturesOk_of _ (by decide +kernel), capturesOk_of _ (by decide +kernel), capturesOk_of _ (by decide +kernel)⟩,
    by decide +kernel, by decide +kernel, by decide +kernel, by decide +kernel, by decide +kernel,
    @of_decide_eq_true _ (isOriginDec _ _ _ _ _) (by decide +kernel), fun s hs => ?_⟩
  simp only [List.mem_cons, List.not_mem_nil, or_false] at hs
  obtain rfl | rfl | rfl := hs <;> exact ⟨due_of _ _ (by decide +kernel), by decide +kernel⟩

theorem witness_StoreWritesFillOnePage :
    let w : StoreWrite := ⟨4064, Vector.replicate 32 1, 0⟩
    let s : State := { calm.setPort .sv { PortUnit.initial with waiting := some ⟨codeWriteStore, 1⟩ } with
      loader := { calm.loader with write := some w } }
    (Sound calm ∧ calm.keyClosed = true ∧ (4064 : Word16).toNat ≤ 4064 ∧ (4064 : Word16).toNat % 32 = 0 ∧
      calm.loader.state ≠ .loading ∧ calm.loader.write = none) ∧
    (State.reset.keyClosed = false ∧ TakesFrame State.reset .sv ∧ StoreOk State.reset ∧ State.reset.loader.state = .loading) ∧
    ((4064 : Word16).toNat + 1 = (4065 : Word16).toNat ∧ (33 : Word16).toNat % 32 ≠ 0 ∧ s.keyClosed = true ∧
      TakesFrame { s with ports := calm.ports } .sv ∧ { s with ports := calm.ports }.loader.write.isSome = true) ∧
    (s.resetLow = false ∧ StoreOk s ∧ s.loader.write = some w ∧ w.due = s.tick ∧ (s.port .sv).waiting.isSome = true) :=
  ⟨⟨sound_calm, by decide +kernel⟩,
    ⟨by decide +kernel, takes_of _ _ (by decide +kernel), store_of _ (by decide +kernel), rfl⟩,
    ⟨by decide, by decide, by decide +kernel, takes_of _ _ (by decide +kernel), by decide +kernel⟩,
    by decide +kernel, store_of _ (by decide +kernel), by decide +kernel⟩

/-- A region of the image from `base` to before `next`: a count byte, then sections that repeat one pattern. -/
def region (base next : Nat) (count : Byte) (pattern : List Byte) (n : Nat) (rest : Byte) : Byte :=
  if n < next then (if n = base then count else pattern.getD ((n - (base + 1)) % pattern.length) 0) else rest

/-- The bytes of a smallest sound image up to its last section: no input mapped, no channel assigned, nothing installed, every door
at zone 5 (R192). -/
def imageByte (n : Nat) : Byte :=
  if n < 3 then [0x43, 0x58, 1].getD n 0
  else region 3 16 12 [1] n (region 16 49 8 [255, 1, 50, 0] n (region 49 98 16 [255, 1, 0] n (region 98 131 16 [255] n
    (region 131 156 4 [100, 0, 0, 0, 50, 0] n
    (region 156 257 4 [0, 0, 0, 0, 0, 100, 0, 100, 0, 0, 0, 0, 0, 0, 100, 0, 100, 0, 0, 0, 0, 100, 0, 1, 0] n
    (region 257 266 4 [0] n (region 266 307 4 [0, 0, 5, 0, 0, 0, 1, 0, 5, 0] n
    (region 307 348 4 [1, 0, 0, 1, 0, 0, 0, 0, 1, 0] n (region 348 457 12 [32, 0, 0, 0, 0, 5, 0, 10, 0] n
    (region 457 463 1 [1, 1, 0, 5, 0] n (region 463 488 8 [0, 0, 1] n (region 488 494 1 [0, 0, 1, 0, 1] n
    (region 494 507 3 [0, 1, 10, 0] n 255)))))))))))))

/-- The same bytes with layout 2, whose blocks hold 128 words, and 129 post-trigger samples. -/
def imageUnfit (n : Nat) : Byte := if n = 489 then 2 else if n = 491 then 129 else imageByte n

/-- Bytes as cells from an address on. -/
def cellsFrom (a : Nat) : List Byte → List Host.Cell
  | [] => []
  | b :: rest => (a, b) :: cellsFrom (a + 1) rest

/-- Cells with a CRC field behind them that matches them. -/
def sealed (m : List Host.Cell) : List Host.Cell :=
  let c := crc16 (readBytes m 0 1022)
  m ++ [(1022, c.truncate 8), (1023, (c >>> 8).truncate 8)]

theorem readCell_append (m t : List Host.Cell) (a : Nat) (h : ∀ c ∈ t, a < c.1) :
    readCell (m ++ t) a = readCell m a := by
  induction m with
  | nil =>
    cases t with
    | nil => rfl
    | cons c rest =>
      have := h c (by simp)
      have h1 : c.1 ≠ a := by omega
      simp [readCell, h1, this]
  | cons c rest ih => simp only [List.cons_append, readCell, ih]

theorem readCell_sealed (m : List Host.Cell) (a : Nat) (h : a < 1022) : readCell (sealed m) a = readCell m a :=
  readCell_append m _ a fun c hc => by
    simp only [List.mem_cons, List.not_mem_nil, or_false] at hc
    rcases hc with rfl | rfl
    · exact h
    · exact Nat.lt_succ_of_lt h

/-- A word is its high byte before its low byte. -/
theorem bytes_of_word (c : Word16) : ((c >>> 8).truncate 8 ++ c.truncate 8 : BitVec 16) = c := by
  apply BitVec.eq_of_getLsbD_eq
  intro i hi
  rw [BitVec.getLsbD_append]
  by_cases h : i < 8
  · simp [h]
  · have h1 : i - 8 < 8 := by omega
    have h2 : 8 + (i - 8) = i := by omega
    simp [h, h1, h2]

theorem readCell_field (l : List Host.Cell) (x y : Byte) (hl : ∀ c ∈ l, c.1 < 1022) :
    readCell (l ++ [(1022, x), (1023, y)]) 1022 = x ∧ readCell (l ++ [(1022, x), (1023, y)]) 1023 = y := by
  induction l with
  | nil => exact ⟨rfl, rfl⟩
  | cons c rest ih =>
    have h1 : c.1 < 1022 := hl c (by simp)
    have h2 := ih fun d hd => hl d (by simp [hd])
    have e1 : c.1 ≠ 1022 := by omega
    have e2 : c.1 ≠ 1023 := by omega
    have e3 : ¬ 1022 < c.1 := by omega
    have e4 : ¬ 1023 < c.1 := by omega
    simp [readCell, e1, e2, e3, e4, h2]

/-- The CRC of a sealed image matches its field, where its other cells stand below the field. -/
theorem crc_sealed (m : List Host.Cell) (h : ∀ c ∈ m, c.1 < 1022) :
    crc16 (readBytes (sealed m) 0 1022) = imageCrcField (sealed m) := by
  have hb : readBytes (sealed m) 0 1022 = readBytes m 0 1022 := by
    unfold readBytes
    refine List.map_congr_left fun i hi => readCell_sealed m (0 + i) ?_
    have := List.mem_range.mp hi
    omega
  rw [hb]
  unfold imageCrcField wordOf sealed
  generalize crc16 (readBytes m 0 1022) = c
  obtain ⟨h1, h2⟩ := readCell_field m (c.truncate 8) ((c >>> 8).truncate 8) h
  rw [h1, h2, bytes_of_word]

theorem readCell_cellsFrom (l : List Byte) (a i : Nat) :
    readCell (cellsFrom a l) (a + i) = l[i]?.getD unlistedByte := by
  induction l generalizing a i with
  | nil => rfl
  | cons b rest ih =>
    cases i with
    | zero => simp [cellsFrom, readCell]
    | succ j =>
      have h1 : a ≠ a + (j + 1) := by omega
      have h2 : ¬ a + (j + 1) < a := by omega
      have h3 : a + (j + 1) = a + 1 + j := by omega
      simp only [cellsFrom, readCell, h1, h2, if_false, List.getElem?_cons_succ]
      rw [h3, ih]

/-- The sealed image of a store whose bytes 0 to 506 are these. -/
def imageWith (f : Nat → Byte) : List Host.Cell := sealed (cellsFrom 0 ((List.range 507).map f))

/-- A byte of the sealed image below its CRC field. -/
theorem bytes_imageWith (f : Nat → Byte) :
    Machine.imageByte (imageWith f) =
      fun i => if i < 507 then (f i).toNat else if i < 1022 then 255 else Machine.imageByte (imageWith f) i := by
  funext i
  by_cases h : i < 1022
  · have h1 := readCell_cellsFrom ((List.range 507).map f) 0 i
    rw [Nat.zero_add] at h1
    simp only [h, if_true, Machine.imageByte, imageWith]
    rw [readCell_sealed _ i h, h1]
    by_cases hi : i < 507
    · simp [hi]
    · simp [hi, unlistedByte]
  · have hi : ¬ i < 507 := by omega
    simp [h, hi]

/-- The CRC of a sealed image does not fail. -/
theorem crc_holds (m : List Host.Cell) (h : ∀ c ∈ m, c.1 < 1022) : ¬CheckFails (sealed m) .crc := by
  have := crc_sealed m h
  simp only [readBytes, Nat.zero_add] at this
  exact fun fails => fails this

theorem cells_below (f : Nat → Byte) : ∀ c ∈ cellsFrom 0 ((List.range 507).map f), c.1 < 1022 := by
  have general (l : List Byte) (a : Nat) : ∀ c ∈ cellsFrom a l, c.1 < a + l.length := by
    induction l generalizing a with
    | nil => simp [cellsFrom]
    | cons b rest ih =>
      intro c hc
      rcases List.mem_cons.mp hc with rfl | hc
      · simp
      · have := ih (a + 1) c hc
        simp only [List.length_cons]
        omega
  intro c hc
  have := general _ 0 c hc
  simp at this
  omega

/-- An image with a right CRC and a wrong magic number. -/
theorem wrongMagic : FirstFailing (sealed []) .magic := by
  refine ⟨.inl (by decide +kernel), fun c h => ?_⟩
  cases c
  case crc => exact crc_holds [] (by simp)
  all_goals exact absurd h (by decide)

/-- The values of such an image lie in their ranges. -/
theorem values_in_range (f : Nat → Byte) (hf : f = imageByte ∨ f = imageUnfit) : ValuesInRange (imageWith f) := by
  dsimp only [ValuesInRange, imageWord]
  rw [bytes_imageWith]
  obtain rfl | rfl := hf
  all_goals
    repeat' apply And.intro
    all_goals decide +kernel

/-- A sound image: no check fails. -/
theorem sound_image : ∀ c : CheckCode, ¬CheckFails (imageWith imageByte) c := by
  intro c
  cases c
  case crc => exact crc_holds _ (cells_below _)
  case fieldRange => exact fun fails => fails (values_in_range _ (.inl rfl))
  all_goals
    dsimp only [CheckFails, imageWord]
    rw [bytes_imageWith]
    decide +kernel

/-- An image that fails the last check by one word and none before it. -/
theorem unfit_image : FirstFailing (imageWith imageUnfit) .captureFit := by
  refine ⟨?_, fun c h => ?_⟩
  · dsimp only [CheckFails, imageWord]
    rw [bytes_imageWith]
    decide +kernel
  · cases c
    case crc => exact crc_holds _ (cells_below _)
    case fieldRange => exact fun fails => fails (values_in_range _ (.inr rfl))
    case captureFit => exact absurd h (by decide)
    all_goals
      dsimp only [CheckFails, imageWord]
      rw [bytes_imageWith]
      decide +kernel

/-- Both outcomes of a load at tick 1024; the state for an accepted RESTART; and its refusals: a write in progress, a zone at FIRE, a
running duct. -/
theorem witness_LoadEndsRunningOrSafe :
    let s := fun m => { State.reset with tick := 1024, store := m }
    ((s []).resetLow = false ∧ (s []).loader.state = .loading ∧ FirstFailing (s (sealed [])).store .magic ∧
      FirstFailing (s (imageWith imageUnfit)).store .captureFit) ∧
    ((∀ c : CheckCode, ¬CheckFails (s (imageWith imageByte)).store c) ∧ QuietOk (s (imageWith imageByte))) ∧
    (Sound calm ∧ calm.loader.write = none ∧ (∀ z : Fin 16, (calm.zone z).level ≠ .fire) ∧
      ∀ d : Fin 4, (calm.ctl d).state = .offline ∨ (calm.ctl d).state = .stopped) ∧
    (TakesFrame { calm with loader := { calm.loader with write := some ⟨0, Vector.replicate 32 0, 9⟩ } } .fp ∧
      TakesFrame (zone5 (.declaration .fp) .fire true ⟨false, false⟩ calm) .fp ∧
      ((zone5 (.declaration .fp) .fire true ⟨false, false⟩ calm).zone 5).level = .fire ∧
      TakesFrame (at_ .guarded) .fp ∧ ((at_ .guarded).ctl 0).state = .guarded) :=
  ⟨⟨rfl, rfl, wrongMagic, unfit_image⟩, ⟨sound_image, fun _ => ⟨rfl, rfl, rfl, rfl, rfl, rfl, rfl, rfl, rfl⟩⟩,
    ⟨sound_calm, by decide +kernel⟩, takes_of _ _ (by decide +kernel), takes_of _ _ (by decide +kernel), by decide +kernel,
    takes_of _ _ (by decide +kernel), by decide +kernel⟩

end Sys2Proof.Tests
end

