-- ==== Sys2Proof/Tests/Slice0.lean ====
section
/-! SUPPORT. The model's own tests: an ill-formed term for each check of WellFormed, and small results that the spec's tables and
worked sequences give; each names its source. -/

namespace Sys2Proof.Tests

open Sys2Proof Sys2Proof.Machine

/-! ### WellFormed: one ill-formed term for each check -/

theorem test_wellFormed_refuses_known_code : wellFormed (.unknownRequest .fp 0 codeAckZone) = false := by decide
theorem test_wellFormed_refuses_sv_hold : wellFormed (.holdExpiry 0 .sv) = false := by decide
theorem test_wellFormed_refuses_sv_demand : wellFormed (.manualDemandExpiry 0 .sv) = false := by decide
theorem test_wellFormed_accepts : wellFormed (.unknownRequest .fp 0 0xFF) = true := by decide

/-! ### The step -/

/-- No table row has bits, so no word spells a command. -/
theorem test_no_word_spells_a_command : decodeTableWord 8 3 = none := rfl

/-- The front of the queue goes first. -/
theorem test_step_takes_the_front :
    (after (step { calm with pending := [.setSubscription .fp 1 5, .setSubscription .fp 2 7] })).pending =
      [.setSubscription .fp 2 7] := by
  decide +kernel

/-! ### Numbers (R52, R54, R55, R189; sections 3.6, 3.6.1, 5.8) -/

/-- R189: the nine ASCII digits give 0x29B1. -/
theorem test_crc_of_the_digits : crc16 [0x31, 0x32, 0x33, 0x34, 0x35, 0x36, 0x37, 0x38, 0x39] = 0x29B1 := by
  decide +kernel

/-- R52's table of reciprocals. -/
theorem test_reciprocals :
    [20, 120, 200, 230, 250, 270, 350, 500].map reciprocal =
      [838860, 139810, 83886, 72944, 67108, 62137, 47934, 33554] := by
  decide

/-- Section 3.6: valve E1 and the gate. -/
theorem test_arrivals_sawhall :
    (arrival 2200 270, arrival 2200 230, arrival 4000 270) = (3259, 3826, 5925) := by decide

/-- Section 3.6.1: the same with the transducer failed. -/
theorem test_arrivals_blind : (arrival 2200 500, arrival 2200 120, arrival 4000 500) = (1759, 7333, 3199) := by decide

/-- Section 3.6: E1's window, open at O + 2779, closed at O + 7026, not late; here O = 0 and the confirmation at 3. -/
theorem test_valve_entry_sawhall :
    (valveEntry ⟨true, 3400, 120, 800, 100⟩ 0 1200 0 3 ⟨false, 270, 230, 62137, 72944⟩).map
      (fun e => (e.openTick, e.closeTick, e.late)) = some (2779, 7026, false) := by
  decide

/-- Section 5.8: the margins of the decisions for tracks A and B. -/
theorem test_gate_decisions :
    decideGate (some { Gate.initial with state := .opened }) 1500 2704 (some ⟨17142, 17142⟩) = ⟨.diverted, some 8438⟩ ∧
    decideGate (some { Gate.initial with state := .closing, cmdTick := 2704 }) 1500 3003 (some ⟨17142, 20142⟩) =
      ⟨.diverted, some 11438⟩ := by
  decide

/-! ### Zones (section 1.5) -/

/-- The zone of section 1.5 before step 6. -/
def zoneBeforeFire : State :=
  calm.setZone 5 { Zone.initial .hall with
    causes := ((Zone.initial .hall).causes.set 12 .watch).set 6 .alarm, level := .alarm, acked := ⟨true, true⟩, tag := 44 }

/-- Step 6: FP declares FIRE; the latch is set, the acknowledged set empties, the tag rises once. -/
theorem test_declare_fire :
    let x := (after (exec (.declare .fp 1 5 3) zoneBeforeFire)).zone 5
    (x.level, x.latch, x.acked, x.tag) = (.fire, true, ⟨false, false⟩, 45) := by
  decide +kernel

/-- Step 4: the wrong tag is STALE with the present one. -/
theorem test_ack_stale :
    ((after (exec (.ackZone .fp 9 5 42) zoneBeforeFire)).port .fp).tx = [⟨codeAckZone, 9, .stale, [44, 0]⟩] := by
  decide +kernel

/-! ### Ducts (section 6.10) -/

/-- G+30000: the fifth detection meets the alert-state threshold of 5; the fourth does not. -/
theorem test_spark_rate :
    atShutdown ⟨0, 4, 3, 8, 5, 10⟩ { Ctl.initial with state := .alert, rateCount := 5 } = true ∧
      atShutdown ⟨0, 4, 3, 8, 5, 10⟩ { Ctl.initial with state := .alert, rateCount := 4 } = false := by
  decide

/-- A FIRE cause on a running duct turns fan and feeder off in its event. -/
theorem test_fire_stop_turns_outputs_off :
    let c := (takeCauses 0 [.sparkRate, .diverted] (at_ .guarded)).ctl 0
    (c.feeder, c.fan, c.stop) = (false, false, some ⟨.fire, .diverted, .alarm⟩) := by
  decide +kernel

/-! ### The key switch (R170) -/

/-- R170: one sample at a tick of the millisecond clock, however often the switch moves at it, and none at another tick. -/
theorem test_key_sampled_once_a_millisecond :
    let s : State := { State.reset with tick := 8 }
    let moved := fun s => after (exec (.keySwitchChange .closed) s)
    ((moved s).key.count, (moved (moved s)).key.count, (moved { s with tick := 9 }).key.count) = (1, 1, 0) := by
  decide +kernel

/-- R170: the block's own clock takes the 100th sample of a switch that moved before, while LOADING. -/
theorem test_key_accepted_by_the_clock :
    let s : State := { State.reset with tick := 8, key := ⟨.opened, 99⟩, leads := { State.reset.leads with key := .closed } }
    ((after (step s)).key, (after (step s)).sampled .key) = (⟨.closed, 0⟩, 8) := by
  decide +kernel

/-! ### Contact inputs and flow switches (R17, R74) -/

/-- R17: one sample of a contact input at a tick of the millisecond clock, however often its lines move at it, and none at another. -/
theorem test_contact_sampled_once_a_millisecond :
    let s : State := calm.setInput 0 ⟨.normal, some .active, 0⟩
    let sample := fun s => after (exec (.contactInputSample 0 false true) s)
    (((sample s).input 0).stable, ((sample (sample s)).input 0).stable, ((sample { s with tick := 9 }).input 0).stable) = (1, 1, 0) := by
  decide +kernel

/-- R74: a flow switch that moves again after its tick's sample is seen at the next tick. -/
theorem test_flow_switch_sampled_once_a_tick :
    let t := after (exec (.flowSwitchChange 0 0 false) (after (exec (.flowSwitchChange 0 0 true) calm)))
    ((t.valve 0 0).flow, t.leads.flow[0][0], sampleDue t (.flow 0 0), sampleDue { t with tick := 1 } (.flow 0 0)) =
      (true, false, false, true) := by
  decide +kernel

/-! ### Sirens (section 9.9) -/

/-- Weights and demands of section 9.9. -/
def yardWeight (i : Fin 8) : Nat := [2, 2, 3, 1, 2, 1, 3, 2].getD i.val 0
def yardDemand (i : Fin 8) : Option Pattern :=
  if i.val = 1 ∨ i.val = 4 ∨ i.val = 6 then some .evacuate else if i.val = 3 then some .alert else none

/-- The grants at 2 s, 5 s and 10 s: from pointers 0, 5 and 2. -/
theorem test_rotation :
    (grantRun 6 yardWeight yardDemand 0).granted = [1, 4] ∧ (grantRun 6 yardWeight yardDemand 5).granted = [6, 1] ∧
      (grantRun 6 yardWeight yardDemand 2).granted = [4, 6] := by
  decide +kernel

/-! ### Record sizes (R191) -/

theorem test_zone_record_size : (readZonesReply 255 calm).payload.length = 129 := by decide +kernel
theorem test_channel_record_size : (readChannelsReply 255 calm).payload.length = 208 := by decide +kernel
theorem test_door_record_size : (readDoorsReply 255 calm).payload.length = 168 := by decide +kernel

end Sys2Proof.Tests
end

