-- ==== Sys2Proof/Proofs/Arrivals.lean ====
section
/-! PROOFS. The arrival arithmetic (R48 to R53): the bounds record's velocities in order, the computed offset against the exact travel
time, and the entries of a track. -/

namespace Sys2Proof.Machine

open Sys2Proof

/-! ### The bounds record (R48 to R50) -/

theorem lowerBound_pos (v tol : Nat) : 0 < lowerBound v tol := by
  unfold lowerBound
  omega

theorem lowerBound_le_upperBound (v tol : Nat) : lowerBound v tol ≤ upperBound v tol := le_max_right _ _

/-- The lower bound is a velocity to divide by: `lmin` while the duct is blind, at least 20 otherwise. -/
theorem boundsFor_vLo_pos {k : DuctCfg} (hk : 0 < k.lmin) (vel : VelState) (value : Nat) (state : DuctState) :
    0 < (boundsFor k vel value state).vLo := by
  cases h : isBlind vel state
  case true => simpa [boundsFor, h] using hk
  case false => simpa [boundsFor, h] using lowerBound_pos value k.tol

theorem boundsFor_vLo_le_vHi {k : DuctCfg} (hk : k.lmin ≤ 500) (vel : VelState) (value : Nat) (state : DuctState) :
    (boundsFor k vel value state).vLo ≤ (boundsFor k vel value state).vHi := by
  cases h : isBlind vel state
  case true => simpa [boundsFor, h] using hk
  case false => simpa [boundsFor, h] using lowerBound_le_upperBound value k.tol

/-! ### The arrival offset (R52, R53) -/

theorem reciprocal_antitone {lo hi : Nat} (hlo : 0 < lo) (h : lo ≤ hi) : reciprocal hi ≤ reciprocal lo :=
  Nat.div_le_div_left h hlo

theorem arrival_antitone (d : Nat) {lo hi : Nat} (hlo : 0 < lo) (h : lo ≤ hi) : arrival d hi ≤ arrival d lo :=
  Nat.div_le_div_right (Nat.mul_le_mul_left _ (reciprocal_antitone hlo h))

/-- Both divisions round down, so the offset is never beyond the exact travel time. -/
theorem arrival_mul_le (d w : Nat) : arrival d w * w ≤ d * 400 := by
  have hp : reciprocal w * w ≤ 16777216 := Nat.div_mul_le_self _ _
  have ht : arrival d w * 16777216 ≤ d * 400 * reciprocal w := Nat.div_mul_le_self _ _
  refine Nat.le_of_mul_le_mul_right (c := 16777216) ?_ (by omega)
  calc arrival d w * w * 16777216 = arrival d w * 16777216 * w := Nat.mul_right_comm _ _ _
    _ ≤ d * 400 * reciprocal w * w := Nat.mul_le_mul_right w ht
    _ = d * 400 * (reciprocal w * w) := Nat.mul_assoc _ _ _
    _ ≤ d * 400 * 16777216 := Nat.mul_le_mul_left _ hp

theorem arrival_le_exact (d : Nat) {w : Nat} (hw : 0 < w) : arrival d w ≤ d * 400 / w :=
  (Nat.le_div_iff_mul_le hw).mpr (arrival_mul_le d w)

/-- The reciprocal's own rounding costs less than one tick, because `d * 400` is below 2^24 for every distance in range. -/
theorem exact_le_arrival_add_one {d w : Nat} (hd : d ≤ 20000) (hw : 0 < w) : d * 400 / w ≤ arrival d w + 1 := by
  have hq : d * 400 / w * w ≤ d * 400 := Nat.div_mul_le_self _ _
  have hp : 16777216 < (reciprocal w + 1) * w := (Nat.div_lt_iff_lt_mul hw).mp (Nat.lt_succ_self _)
  have hexact : d * 400 / w * 16777216 ≤ d * 400 * (reciprocal w + 1) := by
    refine Nat.le_of_mul_le_mul_right (c := w) ?_ hw
    calc d * 400 / w * 16777216 * w = d * 400 / w * w * 16777216 := Nat.mul_right_comm _ _ _
      _ ≤ d * 400 * ((reciprocal w + 1) * w) := Nat.mul_le_mul hq hp.le
      _ = d * 400 * (reciprocal w + 1) * w := (Nat.mul_assoc _ _ _).symm
  have ht : d * 400 * reciprocal w < (arrival d w + 1) * 16777216 :=
    (Nat.div_lt_iff_lt_mul (by omega)).mp (Nat.lt_succ_self _)
  rw [Nat.mul_add_one (d * 400)] at hexact
  omega

/-- R53 for one point: by a bounds record whose `lmin` is a velocity, the earliest arrival is not later than the latest, and neither is
beyond the exact travel time at its bound. -/
theorem boundsFor_arrivals {k : DuctCfg} (hpos : 0 < k.lmin) (hle : k.lmin ≤ 500) (far : Nat) (vel : VelState) (value : Nat)
    (state : DuctState) :
    let b := boundsFor k vel value state
    arrivalBy far b.pHi ≤ arrivalBy far b.pLo ∧ arrivalBy far b.pHi * b.vHi ≤ far * 400 ∧
      arrivalBy far b.pLo * b.vLo ≤ far * 400 :=
  ⟨arrival_antitone far (boundsFor_vLo_pos hpos vel value state) (boundsFor_vLo_le_vHi hle vel value state),
    arrival_mul_le far _, arrival_mul_le far _⟩

/-! ### A track's entries (R51, R56, R62) -/

theorem arrivals_of_mem_valveEntry {c : ValveCfg} {v : Fin 2} {pos : Nat} {origin now : Tick} {b : Bounds} {e : ValveEntry}
    (h : e ∈ valveEntry c v pos origin now b) :
    e.te = arrivalBy (c.position - pos) b.pHi ∧ e.tl = arrivalBy (c.position - pos) b.pLo := by
  obtain ⟨-, he⟩ := Option.ite_none_right_eq_some.mp h
  obtain rfl := Option.some.inj he
  exact ⟨rfl, rfl⟩

theorem arrival_of_mem_gateEntry {c : GateCfg} {pos : Nat} {origin : Tick} {b : Bounds} {e : GateEntry}
    (h : e ∈ gateEntry c pos origin b) : e.te = arrivalBy (c.position - pos) b.pHi := by
  obtain ⟨-, he⟩ := Option.ite_none_right_eq_some.mp h
  obtain rfl := Option.some.inj he
  rfl

theorem arrivals_of_mem_stationEntry {c : Cfg} {d st : Fin 4} {pos : Nat} {origin : Tick} {b : Bounds} {e : StationEntry}
    (h : e ∈ stationEntry c d st pos origin b) :
    e.te = arrivalBy (stationPosition c d st - pos) b.pHi ∧ e.tl = arrivalBy (stationPosition c d st - pos) b.pLo := by
  obtain ⟨-, he⟩ := Option.ite_none_right_eq_some.mp h
  obtain rfl := Option.some.inj he
  exact ⟨rfl, rfl⟩

/-- Settles O43: the offset arithmetic of R52, and R53 for each entry by the arrivals that its bounds record gives. -/
theorem arrivalsAreNeverLate : Obligations.ArrivalsAreNeverLate := by
  unfold Obligations.ArrivalsAreNeverLate
  refine ⟨?offset, ?order, ?valve, ?gate, ?station, by decide⟩
  case offset =>
    intro d w _ hd hw _
    have hupper : arrival d w ≤ d * 400 / w := arrival_le_exact d (by omega)
    have hlower : d * 400 / w ≤ arrival d w + 1 := exact_le_arrival_add_one hd (by omega)
    exact ⟨rfl, arrival_mul_le d w, by omega⟩
  case order =>
    intro d lo hi hlo h _
    exact arrival_antitone d (by omega) h
  case valve =>
    intro c v pos origin now k vel value state hlo hhi b e he
    obtain ⟨hte, htl⟩ := arrivals_of_mem_valveEntry he
    rw [hte, htl]
    exact boundsFor_arrivals (by omega) (by omega) _ vel value state
  case gate =>
    intro c pos origin k vel value state b e he
    rw [arrival_of_mem_gateEntry he]
    exact arrival_mul_le _ b.vHi
  case station =>
    intro c d st pos origin vel value state hlo hhi b far e he
    obtain ⟨hte, htl⟩ := arrivals_of_mem_stationEntry he
    rw [hte, htl]
    exact boundsFor_arrivals (by omega) (by omega) far vel value state

end Sys2Proof.Machine
end

