-- ==== Sys2Proof/Proofs/Identification.lean ====
section
/-! PROOFS. READ_IDENT (R188): a request that is accepted and changes nothing, and the identification in each load state. -/

namespace Sys2Proof.Machine

open Sys2Proof

/-- A request that is accepted and changes nothing adds its response to the port's transmit list, and that is all (R173, R174). -/
theorem live_serve_accept {p : Port} {s : State} (h : TakesFrame s p) (code n : Byte) {reply : State → Reply} {payload : List Byte}
    (hr : reply (frameTaken p s) = accept payload (frameTaken p s)) :
    live s (serve p code n reply) = .next (s.answered p ⟨code, n, .ok, payload⟩) := by
  have ⟨hup, _, _⟩ := h
  rw [live_up s _ hup, serve_takes p code n reply s h, hr]
  exact congrArg _ (issue_frameTaken p _ s)

/-! ### The identification (R188, R191) -/

/-- The identification is the Store Loader's: a frame's arrival at a port leaves it. -/
theorem identification_frameTaken (p : Port) (s : State) : identification (frameTaken p s) = identification s := by
  simp [identification, frameTaken]

/-- READ_IDENT passes every check, whatever the load state and the port (R188). -/
theorem exec_readIdent {p : Port} {s : State} (h : TakesFrame s p) (n : Byte) :
    exec (.readIdent p n) s = .next (s.answered p ⟨codeReadIdent, n, .ok, identification s⟩) :=
  live_serve_accept h codeReadIdent n (congrArg (accept · (frameTaken p s)) (identification_frameTaken p s))

theorem identification_loading {s : State} (hok : LoaderOk s.loader) (h : s.loader.state = .loading) :
    identification s = [0x3B, 0x40, 0x02, 0x01, 0, 0, 0, 0] := by
  obtain ⟨hloading, -, -⟩ := hok
  obtain ⟨hfailing, hcrc, -⟩ := hloading h
  simp only [identification, h, hfailing, hcrc]
  rfl

theorem identification_running {s : State} (hok : LoaderOk s.loader) (h : s.loader.state = .running) :
    identification s = [0x3B, 0x40, 0x02, 0x01, 1, 0] ++ le16 s.loader.imageCrc := by
  obtain ⟨-, hrunning, -⟩ := hok
  have hfailing : s.loader.failing = none := hrunning h
  simp only [identification, h, hfailing]
  rfl

theorem identification_safeHold {s : State} {c : CheckCode} (h : s.loader.state = .safeHold) (hc : s.loader.failing = some c) :
    identification s = [0x3B, 0x40, 0x02, 0x01, 2, byteOf (checkNum (some c))] ++ le16 s.loader.imageCrc := by
  simp only [identification, h, hc]
  rfl

/-- Settles O20: READ_IDENT answers the identification, which is taken in each load state with the failing check and the image CRC
that go with it. -/
theorem identificationIsAnsweredInEveryLoadState : Obligations.IdentificationIsAnsweredInEveryLoadState := by
  unfold Obligations.IdentificationIsAnsweredInEveryLoadState
  intro p n s htakes hstore
  obtain ⟨-, -, hok⟩ := hstore
  have ⟨hloading, hrunning, hsafeHold⟩ := hok
  rw [exec_readIdent htakes]
  cases hs : s.loader.state with
  | loading =>
    obtain ⟨hfailing, -, -⟩ := hloading hs
    rw [identification_loading hok hs, hfailing]
    rfl
  | running =>
    have hfailing : s.loader.failing = none := hrunning hs
    rw [identification_running hok hs, hfailing]
    rfl
  | safeHold =>
    obtain ⟨c, hc⟩ := Option.isSome_iff_exists.mp (hsafeHold hs)
    rw [identification_safeHold hs hc, hc]
    cases c <;> rfl

end Sys2Proof.Machine
end

