-- ==== Sys2Proof/Proofs/Ports.lean ====
section
/-! PROOFS. What keeps a Port Unit sound (R173, R177, R178): notices that are taken, fetched and coalesced, and the age timer. -/

namespace Sys2Proof.Machine

open Sys2Proof

/-- A notice that joins a queue at its tail leaves a line that is up, or the age timer armed for the queue. -/
theorem enqueueNotice_portOk {u : PortUnit} {n : Notice} (hlen : u.queue.length < 32)
    (htimer : u.queue ≠ [] → (u.line || n.urgent) = false → u.ageTimer.isSome = true) (htx : u.tx.length ≤ 4)
    (hwait : u.waiting.isSome = true → u.tx.length ≤ 3) : PortOk (enqueueNotice u n) := by
  refine ⟨by simp [enqueueNotice]; omega, by simp [enqueueNotice], ?_, htx, hwait⟩
  have hne : u.queue ++ [n] ≠ [] := by simp
  simp only [enqueueNotice]
  cases hl : (u.line || decide (u.threshold ≤ (u.queue ++ [n]).length) || n.urgent)
  · cases hq : u.queue.isEmpty
    · have : u.ageTimer.isSome = true := htimer (by simpa using hq) (by simp_all)
      simp [this]
    · simp
  · simp

/-- A Port Unit that takes an offered notice stays sound. -/
theorem takeNotice_portOk {u : PortUnit} (now : Tick) (o : Offer) (h : PortOk u) : PortOk (takeNotice u now o) := by
  have ⟨hlen, hline, htimer, htx, hwait⟩ := h
  unfold takeNotice
  dsimp only
  split
  · split
    · refine enqueueNotice_portOk (by assumption) (fun hq hl => htimer.mpr ⟨hq, ?_⟩) htx hwait
      simp_all
    · split
      · rename_i hany
        simp only [Bool.and_eq_true, List.any_eq_true] at hany
        obtain ⟨hurgent, q, hq, hplain⟩ := hany
        have hshort : (dropOldestPlain u.queue).length = u.queue.length - 1 := by
          rw [dropOldestPlain_eq]
          exact List.length_eraseP_of_mem hq hplain
        have hpos : 0 < u.queue.length := List.length_pos_of_mem hq
        refine enqueueNotice_portOk (by simp only [hshort]; omega) (fun _ hl => ?_) htx hwait
        simp [noticeOf, hurgent] at hl
      · exact h
  · exact h

/-- The age timer of a queue that is left non-empty with the line down. -/
theorem rearmAge_portOk {u : PortUnit} (now : Tick) (hlen : u.queue.length ≤ 32) (hne : u.queue ≠ [])
    (htimer : u.line = true → u.ageTimer = none) (htx : u.tx.length ≤ 4) (hwait : u.waiting.isSome = true → u.tx.length ≤ 3) :
    PortOk (rearmAge now u) := by
  obtain ⟨n, hn⟩ := Option.isSome_iff_exists.mp (List.isSome_head?.mpr hne)
  unfold rearmAge ageDue
  split
  · rename_i hl
    exact ⟨hlen, fun _ => hne, by simp [htimer hl, hl], htx, hwait⟩
  · rename_i hl
    simp only [hn, Option.map_some]
    split
    · exact ⟨hlen, by simp [hl], by simp [hl, hne], htx, hwait⟩
    · exact ⟨hlen, fun _ => hne, by simp, htx, hwait⟩

theorem fetched_portOk {u : PortUnit} (now : Tick) (k : Nat) (h : PortOk u) : PortOk (u.fetched now k) := by
  obtain ⟨hlen, hline, htimer, htx, hwait⟩ := h
  have hdrop : (u.queue.drop k).length ≤ 32 := by simp; omega
  unfold PortUnit.fetched
  dsimp only
  split
  · rename_i he
    have he' : u.queue.drop k = [] := by simpa using he
    exact ⟨hdrop, by simp, by simp [he'], htx, hwait⟩
  · rename_i he
    refine rearmAge_portOk now hdrop (by simpa using he) (fun hl => ?_) htx hwait
    simpa [show u.line = true from hl] using htimer

theorem coalesced_portOk {u : PortUnit} (now : Tick) (threshold age : Nat) (h : PortOk u) :
    PortOk (u.coalesced now threshold age) := by
  have ⟨hlen, hline, htimer, htx, hwait⟩ := h
  unfold PortUnit.coalesced
  dsimp only
  split
  · exact h
  · rename_i he
    have hne : u.queue ≠ [] := by simpa using he
    split
    · exact ⟨hlen, fun _ => hne, by simp, htx, hwait⟩
    · refine rearmAge_portOk now hlen hne (fun hl => ?_) htx hwait
      simpa [show u.line = true from hl] using htimer

/-- The line that the age timer asserts stands over the notices that it waited for. -/
theorem aged_portOk {u : PortUnit} (h : PortOk u) (ht : u.ageTimer.isSome = true) :
    PortOk { u with line := true, ageTimer := none } := by
  obtain ⟨hlen, hline, htimer, htx, hwait⟩ := h
  exact ⟨hlen, fun _ => (htimer.mp ht).1, by simp, htx, hwait⟩

/-- A queue, a line and a timer that stay as they are need only room in the transmit list. -/
theorem PortOk.of_room {u v : PortUnit} (h : PortOk u) (hq : v.queue = u.queue) (hl : v.line = u.line)
    (ht : v.ageTimer = u.ageTimer) (htx : v.tx.length ≤ 4) (hwait : v.waiting.isSome = true → v.tx.length ≤ 3) : PortOk v := by
  obtain ⟨hlen, hline, htimer, -, -⟩ := h
  exact ⟨hq ▸ hlen, hq ▸ hl ▸ hline, hq ▸ hl ▸ ht ▸ htimer, htx, hwait⟩

theorem PortUnit.initial_portOk : PortOk PortUnit.initial := by simp [PortOk, PortUnit.initial]

/-- Room for a response where a frame is not dropped and no request is pending. -/
theorem room_of_not_dropped {u : PortUnit} (h : frameDropped u = false) : u.tx.length ≤ 3 := by
  simp only [frameDropped, Bool.or_eq_false_iff, decide_eq_false_iff_not] at h
  omega

end Sys2Proof.Machine
end

