-- ==== Sys2Proof/Proofs/Local.lean ====
section
/-! PROOFS. What an operation of one duct's blocks leaves alone and keeps: one relation from the state before to the state after, which
composes, with one lemma for each operation of chapters 3 to 7 on a duct. -/

namespace Sys2Proof.Machine

open Sys2Proof

/-! ### The relation -/

/-- What an operation may move in the blocks of a duct; `ids` are the ids of the tracks, `mark` the Duct Controller's list mark, `posts`
the levels that it is to post, and `starts` is the entry to a running state. -/
inductive DuctPart where
  | vel | ids | tracks | nextId | valves | gate | flood | test | overlays | ctl | mark | posts | starts
  deriving DecidableEq

/-- A part of a duct's blocks is as it was. -/
def DuctPart.Same : DuctPart → Duct → Duct → Prop
  | .vel, x, y => { y.vel with bounds := x.vel.bounds } = x.vel
  | .ids, x, y => y.tracks.map Track.id = x.tracks.map Track.id
  | .tracks, x, y => y.tracks = x.tracks
  | .nextId, x, y => y.nextId = x.nextId
  | .valves, x, y => y.valves = x.valves
  | .gate, x, y => y.gate = x.gate
  | .flood, x, y => y.flood = x.flood
  | .test, x, y => y.test = x.test
  | .overlays, x, y => y.overlays = x.overlays
  | .ctl, x, y => y.ctl = x.ctl
  | .mark, x, y => y.ctl.listMark = x.ctl.listMark
  | .posts, x, y => ductStateLevel y.ctl = ductStateLevel x.ctl ∧
      velocityLevel y.ctl.state y.vel.state = velocityLevel x.ctl.state x.vel.state ∧ emberLevel y.ctl = emberLevel x.ctl
  | .starts, x, y => y.ctl.state.isRunning = true → x.ctl.state.isRunning = true

theorem DuctPart.Same.refl (p : DuctPart) (x : Duct) : p.Same x x := by
  cases p
  case starts => exact id
  case posts => exact ⟨rfl, rfl, rfl⟩
  all_goals exact rfl

theorem DuctPart.Same.trans {p : DuctPart} {x y z : Duct} (h : p.Same x y) (k : p.Same y z) : p.Same x z := by
  cases p
  case vel =>
    have hx : { y.vel with bounds := x.vel.bounds } = x.vel := h
    have hy : { z.vel with bounds := y.vel.bounds } = y.vel := k
    show { z.vel with bounds := x.vel.bounds } = x.vel
    rw [← hx, ← hy]
  case posts => exact ⟨k.1.trans h.1, k.2.1.trans h.2.1, k.2.2.trans h.2.2⟩
  case starts => exact fun e => h (k e)
  all_goals exact Eq.trans k h

/-- The bounds record of a duct is the one of its velocity and its state. -/
def BoundsAt (s : State) (d : Fin 4) : Prop :=
  (s.duct d).vel.bounds = boundsFor (s.ductCfg d) (s.duct d).vel.state (s.duct d).vel.value (s.ctl d).state

/-- An operation of the blocks of duct `d`, by which only the parts of `m` move. Beside the duct it touches troubles and notices, and it
keeps the duct's outputs and bounds, the trouble sets and the Port Units sound. -/
structure Local (m : List DuctPart) (d : Fin 4) (s t : State) : Prop where
  within : Within .water s t
  others : KeepsOtherDucts d s t
  hazards : KeepsHazards s t
  nodup : ∀ z, (s.zone z).troubles.Nodup → (t.zone z).troubles.Nodup
  ports : PortsOk s → PortsOk t
  outputs : DuctOutputsOk (s.duct d) → DuctOutputsOk (t.duct d)
  bounds : BoundsAt s d → BoundsAt t d
  same : ∀ p, p ∉ m → p.Same (s.duct d) (t.duct d)

theorem KeepsHazards.refl (s : State) : KeepsHazards s s := fun _ => rfl

theorem KeepsHazards.trans {s t u : State} (h : KeepsHazards s t) (k : KeepsHazards t u) : KeepsHazards s u := by
  intro z
  have hz : t.zone z = _ := h z
  have kz : u.zone z = _ := k z
  show u.zone z = { s.zone z with troubles := (u.zone z).troubles }
  rw [kz, hz]

theorem Local.refl (m : List DuctPart) (d : Fin 4) (s : State) : Local m d s s :=
  ⟨.refl _ s, fun _ _ => rfl, .refl s, fun _ h => h, id, id, id, fun p _ => .refl p _⟩

theorem Local.trans {m : List DuctPart} {d : Fin 4} {s t u : State} (h : Local m d s t) (k : Local m d t u) : Local m d s u :=
  ⟨h.within.trans k.within, fun e he => (k.others e he).trans (h.others e he), h.hazards.trans k.hazards,
    fun z hz => k.nodup z (h.nodup z hz), fun hp => k.ports (h.ports hp), fun ho => k.outputs (h.outputs ho),
    fun hb => k.bounds (h.bounds hb), fun p hp => (h.same p hp).trans (k.same p hp)⟩

theorem Local.mono {m n : List DuctPart} {d : Fin 4} {s t : State} (h : Local m d s t) (hmn : m ⊆ n) : Local n d s t :=
  ⟨h.within, h.others, h.hazards, h.nodup, h.ports, h.outputs, h.bounds, fun p hp => h.same p fun hm => hp (hmn hm)⟩

theorem Local.foldl {α : Type} {m : List DuctPart} {d : Fin 4} (f : State → α → State) (l : List α) (s : State)
    (h : ∀ t a, Local m d t (f t a)) : Local m d s (l.foldl f s) := by
  induction l generalizing s with
  | nil => exact .refl m d s
  | cons a rest ih => exact (h s a).trans (ih (f s a))

/-! ### Notices, troubles and updates of the duct -/

theorem offer_portsOk (o : Offer) {s : State} (h : PortsOk s) : PortsOk (offer o s) := fun p => by
  rw [offer_port]
  exact takeNotice_portOk s.tick o (h p)

theorem offer_local (d : Fin 4) (o : Offer) (s : State) : Local [] d s (offer o s) :=
  ⟨(offer_within o s).mono rfl, fun _ _ => rfl, .refl s, fun _ h => h, offer_portsOk o, id, id, fun p _ => .refl p _⟩

theorem addTrouble_nodup (t : Trouble) {l : List Trouble} (hmem : t ∉ l) (h : l.Nodup) : (addTrouble t l).Nodup := by
  induction l with
  | nil => simp [addTrouble]
  | cons x rest ih =>
    obtain ⟨hx, hrest⟩ := List.nodup_cons.mp h
    have hne : x ≠ t := fun e => hmem (e ▸ List.mem_cons_self)
    have hrest' : t ∉ rest := fun e => hmem (List.mem_cons_of_mem x e)
    unfold addTrouble
    rw [if_neg hne]
    split
    · exact List.nodup_cons.mpr ⟨hmem, h⟩
    · refine List.nodup_cons.mpr ⟨fun hm => ?_, ih hrest' hrest⟩
      exact ((mem_addTrouble t x rest).mp hm).elim hne hx

/-- A zone whose troubles alone change keeps its other fields. -/
theorem setZone_troubles_keepsHazards (s : State) (z : Fin 16) (l : List Trouble) :
    KeepsHazards s (s.setZone z { s.zone z with troubles := l }) := fun y => by
  unfold KeepsHazard
  by_cases h : y = z
  · subst h
    simp
  · simp [State.setZone_zone_ne _ _ _ _ h]

theorem setZone_troubles_local (d : Fin 4) (s : State) (z : Fin 16) (l : List Trouble)
    (h : (s.zone z).troubles.Nodup → l.Nodup) : Local [] d s (s.setZone z { s.zone z with troubles := l }) := by
  refine ⟨(setZone_within s z _).mono rfl, fun _ _ => rfl, setZone_troubles_keepsHazards s z l, fun y hy => ?_, id, id, id,
    fun p _ => .refl p _⟩
  by_cases hz : y = z
  · subst hz
    simpa using h hy
  · simpa [State.setZone_zone_ne _ _ _ _ hz] using hy

theorem raiseTrouble_local (d : Fin 4) (z : Fin 16) (k : TroubleKind) (n : Nat) (s : State) :
    Local [] d s (raiseTrouble z k n s) := by
  unfold raiseTrouble
  dsimp only
  split
  · exact .refl _ d s
  · rename_i hmem
    exact (setZone_troubles_local d s z _ (addTrouble_nodup _ hmem)).trans (offer_local d _ _)

theorem clearTrouble_local (d : Fin 4) (z : Fin 16) (k : TroubleKind) (n : Nat) (s : State) :
    Local [] d s (clearTrouble z k n s) := by
  unfold clearTrouble
  dsimp only
  split
  · exact (setZone_troubles_local d s z _ fun h => h.erase _).trans (offer_local d _ _)
  · exact .refl _ d s

theorem setTrouble_local (d : Fin 4) (z : Fin 16) (k : TroubleKind) (n : Nat) (b : Bool) (s : State) :
    Local [] d s (setTrouble z k n b s) := by
  unfold setTrouble
  split
  · exact raiseTrouble_local d z k n s
  · exact clearTrouble_local d z k n s

/-- The blocks of a duct are replaced by ones with sound outputs and bounds. -/
theorem setDuct_local {m : List DuctPart} {d : Fin 4} {s : State} {x : Duct}
    (houtputs : DuctOutputsOk (s.duct d) → DuctOutputsOk x)
    (hbounds : BoundsAt s d → x.vel.bounds = boundsFor (s.ductCfg d) x.vel.state x.vel.value x.ctl.state)
    (hsame : ∀ p, p ∉ m → p.Same (s.duct d) x) : Local m d s (s.setDuct d x) := by
  refine ⟨(setDuct_within s d x).mono rfl, fun e he => s.setDuct_duct_ne d e x he, .refl s, fun _ h => h, id, fun h => ?_,
    fun h => ?_, fun p hp => ?_⟩
  · simpa using houtputs h
  · simpa [BoundsAt, State.ctl] using hbounds h
  · simpa using hsame p hp

/-! ### Valves (R75 to R77) -/

theorem setValve_local {d : Fin 4} {v : Fin 2} {s : State} {x : Valve} (h : ValveOk (s.valve d v) → ValveOk x) :
    Local [.valves] d s (s.setValve d v x) := by
  refine setDuct_local (fun ho => ⟨ho.1, fun w => ?_, ho.2.2⟩) (fun hb => hb) fun p hp => ?_
  · by_cases hw : v.val = w.val
    · have : v = w := Fin.ext hw
      subst this
      simpa using h (ho.2.1 v)
    · simpa [hw] using ho.2.1 w
  · cases p <;> simp_all [DuctPart.Same]

theorem Valve.opening_ok (c : ValveCfg) (now : Tick) (x : Valve) : ValveOk (x.opening c now) := by
  simp [ValveOk, Valve.opening]

theorem Valve.closing_ok (x : Valve) : ValveOk x.closing := by
  simp [ValveOk, Valve.closing]

theorem turnOn_local (d : Fin 4) (v : Fin 2) (s : State) : Local [.valves] d s (turnOn d v s) := by
  have h : Local [.valves] d s (offer (valveOffer d v (s.valve d v) ((s.valve d v).opening (s.valveCfg d v) s.tick))
      (s.setValve d v ((s.valve d v).opening (s.valveCfg d v) s.tick))) :=
    (setValve_local fun _ => Valve.opening_ok _ _ _).trans ((offer_local d _ _).mono (by simp))
  unfold turnOn
  dsimp only
  split
  · exact h.trans ((clearTrouble_local d _ _ _ _).mono (by simp))
  · exact h

theorem turnOff_local (d : Fin 4) (v : Fin 2) (s : State) : Local [.valves] d s (turnOff d v s) :=
  (setValve_local fun _ => Valve.closing_ok _).trans ((offer_local d _ _).mono (by simp))

theorem evalValve_local (d : Fin 4) (v : Fin 2) (s : State) : Local [.valves] d s (evalValve d v s) := by
  unfold evalValve
  split
  · exact .refl _ d s
  · split
    · exact turnOn_local d v s
    · exact turnOff_local d v s

theorem evalValves_local (d : Fin 4) (s : State) : Local [.valves] d s (evalValves d s) :=
  (evalValve_local d 0 s).trans (evalValve_local d 1 _)

theorem flowSwitchEvent_local (d : Fin 4) (v : Fin 2) (b : Bool) (s : State) : Local [.valves] d s (flowSwitchEvent d v b s) := by
  have h : Local [.valves] d s (s.setValve d v { s.valve d v with flow := b }) := setValve_local fun h => h
  unfold flowSwitchEvent confirmOpening
  dsimp only
  split
  · split
    · refine h.trans ((setValve_local fun hv => ?_).trans ((clearTrouble_local d _ _ _ _).mono (by simp)))
      exact ⟨hv.1, by simp⟩
    · exact h
  · exact .refl _ d s

/-! ### Gates (R83 to R86) -/

theorem setGate_local {d : Fin 4} {s : State} {g : Gate} (h : GateOk (s.gate d) → GateOk g) : Local [.gate] d s (s.setGate d g) :=
  setDuct_local (fun ho => ⟨ho.1, ho.2.1, h ho.2.2⟩) (fun hb => hb) fun p hp => by cases p <;> simp_all [DuctPart.Same]

theorem State.setGate_setGate (s : State) (d : Fin 4) (g k : Gate) : (s.setGate d g).setGate d k = s.setGate d k := by
  simp [State.setGate, State.setDuct, State.duct]

/-- A gate whose drives and timer go with its state, whatever its switches show. -/
def GateDriven (g : Gate) : Prop :=
  (g.openDrive = true ↔ g.state = .opening) ∧ (g.closeDrive = true ↔ g.state = .closing) ∧
    (g.timer.isSome = true ↔ g.state = .opening ∨ g.state = .closing)

theorem Gate.strokeGoal_resting (g : Gate) : g.strokeGoal = .closed ∨ g.strokeGoal = .opened := by
  unfold Gate.strokeGoal
  split <;> simp

/-- A gate that a stroke has left at rest is sound. -/
theorem Gate.rested_ok (g : Gate) {st : GateState} (h : st = .closed ∨ st = .opened ∨ st = .fault) (mark : Bool) :
    GateOk ({ g with state := st, timer := none, troubleMark := mark } : Gate).withDrives := by
  rcases h with rfl | rfl | rfl <;> simp [GateOk, Gate.withDrives]

/-- A driven gate whose awaited switch is inactive is sound. -/
theorem GateDriven.ok {g : Gate} (h : GateDriven g) (ha : g.arrived = false) : GateOk g := by
  obtain ⟨ho, hc, ht⟩ := h
  refine ⟨ho, hc, ht, fun hs => ?_, fun hs => ?_⟩ <;> simpa [Gate.arrived, hs] using ha

/-- A stroke ends, or goes on, at a gate that an operation has brought to `u` from `s`. -/
theorem endStroke_local {d : Fin 4} {s u : State} (hset : ∀ g, (GateOk (s.gate d) → GateOk g) → Local [.gate] d s (u.setGate d g))
    (hu : u.setGate d (u.gate d) = u) (hdriven : GateOk (s.gate d) → GateDriven (u.gate d)) : Local [.gate] d s (endStroke d u) := by
  unfold endStroke moveGate
  dsimp only
  split
  · have hrest := Gate.rested_ok (u.gate d) ((u.gate d).strokeGoal_resting.imp_right .inl) false
    have h := (hset _ fun _ => hrest).trans ((offer_local d (gateOffer d (u.gate d)
      { u.gate d with state := (u.gate d).strokeGoal, timer := none, troubleMark := false } (some .switch)) _).mono (by simp))
    split
    · exact h.trans ((clearTrouble_local d _ _ _ _).mono (by simp))
    · exact h
  · rename_i ha
    have h := hset (u.gate d) fun hg => (hdriven hg).ok (by simpa using ha)
    rwa [hu] at h

/-- A gate that is set off is driven as its state says. -/
theorem Gate.setOff_driven (g : Gate) {st : GateState} (h : st = .closing ∨ st = .opening) (now due : Tick) :
    GateDriven ({ g with state := st, cmdTick := now, timer := some due } : Gate).withDrives := by
  rcases h with rfl | rfl <;> simp [GateDriven, Gate.withDrives]

theorem beginStroke_local (d : Fin 4) {st : GateState} (h : st = .closing ∨ st = .opening) (s : State) :
    Local [.gate] d s (beginStroke d st s) := by
  unfold beginStroke moveGate
  refine endStroke_local (fun g hg => ?_) ?_ fun _ => ?_
  · have : ∀ o k, (offer o (s.setGate d k)).setGate d g = offer o (s.setGate d g) := fun o k =>
      congrArg (offer o) (s.setGate_setGate d k g)
    rw [this]
    exact (setGate_local hg).trans ((offer_local d _ _).mono (by simp))
  · simp only [offer_gate, State.setGate_gate_self]
    exact congrArg (offer _) (s.setGate_setGate d _ _)
  · simpa using Gate.setOff_driven (s.gate d) h _ _

theorem closeCommand_local (d : Fin 4) (s : State) : Local [.gate] d s (closeCommand d s) := by
  unfold closeCommand
  split
  case h_1 | h_2 | h_3 => exact beginStroke_local d (.inl rfl) s
  all_goals exact .refl _ d s

theorem openCommand_local (d : Fin 4) (s : State) : Local [.gate] d s (openCommand d s) := by
  unfold openCommand
  split
  case h_1 | h_2 => exact beginStroke_local d (.inr rfl) s
  all_goals exact .refl _ d s

theorem GateOk.withSwitch_driven {g : Gate} (h : GateOk g) (which : GateSwitch) (b : Bool) : GateDriven (g.withSwitch which b) := by
  obtain ⟨ho, hc, ht, -, -⟩ := h
  cases which <;> exact ⟨ho, hc, ht⟩

/-- A switch of a gate is sampled, and a stroke towards it ends. -/
theorem switchSampled_local (d : Fin 4) (which : GateSwitch) (b : Bool) (s : State) :
    Local [.gate] d s (endStroke d (s.setGate d ((s.gate d).withSwitch which b))) := by
  refine endStroke_local (fun g hg => ?_) ?_ fun h => ?_
  · rw [State.setGate_setGate]
    exact setGate_local hg
  · rw [State.setGate_setGate, State.setGate_gate_self]
  · simpa using h.withSwitch_driven which b

theorem decisionCommand_local (d : Fin 4) (t : Track) (s : State) : Local [.gate] d s (decisionCommand d t s) := by
  unfold decisionCommand
  split
  · exact closeCommand_local d s
  · exact .refl _ d s

theorem gateDecision_local (d : Fin 4) (t : Track) (s : State) : Local [.gate] d s (gateDecision d t s).2 :=
  ((offer_local d _ s).mono (by simp)).trans (decisionCommand_local d t _)

theorem gateDecisions_local (d : Fin 4) (l : List Track) (s : State) : Local [.gate] d s (gateDecisions d l s).2 := by
  induction l generalizing s with
  | nil => exact .refl _ d s
  | cons t rest ih => exact (gateDecision_local d t s).trans (ih _)

/-! ### Tracks, flood and test (chapters 4 and 5) -/

/-- The track list is replaced. -/
theorem setTracks_local {m : List DuctPart} {d : Fin 4} {s : State} {l : List Track} (hm : .tracks ∈ m)
    (hids : .ids ∈ m ∨ l.map Track.id = (s.duct d).tracks.map Track.id) :
    Local m d s (s.setDuct d { s.duct d with tracks := l }) :=
  setDuct_local (fun h => h) (fun hb => hb) fun p hp => by
    cases p
    case ids => exact hids.resolve_left hp
    case tracks => exact absurd hm hp
    case posts => exact ⟨rfl, rfl, rfl⟩
    case starts => exact id
    all_goals rfl

theorem rejudge_local (d : Fin 4) (s : State) : Local [.tracks, .gate] d s (rejudge d s).2 := by
  refine (setTracks_local (by simp) (.inr ?_)).trans ((gateDecisions_local d _ _).mono (by simp))
  rw [List.map_map]
  exact List.map_congr_left fun _ _ => rfl

theorem startFlood_local (d : Fin 4) (s : State) : Local [.flood, .valves] d s (startFlood d s) := by
  have h : ∀ e, Local [.flood, .valves] d s (s.setDuct d { s.duct d with flood := e }) := fun e =>
    setDuct_local (fun h => h) (fun hb => hb) fun p hp => by cases p <;> simp_all [DuctPart.Same]
  unfold startFlood
  dsimp only
  split <;> exact (h _).trans (((offer_local d _ _).mono (by simp)).trans ((evalValves_local d _).mono (by simp)))

theorem floodEnds_local (d : Fin 4) (s : State) : Local [.flood, .valves] d s (floodEnds d s) := by
  have h : Local [.flood, .valves] d s (s.setDuct d { s.duct d with flood := none }) :=
    setDuct_local (fun h => h) (fun hb => hb) fun p hp => by cases p <;> simp_all [DuctPart.Same]
  unfold floodEnds
  split
  · split
    · exact h.trans (((offer_local d _ _).mono (by simp)).trans ((evalValves_local d _).mono (by simp)))
    · exact .refl _ d s
  · exact .refl _ d s

/-- A test is begun or ended, with its notice and the valve evaluated. -/
theorem setTest_local (d : Fin 4) (v : Fin 2) (o : Offer) (r : Option TestRun) (s : State) :
    Local [.test, .valves] d s (evalValve d v (offer o (s.setDuct d { s.duct d with test := r }))) := by
  have h : Local [.test, .valves] d s (s.setDuct d { s.duct d with test := r }) :=
    setDuct_local (fun h => h) (fun hb => hb) fun p hp => by cases p <;> simp_all [DuctPart.Same]
  exact h.trans (((offer_local d _ _).mono (by simp)).trans ((evalValve_local d _ _).mono (by simp)))

theorem testEnds_local (d : Fin 4) (s : State) : Local [.test, .valves] d s (testEnds d s) := by
  unfold testEnds
  split
  · split
    · exact setTest_local d _ _ _ s
    · exact .refl _ d s
  · exact .refl _ d s

theorem takeNewTrack_local (d : Fin 4) (t : Track) (s : State) : Local [.valves, .gate] d s (takeNewTrack d t s).2 := by
  have h : Local [.valves, .gate] d s (t.valves.foldl (fun s e => evalValve d e.valve s) s) :=
    Local.foldl _ _ s fun t e => (evalValve_local d e.valve t).mono (by simp)
  unfold takeNewTrack
  dsimp only
  split
  · exact h
  · exact h.trans ((gateDecision_local d t _).mono (by simp))

theorem settleDetection_local (x : Detection) (s : State) :
    Local [.tracks, .ids, .nextId, .valves, .gate, .flood] x.duct s (settleDetection x s).state := by
  unfold settleDetection
  split
  · exact (setTracks_local (by simp) (.inl (by simp))).trans ((offer_local _ _ _).mono (by simp))
  · split
    · refine Local.trans ?_ (((takeNewTrack_local x.duct _ _).mono (by simp)).trans ((offer_local _ _ _).mono (by simp)))
      exact setDuct_local (fun h => h) (fun hb => hb) fun p hp => by cases p <;> simp_all [DuctPart.Same]
    · exact ((startFlood_local x.duct s).mono (by simp)).trans ((offer_local _ _ _).mono (by simp))

theorem handSequence_local (d : Fin 4) (id : Byte) (q : Word16) (s : State) : Local [.tracks] d s (handSequence d id q s) := by
  refine setTracks_local (by simp) (.inr ?_)
  rw [List.map_map]
  refine List.map_congr_left fun t _ => ?_
  simp only [Function.comp_apply]
  split <;> rfl

/-! ### Overlays (chapter 7) -/

theorem setOverlays_local (d : Fin 4) (l : List Overlay) (s : State) : Local [.overlays] d s (s.setOverlays d l) :=
  setDuct_local (fun h => h) (fun hb => hb) fun p hp => by cases p <;> simp_all [DuctPart.Same]

/-! ### The velocity (chapter 3) -/

theorem transducerEvent_local (d : Fin 4) (c : Code) (s : State) : Local [.vel] d s (transducerEvent d c s) :=
  setDuct_local (fun h => h) (fun hb => hb) fun p hp => by
    cases p <;> simp_all [DuctPart.Same, Velocity.sampled]

theorem changeVelocity_local (d : Fin 4) (v : Velocity) (s : State) : Local [.vel, .posts] d s (changeVelocity d v s) := by
  have h : Local [.vel, .posts] d s (s.setDuct d { s.duct d with
      vel := { v with bounds := boundsFor (s.ductCfg d) v.state v.value (s.duct d).ctl.state } }) :=
    setDuct_local (fun h => h) (fun _ => rfl) fun p hp => by cases p <;> simp_all [DuctPart.Same]
  unfold changeVelocity
  dsimp only
  split
  · exact h
  · have h2 := fun o => h.trans ((offer_local d o _).mono (by simp))
    split
    · exact (h2 _).trans ((raiseTrouble_local d _ _ _ _).mono (by simp))
    · split
      · exact (h2 _).trans ((clearTrouble_local d _ _ _ _).mono (by simp))
      · exact h2 _

end Sys2Proof.Machine
end

