-- ==== Sys2Proof/Proofs/Controllers.lean ====
section
/-! PROOFS. The operations of a Duct Controller (chapter 6) before its postings: what each may move in its duct, and what it does to
the duct's state. -/

namespace Sys2Proof.Machine

open Sys2Proof

/-! ### The record -/

/-- A Duct Controller's record holds a stop exactly in STOPPING and STOPPED. -/
def StopRecorded (c : Ctl) : Prop := c.stop.isSome = true ↔ c.state = .stopping ∨ c.state = .stopped

theorem CtlOk.recorded {c : Ctl} (h : CtlOk c) : StopRecorded c := by
  obtain ⟨-, -, hstop⟩ := h
  exact hstop

theorem StopRecorded.withOutputs_ok {c : Ctl} (h : StopRecorded c) : CtlOk c.withOutputs := ⟨rfl, rfl, h⟩

@[simp] theorem ductStateLevel_withOutputs (c : Ctl) : ductStateLevel c.withOutputs = ductStateLevel c := rfl
@[simp] theorem emberLevel_withOutputs (c : Ctl) : emberLevel c.withOutputs = emberLevel c := rfl
@[simp] theorem Ctl.withOutputs_state (c : Ctl) : c.withOutputs.state = c.state := rfl
@[simp] theorem Ctl.withOutputs_stop (c : Ctl) : c.withOutputs.stop = c.stop := rfl
@[simp] theorem Ctl.withOutputs_listMark (c : Ctl) : c.withOutputs.listMark = c.listMark := rfl
@[simp] theorem Ctl.withOutputs_purge (c : Ctl) : c.withOutputs.purge = c.purge := rfl

theorem setCtl_local {m : List DuctPart} {d : Fin 4} {s : State} {c : Ctl} (hm : .ctl ∈ m)
    (hstop : StopRecorded (s.ctl d) → StopRecorded c) (hmark : .mark ∈ m ∨ c.listMark = (s.ctl d).listMark)
    (hposts : .posts ∈ m ∨ (c.state = (s.ctl d).state ∧ c.stop = (s.ctl d).stop ∧ c.listMark = (s.ctl d).listMark))
    (hstarts : .starts ∈ m ∨ (c.state.isRunning = true → (s.ctl d).state.isRunning = true)) :
    Local m d s (s.setCtl d c) := by
  refine setDuct_local (fun h => ⟨(hstop h.1.recorded).withOutputs_ok, h.2⟩) (fun _ => rfl) fun p hp => ?_
  cases p
  case ctl => exact absurd hm hp
  case mark => exact hmark.resolve_left hp
  case starts => exact hstarts.resolve_left hp
  case posts =>
    obtain ⟨hs, hr, hl⟩ := hposts.resolve_left hp
    have hd : ductStateLevel c = ductStateLevel (s.ctl d) := by simp [ductStateLevel, Ctl.asserted, hs, hr]
    have he : emberLevel c = emberLevel (s.ctl d) := by simp [emberLevel, hs, hl]
    exact ⟨hd, congrArg (velocityLevel · _) hs, he⟩
  all_goals rfl

/-- A record with the state, stop and list mark of the present one. -/
theorem setCtl_quiet {d : Fin 4} {s : State} {c : Ctl} (hs : c.state = (s.ctl d).state) (hr : c.stop = (s.ctl d).stop)
    (hl : c.listMark = (s.ctl d).listMark) : Local [.ctl] d s (s.setCtl d c) :=
  setCtl_local (by simp) (fun h => by rwa [StopRecorded, hs, hr]) (.inr hl) (.inr ⟨hs, hr, hl⟩) (.inr fun h => hs ▸ h)

theorem changeCtl_local {d : Fin 4} {s : State} {c : Ctl} (hstop : StopRecorded (s.ctl d) → StopRecorded c)
    (hmark : c.listMark = (s.ctl d).listMark) (hstarts : c.state.isRunning = true → (s.ctl d).state.isRunning = true) :
    Local [.ctl, .posts] d s (changeCtl d c s) :=
  (setCtl_local (by simp) hstop (.inr hmark) (.inl (by simp)) (.inr hstarts)).trans ((offer_local d _ _).mono (by simp))

/-! ### Stops (R103 to R106) -/

theorem Ctl.fireStopping_state {c : Ctl} (h : c.fireStopping = true) : c.state = .stopping := by
  simp only [Ctl.fireStopping, Bool.and_eq_true, decide_eq_true_eq] at h
  exact h.1

theorem enterStopped_local {d : Fin 4} {s : State} (h : (s.ctl d).state = .stopping) :
    Local [.ctl, .posts] d s (enterStopped d s) := by
  refine changeCtl_local (fun hr => ?_) rfl nofun
  simpa [StopRecorded, h] using hr

theorem fireWait_local (d : Fin 4) (s : State) : Local [.ctl, .posts] d s (fireWait d s) := by
  unfold fireWait
  split
  · rename_i h
    simp only [Bool.and_eq_true] at h
    exact enterStopped_local (Ctl.fireStopping_state h.1)
  · exact .refl _ d s

theorem beginStop_local (d : Fin 4) (c : StopCause) (s : State) : Local [.ctl, .posts, .gate] d s (beginStop d c s) := by
  unfold beginStop
  extract_lets purgeTime purge old s1
  have h : Local [.ctl, .posts, .gate] d s s1 :=
    Local.mono (changeCtl_local (fun _ => by simp [StopRecorded]) rfl nofun) (by simp)
  have hs1 : (s1.ctl d).state = .stopping := by simp [s1, changeCtl_ctl]
  split
  · exact h.trans (((closeCommand_local d _).mono (by simp)).trans ((fireWait_local d _).mono (by simp)))
  · split
    · exact h.trans ((enterStopped_local hs1).mono (by simp))
    · exact h

theorem replaceStop_local {d : Fin 4} {s : State} (h : (s.ctl d).state = .stopping ∨ (s.ctl d).state = .stopped) (c : StopCause) :
    Local [.ctl, .posts, .gate] d s (replaceStop d c s) := by
  unfold replaceStop
  extract_lets k orderly turning kind s1
  have h1 : Local [.ctl, .posts, .gate] d s s1 := by
    refine Local.mono (changeCtl_local (fun _ => ?_) rfl id) (by simp)
    simpa [StopRecorded] using h
  split
  · exact h1.trans (((closeCommand_local d _).mono (by simp)).trans ((fireWait_local d _).mono (by simp)))
  · exact h1

theorem replaceIfHigher_local {d : Fin 4} {s : State} (h : (s.ctl d).state = .stopping ∨ (s.ctl d).state = .stopped)
    (c : Option StopCause) : Local [.ctl, .posts, .gate] d s (replaceIfHigher d c s) := by
  unfold replaceIfHigher
  split
  · split
    · exact replaceStop_local h _
    · exact .refl _ d s
  · exact .refl _ d s

theorem takeCauses_local (d : Fin 4) (l : List StopCause) (s : State) : Local [.ctl, .posts, .gate] d s (takeCauses d l s) := by
  unfold takeCauses
  split
  case h_5 h => exact replaceIfHigher_local (.inl h) _
  case h_6 h => exact replaceIfHigher_local (.inr h) _
  case h_7 => exact .refl _ d s
  all_goals
    split
    · exact beginStop_local d _ s
    · exact .refl _ d s

theorem raiseAsserted_local (d : Fin 4) (s : State) : Local [.ctl, .posts] d s (raiseAsserted d s) := by
  unfold raiseAsserted
  dsimp only
  split
  · split
    · rename_i hc
      simp only [Bool.and_eq_true] at hc
      exact changeCtl_local (fun _ => by simp [StopRecorded, Ctl.fireStopping_state hc.1]) rfl id
    · exact .refl _ d s
  · exact .refl _ d s

/-! ### Reports of the other blocks (R69, R96, R97, R99, R100, R102) -/

theorem velocityReport_local (d : Fin 4) (s : State) : Local [.ctl, .posts] d s (velocityReport d s) := by
  unfold velocityReport
  extract_lets c
  have hquiet : ∀ k : Ctl, k.state = c.state → k.stop = c.stop → k.listMark = c.listMark →
      Local [.ctl, .posts] d s (s.setCtl d k) := fun k hs hr hl => (setCtl_quiet hs hr hl).mono (by simp)
  split
  case h_1 hc =>
    split
    · refine changeCtl_local (fun h => ?_) rfl fun _ => by rw [show (s.ctl d).state = _ from hc]; rfl
      simpa [StopRecorded, show (s.ctl d).state = _ from hc] using h
    · exact .refl _ d s
  case h_2 =>
    split
    · exact .refl _ d s
    · exact hquiet _ rfl rfl rfl
  case h_3 | h_4 => exact hquiet _ rfl rfl rfl
  all_goals exact .refl _ d s

theorem spoilWindow_local (d : Fin 4) (s : State) : Local [.ctl] d s (spoilWindow d s) := by
  unfold spoilWindow
  split
  · exact setCtl_quiet rfl rfl rfl
  · exact .refl _ d s

theorem setListMark_local (d : Fin 4) (b : Bool) (s : State) : Local [.ctl, .mark, .posts] d s (setListMark d b s) :=
  setCtl_local (by simp) id (.inl (by simp)) (.inl (by simp)) (.inr id)

theorem countDetection_local (d : Fin 4) (l : List StopCause) (s : State) :
    Local [.ctl, .posts] d s (countDetection d l s).2 := by
  unfold countDetection
  split
  · extract_lets p c s1 quiet
    have h1 : Local [.ctl, .posts] d s s1 := Local.mono (setCtl_quiet rfl rfl rfl) (by simp)
    have hc : s1.ctl d = c.withOutputs := State.setCtl_ctl_self s d c
    split
    · exact h1
    · split
      · exact h1
      · split
        · rename_i hg
          refine h1.trans (changeCtl_local (fun h => ?_) (by rw [hc]; rfl) fun _ => by rw [hc, Ctl.withOutputs_state, hg.1]; rfl)
          rw [hc] at h
          simpa [StopRecorded, hg.1] using h
        · split
          · exact h1.trans ((setCtl_quiet (by rw [hc]; rfl) (by rw [hc]; rfl) (by rw [hc]; rfl)).mono (by simp))
          · exact h1
  · exact .refl _ d s

/-! ### What a stop does to the state of the duct -/

/-- A duct whose other parts move keeps its Duct Controller. -/
theorem Local.ctl_eq {m : List DuctPart} {d : Fin 4} {s t : State} (h : Local m d s t) (hm : .ctl ∉ m) : t.ctl d = s.ctl d :=
  h.same .ctl hm

theorem Local.ctl_ne {m : List DuctPart} {d e : Fin 4} {s t : State} (h : Local m d s t) (he : e ≠ d) : t.ctl e = s.ctl e :=
  congrArg Duct.ctl (h.others e he)

theorem enterStopped_ctl (d : Fin 4) (s : State) :
    (enterStopped d s).ctl d = ({ s.ctl d with state := .stopped, purge := none } : Ctl).withOutputs := changeCtl_ctl d _ s

/-- A waiting FIRE-kind stop stays, or is STOPPED with the stop that was recorded. -/
theorem fireWait_ctl (d : Fin 4) (s : State) :
    (fireWait d s).ctl d = s.ctl d ∨ ((s.ctl d).state = .stopping ∧ ((fireWait d s).ctl d).state = .stopped ∧
      ((fireWait d s).ctl d).stop = (s.ctl d).stop) := by
  unfold fireWait
  split
  · rename_i h
    simp only [Bool.and_eq_true] at h
    refine .inr ⟨Ctl.fireStopping_state h.1, ?_, ?_⟩ <;> rw [enterStopped_ctl] <;> rfl
  · exact .inl rfl

theorem closeCommand_ctl (d : Fin 4) (s : State) : (closeCommand d s).ctl d = s.ctl d := (closeCommand_local d s).ctl_eq (by simp)

/-- A stop that begins leaves the duct in STOPPING or STOPPED with the stop of the cause. -/
theorem beginStop_ctl (d : Fin 4) (c : StopCause) (s : State) :
    (((beginStop d c s).ctl d).state = .stopping ∨ ((beginStop d c s).ctl d).state = .stopped) ∧
      ((beginStop d c s).ctl d).stop = some (stopOf c) := by
  unfold beginStop
  extract_lets purgeTime purge old s1
  have h1 : (s1.ctl d).state = .stopping ∧ (s1.ctl d).stop = some (stopOf c) := by simp [s1, changeCtl_ctl]
  split
  · rcases fireWait_ctl d (closeCommand d s1) with h | ⟨-, hs, hr⟩
    · rw [h, closeCommand_ctl]
      exact ⟨.inl h1.1, h1.2⟩
    · rw [hr, closeCommand_ctl]
      exact ⟨.inr hs, h1.2⟩
  · split
    · rw [enterStopped_ctl]
      exact ⟨.inr rfl, h1.2⟩
    · exact ⟨.inl h1.1, h1.2⟩

/-- A stop that is replaced stands with its new cause and level. -/
theorem replaceStop_ctl (d : Fin 4) (c : StopCause) (s : State) (h : (s.ctl d).state = .stopping ∨ (s.ctl d).state = .stopped) :
    (((replaceStop d c s).ctl d).state = .stopping ∨ ((replaceStop d c s).ctl d).state = .stopped) ∧
      ((replaceStop d c s).ctl d).asserted = c.level := by
  unfold replaceStop
  extract_lets k orderly turning kind s1
  have h1 : s1.ctl d = _ := changeCtl_ctl d _ s
  have hs : (s1.ctl d).state = .stopping ∨ (s1.ctl d).state = .stopped := by rw [h1]; exact h
  have ha : (s1.ctl d).asserted = c.level := by rw [h1]; rfl
  split
  · rcases fireWait_ctl d (closeCommand d s1) with hw | ⟨-, hw, hr⟩
    · rw [hw, closeCommand_ctl]
      exact ⟨hs, ha⟩
    · refine ⟨.inr hw, ?_⟩
      rw [Ctl.asserted, hr, closeCommand_ctl]
      exact ha
  · exact ⟨hs, ha⟩

/-- ZONE_FIRE leaves no duct running. -/
theorem takeZoneFire_not_running (d : Fin 4) (s : State) : ((takeCauses d [.zoneFire] s).ctl d).state.isRunning = false := by
  unfold takeCauses
  split
  case h_5 h =>
    have hr : ((replaceIfHigher d (some .zoneFire) s).ctl d).state.isRunning = false := by
      unfold replaceIfHigher
      dsimp only
      split
      · rcases (replaceStop_ctl d .zoneFire s (.inl h)).1 with h1 | h1 <;> rw [h1] <;> rfl
      · rw [h]; rfl
    exact hr
  case h_6 h =>
    have hr : ((replaceIfHigher d (some .zoneFire) s).ctl d).state.isRunning = false := by
      unfold replaceIfHigher
      dsimp only
      split
      · rcases (replaceStop_ctl d .zoneFire s (.inr h)).1 with h1 | h1 <;> rw [h1] <;> rfl
      · rw [h]; rfl
    exact hr
  case h_7 h => rw [h]; rfl
  all_goals
    have hr : ((beginStop d .zoneFire s).ctl d).state.isRunning = false := by
      rcases (beginStop_ctl d .zoneFire s).1 with h1 | h1 <;> rw [h1] <;> rfl
    exact hr

/-- ZONE_FIRE brings no DUCT_STATE at FIRE that did not stand there. -/
theorem takeZoneFire_level (d : Fin 4) (s : State) (h : ductStateLevel ((takeCauses d [.zoneFire] s).ctl d) = .fire) :
    ductStateLevel (s.ctl d) = .fire := by
  have hlevel : ∀ c : Ctl, (c.state = .stopping ∨ c.state = .stopped) → ductStateLevel c = c.asserted := by
    rintro c (h | h) <;> simp [ductStateLevel, h]
  have hreplace : (s.ctl d).state = .stopping ∨ (s.ctl d).state = .stopped →
      ductStateLevel ((replaceIfHigher d (some .zoneFire) s).ctl d) = .fire → ductStateLevel (s.ctl d) = .fire := by
    intro hs hf
    unfold replaceIfHigher at hf
    dsimp only at hf
    split at hf
    · obtain ⟨h1, h2⟩ := replaceStop_ctl d .zoneFire s hs
      rw [hlevel _ h1, h2] at hf
      exact absurd hf (by decide)
    · exact hf
  have hbegin : ductStateLevel ((beginStop d .zoneFire s).ctl d) ≠ .fire := by
    obtain ⟨h1, h2⟩ := beginStop_ctl d .zoneFire s
    rw [hlevel _ h1, Ctl.asserted, h2]
    decide
  unfold takeCauses at h
  split at h
  case h_5 hs => exact hreplace (.inl hs) h
  case h_6 hs => exact hreplace (.inr hs) h
  case h_7 => exact h
  all_goals exact absurd h hbegin

end Sys2Proof.Machine
end

