-- ==== Sys2Proof/Proofs/Grants.lean ====
section
/-! PROOFS. The grant of the amplifier budget (R152) and the settled Arbiter (R144): what they keep sound, and the arithmetic of zone
masks. -/

namespace Sys2Proof.Machine

open Sys2Proof

/-! ### Zone masks -/

theorem zoneIn_clear (m : ZoneMask) (z q : Fin 16) :
    zoneIn (m &&& ~~~(BitVec.twoPow 16 z.val)) q = (zoneIn m q && decide (q ≠ z)) := by
  simp [zoneIn, Fin.ext_iff]

theorem zoneIn_zero (q : Fin 16) : zoneIn 0 q = false := by simp [zoneIn]

theorem zoneIn_foldl (f : Fin 16 → Bool) (l : List (Fin 16)) (m : ZoneMask) (q : Fin 16) :
    zoneIn (l.foldl (fun m z => if f z then m ||| BitVec.twoPow 16 z.val else m) m) q = (zoneIn m q || (decide (q ∈ l) && f q)) := by
  induction l generalizing m with
  | nil => simp
  | cons z rest ih =>
    rw [List.foldl_cons, ih]
    by_cases hz : q = z
    · subst hz
      cases hf : f q <;> simp [zoneIn]
    · have hv : q.val ≠ z.val := fun e => hz (Fin.ext e)
      cases hf : f z <;> simp [zoneIn, hz, hv]

/-- A zone is in the mask of a condition exactly where it meets it. -/
theorem zoneIn_maskOf (f : Fin 16 → Bool) (q : Fin 16) : zoneIn (maskOf f) q = f q := by
  rw [maskOf, zoneIn_foldl, zoneIn_zero]
  simp

/-! ### Sums of weights -/

theorem weightSum_eq (w : Fin 8 → Nat) (l : List (Fin 8)) : weightSum w l = (l.map w).sum := by
  have h : ∀ n, l.foldl (fun n i => n + w i) n = n + (l.map w).sum := by
    induction l with
    | nil => simp
    | cons i rest ih =>
      intro n
      rw [List.foldl_cons, ih, List.map_cons, List.sum_cons, Nat.add_assoc]
  rw [weightSum, h, Nat.zero_add]

theorem weightSum_append (w : Fin 8 → Nat) (l m : List (Fin 8)) : weightSum w (l ++ m) = weightSum w l + weightSum w m := by
  simp [weightSum_eq]

theorem weightSum_perm (w : Fin 8 → Nat) {l m : List (Fin 8)} (h : l.Perm m) : weightSum w l = weightSum w m := by
  simpa [weightSum_eq] using (h.map w).sum_eq

/-- Of some sirens, once each, the weights are those of the sirens that are among them. -/
theorem weightSum_filter_mem (w : Fin 8 → Nat) {l : List (Fin 8)} (h : l.Nodup) :
    weightSum w ((List.finRange 8).filter fun i => decide (i ∈ l)) = weightSum w l := by
  refine weightSum_perm w ((List.perm_ext_iff_of_nodup ((List.nodup_finRange 8).filter _) h).mpr fun i => ?_)
  simp

/-! ### The run of a grant evaluation (R152) -/

/-- A grant evaluation behind the classes of `done`: the budget is split between what remains and the sirens granted, each granted
once, under a demand of one of these classes. -/
def GrantOk (budget : Nat) (w : Fin 8 → Nat) (demand : Fin 8 → Option Pattern) (done : List Pattern) (r : GrantRun) : Prop :=
  r.remaining + weightSum w r.granted = budget ∧ r.granted.Nodup ∧ ∀ i ∈ r.granted, ∃ k ∈ done, demand i = some k

theorem visitOrder_nodup (pointer : Fin 8) : (visitOrder pointer).Nodup := by
  revert pointer
  decide

theorem visit_ok {budget : Nat} {w : Fin 8 → Nat} {demand : Fin 8 → Option Pattern} {done : List Pattern} {c : Pattern}
    (l : List (Fin 8)) (hl : l.Nodup) (hc : ∀ i ∈ l, demand i = some c) (r : GrantRun) (hdisjoint : ∀ i ∈ l, i ∉ r.granted)
    (h : GrantOk budget w demand (c :: done) r) : GrantOk budget w demand (c :: done) (l.foldl (visitSiren w) r) := by
  induction l generalizing r with
  | nil => exact h
  | cons i rest ih =>
    obtain ⟨hi, hrest⟩ := List.nodup_cons.mp hl
    refine ih hrest (fun j hj => hc j (List.mem_cons_of_mem i hj)) _ (fun j hj hmem => ?_) ?_
    · have hne : j ≠ i := fun e => hi (e ▸ hj)
      have hj' := hdisjoint j (List.mem_cons_of_mem i hj)
      revert hmem
      unfold visitSiren
      split <;> simp [hj', hne]
    · obtain ⟨hsum, hnodup, hdemand⟩ := h
      unfold visitSiren
      split
      · refine ⟨?_, ?_, fun j hj => ?_⟩
        · have hone : weightSum w [i] = w i := by simp [weightSum_eq]
          show r.remaining - w i + weightSum w (r.granted ++ [i]) = budget
          rw [weightSum_append, hone]
          omega
        · simpa [List.nodup_append] using ⟨hnodup, fun j hj e => hdisjoint i List.mem_cons_self (e ▸ hj)⟩
        · rcases List.mem_append.mp hj with hj | hj
          · exact hdemand j hj
          · exact ⟨c, List.mem_cons_self, List.mem_singleton.mp hj ▸ hc i List.mem_cons_self⟩
      · exact ⟨hsum, hnodup, hdemand⟩

theorem grantClass_ok {budget : Nat} {w : Fin 8 → Nat} {demand : Fin 8 → Option Pattern} {done : List Pattern} {c : Pattern}
    (pointer : Fin 8) {r : GrantRun} (hc : c ∉ done) (h : GrantOk budget w demand done r) :
    GrantOk budget w demand (c :: done) (grantClass w demand pointer r c) := by
  obtain ⟨hsum, hnodup, hdemand⟩ := h
  have hdemand' : ∀ i ∈ r.granted, ∃ k ∈ c :: done, demand i = some k := fun i hi =>
    (hdemand i hi).imp fun k hk => ⟨List.mem_cons_of_mem c hk.1, hk.2⟩
  have hother : ∀ i ∈ r.granted, demand i ≠ some c := fun i hi e => by
    obtain ⟨k, hk, hi⟩ := hdemand i hi
    exact hc (Option.some.inj (hi.symm.trans e) ▸ hk)
  unfold grantClass
  extract_lets members visited
  split
  · exact ⟨hsum, hnodup, hdemand'⟩
  · split
    · refine ⟨?_, ?_, fun i hi => ?_⟩
      · simp only [weightSum_append]
        omega
      · refine List.nodup_append.mpr ⟨hnodup, (List.nodup_finRange 8).filter _, fun i hi j hj e => ?_⟩
        exact hother i hi (by simpa [e] using (List.mem_filter.mp hj).2)
      · rcases List.mem_append.mp hi with hi | hi
        · exact hdemand' i hi
        · exact ⟨c, List.mem_cons_self, by simpa using (List.mem_filter.mp hi).2⟩
    · have hv : ∀ i ∈ visited, demand i = some c := fun i hi => by simpa using (List.mem_filter.mp hi).2
      exact visit_ok visited ((visitOrder_nodup pointer).filter _) hv r (fun i hi hm => hother i hm (hv i hi))
        ⟨hsum, hnodup, hdemand'⟩

theorem grantRun_ok (budget : Nat) (w : Fin 8 → Nat) (demand : Fin 8 → Option Pattern) (pointer : Fin 8) :
    ∃ done, GrantOk budget w demand done (grantRun budget w demand pointer) := by
  have h0 : GrantOk budget w demand [] ⟨budget, [], false, none⟩ := ⟨rfl, .nil, by simp⟩
  have h1 := grantClass_ok (c := .evacuate) pointer (by decide) h0
  have h2 := grantClass_ok (c := .alert) pointer (by decide) h1
  have h3 := grantClass_ok (c := .allClear) pointer (by decide) h2
  exact ⟨_, grantClass_ok (c := .test) pointer (by decide) h3⟩

/-! ### The Arbiter after a grant evaluation -/

@[simp] theorem evaluateGrants_view (c : Cfg) (now : Tick) (a : Arbiter) : (evaluateGrants c now a).view = a.view := rfl
@[simp] theorem evaluateGrants_pointer (c : Cfg) (now : Tick) (a : Arbiter) : (evaluateGrants c now a).pointer = a.pointer := rfl
@[simp] theorem Arbiter.withDrives_view (a : Arbiter) : a.withDrives.view = a.view := rfl
@[simp] theorem Arbiter.withDrives_pointer (a : Arbiter) : a.withDrives.pointer = a.pointer := rfl
@[simp] theorem Arbiter.withDrives_units (a : Arbiter) : a.withDrives.units = a.units := rfl
@[simp] theorem Arbiter.withDrives_phaseOn (a : Arbiter) : a.withDrives.phaseOn = a.phaseOn := rfl
@[simp] theorem Arbiter.withDrives_mark (a : Arbiter) : a.withDrives.mark = a.mark := rfl
@[simp] theorem Arbiter.withDrives_slot (a : Arbiter) : a.withDrives.slot = a.slot := rfl
@[simp] theorem Arbiter.withDrives_cadence (a : Arbiter) : a.withDrives.cadence = a.cadence := rfl
@[simp] theorem Arbiter.derive_view (a : Arbiter) (c : Cfg) (g : Fin 8 → Bool) : (a.derive c g).view = a.view := rfl
@[simp] theorem Arbiter.derive_pointer (a : Arbiter) (c : Cfg) (g : Fin 8 → Bool) : (a.derive c g).pointer = a.pointer := rfl
@[simp] theorem Arbiter.update_view (a : Arbiter) (g : Fin 8 → Bool) (f : Fin 8 → Siren → Siren) : (a.update g f).view = a.view := rfl
@[simp] theorem Arbiter.update_pointer (a : Arbiter) (g : Fin 8 → Bool) (f : Fin 8 → Siren → Siren) :
    (a.update g f).pointer = a.pointer := rfl

theorem evaluateGrants_siren (c : Cfg) (now : Tick) (a : Arbiter) (i : Fin 8) :
    (evaluateGrants c now a).sirens[i] = { a.sirens[i] with
      sounding := decide (i ∈ (grantRun c.budget (fun i => c.sirens[i].weight) (fun i => a.sirens[i].demand) a.pointer).granted) } := by
  simp [evaluateGrants]

theorem Arbiter.withDrives_siren (a : Arbiter) (i : Fin 8) :
    a.withDrives.sirens[i] = { a.sirens[i] with drive := sirenDrive a.sirens[i].demand a.sirens[i].sounding a.phaseOn } := by
  simp [Arbiter.withDrives]

theorem Arbiter.derive_siren (a : Arbiter) (c : Cfg) (g : Fin 8 → Bool) (i : Fin 8) :
    (a.derive c g).sirens[i] =
      if g i then { a.sirens[i] with demand := sirenDemand c.sirens[i].cover a.view a.sirens[i] } else a.sirens[i] := by
  simp [Arbiter.derive]

theorem Arbiter.update_siren (a : Arbiter) (g : Fin 8 → Bool) (f : Fin 8 → Siren → Siren) (i : Fin 8) :
    (a.update g f).sirens[i] = if g i then f i a.sirens[i] else a.sirens[i] := by
  simp [Arbiter.update]

/-- The Arbiter's units are those of its sounding sirens, within the budget, each sounding under a demand. -/
def GrantsOk (c : Cfg) (a : Arbiter) : Prop :=
  a.units = weightSum (fun i => c.sirens[i].weight) (soundingSirens a) ∧ a.units ≤ c.budget ∧
    ∀ i : Fin 8, a.sirens[i].sounding = true → a.sirens[i].demand.isSome = true

theorem evaluateGrants_ok (c : Cfg) (now : Tick) (a : Arbiter) : GrantsOk c (evaluateGrants c now a) := by
  obtain ⟨done, hsum, hnodup, hdemand⟩ := grantRun_ok c.budget (fun i => c.sirens[i].weight) (fun i => a.sirens[i].demand) a.pointer
  refine ⟨?_, ?_, fun i hi => ?_⟩
  · simp only [soundingSirens, evaluateGrants_siren, weightSum_filter_mem _ hnodup]
    rfl
  · show weightSum _ _ ≤ _
    exact le_of_add_le_right hsum.le
  · simp only [evaluateGrants_siren, decide_eq_true_eq] at hi ⊢
    obtain ⟨k, -, hk⟩ := hdemand i hi
    exact Option.isSome_iff_exists.mpr ⟨k, hk⟩

theorem GrantsOk.withDrives_ok {c : Cfg} {a : Arbiter} (h : GrantsOk c a) : ArbiterOk c a.withDrives := by
  obtain ⟨hunits, hbudget, hdemand⟩ := h
  refine ⟨?_, hbudget, fun i => ⟨?_, ?_⟩⟩
  · simpa only [soundingSirens, Arbiter.withDrives_siren, Arbiter.withDrives_units] using hunits
  · simpa only [Arbiter.withDrives_siren] using hdemand i
  · simp only [Arbiter.withDrives_siren, Arbiter.withDrives_phaseOn]

theorem ArbiterOk.grantsOk {c : Cfg} {a : Arbiter} (h : ArbiterOk c a) : GrantsOk c a := by
  obtain ⟨hunits, hbudget, hsirens⟩ := h
  exact ⟨hunits, hbudget, fun i => (hsirens i).1⟩

/-! ### The settled Arbiter (R144) -/

/-- Which contributions a siren's demand is taken from. -/
theorem sirenDemand_congr {cover : ZoneMask} {view : Vector ZoneView 16} {x y : Siren} (h : SameContributions x y) :
    sirenDemand cover view y = sirenDemand cover view x := by
  obtain ⟨h1, h2, h3, h4, h5⟩ := h
  simp only [sirenDemand, h1, h2, h3, h4, h5]

theorem SameContributions.refl (x : Siren) : SameContributions x x := ⟨rfl, rfl, rfl, rfl, rfl⟩

/-- Of the zone view a siren's demand meets its coverage alone. -/
theorem sirenDemand_set_view {cover : ZoneMask} {view : Vector ZoneView 16} {z : Fin 16} (h : zoneIn cover z = false) (v : ZoneView)
    (x : Siren) : sirenDemand cover (view.set z v) x = sirenDemand cover view x := by
  have hv : ∀ q : Fin 16, zoneIn cover q = true → (view.set z v)[q] = view[q] := fun q hq => by
    have : z.val ≠ q.val := fun e => by simp [Fin.ext e, hq] at h
    simp [this]
  have hany : ∀ f : Fin 16 → ZoneView → Bool, ((List.finRange 16).any fun q => zoneIn cover q && f q (view.set z v)[q]) =
      (List.finRange 16).any fun q => zoneIn cover q && f q view[q] := fun f => by
    congr 1
    funext q
    cases hq : zoneIn cover q
    · simp
    · rw [hv q hq]
  have h1 := hany fun q y => !zoneIn x.snapshot q && decide (y.level = .fire)
  have h2 := hany fun q y => !zoneIn x.snapshot q && (decide (y.level = .alarm) && y.acked.isEmpty)
  simp only [← Bool.and_assoc] at h1 h2
  simp only [sirenDemand, h1, h2]

/-- The settled Arbiter keeps the contributions that it was given, and derives the demands of the touched sirens from them. -/
theorem settleArbiter_siren (c : Cfg) (now : Tick) (old a : Arbiter) (g : Fin 8 → Bool) (i : Fin 8) :
    SameContributions a.sirens[i] (settleArbiter c now old a g).sirens[i] ∧
      (settleArbiter c now old a g).sirens[i].demand =
        if g i then sirenDemand c.sirens[i].cover a.view a.sirens[i] else a.sirens[i].demand := by
  have hd : SameContributions a.sirens[i] (a.derive c g).sirens[i] ∧ (a.derive c g).sirens[i].demand =
      if g i then sirenDemand c.sirens[i].cover a.view a.sirens[i] else a.sirens[i].demand := by
    rw [Arbiter.derive_siren]
    split <;> exact ⟨⟨rfl, rfl, rfl, rfl, rfl⟩, rfl⟩
  unfold settleArbiter
  dsimp only
  rw [Arbiter.withDrives_siren]
  split
  · rw [evaluateGrants_siren]
    exact hd
  · exact hd

@[simp] theorem settleArbiter_view (c : Cfg) (now : Tick) (old a : Arbiter) (g : Fin 8 → Bool) :
    (settleArbiter c now old a g).view = a.view := by
  unfold settleArbiter
  dsimp only
  split <;> rfl

@[simp] theorem settleArbiter_pointer (c : Cfg) (now : Tick) (old a : Arbiter) (g : Fin 8 → Bool) :
    (settleArbiter c now old a g).pointer = a.pointer := by
  unfold settleArbiter
  dsimp only
  split <;> rfl

/-- An Arbiter that holds other contributions only: its flags and its units are those of the other. -/
def SameGrants (old a : Arbiter) : Prop :=
  a.units = old.units ∧ ∀ i : Fin 8, a.sirens[i].sounding = old.sirens[i].sounding

theorem settleArbiter_ok {c : Cfg} (now : Tick) {old a : Arbiter} (g : Fin 8 → Bool) (hsame : SameGrants old a)
    (h : ArbiterOk c old) : ArbiterOk c (settleArbiter c now old a g) := by
  unfold settleArbiter
  dsimp only
  split
  · exact (evaluateGrants_ok c now _).withDrives_ok
  · rename_i hchanged
    obtain ⟨hunits, hsounding⟩ := hsame
    obtain ⟨ounits, obudget, odemand⟩ := h.grantsOk
    have hs : ∀ i : Fin 8, (a.derive c g).sirens[i].sounding = old.sirens[i].sounding := fun i => by
      rw [Arbiter.derive_siren, ← hsounding i]
      split <;> rfl
    have hdemand : ∀ i : Fin 8, (a.derive c g).sirens[i].demand = old.sirens[i].demand := fun i => by
      by_contra hne
      exact hchanged (List.any_eq_true.mpr ⟨i, List.mem_finRange i, decide_eq_true hne⟩)
    refine GrantsOk.withDrives_ok ⟨?_, ?_, fun i => ?_⟩
    · show a.units = _
      simp only [hunits, ounits, soundingSirens, hs]
    · exact hunits ▸ obudget
    · rw [hs, hdemand]
      exact odemand i

/-- A siren's demand and snapshot are sound behind an event that derives its demand from sound contributions. -/
theorem settleArbiter_demandOk {c : Cfg} {now : Tick} {old a : Arbiter} {g : Fin 8 → Bool} {i : Fin 8}
    (hdemand : g i = false → a.sirens[i].demand = sirenDemand c.sirens[i].cover a.view a.sirens[i])
    (hsnapshot : ∀ z : Fin 16, zoneIn a.sirens[i].snapshot z = true →
      zoneIn c.sirens[i].cover z = true ∧ a.view[z].level.atLeast .alarm = true) :
    DemandOk c.sirens[i] (settleArbiter c now old a g).view (settleArbiter c now old a g).sirens[i] := by
  obtain ⟨hsame, hd⟩ := settleArbiter_siren c now old a g i
  rw [settleArbiter_view]
  refine ⟨?_, fun z hz => hsnapshot z ?_⟩
  · rw [hd, sirenDemand_congr hsame]
    split
    · rfl
    · rename_i hg
      exact hdemand (by simpa using hg)
  · obtain ⟨-, -, hsnap, -, -⟩ := hsame
    rwa [← hsnap]

/-- An Arbiter's event whose changes keep the snapshots sound keeps the Arbiter sound. -/
theorem arbiterEvent_sirensOk {s : State} {g : Fin 8 → Bool} {f : Fin 8 → Siren → Siren} (cause : Fin 8 → Siren → SirenCause)
    (hsounding : ∀ i x, (f i x).sounding = x.sounding)
    (hsnapshot : ∀ (i : Fin 8) (x : Siren) (z : Fin 16), zoneIn (f i x).snapshot z = true → zoneIn x.snapshot z = true ∨
      (zoneIn s.cfg.sirens[i].cover z = true ∧ s.arbiter.view[z].level.atLeast .alarm = true))
    (h : SirensOk s) : SirensOk (arbiterEvent (s.arbiter.update g f) g cause s) := by
  obtain ⟨hok, hdemand, hview⟩ := h
  have hw := arbiterEvent_within (s.arbiter.update g f) g cause s
  have ha := arbiterEvent_arbiter (s.arbiter.update g f) g cause s
  obtain ⟨-, -, hcfg, -⟩ := hw.fixed
  have hzone : ∀ z, (arbiterEvent (s.arbiter.update g f) g cause s).zone z = s.zone z := fun z =>
    congrArg (·[z]) (hw.zones rfl)
  refine ⟨?_, fun i => ?_, fun z => ?_⟩
  · rw [hcfg, ha]
    refine settleArbiter_ok _ _ ⟨rfl, fun i => ?_⟩ hok
    rw [Arbiter.update_siren]
    split
    · exact hsounding i _
    · rfl
  · rw [hcfg, ha]
    obtain ⟨hd, hs⟩ := hdemand i
    refine settleArbiter_demandOk (fun hg => ?_) fun z hz => ?_
    · rw [Arbiter.update_siren, if_neg (by simp [hg])]
      exact hd
    · rw [Arbiter.update_siren] at hz
      split at hz
      · exact (hsnapshot i _ z hz).elim (hs z) id
      · exact hs z hz
  · rw [ha, hzone, settleArbiter_view]
    exact hview z

end Sys2Proof.Machine
end

