-- ==== Sys2Proof/Proofs/Doors.lean ====
section
/-! PROOFS. The door record through the operations of the Door Controller (R126, R133 to R138): which doors move, and that a door that
moves stays sound. -/

namespace Sys2Proof.Machine

open Sys2Proof

/-! ### Which doors move -/

theorem doorTrouble_doors (i : Fin 12) (k : TroubleKind) (b : Bool) (s : State) : (doorTrouble i k b s).doors = s.doors :=
  (doorTrouble_within i k b s).doors rfl

theorem doorEvent_doors (i : Fin 12) (x : Door) (c : DoorCause) (s : State) : (doorEvent i x c s).doors = s.doors.set i x := by
  unfold doorEvent
  dsimp only
  split
  · rw [doorTrouble_doors]
    split
    · rw [doorTrouble_doors]
      rfl
    · rfl
  · rfl

theorem State.door_eq_of_doors {s t : State} (h : t.doors = s.doors) (i : Fin 12) : t.door i = s.door i := congrArg (·[i]) h

theorem doorEvent_door (i : Fin 12) (x : Door) (c : DoorCause) (s : State) (j : Fin 12) :
    (doorEvent i x c s).door j = if j = i then x else s.door j := by
  have h : (doorEvent i x c s).door j = (s.setDoor i x).door j := State.door_eq_of_doors (doorEvent_doors i x c s) j
  rw [h]
  split
  · rename_i hj
    rw [hj, State.setDoor_door_self]
  · rename_i hj
    exact s.setDoor_door_ne i j x hj

/-! ### What an operation of one door leaves alone -/

/-- An operation that reaches doors, troubles and notices: it keeps the trouble sets and the Port Units sound. -/
structure DoorStep (s t : State) : Prop where
  within : Within .closing s t
  hazards : KeepsHazards s t
  nodup : ∀ z, (s.zone z).troubles.Nodup → (t.zone z).troubles.Nodup
  ports : PortsOk s → PortsOk t

theorem DoorStep.refl (s : State) : DoorStep s s := ⟨.refl _ s, .refl s, fun _ h => h, id⟩

theorem DoorStep.trans {s t u : State} (h : DoorStep s t) (k : DoorStep t u) : DoorStep s u :=
  ⟨h.within.trans k.within, h.hazards.trans k.hazards, fun z hz => k.nodup z (h.nodup z hz), fun hp => k.ports (h.ports hp)⟩

theorem DoorStep.foldl {α : Type} (f : State → α → State) (l : List α) (s : State) (h : ∀ t a, DoorStep t (f t a)) :
    DoorStep s (l.foldl f s) := by
  induction l generalizing s with
  | nil => exact .refl s
  | cons a rest ih => exact (h s a).trans (ih (f s a))

theorem offer_doorStep (o : Offer) (s : State) : DoorStep s (offer o s) :=
  ⟨(offer_within o s).mono rfl, .refl s, fun _ h => h, offer_portsOk o⟩

theorem doorTrouble_local (d : Fin 4) (i : Fin 12) (k : TroubleKind) (b : Bool) (s : State) :
    Local [] d s (doorTrouble i k b s) := by
  unfold doorTrouble
  split
  · exact setTrouble_local d _ k _ b s
  · exact .refl _ d s

theorem doorTrouble_doorStep (i : Fin 12) (k : TroubleKind) (b : Bool) (s : State) : DoorStep s (doorTrouble i k b s) :=
  have h := doorTrouble_local 0 i k b s
  ⟨(doorTrouble_within i k b s).mono rfl, h.hazards, h.nodup, h.ports⟩

theorem setDoor_doorStep (i : Fin 12) (x : Door) (s : State) : DoorStep s (s.setDoor i x) :=
  ⟨(setDoor_within s i x).mono rfl, .refl s, fun _ h => h, id⟩

theorem doorEvent_doorStep (i : Fin 12) (x : Door) (c : DoorCause) (s : State) : DoorStep s (doorEvent i x c s) := by
  have h : DoorStep s (offer (doorOffer i (s.door i) x c) (s.setDoor i x)) := (setDoor_doorStep i x s).trans (offer_doorStep _ _)
  unfold doorEvent
  dsimp only
  split
  · split
    · exact h.trans ((doorTrouble_doorStep i _ _ _).trans (doorTrouble_doorStep i _ _ _))
    · exact h.trans (doorTrouble_doorStep i _ _ _)
  · exact h

/-! ### The door record -/

theorem DoorOk.toFree {x : Door} (h : x.noHolds = true) : DoorOk x.toFree := by
  simp_all [DoorOk, Door.toFree, Door.enter, magnetOn, Door.noHolds]

/-- A door without holds that closes, for a cause. -/
theorem DoorOk.toClosing {x : Door} (h : x.noHolds = true) (hc : x.cause.isSome = true) (c : DoorCfg) (now : Tick) :
    DoorOk (x.toClosing c now) := by
  unfold Door.toClosing
  split
  · exact .toFree h
  · simp_all [DoorOk, Door.enter, magnetOn, Door.noHolds]

theorem DoorOk.release (c : DoorCfg) (now : Tick) (cause : ReleaseCause) (x : Door) : DoorOk (x.release c now cause) := by
  unfold Door.release
  dsimp only
  split
  · simp_all [DoorOk, Door.enter, magnetOn, Door.noHolds]
  · exact .toClosing rfl rfl c now

theorem Door.toClosing_not_held (c : DoorCfg) (now : Tick) (x : Door) : (x.toClosing c now).state ≠ .held := by
  unfold Door.toClosing
  split <;> simp [Door.toFree, Door.enter]

theorem Door.release_not_held (c : DoorCfg) (now : Tick) (cause : ReleaseCause) (x : Door) :
    (x.release c now cause).state ≠ .held := by
  unfold Door.release
  dsimp only
  split
  · simp [Door.enter]
  · exact Door.toClosing_not_held c now _

/-- HELD with a port's hold, whatever the door was. -/
theorem DoorOk.toHeld {p : Port} (hp : p ≠ .sv) (x : Door) (e : Tick) : DoorOk (x.toHeld p e) := by
  cases p
  · simp [DoorOk, Door.toHeld, Door.enter, Door.setHold, magnetOn, Door.noHolds]
  · simp [DoorOk, Door.toHeld, Door.enter, Door.setHold, magnetOn, Door.noHolds]
  · exact absurd rfl hp

/-- A door without holds in every state but HELD. -/
theorem DoorOk.noHolds {x : Door} (h : DoorOk x) (hs : x.state ≠ .held) : x.noHolds = true := by
  obtain ⟨-, hheld, -⟩ := h
  cases hn : x.noHolds
  · exact absurd (hheld.mpr hn) hs
  · rfl

/-- A waiting door takes another cause. -/
theorem DoorOk.setCause {x : Door} (h : DoorOk x) (hs : x.state = .releaseWait) (c : ReleaseCause) :
    DoorOk { x with cause := some c } := by
  obtain ⟨h1, h2, h3, h4, h5, h6, h7, -, -⟩ := h
  exact ⟨h1, h2, h3, h4, h5, h6, h7, by simp [hs], by simp⟩

/-! ### The zone report (R133) -/

/-- A waiting door's cause gives way to another one (R134). -/
def ReleaseCause.outranks (c : ReleaseCause) : Option ReleaseCause → Bool
  | some r => decide (r.rank < c.rank)
  | none => true

/-- A door after a zone report at it (R133, R134). -/
def Door.reported (c : DoorCfg) (now : Tick) (level : Level) (x : Door) : Door :=
  match reportCause c level with
  | none => x
  | some cause =>
    match x.state with
    | .held => x.release c now cause
    | .releaseWait =>
      if cause.outranks x.cause then { x with cause := some cause } else x
    | .free | .closing | .stuck => x

/-- The report of a zone at a door, by the door's record. -/
theorem doorReport_eq (z : Fin 16) (l : Level) (i : Fin 12) (s : State) :
    doorReport z l i s =
      if zoneIn s.cfg.doors[i].zones z then
        match reportCause s.cfg.doors[i] l with
        | none => s
        | some cause =>
          match (s.door i).state with
          | .held => releaseDoor i cause s
          | .releaseWait =>
            if cause.outranks (s.door i).cause then
              doorEvent i { s.door i with cause := some cause } (.release cause) s
            else s
          | .free | .closing | .stuck => s
      else s := by
  unfold doorReport ReleaseCause.outranks
  rfl

theorem doorReport_door (z : Fin 16) (l : Level) (i : Fin 12) (s : State) (j : Fin 12) :
    (doorReport z l i s).door j =
      if j = i then (if zoneIn s.cfg.doors[i].zones z then (s.door i).reported s.cfg.doors[i] s.tick l else s.door i)
      else s.door j := by
  have hsame : s.door j = if j = i then s.door i else s.door j := by split <;> simp_all
  rw [doorReport_eq]
  unfold Door.reported releaseDoor
  split
  · cases reportCause s.cfg.doors[i] l with
    | none => exact hsame
    | some cause =>
      dsimp only
      cases hs : (s.door i).state
      case held => exact doorEvent_door i _ _ s j
      case releaseWait =>
        dsimp only
        split
        · exact doorEvent_door i _ _ s j
        · exact hsame
      all_goals exact hsame
  · exact hsame

theorem doorReport_doorStep (z : Fin 16) (l : Level) (i : Fin 12) (s : State) : DoorStep s (doorReport z l i s) := by
  rw [doorReport_eq]
  unfold releaseDoor
  split
  · split
    · exact .refl s
    · split
      · exact doorEvent_doorStep i _ _ s
      · split
        · exact doorEvent_doorStep i _ _ s
        · exact .refl s
      all_goals exact .refl s
  · exact .refl s

theorem doorsReport_doorStep (z : Fin 16) (l : Level) (s : State) : DoorStep s (doorsReport z l s) :=
  DoorStep.foldl _ _ s fun t i => doorReport_doorStep z l i t

/-- A run over doors, each of which moves one door by its own record, moves each by its own record. -/
theorem foldl_door (f : State → Fin 12 → State) (g : Cfg → Tick → Fin 12 → Door → Door)
    (hf : ∀ t i j, (f t i).door j = if j = i then g t.cfg t.tick i (t.door i) else t.door j) (hfix : ∀ t i, KeepsFixed t (f t i))
    (l : List (Fin 12)) (hl : l.Nodup) (s : State) (j : Fin 12) :
    (l.foldl f s).door j = if j ∈ l then g s.cfg s.tick j (s.door j) else s.door j := by
  induction l generalizing s with
  | nil => simp
  | cons i rest ih =>
    obtain ⟨hi, hrest⟩ := List.nodup_cons.mp hl
    obtain ⟨htick, -, hcfg, -⟩ := hfix s i
    rw [List.foldl_cons, ih hrest, htick, hcfg, hf]
    by_cases hj : j = i
    · subst hj
      simp [hi]
    · simp [hj]

/-- What the report of a zone leaves at each door (R133). -/
theorem doorsReport_door (z : Fin 16) (l : Level) (s : State) (j : Fin 12) :
    (doorsReport z l s).door j =
      if zoneIn s.cfg.doors[j].zones z then (s.door j).reported s.cfg.doors[j] s.tick l else s.door j := by
  refine (foldl_door _ (fun c now i x => if zoneIn c.doors[i].zones z then x.reported c.doors[i] now l else x)
    (fun t i j => doorReport_door z l i t j) (fun t i => (doorReport_within z l i t).fixed) _ (List.nodup_finRange 12) s j).trans ?_
  rw [if_pos (List.mem_finRange j)]

theorem DoorOk.reported {x : Door} (h : DoorOk x) (c : DoorCfg) (now : Tick) (l : Level) : DoorOk (x.reported c now l) := by
  unfold Door.reported
  split
  · exact h
  · split
    · exact .release c now _ x
    · split
      · exact h.setCause (by assumption) _
      · exact h
    all_goals exact h

/-- A report makes no door HELD, and lets go every HELD door that it calls shut. -/
theorem Door.reported_held {c : DoorCfg} {now : Tick} {l : Level} {x : Door} (h : (x.reported c now l).state = .held) :
    x.state = .held ∧ reportCause c l = none := by
  unfold Door.reported at h
  split at h
  · exact ⟨h, by assumption⟩
  · split at h
    · exact absurd h (Door.release_not_held c now _ x)
    · split at h
      · simp_all
      · simp_all
    all_goals simp_all

theorem reportCause_none {c : DoorCfg} {l : Level} (h : reportCause c l = none) :
    l ≠ .fire ∧ (c.closeOnAlarm = true → l ≠ .alarm) := by
  unfold reportCause at h
  split at h
  · simp at h
  · split at h
    · simp at h
    · rename_i h1 h2
      exact ⟨h1, fun hc hl => h2 ⟨hl, hc⟩⟩

end Sys2Proof.Machine
end

