-- ==== Sys2Proof/Proofs/ZoneEvents.lean ====
section
/-! PROOFS. The event of a zone (R3 to R6) with its report to the Overlay Stacks, the Door Controller and the Siren Arbiter: what it
leaves of zones, ducts and doors, and the Arbiter that it leaves. -/

namespace Sys2Proof.Machine

open Sys2Proof

/-! ### The settled record (R4, R5) -/

theorem Level.max_fire {a b : Level} : a.max b = .fire ↔ a = .fire ∨ b = .fire := by
  cases a <;> cases b <;> decide

/-- A cause set stands at FIRE exactly where one of its records does. -/
theorem causesLevel_fire {causes : Vector Level 13} : causesLevel causes = .fire ↔ ∃ i : Fin 13, causes[i] = .fire := by
  have h : ∀ (l : List (Fin 13)) (a : Level),
      l.foldl (fun l i => l.max causes[i]) a = .fire ↔ a = .fire ∨ ∃ i ∈ l, causes[i] = .fire := by
    intro l
    induction l with
    | nil => simp
    | cons i rest ih =>
      intro a
      rw [List.foldl_cons, ih, Level.max_fire, or_assoc]
      simp
  exact (h (List.finRange 13) .normal).trans (by simp)

theorem settleZone_level (old raw : Zone) (r : Bool) : (settleZone old raw r).level = deriveLevel raw.latch raw.causes := rfl
@[simp] theorem settleZone_causes (old raw : Zone) (r : Bool) : (settleZone old raw r).causes = raw.causes := rfl
@[simp] theorem settleZone_troubles (old raw : Zone) (r : Bool) : (settleZone old raw r).troubles = raw.troubles := rfl
@[simp] theorem settleZone_kind (old raw : Zone) (r : Bool) : (settleZone old raw r).kind = raw.kind := rfl
theorem settleZone_latch (old raw : Zone) (r : Bool) :
    (settleZone old raw r).latch = (raw.latch || decide (deriveLevel raw.latch raw.causes = .fire)) := rfl

theorem settleZone_ok {old raw : Zone} (r : Bool) (h : raw.troubles.Nodup) : ZoneOk (settleZone old raw r) := by
  refine ⟨?_, ?_, h⟩
  · rw [settleZone_latch, settleZone_level]
    cases hl : raw.latch <;> simp [deriveLevel]
  · rw [settleZone_latch, settleZone_level, settleZone_causes]
    cases hl : raw.latch
    · by_cases hf : causesLevel raw.causes = .fire <;> simp [deriveLevel, hf]
    · simp [deriveLevel]

/-! ### The stages of the event -/

/-- The overlays of a duct after the report of a zone at a level. -/
theorem clearEntries_duct (d : Fin 4) (l : List Overlay) (s : State) (e : Fin 4) :
    (clearEntries d l s).duct e =
      { s.duct e with overlays := if e = d ∧ l ≠ [] then [] else (s.duct e).overlays } := by
  induction l generalizing s with
  | nil => simp [clearEntries]
  | cons x rest ih =>
    unfold clearEntries
    dsimp only
    rw [ih]
    by_cases he : e = d
    · subst he
      cases rest <;> simp [State.setOverlays]
    · simp [State.setOverlays, State.setDuct_duct_ne _ _ _ _ he, he]

/-- A report at ALARM or above empties the stack of the zone's duct, and no report moves anything else in a duct (R121). -/
theorem overlaysReport_duct (z : Fin 16) (l : Level) (s : State) (e : Fin 4) :
    (overlaysReport z l s).duct e =
      { s.duct e with overlays := if ductZone e = z ∧ l.atLeast .alarm = true then [] else (s.duct e).overlays } := by
  have hz : ∀ d, zoneDuct z = some d → (ductZone e = z ↔ e = d) := by
    intro d hd
    unfold zoneDuct at hd
    split at hd
    · obtain rfl := Option.some.inj hd
      simp [ductZone, Fin.ext_iff]
    · simp at hd
  have hn : zoneDuct z = none → ductZone e ≠ z := by
    intro hd he
    have : z.val < 4 := by rw [← he]; exact e.isLt
    simp [zoneDuct, this] at hd
  unfold overlaysReport
  cases hd : zoneDuct z with
  | none => simp [hn hd]
  | some d =>
    dsimp only
    simp only [hz d hd]
    split
    · rename_i hl
      rw [clearOverlays, clearEntries_duct]
      by_cases he : e = d
      · subst he
        by_cases hs : (s.duct e).overlays = [] <;> simp [hl, hs]
      · simp [he]
    · rename_i hl
      simp [hl]

theorem clearEntries_ports (d : Fin 4) (l : List Overlay) {s : State} (h : PortsOk s) : PortsOk (clearEntries d l s) := by
  induction l generalizing s with
  | nil => exact h
  | cons x rest ih => exact ih (offer_portsOk _ h)

theorem overlaysReport_ports (z : Fin 16) (l : Level) {s : State} (h : PortsOk s) : PortsOk (overlaysReport z l s) := by
  unfold overlaysReport
  split
  · split
    · exact clearEntries_ports _ _ h
    · exact h
  · exact h

theorem sirenNotices_ports (old new : Arbiter) (f : Fin 8 → Siren → SirenCause) (c : SirenCause) {s : State} (h : PortsOk s) :
    PortsOk (sirenNotices old new f c s) := by
  have hstep : ∀ t i, PortsOk t → PortsOk (sirenNotice old new f c i t) := by
    intro t i ht
    unfold sirenNotice
    dsimp only
    split
    · exact offer_portsOk _ ht
    · split
      · exact offer_portsOk _ ht
      · exact ht
  have hrun : ∀ (l : List (Fin 8)) t, PortsOk t → PortsOk (l.foldl (fun s i => sirenNotice old new f c i s) t) := by
    intro l
    induction l with
    | nil => exact fun _ ht => ht
    | cons i rest ih => exact fun t ht => ih _ (hstep t i ht)
  exact hrun _ s h

theorem arbiterEvent_ports (a : Arbiter) (g : Fin 8 → Bool) (f : Fin 8 → Siren → SirenCause) {s : State} (h : PortsOk s) :
    PortsOk (arbiterEvent a g f s) :=
  sirenNotices_ports _ _ f _ h

/-- The Arbiter as a zone report finds it: the zone view brought up to date and the report taken by the covering sirens (R143). -/
def Arbiter.told (c : Cfg) (z : Fin 16) (level : Level) (acked : AckSet) (reset : Bool) (ends : Tick) (a : Arbiter) : Arbiter :=
  Arbiter.update { a with view := a.view.set z ⟨level, acked⟩ } (fun i => zoneIn c.sirens[i].cover z) fun _ x =>
    reportSiren z a.view[z].level level reset ends x

theorem Arbiter.told_siren (c : Cfg) (z : Fin 16) (level : Level) (acked : AckSet) (reset : Bool) (ends : Tick) (a : Arbiter)
    (i : Fin 8) : (a.told c z level acked reset ends).sirens[i] =
      if zoneIn c.sirens[i].cover z then reportSiren z a.view[z].level level reset ends a.sirens[i] else a.sirens[i] :=
  Arbiter.update_siren _ _ _ i

theorem sirensReport_arbiter (z : Fin 16) (level : Level) (acked : AckSet) (reset : Bool) (s : State) :
    (sirensReport z level acked reset s).arbiter =
      settleArbiter s.cfg s.tick s.arbiter
        (s.arbiter.told s.cfg z level acked reset (s.after (secondsTicks s.cfg.allClearTime)))
        fun i => zoneIn s.cfg.sirens[i].cover z :=
  arbiterEvent_arbiter _ _ _ s

/-- What a report leaves of a snapshot: zones of it, and the zone itself only at ALARM or above (R151). -/
theorem reportSiren_snapshot {z q : Fin 16} {was level : Level} {reset : Bool} {ends : Tick} {x : Siren}
    (h : zoneIn (reportSiren z was level reset ends x).snapshot q = true) :
    zoneIn x.snapshot q = true ∧ (q = z → level.atLeast .alarm = true) := by
  unfold reportSiren at h
  extract_lets low rises kept resound clear at h
  dsimp only at h
  split at h
  · rw [zoneIn_zero] at h
    exact absurd h Bool.false_ne_true
  · simp only [kept, low] at h
    cases hl : level.atLeast .alarm
    · simp only [hl, Bool.not_false, if_true, zoneIn_clear, Bool.and_eq_true, decide_eq_true_eq] at h
      exact ⟨h.1, fun e => absurd e h.2⟩
    · simp only [hl, Bool.not_true, Bool.false_eq_true, if_false] at h
      exact ⟨h, fun _ => rfl⟩

/-- A zone report keeps the Arbiter sound under the zone view that it brings (R143, R144, R151). -/
theorem sirensReport_ok {z : Fin 16} {level : Level} {acked : AckSet} {reset : Bool} {s : State} (hok : ArbiterOk s.cfg s.arbiter)
    (hdemand : ∀ i : Fin 8, DemandOk s.cfg.sirens[i] s.arbiter.view s.arbiter.sirens[i]) :
    let a := (sirensReport z level acked reset s).arbiter
    ArbiterOk s.cfg a ∧ (∀ i : Fin 8, DemandOk s.cfg.sirens[i] a.view a.sirens[i]) ∧
      a.view = s.arbiter.view.set z ⟨level, acked⟩ := by
  dsimp only
  rw [sirensReport_arbiter]
  refine ⟨settleArbiter_ok _ _ ⟨rfl, fun i => ?_⟩ hok, fun i => ?_, by rw [settleArbiter_view]; rfl⟩
  · rw [Arbiter.told_siren]
    split <;> rfl
  · obtain ⟨hd, hs⟩ := hdemand i
    have hview : ∀ q : Fin 16, q ≠ z →
        (s.arbiter.told s.cfg z level acked reset (s.after (secondsTicks s.cfg.allClearTime))).view[q] = s.arbiter.view[q] := by
      intro q hq
      have : z.val ≠ q.val := fun e => hq (Fin.ext e.symm)
      simp [Arbiter.told, this]
    refine settleArbiter_demandOk (fun hg => ?_) fun q hq => ?_
    · rw [Arbiter.told_siren, if_neg (by rw [hg]; exact Bool.false_ne_true)]
      exact hd.trans (sirenDemand_set_view hg _ _).symm
    · rw [Arbiter.told_siren] at hq
      split at hq
      · obtain ⟨hx, hz⟩ := reportSiren_snapshot hq
        by_cases he : q = z
        · subst he
          exact ⟨(hs q hx).1, by simpa [Arbiter.told] using hz rfl⟩
        · exact ⟨(hs q hx).1, hview q he ▸ (hs q hx).2⟩
      · rename_i hc
        have he : q ≠ z := fun e => hc (e ▸ (hs q hq).1)
        exact ⟨(hs q hq).1, hview q he ▸ (hs q hq).2⟩

/-! ### The whole event -/

/-- The record of the zone that an event settles. -/
theorem zoneChanged_false {old new : Zone} (h : zoneChanged old new = false) :
    new.level = old.level ∧ new.latch = old.latch ∧ new.acked = old.acked := by
  simpa [zoneChanged, and_assoc] using h

/-- The reports of a zone's event in the state with the settled record, where its tag rises. -/
def reportZone (z : Fin 16) (old new : Zone) (cause : ZoneCause) (reset : Bool) (s : State) : State :=
  sirensReport z new.level new.acked reset (doorsReport z new.level (overlaysReport z new.level (offer (zoneOffer z old new cause) s)))

/-- What the event of a zone can do: the record is settled, and where its tag rises the change is told and reported. -/
theorem zoneEvent_cases (z : Fin 16) (raw : Zone) (cause : ZoneCause) (reset : Bool) (s : State) :
    let old := s.zone z
    let new := settleZone old raw reset
    (zoneChanged old new = true ∧ zoneEvent z raw cause reset s =
        ⟨reportZone z old new cause reset (s.setZone z new), decide (new.level = .fire)⟩) ∨
      (zoneChanged old new = false ∧ zoneEvent z raw cause reset s = ⟨s.setZone z new, false⟩) := by
  intro old new
  cases h : zoneChanged old new
  · exact .inr ⟨rfl, if_neg (Bool.eq_false_iff.mp h)⟩
  · exact .inl ⟨rfl, if_pos h⟩

theorem reportZone_doorStep_zone (z : Fin 16) (old new : Zone) (cause : ZoneCause) (reset : Bool) (s : State) :
    KeepsHazards s (reportZone z old new cause reset s) ∧
      (∀ y, (s.zone y).troubles.Nodup → ((reportZone z old new cause reset s).zone y).troubles.Nodup) ∧
      (PortsOk s → PortsOk (reportZone z old new cause reset s)) := by
  unfold reportZone
  generalize hu : overlaysReport z new.level (offer (zoneOffer z old new cause) s) = u
  have hzones : u.zones = s.zones := by
    rw [← hu]
    exact (overlaysReport_within z new.level _).zones rfl
  have hzone : ∀ y, u.zone y = s.zone y := fun y => congrArg (·[y]) hzones
  have hports : PortsOk s → PortsOk u := fun h => by
    rw [← hu]
    exact overlaysReport_ports z _ (offer_portsOk _ h)
  have hd := doorsReport_doorStep z new.level u
  have hs : ∀ y, (sirensReport z new.level new.acked reset (doorsReport z new.level u)).zone y =
      (doorsReport z new.level u).zone y := fun y =>
    congrArg (·[y]) ((sirensReport_within z new.level new.acked reset _).zones rfl)
  refine ⟨fun y => ?_, fun y hy => ?_, fun h => arbiterEvent_ports _ _ _ (hd.ports (hports h))⟩
  · have := hd.hazards y
    unfold KeepsHazard at this ⊢
    rw [hs, this, hzone]
  · rw [hs]
    exact hd.nodup y (by rwa [hzone])

theorem reportZone_duct (z : Fin 16) (old new : Zone) (cause : ZoneCause) (reset : Bool) (s : State) (d : Fin 4) :
    (reportZone z old new cause reset s).duct d =
      { s.duct d with overlays := if ductZone d = z ∧ new.level.atLeast .alarm = true then [] else (s.duct d).overlays } := by
  have hs : ∀ u, (sirensReport z new.level new.acked reset (doorsReport z new.level u)).duct d = u.duct d := fun u =>
    (congrArg (·[d]) ((sirensReport_within z new.level new.acked reset _).ducts rfl)).trans
      (congrArg (·[d]) ((doorsReport_within z new.level u).ducts rfl))
  rw [reportZone, hs, overlaysReport_duct]
  rfl

theorem reportZone_door (z : Fin 16) (old new : Zone) (cause : ZoneCause) (reset : Bool) (s : State) (i : Fin 12) :
    (reportZone z old new cause reset s).door i =
      if zoneIn s.cfg.doors[i].zones z then (s.door i).reported s.cfg.doors[i] s.tick new.level else s.door i := by
  generalize hu : overlaysReport z new.level (offer (zoneOffer z old new cause) s) = u
  have hw : Within { ducts := true } s u := by
    rw [← hu]
    exact ((offer_within _ s).mono rfl).trans (overlaysReport_within z new.level _)
  obtain ⟨htick, -, hcfg, -⟩ := hw.fixed
  have hdoor : u.door i = s.door i := State.door_eq_of_doors (hw.doors rfl) i
  have hs : (reportZone z old new cause reset s).door i = (doorsReport z new.level u).door i := by
    rw [reportZone, hu]
    exact State.door_eq_of_doors ((sirensReport_within z new.level new.acked reset _).doors rfl) i
  rw [hs, doorsReport_door, htick, hcfg, hdoor]

/-- What goes to the Arbiter of a zone's report meets the Arbiter as it was. -/
theorem reportZone_arbiter (z : Fin 16) (old new : Zone) (cause : ZoneCause) (reset : Bool) (s : State) :
    ∃ u, u.arbiter = s.arbiter ∧ u.cfg = s.cfg ∧ u.tick = s.tick ∧
      reportZone z old new cause reset s = sirensReport z new.level new.acked reset u := by
  have hw : Within .hazard s (doorsReport z new.level (overlaysReport z new.level (offer (zoneOffer z old new cause) s))) :=
    ((offer_within _ s).mono rfl).trans (((overlaysReport_within z new.level _).mono rfl).trans
      ((doorsReport_within z new.level _).mono rfl))
  have ha : (doorsReport z new.level (overlaysReport z new.level (offer (zoneOffer z old new cause) s))).arbiter = s.arbiter :=
    ((doorsReport_within z new.level _).arbiter rfl).trans ((overlaysReport_within z new.level _).arbiter rfl)
  obtain ⟨htick, -, hcfg, -⟩ := hw.fixed
  exact ⟨_, ha, hcfg, htick, rfl⟩

/-- The record of each zone behind a zone's event: the settled one at the zone itself, but for troubles. -/
theorem zoneEvent_zone (z : Fin 16) (raw : Zone) (cause : ZoneCause) (reset : Bool) (s : State) (y : Fin 16) :
    let t := (zoneEvent z raw cause reset s).state
    t.zone y = { (if y = z then settleZone (s.zone z) raw reset else s.zone y) with troubles := (t.zone y).troubles } := by
  intro t
  have hset : (s.setZone z (settleZone (s.zone z) raw reset)).zone y =
      if y = z then settleZone (s.zone z) raw reset else s.zone y := by
    split
    · rename_i h
      rw [h, State.setZone_zone_self]
    · exact s.setZone_zone_ne z y _ ‹_›
  rw [← hset]
  rcases zoneEvent_cases z raw cause reset s with ⟨-, h⟩ | ⟨-, h⟩
  · rw [show t = _ from congrArg Posted.state h]
    exact (reportZone_doorStep_zone z _ _ cause reset _).1 y
  · rw [show t = _ from congrArg Posted.state h]

/-- A zone's event leaves every other zone's hazard. -/
theorem zoneEvent_hazard (z : Fin 16) (raw : Zone) (cause : ZoneCause) (reset : Bool) (s : State) {y : Fin 16} (hy : y ≠ z) :
    KeepsHazard y s (zoneEvent z raw cause reset s).state := by
  have h := zoneEvent_zone z raw cause reset s y
  rwa [if_neg hy] at h

theorem zoneEvent_level (z : Fin 16) (raw : Zone) (cause : ZoneCause) (reset : Bool) (s : State) :
    ((zoneEvent z raw cause reset s).state.zone z).level = deriveLevel raw.latch raw.causes := by
  rw [zoneEvent_zone, if_pos rfl]
  rfl

theorem zoneEvent_causes (z : Fin 16) (raw : Zone) (cause : ZoneCause) (reset : Bool) (s : State) :
    ((zoneEvent z raw cause reset s).state.zone z).causes = raw.causes := by
  rw [zoneEvent_zone, if_pos rfl]
  rfl

/-- In a duct a zone's event reaches the overlay stack alone. -/
theorem zoneEvent_duct (z : Fin 16) (raw : Zone) (cause : ZoneCause) (reset : Bool) (s : State) (d : Fin 4) :
    let t := (zoneEvent z raw cause reset s).state
    t.duct d = { s.duct d with overlays := (t.duct d).overlays } := by
  intro t
  rcases zoneEvent_cases z raw cause reset s with ⟨-, h⟩ | ⟨-, h⟩
  · rw [show t = _ from congrArg Posted.state h, reportZone_duct]
    rfl
  · rw [show t = _ from congrArg Posted.state h]
    rfl

theorem zoneEvent_ctl (z : Fin 16) (raw : Zone) (cause : ZoneCause) (reset : Bool) (s : State) (d : Fin 4) :
    (zoneEvent z raw cause reset s).state.ctl d = s.ctl d := by
  rw [State.ctl, zoneEvent_duct]
  rfl

/-- A zone that an event leaves at FIRE is shown at FIRE, or stood there. -/
theorem zoneEvent_fire (z : Fin 16) (raw : Zone) (cause : ZoneCause) (reset : Bool) (s : State)
    (h : ((zoneEvent z raw cause reset s).state.zone z).level = .fire) :
    (zoneEvent z raw cause reset s).fire = true ∨ (s.zone z).level = .fire := by
  rw [zoneEvent_level] at h
  rcases zoneEvent_cases z raw cause reset s with ⟨-, he⟩ | ⟨hc, he⟩
  · rw [he]
    exact .inl (decide_eq_true h)
  · exact .inr ((zoneChanged_false hc).1.symm.trans h)

end Sys2Proof.Machine
end

