-- ==== Sys2Proof/Proofs/Invariants.lean ====
section
/-! PROOFS. What an operation keeps, as one preorder over all the invariants, and the operations of one duct, of the doors and of one
zone in it. -/

namespace Sys2Proof.Machine

open Sys2Proof

/-! ### A part that stays keeps what is said of it -/

theorem State.zone_eq_of_zones {s t : State} (h : t.zones = s.zones) (z : Fin 16) : t.zone z = s.zone z := congrArg (·[z]) h
theorem State.duct_eq_of_ducts {s t : State} (h : t.ducts = s.ducts) (d : Fin 4) : t.duct d = s.duct d := congrArg (·[d]) h

theorem KeepsHazards.of_zones {s t : State} (h : t.zones = s.zones) : KeepsHazards s t := fun z => by
  rw [KeepsHazard, State.zone_eq_of_zones h]

section
variable {z : Fin 16} {s t : State} (h : KeepsHazard z s t)
include h

theorem KeepsHazard.level : (t.zone z).level = (s.zone z).level := by rw [show t.zone z = _ from h]
theorem KeepsHazard.latch : (t.zone z).latch = (s.zone z).latch := by rw [show t.zone z = _ from h]
theorem KeepsHazard.acked : (t.zone z).acked = (s.zone z).acked := by rw [show t.zone z = _ from h]
theorem KeepsHazard.causes : (t.zone z).causes = (s.zone z).causes := by rw [show t.zone z = _ from h]

end

theorem Within.hazards {m : Parts} {s t : State} (h : Within m s t) (hm : m.zones = false) : KeepsHazards s t :=
  .of_zones (h.zones hm)

section
variable {s t : State} (hz : KeepsHazards s t)
include hz

theorem KeepsHazards.level (z : Fin 16) : (t.zone z).level = (s.zone z).level := (hz z).level
theorem KeepsHazards.latch (z : Fin 16) : (t.zone z).latch = (s.zone z).latch := (hz z).latch
theorem KeepsHazards.acked (z : Fin 16) : (t.zone z).acked = (s.zone z).acked := (hz z).acked
theorem KeepsHazards.causes (z : Fin 16) : (t.zone z).causes = (s.zone z).causes := (hz z).causes

theorem KeepsHazards.zonesOk (hn : ∀ z, (s.zone z).troubles.Nodup → (t.zone z).troubles.Nodup) (h : ZonesOk s) : ZonesOk t := fun z => by
  obtain ⟨hlatch, hlevel, hnodup⟩ := h z
  exact ⟨by rw [hz.latch, hz.level]; exact hlatch, by rw [hz.latch, hz.level, hz.causes]; exact hlevel, hn z hnodup⟩

theorem DoorsClear.of_same (hd : t.doors = s.doors) (hc : t.cfg = s.cfg) (h : DoorsClear s) : DoorsClear t := fun i z => by
  rw [State.door_eq_of_doors hd, hz.level, hc]
  exact h i z

theorem SirensOk.of_same (ha : t.arbiter = s.arbiter) (hc : t.cfg = s.cfg) (h : SirensOk s) : SirensOk t := by
  obtain ⟨harb, hdemand, hview⟩ := h
  rw [SirensOk, ha, hc]
  exact ⟨harb, hdemand, fun z => by rw [hz.level, hz.acked]; exact hview z⟩

theorem OverlaysOk.of_same (ho : ∀ d, (t.duct d).overlays = (s.duct d).overlays) (h : OverlaysOk s) : OverlaysOk t := fun d => by
  rw [ho, hz.level]
  exact h d

theorem PostedOk.of_same (hp : ∀ d, DuctPart.posts.Same (s.duct d) (t.duct d)) (h : PostedOk s) : PostedOk t := fun d => by
  obtain ⟨hduct, hvel, hember⟩ := hp d
  rw [hz.causes]
  obtain ⟨kduct, kvel, kember⟩ := h d
  exact ⟨kduct.trans hduct.symm, kvel.trans hvel.symm, kember.trans hember.symm⟩

theorem DuctsClear.of_same (hc : t.cfg = s.cfg) (hr : ∀ d, (t.ctl d).state.isRunning = true → (s.ctl d).state.isRunning = true)
    (h : DuctsClear s) : DuctsClear t := fun d z hacts hfire => by
  rw [ActsOnZone, State.ductCfg, hc] at hacts
  rw [hz.level] at hfire
  exact Bool.eq_false_iff.mpr fun hrun => absurd (h d z hacts hfire) (by simp [hr d hrun])

end

theorem OutputsOk.of_same {s t : State} (hd : ∀ d, t.duct d = s.duct d) (h : OutputsOk s) : OutputsOk t := fun d => hd d ▸ h d

theorem boundsOk_iff_at (s : State) : BoundsOk s ↔ ∀ d, BoundsAt s d := boundsOk_iff s

theorem TracksOk.of_same {s t : State} (hi : ∀ d, DuctPart.ids.Same (s.duct d) (t.duct d))
    (hm : ∀ d, (t.ctl d).listMark = (s.ctl d).listMark) (h : TracksOk s) : TracksOk t := fun d => by
  obtain ⟨hlen, hnodup, hmark⟩ := h d
  have hids : (t.duct d).tracks.map Track.id = (s.duct d).tracks.map Track.id := hi d
  have hlength : (t.duct d).tracks.length = (s.duct d).tracks.length := by simpa using congrArg List.length hids
  refine ⟨hlength ▸ hlen, hids ▸ hnodup, ?_⟩
  rw [hm, hmark, ← List.length_pos_iff, ← List.length_pos_iff, hlength]

theorem CapturesOk.of_same {s t : State} (hc : t.captures = s.captures) (hs : t.stations = s.stations) (h : CapturesOk s) :
    CapturesOk t := by
  unfold CapturesOk
  rw [hc, hs]
  exact h

theorem StoreOk.of_same {s t : State} (hl : t.loader = s.loader) (hs : t.store = s.store) (h : StoreOk s) : StoreOk t := by
  unfold StoreOk
  rw [hl, hs]
  exact h

theorem KeepsFixed.running {s t : State} (h : KeepsFixed s t) : t.isRunning = s.isRunning := by
  obtain ⟨-, -, -, -, hloader, -⟩ := h
  rw [State.isRunning, State.isRunning, hloader]

theorem KeepsFixed.cfg_eq {s t : State} (h : KeepsFixed s t) : t.cfg = s.cfg := by
  obtain ⟨-, -, hcfg, -⟩ := h
  exact hcfg

theorem KeepsFixed.tick_eq {s t : State} (h : KeepsFixed s t) : t.tick = s.tick := by
  obtain ⟨htick, -⟩ := h
  exact htick

theorem KeepsFixed.storeOk {s t : State} (h : KeepsFixed s t) (hs : StoreOk s) : StoreOk t := by
  obtain ⟨-, -, -, -, hloader, hstore, -⟩ := h
  exact hs.of_same hloader hstore

/-! ### The preorder -/

/-- An operation inside an event keeps every invariant that stands between the operations of an event too. -/
structure Keeps (unlatch : Bool) (s t : State) : Prop where
  cfg : t.cfg = s.cfg
  running : t.isRunning = s.isRunning
  latches : unlatch = false → ∀ z, (s.zone z).latch = true → (t.zone z).latch = true
  zones : ZonesOk s → ZonesOk t
  ports : PortsOk s → PortsOk t
  outputs : OutputsOk s → OutputsOk t
  bounds : BoundsOk s → BoundsOk t
  overlays : OverlaysOk s → OverlaysOk t
  doors : DoorsOk s → DoorsOk t
  doorsClear : DoorsClear s → DoorsClear t
  sirens : SirensOk s → SirensOk t
  captures : CapturesOk s → CapturesOk t
  store : StoreOk s → StoreOk t

theorem Keeps.refl (u : Bool) (s : State) : Keeps u s s := ⟨rfl, rfl, fun _ _ h => h, id, id, id, id, id, id, id, id, id, id⟩

theorem Keeps.trans {u : Bool} {s t w : State} (h : Keeps u s t) (k : Keeps u t w) : Keeps u s w where
  cfg := k.cfg.trans h.cfg
  running := k.running.trans h.running
  latches := fun hu z hz => k.latches hu z (h.latches hu z hz)
  zones := fun x => k.zones (h.zones x)
  ports := fun x => k.ports (h.ports x)
  outputs := fun x => k.outputs (h.outputs x)
  bounds := fun x => k.bounds (h.bounds x)
  overlays := fun x => k.overlays (h.overlays x)
  doors := fun x => k.doors (h.doors x)
  doorsClear := fun x => k.doorsClear (h.doorsClear x)
  sirens := fun x => k.sirens (h.sirens x)
  captures := fun x => k.captures (h.captures x)
  store := fun x => k.store (h.store x)

theorem Keeps.foldl {α : Type} {u : Bool} (f : State → α → State) (l : List α) (s : State) (h : ∀ t a, Keeps u t (f t a)) :
    Keeps u s (l.foldl f s) := by
  induction l generalizing s with
  | nil => exact .refl u s
  | cons a rest ih => exact (h s a).trans (ih (f s a))

/-- A whole event of the blocks keeps the invariants over the Duct Controllers, their tracks and the causes they post too. -/
structure Sound (unlatch : Bool) (s t : State) : Prop extends Keeps unlatch s t where
  tracks : TracksOk s → TracksOk t
  posted : PostedOk s → PostedOk t
  clear : ZonesOk s → PostedOk s → DuctsClear s → DuctsClear t

theorem Sound.refl (u : Bool) (s : State) : Sound u s s := ⟨.refl u s, id, id, fun _ _ => id⟩

theorem Sound.trans {u : Bool} {s t w : State} (h : Sound u s t) (k : Sound u t w) : Sound u s w :=
  ⟨h.toKeeps.trans k.toKeeps, fun x => k.tracks (h.tracks x), fun x => k.posted (h.posted x),
    fun hz hp hc => k.clear (h.zones hz) (h.posted hp) (h.clear hz hp hc)⟩

/-! ### What does not reach the blocks of the ducts -/

/-- An operation that leaves the hazards and the ducts alone is sound where it is so on the parts that it reaches. -/
theorem Sound.of_hazards {u : Bool} {s t : State} (hf : KeepsFixed s t) (hz : KeepsHazards s t)
    (hn : ∀ z, (s.zone z).troubles.Nodup → (t.zone z).troubles.Nodup) (hd : t.ducts = s.ducts)
    (ports : PortsOk s → PortsOk t) (doors : DoorsOk s → DoorsOk t) (doorsClear : DoorsClear s → DoorsClear t)
    (sirens : SirensOk s → SirensOk t) (captures : CapturesOk s → CapturesOk t) : Sound u s t := by
  have hduct := State.duct_eq_of_ducts hd
  have hctl : ∀ d, t.ctl d = s.ctl d := fun d => congrArg Duct.ctl (hduct d)
  have hsame : ∀ (p : DuctPart) d, p.Same (s.duct d) (t.duct d) := fun p d => by
    rw [hduct]
    exact .refl p _
  refine
    { cfg := hf.cfg_eq, running := hf.running, latches := fun _ z h => (hz.latch z).trans h, zones := hz.zonesOk hn, ports := ports,
      outputs := .of_same hduct, bounds := fun h => ?_, overlays := .of_same hz fun d => by rw [hduct], doors := doors,
      doorsClear := doorsClear, sirens := sirens, captures := captures, store := hf.storeOk,
      tracks := .of_same (hsame .ids) fun d => by rw [hctl], posted := .of_same hz (hsame .posts),
      clear := fun _ _ => .of_same hz hf.cfg_eq fun d => by rw [hctl]; exact id }
  rw [boundsOk_iff_at] at h ⊢
  intro d
  rw [BoundsAt, hduct, hctl, State.ductCfg, hf.cfg_eq]
  exact h d

theorem DoorStep.sound {u : Bool} {s t : State} (h : DoorStep s t) (doors : DoorsOk s → DoorsOk t)
    (doorsClear : DoorsClear s → DoorsClear t) : Sound u s t :=
  .of_hazards h.within.fixed h.hazards h.nodup (h.within.ducts rfl) h.ports doors doorsClear
    (.of_same h.hazards (h.within.arbiter rfl) h.within.fixed.cfg_eq) (.of_same (h.within.captures rfl) (h.within.stations rfl))

/-- An operation of one door. -/
theorem DoorStep.sound_at {u : Bool} {s t : State} {i : Fin 12} {x : Door} (h : DoorStep s t)
    (hdoor : ∀ j, t.door j = if j = i then x else s.door j) (hok : DoorOk (s.door i) → DoorOk x)
    (hclear : x.state = .held → (s.door i).state = .held ∨
      ∀ z, zoneIn s.cfg.doors[i].zones z = true →
        (s.zone z).level ≠ .fire ∧ (s.cfg.doors[i].closeOnAlarm = true → (s.zone z).level ≠ .alarm)) : Sound u s t := by
  refine h.sound (fun hs j => ?_) fun hs j z hj hzone => ?_
  · rw [hdoor]
    split
    · rename_i hj
      exact hok (hs i)
    · exact hs j
  · rw [hdoor] at hj
    rw [h.hazards.level]
    rw [h.within.fixed.cfg_eq] at hzone ⊢
    split at hj
    · rename_i he
      subst he
      rcases hclear hj with hheld | hall
      · exact hs j z hheld hzone
      · exact hall z hzone
    · exact hs j z hj hzone

/-! ### The operations of one duct -/

section
variable {m : List DuctPart} {d : Fin 4} {s t : State} (h : Local m d s t)
include h

theorem Local.same_at (p : DuctPart) (hp : p ∉ m) (e : Fin 4) : p.Same (s.duct e) (t.duct e) := by
  by_cases he : e = d
  · rw [he]
    exact h.same p hp
  · rw [h.others e he]
    exact .refl p _

theorem Local.keeps {u : Bool} (hoverlays : OverlaysOk s → OverlaysOk t) : Keeps u s t where
  cfg := h.within.fixed.cfg_eq
  running := h.within.fixed.running
  latches := fun _ z hl => (h.hazards.latch z).trans hl
  zones := h.hazards.zonesOk h.nodup
  ports := h.ports
  outputs := fun ho e => by
    by_cases he : e = d
    · exact he ▸ h.outputs (ho d)
    · exact h.others e he ▸ ho e
  bounds := fun hb => by
    rw [boundsOk_iff_at] at hb ⊢
    intro e
    by_cases he : e = d
    · exact he ▸ h.bounds (hb d)
    · rw [BoundsAt, h.others e he, h.ctl_ne he, State.ductCfg, h.within.fixed.cfg_eq]
      exact hb e
  overlays := hoverlays
  doors := fun hd i => State.door_eq_of_doors (h.within.doors rfl) i ▸ hd i
  doorsClear := .of_same h.hazards (h.within.doors rfl) h.within.fixed.cfg_eq
  sirens := .of_same h.hazards (h.within.arbiter rfl) h.within.fixed.cfg_eq
  captures := .of_same (h.within.captures rfl) (h.within.stations rfl)
  store := h.within.fixed.storeOk

/-- An operation of one duct that leaves the overlay stack alone. -/
theorem Local.keeps_dry {u : Bool} (hm : .overlays ∉ m) : Keeps u s t := h.keeps (.of_same h.hazards (h.same_at .overlays hm))

theorem Local.tracksOk (hi : .ids ∉ m) (hm : .mark ∉ m) (hs : TracksOk s) : TracksOk t :=
  hs.of_same (h.same_at .ids hi) (h.same_at .mark hm)

/-- An operation of one duct that starts nothing and reaches nothing that the duct posts. -/
theorem Local.sound_wet {u : Bool} (hoverlays : OverlaysOk s → OverlaysOk t) (htracks : TracksOk s → TracksOk t)
    (hp : .posts ∉ m) (hs : .starts ∉ m) : Sound u s t :=
  ⟨h.keeps hoverlays, htracks, .of_same h.hazards (h.same_at .posts hp),
    fun _ _ => .of_same h.hazards h.within.fixed.cfg_eq (h.same_at .starts hs)⟩

theorem Local.sound {u : Bool} (ho : .overlays ∉ m) (hi : .ids ∉ m) (hm : .mark ∉ m) (hp : .posts ∉ m) (hs : .starts ∉ m) :
    Sound u s t :=
  h.sound_wet (.of_same h.hazards (h.same_at .overlays ho)) (h.tracksOk hi hm) hp hs

end

/-! ### The event of a zone -/

/-- What the event of a zone leaves of the trouble sets. -/
theorem zoneEvent_nodup (z : Fin 16) (raw : Zone) (cause : ZoneCause) (reset : Bool) (s : State)
    (hraw : raw.troubles = (s.zone z).troubles) (y : Fin 16) (h : (s.zone y).troubles.Nodup) :
    ((zoneEvent z raw cause reset s).state.zone y).troubles.Nodup := by
  have hset : ((s.setZone z (settleZone (s.zone z) raw reset)).zone y).troubles.Nodup := by
    by_cases hy : y = z
    · subst hy
      rw [State.setZone_zone_self, settleZone_troubles, hraw]
      exact h
    · rw [s.setZone_zone_ne z y _ hy]
      exact h
  rcases zoneEvent_cases z raw cause reset s with ⟨-, he⟩ | ⟨-, he⟩
  · rw [he]
    obtain ⟨-, hnodup, -⟩ := reportZone_doorStep_zone z (s.zone z) (settleZone (s.zone z) raw reset) cause reset
      (s.setZone z (settleZone (s.zone z) raw reset))
    exact hnodup y hset
  · rw [he]
    exact hset

theorem zoneEvent_zonesOk (z : Fin 16) (raw : Zone) (cause : ZoneCause) (reset : Bool) (s : State)
    (hraw : raw.troubles = (s.zone z).troubles) (h : ZonesOk s) : ZonesOk (zoneEvent z raw cause reset s).state := fun y => by
  obtain ⟨hlatch, hlevel, hnodup⟩ := h y
  have hn := zoneEvent_nodup z raw cause reset s hraw y hnodup
  rw [zoneEvent_zone z raw cause reset s y]
  split
  · obtain ⟨klatch, klevel, -⟩ := settleZone_ok (old := s.zone z) (raw := raw) reset (hraw ▸ (h z).2.2)
    exact ⟨klatch, klevel, hn⟩
  · exact ⟨hlatch, hlevel, hn⟩

theorem zoneEvent_latches (z : Fin 16) (raw : Zone) (cause : ZoneCause) (reset : Bool) (s : State)
    (hlatch : (s.zone z).latch = true → raw.latch = true) (y : Fin 16) (h : (s.zone y).latch = true) :
    ((zoneEvent z raw cause reset s).state.zone y).latch = true := by
  rw [zoneEvent_zone z raw cause reset s y]
  split
  · rename_i hy
    subst hy
    simp [settleZone_latch, hlatch h]
  · exact h

/-- A level that an event leaves below ALARM, or as it was. -/
theorem zoneEvent_overlaysOk (z : Fin 16) (raw : Zone) (cause : ZoneCause) (reset : Bool) (s : State) (h : OverlaysOk s) :
    OverlaysOk (zoneEvent z raw cause reset s).state := fun d => by
  obtain ⟨hlen, hempty⟩ := h d
  have hlevel : ((zoneEvent z raw cause reset s).state.zone (ductZone d)).level =
      (if ductZone d = z then settleZone (s.zone z) raw reset else s.zone (ductZone d)).level := by
    rw [zoneEvent_zone]
  rw [hlevel]
  rcases zoneEvent_cases z raw cause reset s with ⟨-, he⟩ | ⟨hc, he⟩
  · rw [he, reportZone_duct]
    by_cases hz : ductZone d = z
    · simp only [hz, true_and, if_true]
      split
      · exact ⟨Nat.zero_le _, fun _ => rfl⟩
      · exact ⟨hlen, fun hl => absurd hl ‹_›⟩
    · simp only [hz, false_and, if_false]
      exact ⟨hlen, hempty⟩
  · rw [he]
    obtain ⟨hl, -, -⟩ := zoneChanged_false hc
    refine ⟨hlen, fun ha => hempty ?_⟩
    split at ha
    · rename_i hz
      rw [hz, ← hl]
      exact ha
    · exact ha

theorem zoneEvent_doors (z : Fin 16) (raw : Zone) (cause : ZoneCause) (reset : Bool) (s : State) (i : Fin 12) :
    let t := (zoneEvent z raw cause reset s).state
    t.door i = (s.door i).reported s.cfg.doors[i] s.tick (t.zone z).level ∨
      (t.door i = s.door i ∧ (zoneIn s.cfg.doors[i].zones z = false ∨ (t.zone z).level = (s.zone z).level)) := by
  intro t
  have hlevel : (t.zone z).level = (settleZone (s.zone z) raw reset).level := zoneEvent_level z raw cause reset s
  rcases zoneEvent_cases z raw cause reset s with ⟨-, he⟩ | ⟨hc, he⟩
  · have hd : t.door i = _ := (congrArg (fun r => r.state.door i) he).trans (reportZone_door z _ _ cause reset _ i)
    rw [hd, hlevel]
    split
    · exact .inl rfl
    · rename_i hz
      exact .inr ⟨rfl, .inl (Bool.eq_false_iff.mpr hz)⟩
  · obtain ⟨hl, -, -⟩ := zoneChanged_false hc
    exact .inr ⟨congrArg (fun r => r.state.door i) he, .inr (hlevel.trans hl)⟩

theorem zoneEvent_doorsClear (z : Fin 16) (raw : Zone) (cause : ZoneCause) (reset : Bool) (s : State) (h : DoorsClear s) :
    DoorsClear (zoneEvent z raw cause reset s).state := fun i y hheld hy => by
  rw [(zoneEvent_within z raw cause reset s).fixed.cfg_eq] at hy ⊢
  by_cases hyz : y = z
  · subst hyz
    rcases zoneEvent_doors y raw cause reset s i with hd | ⟨hd, hs⟩
    · rw [hd] at hheld
      exact reportCause_none (Door.reported_held hheld).2
    · rw [hd] at hheld
      rcases hs with hs | hs
      · rw [hs] at hy
        exact absurd hy Bool.false_ne_true
      · rw [hs]
        exact h i y hheld hy
  · have hold : (s.door i).state = .held := by
      rcases zoneEvent_doors z raw cause reset s i with hd | ⟨hd, -⟩
      · rw [hd] at hheld
        exact (Door.reported_held hheld).1
      · rwa [hd] at hheld
    rw [(zoneEvent_hazard z raw cause reset s hyz).level]
    exact h i y hold hy

theorem zoneEvent_sirensOk (z : Fin 16) (raw : Zone) (cause : ZoneCause) (reset : Bool) (s : State) (h : SirensOk s) :
    SirensOk (zoneEvent z raw cause reset s).state := by
  obtain ⟨harb, hdemand, hview⟩ := h
  have hcfg := (zoneEvent_within z raw cause reset s).fixed.cfg_eq
  have hat : ∀ y, (((zoneEvent z raw cause reset s).state.zone y).level = (if y = z then settleZone (s.zone z) raw reset else s.zone y).level) ∧
      ((zoneEvent z raw cause reset s).state.zone y).acked = (if y = z then settleZone (s.zone z) raw reset else s.zone y).acked := fun y =>
    ⟨by rw [zoneEvent_zone], by rw [zoneEvent_zone]⟩
  rcases zoneEvent_cases z raw cause reset s with ⟨-, he⟩ | ⟨hc, he⟩
  · obtain ⟨w, ha, hwc, -, hr⟩ := reportZone_arbiter z (s.zone z) (settleZone (s.zone z) raw reset) cause reset
      (s.setZone z (settleZone (s.zone z) raw reset))
    have ha' : w.arbiter = s.arbiter := ha
    have hwc' : w.cfg = s.cfg := hwc
    obtain ⟨k1, k2, k3⟩ := sirensReport_ok (z := z) (level := (settleZone (s.zone z) raw reset).level)
      (acked := (settleZone (s.zone z) raw reset).acked) (reset := reset) (s := w) (by rw [ha', hwc']; exact harb)
      (by rw [ha', hwc']; exact hdemand)
    have hstate : (zoneEvent z raw cause reset s).state.arbiter = (sirensReport z (settleZone (s.zone z) raw reset).level
        (settleZone (s.zone z) raw reset).acked reset w).arbiter := by rw [he, hr]
    refine ⟨by rw [hcfg, hstate, ← hwc']; exact k1, by rw [hcfg, hstate, ← hwc']; exact k2, fun y => ?_⟩
    obtain ⟨hl, hk⟩ := hat y
    rw [hl, hk, hstate, k3, ha']
    by_cases hy : y = z
    · subst hy
      simp
    · have hv : z.val ≠ y.val := fun e => hy (Fin.ext e.symm)
      simpa [hy, hv] using hview y
  · have hstate : (zoneEvent z raw cause reset s).state.arbiter = s.arbiter := by rw [he]; rfl
    obtain ⟨hlevel, -, hacked⟩ := zoneChanged_false hc
    refine ⟨by rw [hcfg, hstate]; exact harb, by rw [hcfg, hstate]; exact hdemand, fun y => ?_⟩
    obtain ⟨hl, hk⟩ := hat y
    rw [hl, hk, hstate, hview y]
    split
    · rename_i hy
      rw [hy, hlevel, hacked]
    · rfl

/-- The event of a zone, whatever the zone's causes become: a latch falls only where the raw record drops it. -/
theorem zoneEvent_keeps {u : Bool} {z : Fin 16} {raw : Zone} {cause : ZoneCause} {reset : Bool} {s : State}
    (hraw : raw.troubles = (s.zone z).troubles) (hlatch : u = false → (s.zone z).latch = true → raw.latch = true) :
    Keeps u s (zoneEvent z raw cause reset s).state := by
  have hw := zoneEvent_within z raw cause reset s
  have hctl := zoneEvent_ctl z raw cause reset s
  have hduct := zoneEvent_duct z raw cause reset s
  refine
    { cfg := hw.fixed.cfg_eq, running := hw.fixed.running,
      latches := fun hu => zoneEvent_latches z raw cause reset s (hlatch hu)
      zones := zoneEvent_zonesOk z raw cause reset s hraw, ports := fun h => ?_
      outputs := fun h d => by rw [hduct d]; exact h d
      bounds := fun h => ?_, overlays := zoneEvent_overlaysOk z raw cause reset s, doors := fun h i => ?_,
      doorsClear := zoneEvent_doorsClear z raw cause reset s, sirens := zoneEvent_sirensOk z raw cause reset s,
      captures := .of_same (hw.captures rfl) (hw.stations rfl), store := hw.fixed.storeOk }
  · rcases zoneEvent_cases z raw cause reset s with ⟨-, he⟩ | ⟨-, he⟩
    · rw [he]
      obtain ⟨-, -, hports⟩ := reportZone_doorStep_zone z (s.zone z) (settleZone (s.zone z) raw reset) cause reset
        (s.setZone z (settleZone (s.zone z) raw reset))
      exact hports h
    · rw [he]
      exact h
  · rw [boundsOk_iff_at] at h ⊢
    intro d
    rw [BoundsAt, hctl, hduct, State.ductCfg, hw.fixed.cfg_eq]
    exact h d
  · rcases zoneEvent_doors z raw cause reset s i with hd | ⟨hd, -⟩
    · rw [hd]
      exact (h i).reported _ _ _
    · rw [hd]
      exact h i

end Sys2Proof.Machine
end

