-- ==== Sys2Proof/Proofs/Postings.lean ====
section
/-! PROOFS. Postings and their delivery (R3, R107 to R109): what a Duct Controller's postings leave, that a zone at FIRE stops every duct
that acts on it and brings no further zone to FIRE, and that an event of the blocks that ends with its postings is sound. -/

namespace Sys2Proof.Machine

open Sys2Proof

/-! ### One posting -/

/-- What an event of a zone leaves of a duct: all but its overlays. -/
theorem DuctPart.Same.of_overlays {p : DuctPart} (hp : p ≠ .overlays) {x y : Duct} (h : y = { x with overlays := y.overlays }) :
    p.Same x y := by
  rw [h]
  cases p
  case overlays => exact absurd rfl hp
  case starts => exact id
  case posts => exact ⟨rfl, rfl, rfl⟩
  all_goals exact rfl

/-- The Duct Controller's three causes stand on its duct zone as R107 and R108 ask, for one duct. -/
def PostedAt (s : State) (d : Fin 4) : Prop :=
  (s.zone (ductZone d)).causes[CauseKey.ductState.ix] = ductStateLevel (s.ctl d) ∧
    (s.zone (ductZone d)).causes[CauseKey.velocity.ix] = velocityLevel (s.ctl d).state (s.duct d).vel.state ∧
    (s.zone (ductZone d)).causes[CauseKey.ember.ix] = emberLevel (s.ctl d)

theorem postedOk_iff (s : State) : PostedOk s ↔ ∀ d, PostedAt s d := Iff.rfl

theorem ductZone_injective {d e : Fin 4} (h : ductZone d = ductZone e) : d = e := Fin.ext (by simpa [ductZone] using h)

/-- What a duct posts and what stands on its zone are the same before and after. -/
theorem PostedAt.of_same {s t : State} {d : Fin 4} (h : PostedAt s d) (hc : t.ctl d = s.ctl d)
    (hv : (t.duct d).vel = (s.duct d).vel)
    (hz : ∀ i : Fin 13, i.val < 3 → (t.zone (ductZone d)).causes[i] = (s.zone (ductZone d)).causes[i]) : PostedAt t d := by
  unfold PostedAt
  rw [hz _ (by decide), hz _ (by decide), hz _ (by decide), hc, hv]
  exact h

theorem zonePosting_keeps (u : Bool) (z : Fin 16) (key : CauseKey) (l : Level) (s : State) :
    Keeps u s (zonePosting z key l s).state :=
  zoneEvent_keeps rfl fun _ h => h

theorem zonePosting_duct (z : Fin 16) (key : CauseKey) (l : Level) (s : State) (d : Fin 4) :
    (zonePosting z key l s).state.duct d =
      { s.duct d with overlays := ((zonePosting z key l s).state.duct d).overlays } :=
  zoneEvent_duct z _ _ false s d

theorem zonePosting_ctl (z : Fin 16) (key : CauseKey) (l : Level) (s : State) (d : Fin 4) :
    (zonePosting z key l s).state.ctl d = s.ctl d :=
  zoneEvent_ctl z _ _ false s d

theorem zonePosting_vel (z : Fin 16) (key : CauseKey) (l : Level) (s : State) (d : Fin 4) :
    ((zonePosting z key l s).state.duct d).vel = (s.duct d).vel := by
  rw [zonePosting_duct]

theorem zonePosting_causes (z : Fin 16) (key : CauseKey) (l : Level) (s : State) :
    ((zonePosting z key l s).state.zone z).causes = (s.zone z).causes.set key.ix l :=
  zoneEvent_causes z _ _ false s

theorem zonePosting_hazard (z : Fin 16) (key : CauseKey) (l : Level) (s : State) {y : Fin 16} (hy : y ≠ z) :
    KeepsHazard y s (zonePosting z key l s).state :=
  zoneEvent_hazard z _ _ false s hy

theorem zonePosting_shown (z : Fin 16) (key : CauseKey) (l : Level) (s : State)
    (h : ((zonePosting z key l s).state.zone z).level = .fire) : (zonePosting z key l s).fire = true ∨ (s.zone z).level = .fire :=
  zoneEvent_fire z _ _ false s h

/-- A zone comes to FIRE by a posting only where the posting is one at FIRE. -/
theorem zonePosting_fire {z : Fin 16} {key : CauseKey} {l : Level} {s : State} (hok : ZoneOk (s.zone z))
    (h : ((zonePosting z key l s).state.zone z).level = .fire) : l = .fire ∨ (s.zone z).level = .fire := by
  obtain ⟨-, hlevel, -⟩ := hok
  have hpost : deriveLevel (s.zone z).latch ((s.zone z).causes.set key.ix l) = .fire :=
    (zoneEvent_level z _ _ false s).symm.trans h
  by_cases hl : (s.zone z).latch = true
  · exact .inr (by rw [hlevel, deriveLevel, if_pos hl])
  · rw [deriveLevel, if_neg hl, causesLevel_fire] at hpost
    obtain ⟨i, hi⟩ := hpost
    by_cases hk : i = key.ix
    · subst hk
      exact .inl (by simpa using hi)
    · have hne : key.ix.val ≠ i.val := fun e => hk (Fin.ext e.symm)
      refine .inr (by rw [hlevel, deriveLevel, if_neg hl, causesLevel_fire]; exact ⟨i, by simpa [hne] using hi⟩)

/-! ### The three postings of a Duct Controller -/

theorem KeepsHazard.trans {z : Fin 16} {s t w : State} (h : KeepsHazard z s t) (k : KeepsHazard z t w) : KeepsHazard z s w := by
  have hz : t.zone z = _ := h
  have kz : w.zone z = _ := k
  show w.zone z = { s.zone z with troubles := (w.zone z).troubles }
  rw [kz, hz]

/-- The state behind the three postings: each at the level that the duct gives, since a posting moves no duct but for its overlays. -/
theorem dcPost_state (d : Fin 4) (s : State) :
    (dcPost d s).state =
      (zonePosting (ductZone d) .ember (emberLevel (s.ctl d))
        (zonePosting (ductZone d) .velocity (velocityLevel (s.ctl d).state (s.duct d).vel.state)
          (zonePosting (ductZone d) .ductState (ductStateLevel (s.ctl d)) s).state).state).state := by
  unfold dcPost
  dsimp only
  rw [zonePosting_ctl, zonePosting_ctl, zonePosting_vel]

theorem dcPost_keeps (u : Bool) (d : Fin 4) (s : State) : Keeps u s (dcPost d s).state := by
  rw [dcPost_state]
  exact (zonePosting_keeps u _ _ _ s).trans ((zonePosting_keeps u _ _ _ _).trans (zonePosting_keeps u _ _ _ _))

theorem dcPost_duct (d : Fin 4) (s : State) (e : Fin 4) :
    (dcPost d s).state.duct e = { s.duct e with overlays := ((dcPost d s).state.duct e).overlays } := by
  rw [dcPost_state, zonePosting_duct, zonePosting_duct, zonePosting_duct]

theorem dcPost_ctl (d : Fin 4) (s : State) (e : Fin 4) : (dcPost d s).state.ctl e = s.ctl e := by
  rw [State.ctl, dcPost_duct]
  rfl

theorem dcPost_vel (d : Fin 4) (s : State) (e : Fin 4) : ((dcPost d s).state.duct e).vel = (s.duct e).vel := by
  rw [dcPost_duct]

theorem dcPost_hazard (d : Fin 4) (s : State) {y : Fin 16} (hy : y ≠ ductZone d) : KeepsHazard y s (dcPost d s).state := by
  rw [dcPost_state]
  exact (zonePosting_hazard _ _ _ s hy).trans ((zonePosting_hazard _ _ _ _ hy).trans (zonePosting_hazard _ _ _ _ hy))

/-- What the Duct Controller's postings leave on its duct zone. -/
theorem dcPost_causes (d : Fin 4) (s : State) :
    ((dcPost d s).state.zone (ductZone d)).causes =
      (((s.zone (ductZone d)).causes.set 0 (ductStateLevel (s.ctl d))).set 1
        (velocityLevel (s.ctl d).state (s.duct d).vel.state)).set 2 (emberLevel (s.ctl d)) := by
  rw [dcPost_state, zonePosting_causes, zonePosting_causes, zonePosting_causes]
  rfl

theorem dcPost_postedAt (d : Fin 4) (s : State) : PostedAt (dcPost d s).state d := by
  unfold PostedAt
  rw [dcPost_causes, dcPost_ctl, dcPost_vel]
  simp [CauseKey.ix]

theorem dcPost_postedAt_ne {d e : Fin 4} {s : State} (h : PostedAt s e) : PostedAt (dcPost d s).state e := by
  by_cases he : e = d
  · rw [he]
    exact dcPost_postedAt d s
  · refine h.of_same (dcPost_ctl d s e) (dcPost_vel d s e) fun i _ => ?_
    rw [(dcPost_hazard d s fun hz => he (ductZone_injective hz)).causes]

theorem velocityLevel_ne_fire (a : DuctState) (v : VelState) : velocityLevel a v ≠ .fire := by
  cases a <;> cases v <;> decide

theorem emberLevel_ne_fire (c : Ctl) : emberLevel c ≠ .fire := by
  unfold emberLevel
  split
  · split <;> decide
  · split <;> decide
  · decide

/-- The postings of a Duct Controller bring a zone to FIRE only by its asserted level. -/
theorem dcPost_fire {d : Fin 4} {s : State} (hz : ZonesOk s) {y : Fin 16} (h : ((dcPost d s).state.zone y).level = .fire) :
    (y = ductZone d ∧ ductStateLevel (s.ctl d) = .fire) ∨ (s.zone y).level = .fire := by
  by_cases hy : y = ductZone d
  · subst hy
    rw [dcPost_state] at h
    have k1 := zonePosting_keeps true (ductZone d) .ductState (ductStateLevel (s.ctl d)) s
    have k2 := zonePosting_keeps true (ductZone d) .velocity (velocityLevel (s.ctl d).state (s.duct d).vel.state)
      (zonePosting (ductZone d) .ductState (ductStateLevel (s.ctl d)) s).state
    rcases zonePosting_fire (k2.zones (k1.zones hz) (ductZone d)) h with h3 | h2
    · exact absurd h3 (emberLevel_ne_fire _)
    · rcases zonePosting_fire (k1.zones hz (ductZone d)) h2 with h2 | h1
      · exact absurd h2 (velocityLevel_ne_fire _ _)
      · exact (zonePosting_fire (hz (ductZone d)) h1).imp (⟨rfl, ·⟩) id
  · exact .inr ((dcPost_hazard d s hy).level ▸ h)

/-- A duct zone that the postings leave at FIRE is shown at FIRE by one of them, or stood there. -/
theorem dcPost_shown {d : Fin 4} {s : State} (h : ((dcPost d s).state.zone (ductZone d)).level = .fire) :
    (dcPost d s).fire = true ∨ (s.zone (ductZone d)).level = .fire := by
  have hfire : ∀ {a b c : Bool} {p : Prop}, (c = true ∨ b = true ∨ a = true ∨ p) → (a || b || c) = true ∨ p := by
    intro a b c p hp
    rcases hp with h | h | h | h
    · exact .inl (by simp [h])
    · exact .inl (by simp [h])
    · exact .inl (by simp [h])
    · exact .inr h
  exact hfire ((zonePosting_shown _ _ _ _ h).imp id fun h2 => (zonePosting_shown _ _ _ _ h2).imp id (zonePosting_shown _ _ _ s))

/-! ### The report of a zone at FIRE (R109) -/

/-- What the report of a zone at FIRE can do: it brings no further zone to FIRE, starts no duct and leaves none of those that it
reaches in a running state. -/
structure FireReported (reached : Fin 4 → Prop) (s t : State) : Prop where
  keeps : ∀ u, Keeps u s t
  tracks : TracksOk s → TracksOk t
  posted : PostedOk s → PostedOk t
  fires : ZonesOk s → PostedOk s → ∀ y, (t.zone y).level = .fire → (s.zone y).level = .fire
  running : ∀ e, (t.ctl e).state.isRunning = true → (s.ctl e).state.isRunning = true ∧ ¬reached e

theorem FireReported.refl (s : State) : FireReported (fun _ => False) s s :=
  ⟨fun u => .refl u s, id, id, fun _ _ _ => id, fun _ h => ⟨h, id⟩⟩

theorem FireReported.trans {p q : Fin 4 → Prop} {s t w : State} (h : FireReported p s t) (k : FireReported q t w) :
    FireReported (fun e => p e ∨ q e) s w where
  keeps := fun u => (h.keeps u).trans (k.keeps u)
  tracks := fun x => k.tracks (h.tracks x)
  posted := fun x => k.posted (h.posted x)
  fires := fun hz hp y hy => h.fires hz hp y (k.fires ((h.keeps true).zones hz) (h.posted hp) y hy)
  running := fun e he => by
    obtain ⟨ht, hq⟩ := k.running e he
    obtain ⟨hs, hp⟩ := h.running e ht
    exact ⟨hs, fun hr => hr.elim hp hq⟩

theorem takeCauses_running {d : Fin 4} {l : List StopCause} {s : State} {e : Fin 4}
    (h : ((takeCauses d l s).ctl e).state.isRunning = true) : (s.ctl e).state.isRunning = true :=
  (takeCauses_local d l s).same_at .starts (by simp) e h

/-- The Duct Controller of a duct that acts on the zone takes its stop, and makes its postings. -/
theorem fireReportAt_reported (z : Fin 16) (s : State) (d : Fin 4) :
    FireReported (fun e => e = d ∧ actsOn s d z = true) s (fireReportAt z s d) := by
  unfold fireReportAt
  split
  · have hl := takeCauses_local d [.zoneFire] s
    have hmid : ∀ u, Keeps u s (takeCauses d [.zoneFire] s) := fun u => hl.keeps_dry (by simp)
    refine ⟨fun u => (hmid u).trans (dcPost_keeps u d _), fun ht => ?_, fun hp => ?_, fun hz hp y hy => ?_, fun e he => ?_⟩
    · exact (hl.tracksOk (by simp) (by simp) ht).of_same (fun e => .of_overlays (by decide) (dcPost_duct d _ e)) fun e => by rw [dcPost_ctl]
    · intro e
      by_cases he : e = d
      · rw [he]
        exact dcPost_postedAt d _
      · refine dcPost_postedAt_ne (PostedAt.of_same (hp e) (hl.ctl_ne he) ?_ fun i _ => ?_)
        · rw [hl.others e he]
        · rw [hl.hazards.causes]
    · rcases dcPost_fire ((hmid true).zones hz) hy with ⟨rfl, hf⟩ | hf
      · obtain ⟨-, hlevel, -⟩ := hz (ductZone d)
        obtain ⟨hcause, -⟩ := hp d
        have hfire := hcause.trans (takeZoneFire_level d s hf)
        rw [hlevel, deriveLevel]
        split
        · rfl
        · exact causesLevel_fire.mpr ⟨_, hfire⟩
      · exact hl.hazards.level y ▸ hf
    · rw [dcPost_ctl] at he
      refine ⟨takeCauses_running he, fun hr => ?_⟩
      rw [hr.1, takeZoneFire_not_running] at he
      exact absurd he Bool.false_ne_true
  · exact ⟨fun u => .refl u s, id, id, fun _ _ _ => id, fun _ h => ⟨h, fun ha => absurd ha.2 ‹_›⟩⟩

theorem actsOn_iff (s : State) (d : Fin 4) (z : Fin 16) : actsOn s d z = true ↔ ActsOnZone s d z := by
  rw [actsOn, ActsOnZone, Bool.or_eq_true, decide_eq_true_eq, eq_comm]

theorem ActsOnZone.of_cfg {s t : State} (h : t.cfg = s.cfg) (d : Fin 4) (z : Fin 16) : ActsOnZone t d z ↔ ActsOnZone s d z := by
  rw [ActsOnZone, ActsOnZone, State.ductCfg, State.ductCfg, h]

theorem fireReports_reported (z : Fin 16) (l : List (Fin 4)) (s : State) :
    FireReported (fun e => e ∈ l ∧ ActsOnZone s e z) s (l.foldl (fireReportAt z) s) := by
  induction l generalizing s with
  | nil => exact ⟨fun u => .refl u s, id, id, fun _ _ _ => id, fun _ h => ⟨h, by simp⟩⟩
  | cons d rest ih =>
    have h := fireReportAt_reported z s d
    have k := h.trans (ih (fireReportAt z s d))
    refine ⟨k.keeps, k.tracks, k.posted, k.fires, fun e he => ?_⟩
    obtain ⟨hs, hn⟩ := k.running e he
    refine ⟨hs, fun ⟨hmem, hacts⟩ => hn ?_⟩
    rcases List.mem_cons.mp hmem with rfl | hr
    · exact .inl ⟨rfl, (actsOn_iff s e z).mpr hacts⟩
    · exact .inr ⟨hr, (ActsOnZone.of_cfg (h.keeps true).cfg e z).mpr hacts⟩

/-- The report of a zone at FIRE reaches every duct that acts on the zone (R109). -/
theorem fireReport_reported (z : Fin 16) (s : State) : FireReported (fun e => ActsOnZone s e z) s (fireReport z s) := by
  have h := fireReports_reported z (List.finRange 4) s
  exact ⟨h.keeps, h.tracks, h.posted, h.fires, fun e he => (h.running e he).imp id fun hn ha => hn ⟨List.mem_finRange e, ha⟩⟩

/-! ### Delivery -/

/-- What an event leaves is sound after its delivery, where every duct that runs against a zone at FIRE is one that the delivery
reaches. -/
theorem deliver_sound {u : Bool} {z : Fin 16} {s : State} {r : Posted} (hk : Keeps u s r.state)
    (ht : TracksOk s → TracksOk r.state) (hp : PostedOk s → PostedOk r.state)
    (hc : ZonesOk s → PostedOk s → DuctsClear s → ∀ d y, ActsOnZone s d y → (r.state.zone y).level = .fire →
      (r.state.ctl d).state.isRunning = true → r.fire = true ∧ y = z) : Sound u s (deliver z r) := by
  unfold deliver
  split
  · have h := fireReport_reported z r.state
    refine ⟨hk.trans (h.keeps u), fun x => h.tracks (ht x), fun x => h.posted (hp x), fun hz hpo hcl d y hacts hfire => ?_⟩
    rw [ActsOnZone.of_cfg ((h.keeps u).cfg.trans hk.cfg)] at hacts
    refine Bool.eq_false_iff.mpr fun hrun => ?_
    obtain ⟨hr, hn⟩ := h.running d hrun
    obtain ⟨-, rfl⟩ := hc hz hpo hcl d y hacts (h.fires (hk.zones hz) (hp hpo) y hfire) hr
    exact hn ((ActsOnZone.of_cfg hk.cfg d y).mpr hacts)
  · refine ⟨hk, ht, hp, fun hz hpo hcl d y hacts hfire => Bool.eq_false_iff.mpr fun hrun => ?_⟩
    rw [ActsOnZone.of_cfg hk.cfg] at hacts
    obtain ⟨hf, -⟩ := hc hz hpo hcl d y hacts hfire hrun
    exact absurd hf ‹_›

/-- An event of a duct ends with its postings (R107 to R109): nothing but its own blocks moved, and it runs only where it ran before or
no zone that it acts on stands at FIRE. -/
theorem settleDuct_sound {u : Bool} {d : Fin 4} {s t : State} (hk : Keeps u s t) (ho : KeepsOtherDucts d s t)
    (hz : KeepsHazards s t) (ht : TracksOk s → TracksOk t)
    (hr : (t.ctl d).state.isRunning = true → (s.ctl d).state.isRunning = true ∨
      ∀ y, ActsOnZone s d y → (s.zone y).level ≠ .fire) : Sound u s (settleDuct d t) := by
  refine deliver_sound (hk.trans (dcPost_keeps u d t)) (fun hs => ?_) (fun hp e => ?_) fun hzo _ hcl e y hacts hfire hrun => ?_
  · exact (ht hs).of_same (fun e => .of_overlays (by decide) (dcPost_duct d _ e)) fun e => by rw [dcPost_ctl]
  · by_cases he : e = d
    · rw [he]
      exact dcPost_postedAt d t
    · refine dcPost_postedAt_ne (PostedAt.of_same (hp e) (congrArg Duct.ctl (ho e he)) ?_ fun i _ => ?_)
      · rw [ho e he]
      · rw [hz.causes]
  · have hclear : (s.zone y).level = .fire → (t.ctl e).state.isRunning = true → False := by
      intro hf hrun
      have hold : (s.ctl e).state.isRunning = false := hcl e y hacts hf
      by_cases he : e = d
      · rw [he] at hold hacts hrun
        exact (hr hrun).elim (fun hs => absurd (hs.symm.trans hold) (by decide)) fun hn => hn y hacts hf
      · have hctl : t.ctl e = s.ctl e := congrArg Duct.ctl (ho e he)
        rw [hctl, hold] at hrun
        exact absurd hrun Bool.false_ne_true
    rw [dcPost_ctl] at hrun
    by_cases hy : y = ductZone d
    · subst hy
      rcases dcPost_shown hfire with hf | hf
      · exact ⟨hf, rfl⟩
      · exact (hclear (hz.level _ ▸ hf) hrun).elim
    · rw [(dcPost_hazard d t hy).level, hz.level] at hfire
      exact (hclear hfire hrun).elim

theorem Local.settle_sound {u : Bool} {m : List DuctPart} {d : Fin 4} {s t : State} (h : Local m d s t) (ho : .overlays ∉ m)
    (hi : .ids ∉ m) (hm : .mark ∉ m) (hs : .starts ∉ m) : Sound u s (settleDuct d t) :=
  settleDuct_sound (h.keeps_dry ho) h.others h.hazards (h.tracksOk hi hm) fun hr => .inl (h.same .starts hs hr)

/-- The event of a zone that leaves the Duct Controllers' causes as they stood, delivered (R3, R6, R109). -/
theorem zoneEvent_sound {u : Bool} {z : Fin 16} {raw : Zone} {cause : ZoneCause} {reset : Bool} {s : State}
    (hraw : raw.troubles = (s.zone z).troubles) (hlatch : u = false → (s.zone z).latch = true → raw.latch = true)
    (hcauses : ∀ i : Fin 13, i.val < 3 → raw.causes[i] = (s.zone z).causes[i]) :
    Sound u s (deliver z (zoneEvent z raw cause reset s)) := by
  have hduct := zoneEvent_duct z raw cause reset s
  have hctl := zoneEvent_ctl z raw cause reset s
  refine deliver_sound (zoneEvent_keeps hraw hlatch) (fun h => ?_) (fun h d => ?_) fun _ _ hcl d y hacts hfire hrun => ?_
  · exact h.of_same (fun d => .of_overlays (by decide) (hduct d)) fun d => by rw [hctl]
  · refine PostedAt.of_same (h d) (hctl d) (by rw [hduct d]) fun i hi => ?_
    by_cases hd : ductZone d = z
    · rw [hd, zoneEvent_causes]
      exact hcauses i hi
    · rw [(zoneEvent_hazard z raw cause reset s hd).causes]
  · rw [hctl] at hrun
    have hclear : (s.zone y).level = .fire → False := fun hf => absurd (hcl d y hacts hf) (by simp [hrun])
    by_cases hy : y = z
    · subst hy
      exact ⟨(zoneEvent_fire y raw cause reset s hfire).resolve_right hclear, rfl⟩
    · exact (hclear ((zoneEvent_hazard z raw cause reset s hy).level ▸ hfire)).elim

/-- A cause of an input or of a port is posted to a zone (R3). -/
theorem postZone_sound {z : Fin 16} {key : CauseKey} (hkey : 3 ≤ key.ix.val) (l : Level) (s : State) :
    Sound false s (postZone z key l s) :=
  zoneEvent_sound rfl (fun _ h => h) fun i hi => by
    have hne : key.ix.val ≠ i.val := by omega
    simp [hne]

end Sys2Proof.Machine
end

