-- ==== Sys2Proof/Proofs/BlockEvents.lean ====
section
/-! PROOFS. The events of ducts, doors, overlays, sirens and zones are sound: each moves its own blocks by an operation of which the
invariants are known, and ends with the postings that it calls for. -/

namespace Sys2Proof.Machine

open Sys2Proof

/-! ### Quench Unit and Velocity Unit -/

theorem evalValve_sound (d : Fin 4) (v : Fin 2) (s : State) : Sound false s (evalValve d v s) :=
  (evalValve_local d v s).sound (by simp) (by simp) (by simp) (by simp) (by simp)

theorem floodEnds_sound (d : Fin 4) (s : State) : Sound false s (floodEnds d s) :=
  (floodEnds_local d s).sound (by simp) (by simp) (by simp) (by simp) (by simp)

theorem testEnds_sound (d : Fin 4) (s : State) : Sound false s (testEnds d s) :=
  (testEnds_local d s).sound (by simp) (by simp) (by simp) (by simp) (by simp)

theorem flowSwitchEvent_sound (d : Fin 4) (v : Fin 2) (b : Bool) (s : State) : Sound false s (flowSwitchEvent d v b s) :=
  (flowSwitchEvent_local d v b s).sound (by simp) (by simp) (by simp) (by simp) (by simp)

theorem transducerEvent_sound (d : Fin 4) (c : Code) (s : State) : Sound false s (transducerEvent d c s) := by
  have h := transducerEvent_local d c s
  refine ⟨h.keeps_dry (by simp), h.tracksOk (by simp) (by simp), .of_same h.hazards fun e => ?_,
    fun _ _ => .of_same h.hazards h.within.fixed.cfg_eq (h.same_at .starts (by simp))⟩
  exact h.same_at .posts (by simp) e

theorem velocityEvent_sound (d : Fin 4) (c : Code) (s : State) : Sound false s (velocityEvent d c s) :=
  have h : Local [.vel, .posts, .ctl] d s (velocityReport d (changeVelocity d
      (((s.duct d).vel).updated (s.ductCfg d).span c s.tick) s)) :=
    (Local.mono (changeVelocity_local d _ s) (by simp)).trans (Local.mono (velocityReport_local d _) (by simp))
  h.settle_sound (by simp) (by simp) (by simp) (by simp)

theorem holdTimerExpires_sound (d : Fin 4) (s : State) : Sound false s (holdTimerExpires d s) := by
  unfold holdTimerExpires
  dsimp only
  split
  · exact (changeVelocity_local d _ s).settle_sound (by simp) (by simp) (by simp) (by simp)
  · exact .refl _ s

/-! ### Duct Controller -/

/-- An event of a Duct Controller behind an operation of its duct. -/
theorem dcEvent_sound {m : List DuctPart} {d : Fin 4} {s t : State} (h : Local m d s t) (l : List StopCause) (ho : .overlays ∉ m)
    (hi : .ids ∉ m) (hm : .mark ∉ m) (hs : .starts ∉ m) : Sound false s (dcEvent d l t) := by
  have k : Local (m ++ [.ctl, .posts, .gate]) d s (fireWait d (takeCauses d l t)) :=
    (h.mono (by simp)).trans ((Local.mono (takeCauses_local d l t) (by simp)).trans (Local.mono (fireWait_local d _) (by simp)))
  exact k.settle_sound (by simpa using ho) (by simpa using hi) (by simpa using hm) (by simpa using hs)

theorem raiseTrouble_sound (z : Fin 16) (k : TroubleKind) (n : Nat) (s : State) : Sound false s (raiseTrouble z k n s) :=
  (raiseTrouble_local 0 z k n s).sound (by simp) (by simp) (by simp) (by simp) (by simp)

theorem clearTrouble_sound (z : Fin 16) (k : TroubleKind) (n : Nat) (s : State) : Sound false s (clearTrouble z k n s) :=
  (clearTrouble_local 0 z k n s).sound (by simp) (by simp) (by simp) (by simp) (by simp)

theorem startTimerExpires_sound (d : Fin 4) (s : State) : Sound false s (startTimerExpires d s) := by
  unfold startTimerExpires
  split
  · exact (dcEvent_sound (.refl [] d s) _ (by simp) (by simp) (by simp) (by simp)).trans (raiseTrouble_sound _ _ _ _)
  · exact .refl _ s

theorem lowFlowExpires_sound (d : Fin 4) (s : State) : Sound false s (lowFlowExpires d s) := by
  unfold lowFlowExpires
  split
  · exact (dcEvent_sound (.refl [] d s) _ (by simp) (by simp) (by simp) (by simp)).trans (raiseTrouble_sound _ _ _ _)
  · exact .refl _ s

/-- The record of a Duct Controller moves inside its state. -/
theorem setCtl_quiet_sound {d : Fin 4} {s : State} {c : Ctl} (hs : c.state = (s.ctl d).state) (hr : c.stop = (s.ctl d).stop)
    (hl : c.listMark = (s.ctl d).listMark) : Sound false s (s.setCtl d c) :=
  (setCtl_quiet hs hr hl).sound (by simp) (by simp) (by simp) (by simp) (by simp)

/-- A change of the Duct Controller's state, with its postings. -/
theorem changeCtl_sound {d : Fin 4} {s : State} {c : Ctl} (hstop : StopRecorded (s.ctl d) → StopRecorded c)
    (hmark : c.listMark = (s.ctl d).listMark) (hstarts : c.state.isRunning = true → (s.ctl d).state.isRunning = true) :
    Sound false s (settleDuct d (changeCtl d c s)) :=
  (changeCtl_local hstop hmark hstarts).settle_sound (by simp) (by simp) (by simp) (by simp)

theorem armingExpires_sound (d : Fin 4) (s : State) : Sound false s (armingExpires d s) := by
  unfold armingExpires
  dsimp only
  split
  · rename_i h
    have hst : (s.ctl d).state = .arming := by simpa using (Bool.and_eq_true_iff.mp h).2
    split
    · split
      · refine changeCtl_sound (fun hr => ?_) rfl fun _ => ?_
        · simpa [StopRecorded, hst] using hr
        · rw [hst]; rfl
      · exact setCtl_quiet_sound rfl rfl rfl
    · exact setCtl_quiet_sound rfl rfl rfl
  · exact .refl _ s

theorem rateExpires_sound (d : Fin 4) (s : State) : Sound false s (rateExpires d s) := by
  unfold rateExpires
  split
  · exact setCtl_quiet_sound rfl rfl rfl
  · exact .refl _ s

theorem quietExpires_sound (d : Fin 4) (s : State) : Sound false s (quietExpires d s) := by
  unfold quietExpires
  dsimp only
  split
  · rename_i h
    have hst : (s.ctl d).state = .alert := by simpa using (Bool.and_eq_true_iff.mp h).2
    refine changeCtl_sound (fun hr => ?_) rfl fun _ => ?_
    · simpa [StopRecorded, hst] using hr
    · rw [hst]; rfl
  · exact .refl _ s

theorem purgeExpires_sound (d : Fin 4) (s : State) : Sound false s (purgeExpires d s) := by
  unfold purgeExpires
  split
  · rename_i h
    have hst : (s.ctl d).state = .stopping := by simpa using (Bool.and_eq_true_iff.mp h).2
    exact (enterStopped_local hst).settle_sound (by simp) (by simp) (by simp) (by simp)
  · exact .refl _ s

theorem flowConfirmExpires_sound (d : Fin 4) (v : Fin 2) (s : State) : Sound false s (flowConfirmExpires d v s) := by
  unfold flowConfirmExpires
  dsimp only
  split
  · rename_i h
    have hst : (s.valve d v).state = .opened := by simpa using (Bool.and_eq_true_iff.mp h).2
    have hvalve : Local [.valves, .tracks, .gate] d s (s.setValve d v { s.valve d v with state := .fault, timer := none }) := by
      refine Local.mono (setValve_local fun hv => ?_) (by simp)
      simpa [ValveOk, hst] using hv.1
    exact dcEvent_sound (hvalve.trans ((Local.mono (offer_local d _ _) (by simp)).trans
      ((Local.mono (raiseTrouble_local d _ _ _ _) (by simp)).trans (Local.mono (rejudge_local d _) (by simp))))) _
      (by simp) (by simp) (by simp) (by simp)
  · exact .refl _ s

theorem gateSwitchEvent_sound (d : Fin 4) (which : GateSwitch) (b : Bool) (s : State) :
    Sound false s (gateSwitchEvent d which b s) := by
  unfold gateSwitchEvent
  split
  · exact dcEvent_sound (switchSampled_local d which b s) _ (by simp) (by simp) (by simp) (by simp)
  · exact .refl _ s

theorem gateSupervisionExpires_sound (d : Fin 4) (s : State) : Sound false s (gateSupervisionExpires d s) := by
  unfold gateSupervisionExpires
  extract_lets g s1 s2
  have h1 : Local [.gate] d s s1 :=
    (setGate_local fun _ => Gate.rested_ok g (.inr (.inr rfl)) true).trans (Local.mono (offer_local d _ _) (by simp))
  have h2 : Local [.gate] d s s2 := by
    unfold s2
    split
    · exact h1
    · exact h1.trans (Local.mono (raiseTrouble_local d _ _ _ _) (by simp))
  split
  · split
    · exact dcEvent_sound h2 _ (by simp) (by simp) (by simp) (by simp)
    · have h3 : Local [.gate, .ctl, .posts] d s (raiseAsserted d s2) :=
        (h2.mono (by simp)).trans (Local.mono (raiseAsserted_local d s2) (by simp))
      exact dcEvent_sound h3 _ (by simp) (by simp) (by simp) (by simp)
  · exact .refl _ s

/-- A Duct Controller's record is replaced by one in another state, a running one also. -/
theorem changeCtl_starts_local {d : Fin 4} {s : State} {c : Ctl} (hstop : StopRecorded (s.ctl d) → StopRecorded c)
    (hmark : c.listMark = (s.ctl d).listMark) : Local [.ctl, .posts, .starts] d s (changeCtl d c s) :=
  (setCtl_local (by simp) hstop (.inr hmark) (.inl (by simp)) (.inl (by simp))).trans (Local.mono (offer_local d _ _) (by simp))

/-- START_DUCT starts a duct that no zone it acts on forbids (R95). -/
theorem startDuct_sound {d : Fin 4} {s : State} (h : startForbidden s d = false) : Sound false s (startDuct d s) := by
  simp only [startForbidden, Bool.or_eq_false_iff, decide_eq_false_iff_not, not_not, List.any_eq_false, Bool.and_eq_true,
    decide_eq_true_eq, not_and] at h
  obtain ⟨⟨⟨-, -⟩, halarm⟩, hserved⟩ := h
  have hl : Local [.ctl, .posts, .starts, .gate] d s (openCommand d (changeCtl d
      { s.ctl d with state := .starting, stop := none, start := some (s.after (secondsTicks (s.ductCfg d).startTime)),
                     arm := none, cleanCount := 0, rateCount := 0, rate := none, quiet := none, lowFlow := none,
                     purge := none } s)) := by
    refine Local.trans (Local.mono (changeCtl_starts_local (fun _ => ?_) (by rfl)) (by simp))
      (Local.mono (openCommand_local d _) (by simp))
    simp [StopRecorded]
  refine settleDuct_sound (hl.keeps_dry (by simp)) hl.others hl.hazards (hl.tracksOk (by simp) (by simp)) fun _ => .inr fun y hy => ?_
  rcases hy with rfl | hy
  · intro hf
    rw [hf] at halarm
    exact absurd halarm (by decide)
  · exact hserved y (List.mem_finRange y) hy

theorem resetDuct_sound (d : Fin 4) (s : State) : Sound false s (resetDuct d s) := by
  have h : Local [.ctl, .posts] d s (changeCtl d { s.ctl d with state := .offline, stop := none } s) :=
    changeCtl_local (fun _ => by simp [StopRecorded]) rfl nofun
  exact (h.trans ((Local.mono (clearTrouble_local d _ _ _ _) (by simp)).trans
    (Local.mono (clearTrouble_local d _ _ _ _) (by simp)))).settle_sound (by simp) (by simp) (by simp) (by simp)

/-! ### Track Unit -/

/-- A track leaves the list; the Duct Controller is told of an empty list (R69, R71). -/
theorem trackRetires_sound (d : Fin 4) (id : Byte) (s : State) : Sound false s (trackRetires d id s) := by
  unfold trackRetires
  dsimp only
  split
  · exact .refl _ s
  · rename_i x hx
    split
    · have hmem : x ∈ (s.duct d).tracks := List.mem_of_find?_eq_some hx
      have hl : Local [.tracks, .ids] d s (offer (retiredOffer d (s.duct d).tracks.length x)
          (s.setDuct d { s.duct d with tracks := (s.duct d).tracks.erase x })) :=
        (setTracks_local (by simp) (.inl (by simp))).trans (Local.mono (offer_local d _ _) (by simp))
      generalize ht : offer (retiredOffer d (s.duct d).tracks.length x)
        (s.setDuct d { s.duct d with tracks := (s.duct d).tracks.erase x }) = t at hl
      have hrest : (t.duct d).tracks = (s.duct d).tracks.erase x := by
        rw [← ht]
        exact congrArg Duct.tracks (s.setDuct_duct_self d _)
      have hsub : ((s.duct d).tracks.erase x).Sublist (s.duct d).tracks := List.erase_sublist
      have hlist : ∀ (u : State), (∀ e, (u.duct e).tracks = (t.duct e).tracks) → (∀ e, e ≠ d → u.ctl e = s.ctl e) →
          ((u.ctl d).listMark = true ↔ (s.duct d).tracks.erase x ≠ []) → TracksOk s → TracksOk u := by
        intro u hu hctl hmark hs e
        rw [hu]
        obtain ⟨hlen, hnodup, hold⟩ := hs e
        by_cases he : e = d
        · subst he
          rw [hrest]
          exact ⟨hsub.length_le.trans hlen, hnodup.sublist (hsub.map _), hmark⟩
        · rw [hctl e he, hl.others e he]
          exact ⟨hlen, hnodup, hold⟩
      split
      · rename_i hempty
        have hk := (Local.mono hl (n := [.tracks, .ids, .ctl, .mark, .posts]) (by simp)).trans
          (Local.mono (setListMark_local d false t) (by simp))
        refine settleDuct_sound (hk.keeps_dry (by simp)) hk.others hk.hazards (hlist _ (fun e => ?_) (fun e he => hk.ctl_ne he) ?_)
          fun hr => .inl (hk.same .starts (by simp) hr)
        · exact (setListMark_local d false t).same_at .tracks (by simp) e
        · rw [List.isEmpty_iff.mp hempty, setListMark, State.ctl, State.setCtl, State.setDuct_duct_self]
          simp
      · rename_i hempty
        refine hl.sound_wet (.of_same hl.hazards (hl.same_at .overlays (by simp))) (fun hs => ?_) (by simp) (by simp)
        refine hlist t (fun _ => rfl) (fun e he => hl.ctl_ne he) ?_ hs
        rw [hl.ctl_eq (by simp), (hs d).2.2]
        exact ⟨fun _ => by simpa using hempty, fun _ => List.ne_nil_of_mem hmem⟩
    · exact .refl _ s

/-! ### Overlays (R115, R118 to R120) -/

/-- A stack that is replaced by one that may stand at its zone's level. -/
theorem setOverlays_sound {d : Fin 4} {l : List Overlay} {o : Offer} {s : State}
    (h : (s.duct d).overlays.length ≤ 4 ∧ ((s.zone (ductZone d)).level.atLeast .alarm = true → (s.duct d).overlays = []) →
      l.length ≤ 4 ∧ ((s.zone (ductZone d)).level.atLeast .alarm = true → l = [])) :
    Sound false s (offer o (s.setOverlays d l)) := by
  have hl : Local [.overlays] d s (offer o (s.setOverlays d l)) :=
    (setOverlays_local d l s).trans (Local.mono (offer_local d _ _) (by simp))
  refine hl.sound_wet (fun hs e => ?_) (hl.tracksOk (by simp) (by simp)) (by simp) (by simp)
  rw [hl.hazards.level]
  by_cases he : e = d
  · subst he
    have hduct : ((offer o (s.setOverlays e l)).duct e).overlays = l := congrArg Duct.overlays (s.setDuct_duct_self e _)
    rw [hduct]
    exact h (hs e)
  · rw [hl.others e he]
    exact hs e

theorem overlayExpires_sound (d : Fin 4) (position : Nat) (s : State) : Sound false s (overlayExpires d position s) := by
  unfold overlayExpires
  dsimp only
  split
  · exact .refl _ s
  · split
    · refine setOverlays_sound fun ⟨hlen, hempty⟩ => ?_
      have hsub : (removeFromBottom (s.duct d).overlays position).length ≤ (s.duct d).overlays.length := by
        unfold removeFromBottom
        rw [List.length_reverse]
        exact (List.length_eraseIdx_le _ _).trans_eq List.length_reverse
      exact ⟨hsub.trans hlen, fun ha => by rw [hempty ha]; simp [removeFromBottom]⟩
    · exact .refl _ s

/-! ### Doors (R127 to R138) -/

/-- A door event with a new record. -/
theorem doorEvent_sound {i : Fin 12} {x : Door} {c : DoorCause} {s : State} (hok : DoorOk (s.door i) → DoorOk x)
    (hclear : x.state = .held → (s.door i).state = .held ∨
      ∀ z, zoneIn s.cfg.doors[i].zones z = true →
        (s.zone z).level ≠ .fire ∧ (s.cfg.doors[i].closeOnAlarm = true → (s.zone z).level ≠ .alarm)) :
    Sound false s (doorEvent i x c s) :=
  (doorEvent_doorStep i x c s).sound_at (doorEvent_door i x c s) hok hclear

theorem doorTrouble_sound (i : Fin 12) (k : TroubleKind) (b : Bool) (s : State) : Sound false s (doorTrouble i k b s) :=
  (doorTrouble_local 0 i k b s).sound (by simp) (by simp) (by simp) (by simp) (by simp)

theorem setDoor_sound {i : Fin 12} {x : Door} {s : State} (hok : DoorOk (s.door i) → DoorOk x)
    (hheld : x.state = .held → (s.door i).state = .held) : Sound false s (s.setDoor i x) := by
  refine (setDoor_doorStep i x s).sound_at (x := x) (fun j => ?_) hok fun h => .inl (hheld h)
  split
  · rename_i hj
    rw [hj, State.setDoor_door_self]
  · rename_i hj
    exact s.setDoor_door_ne i j x hj

theorem setDoorTrouble_sound {i : Fin 12} {x : Door} {k : TroubleKind} {b : Bool} {s : State}
    (hok : DoorOk (s.door i) → DoorOk x) (hheld : x.state = .held → (s.door i).state = .held) :
    Sound false s (doorTrouble i k b (s.setDoor i x)) :=
  (setDoor_sound hok hheld).trans (doorTrouble_sound i k b _)

theorem DoorOk.caused {x : Door} (h : DoorOk x) (hs : x.state = .releaseWait) : x.cause.isSome = true := by
  obtain ⟨-, -, -, -, -, -, -, -, hcause⟩ := h
  exact hcause (.inl hs)

theorem closedSwitchEvent_sound (i : Fin 12) (b : Bool) (s : State) : Sound false s (closedSwitchEvent i b s) := by
  unfold closedSwitchEvent
  extract_lets src d
  split
  · exact .refl _ s
  · have hfree : (s.door i).state ≠ .held → Sound false s (doorEvent i d.toFree .closed s) := fun hs =>
      doorEvent_sound (fun h => .toFree (h.noHolds hs)) nofun
    split
    · rename_i hb
      have hclosed : d.closedSwitch = true := hb
      split
      case h_1 hs | h_2 hs => exact hfree (by rw [show (s.door i).state = _ from hs]; decide)
      case h_3 hs =>
        refine setDoorTrouble_sound (fun h => ?_) id
        simp_all [DoorOk, d, src, Door.noHolds]
      all_goals
        rename_i hs
        refine setDoorTrouble_sound (fun h => ?_) id
        simp_all [DoorOk, d, src, Door.noHolds]
    · split
      · rename_i hb hs
        refine setDoor_sound (fun h => ?_) id
        simp_all [DoorOk, d, src, Door.noHolds]
      · refine setDoor_sound (fun h => ?_) id
        simp_all [DoorOk, d, src, Door.noHolds]

theorem barrierEvent_sound (i : Fin 12) (b : Bool) (s : State) : Sound false s (barrierEvent i b s) := by
  unfold barrierEvent
  extract_lets src d
  split
  · exact .refl _ s
  · split
    · rename_i hb
      have hst : (s.door i).state = .releaseWait := by simpa using (Bool.and_eq_true_iff.mp hb).2
      have hne : (s.door i).state ≠ .held := by rw [hst]; decide
      exact doorEvent_sound (fun h => DoorOk.toClosing (x := d) (h.noHolds hne) (h.caused hst) _ _) fun hheld =>
        absurd hheld (Door.toClosing_not_held _ _ _)
    · rename_i hb
      refine setDoor_sound (fun h => ?_) id
      cases b <;> simp_all [DoorOk, d, src, Door.noHolds]

theorem dropHold_sound {i : Fin 12} {p : Port} (staying : DoorCause) (cause : ReleaseCause) {s : State}
    (hp : ((s.door i).hold p).isSome = true) : Sound false s (dropHold i p staying cause s) := by
  unfold dropHold
  dsimp only
  split
  · exact doorEvent_sound (fun _ => .release _ _ _ _) fun h => absurd h (Door.release_not_held _ _ _ _)
  · rename_i hn
    refine doorEvent_sound (fun h => ?_) fun h => .inl ?_
    · cases p <;> simp_all [DoorOk, Door.setHold, Door.hold, Door.noHolds, Option.isSome_iff_ne_none]
    · cases p <;> exact h

theorem holdExpires_sound (i : Fin 12) (p : Port) (s : State) : Sound false s (holdExpires i p s) := by
  unfold holdExpires
  split
  · rename_i h
    exact dropHold_sound _ _ (by simp [of_decide_eq_true h])
  · exact .refl _ s

theorem obstructionExpires_sound (i : Fin 12) (s : State) : Sound false s (obstructionExpires i s) := by
  unfold obstructionExpires
  split
  · rename_i h
    have hst : (s.door i).state = .releaseWait := by simpa using (Bool.and_eq_true_iff.mp h).2
    have hne : (s.door i).state ≠ .held := by rw [hst]; decide
    exact doorEvent_sound (fun h => .toClosing (h.noHolds hne) (h.caused hst) _ _) fun hheld =>
      absurd hheld (Door.toClosing_not_held _ _ _)
  · exact .refl _ s

theorem closeExpires_sound (i : Fin 12) (s : State) : Sound false s (closeExpires i s) := by
  unfold closeExpires
  split
  · rename_i h
    have hst : (s.door i).state = .closing := by simpa using (Bool.and_eq_true_iff.mp h).2
    refine (doorEvent_sound (fun hd => ?_) fun hh => absurd hh (by simp [Door.enter])).trans (doorTrouble_sound i _ _ _)
    have hn := hd.noHolds (by rw [hst]; decide)
    simp_all [DoorOk, Door.enter, magnetOn, Door.noHolds]
  · exact .refl _ s

theorem proppedExpires_sound (i : Fin 12) (s : State) : Sound false s (proppedExpires i s) := by
  unfold proppedExpires
  split
  · refine setDoorTrouble_sound (fun hd => ?_) id
    simp_all [DoorOk, Door.noHolds]
  · exact .refl _ s

theorem closeDoor_sound (i : Fin 12) (s : State) : Sound false s (closeDoor i s) := by
  unfold closeDoor
  dsimp only
  split
  · exact doorEvent_sound (fun _ => .release _ _ _ _) fun h => absurd h (Door.release_not_held _ _ _ _)
  · rename_i hs
    split
    case h_3 => exact .refl _ s
    all_goals exact doorEvent_sound (fun h => h.setCause hs _) fun h => absurd (hs.symm.trans h) (by decide)
  all_goals exact .refl _ s

/-! ### Sirens (chapter 9) -/

theorem Sound.of_arbiter {s t : State} (h : Within .sound s t) (ports : PortsOk s → PortsOk t) (sirens : SirensOk s → SirensOk t) :
    Sound false s t :=
  have hz := h.hazards rfl
  .of_hazards h.fixed hz (fun z => by rw [State.zone_eq_of_zones (h.zones rfl)]; exact id) (h.ducts rfl) ports
    (fun hd i => State.door_eq_of_doors (h.doors rfl) i ▸ hd i) (.of_same hz (h.doors rfl) h.fixed.cfg_eq) sirens
    (.of_same (h.captures rfl) (h.stations rfl))

theorem arbiterEvent_sound {s : State} {g : Fin 8 → Bool} {f : Fin 8 → Siren → Siren} (cause : Fin 8 → Siren → SirenCause)
    (hsounding : ∀ i x, (f i x).sounding = x.sounding)
    (hsnapshot : ∀ (i : Fin 8) (x : Siren) (z : Fin 16), zoneIn (f i x).snapshot z = true → zoneIn x.snapshot z = true ∨
      (zoneIn s.cfg.sirens[i].cover z = true ∧ s.arbiter.view[z].level.atLeast .alarm = true)) :
    Sound false s (arbiterEvent (s.arbiter.update g f) g cause s) :=
  .of_arbiter (arbiterEvent_within _ _ _ s) (arbiterEvent_ports _ _ _) (arbiterEvent_sirensOk cause hsounding hsnapshot)

theorem setManual_keeps (x : Siren) (p : Port) (m : Option Manual) :
    (x.setManual p m).sounding = x.sounding ∧ (x.setManual p m).snapshot = x.snapshot := by
  cases p <;> exact ⟨rfl, rfl⟩

theorem manualExpires_sound (i : Fin 8) (p : Port) (s : State) : Sound false s (manualExpires i p s) := by
  unfold manualExpires sirenExpiry
  split
  · exact arbiterEvent_sound _ (fun _ x => (setManual_keeps x p none).1) fun _ x _ h =>
      .inl (by rwa [(setManual_keeps x p none).2] at h)
  · exact .refl _ s

theorem allClearExpires_sound (i : Fin 8) (s : State) : Sound false s (allClearExpires i s) := by
  unfold allClearExpires sirenExpiry
  split
  · exact arbiterEvent_sound _ (fun _ _ => rfl) fun _ _ _ => .inl
  · exact .refl _ s

theorem sirenTestExpires_sound (i : Fin 8) (s : State) : Sound false s (sirenTestExpires i s) := by
  unfold sirenTestExpires sirenExpiry
  split
  · exact arbiterEvent_sound _ (fun _ _ => rfl) fun _ _ _ => .inl
  · exact .refl _ s

/-- The Arbiter is replaced by one with the same contributions and view. -/
theorem setArbiter_sirensOk {s : State} {a : Arbiter} (hok : ArbiterOk s.cfg s.arbiter → ArbiterOk s.cfg a)
    (hsirens : ∀ i : Fin 8, SameContributions s.arbiter.sirens[i] a.sirens[i] ∧ a.sirens[i].demand = s.arbiter.sirens[i].demand)
    (hview : a.view = s.arbiter.view) (h : SirensOk s) : SirensOk (s.setArbiter a) := by
  obtain ⟨harb, hdemand, hv⟩ := h
  refine ⟨hok harb, fun i => ?_, fun z => ?_⟩
  · obtain ⟨hd, hs⟩ := hdemand i
    obtain ⟨hsame, hdem⟩ := hsirens i
    have hsnap : a.sirens[i].snapshot = s.arbiter.sirens[i].snapshot := hsame.2.2.1
    refine ⟨?_, fun z hz => ?_⟩
    · show a.sirens[i].demand = sirenDemand _ a.view a.sirens[i]
      rw [sirenDemand_congr hsame, hdem, hview]
      exact hd
    · show _ ∧ a.view[z].level.atLeast .alarm = true
      rw [hview]
      exact hs z (hsnap ▸ hz)
  · show a.view[z] = _
    rw [hview]
    exact hv z

theorem sirenNotices_sound {old new : Arbiter} {f : Fin 8 → Siren → SirenCause} {c : SirenCause} {s : State} :
    Sound false s (sirenNotices old new f c s) :=
  have h := sirenNotices_within old new f c s
  have hz := h.hazards rfl
  .of_arbiter (h.mono rfl) (sirenNotices_ports _ _ f c) (.of_same hz (h.arbiter rfl) h.fixed.cfg_eq)

theorem slotExpires_sound (s : State) : Sound false s (slotExpires s) := by
  unfold slotExpires
  split
  · dsimp only
    refine Sound.trans (t := s.setArbiter _) ?_ sirenNotices_sound
    refine .of_arbiter (setArbiter_within s _) (fun h => h) (setArbiter_sirensOk (fun _ => ?_) (fun i => ?_) ?_)
    · exact (evaluateGrants_ok s.cfg s.tick _).withDrives_ok
    · rw [Arbiter.withDrives_siren, evaluateGrants_siren]
      exact ⟨⟨rfl, rfl, rfl, rfl, rfl⟩, rfl⟩
    · rfl
  · exact .refl _ s

theorem cadenceExpires_sound (s : State) : Sound false s (cadenceExpires s) := by
  unfold cadenceExpires
  split
  · refine .of_arbiter (setArbiter_within s _) id (setArbiter_sirensOk (fun h => ?_) (fun i => ?_) ?_)
    · have hg := h.grantsOk
      exact GrantsOk.withDrives_ok (a := { s.arbiter with phaseOn := !s.arbiter.phaseOn, cadence := some (s.after 4000) }) hg
    · rw [Arbiter.withDrives_siren]
      exact ⟨⟨rfl, rfl, rfl, rfl, rfl⟩, rfl⟩
    · rfl
  · exact .refl _ s

/-! ### Zones (R8 to R11, R18, R19) -/

theorem ackZone_sound (z : Fin 16) (p : Port) (s : State) : Sound false s (ackZone z p s) := by
  unfold ackZone
  dsimp only
  split
  · exact .refl _ s
  · exact zoneEvent_sound rfl (fun _ h => h) fun _ _ => rfl

theorem resetZone_sound (z : Fin 16) (s : State) : Sound true s (resetZone z s) :=
  zoneEvent_sound rfl nofun fun _ _ => rfl

theorem setInput_sound (i : Fin 8) (x : Input) (s : State) : Sound false s (s.setInput i x) :=
  have h := setInput_within s i x
  have hz := h.hazards rfl
  .of_hazards h.fixed hz (fun _ hn => hn) (h.ducts rfl) (fun hp => hp) (fun hd => hd) (.of_same hz (h.doors rfl) h.fixed.cfg_eq)
    (.of_same hz (h.arbiter rfl) h.fixed.cfg_eq) (.of_same (h.captures rfl) (h.stations rfl))

theorem inputAcceptedSample_sound (i : Fin 8) (sensed : Sensed) (s : State) : Sound false s (inputAcceptedSample i sensed s) := by
  unfold inputAcceptedSample inputAcceptedEvent
  split
  · dsimp only
    have h := (setInput_sound i ((s.input i).sampled s.cfg.inputs[i].debounce sensed) s).trans
      (postZone_sound (z := ‹Fin 16›) (key := .input i) (by simp [CauseKey.ix]) (inputLevel s.cfg.inputs[i] sensed) _)
    split
    · exact h.trans (raiseTrouble_sound _ _ _ _)
    · split
      · exact h.trans (clearTrouble_sound _ _ _ _)
      · exact h
  · exact .refl _ s

end Sys2Proof.Machine
end

