-- ==== Sys2Proof/Proofs/CaptureStore.lean ====
section
/-! PROOFS. The Capture Store in agreement with itself (R159) through the operations of its blocks: a capture starts, is counted into,
filled and stored, is freed, and the store is laid out anew. -/

namespace Sys2Proof.Machine

open Sys2Proof

/-! ### Blocks and places -/

theorem Vector.getElem_set_fin {α : Type} {n : Nat} (v : Vector α n) (i j : Fin n) (x : α) :
    (v.set i x)[j] = if j = i then x else v[j] := by
  by_cases h : j = i
  · subst h
    simp
  · have : i.val ≠ j.val := fun e => h (Fin.ext e.symm)
    simp [h, this]

theorem Captures.setBlock_block (c : Captures) (i : Nat) (x : Block) (j : Nat) (h : i < c.blocks.length) :
    (c.setBlock i x).block j = if j = i then x else c.block j := by
  unfold Captures.block Captures.setBlock
  rw [List.getElem?_set]
  by_cases hj : j = i
  · subst hj
    simp [h]
  · simp [hj, Ne.symm hj]

/-- A place outside the layout holds no block. -/
theorem Captures.block_outside {c : Captures} {i : Nat} (h : ¬i < c.blocks.length) : c.block i = .free := by
  simp [Captures.block, List.getElem?_eq_none (Nat.not_lt.mp h)]

theorem Captures.inside_of_filling {c : Captures} {i : Nat} (h : (c.block i).isFilling = true) : i < c.blocks.length := by
  by_contra hn
  rw [Captures.block_outside hn] at h
  exact absurd h (by decide)

/-- The lowest FREE block is one of the layout, and FREE. -/
theorem Captures.lowestFree_free {c : Captures} {b : Nat} (h : c.lowestFree = some b) :
    b < c.blocks.length ∧ (c.block b).isFree = true := by
  obtain ⟨hb, hfree, -⟩ := List.findIdx?_eq_some_iff_getElem.mp h
  exact ⟨hb, by simpa [Captures.block, hb] using hfree⟩

theorem Block.free_cases {b : Block} (h : b.isFree = true) : b.isFilling = false ∧ b.isStored = false := by
  cases b <;> simp_all [Block.isFree, Block.isFilling, Block.isStored]

theorem Block.filling_not_stored {b : Block} (h : b.isFilling = true) : b.isStored = false := by
  cases b <;> simp_all [Block.isFilling, Block.isStored]

/-! ### The agreement -/

/-- The Capture Store and the stations' marks in agreement (R159). -/
structure Agree (c : Captures) (marks : Vector Station 16) : Prop where
  length : c.blocks.length = blockCount c.layout
  nodup : c.stored.Nodup
  stored : ∀ b : Nat, b ∈ c.stored ↔ (c.block b).isStored = true
  named : ∀ (i : Fin 16) (b : Nat), c.filling[i] = some b → (c.block b).isFilling = true
  fills : ∀ b : Nat, (c.block b).isFilling = true → ∃ i : Fin 16, c.filling[i] = some b
  own : ∀ i j : Fin 16, c.filling[i].isSome = true → c.filling[i] = c.filling[j] → i = j
  marks : ∀ i : Fin 16, marks[i].inFlight = c.filling[i].isSome

theorem capturesOk_iff (s : State) : CapturesOk s ↔ Agree s.captures s.stations :=
  ⟨fun ⟨h1, h2, h3, h4, h5, h6, h7⟩ => ⟨h1, h2, h3, h4, h5, h6, h7⟩,
    fun ⟨h1, h2, h3, h4, h5, h6, h7⟩ => ⟨h1, h2, h3, h4, h5, h6, h7⟩⟩

/-- Records that change inside blocks of the same state. -/
theorem Agree.of_kinds {c k : Captures} {marks new : Vector Station 16} (h : Agree c marks) (hlen : k.blocks.length = c.blocks.length)
    (hlayout : k.layout = c.layout) (hs : k.stored = c.stored) (hf : k.filling = c.filling)
    (hstored : ∀ b, (k.block b).isStored = (c.block b).isStored) (hfilling : ∀ b, (k.block b).isFilling = (c.block b).isFilling)
    (hmarks : ∀ i : Fin 16, new[i].inFlight = marks[i].inFlight) : Agree k new where
  length := by rw [hlen, hlayout]; exact h.length
  nodup := hs ▸ h.nodup
  stored := fun b => by rw [hs, hstored]; exact h.stored b
  named := fun i b hb => by rw [hf] at hb; rw [hfilling]; exact h.named i b hb
  fills := fun b hb => by rw [hfilling] at hb; rw [hf]; exact h.fills b hb
  own := fun i j => by rw [hf]; exact h.own i j
  marks := fun i => by rw [hf, hmarks]; exact h.marks i

theorem Agree.setBlock {c : Captures} {marks : Vector Station 16} (h : Agree c marks) (i : Nat) (x : Block)
    (hx : x.isStored = (c.block i).isStored ∧ x.isFilling = (c.block i).isFilling) : Agree (c.setBlock i x) marks := by
  by_cases hi : i < c.blocks.length
  · have hblock : ∀ b, ((c.setBlock i x).block b).isStored = (c.block b).isStored ∧
        ((c.setBlock i x).block b).isFilling = (c.block b).isFilling := fun b => by
      rw [Captures.setBlock_block c i x b hi]
      split
      · rename_i hb
        rw [hb]
        exact hx
      · exact ⟨rfl, rfl⟩
    exact h.of_kinds (by simp [Captures.setBlock]) rfl rfl rfl (fun b => (hblock b).1) (fun b => (hblock b).2) fun _ => rfl
  · have : c.setBlock i x = c := by
      unfold Captures.setBlock
      rw [List.set_eq_of_length_le (Nat.not_lt.mp hi)]
    rw [this]
    exact h

theorem Block.counted_kind (b : Block) : b.counted.isStored = b.isStored ∧ b.counted.isFilling = b.isFilling := by
  cases b <;> exact ⟨rfl, rfl⟩

/-- A capture starts in a FREE block for a station that fills none (R160, R161). -/
theorem Agree.start {c : Captures} {marks : Vector Station 16} (h : Agree c marks) {i : Fin 16} {b n : Nat} (r : Capture) (seq : Word16)
    (st : Station) (hst : st.inFlight = true) (hnone : c.filling[i] = none) (hb : b < c.blocks.length)
    (hfree : (c.block b).isFree = true) :
    Agree { c.setBlock b (.filling r n) with filling := c.filling.set i (some b), nextSeq := seq } (marks.set i st) := by
  obtain ⟨hnf, hns⟩ := Block.free_cases hfree
  have hblock : ∀ j, ({ c.setBlock b (.filling r n) with filling := c.filling.set i (some b), nextSeq := seq } : Captures).block j =
      if j = b then .filling r n else c.block j := fun j => Captures.setBlock_block c b _ j hb
  have hne : ∀ (j : Fin 16) a, c.filling[j] = some a → a ≠ b := fun j a hj hab => by
    have := h.named j a hj
    rw [hab, hnf] at this
    exact absurd this Bool.false_ne_true
  refine ⟨by simpa [Captures.setBlock] using h.length, h.nodup, fun a => ?_, fun j a hj => ?_, fun a ha => ?_, fun j k hj hjk => ?_, fun j => ?_⟩
  · rw [hblock]
    split
    · rename_i hab
      rw [hab]
      exact ⟨fun hm => absurd ((h.stored b).mp hm) (by simp [hns]), nofun⟩
    · exact h.stored a
  · rw [hblock]
    rw [Vector.getElem_set_fin] at hj
    split at hj
    · rw [if_pos (Option.some.inj hj).symm]
      rfl
    · rw [if_neg (hne j a hj)]
      exact h.named j a hj
  · rw [hblock] at ha
    split at ha
    · rename_i hab
      exact ⟨i, by rw [Vector.getElem_set_fin, if_pos rfl, hab]⟩
    · obtain ⟨j, hj⟩ := h.fills a ha
      refine ⟨j, ?_⟩
      rw [Vector.getElem_set_fin, if_neg fun e => ?_]
      · exact hj
      · rw [e, hnone] at hj
        exact absurd hj nofun
  · rw [Vector.getElem_set_fin, Vector.getElem_set_fin] at hjk
    rw [Vector.getElem_set_fin] at hj
    by_cases h1 : j = i <;> by_cases h2 : k = i
    · exact h1.trans h2.symm
    · rw [if_pos h1, if_neg h2] at hjk
      exact absurd rfl (hne k b hjk.symm)
    · rw [if_neg h1, if_pos h2] at hjk
      exact absurd rfl (hne j b hjk)
    · rw [if_neg h1, if_neg h2] at hjk
      rw [if_neg h1] at hj
      exact h.own j k hj hjk
  · rw [Vector.getElem_set_fin, Vector.getElem_set_fin]
    split
    · exact hst
    · exact h.marks j

/-- A filling capture is complete: its block is STORED and its station fills none (R162). -/
theorem Agree.complete {c : Captures} {marks : Vector Station 16} (h : Agree c marks) {i : Fin 16} {b : Nat} (r : Capture)
    (st : Station) (hst : st.inFlight = false) (hb : c.filling[i] = some b) :
    Agree { c.setBlock b (.stored r) with filling := c.filling.set i none, stored := c.stored ++ [b] } (marks.set i st) := by
  have hfill := h.named i b hb
  have hin := Captures.inside_of_filling hfill
  have hnot : b ∉ c.stored := fun hm => by
    have := (h.stored b).mp hm
    rw [Block.filling_not_stored hfill] at this
    exact absurd this Bool.false_ne_true
  have hblock : ∀ j, ({ c.setBlock b (.stored r) with filling := c.filling.set i none, stored := c.stored ++ [b] } : Captures).block j =
      if j = b then .stored r else c.block j := fun j => Captures.setBlock_block c b _ j hin
  have hne : ∀ (j : Fin 16) a, j ≠ i → c.filling[j] = some a → a ≠ b := fun j a hji hj hab =>
    hji (h.own j i (by rw [hj]; rfl) (by rw [hj, hb, hab]))
  refine ⟨by simpa [Captures.setBlock] using h.length, ?_, fun a => ?_, fun j a hj => ?_, fun a ha => ?_, fun j k hj hjk => ?_, fun j => ?_⟩
  · exact List.nodup_append.mpr ⟨h.nodup, by simp, fun a ha k hk e => hnot (List.mem_singleton.mp hk ▸ e ▸ ha)⟩
  · rw [hblock, List.mem_append, List.mem_singleton]
    split
    · rename_i hab
      exact ⟨fun _ => rfl, fun _ => .inr hab⟩
    · rename_i hab
      rw [← h.stored a]
      exact ⟨fun hm => hm.resolve_right hab, .inl⟩
  · rw [Vector.getElem_set_fin] at hj
    split at hj
    · exact absurd hj nofun
    · rename_i hji
      rw [hblock, if_neg (hne j a hji hj)]
      exact h.named j a hj
  · rw [hblock] at ha
    split at ha
    · exact absurd ha Bool.false_ne_true
    · rename_i hab
      obtain ⟨j, hj⟩ := h.fills a ha
      refine ⟨j, ?_⟩
      rw [Vector.getElem_set_fin, if_neg fun e => ?_]
      · exact hj
      · rw [e, hb] at hj
        exact hab (Option.some.inj hj).symm
  · rw [Vector.getElem_set_fin, Vector.getElem_set_fin] at hjk
    rw [Vector.getElem_set_fin] at hj
    by_cases h1 : j = i
    · rw [if_pos h1] at hj
      exact absurd hj (by decide)
    · rw [if_neg h1] at hj hjk
      by_cases h2 : k = i
      · rw [if_pos h2] at hjk
        rw [hjk] at hj
        exact absurd hj (by decide)
      · rw [if_neg h2] at hjk
        exact h.own j k hj hjk
  · rw [Vector.getElem_set_fin, Vector.getElem_set_fin]
    split
    · exact hst
    · exact h.marks j

/-! ### Freeing and layout (R166, R167) -/

/-- The blocks named by a list become FREE. -/
def freed (l : List Nat) (blocks : List Block) : List Block := l.foldl (fun l b => l.set b .free) blocks

theorem freed_length (l : List Nat) (blocks : List Block) : (freed l blocks).length = blocks.length := by
  induction l generalizing blocks with
  | nil => rfl
  | cons b rest ih => exact (ih (blocks.set b .free)).trans List.length_set

theorem freed_getElem? (l : List Nat) (blocks : List Block) (j : Nat) :
    (freed l blocks)[j]?.getD .free = if j ∈ l then .free else blocks[j]?.getD .free := by
  induction l generalizing blocks with
  | nil => simp [freed]
  | cons b rest ih =>
    have h := ih (blocks.set b .free)
    have hset : (blocks.set b .free)[j]?.getD .free = if j = b then .free else blocks[j]?.getD .free := by
      rw [List.getElem?_set]
      by_cases hj : j = b
      · subst hj
        by_cases hl : j < blocks.length <;> simp [hl]
      · simp [hj, Ne.symm hj]
    refine h.trans ?_
    rw [hset]
    by_cases h1 : j ∈ rest <;> by_cases h2 : j = b <;> simp [h1, h2]

/-- The oldest stored blocks become FREE (R166). -/
theorem Agree.free {c : Captures} {marks : Vector Station 16} (h : Agree c marks) (n : Nat) :
    Agree { c with blocks := freed (c.stored.take n) c.blocks, stored := c.stored.drop n, lost := false } marks := by
  have hblock : ∀ j, ({ c with blocks := freed (c.stored.take n) c.blocks, stored := c.stored.drop n, lost := false } : Captures).block j =
      if j ∈ c.stored.take n then .free else c.block j := fun j => freed_getElem? _ _ j
  have hkeep : ∀ j, (c.block j).isFilling = true → j ∉ c.stored.take n := fun j hj hm => by
    have := (h.stored j).mp (List.mem_of_mem_take hm)
    rw [Block.filling_not_stored hj] at this
    exact absurd this Bool.false_ne_true
  have hsplit := List.take_append_drop n c.stored
  have hdisjoint : ∀ j, j ∈ c.stored.take n → j ∉ c.stored.drop n := fun j h1 h2 =>
    List.disjoint_take_drop h.nodup (le_refl n) h1 h2
  refine ⟨(freed_length _ _).trans h.length, h.nodup.sublist (List.drop_sublist n _), fun b => ?_, fun i b hb => ?_, fun b hb => ?_, h.own, h.marks⟩
  · rw [hblock]
    split
    · rename_i hm
      exact ⟨fun hd => absurd hd (hdisjoint b hm), nofun⟩
    · rename_i hm
      rw [← h.stored b]
      refine ⟨List.mem_of_mem_drop, fun hs => ?_⟩
      rw [← hsplit, List.mem_append] at hs
      exact hs.resolve_left hm
  · rw [hblock, if_neg (hkeep b (h.named i b hb))]
    exact h.named i b hb
  · rw [hblock] at hb
    split at hb
    · exact absurd hb (by decide)
    · exact h.fills b hb

/-- A store without FILLING blocks is emptied into a layout (R167). -/
theorem Agree.emptied {c : Captures} {marks : Vector Station 16} (h : Agree c marks) (layout : Fin 3) (pre post : Nat)
    (hf : c.blocks.any Block.isFilling = false) : Agree (c.emptied layout pre post) marks := by
  have hblock : ∀ j, (c.emptied layout pre post).block j = .free := fun j => by
    simp [Captures.emptied, Captures.block, List.getElem?_replicate]
    split <;> rfl
  have hnone : ∀ i : Fin 16, c.filling[i] = none := fun i => by
    by_contra hne
    obtain ⟨b, hb⟩ := Option.ne_none_iff_exists'.mp hne
    have hfill := h.named i b hb
    have hin := Captures.inside_of_filling hfill
    rw [List.any_eq_false] at hf
    exact hf _ (List.getElem_mem hin) (by simpa [Captures.block, hin] using hfill)
  refine ⟨by simp [Captures.emptied], List.nodup_nil, fun b => ?_, fun i b hb => ?_, fun b hb => ?_, h.own, h.marks⟩
  · rw [hblock]
    exact ⟨nofun, nofun⟩
  · rw [show (c.emptied layout pre post).filling[i] = none from hnone i] at hb
    exact absurd hb nofun
  · rw [hblock] at hb
    exact absurd hb (by decide)

end Sys2Proof.Machine
end

