-- ==== Sys2Proof/Proofs/Detections.lean ====
section
/-! PROOFS. The station sample event (R23 to R35) keeps the invariants: the channels, the Capture Store's part, and the settlement of a
confirmed detection with its report to the Duct Controller. -/

namespace Sys2Proof.Machine

open Sys2Proof

/-! ### Detectors and captures alone -/

/-- An operation on channels, stations and captures. -/
theorem Sound.of_detectors {s t : State} (h : Within { channels := true, stations := true, captures := true } s t)
    (ports : PortsOk s → PortsOk t) (captures : CapturesOk s → CapturesOk t) : Sound false s t :=
  have hz := h.hazards rfl
  .of_hazards h.fixed hz (fun z => by rw [State.zone_eq_of_zones (h.zones rfl)]; exact id) (h.ducts rfl) ports
    (fun hd i => State.door_eq_of_doors (h.doors rfl) i ▸ hd i) (.of_same hz (h.doors rfl) h.fixed.cfg_eq)
    (.of_same hz (h.arbiter rfl) h.fixed.cfg_eq) captures

theorem setChannel_sound (c : Fin 16) (x : Channel) (s : State) : Sound false s (s.setChannel c x) :=
  have h := setChannel_within s c x
  .of_detectors (h.mono rfl) (fun hp => hp) (.of_same (h.captures rfl) (h.stations rfl))

theorem setStation_sound {d st : Fin 4} {x : Station} {s : State} (hx : x.inFlight = (s.station d st).inFlight) :
    Sound false s (s.setStation d st x) := by
  refine .of_detectors ((setStation_within s d st x).mono rfl) (fun hp => hp) fun h => ?_
  rw [capturesOk_iff] at h ⊢
  refine h.of_kinds rfl rfl rfl rfl (fun _ => rfl) (fun _ => rfl) fun i => ?_
  show (s.stations.set (stationIx d st) x)[i].inFlight = _
  rw [Vector.getElem_set_fin]
  split
  · rename_i hi
    rw [hi]
    exact hx
  · rfl

theorem setCaptures_sound {c : Captures} {s : State} (h : Agree s.captures s.stations → Agree c s.stations) :
    Sound false s (s.setCaptures c) :=
  .of_detectors ((setCaptures_within s c).mono rfl) (fun hp => hp) fun hc => (capturesOk_iff _).mpr (h ((capturesOk_iff s).mp hc))

theorem offer_sound (o : Offer) (s : State) : Sound false s (offer o s) :=
  (offer_local 0 o s).sound (by simp) (by simp) (by simp) (by simp) (by simp)

theorem Sound.foldl {α : Type} {u : Bool} (f : State → α → State) (l : List α) (s : State) (h : ∀ t a, Sound u t (f t a)) :
    Sound u s (l.foldl f s) := by
  induction l generalizing s with
  | nil => exact .refl u s
  | cons a rest ih => exact (h s a).trans (ih (f s a))

theorem evalCoincidence_sound (d st : Fin 4) (s : State) : Sound false s (evalCoincidence d st s) :=
  Sound.trans ((setTrouble_local 0 _ _ _ _ s).sound (by simp) (by simp) (by simp) (by simp) (by simp))
    ((setTrouble_local 0 _ _ _ _ _).sound (by simp) (by simp) (by simp) (by simp) (by simp))

theorem spoilWindow_sound (d : Fin 4) (s : State) : Sound false s (spoilWindow d s) :=
  (spoilWindow_local d s).sound (by simp) (by simp) (by simp) (by simp) (by simp)

theorem takeSampled_sound (d : Fin 4) (s : State) (x : Fin 16 × Sampled) : Sound false s (takeSampled d s x) := by
  unfold takeSampled reportFault
  dsimp only
  split
  · exact (setChannel_sound _ _ s).trans ((raiseTrouble_sound _ _ _ _).trans (spoilWindow_sound d _))
  · exact setChannel_sound _ _ s

theorem takeSamples_sound (d st : Fin 4) (l : List (Fin 16 × Sampled)) (s : State) : Sound false s (takeSamples d st l s) := by
  have h : Sound false s (l.foldl (takeSampled d) s) := .foldl _ l s (takeSampled_sound d)
  unfold takeSamples
  dsimp only
  split
  · exact h.trans (evalCoincidence_sound d st _)
  · exact h

theorem unconfirmedFlash_sound (d st : Fin 4) (requirement count : Nat) (set : List (Fin 16)) (s : State) :
    Sound false s (unconfirmedFlash d st requirement count set s) :=
  (Sound.foldl _ set s fun _ _ => setChannel_sound _ _ _).trans (offer_sound _ _)

theorem countExtra_sound (b : Nat) (s : State) : Sound false s (countExtra b s) :=
  setCaptures_sound fun h => h.setBlock b _ (Block.counted_kind _)

theorem absorbCapture_sound (d st : Fin 4) (s : State) : Sound false s (absorbCapture d st s) := by
  unfold absorbCapture
  split
  · split
    · exact countExtra_sound _ s
    · exact .refl _ s
  · exact .refl _ s

theorem skipCapture_sound (s : State) : Sound false s (skipCapture s) := by
  unfold skipCapture
  dsimp only
  split
  · exact .refl _ s
  · have hset : Sound false s (s.setCaptures { s.captures with lost := true }) :=
      setCaptures_sound fun h => h.of_kinds rfl rfl rfl rfl (fun _ => rfl) (fun _ => rfl) fun _ => rfl
    exact hset.trans (offer_sound _ _)

/-- Two steps of one operation that agree only together: the store's record and the station's mark. -/
theorem setInFlight_sound {d st : Fin 4} {mark : Bool} {c : Captures} {s : State}
    (h : Agree s.captures s.stations → Agree c (s.stations.set (stationIx d st) { s.station d st with inFlight := mark })) :
    Sound false s (setInFlight d st mark (s.setCaptures c)) :=
  .of_detectors (((setCaptures_within s c).mono rfl).trans ((setStation_within _ d st _).mono rfl)) (fun hp => hp) fun hc =>
    (capturesOk_iff _).mpr (h ((capturesOk_iff s).mp hc))

theorem completeCapture_sound {b : Nat} {r : Capture} {d st : Fin 4} {s : State} (h : s.captures.fillingOf d st = some b) :
    Sound false s (completeCapture b r d st s) := by
  have hset : Sound false s (setInFlight d st false (s.setCaptures { s.captures.setBlock b (.stored r) with
      filling := s.captures.filling.set (stationIx d st) none, stored := s.captures.stored ++ [b] })) :=
    setInFlight_sound fun hc => hc.complete r _ rfl h
  unfold completeCapture
  dsimp only
  split
  · exact hset.trans (offer_sound _ _)
  · exact hset

theorem captureSamples_sound (d st : Fin 4) (l : List Code) (s : State) : Sound false s (captureSamples d st l s) := by
  unfold captureSamples
  split
  · exact .refl _ s
  · rename_i b hb
    split
    · rename_i r n hblock
      split
      · dsimp only
        split
        · exact completeCapture_sound hb
        · exact setCaptures_sound fun h => h.setBlock b _ (by rw [hblock]; exact ⟨rfl, rfl⟩)
      · exact .refl _ s
    all_goals exact .refl _ s

theorem freeCaptures_sound (n : Nat) (s : State) : Sound false s (freeCaptures n s) := setCaptures_sound fun h => h.free n

/-! ### Inside the event of one duct -/

/-- An operation inside an event of one duct, which may reach detectors and captures beside what `Local` reaches. -/
structure Inside (m : List DuctPart) (d : Fin 4) (s t : State) : Prop where
  keeps : Keeps false s t
  others : KeepsOtherDucts d s t
  hazards : KeepsHazards s t
  same : ∀ p, p ∉ m → p.Same (s.duct d) (t.duct d)

theorem Inside.trans {m : List DuctPart} {d : Fin 4} {s t w : State} (h : Inside m d s t) (k : Inside m d t w) : Inside m d s w :=
  ⟨h.keeps.trans k.keeps, fun e he => (k.others e he).trans (h.others e he), h.hazards.trans k.hazards,
    fun p hp => (h.same p hp).trans (k.same p hp)⟩

theorem Inside.mono {m n : List DuctPart} {d : Fin 4} {s t : State} (h : Inside m d s t) (hmn : m ⊆ n) : Inside n d s t :=
  ⟨h.keeps, h.others, h.hazards, fun p hp => h.same p fun hm => hp (hmn hm)⟩

theorem Local.inside {m : List DuctPart} {d : Fin 4} {s t : State} (h : Local m d s t) (ho : .overlays ∉ m) : Inside m d s t :=
  ⟨h.keeps_dry ho, h.others, h.hazards, h.same⟩

theorem Sound.inside {d : Fin 4} {s t : State} (h : Sound false s t) (hd : t.ducts = s.ducts) (hz : t.zones = s.zones) :
    Inside [] d s t :=
  ⟨h.toKeeps, fun e _ => State.duct_eq_of_ducts hd e, .of_zones hz, fun p _ => by rw [State.duct_eq_of_ducts hd]; exact .refl p _⟩

section
variable {m : List DuctPart} {d : Fin 4} {s t : State} (h : Inside m d s t)
include h

theorem Inside.same_at (p : DuctPart) (hp : p ∉ m) (e : Fin 4) : p.Same (s.duct e) (t.duct e) := by
  by_cases he : e = d
  · rw [he]
    exact h.same p hp
  · rw [h.others e he]
    exact .refl p _

theorem Inside.ctl_ne {e : Fin 4} (he : e ≠ d) : t.ctl e = s.ctl e := congrArg Duct.ctl (h.others e he)

/-- The track lists stand where those of the event's own duct do. -/
theorem Inside.tracksOk
    (ht : (s.duct d).tracks.length ≤ 8 → ((s.duct d).tracks.map Track.id).Nodup →
      ((s.ctl d).listMark = true ↔ (s.duct d).tracks ≠ []) →
      (t.duct d).tracks.length ≤ 8 ∧ ((t.duct d).tracks.map Track.id).Nodup ∧ ((t.ctl d).listMark = true ↔ (t.duct d).tracks ≠ []))
    (hs : TracksOk s) : TracksOk t := fun e => by
  obtain ⟨hlen, hnodup, hmark⟩ := hs e
  by_cases he : e = d
  · subst he
    exact ht hlen hnodup hmark
  · rw [h.others e he, h.ctl_ne he]
    exact ⟨hlen, hnodup, hmark⟩

theorem Inside.sound (ht : TracksOk s → TracksOk t) (hp : .posts ∉ m) (hs : .starts ∉ m) : Sound false s t :=
  ⟨h.keeps, ht, .of_same h.hazards (h.same_at .posts hp), fun _ _ => .of_same h.hazards h.keeps.cfg (h.same_at .starts hs)⟩

theorem Inside.settle_sound (ht : TracksOk s → TracksOk t) (hs : .starts ∉ m) : Sound false s (settleDuct d t) :=
  settleDuct_sound h.keeps h.others h.hazards ht fun hr => .inl (h.same .starts hs hr)

end

/-- A detection is settled at the Capture Store: of the duct only a track's capture sequence moves (R160). -/
theorem settleCapture_inside (x : Detection) (o : TrackOutcome) (hi lo : Nat) (s : State) :
    Inside [.tracks] x.duct s (settleCapture x o hi lo s) := by
  unfold settleCapture
  split
  · exact Inside.mono ((countExtra_sound _ s).inside rfl rfl) (by simp)
  · rename_i hnone
    split
    · rename_i b hb
      obtain ⟨hin, hfree⟩ := Captures.lowestFree_free hb
      have hset : Inside [.tracks] x.duct s (setInFlight x.duct x.station true (s.setCaptures
          { s.captures.setBlock b (.filling (newCapture s x o hi lo) s.captures.post) with
            filling := s.captures.filling.set (stationIx x.duct x.station) (some b), nextSeq := s.captures.nextSeq + 1 })) :=
        Inside.mono ((setInFlight_sound fun hc => hc.start _ _ _ rfl hnone hin hfree).inside rfl rfl) (by simp)
      unfold startCapture
      dsimp only
      split
      · exact hset.trans ((handSequence_local x.duct _ _ _).inside (by simp))
      all_goals exact hset
    · refine Inside.mono ((skipCapture_sound s).inside ?_ ?_) (by simp)
      all_goals
        unfold skipCapture
        dsimp only
        split <;> rfl

/-! ### The list with a new track (R58, R60) -/

theorem insertTrack_perm (t : Track) (l : List Track) : (insertTrack t l).Perm (t :: l) := by
  induction l with
  | nil => exact .refl _
  | cons x rest ih =>
    unfold insertTrack
    split
    · exact .refl _
    · exact (ih.cons x).trans (.swap t x rest)

/-- A first track from `next` on with an id outside the list is found where the ids up to the fuel are not all taken. -/
theorem freshId_not_taken (l : List Track) (fuel : Nat) (next : Byte)
    (h : ∃ k < fuel, next + BitVec.ofNat 8 k ∉ l.map Track.id) : freshId l fuel next ∉ l.map Track.id := by
  induction fuel generalizing next with
  | zero => simp at h
  | succ fuel ih =>
    unfold freshId
    split
    · rename_i htaken
      obtain ⟨k, hk, hfree⟩ := h
      refine ih (next + 1) ?_
      match k with
      | 0 =>
        obtain ⟨t, ht, hid⟩ := List.any_eq_true.mp htaken
        exact absurd (List.mem_map.mpr ⟨t, ht, of_decide_eq_true hid⟩) (by simpa using hfree)
      | k + 1 =>
        refine ⟨k, Nat.lt_of_succ_lt_succ hk, ?_⟩
        have : next + BitVec.ofNat 8 (k + 1) = next + 1 + BitVec.ofNat 8 k := by
          apply BitVec.eq_of_toNat_eq
          have h1 : BitVec.toNat (1 : Byte) = 1 := rfl
          simp only [BitVec.toNat_add, BitVec.toNat_ofNat, h1]
          omega
        rwa [this] at hfree
    · rename_i hfree
      simp only [List.any_eq_true, decide_eq_true_eq, not_exists, not_and] at hfree
      simpa using hfree

/-- A list of less than 256 tracks leaves an id free, and the search finds one (R60). -/
theorem freshId_fresh (l : List Track) (next : Byte) (h : l.length < 256) : freshId l 256 next ∉ l.map Track.id := by
  refine freshId_not_taken l 256 next ?_
  by_contra hn
  push Not at hn
  have hall : ∀ b : Byte, b ∈ l.map Track.id := fun b => by
    have hb := hn (b - next).toNat (b - next).isLt
    rwa [BitVec.ofNat_toNat, BitVec.setWidth_eq, add_sub_cancel] at hb
  have hsub : (List.finRange 256).map (fun i => BitVec.ofFin (w := 8) i) ⊆ l.map Track.id := fun b _ => hall b
  have hnodup : ((List.finRange 256).map (fun i => BitVec.ofFin (w := 8) i)).Nodup :=
    (List.nodup_finRange 256).map fun _ _ e => by simpa using e
  have hlen := (List.subperm_of_subset hnodup hsub).length_le
  simp at hlen
  omega

/-! ### Settlement (R61 to R65) -/

theorem matchFirst_ids {st : Fin 4} {o : Tick} {l : List Track} {r : Track × List Track} (h : matchFirst st o l = some r) :
    r.2.map Track.id = l.map Track.id := by
  induction l generalizing r with
  | nil => exact absurd h nofun
  | cons t rest ih =>
    unfold matchFirst at h
    split at h
    · obtain rfl := Option.some.inj h
      rfl
    · obtain ⟨q, hq, rfl⟩ := Option.map_eq_some_iff.mp h
      simp [ih hq]

/-- What the settlement of a detection leaves of the track ids. -/
theorem settleDetection_ids (x : Detection) (s : State) :
    let r := settleDetection x s
    match r.outcome with
    | .tracked id => (s.duct x.duct).tracks.length < 8 ∧ id ∉ (s.duct x.duct).tracks.map Track.id ∧
        ((r.state.duct x.duct).tracks.map Track.id).Perm (id :: (s.duct x.duct).tracks.map Track.id)
    | .matched _ | .overflow => (r.state.duct x.duct).tracks.map Track.id = (s.duct x.duct).tracks.map Track.id := by
  unfold settleDetection
  split
  · rename_i t tracks hm
    simp only [settleMatched]
    exact (congrArg (fun D : Duct => D.tracks.map Track.id) (s.setDuct_duct_self x.duct _)).trans (matchFirst_ids hm)
  · split
    · rename_i hlen
      refine ⟨hlen, freshId_fresh _ _ (by omega), ?_⟩
      simp only [settleTracked]
      generalize freshId (s.duct x.duct).tracks 256 (s.duct x.duct).nextId = id
      set t : Track := { newTrack s.cfg (s.duct x.duct).vel.bounds id x with
        quenched := judgeQuenched (s.duct x.duct).valves (newTrack s.cfg (s.duct x.duct).vel.bounds id x) } with ht
      have hstay := (takeNewTrack_local x.duct t (s.setDuct x.duct { s.duct x.duct with
        tracks := insertTrack t (s.duct x.duct).tracks, nextId := id + 1 })).same .tracks (by simp)
      have hlist : ((takeNewTrack x.duct t (s.setDuct x.duct { s.duct x.duct with
          tracks := insertTrack t (s.duct x.duct).tracks, nextId := id + 1 })).2.duct x.duct).tracks =
          insertTrack t (s.duct x.duct).tracks :=
        Eq.trans hstay (congrArg Duct.tracks (s.setDuct_duct_self x.duct _))
      show (((takeNewTrack x.duct t (s.setDuct x.duct { s.duct x.duct with
          tracks := insertTrack t (s.duct x.duct).tracks, nextId := id + 1 })).2.duct x.duct).tracks.map Track.id).Perm _
      rw [hlist]
      exact (insertTrack_perm t _).map Track.id
    · exact congrArg (List.map Track.id) ((startFlood_local x.duct s).same .tracks (by simp))

/-- The Duct Controller counts a detection and takes the stop causes of its event. -/
theorem countedEvent_local (d : Fin 4) (causes : List StopCause) (s : State) :
    Local [.ctl, .posts, .gate] d s (fireWait d (takeCauses d (countDetection d causes s).1 (countDetection d causes s).2)) :=
  (Local.mono (countDetection_local d causes s) (by simp)).trans ((takeCauses_local d _ _).trans
    (Local.mono (fireWait_local d _) (by simp)))

/-- What the blocks of a duct move in a detection's event before its report. -/
def detectionParts : List DuctPart := [.tracks, .ids, .nextId, .valves, .gate, .flood, .ctl, .posts, .mark]

/-- The report of a counted detection ends the event of its duct. -/
theorem countedEvent_sound {d : Fin 4} {causes : List StopCause} {s t : State} (h : Inside detectionParts d s t)
    (ht : TracksOk s → TracksOk t) :
    Sound false s (dcEvent d (countDetection d causes t).1 (countDetection d causes t).2) := by
  have hl := countedEvent_local d causes t
  exact (h.trans ((hl.inside (by simp)).mono (by simp [detectionParts]))).settle_sound
    (fun hs => hl.tracksOk (by simp) (by simp) (ht hs)) (by simp [detectionParts])

/-- A track list with the ids it had, and its mark as it was. -/
theorem Inside.tracksOk_of_ids {m : List DuctPart} {d : Fin 4} {s t : State} (h : Inside m d s t)
    (hi : (t.duct d).tracks.map Track.id = (s.duct d).tracks.map Track.id) (hc : t.ctl d = s.ctl d) (hs : TracksOk s) : TracksOk t := by
  have hlen : (t.duct d).tracks.length = (s.duct d).tracks.length := by simpa using congrArg List.length hi
  refine h.tracksOk (fun h1 h2 h3 => ?_) hs
  rw [hc, h3, hi, ← List.length_pos_iff, ← List.length_pos_iff, hlen]
  exact ⟨h1, h2, Iff.rfl⟩

/-- The Duct Controller's mark behind a new track: set by the report of a list of one (R69). -/
theorem newTrack_tracksOk {d : Fin 4} {id : Byte} {s t : State} (h : Inside detectionParts d s t) (hc : t.ctl d = s.ctl d)
    (hlen : (s.duct d).tracks.length < 8) (hid : id ∉ (s.duct d).tracks.map Track.id)
    (hperm : ((t.duct d).tracks.map Track.id).Perm (id :: (s.duct d).tracks.map Track.id)) :
    let w := if (t.duct d).tracks.length = 1 then setListMark d true t else t
    Inside detectionParts d s w ∧ (TracksOk s → TracksOk w) := by
  have hlength : (t.duct d).tracks.length = (s.duct d).tracks.length + 1 := by simpa using hperm.length_eq
  have hnodup : ((s.duct d).tracks.map Track.id).Nodup → ((t.duct d).tracks.map Track.id).Nodup := fun hn =>
    hperm.nodup_iff.mpr (List.nodup_cons.mpr ⟨hid, hn⟩)
  have hne : (t.duct d).tracks ≠ [] := List.ne_nil_of_length_eq_add_one hlength
  dsimp only
  split
  · have hl := setListMark_local d true t
    have htracks : ((setListMark d true t).duct d).tracks = (t.duct d).tracks := hl.same .tracks (by simp)
    have hw : Inside detectionParts d s (setListMark d true t) := h.trans ((hl.inside (by simp)).mono (by simp [detectionParts]))
    refine ⟨hw, hw.tracksOk fun _ h2 _ => ?_⟩
    rw [htracks]
    refine ⟨by omega, hnodup h2, fun _ => hne, fun _ => ?_⟩
    rw [setListMark, State.ctl, State.setCtl, State.setDuct_duct_self]
    rfl
  · rename_i hone
    refine ⟨h, h.tracksOk fun _ h2 h3 => ⟨by omega, hnodup h2, fun _ => hne, fun _ => ?_⟩⟩
    rw [hc, h3]
    exact List.ne_nil_of_length_pos (by omega)

/-- A confirmed detection (R33), from its settlement to its report. -/
theorem confirmDetection_sound (x : Detection) (s : State) : Sound false s (confirmDetection x s) := by
  unfold confirmDetection
  extract_lets src s1 r
  refine Sound.trans (setStation_sound rfl : Sound false s s1) ?_
  have hsettle := (settleDetection_local x s1).inside (by simp)
  have hids := settleDetection_ids x s1
  have hcap := settleCapture_inside x r.outcome r.vHi r.vLo r.state
  generalize settleCapture x r.outcome r.vHi r.vLo r.state = s2 at hcap
  have hids2 : (s2.duct x.duct).tracks.map Track.id = (r.state.duct x.duct).tracks.map Track.id := hcap.same .ids (by simp)
  have hctl : s2.ctl x.duct = s1.ctl x.duct := Eq.trans (hcap.same .ctl (by simp)) (hsettle.same .ctl (by simp))
  have hin : Inside [.tracks, .ids, .nextId, .valves, .gate, .flood] x.duct s1 s2 := hsettle.trans (hcap.mono (by simp))
  have hwide : Inside detectionParts x.duct s1 s2 := hin.mono (by simp [detectionParts])
  change match r.outcome with
    | .tracked id => (s1.duct x.duct).tracks.length < 8 ∧ id ∉ (s1.duct x.duct).tracks.map Track.id ∧
        ((r.state.duct x.duct).tracks.map Track.id).Perm (id :: (s1.duct x.duct).tracks.map Track.id)
    | .matched _ | .overflow => (r.state.duct x.duct).tracks.map Track.id = (s1.duct x.duct).tracks.map Track.id at hids
  unfold reportDetection
  cases ho : r.outcome with
  | matched id =>
    rw [ho] at hids
    exact hin.sound (hin.tracksOk_of_ids (hids2.trans hids) hctl) (by simp) (by simp)
  | tracked id =>
    rw [ho] at hids
    obtain ⟨hlen, hid, hperm⟩ := hids
    obtain ⟨hw, ht⟩ := newTrack_tracksOk hwide hctl hlen hid (hids2 ▸ hperm)
    exact countedEvent_sound hw ht
  | overflow =>
    rw [ho] at hids
    exact countedEvent_sound hwide (hwide.tracksOk_of_ids (hids2.trans hids) hctl)

/-! ### The whole event (R23) -/

theorem judgeStation_sound (d st : Fin 4) (dead : Nat) (l : List (Fin 16 × Sampled)) (s : State) :
    Sound false s (judgeStation d st dead l s) := by
  unfold judgeStation
  dsimp only
  split
  · exact .refl _ s
  · split
    · exact absorbCapture_sound d st s
    · split
      · exact confirmDetection_sound _ s
      · exact unconfirmedFlash_sound d st _ _ _ s

theorem stationEvent_sound (d st : Fin 4) (codes : Vector Code 4) (samplesFirst : Bool) (s : State) :
    Sound false s (stationEvent d st codes samplesFirst s) := by
  unfold stationEvent
  extract_lets l dead s1 words
  have hpass : Sound false s (passDeadTime d st s) := setStation_sound rfl
  have h : Sound false s s1 := hpass.trans (takeSamples_sound d st l (passDeadTime d st s))
  split
  · exact h.trans ((captureSamples_sound d st words s1).trans (judgeStation_sound d st dead l _))
  · exact h.trans ((judgeStation_sound d st dead l s1).trans (captureSamples_sound d st words _))

end Sys2Proof.Machine
end

