-- ==== Sys2Proof/Proofs/StartUp.lean ====
section
/-! PROOFS. Commands as a whole: what a command keeps in every load state, with the power-on values and the load completion, which meet
every invariant on their own. -/

namespace Sys2Proof.Machine

open Sys2Proof

/-! ### The machine right after reset -/

/-- A cause set without records. -/
theorem causesLevel_none : causesLevel (Vector.replicate 13 .normal) = .normal := by decide

theorem initialZones_get (z : Fin 16) :
    State.reset.zone z = Zone.initial (if z.val < 4 then .duct else .unused) := by
  simp [State.reset, State.zone, initialZones]

theorem reset_duct (d : Fin 4) : State.reset.duct d = Duct.initial := by
  simp [State.reset, State.duct]

theorem reset_door (i : Fin 12) : State.reset.door i = Door.initial := by
  simp [State.reset, State.door]

theorem reset_port (p : Port) : State.reset.port p = PortUnit.initial := by
  simp [State.reset, State.port]

theorem Arbiter.initial_siren (i : Fin 8) : Arbiter.initial.sirens[i] = Siren.initial := by
  simp [Arbiter.initial]

theorem reset_zonesOk : ZonesOk State.reset := fun z => by
  rw [initialZones_get]
  simp [ZoneOk, Zone.initial, deriveLevel, causesLevel_none]

theorem reset_portsOk : PortsOk State.reset := fun p => by
  rw [reset_port]
  exact PortUnit.initial_portOk

theorem reset_outputsOk : OutputsOk State.reset := fun d => by
  rw [reset_duct]
  refine ⟨by simp [CtlOk, Duct.initial, Ctl.initial, feederOn, fanOn], fun v => ?_, by simp [GateOk, Duct.initial, Gate.initial]⟩
  simp [Duct.initial, ValveOk, Valve.initial]

theorem reset_boundsOk : BoundsOk State.reset := by
  rw [boundsOk_iff_at]
  intro d
  rw [BoundsAt, State.ctl, reset_duct, State.ductCfg]
  simp only [State.reset, Cfg.blank, Fin.getElem_fin, Vector.getElem_replicate]
  decide

theorem reset_tracksOk : TracksOk State.reset := fun d => by
  rw [State.ctl, reset_duct]
  simp [Duct.initial, Ctl.initial]

theorem reset_overlaysOk : OverlaysOk State.reset := fun d => by
  rw [reset_duct]
  simp [Duct.initial]

theorem reset_doorsOk : DoorsOk State.reset := fun i => by
  rw [reset_door]
  simp [DoorOk, Door.initial, magnetOn, Door.noHolds]

/-- No contribution, no demand: whatever the siren covers. -/
theorem sirenDemand_initial (cover : ZoneMask) : sirenDemand cover Arbiter.initial.view Siren.initial = none := by
  have hn : ∀ z : Fin 16, Arbiter.initial.view[z] = ⟨.normal, ⟨false, false⟩⟩ := fun z => by simp [Arbiter.initial]
  simp [sirenDemand, Siren.initial, hn, higherPattern]

theorem soundingSirens_initial : soundingSirens Arbiter.initial = [] := by decide

/-- The Siren Arbiter at power-on is sound under every configuration. -/
theorem arbiterOk_initial (c : Cfg) : ArbiterOk c Arbiter.initial := by
  refine ⟨?_, Nat.zero_le _, fun i => ?_⟩
  · rw [soundingSirens_initial]
    rfl
  · rw [Arbiter.initial_siren]
    exact ⟨nofun, rfl⟩

theorem demandOk_initial (c : SirenCfg) : DemandOk c Arbiter.initial.view Siren.initial :=
  ⟨(sirenDemand_initial c.cover).symm, fun z h => by
    rw [show Siren.initial.snapshot = 0 from rfl, zoneIn_zero] at h
    exact absurd h Bool.false_ne_true⟩

/-- A quiet part asks for no siren, whatever it is configured for. -/
theorem sirensOk_initial {s : State} (ha : s.arbiter = Arbiter.initial) (hl : ∀ z, (s.zone z).level = .normal)
    (hk : ∀ z, (s.zone z).acked = ⟨false, false⟩) : SirensOk s := by
  rw [SirensOk, ha]
  refine ⟨arbiterOk_initial _, fun i => ?_, fun z => ?_⟩
  · rw [Arbiter.initial_siren]
    exact demandOk_initial _
  · rw [hl, hk]
    simp [Arbiter.initial]

theorem reset_sirensOk : SirensOk State.reset :=
  sirensOk_initial rfl (fun z => by rw [initialZones_get]; rfl) fun z => by rw [initialZones_get]; rfl

/-- A Capture Store of FREE blocks, whatever its layout. -/
theorem agree_initial (layout : Fin 3) (pre post : Nat) :
    Agree { Captures.initial with layout := layout, pre := pre, post := post, blocks := List.replicate (blockCount layout) .free }
      State.reset.stations := by
  have hblock : ∀ j, ({ Captures.initial with
      layout := layout, pre := pre, post := post, blocks := List.replicate (blockCount layout) .free } : Captures).block j = .free := by
    intro j
    simp only [Captures.block, List.getElem?_replicate]
    split <;> rfl
  refine ⟨by simp, List.nodup_nil, fun b => ?_, fun i b hb => ?_, fun b hb => ?_, fun i j hi => ?_, fun i => ?_⟩
  · rw [hblock]
    exact ⟨nofun, nofun⟩
  · simp [Captures.initial] at hb
  · rw [hblock] at hb
    exact absurd hb (by decide)
  · simp [Captures.initial] at hi
  · simp [Captures.initial, State.reset]

theorem reset_capturesOk : CapturesOk State.reset := (capturesOk_iff _).mpr (agree_initial 0 0 0)

theorem reset_storeOk : StoreOk State.reset := ⟨wf_reset, nofun, fun _ => ⟨rfl, rfl, rfl⟩, nofun, nofun⟩

theorem reset_quietOk : QuietOk State.reset := fun _ => ⟨rfl, rfl, rfl, rfl, rfl, rfl, rfl, rfl, rfl⟩

theorem reset_postedOk : PostedOk State.reset := fun d => by
  rw [State.ctl, reset_duct, initialZones_get]
  simp [Zone.initial, Duct.initial, Ctl.initial, Velocity.initial, ductStateLevel, velocityLevel, emberLevel]

theorem reset_ductsClear : DuctsClear State.reset := fun d _ _ _ => by
  rw [State.ctl, reset_duct]
  rfl

theorem reset_doorsClear : DoorsClear State.reset := fun i _ h => by
  rw [reset_door] at h
  exact absurd h nofun

theorem reset_outputsSafe : OutputsSafe State.reset := by
  refine ⟨fun d => ?_, fun i => ?_, fun i => ?_, fun p => ?_⟩
  · rw [State.ctl, State.gate, reset_duct]
    refine ⟨rfl, rfl, rfl, rfl, fun v => ?_⟩
    rw [State.valve, reset_duct]
    simp [Duct.initial, Valve.initial]
  · rw [reset_door]
    rfl
  · rw [show State.reset.arbiter = Arbiter.initial from rfl, Arbiter.initial_siren]
    rfl
  · rw [reset_port]
    rfl

/-- Settles O17: each invariant of the power-on values, by the values of its own records. -/
theorem resetMeetsTheInvariants : Obligations.ResetMeetsTheInvariants :=
  ⟨reset_zonesOk, reset_portsOk, reset_outputsOk, reset_boundsOk, reset_tracksOk, reset_overlaysOk, reset_doorsOk, reset_sirensOk,
    reset_capturesOk, reset_storeOk, reset_quietOk, reset_postedOk, reset_outputsSafe, reset_ductsClear, reset_doorsClear⟩

/-! ### Commands -/

/-- A command keeps every invariant, in every load state. What stands on configured values needs the part quiet outside RUNNING, since a
load gives it others. -/
structure Event (unlatch : Bool) (s t : State) : Prop where
  latches : unlatch = false → ∀ z, (s.zone z).latch = true → (t.zone z).latch = true
  zones : ZonesOk s → ZonesOk t
  ports : PortsOk s → PortsOk t
  outputs : OutputsOk s → OutputsOk t
  bounds : BoundsOk s → BoundsOk t
  tracks : TracksOk s → TracksOk t
  overlays : OverlaysOk s → OverlaysOk t
  doors : DoorsOk s → DoorsOk t
  posted : PostedOk s → PostedOk t
  store : StoreOk s → StoreOk t
  quiet : QuietOk s → QuietOk t
  doorsClear : QuietOk s → DoorsClear s → DoorsClear t
  sirens : QuietOk s → SirensOk s → SirensOk t
  captures : QuietOk s → CapturesOk s → CapturesOk t
  clear : QuietOk s → ZonesOk s → PostedOk s → DuctsClear s → DuctsClear t

theorem Event.trans {u : Bool} {s t w : State} (h : Event u s t) (k : Event u t w) : Event u s w where
  latches := fun hu z hz => k.latches hu z (h.latches hu z hz)
  zones := fun x => k.zones (h.zones x)
  ports := fun x => k.ports (h.ports x)
  outputs := fun x => k.outputs (h.outputs x)
  bounds := fun x => k.bounds (h.bounds x)
  tracks := fun x => k.tracks (h.tracks x)
  overlays := fun x => k.overlays (h.overlays x)
  doors := fun x => k.doors (h.doors x)
  posted := fun x => k.posted (h.posted x)
  store := fun x => k.store (h.store x)
  quiet := fun x => k.quiet (h.quiet x)
  doorsClear := fun q x => k.doorsClear (h.quiet q) (h.doorsClear q x)
  sirens := fun q x => k.sirens (h.quiet q) (h.sirens q x)
  captures := fun q x => k.captures (h.quiet q) (h.captures q x)
  clear := fun q z p x => k.clear (h.quiet q) (h.zones z) (h.posted p) (h.clear q z p x)

/-- An event of the blocks while the part works. -/
theorem Sound.event {u : Bool} {s t : State} (h : Sound u s t) (hr : s.isRunning = true) : Event u s t where
  latches := h.latches
  zones := h.zones
  ports := h.ports
  outputs := h.outputs
  bounds := h.bounds
  tracks := h.tracks
  overlays := h.overlays
  doors := h.doors
  posted := h.posted
  store := h.store
  quiet := fun _ hn => absurd (hr.symm.trans (h.running.symm.trans hn)) (by decide)
  doorsClear := fun _ => h.doorsClear
  sirens := fun _ => h.sirens
  captures := fun _ => h.captures
  clear := fun _ => h.clear

/-- The blocks of the part are as they were; ports, loader, clock and leads may have moved. -/
structure SameBlocks (s t : State) : Prop where
  cfg : t.cfg = s.cfg
  zones : t.zones = s.zones
  inputs : t.inputs = s.inputs
  channels : t.channels = s.channels
  stations : t.stations = s.stations
  ducts : t.ducts = s.ducts
  doors : t.doors = s.doors
  arbiter : t.arbiter = s.arbiter
  captures : t.captures = s.captures

theorem SameBlocks.of_reset {t : State} (h : SameBlocks State.reset t) : QuietOk t := fun _ =>
  ⟨h.cfg, h.zones, h.inputs, h.channels, h.stations, h.ducts, h.doors, h.arbiter, h.captures⟩

theorem SameBlocks.bounds_eq {s t : State} (h : SameBlocks s t) (hb : BoundsOk s) : BoundsOk t := by
  rw [boundsOk_iff_at] at hb ⊢
  intro d
  rw [BoundsAt, State.ctl, State.duct_eq_of_ducts h.ducts, State.ductCfg, h.cfg]
  exact hb d

/-- A command that leaves the blocks alone. -/
theorem SameBlocks.event {u : Bool} {s t : State} (h : SameBlocks s t) (hr : t.isRunning = s.isRunning) (ports : PortsOk s → PortsOk t)
    (store : StoreOk s → StoreOk t) : Event u s t := by
  have hz : KeepsHazards s t := .of_zones h.zones
  have hduct := State.duct_eq_of_ducts h.ducts
  have hctl : ∀ d, t.ctl d = s.ctl d := fun d => congrArg Duct.ctl (hduct d)
  have hsame : ∀ (p : DuctPart) d, p.Same (s.duct d) (t.duct d) := fun p d => by
    rw [hduct]
    exact .refl p _
  exact
    { latches := fun _ z hl => (hz.latch z).trans hl
      zones := hz.zonesOk fun z => by rw [State.zone_eq_of_zones h.zones]; exact id
      ports := ports
      outputs := .of_same hduct
      bounds := h.bounds_eq
      tracks := .of_same (hsame .ids) fun d => by rw [hctl]
      overlays := .of_same hz fun d => by rw [hduct]
      doors := fun hd i => State.door_eq_of_doors h.doors i ▸ hd i
      posted := .of_same hz (hsame .posts)
      store := store
      quiet := fun q hn => by
        rw [h.cfg, h.zones, h.inputs, h.channels, h.stations, h.ducts, h.doors, h.arbiter, h.captures]
        exact q (hr ▸ hn)
      doorsClear := fun _ => .of_same hz h.doors h.cfg
      sirens := fun _ => .of_same hz h.arbiter h.cfg
      captures := fun _ => .of_same h.captures h.stations
      clear := fun _ _ _ => .of_same hz h.cfg fun d => by rw [hctl]; exact id }

theorem Event.refl (u : Bool) (s : State) : Event u s s :=
  SameBlocks.event ⟨rfl, rfl, rfl, rfl, rfl, rfl, rfl, rfl, rfl⟩ rfl id id

theorem setPort_event {u : Bool} {p : Port} {x : PortUnit} {s : State} (h : PortOk (s.port p) → PortOk x) :
    Event u s (s.setPort p x) := by
  refine SameBlocks.event ⟨rfl, rfl, rfl, rfl, rfl, rfl, rfl, rfl, rfl⟩ rfl (fun hp q => ?_) id
  by_cases hq : q = p
  · rw [hq, State.setPort_port_self]
    exact h (hp p)
  · rw [s.setPort_port_ne p q x hq]
    exact hp q

/-! ### Start-up (R183) -/

/-- The power-on values meet every invariant, whatever came before. -/
theorem powerUp_event {s t : State} (ht : SameBlocks State.reset t) (hp : t.ports = State.reset.ports)
    (hl : t.loader = Loader.initial) (hs : StoreOk s → Memory.wf t.store = true) : Event true s t := by
  have hports : PortsOk t := fun p => by
    rw [State.port, hp]
    exact reset_portsOk p
  have hloader : LoaderOk t.loader := by
    rw [hl]
    exact ⟨fun _ => ⟨rfl, rfl, rfl⟩, nofun, nofun⟩
  have hsame : SameBlocks State.reset { t with store := [] } :=
    ⟨ht.cfg, ht.zones, ht.inputs, ht.channels, ht.stations, ht.ducts, ht.doors, ht.arbiter, ht.captures⟩
  have h : Event true State.reset { t with store := [] } :=
    hsame.event (by rw [State.isRunning, State.isRunning, hl]; rfl) (fun _ => hports)
      fun _ => ⟨wf_reset, by rw [hl]; nofun, hloader⟩
  exact
    { latches := nofun
      zones := fun _ => h.zones reset_zonesOk
      ports := fun _ => hports
      outputs := fun _ => h.outputs reset_outputsOk
      bounds := fun _ => h.bounds reset_boundsOk
      tracks := fun _ => h.tracks reset_tracksOk
      overlays := fun _ => h.overlays reset_overlaysOk
      doors := fun _ => h.doors reset_doorsOk
      posted := fun _ => h.posted reset_postedOk
      store := fun hst => ⟨hs hst, by rw [hl]; nofun, hloader⟩
      quiet := fun _ => ht.of_reset
      doorsClear := fun _ _ => h.doorsClear reset_quietOk reset_doorsClear
      sirens := fun _ _ => h.sirens reset_quietOk reset_sirensOk
      captures := fun _ _ => h.captures reset_quietOk reset_capturesOk
      clear := fun _ _ _ _ => h.clear reset_quietOk reset_zonesOk reset_postedOk reset_ductsClear }

theorem powerUp_sameBlocks (s : State) : SameBlocks State.reset s.powerUp := ⟨rfl, rfl, rfl, rfl, rfl, rfl, rfl, rfl, rfl⟩

theorem tearStore_wf {s : State} (h : StoreOk s) : Memory.wf (tearStore s).store = true := by
  obtain ⟨hwf, hpage, -⟩ := h
  exact wf_tearStore s hwf hpage

/-! ### The load completion (R183, R184) -/

theorem loadedGate_ok (c : GateCfg) (a b : Bool) {g : Gate} (h : GateOk g) : GateOk (loadedGate c a b g) := by
  unfold loadedGate
  split
  · cases a <;> cases b <;> simp [GateOk]
  · exact h

theorem loadedZone_hazard (c : Cfg) (z : Fin 16) (x : Zone) :
    loadedZone c z x = { x with kind := (loadedZone c z x).kind } := by
  unfold loadedZone
  split <;> rfl

theorem takeConfiguration_zone (c : Cfg) (s : State) (z : Fin 16) :
    (takeConfiguration c s).zone z = { s.zone z with kind := ((takeConfiguration c s).zone z).kind } := by
  have h : (takeConfiguration c s).zone z = loadedZone c z (s.zone z) := by simp [takeConfiguration, State.zone]
  rw [h]
  exact loadedZone_hazard c z _

theorem takeConfiguration_duct (c : Cfg) (s : State) (d : Fin 4) :
    (takeConfiguration c s).duct d = loadedDuct c.ducts[d] s.leads d (s.duct d) := by
  simp [takeConfiguration, State.duct]

theorem takeConfiguration_port (c : Cfg) (s : State) (p : Port) :
    (takeConfiguration c s).port p = { s.port p with
      subscription := c.ports[portIx p].subscription, threshold := c.ports[portIx p].threshold, age := c.ports[portIx p].age } := by
  simp [takeConfiguration, State.port]

/-- The blocks take their values and the load ends in RUNNING. -/
theorem loaded_event {c : Cfg} {s t : State} (hs : s.isRunning = false) (ht : t.isRunning = true)
    (hblocks : SameBlocks (takeConfiguration c s) t) (hports : t.ports = (takeConfiguration c s).ports)
    (hstore : StoreOk s → StoreOk t) : Event false s t := by
  have hzone : ∀ z, t.zone z = { s.zone z with kind := (t.zone z).kind } := fun z => by
    rw [State.zone_eq_of_zones hblocks.zones]
    exact takeConfiguration_zone c s z
  have hduct : ∀ d, t.duct d = loadedDuct c.ducts[d] s.leads d (s.duct d) := fun d => by
    rw [State.duct_eq_of_ducts hblocks.ducts]
    exact takeConfiguration_duct c s d
  have hctl : ∀ d, t.ctl d = s.ctl d := fun d => by
    rw [State.ctl, hduct]
    rfl
  have hdoor : ∀ i, t.door i = s.door i := fun i => State.door_eq_of_doors (s := s) hblocks.doors i
  refine
    { latches := fun _ z h => by rw [hzone]; exact h
      zones := fun h z => by rw [hzone]; exact h z
      ports := fun h p => ?_
      outputs := fun h d => ?_
      bounds := fun _ => ?_
      tracks := fun h d => by rw [hctl, hduct]; exact h d
      overlays := fun h d => by rw [hzone, hduct]; exact h d
      doors := fun h i => by rw [hdoor]; exact h i
      posted := fun h d => by rw [hzone, hctl, hduct]; exact h d
      store := hstore
      quiet := fun _ hn => absurd (ht.symm.trans hn) (by decide)
      doorsClear := fun q _ i _ h => ?_
      sirens := fun q _ => ?_
      captures := fun q _ => ?_
      clear := fun q _ _ _ d _ _ _ => ?_ }
  · have hport : t.port p = (takeConfiguration c s).port p := congrArg (·[portIx p]) hports
    rw [hport, takeConfiguration_port]
    exact h p
  · rw [hduct]
    obtain ⟨hc, hv, hg⟩ := h d
    refine ⟨hc, fun v => ?_, loadedGate_ok _ _ _ hg⟩
    simp only [loadedDuct, Fin.getElem_fin, Vector.getElem_ofFn]
    split
    · exact hv v
    · exact hv v
  · rw [boundsOk_iff_at]
    intro d
    rw [BoundsAt, hctl, hduct, State.ductCfg, hblocks.cfg]
    rfl
  · obtain ⟨-, -, -, -, -, -, hdoors, -, -⟩ := q hs
    rw [hdoor, State.door_eq_of_doors (s := State.reset) hdoors, reset_door] at h
    exact absurd h nofun
  · obtain ⟨-, hzones, -, -, -, -, -, harb, -⟩ := q hs
    have hquiet : ∀ z, s.zone z = State.reset.zone z := State.zone_eq_of_zones (s := State.reset) hzones
    refine sirensOk_initial (hblocks.arbiter.trans harb) (fun z => ?_) fun z => ?_
    · rw [hzone, hquiet, initialZones_get]
      rfl
    · rw [hzone, hquiet, initialZones_get]
      rfl
  · obtain ⟨-, -, -, -, hstations, -, -, -, hcaptures⟩ := q hs
    rw [capturesOk_iff, hblocks.captures, hblocks.stations]
    show Agree { s.captures with layout := c.layout, pre := c.pre, post := c.post, blocks := _ } s.stations
    rw [hcaptures, hstations]
    exact agree_initial c.layout c.pre c.post
  · obtain ⟨-, -, -, -, -, hducts, -, -, -⟩ := q hs
    rw [hctl, State.ctl, State.duct_eq_of_ducts (s := State.reset) hducts, reset_duct]
    rfl

theorem startingTroubles_sound (s : State) (d : Fin 4) : Sound false s (startingTroubles s d) := by
  refine Sound.trans (Sound.foldl _ _ s fun t st => ?_) (raiseTrouble_sound _ _ _ _)
  split
  · exact evalCoincidence_sound d st t
  · exact .refl _ t

/-- The load ends in RUNNING with some values. -/
theorem enterRunning_event (c : Cfg) (crc : Word16) {s : State} (hl : s.loader.state = .loading) :
    Event false s (enterRunning c (s.setLoader { s.loader with imageCrc := crc })) := by
  refine Event.trans (t := startSampling ((takeConfiguration c (s.setLoader { s.loader with imageCrc := crc })).setLoader
    { s.loader with imageCrc := crc, state := .running, failing := none })) ?_ ?_
  · refine loaded_event (c := c) (by simp [State.isRunning, hl]) rfl ⟨rfl, rfl, rfl, rfl, rfl, rfl, rfl, rfl, rfl⟩ rfl fun h => ?_
    obtain ⟨hwf, hwrite, -⟩ := h
    exact ⟨hwf, hwrite, nofun, fun _ => rfl, nofun⟩
  · exact (Sound.foldl _ _ _ startingTroubles_sound).event rfl

/-- The load ends in SAFE_HOLD, with the blocks as they were. -/
theorem safeHold_event (code : CheckCode) (crc : Word16) {s : State} (hl : s.loader.state = .loading) :
    Event false s (s.setLoader { s.loader with imageCrc := crc, state := .safeHold, failing := some code }) := by
  refine SameBlocks.event ⟨rfl, rfl, rfl, rfl, rfl, rfl, rfl, rfl, rfl⟩ (by simp [State.isRunning, hl]) id fun h => ?_
  obtain ⟨hwf, hwrite, -⟩ := h
  exact ⟨hwf, hwrite, nofun, nofun, fun _ => rfl⟩

/-- What the load completion can do (R183, R184). The function is unfolded under its name, so that the verdict on the image is put in its
place before anything evaluates it. -/
theorem completeLoad_cases (s : State) :
    (judgeImage s.store = none ∧ completeLoad s =
      enterRunning (readImage (imageOf s.store)) (s.setLoader { s.loader with imageCrc := imageCrcField s.store })) ∨
    ∃ code, judgeImage s.store = some code ∧ completeLoad s =
      s.setLoader { s.loader with imageCrc := imageCrcField s.store, state := .safeHold, failing := some code } := by
  generalize hverdict : judgeImage s.store = verdict
  generalize hload : completeLoad = load
  delta completeLoad at hload
  subst hload
  beta_reduce
  rw [hverdict]
  cases verdict with
  | none => exact .inl ⟨rfl, rfl⟩
  | some code => exact .inr ⟨code, rfl, rfl⟩

theorem completeLoad_event {s : State} (hl : s.loader.state = .loading) : Event false s (completeLoad s) := by
  rcases completeLoad_cases s with ⟨-, h⟩ | ⟨code, -, h⟩
  · rw [h]
    exact enterRunning_event _ _ hl
  · rw [h]
    exact safeHold_event code _ hl

end Sys2Proof.Machine
end

