-- ==== Sys2Proof/Proofs/Replies.lean ====
section
/-! PROOFS. The requests (R173, R174): a refused one changes nothing, an accepted one is a sound event of its block, and its answer finds
room in the transmit list. -/

namespace Sys2Proof.Machine

open Sys2Proof

/-! ### Replies and their frames -/

/-- What the checks of a request leave: every invariant, and the port's transmit list with no more in it. -/
structure ReplyOk (u : Bool) (p : Port) (s t : State) : Prop where
  event : Event u s t
  room : (t.port p).tx.length ≤ (s.port p).tx.length
  waiting : (t.port p).waiting.isSome = true → (s.port p).waiting.isSome = true

theorem ReplyOk.refl (u : Bool) (p : Port) (s : State) : ReplyOk u p s s := ⟨.refl u s, le_refl _, id⟩

/-- An accepted request that is an event of its block. -/
theorem ReplyOk.of_sound {u : Bool} {p : Port} {s t : State} {m : Parts} (h : Sound u s t) (hw : Within m s t)
    (hr : s.isRunning = true) : ReplyOk u p s t := by
  have hp : t.port p = _ := hw.links p
  refine ⟨h.event hr, ?_, ?_⟩
  · rw [hp]
  · rw [hp]
    exact id

/-- An accepted request on the port's own record. -/
theorem ReplyOk.of_port {u : Bool} {p : Port} {s : State} {x : PortUnit} (h : PortOk (s.port p) → PortOk x)
    (htx : x.tx = (s.port p).tx) (hw : x.waiting = (s.port p).waiting) : ReplyOk u p s (s.setPort p x) := by
  refine ⟨setPort_event h, ?_, ?_⟩
  · rw [State.setPort_port_self, htx]
  · rw [State.setPort_port_self, hw]
    exact id

theorem frameTaken_event {u : Bool} (p : Port) (s : State) : Event u s (frameTaken p s) :=
  setPort_event fun h => h.of_room rfl rfl rfl h.2.2.2.1 h.2.2.2.2

/-- A response issued into a list with room. -/
theorem issue_event {u : Bool} {p : Port} {r : Response} {s : State} (ht : (s.port p).tx.length ≤ 3)
    (hw : (s.port p).waiting.isSome = true → (s.port p).tx.length ≤ 2) : Event u s (issue p r s) :=
  setPort_event fun h => h.of_room rfl rfl rfl
    (by rw [List.length_append, List.length_singleton]; omega)
    fun k => by rw [List.length_append, List.length_singleton]; exact Nat.succ_le_succ (hw k)

theorem frameTaken_port (p : Port) (s : State) : (frameTaken p s).port p = { s.port p with rx := .hunting } := by
  simp [frameTaken]

/-- A request's frame, where its checks keep what they must. -/
theorem serve_event {u : Bool} {p : Port} {code n : Byte} {reply : State → Reply} (h : ∀ s, ReplyOk u p s (reply s).state) (s : State) :
    Event u s (serve p code n reply s) := by
  rcases serve_cases p code n reply s with ⟨-, he⟩ | ⟨hd, hw, he⟩ | ⟨hd, hw, he⟩
  · rw [he]
    exact frameTaken_event p s
  · rw [he, ← issue_frameTaken]
    have hroom : (s.port p).tx.length ≤ 2 := by
      simp only [frameDropped, hw, Bool.and_true, Bool.or_eq_false_iff, decide_eq_false_iff_not] at hd
      omega
    refine (frameTaken_event p s).trans (issue_event ?_ fun _ => ?_)
    · rw [frameTaken_port]
      exact hroom.trans (by decide)
    · rw [frameTaken_port]
      exact hroom
  · rw [he]
    have hr := h (frameTaken p s)
    have hroom := hr.room
    have hnone := hr.waiting
    rw [frameTaken_port] at hroom hnone
    refine ((frameTaken_event p s).trans hr.event).trans (issue_event (hroom.trans (room_of_not_dropped hd)) fun k => ?_)
    exact absurd (hw.symm.trans (hnone k)) (by decide)

theorem running_of_not {s : State} (h : ¬(!s.isRunning) = true) : s.isRunning = true := by simpa using h

theorem running_of_not_or {s : State} {b : Bool} (h : ¬(!s.isRunning || b) = true) : s.isRunning = true := by
  simp only [Bool.or_eq_true, not_or] at h
  exact running_of_not h.1

/-! ### Reads -/

section
variable {u : Bool} {p : Port} {s : State}

theorem readZonesReply_ok (z : Byte) : ReplyOk u p s (readZonesReply z s).state := by
  unfold readZonesReply
  repeat' split
  all_goals exact .refl u p s

theorem readDuctReply_ok (d : Byte) : ReplyOk u p s (readDuctReply d s).state := by
  unfold readDuctReply
  repeat' split
  all_goals exact .refl u p s

theorem readTracksReply_ok (d x : Byte) : ReplyOk u p s (readTracksReply d x s).state := by
  unfold readTracksReply
  dsimp only
  repeat' split
  all_goals exact .refl u p s

theorem readChannelsReply_ok (c : Byte) : ReplyOk u p s (readChannelsReply c s).state := by
  unfold readChannelsReply
  repeat' split
  all_goals exact .refl u p s

theorem readOverlaysReply_ok (d : Byte) : ReplyOk u p s (readOverlaysReply d s).state := by
  unfold readOverlaysReply
  repeat' split
  all_goals exact .refl u p s

theorem readDoorsReply_ok (d : Byte) : ReplyOk u p s (readDoorsReply d s).state := by
  unfold readDoorsReply
  repeat' split
  all_goals exact .refl u p s

theorem readSirensReply_ok (x : Byte) : ReplyOk u p s (readSirensReply x s).state := by
  unfold readSirensReply
  repeat' split
  all_goals exact .refl u p s

theorem readCaptureReply_ok (i part : Byte) (o : Word16) (c : Byte) : ReplyOk u p s (readCaptureReply i part o c s).state := by
  unfold readCaptureReply
  dsimp only
  repeat' split
  all_goals exact .refl u p s

theorem readStoreReply_ok (o : Word16) : ReplyOk u p s (readStoreReply o s).state := by
  unfold readStoreReply
  repeat' split
  all_goals exact .refl u p s

end

/-! ### Requests on zones and ducts -/

section
variable {p : Port} {s : State}

theorem ackZone_within (z : Fin 16) (p : Port) (s : State) : Within .hazard s (ackZone z p s) := by
  unfold ackZone
  dsimp only
  split
  · exact .refl _ s
  · exact deliver_within z _ s (zoneEvent_within z _ _ false s)

theorem resetZone_within (z : Fin 16) (s : State) : Within .hazard s (resetZone z s) :=
  deliver_within z _ s (zoneEvent_within z _ _ true s)

theorem ackZoneReply_ok (z : Byte) (tag : Word16) : ReplyOk false p s (ackZoneReply p z tag s).state := by
  unfold ackZoneReply
  repeat' split
  case h_2.isFalse.isFalse => exact .of_sound (ackZone_sound _ p s) (ackZone_within _ p s) (running_of_not ‹_›)
  all_goals exact .refl false p s

theorem declareReply_ok (z l : Byte) : ReplyOk false p s (declareReply p z l s).state := by
  unfold declareReply
  repeat' split
  case h_2.isFalse =>
    exact .of_sound (postZone_sound (by cases p <;> decide) _ s) (postZone_within _ _ _ s) (running_of_not ‹_›)
  all_goals exact .refl false p s

theorem withdrawReply_ok (z : Byte) : ReplyOk false p s (withdrawReply p z s).state := by
  unfold withdrawReply
  repeat' split
  case h_2.isFalse.isFalse =>
    exact .of_sound (postZone_sound (by cases p <;> decide) _ s) (postZone_within _ _ _ s) (running_of_not ‹_›)
  all_goals exact .refl false p s

theorem resetZoneReply_ok (z : Byte) (tag : Word16) : ReplyOk true p s (resetZoneReply p z tag s).state := by
  unfold resetZoneReply
  repeat' split
  case h_2.isFalse.isFalse h =>
    exact .of_sound (resetZone_sound _ s) (resetZone_within _ s) (running_of_not_or (by rwa [Bool.or_assoc] at h))
  all_goals exact .refl true p s

theorem startDuct_within (d : Fin 4) (s : State) : Within .hazard s (startDuct d s) :=
  ((changeCtl_within d _ s).trans ((openCommand_within d _).mono rfl)).trans (settleDuct_within d _)

theorem resetDuct_within (d : Fin 4) (s : State) : Within .hazard s (resetDuct d s) :=
  ((changeCtl_within d _ s).trans (((clearTrouble_within _ _ _ _).mono rfl).trans ((clearTrouble_within _ _ _ _).mono rfl))).trans
    (settleDuct_within d _)

theorem startDuctReply_ok (d : Byte) : ReplyOk false p s (startDuctReply p d s).state := by
  unfold startDuctReply
  repeat' split
  case h_2.isFalse.isFalse h =>
    have hrun := h
    rw [startForbidden, Bool.or_assoc, Bool.or_assoc] at hrun
    exact .of_sound (startDuct_sound (Bool.eq_false_iff.mpr h)) (startDuct_within _ s) (running_of_not_or hrun)
  all_goals exact .refl false p s

theorem stopDuctReply_ok (d : Byte) : ReplyOk false p s (stopDuctReply p d s).state := by
  unfold stopDuctReply
  repeat' split
  case h_1 | h_2 | h_3 | h_4 =>
    exact .of_sound (dcEvent_sound (.refl [] _ s) _ (by simp) (by simp) (by simp) (by simp)) (dcEvent_within _ _ s)
      (running_of_not ‹_›)
  all_goals exact .refl false p s

theorem resetDuctReply_ok (d : Byte) : ReplyOk false p s (resetDuctReply p d s).state := by
  unfold resetDuctReply
  repeat' split
  case h_2.isFalse.isFalse h =>
    rw [resetForbidden, Bool.or_assoc, Bool.or_assoc] at h
    exact .of_sound (resetDuct_sound _ s) (resetDuct_within _ s) (running_of_not_or h)
  all_goals exact .refl false p s

/-! ### Requests on channels -/

theorem moveChannel_within (c : Fin 16) (x : ChannelCfg) (st : ChannelState) (s : State) :
    Within { zones := true, channels := true } s (moveChannel c x st s) := by
  unfold moveChannel
  extract_lets old s1 s2 s3
  have h1 : Within { zones := true, channels := true } s s1 := (setChannel_within s c _).mono rfl
  have h2 : Within { zones := true, channels := true } s1 s2 := by
    unfold s2
    split
    · exact (clearTrouble_within _ _ _ _).mono rfl
    · exact .refl _ _
  have h3 : Within { zones := true, channels := true } s2 s3 := by
    unfold s3
    split
    · exact (raiseTrouble_within _ _ _ _).mono rfl
    · exact .refl _ _
  exact (h1.trans (h2.trans h3)).trans ((evalCoincidence_within _ _ _).mono rfl)

theorem moveChannel_sound (c : Fin 16) (x : ChannelCfg) (st : ChannelState) (s : State) : Sound false s (moveChannel c x st s) := by
  unfold moveChannel
  extract_lets old s1 s2 s3
  have h1 : Sound false s s1 := setChannel_sound c _ s
  have h2 : Sound false s1 s2 := by
    unfold s2
    split
    · exact clearTrouble_sound _ _ _ _
    · exact .refl _ _
  have h3 : Sound false s2 s3 := by
    unfold s3
    split
    · exact raiseTrouble_sound _ _ _ _
    · exact .refl _ _
  exact (h1.trans (h2.trans h3)).trans (evalCoincidence_sound _ _ _)

theorem requestMove_ok (c : Fin 16) (t : Option ChannelState) : ReplyOk false p s (requestMove c t s).state := by
  unfold requestMove
  repeat' split
  case h_1.isFalse.isFalse => exact .of_sound (moveChannel_sound _ _ _ s) (moveChannel_within _ _ _ s) (running_of_not ‹_›)
  all_goals exact .refl false p s

theorem channelReply_ok (c : Byte) (f : Channel → Option ChannelState) : ReplyOk false p s (channelReply p c f s).state := by
  unfold channelReply
  repeat' split
  case h_2.isFalse => exact requestMove_ok _ _
  all_goals exact .refl false p s

theorem channelDenied_ok (c : Byte) : ReplyOk false p s (channelDenied c s).state := by
  unfold channelDenied
  split <;> exact .refl false p s

theorem isolateChannelReply_ok (c : Byte) : ReplyOk false p s (isolateChannelReply p c s).state := by
  unfold isolateChannelReply
  split
  · exact channelReply_ok c _
  · exact channelDenied_ok c

theorem restoreChannelReply_ok (c : Byte) : ReplyOk false p s (restoreChannelReply p c s).state := by
  unfold restoreChannelReply
  split
  · exact channelDenied_ok c
  · exact channelReply_ok c _

theorem clearChannelFaultReply_ok (c : Byte) : ReplyOk false p s (clearChannelFaultReply p c s).state := by
  unfold clearChannelFaultReply
  split
  · exact channelDenied_ok c
  · exact channelReply_ok c _

/-! ### Requests on valves, overlays, doors and sirens -/

theorem setTest_within (d : Fin 4) (v : Fin 2) (o : Offer) (r : Option TestRun) (s : State) :
    Within .water s (evalValve d v (offer o (s.setDuct d { s.duct d with test := r }))) :=
  (((setDuct_within s d _).mono rfl).trans ((offer_within o _).mono rfl)).trans (evalValve_within d v _)

theorem testValveReply_ok (d v : Byte) (sec : Word16) : ReplyOk false p s (testValveReply p d v sec s).state := by
  unfold testValveReply
  dsimp only
  repeat' split
  case h_1.isFalse h =>
    rw [Bool.or_assoc, Bool.or_assoc, Bool.or_assoc] at h
    refine .of_sound ((setTest_local _ _ _ _ s).sound (by simp) (by simp) (by simp) (by simp) (by simp)) (setTest_within _ _ _ _ s)
      (running_of_not_or h)
  all_goals exact .refl false p s

theorem setOverlays_within (d : Fin 4) (l : List Overlay) (o : Offer) (s : State) :
    Within { ducts := true } s (offer o (s.setOverlays d l)) :=
  (setDuct_within s d _).trans ((offer_within o _).mono rfl)

theorem pushOverlayReply_ok (d : Byte) (t o : Word16) (nq a b c : Byte) (w : Word16) :
    ReplyOk false p s (pushOverlayReply p d t o nq a b c w s).state := by
  unfold pushOverlayReply
  dsimp only
  repeat' split
  case h_2.isFalse.isFalse.isFalse.isFalse hz hroom =>
    refine .of_sound (setOverlays_sound fun _ => ⟨?_, fun ha => ?_⟩) (setOverlays_within _ _ _ s) (running_of_not_or hz)
    · rw [List.length_cons]
      omega
    · simp [ha] at hz
  all_goals exact .refl false p s

theorem popOverlayReply_ok (d : Byte) : ReplyOk false p s (popOverlayReply p d s).state := by
  unfold popOverlayReply
  dsimp only
  repeat' split
  case h_2.isFalse hs _ =>
    refine .of_sound (setOverlays_sound fun ⟨hlen, hempty⟩ => ⟨?_, fun ha => ?_⟩) (setOverlays_within _ _ _ s)
      (running_of_not ‹_›)
    · rw [hs, List.length_cons] at hlen
      omega
    · exact absurd (hs.symm.trans (hempty ha)) nofun
  all_goals exact .refl false p s

/-- No zone that the door borders forbids its hold (R129). -/
theorem zone_allows_hold {i : Fin 12} (h : doorZoneCondition s i = false) {z : Fin 16} (hz : zoneIn s.cfg.doors[i].zones z = true) :
    (s.zone z).level ≠ .fire ∧ (s.cfg.doors[i].closeOnAlarm = true → (s.zone z).level ≠ .alarm) := by
  simp only [doorZoneCondition, zoneCondition, List.any_eq_false, Bool.and_eq_true, Bool.or_eq_true, decide_eq_true_eq, not_and, not_or] at h
  obtain ⟨h1, h2⟩ := h z (List.mem_finRange z) hz
  exact ⟨h1, fun hc hl => h2 hc (by rw [hl]; rfl)⟩

theorem holdDoorReply_ok (d : Byte) (sec : Word16) : ReplyOk false p s (holdDoorReply p d sec s).state := by
  unfold holdDoorReply
  dsimp only
  repeat' split
  case h_2.isFalse.isFalse hp h =>
    have hzone : doorZoneCondition s ‹Fin 12› = false := by
      simp only [Bool.or_eq_true, not_or, Bool.not_eq_true] at h
      exact h.1.2
    refine .of_sound (t := doorEvent _ _ _ s) (doorEvent_sound (fun _ => .toHeld hp _ _) fun _ => .inr fun z hz => zone_allows_hold hzone hz)
      (doorEvent_within _ _ _ s) (running_of_not_or (by rwa [Bool.or_assoc] at h))
  all_goals exact .refl false p s

theorem dropHold_within (i : Fin 12) (p : Port) (c : DoorCause) (r : ReleaseCause) (s : State) : Within .closing s (dropHold i p c r s) := by
  unfold dropHold
  dsimp only
  split
  · exact doorEvent_within _ _ _ s
  · exact doorEvent_within _ _ _ s

theorem closeDoor_within (i : Fin 12) (s : State) : Within .closing s (closeDoor i s) := by
  unfold closeDoor
  dsimp only
  split
  · exact releaseDoor_within _ _ s
  · split
    case h_3 => exact .refl _ s
    all_goals exact doorEvent_within _ _ _ s
  all_goals exact .refl _ s

theorem unholdDoorReply_ok (d : Byte) : ReplyOk false p s (unholdDoorReply p d s).state := by
  unfold unholdDoorReply
  repeat' split
  case h_2.isFalse.isFalse.isFalse h =>
    exact .of_sound (dropHold_sound _ _ (by simpa [Option.isSome_iff_ne_none] using h)) (dropHold_within _ _ _ _ s) (running_of_not ‹_›)
  all_goals exact .refl false p s

theorem closeDoorReply_ok (d : Byte) : ReplyOk false p s (closeDoorReply p d s).state := by
  unfold closeDoorReply
  repeat' split
  case h_2.isFalse.isFalse => exact .of_sound (closeDoor_sound _ s) (closeDoor_within _ s) (running_of_not ‹_›)
  all_goals exact .refl false p s

theorem soundSirenReply_ok (m pat : Byte) (sec : Word16) : ReplyOk false p s (soundSirenReply p m pat sec s).state := by
  unfold soundSirenReply
  repeat' split
  case h_2.isFalse.isFalse =>
    exact .of_sound (arbiterEvent_sound _ (fun _ x => (setManual_keeps x p _).1) fun _ x _ h =>
      .inl (by rwa [(setManual_keeps x p _).2] at h)) (arbiterEvent_within _ _ _ s) (running_of_not ‹_›)
  all_goals exact .refl false p s

theorem stopSoundReply_ok (m : Byte) : ReplyOk false p s (stopSoundReply p m s).state := by
  unfold stopSoundReply
  repeat' split
  case isFalse.isFalse.isFalse.isTrue =>
    exact .of_sound (arbiterEvent_sound _ (fun _ x => (setManual_keeps x p _).1) fun _ x _ h =>
      .inl (by rwa [(setManual_keeps x p _).2] at h)) (arbiterEvent_within _ _ _ s) (running_of_not ‹_›)
  all_goals exact .refl false p s

theorem silenceReply_ok (m : Byte) : ReplyOk false p s (silenceReply p m s).state := by
  unfold silenceReply
  repeat' split
  case isFalse.isFalse.isFalse =>
    refine .of_sound (arbiterEvent_sound _ (fun _ _ => rfl) fun i _ z h => .inr ?_) (arbiterEvent_within _ _ _ s) (running_of_not ‹_›)
    rw [alarmedCover, zoneIn_maskOf, Bool.and_eq_true] at h
    exact h
  all_goals exact .refl false p s

theorem testSirensReply_ok (m : Byte) : ReplyOk false p s (testSirensReply p m s).state := by
  unfold testSirensReply
  repeat' split
  case isFalse.isFalse.isFalse.isFalse =>
    exact .of_sound (arbiterEvent_sound _ (fun _ _ => rfl) fun _ _ _ => .inl) (arbiterEvent_within _ _ _ s) (running_of_not_or ‹_›)
  all_goals exact .refl false p s

/-! ### Requests on captures and notices -/

theorem freeCapturesReply_ok (n : Byte) (o : Word16) : ReplyOk false p s (freeCapturesReply n o s).state := by
  unfold freeCapturesReply
  repeat' split
  case isFalse.isFalse.isFalse =>
    exact .of_sound (freeCaptures_sound _ s) (setCaptures_within s _) (running_of_not ‹_›)
  all_goals exact .refl false p s

theorem setCaptureLayoutReply_ok (l pre : Byte) (post : Word16) : ReplyOk false p s (setCaptureLayoutReply p l pre post s).state := by
  unfold setCaptureLayoutReply
  dsimp only
  repeat' split
  case h_2.isFalse.isFalse.isFalse hf _ =>
    have hset : Sound false s (s.setCaptures (s.captures.emptied ‹Fin 3› pre.toNat post.toNat)) :=
      setCaptures_sound fun h => h.emptied _ _ _ (Bool.eq_false_iff.mpr hf)
    exact .of_sound (hset.trans (offer_sound _ _)) ((setCaptures_within s _).trans ((offer_within _ _).mono rfl)) (running_of_not ‹_›)
  all_goals exact .refl false p s

theorem rearmAge_link (now : Tick) (x : PortUnit) : (rearmAge now x).tx = x.tx ∧ (rearmAge now x).waiting = x.waiting := by
  unfold rearmAge
  repeat' split
  all_goals exact ⟨rfl, rfl⟩

theorem fetched_link (now : Tick) (k : Nat) (x : PortUnit) : (x.fetched now k).tx = x.tx ∧ (x.fetched now k).waiting = x.waiting := by
  unfold PortUnit.fetched
  dsimp only
  split
  · exact ⟨rfl, rfl⟩
  · exact rearmAge_link now _

theorem coalesced_link (now : Tick) (n age : Nat) (x : PortUnit) :
    (x.coalesced now n age).tx = x.tx ∧ (x.coalesced now n age).waiting = x.waiting := by
  unfold PortUnit.coalesced
  dsimp only
  repeat' split
  case isFalse.isFalse => exact rearmAge_link now _
  all_goals exact ⟨rfl, rfl⟩

theorem fetchNoticesReply_ok (c : Byte) : ReplyOk false p s (fetchNoticesReply p c s).state := by
  unfold fetchNoticesReply
  split
  · exact .refl false p s
  · have ⟨htx, hwaiting⟩ := fetched_link s.tick (clamp 1 8 c.toNat) (s.port p)
    exact .of_port (fetched_portOk s.tick _) htx hwaiting

theorem setSubscriptionReply_ok (m : Byte) : ReplyOk false p s (setSubscriptionReply p m s).state := by
  unfold setSubscriptionReply
  split
  · exact .refl false p s
  · exact .of_port (fun h => h) rfl rfl

theorem setCoalescingReply_ok (t : Byte) (a : Word16) : ReplyOk false p s (setCoalescingReply p t a s).state := by
  unfold setCoalescingReply
  repeat' split
  case isFalse.isFalse =>
    have ⟨htx, hwaiting⟩ := coalesced_link s.tick t.toNat a.toNat (s.port p)
    exact .of_port (coalesced_portOk s.tick _ _) htx hwaiting
  all_goals exact .refl false p s

theorem restartReply_ok : ReplyOk true p s (restartReply p s).state := by
  unfold restartReply
  repeat' split
  case isFalse.isFalse.isFalse =>
    refine ⟨powerUp_event (powerUp_sameBlocks s) rfl rfl fun h => h.1, ?_, ?_⟩
    · show (State.reset.port p).tx.length ≤ _
      rw [reset_port]
      exact Nat.zero_le _
    · show (State.reset.port p).waiting.isSome = true → _
      rw [reset_port]
      exact nofun
  all_goals exact .refl true p s

end

end Sys2Proof.Machine
end

