-- ==== Sys2Proof/Proofs/Commands.lean ====
section
/-! PROOFS. Every command, and so every step, keeps the invariants. -/

namespace Sys2Proof.Machine

open Sys2Proof

/-! ### Events in an answer -/

/-- A command that may clear latches may as well leave them. -/
theorem Event.any {u : Bool} {s t : State} (h : Event u s t) : Event true s t := { h with latches := nofun }

/-- Every state that an answer leads to is reached by an event. -/
def AreEvents (u : Bool) (s : State) (a : Answer) : Prop := ∀ t, a = .next t → Event u s t

theorem next_event {u : Bool} {s t : State} (h : Event u s t) : AreEvents u s (.next t) := fun _ ht => by
  cases ht
  exact h

theorem live_event_after {u : Bool} {s t : State} {f : State → State} (h : Event u s t) (hf : Event u t (f t)) :
    AreEvents u s (live t f) := by
  unfold live
  split
  · exact next_event h
  · exact next_event (h.trans hf)

theorem live_event {u : Bool} {s : State} {f : State → State} (h : Event u s (f s)) : AreEvents u s (live s f) :=
  live_event_after (.refl u s) h

theorem whenRunning_event {s : State} {f : State → State} (h : Sound false s (f s)) : AreEvents false s (whenRunning s f) := by
  refine live_event ?_
  split
  · exact h.event (by assumption)
  · exact .refl false s

theorem request_event {u : Bool} {p : Port} {code n : Byte} {reply : State → Reply} {s : State}
    (h : ∀ s, ReplyOk u p s (reply s).state) : AreEvents u s (live s (serve p code n reply)) :=
  live_event (serve_event h s)

/-! ### Samples -/

theorem tookSample_event (u : Bool) (x : Sampler) (s : State) : Event u s (s.tookSample x) :=
  SameBlocks.event ⟨rfl, rfl, rfl, rfl, rfl, rfl, rfl, rfl, rfl⟩ rfl id id

theorem setLeads_event (u : Bool) (x : Leads) (s : State) : Event u s (s.setLeads x) :=
  SameBlocks.event ⟨rfl, rfl, rfl, rfl, rfl, rfl, rfl, rfl, rfl⟩ rfl id id

theorem keyEvent_event (u : Bool) (k : KeyState) (s : State) : Event u s (keyEvent k s) :=
  SameBlocks.event ⟨rfl, rfl, rfl, rfl, rfl, rfl, rfl, rfl, rfl⟩ rfl id id

/-- Every input but the key is sampled while RUNNING only. -/
theorem sampleDue_running {s : State} {x : Sampler} (hx : x ≠ .key) (h : sampleDue s x = true) : s.isRunning = true := by
  simp only [sampleDue, Bool.and_eq_true] at h
  obtain ⟨⟨hs, -⟩, -⟩ := h
  cases x <;> simp_all [State.samplesInput]

theorem sampling_event {x : Sampler} (hx : x ≠ .key) {f : State → State} {s : State} (h : ∀ t, Sound false t (f t)) :
    Event false s (sampling x f s) := by
  unfold sampling
  split
  next hdue => exact (tookSample_event false x s).trans ((h _).event (s := s.tookSample x) (sampleDue_running (s := s) hx hdue))
  · exact .refl false s

theorem key_event (k : KeyState) (s : State) : Event false s (sampling .key (keyEvent k) s) := by
  unfold sampling
  split
  · exact (tookSample_event false .key s).trans (keyEvent_event false k _)
  · exact .refl false s

/-- A command that moves a lead and takes the sample that it meets. -/
theorem sampled_event {x : Sampler} (hx : x ≠ .key) {f : State → State} {s : State} {l : Leads} (h : ∀ t, Sound false t (f t)) :
    AreEvents false s (live (s.setLeads l) (sampling x f)) :=
  live_event_after (setLeads_event false l s) (sampling_event hx h)

/-! ### The store -/

theorem writeStoreRefusal_none {p : Port} {offset : Word16} {s : State} (h : writeStoreRefusal p offset s = none) :
    offset.toNat ≤ 4064 ∧ storeUnready s = false := by
  unfold writeStoreRefusal at h
  split at h
  · cases h
  split at h
  · cases h
  split at h
  · cases h
  next hrange =>
  split at h
  · cases h
  next hready => exact ⟨by omega, by simpa using hready⟩

theorem serveWriteStore_event (u : Bool) (p : Port) (n : Byte) (offset : Word16) (bytes : Vector Byte 32) (s : State) :
    Event u s (serveWriteStore p n offset bytes s) := by
  have htaken : Event u s (frameTaken p s) := frameTaken_event p s
  unfold serveWriteStore
  extract_lets t
  split
  · exact htaken
  next hd =>
  rw [Bool.not_eq_true] at hd
  have hroom : (t.port p).tx.length ≤ 3 := room_of_not_dropped hd
  have hpending : (t.port p).waiting.isSome = true → (t.port p).tx.length ≤ 2 := fun hw => by
    simp only [frameDropped, hw, Bool.and_true, Bool.or_eq_false_iff, decide_eq_false_iff_not] at hd
    omega
  have hissue : ∀ r, Event u s (issue p r t) := fun r => htaken.trans (issue_event hroom hpending)
  split
  · exact hissue _
  split
  · exact hissue _
  next hr =>
  refine htaken.trans (SameBlocks.event ⟨rfl, rfl, rfl, rfl, rfl, rfl, rfl, rfl, rfl⟩ rfl (fun hp q => ?_) fun ⟨hwf, _, hok⟩ => ?_)
  · by_cases hq : q = p
    · rw [hq, beginStoreWrite, State.setPort_port_self]
      exact (hp p).of_room rfl rfl rfl (hroom.trans (by decide)) fun _ => hroom
    · rw [beginStoreWrite, State.setPort_port_ne _ p q _ hq]
      exact hp q
  · obtain ⟨hrange, hready⟩ := writeStoreRefusal_none hr
    have hload : t.loader.state ≠ .loading := by simp_all [storeUnready]
    obtain ⟨-, hrunning, hsafe⟩ := hok
    refine ⟨hwf, fun w hw => ?_, fun h => absurd h hload, hrunning, hsafe⟩
    cases hw
    show (offset.truncate 12).toNat ≤ 4064
    simp only [BitVec.truncate_eq_setWidth, BitVec.toNat_setWidth]
    omega

theorem issueWritten_event (u : Bool) (w : StoreWrite) (b : Bool) (s : State) : Event u s (issueWritten w b s) := by
  unfold issueWritten
  split
  next q hq =>
    refine SameBlocks.event ⟨rfl, rfl, rfl, rfl, rfl, rfl, rfl, rfl, rfl⟩ rfl (fun hp p => ?_) id
    have ⟨_, _, _, _, hwait⟩ := hp .sv
    have hroom : (s.port .sv).tx.length ≤ 3 := hwait (by rw [hq]; rfl)
    by_cases h : p = .sv
    · rw [h, issue, State.setPort_port_self, State.setPort_port_self]
      exact (hp .sv).of_room rfl rfl rfl (by rw [List.length_append, List.length_singleton]; exact Nat.succ_le_succ hroom) nofun
    · rw [issue, State.setPort_port_ne _ .sv p _ h, State.setPort_port_ne _ .sv p _ h]
      exact hp p
  · exact .refl u s

theorem putPage_event (u : Bool) (a : StoreAddr) (held : Vector Byte 32) {s : State}
    (ha : (∀ w ∈ s.loader.write, w.offset.toNat ≤ 4064) → a.toNat ≤ 4064) :
    Event u s ((s.putPage a held).setLoader { s.loader with write := none }) := by
  refine SameBlocks.event ⟨rfl, rfl, rfl, rfl, rfl, rfl, rfl, rfl, rfl⟩ rfl id fun hs => ?_
  obtain ⟨hwf, hin, hload, hrunning, hsafe⟩ := hs
  refine ⟨wf_putPage s a held hwf (ha hin), nofun, fun h => ?_, hrunning, hsafe⟩
  obtain ⟨hfailing, hcrc, -⟩ := hload h
  exact ⟨hfailing, hcrc, rfl⟩

theorem completeStoreWrite_event (u : Bool) (held : Vector Byte 32) (s : State) : Event u s (completeStoreWrite held s) := by
  unfold completeStoreWrite
  split
  next w hw =>
    split
    · exact (putPage_event u w.offset held fun hin => hin w hw).trans (issueWritten_event u w _ _)
    · exact .refl u s
  · exact .refl u s

/-! ### Frames -/

section
variable {p : Port} {s : State} (l : List Byte)

theorem take0_ok {f : State → Reply} (h : ∀ s, ReplyOk true p s (f s).state) : ReplyOk true p s (take0 f l s).state := by
  unfold take0
  split
  · exact h s
  · exact .refl true p s

theorem take1_ok {f : Byte → State → Reply} (h : ∀ a s, ReplyOk true p s (f a s).state) : ReplyOk true p s (take1 f l s).state := by
  unfold take1
  split
  · exact h _ s
  · exact .refl true p s

theorem take2_ok {f : Byte → Byte → State → Reply} (h : ∀ a b s, ReplyOk true p s (f a b s).state) :
    ReplyOk true p s (take2 f l s).state := by
  unfold take2
  split
  · exact h _ _ s
  · exact .refl true p s

theorem takeWord_ok {f : Word16 → State → Reply} (h : ∀ w s, ReplyOk true p s (f w s).state) :
    ReplyOk true p s (takeWord f l s).state := by
  unfold takeWord
  split
  · exact h _ s
  · exact .refl true p s

theorem take1Word_ok {f : Byte → Word16 → State → Reply} (h : ∀ a w s, ReplyOk true p s (f a w s).state) :
    ReplyOk true p s (take1Word f l s).state := by
  unfold take1Word
  split
  · exact h _ _ s
  · exact .refl true p s

theorem take2Word_ok {f : Byte → Byte → Word16 → State → Reply} (h : ∀ a b w s, ReplyOk true p s (f a b w s).state) :
    ReplyOk true p s (take2Word f l s).state := by
  unfold take2Word
  split
  · exact h _ _ _ s
  · exact .refl true p s

end

/-- Every request keeps what it must, whatever its payload. -/
def PayloadReply.IsOk (p : Port) (x : Byte × PayloadReply) : Prop := ∀ l s, ReplyOk true p s (x.2 l s).state

theorem ReplyOk.any {p : Port} {s t : State} (h : ReplyOk false p s t) : ReplyOk true p s t := { h with event := h.event.any }

theorem requestTable_ok (p : Port) : ∀ x ∈ requestTable p, PayloadReply.IsOk p x := by
  simp only [requestTable, List.forall_mem_append, List.forall_mem_cons, List.not_mem_nil, false_imp_iff, implies_true, and_true]
  refine ⟨⟨⟨?_, ?_, ?_, ?_, ?_, ?_, ?_, ?_, ?_, ?_, ?_, ?_⟩, ?_, ?_, ?_, ?_, ?_, ?_, ?_, ?_, ?_, ?_, ?_, ?_⟩,
    ?_, ?_, ?_, ?_, ?_, ?_, ?_, ?_, ?_, ?_, ?_, ?_⟩ <;> intro l s
  · exact take0_ok l fun s => .refl true p s
  · exact take1_ok l fun a _ => readZonesReply_ok a
  · exact take1Word_ok l fun a w _ => (ackZoneReply_ok a w).any
  · exact take2_ok l fun a b _ => (declareReply_ok a b).any
  · exact take1_ok l fun a _ => (withdrawReply_ok a).any
  · exact take1Word_ok l fun a w _ => resetZoneReply_ok a w
  · exact take1_ok l fun a _ => readDuctReply_ok a
  · exact take1_ok l fun a _ => (startDuctReply_ok a).any
  · exact take1_ok l fun a _ => (stopDuctReply_ok a).any
  · exact take1_ok l fun a _ => (resetDuctReply_ok a).any
  · exact take2_ok l fun a b _ => readTracksReply_ok a b
  · exact take1_ok l fun a _ => readChannelsReply_ok a
  · exact take1_ok l fun a _ => (isolateChannelReply_ok a).any
  · exact take1_ok l fun a _ => (restoreChannelReply_ok a).any
  · exact take1_ok l fun a _ => (clearChannelFaultReply_ok a).any
  · exact take2Word_ok l fun a b w _ => (testValveReply_ok a b w).any
  · exact take1_ok l fun a _ => readOverlaysReply_ok a
  · show ReplyOk true p s (takeOverlay p l s).state
    unfold takeOverlay
    split
    · exact (pushOverlayReply_ok _ _ _ _ _ _ _ _).any
    · exact .refl true p s
  · exact take1_ok l fun a _ => (popOverlayReply_ok a).any
  · exact take1_ok l fun a _ => readDoorsReply_ok a
  · exact take1Word_ok l fun a w _ => (holdDoorReply_ok a w).any
  · exact take1_ok l fun a _ => (unholdDoorReply_ok a).any
  · exact take1_ok l fun a _ => (closeDoorReply_ok a).any
  · exact take1_ok l fun a _ => readSirensReply_ok a
  · exact take2Word_ok l fun a b w _ => (soundSirenReply_ok a b w).any
  · exact take1_ok l fun a _ => (stopSoundReply_ok a).any
  · exact take1_ok l fun a _ => (silenceReply_ok a).any
  · exact take1_ok l fun a _ => (testSirensReply_ok a).any
  · show ReplyOk true p s (takeCapture l s).state
    unfold takeCapture
    split
    · exact readCaptureReply_ok _ _ _ _
    · exact .refl true p s
  · exact take1Word_ok l fun a w _ => (freeCapturesReply_ok a w).any
  · exact take2Word_ok l fun a b w _ => (setCaptureLayoutReply_ok a b w).any
  · exact take1_ok l fun a _ => (fetchNoticesReply_ok a).any
  · exact take1_ok l fun a _ => (setSubscriptionReply_ok a).any
  · exact take1Word_ok l fun a w _ => (setCoalescingReply_ok a w).any
  · exact takeWord_ok l fun w _ => readStoreReply_ok w
  · exact take0_ok l fun _ => restartReply_ok

theorem frameReply_ok {p : Port} (code : Byte) (l : List Byte) (s : State) : ReplyOk true p s (frameReply p code l s).state := by
  unfold frameReply
  split
  · exact requestTable_ok p _ (List.mem_of_find?_eq_some ‹_›) l s
  · exact .refl true p s

theorem serveFrame_event (p : Port) (body : List Byte) (s : State) : Event true s (serveFrame p body s) := by
  unfold serveFrame
  split
  · split
    · split
      · exact serveWriteStore_event true p _ _ _ s
      · exact serve_event (fun s => .refl true p s) s
    · exact serve_event (frameReply_ok _ _) s
  · exact .refl true s

theorem received_event {u : Bool} (p : Port) (rx : Rx) (t : Tick) (s : State) :
    Event u s (s.setPort p { s.port p with rx := rx, rxTick := t }) :=
  setPort_event fun h => h.of_room rfl rfl rfl h.2.2.2.1 h.2.2.2.2

theorem receiveByte_event (p : Port) (b : Byte) (e : Bool) (s : State) : Event true s (receiveByte p b e s) := by
  unfold receiveByte
  dsimp only
  split
  · exact (received_event p _ _ s).trans (serveFrame_event p _ _)
  all_goals exact received_event p _ _ s

theorem discard_event (p : Port) (b : Byte) (e : Bool) (s : State) :
    AreEvents false s (execFrameDiscard p b e s) := by
  refine live_event ?_
  split
  next h =>
    unfold receiveByte
    simp only [h]
    exact received_event p _ _ s
  · exact .refl false s

theorem responseSent_event (p : Port) (s : State) : Event false s (responseSent p s) :=
  setPort_event fun h => by
    have ⟨_, _, _, htx, hwait⟩ := h
    exact h.of_room rfl rfl rfl (by rw [List.length_drop]; omega) fun k => by rw [List.length_drop]; have := hwait k; omega

theorem ageExpires_event (p : Port) (s : State) : Event false s (ageExpires p s) := by
  unfold ageExpires
  split
  next h =>
    refine setPort_event fun hp => aged_portOk hp ?_
    simp only [expiresNow, decide_eq_true_eq] at h
    rw [h]
    rfl
  · exact .refl false s

theorem powerOn_event (s : State) : AreEvents true s (execPowerOn s) :=
  next_event (powerUp_event (powerUp_sameBlocks _) rfl rfl tearStore_wf)

theorem resetLeadLow_event (s : State) : AreEvents true s (execResetLeadLow s) :=
  next_event (powerUp_event ⟨rfl, rfl, rfl, rfl, rfl, rfl, rfl, rfl, rfl⟩ rfl rfl tearStore_wf)

theorem loadCompletion_event (s : State) : AreEvents false s (execLoadCompletion s) := by
  refine live_event ?_
  split
  next h => exact completeLoad_event h.1
  · exact .refl false s

theorem unknownRequest_event (p : Port) (n code : Byte) (s : State) : AreEvents false s (execUnknownRequest p n code s) := by
  refine live_event ?_
  split
  · exact .refl false s
  · exact serve_event (fun s => .refl false p s) s

/-! ### Contact inputs, stations and transducers -/

theorem contactInputAccepted_event (i : Fin 8) (a b : Bool) (s : State) : AreEvents false s (execContactInputAccepted i a b s) := by
  refine live_event_after (setLeads_event false _ s) ?_
  split
  · exact sampling_event (by nofun) (inputAcceptedSample_sound i _)
  · exact .refl false _

theorem contactInputSample_event (i : Fin 8) (a b : Bool) (s : State) : AreEvents false s (execContactInputSample i a b s) := by
  unfold execContactInputSample setContactLead
  refine live_event_after (setLeads_event false _ s) ?_
  split
  · exact .refl false _
  · exact sampling_event (by nofun) fun t => setInput_sound i _ t

theorem transducerSample_event (d : Fin 4) (c : Code) (s : State) : AreEvents false s (execTransducerSample d c s) := by
  refine live_event ?_
  split
  · exact .refl false s
  · exact sampling_event (by nofun) (transducerEvent_sound d c)

theorem velocityUpdate_event (d : Fin 4) (c : Code) (s : State) : AreEvents false s (execVelocityUpdate d c s) := by
  refine live_event ?_
  split
  · exact sampling_event (by nofun) (velocityEvent_sound d c)
  · exact .refl false s

/-! ### All commands -/

theorem exec_event (c : Instr) (s : State) : AreEvents (mayUnlatch c) s (exec c s) := by
  cases c with
  | powerOn => exact powerOn_event s
  | resetLeadLow => exact resetLeadLow_event s
  | loadCompletion => exact loadCompletion_event s
  | storeWriteCompletion held => exact live_event (completeStoreWrite_event false held s)
  | frameDiscard p b e => exact discard_event p b e s
  | unknownRequest p n code => exact unknownRequest_event p n code s
  | responseSent p => exact live_event (responseSent_event p s)
  | readIdent p n => exact request_event fun s => .refl false p s
  | readZones p n z => exact request_event fun _ => readZonesReply_ok z
  | ackZone p n z tag => exact request_event fun _ => ackZoneReply_ok z tag
  | declare p n z l => exact request_event fun _ => declareReply_ok z l
  | withdraw p n z => exact request_event fun _ => withdrawReply_ok z
  | resetZone p n z tag => exact request_event fun _ => resetZoneReply_ok z tag
  | readDuct p n d => exact request_event fun _ => readDuctReply_ok d
  | startDuct p n d => exact request_event fun _ => startDuctReply_ok d
  | stopDuct p n d => exact request_event fun _ => stopDuctReply_ok d
  | resetDuct p n d => exact request_event fun _ => resetDuctReply_ok d
  | readTracks p n d x => exact request_event fun _ => readTracksReply_ok d x
  | readChannels p n c => exact request_event fun _ => readChannelsReply_ok c
  | isolateChannel p n c => exact request_event fun _ => isolateChannelReply_ok c
  | restoreChannel p n c => exact request_event fun _ => restoreChannelReply_ok c
  | clearChannelFault p n c => exact request_event fun _ => clearChannelFaultReply_ok c
  | testValve p n d v sec => exact request_event fun _ => testValveReply_ok d v sec
  | readOverlays p n d => exact request_event fun _ => readOverlaysReply_ok d
  | pushOverlay p n d t o nq a b c w => exact request_event fun _ => pushOverlayReply_ok d t o nq a b c w
  | popOverlay p n d => exact request_event fun _ => popOverlayReply_ok d
  | readDoors p n i => exact request_event fun _ => readDoorsReply_ok i
  | holdDoor p n i sec => exact request_event fun _ => holdDoorReply_ok i sec
  | unholdDoor p n i => exact request_event fun _ => unholdDoorReply_ok i
  | closeDoor p n i => exact request_event fun _ => closeDoorReply_ok i
  | readSirens p n x => exact request_event fun _ => readSirensReply_ok x
  | soundSiren p n m pat sec => exact request_event fun _ => soundSirenReply_ok m pat sec
  | stopSound p n m => exact request_event fun _ => stopSoundReply_ok m
  | silence p n m => exact request_event fun _ => silenceReply_ok m
  | testSirens p n m => exact request_event fun _ => testSirensReply_ok m
  | readCapture p n i part o c => exact request_event fun _ => readCaptureReply_ok i part o c
  | freeCaptures p n k o => exact request_event fun _ => freeCapturesReply_ok k o
  | setCaptureLayout p n l pre post => exact request_event fun _ => setCaptureLayoutReply_ok l pre post
  | fetchNotices p n k => exact request_event fun _ => fetchNoticesReply_ok k
  | setSubscription p n m => exact request_event fun _ => setSubscriptionReply_ok m
  | setCoalescing p n t a => exact request_event fun _ => setCoalescingReply_ok t a
  | readStore p n o => exact request_event fun _ => readStoreReply_ok o
  | writeStore p n o b => exact live_event (serveWriteStore_event false p n o b s)
  | restart p n => exact request_event fun _ => restartReply_ok
  | keySwitchChange k => exact live_event_after (setLeads_event false _ s) (key_event k _)
  | contactInputAccepted i a b => exact contactInputAccepted_event i a b s
  | stationSampleEvent d st codes b => exact live_event (sampling_event (by nofun) (stationEvent_sound d st codes b))
  | velocityUpdate d c => exact velocityUpdate_event d c s
  | holdTimerExpiry d => exact whenRunning_event (holdTimerExpires_sound d s)
  | trackRetirement d id => exact whenRunning_event (trackRetires_sound d id s)
  | sprayWindowOpen d v => exact whenRunning_event (evalValve_sound d v s)
  | sprayWindowClose d v => exact whenRunning_event (evalValve_sound d v s)
  | flowSwitchChange d v b => exact sampled_event (by nofun) (flowSwitchEvent_sound d v b)
  | flowConfirmExpiry d v => exact whenRunning_event (flowConfirmExpires_sound d v s)
  | gateSwitchChange d w b => exact sampled_event (by nofun) (gateSwitchEvent_sound d w b)
  | gateSupervisionExpiry d => exact whenRunning_event (gateSupervisionExpires_sound d s)
  | floodEnd d => exact whenRunning_event (floodEnds_sound d s)
  | testEnd d => exact whenRunning_event (testEnds_sound d s)
  | startTimerExpiry d => exact whenRunning_event (startTimerExpires_sound d s)
  | armingWindowExpiry d => exact whenRunning_event (armingExpires_sound d s)
  | rateWindowExpiry d => exact whenRunning_event (rateExpires_sound d s)
  | quietTimerExpiry d => exact whenRunning_event (quietExpires_sound d s)
  | lowFlowTimerExpiry d => exact whenRunning_event (lowFlowExpires_sound d s)
  | purgeTimerExpiry d => exact whenRunning_event (purgeExpires_sound d s)
  | overlayExpiry d x => exact whenRunning_event (overlayExpires_sound d x.val s)
  | closedSwitchChange i b => exact sampled_event (by nofun) (closedSwitchEvent_sound i b)
  | barrierChange i b => exact sampled_event (by nofun) (barrierEvent_sound i b)
  | holdExpiry i p => exact whenRunning_event (holdExpires_sound i p s)
  | obstructionTimerExpiry i => exact whenRunning_event (obstructionExpires_sound i s)
  | closeTimerExpiry i => exact whenRunning_event (closeExpires_sound i s)
  | proppedTimerExpiry i => exact whenRunning_event (proppedExpires_sound i s)
  | manualDemandExpiry i p => exact whenRunning_event (manualExpires_sound i p s)
  | allClearExpiry i => exact whenRunning_event (allClearExpires_sound i s)
  | sirenTestExpiry i => exact whenRunning_event (sirenTestExpires_sound i s)
  | slotBoundary => exact whenRunning_event (slotExpires_sound s)
  | cadenceExpiry => exact whenRunning_event (cadenceExpires_sound s)
  | ageTimerExpiry p => exact live_event (ageExpires_event p s)
  | byteReceived p b e => exact live_event (receiveByte_event p b e s)
  | transducerSample d c => exact transducerSample_event d c s
  | contactInputSample i a b => exact contactInputSample_event i a b s

/-- Settles O18: of the events that `exec` makes, those that may clear a latch are named. -/
theorem onlyResetClearsALatch : Obligations.OnlyResetClearsALatch :=
  fun c z s t hc hz ht => (exec_event c s t ht).latches hc z hz

/-! ### The step -/

theorem idle_event (s : State) : AreEvents true s (idle s) := by
  have hspend : Event true s s.spend := SameBlocks.event ⟨rfl, rfl, rfl, rfl, rfl, rfl, rfl, rfl, rfl⟩ rfl id id
  have hexec : ∀ c, AreEvents true s (exec c s.spend) := fun c t ht => hspend.trans (exec_event c s.spend t ht).any
  unfold idle
  split
  · exact next_event (.refl true s)
  · split
    · exact next_event (SameBlocks.event ⟨rfl, rfl, rfl, rfl, rfl, rfl, rfl, rfl, rfl⟩ rfl id id)
    · exact hexec _
    · exact hexec _

theorem step_event {s t : State} (h : step s = .next t) : Event true s t := by
  unfold step at h
  split at h
  next c rest _ =>
    have hrest : Event true s { s with pending := rest } :=
      SameBlocks.event ⟨rfl, rfl, rfl, rfl, rfl, rfl, rfl, rfl, rfl⟩ rfl id id
    exact hrest.trans (exec_event c _ t h).any
  · exact idle_event s t h

/-- Settles O5: each command is an event. -/
theorem everyStepKeepsZonesSound : Obligations.EveryStepKeepsZonesSound := fun _ _ hs h => (step_event h).zones hs

/-- Settles O6: each command is an event. -/
theorem everyStepKeepsPortsSound : Obligations.EveryStepKeepsPortsSound := fun _ _ hs h => (step_event h).ports hs

/-- Settles O7: each command is an event. -/
theorem everyStepKeepsDuctOutputsRight : Obligations.EveryStepKeepsDuctOutputsRight :=
  fun _ _ h => ⟨(step_event h).outputs, (step_event h).clear⟩

/-- Settles O8: each command is an event. -/
theorem everyStepKeepsBoundsUpToDate : Obligations.EveryStepKeepsBoundsUpToDate := fun _ _ hs h => (step_event h).bounds hs

/-- Settles O9: each command is an event. -/
theorem everyStepKeepsTrackListsSound : Obligations.EveryStepKeepsTrackListsSound := fun _ _ hs h => (step_event h).tracks hs

/-- Settles O10: each command is an event. -/
theorem everyStepKeepsOverlaysSound : Obligations.EveryStepKeepsOverlaysSound := fun _ _ hs h => (step_event h).overlays hs

/-- Settles O11: each command is an event. -/
theorem everyStepKeepsDoorsSound : Obligations.EveryStepKeepsDoorsSound :=
  fun _ _ h => ⟨(step_event h).doors, (step_event h).doorsClear⟩

/-- Settles O12: each command is an event. -/
theorem everyStepKeepsSirensWithinBudget : Obligations.EveryStepKeepsSirensWithinBudget :=
  fun _ _ hq hs h => (step_event h).sirens hq hs

/-- Settles O13: each command is an event. -/
theorem everyStepKeepsCapturesSound : Obligations.EveryStepKeepsCapturesSound :=
  fun _ _ hq hs h => (step_event h).captures hq hs

/-- Settles O14: each command is an event. -/
theorem everyStepKeepsStoreSound : Obligations.EveryStepKeepsStoreSound := fun _ _ hs h => (step_event h).store hs

/-- Settles O15: each command is an event. -/
theorem everyStepKeepsThePartQuietUnlessRunning : Obligations.EveryStepKeepsThePartQuietUnlessRunning :=
  fun _ _ hs h => (step_event h).quiet hs

/-- Settles O16: each command is an event. -/
theorem everyStepKeepsDuctCausesPosted : Obligations.EveryStepKeepsDuctCausesPosted := fun _ _ hs h => (step_event h).posted hs

end Sys2Proof.Machine
end

