-- ==== Sys2Proof/Proofs/Telling.lean ====
section
/-! PROOFS. Notices in the order in which an event offers them (R176), and what a request that is accepted leaves: its event's state with
the answer in the port's transmit list. -/

namespace Sys2Proof.Machine

open Sys2Proof

/-! ### Notices in order -/

/-- From `s` to `t` all three ports have taken these notices in this order, and no other. -/
def Told (l : List Offer) (s t : State) : Prop := ∀ p : Port, TakesAll s.tick l (s.port p) (t.port p)

theorem Told.of_ports {s t : State} (h : t.ports = s.ports) : Told [] s t := fun p => by
  show t.port p = s.port p
  simp only [State.port, h]

theorem Told.refl (s : State) : Told [] s s := .of_ports rfl

theorem Told.trans {l m : List Offer} {s t w : State} (h : Told l s t) (k : Told m t w) (ht : t.tick = s.tick) : Told (l ++ m) s w :=
  fun p => (h p).append (ht ▸ k p)

/-- A change outside the ports before the notices. -/
theorem Told.after {l : List Offer} {s t w : State} (h : t.ports = s.ports) (ht : t.tick = s.tick) (k : Told l t w) : Told l s w :=
  (Told.of_ports h).trans k ht

/-- A change outside the ports after the notices. -/
theorem Told.before {l : List Offer} {s t w : State} (h : Told l s t) (hw : w.ports = t.ports) : Told l s w := fun p => by
  have e : w.port p = t.port p := by simp only [State.port, hw]
  rw [e]
  exact h p

theorem offer_told (o : Offer) (s : State) : Told [o] s (offer o s) :=
  fun p => ⟨(offer o s).port p, offer_port o s p ▸ takeNotice_takes _ _ _, rfl⟩

theorem Told.offersAll {l : List Offer} {s t : State} (h : Told l s t) : OffersAll l s t := ⟨l, .refl l, h⟩

theorem Told.offersThese {l m : List Offer} {s t : State} (h : Told l s t) (hm : m.Subperm l) : OffersThese m s t := by
  obtain ⟨k, hk, hs⟩ := hm
  obtain ⟨rest, hr⟩ := hs.exists_perm_append
  exact ⟨rest, l, hr.trans (hk.append_right rest), h⟩

theorem Told.these {l m : List Offer} {s t : State} (h : Told (l ++ m) s t) : OffersThese l s t := ⟨m, h.offersAll⟩

theorem Told.notified {o : Offer} {l : List Offer} {s t : State} (h : Told (o :: l) s t) : Notified o s t := ⟨l, h⟩

/-- Notices of which there is at most one are in order. -/
theorem OffersAll.told {l : List Offer} {s t : State} (h : OffersAll l s t) (hl : l.length ≤ 1) : Told l s t := by
  obtain ⟨os, hos, ht⟩ := h
  match l, hl with
  | [], _ => exact hos.eq_nil ▸ ht
  | [o], _ => exact List.perm_singleton.mp hos ▸ ht

theorem raiseNotices_short (s : State) (z : Fin 16) (k : TroubleKind) (n : Nat) : (raiseNotices s z k n).length ≤ 1 := by
  unfold raiseNotices
  split <;> simp

theorem clearNotices_short (s : State) (z : Fin 16) (k : TroubleKind) (n : Nat) : (clearNotices s z k n).length ≤ 1 := by
  unfold clearNotices
  split <;> simp

theorem raiseTrouble_told (z : Fin 16) (k : TroubleKind) (n : Nat) (s : State) :
    Told (raiseNotices s z k n) s (raiseTrouble z k n s) := (raiseTrouble_offers z k n s).told (raiseNotices_short s z k n)

theorem clearTrouble_told (z : Fin 16) (k : TroubleKind) (n : Nat) (s : State) :
    Told (clearNotices s z k n) s (clearTrouble z k n s) := (clearTrouble_offers z k n s).told (clearNotices_short s z k n)

theorem setTrouble_told (z : Fin 16) (k : TroubleKind) (n : Nat) (present : Prop) [Decidable present] (s : State) :
    Told (setNotices s z k n present) s (setTrouble z k n (decide present) s) := by
  refine (setTrouble_offers z k n present s).told ?_
  unfold setNotices
  split
  · exact raiseNotices_short s z k n
  · exact clearNotices_short s z k n

/-! ### Answers (R173) -/

/-- A notice is taken alike whatever waits in the transmit list. -/
theorem Takes.queued {now : Tick} {o : Offer} {u v : PortUnit} (h : Takes now o u v) (r : Response) :
    Takes now o { u with tx := u.tx ++ [r] } { v with tx := v.tx ++ [r] } := by
  have send {x y : PortUnit} (e : x = y) : { x with tx := x.tx ++ [r] } = { y with tx := y.tx ++ [r] } := by rw [e]
  obtain ⟨hnone, htail, hdisplace, hdrop⟩ := h
  refine ⟨fun a => send (hnone a), fun a b => ?_, fun a b c d => ?_, fun a b c => send (hdrop a b c)⟩
  · exact ⟨send (htail a b).1, (htail a b).2⟩
  · exact ⟨send (hdisplace a b c d).1, (hdisplace a b c d).2⟩

theorem TakesAll.queued {now : Tick} {l : List Offer} {u v : PortUnit} (h : TakesAll now l u v) (r : Response) :
    TakesAll now l { u with tx := u.tx ++ [r] } { v with tx := v.tx ++ [r] } := by
  induction l generalizing u with
  | nil =>
    cases h
    rfl
  | cons o rest ih =>
    obtain ⟨w, hw, hr⟩ := h
    exact ⟨_, hw.queued r, ih hr⟩

theorem issue_port_self (p : Port) (r : Response) (s : State) :
    (issue p r s).port p = { s.port p with tx := (s.port p).tx ++ [r] } := State.setPort_port_self s p _

theorem issue_port_ne {p q : Port} (r : Response) (s : State) (h : q ≠ p) : (issue p r s).port q = s.port q :=
  s.setPort_port_ne p q _ h

/-- An answer goes with its event's notices. -/
theorem Told.issue {l : List Offer} {s t : State} (h : Told l s t) (p : Port) (r : Response) : Told l (issue p r s) (issue p r t) :=
  fun q => by
    by_cases hq : q = p
    · rw [hq, issue_port_self, issue_port_self]
      exact (h p).queued r
    · rw [issue_port_ne r s hq, issue_port_ne r t hq]
      exact h q

/-- The notices of an accepted request, after its answer. -/
theorem Told.answered {l : List Offer} {p : Port} {s t : State} (h : Told l (frameTaken p s) t) (r : Response) :
    Told l (s.answered p r) (Machine.issue p r t) := by
  rw [← issue_frameTaken]
  exact h.issue p r

theorem KeepsLinks.issue {s t : State} (h : KeepsLinks s t) (p : Port) (r : Response) : KeepsLinks (issue p r s) (issue p r t) :=
  fun q => by
    by_cases hq : q = p
    · have hp : t.port p = _ := h p
      rw [hq, issue_port_self, issue_port_self, hp]
      rfl
    · rw [issue_port_ne r s hq, issue_port_ne r t hq]
      exact h q

/-- What an accepted request that only its blocks answer leaves of the links. -/
theorem Within.answers {m : Parts} {p : Port} {s t : State} (h : Within m (frameTaken p s) t) (r : Response) :
    Answers p r s (issue p r t) := by
  unfold Answers
  rw [← issue_frameTaken]
  exact h.links.issue p r

theorem serve_accepts {p : Port} {s t : State} (h : TakesFrame s p) (code n : Byte) {reply : State → Reply} {payload : List Byte}
    (hr : reply (frameTaken p s) = accept payload t) :
    live s (serve p code n reply) = .next (issue p ⟨code, n, .ok, payload⟩ t) := by
  have ⟨hup, _, _⟩ := h
  rw [live_up s _ hup, serve_takes p code n reply s h, hr]
  rfl

theorem serve_refuses {p : Port} {s : State} (h : TakesFrame s p) (code n : Byte) {reply : State → Reply} {result : Result}
    {payload : List Byte} (hr : reply (frameTaken p s) = refuseWith result payload (frameTaken p s)) :
    live s (serve p code n reply) = .next (s.answered p ⟨code, n, result, payload⟩) := by
  have ⟨hup, _, _⟩ := h
  rw [live_up s _ hup, serve_takes p code n reply s h, hr]
  exact congrArg _ (issue_frameTaken p _ s)

theorem serve_answers {p : Port} {s : State} (h : TakesFrame s p) (code n : Byte) {reply : State → Reply} {payload : List Byte}
    (hr : reply (frameTaken p s) = accept payload (frameTaken p s)) :
    live s (serve p code n reply) = .next (s.answered p ⟨code, n, .ok, payload⟩) :=
  serve_refuses h code n (result := .ok) hr

end Sys2Proof.Machine
end

