-- ==== Sys2Proof/Proofs/Clock.lean ====
section
/-! PROOFS. Start-up, the reset lead, the step of an empty queue with its samples, and the key switch (R170, R183). -/

namespace Sys2Proof.Machine

open Sys2Proof

/-! ### Power-on and the reset lead (R183) -/

/-- Settles O1: the definition of a step. -/
theorem stepTakesFrontCommand : Obligations.StepTakesFrontCommand := fun _ _ _ => rfl

theorem tearStore_outside (s : State) : (tearStore s).leads = s.leads ∧ (tearStore s).pending = s.pending := by
  unfold tearStore
  split <;> exact ⟨rfl, rfl⟩

/-- Addresses rise strictly from `lo` on: what reads and writes need of a canonical store, with no limit to the addresses. -/
def risingFrom (lo : Nat) : List Host.Cell → Prop
  | [] => True
  | (k, _) :: rest => lo ≤ k ∧ risingFrom (k + 1) rest

theorem risingFrom_of_wf (m : List Host.Cell) (lo : Nat) (h : wfFrom lo m = true) : risingFrom lo m := by
  induction m generalizing lo with
  | nil => trivial
  | cons c rest ih =>
    obtain ⟨k, b⟩ := c
    simp only [wfFrom, Bool.and_eq_true, decide_eq_true_eq] at h
    obtain ⟨⟨⟨hlo, -⟩, -⟩, hrest⟩ := h
    exact ⟨hlo, ih _ hrest⟩

theorem risingFrom_mono {m : List Host.Cell} {lo lo' : Nat} (h : risingFrom lo m) (hl : lo' ≤ lo) : risingFrom lo' m := by
  cases m with
  | nil => trivial
  | cons c rest => exact ⟨hl.trans h.1, h.2⟩

theorem readCell_below_rising {m : List Host.Cell} {lo a : Nat} (h : risingFrom lo m) (ha : a < lo) : readCell m a = unlistedByte := by
  cases m with
  | nil => rfl
  | cons c rest =>
    have hk : a < c.1 := lt_of_lt_of_le ha h.1
    rw [readCell, if_neg hk.ne', if_pos hk]

theorem risingFrom_writeCell {m : List Host.Cell} {lo a : Nat} (b : Byte) (h : risingFrom lo m) (ha : lo ≤ a) :
    risingFrom lo (writeCell m a b) := by
  induction m generalizing lo with
  | nil =>
    unfold writeCell
    split
    · trivial
    · exact ⟨ha, trivial⟩
  | cons c rest ih =>
    obtain ⟨k, x⟩ := c
    obtain ⟨hlo, hrest⟩ := h
    unfold writeCell
    split
    · exact ⟨hlo, ih hrest (by omega)⟩
    · split
      · split
        · exact risingFrom_mono hrest (by omega)
        · exact ⟨ha, risingFrom_mono hrest (by omega)⟩
      · split
        · exact ⟨hlo, hrest⟩
        · exact ⟨ha, by omega, hrest⟩

theorem readCell_writeCell_elsewhere {m : List Host.Cell} {lo a a' : Nat} (b : Byte) (h : risingFrom lo m) (hne : a' ≠ a) :
    readCell (writeCell m a b) a' = readCell m a' := by
  induction m generalizing lo with
  | nil =>
    unfold writeCell
    split
    · rfl
    · simp [readCell, hne.symm]
  | cons c rest ih =>
    obtain ⟨k, x⟩ := c
    obtain ⟨-, hrest⟩ := h
    unfold writeCell
    split
    · simp only [readCell, ih hrest]
    · split
      next hk =>
        subst hk
        have hread : readCell ((k, x) :: rest) a' = if a' < k then unlistedByte else readCell rest a' := by
          rw [readCell, if_neg hne.symm]
        rw [hread]
        split
        · split
          · exact readCell_below_rising hrest (by omega)
          · rfl
        · rw [readCell, if_neg hne.symm]
      next hk =>
        split
        · rfl
        · rw [readCell, if_neg hne.symm]
          split
          · rw [readCell, if_neg (by omega), if_pos (by omega)]
          · rfl

theorem readCell_writeBytes_elsewhere (l : List Byte) {m : List Host.Cell} {a a' : Nat} (h : risingFrom 0 m)
    (ho : a' < a ∨ a + l.length ≤ a') : readCell (writeBytes m a l) a' = readCell m a' := by
  induction l generalizing m a with
  | nil => rfl
  | cons b rest ih =>
    rw [List.length_cons] at ho
    rw [writeBytes, ih (risingFrom_writeCell b h (Nat.zero_le a)) (by omega), readCell_writeCell_elsewhere b h (by omega)]

theorem tearStore_elsewhere {s : State} {a : Nat} (h : Memory.wf s.store = true)
    (ha : ∀ w ∈ s.loader.write, a < w.offset.toNat ∨ w.offset.toNat + 32 ≤ a) :
    readCell (tearStore s).store a = readCell s.store a := by
  unfold tearStore
  split
  · rfl
  next w hw =>
    have ho := ha w hw
    generalize hl : (List.range 32).map (fun i => Config.cutByte s.free i) = l
    have hlen : l.length = 32 := by rw [← hl, List.length_map, List.length_range]
    exact readCell_writeBytes_elsewhere l (risingFrom_of_wf _ 0 h) (by rwa [hlen])

theorem powerUp_outputsSafe (s : State) : OutputsSafe s.powerUp := reset_outputsSafe

theorem powerUp_eq {s : State} {l : Leads} {c : List Instr} (hl : s.leads = l) (hc : s.pending = c) : s.powerUp =
    { State.reset with store := s.powerUp.store, leads := l, free := s.powerUp.free, pending := c } := by
  subst hl hc
  rfl

theorem powerUp_store (s : State) : s.powerUp.store = s.store := rfl

theorem tearStore_idle {s : State} (h : s.loader.write = none) : (tearStore s).store = s.store := by
  rw [tearStore, h]

/-- The store after POWER_ON, which a write that is cut off leaves as it was outside its page (R184). -/
theorem powerOn_store (s : State) (a : Nat) : (s.loader.write = none → (tearStore s).powerUp.store = s.store) ∧
    (Memory.wf s.store = true → (∀ w ∈ s.loader.write, a < w.offset.toNat ∨ w.offset.toNat + 32 ≤ a) →
      readCell (tearStore s).powerUp.store a = readCell s.store a) := by
  rw [powerUp_store]
  exact ⟨tearStore_idle, tearStore_elsewhere⟩

/-- Settles O3: the power-on values by definition, the store through the bytes of a write that is cut off. -/
theorem powerOnStartsTheLoadInTheSafeState : Obligations.PowerOnStartsTheLoadInTheSafeState := fun s a => by
  refine ⟨(tearStore s).powerUp, rfl, powerUp_eq (tearStore_outside s).1 (tearStore_outside s).2, rfl, rfl, rfl, rfl, ?_⟩
  exact ⟨powerUp_outputsSafe _, powerOn_store s a⟩

/-- What RESET_LEAD_LOW leaves. -/
def State.heldLow (s : State) : State := { s.powerUp with resetLow := true }

theorem heldLow_eq {s : State} {l : Leads} {c : List Instr} (hl : s.leads = l) (hc : s.pending = c) : s.heldLow =
    { State.reset with resetLow := true, store := s.heldLow.store, leads := l, free := s.heldLow.free, pending := c } := by
  subst hl hc
  rfl

/-- Settles O4: RESET_LEAD_LOW by its definition; while the lead is low, `live` takes no event, and what moves a lead moves it alone. -/
theorem resetLeadHoldsTheSafeState : Obligations.ResetLeadHoldsTheSafeState := fun s c => by
  refine ⟨⟨(tearStore s).heldLow, rfl, rfl, powerUp_outputsSafe s, ?_⟩, fun hlow hon hoff => ?_⟩
  · exact heldLow_eq (tearStore_outside s).1 (tearStore_outside s).2
  · have hheld : ∀ f : State → State, ∃ t : State, live s f = .next t ∧ t = { s with leads := t.leads } ∧ t = s :=
      fun f => ⟨s, live_low s f hlow, rfl, rfl⟩
    cases c
    case powerOn => exact absurd rfl hon
    case resetLeadLow => exact absurd rfl hoff
    case contactInputSample =>
      unfold exec execContactInputSample
      exact ⟨_, live_low _ _ hlow, rfl, trivial⟩
    case flowSwitchChange | gateSwitchChange | keySwitchChange | contactInputAccepted | closedSwitchChange | barrierChange =>
      exact ⟨_, live_low _ _ hlow, rfl, trivial⟩
    case frameDiscard =>
      unfold exec execFrameDiscard
      exact hheld _
    case unknownRequest =>
      unfold exec execUnknownRequest
      exact hheld _
    case transducerSample =>
      unfold exec execTransducerSample
      exact hheld _
    all_goals exact hheld _

/-! ### Samples (R17, R23, R43, R74, R127, R170) -/

theorem msAdvances_iff (t : Tick) : msAdvances t = true ↔ t.toNat % 4 = 0 := decide_eq_true_iff

theorem sampledNow_iff (s : State) (x : Sampler) : (s.samplesInput x && x.falls s.tick) = true ↔ SampledNow s x := by
  cases x <;>
    simp only [State.samplesInput, Sampler.falls, SampledNow, msAdvances_iff, Bool.and_eq_true, Bool.true_and, Bool.and_true, and_assoc] <;>
    rfl

/-- The model's test of a due sample is the statement's. -/
theorem sampleDue_iff (s : State) (x : Sampler) : sampleDue s x = true ↔ SampleDue s x := by
  rw [sampleDue, Bool.and_eq_true, sampledNow_iff, decide_eq_true_iff, SampleDue]

theorem sampling_due {x : Sampler} {s : State} (h : SampleDue s x) (f : State → State) : sampling x f s = f (s.tookSample x) :=
  if_pos ((sampleDue_iff s x).mpr h)

theorem sampling_idle {x : Sampler} {s : State} (h : ¬SampleDue s x) (f : State → State) : sampling x f s = s :=
  if_neg fun k => h ((sampleDue_iff s x).mp k)

theorem tookSample_sampled (s : State) (x : Sampler) : (s.tookSample x).sampled x = s.tick := by
  simp [State.sampled, State.tookSample]

/-- An event that keeps clock and samples takes the sample of an input, once. -/
theorem sampling_taken {x : Sampler} {f : State → State} {s : State} (hd : SampleDue s x)
    (hs : (f (s.tookSample x)).samples = (s.tookSample x).samples) (ht : (f (s.tookSample x)).tick = s.tick) :
    (sampling x f s).tick = s.tick ∧ ¬SampleDue (sampling x f s) x := by
  rw [sampling_due hd]
  refine ⟨ht, fun ⟨_, hne⟩ => hne ?_⟩
  rw [ht, State.sampled, hs]
  exact tookSample_sampled s x

theorem sampling_taken_of_fixed {x : Sampler} {f : State → State} {s : State} (hd : SampleDue s x)
    (h : ∀ t, KeepsFixed t (f t)) : (sampling x f s).tick = s.tick ∧ ¬SampleDue (sampling x f s) x := by
  have hk := h (s.tookSample x)
  exact sampling_taken hd hk.2.2.2.2.2.2.2.1 hk.tick_eq

theorem inputAcceptedSample_fixed (i : Fin 8) (sensed : Sensed) (s : State) : KeepsFixed s (inputAcceptedSample i sensed s) := by
  unfold inputAcceptedSample
  split
  next z _ =>
    have hpost : KeepsFixed s _ :=
      (setInput_within s i ((s.input i).sampled s.cfg.inputs[i].debounce sensed)).fixed.trans
        (postZone_within z (.input i) (inputLevel s.cfg.inputs[i] sensed) _).fixed
    unfold inputAcceptedEvent
    dsimp only
    split
    · exact hpost.trans (raiseTrouble_within _ _ _ _).fixed
    · split
      · exact hpost.trans (clearTrouble_within _ _ _ _).fixed
      · exact hpost
  · exact .refl s

theorem gateSwitchEvent_fixed (d : Fin 4) (w : GateSwitch) (b : Bool) (s : State) : KeepsFixed s (gateSwitchEvent d w b s) := by
  unfold gateSwitchEvent
  split
  · exact (((setGate_within s d _).trans (endStroke_within d _)).mono rfl |>.trans (dcEvent_within d [] _)).fixed
  · exact .refl s

theorem flowSwitchEvent_fixed (d : Fin 4) (v : Fin 2) (b : Bool) (s : State) : KeepsFixed s (flowSwitchEvent d v b s) := by
  unfold flowSwitchEvent
  dsimp only
  split
  · have h1 := (setValve_within s d v { s.valve d v with flow := b }).fixed
    split
    · exact h1.trans ((setValve_within _ d v _).mono rfl |>.trans ((clearTrouble_within _ _ _ _).mono (n := .water) rfl)).fixed
    · exact h1
  · exact .refl s

theorem closedSwitchEvent_fixed (i : Fin 12) (b : Bool) (s : State) : KeepsFixed s (closedSwitchEvent i b s) := by
  have hdoor : ∀ x, Within .closing s (s.setDoor i x) := fun x => (setDoor_within s i x).mono rfl
  unfold closedSwitchEvent
  dsimp only
  split
  · exact .refl s
  · split
    · split
      · exact (doorEvent_within _ _ _ s).fixed
      · exact (doorEvent_within _ _ _ s).fixed
      all_goals exact ((hdoor _).trans ((doorTrouble_within i _ _ _).mono rfl)).fixed
    · split <;> exact (hdoor _).fixed

theorem barrierEvent_fixed (i : Fin 12) (b : Bool) (s : State) : KeepsFixed s (barrierEvent i b s) := by
  unfold barrierEvent
  dsimp only
  split
  · exact .refl s
  · split
    · exact (doorEvent_within _ _ _ s).fixed
    · exact (setDoor_within s i _).fixed

/-! ### The clock's own events -/

/-- The commands that are samples of an input. -/
def isSample : Instr → Bool
  | .keySwitchChange _ | .contactInputAccepted _ _ _ | .contactInputSample _ _ _ | .stationSampleEvent _ _ _ _ | .velocityUpdate _ _
  | .transducerSample _ _ | .flowSwitchChange _ _ _ | .gateSwitchChange _ _ _ | .closedSwitchChange _ _ | .barrierChange _ _ => true
  | _ => false

theorem mem_dueIf {b : Bool} {i c : Instr} : c ∈ dueIf b i ↔ b = true ∧ c = i := by
  unfold dueIf
  cases b <;> simp

theorem dueLoader_not_sample {s : State} {c : Instr} (h : c ∈ dueLoader s) : isSample c = false := by
  simp only [dueLoader, List.mem_append, mem_dueIf] at h
  rcases h with ⟨-, rfl⟩ | ⟨-, rfl⟩ <;> rfl

theorem duePorts_not_sample {s : State} {c : Instr} (h : c ∈ duePorts s) : isSample c = false := by
  simp only [duePorts, List.mem_flatMap, mem_dueIf] at h
  obtain ⟨p, -, -, rfl⟩ := h
  rfl

theorem dueRunning_not_sample {s : State} {c : Instr} (h : c ∈ dueRunning s) : isSample c = false := by
  unfold dueRunning at h
  split at h
  · simp only [dueDuct, dueValve, dueCtl, dueDoor, dueSiren, List.mem_append, List.mem_flatMap, mem_dueIf, or_assoc] at h
    aesop
  · cases h

theorem mem_allSamplers (x : Sampler) : x ∈ allSamplers := by
  unfold allSamplers
  cases x with
  | gate d w => cases w <;> simp
  | _ => simp

/-- A sample is among the due events exactly where an input has it due. -/
theorem mem_dueEvents_iff {s : State} {c : Instr} (h : isSample c = true) :
    c ∈ dueEvents s ↔ ∃ x, SampleDue s x ∧ sampleCommand s x = c := by
  have hl : c ∉ dueLoader s := fun k => absurd (h.symm.trans (dueLoader_not_sample k)) (by decide)
  have hp : c ∉ duePorts s := fun k => absurd (h.symm.trans (duePorts_not_sample k)) (by decide)
  have hr : c ∉ dueRunning s := fun k => absurd (h.symm.trans (dueRunning_not_sample k)) (by decide)
  simp only [dueEvents, List.mem_append, hl, hp, hr, dueSamples, List.mem_map, List.mem_filter, mem_allSamplers, sampleDue_iff,
    false_or, or_false, true_and]

/-- The command that samples an input at the level of its lead takes the sample. -/
theorem sampleCommand_takes {s : State} {x : Sampler} (h : SampleDue s x) (hup : s.resetLow = false) :
    ∃ t : State, exec (sampleCommand s x) s.spend = .next t ∧ t.tick = s.tick ∧ ¬SampleDue t x := by
  have done {f : State → State} {u : State} (hu : u.resetLow = false) (ht : u.tick = s.tick) (hk : (f u).tick = u.tick ∧ ¬SampleDue (f u) x) :
      ∃ t : State, live u f = .next t ∧ t.tick = s.tick ∧ ¬SampleDue t x :=
    ⟨f u, live_up u f hu, hk.1.trans ht, hk.2⟩
  have hd : SampleDue s.spend x := by cases x <;> exact h
  cases x with
  | key => exact done hup rfl (sampling_taken (f := keyEvent s.leads.key) (s := setKeyLead s.leads.key s.spend) h rfl rfl)
  | contact i =>
    unfold sampleCommand
    dsimp only
    split
    next ha =>
      have ha' : acceptsNow (setContactLead i s.leads.contacts[i].supervision s.leads.contacts[i].line s.spend) i _ = true := ha
      refine done (u := setContactLead i _ _ s.spend) hup rfl ?_
      rw [if_pos ha']
      exact sampling_taken_of_fixed h (inputAcceptedSample_fixed i _)
    next ha =>
      unfold exec execContactInputSample
      have ha' : ¬acceptsNow (setContactLead i s.leads.contacts[i].supervision s.leads.contacts[i].line s.spend) i _ = true := ha
      refine done (u := setContactLead i _ _ s.spend) hup rfl ?_
      rw [if_neg ha']
      exact sampling_taken_of_fixed h fun t => (setInput_within t i _).fixed
  | station d st => exact done hup rfl (sampling_taken_of_fixed h fun t => (stationEvent_within d st _ _ t).fixed)
  | transducer d =>
    unfold sampleCommand
    dsimp only
    split
    next ha =>
      refine done (u := s.spend) hup rfl ?_
      have ha' : updatesNow s.spend d = true := ha
      rw [if_pos ha']
      exact sampling_taken_of_fixed h fun t => (velocityEvent_within d _ t).fixed
    next ha =>
      unfold exec execTransducerSample
      refine done (u := s.spend) hup rfl ?_
      have ha' : ¬updatesNow s.spend d = true := ha
      rw [if_neg ha']
      exact sampling_taken_of_fixed h fun t => (setDuct_within t d _).fixed
  | flow d v => exact done (u := setFlowLead d v _ s.spend) hup rfl (sampling_taken_of_fixed h (flowSwitchEvent_fixed d v _))
  | gate d w =>
    cases w with
    | openSwitch =>
      exact done (u := setGateLead d .openSwitch _ s.spend) hup rfl (sampling_taken_of_fixed h (gateSwitchEvent_fixed d .openSwitch _))
    | closedSwitch =>
      exact done (u := setGateLead d .closedSwitch _ s.spend) hup rfl
        (sampling_taken_of_fixed h (gateSwitchEvent_fixed d .closedSwitch _))
  | closedSwitch i => exact done (u := setClosedLead i _ s.spend) hup rfl (sampling_taken_of_fixed h (closedSwitchEvent_fixed i _))
  | barrier i => exact done (u := setBarrierLead i _ s.spend) hup rfl (sampling_taken_of_fixed h (barrierEvent_fixed i _))

theorem sampleCommand_isSample (s : State) (x : Sampler) : isSample (sampleCommand s x) = true := by
  cases x with
  | contact i =>
    unfold sampleCommand
    dsimp only
    split <;> rfl
  | transducer d =>
    unfold sampleCommand
    dsimp only
    split <;> rfl
  | gate d w => cases w <;> rfl
  | _ => rfl

theorem idle_of_due {s : State} {c : Instr} {l : List Instr} (hup : s.resetLow = false) (h : dueEvents s = c :: l) :
    ∃ i ∈ dueEvents s, idle s = exec i s.spend := by
  unfold idle
  rw [hup, if_neg (by decide), h]
  cases l with
  | nil => exact ⟨c, by simp, rfl⟩
  | cons b rest =>
    refine ⟨_, ?_, rfl⟩
    have hlt : Config.choice s.free % ((b :: rest).length + 1) < (c :: b :: rest).length := Nat.mod_lt _ (Nat.succ_pos _)
    rw [List.getElem?_eq_getElem hlt, Option.getD_some]
    exact List.getElem_mem hlt

/-- Settles O2: the branches of `idle`; a due sample is among the due events, and its command takes it. -/
theorem idleStepMovesTheClock : Obligations.IdleStepMovesTheClock := fun s hs => by
  have hidle : step s = idle s := by rw [step, hs]
  rw [hidle]
  refine ⟨fun hlow => ?_, fun hup hd => ?_, fun c hup hd => ?_, fun hup hd => ?_, fun x hx => ?_⟩
  · rw [idle, if_pos hlow]
  · rw [idle, hup, if_neg (by decide), hd]
  · have hspend : s.spend = { s with free := s.free + 1 } := rfl
    rw [idle, if_neg (by rw [hup]; decide), hd, ← hspend]
  · obtain ⟨c, l, hcl⟩ := List.exists_cons_of_ne_nil hd
    exact idle_of_due hup hcl
  · exact ⟨(mem_dueEvents_iff (sampleCommand_isSample s x)).mpr ⟨x, hx, rfl⟩, sampleCommand_takes hx⟩

/-! ### The key switch (R170) -/

/-- Settles O26: the cases of one sample of the key, and the due events that are a sample of it. -/
theorem keySwitchIsDebounced : Obligations.KeySwitchIsDebounced := fun k s hup => by
  have hexec : exec (.keySwitchChange k) s = .next (sampling .key (keyEvent k) (setKeyLead k s)) := live_up (setKeyLead k s) _ hup
  have htaken : SampleDue s .key →
      exec (.keySwitchChange k) s = .next { (setKeyLead k s).tookSample .key with key := s.key.sampled k } := fun h => by
    rw [hexec, sampling_due (x := .key) (s := setKeyLead k s) h]
    rfl
  refine ⟨fun h hk => ?_, fun h hk hc => ?_, fun h hk hc => ?_, fun h => ?_, ?_⟩
  · rw [htaken h, KeySwitch.sampled, if_pos hk]
    rfl
  · rw [htaken h, KeySwitch.sampled, if_neg hk, if_neg (by omega)]
    rfl
  · rw [htaken h, KeySwitch.sampled, if_neg hk, if_pos (by omega)]
    rfl
  · rw [hexec, sampling_idle (x := .key) (s := setKeyLead k s) h]
    rfl
  · rw [mem_dueEvents_iff rfl]
    constructor
    · rintro ⟨x, hx, he⟩
      have hkey : x = .key := by
        cases x with
        | key => rfl
        | contact i =>
          simp only [sampleCommand] at he
          split at he <;> cases he
        | transducer d =>
          simp only [sampleCommand] at he
          split at he <;> cases he
        | gate d w => cases w <;> cases he
        | _ => cases he
      subst hkey
      cases he
      exact ⟨hx, rfl⟩
    · rintro ⟨hx, rfl⟩
      exact ⟨.key, hx, rfl⟩

end Sys2Proof.Machine
end

