-- ==== Sys2Proof/Proofs/Links.lean ====
section
/-! PROOFS. Frames and the requests that they spell (R171 to R174), the notice queue's requests (R178 to R181), and the store (R186). -/

namespace Sys2Proof.Machine

open Sys2Proof

/-! ### Requests by their frames -/

theorem wordOf_le16 (w : Word16) : wordOf (w.truncate 8) ((w >>> 8).truncate 8) = w := by
  refine BitVec.eq_of_getLsbD_eq fun i hi => ?_
  rw [wordOf, BitVec.getLsbD_append]
  split
  next h => simp [h]
  next h =>
    simp only [BitVec.truncate_eq_setWidth, BitVec.getLsbD_setWidth, BitVec.getLsbD_ushiftRight]
    rw [decide_eq_true (by omega), Bool.true_and, Nat.add_sub_cancel' (by omega)]

/-- The payloads of a request's entry have one length; any other is refused LENGTH. -/
def PayloadReply.HasLength (x : Byte × PayloadReply) : Prop :=
  ∀ l s, l.length ≠ payloadLength x.1 → x.2 l s = refuse .length s

section
variable {l : List Byte} {s : State}

theorem take0_length {f : State → Reply} (h : l.length ≠ 0) : take0 f l s = refuse .length s := by
  unfold take0
  split
  · exact absurd rfl h
  · rfl

theorem take1_length {f : Byte → State → Reply} (h : l.length ≠ 1) : take1 f l s = refuse .length s := by
  unfold take1
  split
  · exact absurd rfl h
  · rfl

theorem take2_length {f : Byte → Byte → State → Reply} (h : l.length ≠ 2) : take2 f l s = refuse .length s := by
  unfold take2
  split
  · exact absurd rfl h
  · rfl

theorem takeWord_length {f : Word16 → State → Reply} (h : l.length ≠ 2) : takeWord f l s = refuse .length s := by
  unfold takeWord
  split
  · exact absurd rfl h
  · rfl

theorem take1Word_length {f : Byte → Word16 → State → Reply} (h : l.length ≠ 3) : take1Word f l s = refuse .length s := by
  unfold take1Word
  split
  · exact absurd rfl h
  · rfl

theorem take2Word_length {f : Byte → Byte → Word16 → State → Reply} (h : l.length ≠ 4) : take2Word f l s = refuse .length s := by
  unfold take2Word
  split
  · exact absurd rfl h
  · rfl

theorem takeCapture_length (h : l.length ≠ 5) : takeCapture l s = refuse .length s := by
  unfold takeCapture
  split
  · exact absurd rfl h
  · rfl

theorem takeOverlay_length {p : Port} (h : l.length ≠ 11) : takeOverlay p l s = refuse .length s := by
  unfold takeOverlay
  split
  · exact absurd rfl h
  · rfl

end

theorem requestTable_hasLength (p : Port) : ∀ x ∈ requestTable p, PayloadReply.HasLength x := by
  simp only [requestTable, List.forall_mem_append, List.forall_mem_cons, List.not_mem_nil, false_imp_iff, implies_true, and_true]
  exact ⟨⟨⟨fun _ _ => take0_length, fun _ _ => take1_length, fun _ _ => take1Word_length, fun _ _ => take2_length,
        fun _ _ => take1_length, fun _ _ => take1Word_length, fun _ _ => take1_length, fun _ _ => take1_length,
        fun _ _ => take1_length, fun _ _ => take1_length, fun _ _ => take2_length, fun _ _ => take1_length⟩,
      fun _ _ => take1_length, fun _ _ => take1_length, fun _ _ => take1_length, fun _ _ => take2Word_length, fun _ _ => take1_length,
      fun _ _ => takeOverlay_length, fun _ _ => take1_length, fun _ _ => take1_length, fun _ _ => take1Word_length,
      fun _ _ => take1_length, fun _ _ => take1_length, fun _ _ => take1_length⟩,
    fun _ _ => take2Word_length, fun _ _ => take1_length, fun _ _ => take1_length, fun _ _ => take1_length,
    fun _ _ => takeCapture_length, fun _ _ => take1Word_length, fun _ _ => take2Word_length, fun _ _ => take1_length,
    fun _ _ => take1_length, fun _ _ => take1Word_length, fun _ _ => takeWord_length, fun _ _ => take0_length⟩

/-- The codes of the requests that are answered at arrival. -/
theorem mem_requestCodes (p : Port) (code : Byte) : code ∈ (requestTable p).map Prod.fst ↔ code ∈ catalogue ∧ code ≠ codeWriteStore := by
  have h : (requestTable p).map Prod.fst = catalogue.filter fun c => decide (c ≠ codeWriteStore) := by cases p <;> decide
  rw [h, List.mem_filter, decide_eq_true_iff]

theorem frameReply_unknown {p : Port} {code : Byte} (h : code ∉ catalogue) (l : List Byte) (s : State) :
    frameReply p code l s = unknownReply s := by
  have hnone : (requestTable p).find? (fun x => decide (x.1 = code)) = none := List.find?_eq_none.mpr fun x hx he =>
    h ((mem_requestCodes p code).mp (of_decide_eq_true he ▸ List.mem_map_of_mem hx)).1
  rw [frameReply, hnone]

theorem frameReply_length {p : Port} {code : Byte} (h : code ∈ catalogue) (hw : code ≠ codeWriteStore) {l : List Byte}
    (hl : l.length ≠ payloadLength code) (s : State) : frameReply p code l s = refuse .length s := by
  obtain ⟨x, hx, hc⟩ := List.mem_map.mp ((mem_requestCodes p code).mpr ⟨h, hw⟩)
  unfold frameReply
  split
  next y hy =>
    have hcode : y.1 = code := by simpa using List.find?_some hy
    exact requestTable_hasLength p y (List.mem_of_find?_eq_some hy) l s (by rwa [hcode])
  next hnone => exact absurd (decide_eq_true hc) (List.find?_eq_none.mp hnone x hx)

/-- Every request but WRITE_STORE is what its frame spells (R174, R190). -/
theorem exec_request {c : Instr} {p : Port} {n code : Byte} (h : requestOf c = some (p, n, code)) (hw : wellFormed c = true)
    (hc : code ≠ codeWriteStore) (s : State) : exec c s = live s (serve p code n (frameReply p code (requestPayload c))) := by
  cases c
  case writeStore =>
    cases h
    exact absurd rfl hc
  case unknownRequest =>
    cases h
    have hnot : code ∉ catalogue := by simpa [wellFormed] using hw
    unfold exec execUnknownRequest
    simp only [if_neg hnot]
    exact congrArg (fun f => live s (serve p code n f)) (funext fun t => (frameReply_unknown hnot _ t).symm)
  case ackZone tag | resetZone tag | testValve tag | holdDoor tag | soundSiren tag | freeCaptures tag | setCaptureLayout tag |
      setCoalescing tag | readStore tag =>
    cases h
    conv_lhs => rw [← wordOf_le16 tag]
    rfl
  case readCapture offset _ =>
    cases h
    conv_lhs => rw [← wordOf_le16 offset]
    rfl
  case pushOverlay duration offset _ _ _ _ window =>
    cases h
    conv_lhs => rw [← wordOf_le16 duration, ← wordOf_le16 offset, ← wordOf_le16 window]
    rfl
  all_goals cases h
  all_goals rfl

theorem writeStore_of_code {c : Instr} {p : Port} {n : Byte} (h : requestOf c = some (p, n, codeWriteStore)) (hw : wellFormed c = true) :
    ∃ offset bytes, c = .writeStore p n offset bytes := by
  cases c
  case writeStore =>
    cases h
    exact ⟨_, _, rfl⟩
  case unknownRequest =>
    cases h
    exact absurd (by decide) (by simpa [wellFormed] using hw : codeWriteStore ∉ catalogue)
  all_goals cases h

/-! ### The transmit list (R173, R174) -/

theorem frameDropped_iff (u : PortUnit) :
    frameDropped u = true ↔ 4 ≤ u.tx.length ∨ (u.waiting.isSome = true ∧ 3 ≤ u.tx.length) := by
  rw [frameDropped, Bool.or_eq_true, Bool.and_eq_true, decide_eq_true_iff, decide_eq_true_iff, and_comm (a := 3 ≤ _)]

theorem frameTaken_dropped (p : Port) (s : State) : frameDropped ((frameTaken p s).port p) = frameDropped (s.port p) := by
  rw [frameTaken_port]
  rfl

theorem frameTaken_waiting (p : Port) (s : State) : ((frameTaken p s).port p).waiting = (s.port p).waiting := by
  rw [frameTaken_port]

theorem serve_busy {p : Port} {s : State} (code n : Byte) (reply : State → Reply) (hd : frameDropped (s.port p) = false)
    (hw : (s.port p).waiting.isSome = true) : serve p code n reply s = s.answered p ⟨code, n, .busy, []⟩ := by
  rw [serve]
  dsimp only
  rw [frameTaken_dropped, frameTaken_waiting, if_neg (by rw [hd]; decide), if_pos hw, issue_frameTaken]

theorem serve_dropped {p : Port} {s : State} (code n : Byte) (reply : State → Reply) (hd : frameDropped (s.port p) = true) :
    serve p code n reply s = frameTaken p s := by
  rw [serve]
  dsimp only
  rw [frameTaken_dropped, if_pos hd]

theorem serveWriteStore_busy {p : Port} {s : State} (n : Byte) (offset : Word16) (bytes : Vector Byte 32)
    (hd : frameDropped (s.port p) = false) (hw : (s.port p).waiting.isSome = true) :
    serveWriteStore p n offset bytes s = s.answered p ⟨codeWriteStore, n, .busy, []⟩ := by
  rw [serveWriteStore]
  rw [frameTaken_dropped, frameTaken_waiting, if_neg (by rw [hd]; decide), if_pos hw, issue_frameTaken]

theorem serveWriteStore_dropped {p : Port} {s : State} (n : Byte) (offset : Word16) (bytes : Vector Byte 32)
    (hd : frameDropped (s.port p) = true) : serveWriteStore p n offset bytes s = frameTaken p s := by
  rw [serveWriteStore]
  rw [frameTaken_dropped, if_pos hd]

/-- A request frame that arrives while its port can only answer BUSY, or drops it. -/
theorem exec_request_unserved {c : Instr} {p : Port} {n code : Byte} {s t : State} (h : requestOf c = some (p, n, code))
    (hw : wellFormed c = true) (hup : s.resetLow = false) (hserve : ∀ reply, serve p code n reply s = t)
    (hstore : code = codeWriteStore → ∀ offset bytes, serveWriteStore p n offset bytes s = t) : exec c s = .next t := by
  by_cases hc : code = codeWriteStore
  · subst hc
    obtain ⟨offset, bytes, rfl⟩ := writeStore_of_code h hw
    exact (live_up s _ hup).trans (congrArg _ (hstore rfl offset bytes))
  · rw [exec_request h hw hc, live_up s _ hup, hserve]

/-- Settles O23: what `serve` does with a frame that it cannot check, the answer UNKNOWN, and a response that leaves the list. -/
theorem transmitListTakesBusyUnknownAndSent : Obligations.TransmitListTakesBusyUnknownAndSent := fun c p n code s hup => by
  refine ⟨fun h hw hwait hlen => ?_, fun h hw hfull => ?_, fun hc ht => ?_, ?_⟩
  · have hd : frameDropped (s.port p) = false := Bool.eq_false_iff.mpr fun k => by
      rw [frameDropped_iff] at k
      omega
    exact exec_request_unserved h hw hup (fun reply => serve_busy code n reply hd hwait)
      fun hcode offset bytes => hcode ▸ serveWriteStore_busy n offset bytes hd hwait
  · have hd : frameDropped (s.port p) = true := (frameDropped_iff _).mpr hfull
    exact exec_request_unserved h hw hup (fun reply => serve_dropped code n reply hd)
      fun _ offset bytes => serveWriteStore_dropped n offset bytes hd
  · unfold exec execUnknownRequest
    simp only [if_neg hc]
    exact serve_refuses ht code n rfl
  · refine (live_up s _ hup).trans ?_
    rw [responseSent, List.drop_one]

/-! ### Receivers (R171, R172) -/

theorem lateByte_of_hunting {u : PortUnit} (h : u.rx = .hunting) (now : Tick) : lateByte u now = false := by
  rw [lateByte, h]
  rfl

theorem lateByte_intime {u : PortUnit} {now : Tick} (h : Tick.later now (u.rxTick + 80) = false) : lateByte u now = false := by
  have h' : Tick.later now (u.rxTick.plus 80) = false := h
  rw [lateByte, h', Bool.and_false]

theorem lateByte_late {u : PortUnit} {now : Tick} (hp : u.rx ≠ .hunting) (h : ¬Tick.later now (u.rxTick + 80) = false) :
    lateByte u now = true := by
  have h' : Tick.later now (u.rxTick.plus 80) = true := (Bool.not_eq_false _).mp h
  rw [lateByte, h', Rx.partialFrame, decide_eq_true hp]
  rfl

theorem portByte_intime {u : PortUnit} {now : Tick} (b : Byte) (h : lateByte u now = false) :
    portByte u now b false = rxByte u.rx b := by
  rw [portByte, if_neg (by decide), if_neg (by rw [h]; decide)]

theorem portByte_late {u : PortUnit} {now : Tick} (b : Byte) (h : lateByte u now = true) :
    portByte u now b false = ((rxByte .hunting b).1, .discard) := by
  rw [portByte, if_neg (by decide), if_pos h]

/-- A byte that completes no frame moves the receiver alone. -/
theorem receiveByte_moves {p : Port} {b : Byte} {e : Bool} {s : State} {rx : Rx} {effect : ByteEffect}
    (h : portByte (s.port p) s.tick b e = (rx, effect)) (hf : ∀ body, effect ≠ .frame body) :
    receiveByte p b e s = s.setPort p { s.port p with rx := rx, rxTick := s.tick } := by
  rw [receiveByte]
  dsimp only
  rw [h]
  cases effect with
  | frame body => exact absurd rfl (hf body)
  | plain => rfl
  | discard => rfl

theorem byteReceived_moves {p : Port} {b : Byte} {e : Bool} {s : State} {rx : Rx} {effect : ByteEffect} (hup : s.resetLow = false)
    (h : portByte (s.port p) s.tick b e = (rx, effect)) (hf : ∀ body, effect ≠ .frame body) :
    exec (.byteReceived p b e) s = .next (s.setPort p { s.port p with rx := rx, rxTick := s.tick }) :=
  (live_up s _ hup).trans (congrArg _ (receiveByte_moves h hf))

theorem frameDiscard_moves {p : Port} {b : Byte} {e : Bool} {s : State} {rx : Rx} (hup : s.resetLow = false)
    (h : portByte (s.port p) s.tick b e = (rx, .discard)) :
    exec (.frameDiscard p b e) s = .next (s.setPort p { s.port p with rx := rx, rxTick := s.tick }) := by
  have hmoves : execFrameDiscard p b e s = .next (s.setPort p { s.port p with rx := rx, rxTick := s.tick }) := by
    rw [execFrameDiscard, live_up s _ hup, h, if_pos rfl, receiveByte_moves h nofun]
  unfold exec
  exact hmoves

theorem frameDiscard_idle {p : Port} {b : Byte} {e : Bool} {s : State} (hup : s.resetLow = false)
    (h : (portByte (s.port p) s.tick b e).2 ≠ .discard) : exec (.frameDiscard p b e) s = .next s := by
  have hidle : execFrameDiscard p b e s = .next s := by rw [execFrameDiscard, live_up s _ hup, if_neg h]
  unfold exec
  exact hidle

theorem judgeFrame_discards {body : List Byte} {lo hi : Byte} (h : hi ++ lo ≠ crc16 (byteOf body.length :: body)) :
    judgeFrame body lo hi = .discard := if_neg fun k => h k.symm

/-- Settles O25: one row of the receiver's table for each state, the late byte and the framing error. -/
theorem receiversAssembleAndDiscardFrames : Obligations.ReceiversAssembleAndDiscardFrames := fun p b lo size got body s hup => by
  dsimp only
  have intime (h : Tick.later s.tick ((s.port p).rxTick + 80) = false) : portByte (s.port p) s.tick b false = rxByte (s.port p).rx b :=
    portByte_intime b (lateByte_intime h)
  have error : portByte (s.port p) s.tick b true = (.hunting, if (s.port p).rx.partialFrame then .discard else .plain) := rfl
  refine ⟨fun h => ?_, fun h k hlo hhi => ?_, fun h k hlen => ?_, fun h k hlen => ?_, fun h k hlen => ?_, fun h k => ?_,
    fun h k hcrc => ?_, fun h k => ?_, ?_, fun h => ?_, fun h => ?_⟩
  · refine byteReceived_moves hup (effect := .plain) ?_ nofun
    rw [portByte_intime b (lateByte_of_hunting h _), h]
    rfl
  · refine byteReceived_moves hup (effect := .plain) ?_ nofun
    rw [intime k, h, rxByte, if_pos ⟨hlo, hhi⟩]
  · have hbyte : portByte (s.port p) s.tick b false = (.hunting, .discard) := by
      rw [intime k, h, rxByte, if_neg (by omega)]
    exact ⟨byteReceived_moves hup hbyte nofun, frameDiscard_moves hup hbyte⟩
  · refine byteReceived_moves hup (effect := .plain) ?_ nofun
    rw [intime k, h, rxByte, if_neg (by omega)]
  · refine byteReceived_moves hup (effect := .plain) ?_ nofun
    rw [intime k, h, rxByte, if_pos (by omega)]
  · refine byteReceived_moves hup (effect := .plain) ?_ nofun
    rw [intime k, h, rxByte]
  · have hbyte : portByte (s.port p) s.tick b false = (.hunting, .discard) := by
      rw [intime k, h, rxByte, judgeFrame_discards hcrc]
    exact ⟨byteReceived_moves hup hbyte nofun, frameDiscard_moves hup hbyte⟩
  · have hbyte := portByte_late b (lateByte_late h k)
    exact ⟨byteReceived_moves hup hbyte nofun, frameDiscard_moves hup hbyte⟩
  · refine byteReceived_moves hup error ?_
    intro body
    split <;> nofun
  · refine frameDiscard_moves hup ?_
    rw [error, Rx.partialFrame, decide_eq_true h, if_pos rfl]
  · refine ⟨frameDiscard_idle hup ?_, frameDiscard_idle hup ?_⟩
    · rw [error, h]
      decide
    · rw [portByte_intime b (lateByte_of_hunting h _), h]
      nofun

/-! ### Completed frames (R172 to R174, R190) -/

theorem storePage_le16 (offset : Word16) (bytes : Vector Byte 32) : storePage (le16 offset ++ bytes.toList) = some bytes := by
  have hlen : (le16 offset ++ bytes.toList).length = 34 := by simp [le16]
  rw [storePage, dif_pos hlen]
  congr 1

theorem storePage_length {l : List Byte} (h : l.length ≠ 34) : storePage l = none := dif_neg h

theorem serveFrame_writeStore (p : Port) (n : Byte) (offset : Word16) (bytes : Vector Byte 32) (s : State) :
    serveFrame p (codeWriteStore :: n :: (le16 offset ++ bytes.toList)) s = serveWriteStore p n offset bytes s := by
  unfold serveFrame
  dsimp only
  rw [if_pos rfl, storePage_le16]
  show serveWriteStore p n (wordOf (offset.truncate 8) ((offset >>> 8).truncate 8)) bytes s = _
  rw [wordOf_le16]

theorem serveFrame_writeStore_length (p : Port) (n : Byte) {l : List Byte} (h : l.length ≠ 34) (s : State) :
    serveFrame p (codeWriteStore :: n :: l) s = serve p codeWriteStore n (refuse .length) s := by
  unfold serveFrame
  dsimp only
  rw [if_pos rfl, storePage_length h]

theorem serveFrame_request {code : Byte} (h : code ≠ codeWriteStore) (p : Port) (n : Byte) (l : List Byte) (s : State) :
    serveFrame p (code :: n :: l) s = serve p code n (frameReply p code l) s := by
  unfold serveFrame
  dsimp only
  rw [if_neg h]

theorem payloadLength_request {c : Instr} {p : Port} {n code : Byte} (h : requestOf c = some (p, n, code)) (hc : code ∈ catalogue)
    (hw : wellFormed c = true) : (requestPayload c).length = payloadLength code := by
  cases c
  case unknownRequest =>
    cases h
    exact absurd hc (by simpa [wellFormed] using hw)
  case writeStore =>
    cases h
    simp [requestPayload, le16]
    rfl
  all_goals cases h
  all_goals rfl

/-- Settles O24: the byte that completes a frame serves it as its request's command does. -/
theorem aCompletedFrameIsItsRequest : Obligations.ACompletedFrameIsItsRequest := fun p n code lo hi payload s hup hrx htime hcrc => by
  dsimp only
  generalize htaken : s.setPort p { s.port p with rx := .hunting, rxTick := s.tick } = taken
  have hbyte : portByte (s.port p) s.tick hi false = (.hunting, .frame (code :: n :: payload)) := by
    have hcrc' : crc16 (byteOf (code :: n :: payload).length :: code :: n :: payload) = wordOf lo hi := by
      rw [show (code :: n :: payload).length = 2 + payload.length by simp; omega, wordOf, hcrc]
    rw [portByte_intime hi (lateByte_intime htime), hrx, rxByte, judgeFrame, if_pos hcrc']
  have hup' : taken.resetLow = false := by
    rw [← htaken]
    exact hup
  have hexec : exec (.byteReceived p hi false) s = live taken (serveFrame p (code :: n :: payload)) := by
    rw [live_up taken _ hup', ← htaken]
    refine (live_up s _ hup).trans (congrArg _ ?_)
    rw [receiveByte]
    dsimp only
    rw [hbyte]
  have htakes : TakesFrame s p → TakesFrame taken p := fun ⟨h1, h2, h3⟩ => by
    subst htaken
    refine ⟨h1, ?_, ?_⟩
    · rw [State.setPort_port_self]
      exact h2
    · rw [State.setPort_port_self]
      exact h3
  refine ⟨fun c h hw hp => ⟨fun hc => ?_, ?_⟩, fun ht hc => ?_, fun ht hc hl => ?_⟩
  · rw [← hp]
    exact payloadLength_request h hc hw
  · rw [hexec]
    subst hp
    by_cases hc : code = codeWriteStore
    · subst hc
      obtain ⟨offset, bytes, rfl⟩ := writeStore_of_code h hw
      exact congrArg (live taken) (funext (serveFrame_writeStore p n offset bytes))
    · rw [exec_request h hw hc]
      exact congrArg (live taken) (funext (serveFrame_request hc p n _))
  · have hw : code ≠ codeWriteStore := fun h => hc (h ▸ by decide)
    rw [hexec, funext (serveFrame_request hw p n payload)]
    exact serve_refuses (htakes ht) code n (frameReply_unknown hc payload _)
  · rw [hexec]
    by_cases hw : code = codeWriteStore
    · subst hw
      rw [funext (serveFrame_writeStore_length p n hl)]
      exact serve_refuses (htakes ht) _ n rfl
    · rw [funext (serveFrame_request hw p n payload)]
      exact serve_refuses (htakes ht) code n (frameReply_length hc hw hl _)

end Sys2Proof.Machine
end

