-- ==== Sys2Proof/Proofs/Queues.lean ====
section
/-! PROOFS. The notice queue's requests and the age timer (R178 to R181), and the store's requests (R186). -/

namespace Sys2Proof.Machine

open Sys2Proof

theorem issue_setPort (p : Port) (r : Response) (u v : PortUnit) (s : State) :
    issue p r ((s.setPort p u).setPort p v) = s.setPort p { v with tx := v.tx ++ [r] } := by
  simp [issue, State.setPort, State.port]

theorem setPort_onlyPorts (p : Port) (u : PortUnit) (s : State) : OnlyPortsDiffer s (s.setPort p u) :=
  ⟨⟨rfl, rfl, rfl, rfl, rfl, rfl, rfl, rfl, rfl, rfl⟩, ⟨rfl, rfl, rfl, rfl⟩, rfl, rfl, rfl, rfl⟩

/-- An accepted request that only its port answers. -/
theorem serve_setPort {p : Port} {s : State} (h : TakesFrame s p) (code n : Byte) {reply : State → Reply} {payload : List Byte}
    {v : PortUnit} (hr : reply (frameTaken p s) = accept payload ((frameTaken p s).setPort p v)) :
    live s (serve p code n reply) = .next (s.setPort p { v with tx := v.tx ++ [⟨code, n, .ok, payload⟩] }) := by
  rw [serve_accepts h code n hr]
  exact congrArg _ (issue_setPort p _ _ v s)

/-- The tick of the oldest notice's age limit has come. -/
def ageDone (now : Tick) (u : PortUnit) : Bool := (ageDue u).any fun e => !Tick.later e now

theorem rearmAge_eq {u : PortUnit} (h : u.line = true → u.ageTimer = none) (now : Tick) :
    rearmAge now u = { u with line := u.line || ageDone now u, ageTimer := if u.line || ageDone now u then none else ageDue u } := by
  unfold rearmAge ageDone
  split
  next hline =>
    obtain ⟨⟩ := u
    simp_all
  next hline =>
    rw [Bool.not_eq_true] at hline
    simp only [hline, Bool.false_or]
    split
    next hnone =>
      rw [hnone]
      obtain ⟨⟩ := u
      simp_all
    next due hdue =>
      rw [hdue]
      cases hl : Tick.later due now <;> simp [hl]

theorem frameTaken_tick (p : Port) (s : State) : (frameTaken p s).tick = s.tick := rfl

theorem ageTimer_of_line {u : PortUnit} (h : PortOk u) (hline : u.line = true) : u.ageTimer = none := by
  obtain ⟨_, _, htimer, _⟩ := h
  refine Option.not_isSome_iff_eq_none.mp fun k => ?_
  rw [(htimer.mp k).2] at hline
  exact Bool.false_ne_true hline

theorem fetched_eq {u : PortUnit} (h : PortOk u) (now : Tick) (k : Nat) :
    let rest := u.queue.drop k
    let due := rest.head?.map fun x => x.admitted.plus (4 * u.age)
    u.fetched now k = { u with
      queue := rest, overflow := false, line := decide (rest ≠ []) && (u.line || due.any fun e => !Tick.later e now),
      ageTimer := if u.line || due.any fun e => !Tick.later e now then none else due } := by
  unfold PortUnit.fetched
  dsimp only
  split
  next he =>
    rw [List.isEmpty_iff] at he
    rw [he]
    simp
  next he =>
    rw [List.isEmpty_iff] at he
    have htimer := ageTimer_of_line h
    refine (rearmAge_eq (u := { u with queue := u.queue.drop k, overflow := false }) htimer now).trans ?_
    rw [decide_eq_true he, Bool.true_and]
    rfl

theorem coalesced_eq {u : PortUnit} (h : PortOk u) (now : Tick) (threshold age : Nat) :
    let due := u.queue.head?.map fun x => x.admitted.plus (4 * age)
    let v := u.coalesced now threshold age
    v = { u with threshold := threshold, age := age, line := v.line, ageTimer := if v.line then none else due } ∧
      (v.line = true ↔ u.line = true ∨ (u.queue ≠ [] ∧ threshold ≤ u.queue.length) ∨ ∃ e ∈ due, Tick.later e now = false) := by
  unfold PortUnit.coalesced
  dsimp only
  split
  next he =>
    rw [List.isEmpty_iff] at he
    obtain ⟨_, hline, htimer, _⟩ := h
    have hl : u.line = false := Bool.eq_false_iff.mpr fun k => hline k he
    have ht : u.ageTimer = none := Option.not_isSome_iff_eq_none.mp fun k => (htimer.mp k).1 he
    obtain ⟨⟩ := u
    simp_all
  next he =>
    rw [List.isEmpty_iff] at he
    split
    next hc =>
      rw [Bool.and_eq_true, decide_eq_true_iff] at hc
      exact ⟨by simp, by simp [he, hc.2]⟩
    next hc =>
      have htimer := ageTimer_of_line h
      rw [rearmAge_eq (u := { u with threshold := threshold, age := age }) htimer now]
      refine ⟨rfl, ?_⟩
      rw [Bool.and_eq_true, decide_eq_true_iff, Bool.not_eq_true'] at hc
      rw [Bool.or_eq_true, ageDone, Option.any_eq_true]
      have hdue : ageDue { u with threshold := threshold, age := age } = u.queue.head?.map fun x => x.admitted.plus (4 * age) := rfl
      simp only [hdue, Bool.not_eq_true']
      refine ⟨fun k => k.imp_right .inr, fun k => k.elim .inl fun k => k.elim (fun k => .inl ?_) .inr⟩
      exact (Bool.not_eq_false _).mp fun hline => hc ⟨hline, k.2⟩

theorem fetchNoticesReply_eq {p : Port} {s : State} (h : s.isRunning = true) (count : Byte) :
    fetchNoticesReply p count s = accept (flagByte (s.port p).overflow :: byteOf ((s.port p).queue.length - clamp 1 8 count.toNat) ::
        byteOf ((s.port p).queue.take (clamp 1 8 count.toNat)).length :: ((s.port p).queue.take (clamp 1 8 count.toNat)).flatMap noticeBytes)
      (s.setPort p ((s.port p).fetched s.tick (clamp 1 8 count.toNat))) := by
  unfold fetchNoticesReply
  rw [if_neg (by simp [h])]
  simp only [listField, List.length_map, List.flatMap_def]
  rfl

theorem setSubscriptionReply_eq {p : Port} {s : State} (h : s.isRunning = true) (mask : Byte) :
    setSubscriptionReply p mask s = accept [mask] (s.setPort p { s.port p with subscription := mask }) := by
  rw [setSubscriptionReply, if_neg (by simp [h])]

theorem setCoalescingReply_eq {p : Port} {s : State} (h : s.isRunning = true) {threshold : Byte} {age : Word16}
    (hrange : 1 ≤ threshold.toNat ∧ threshold.toNat ≤ 32 ∧ 10 ≤ age.toNat ∧ age.toNat ≤ 5000) :
    let u := (s.port p).coalesced s.tick threshold.toNat age.toNat
    setCoalescingReply p threshold age s =
      accept (le8 u.threshold ++ leNat16 u.age ++ le8 u.queue.length ++ leFlag u.line) (s.setPort p u) := by
  dsimp only
  rw [setCoalescingReply, if_neg (by omega), if_neg (by simp [h])]

/-- Settles O27: each request is its function of the port's record, which depends on that record alone. -/
theorem noticeQueueRequestsActOnTheirPort : Obligations.NoticeQueueRequestsActOnTheirPort := by
  intro p n count mask threshold age s ⟨hup, hrun⟩ ht hports
  have hok : PortOk { s.port p with rx := .hunting } := hports p
  have hrun' : (frameTaken p s).isRunning = true := hrun
  refine ⟨⟨_, serve_setPort ht codeFetchNotices n (fetchNoticesReply_eq hrun' count), setPort_onlyPorts p _ s,
      fun q hq => s.setPort_port_ne p q _ hq, ?_⟩, ?_, fun h1 h2 h3 h4 => ?_, fun h => ?_⟩
  · have he := fetched_eq hok s.tick (clamp 1 8 count.toNat)
    rw [State.setPort_port_self, frameTaken_port, frameTaken_tick, he]
    rfl
  · refine (serve_setPort ht codeSetSubscription n (setSubscriptionReply_eq hrun' mask)).trans ?_
    rw [frameTaken_port]
    simp [State.answered, State.setPort, State.port]
  · obtain ⟨he, hline⟩ := coalesced_eq hok s.tick threshold.toNat age.toNat
    have hreply := setCoalescingReply_eq (p := p) hrun' ⟨h1, h2, h3, h4⟩
    rw [frameTaken_port, frameTaken_tick] at hreply
    generalize PortUnit.coalesced s.tick threshold.toNat age.toNat { s.port p with rx := .hunting } = v at he hline hreply
    refine ⟨_, serve_setPort ht codeSetCoalescing n hreply, setPort_onlyPorts p _ s,
      fun q hq => s.setPort_port_ne p q _ hq, ?_⟩
    rw [State.setPort_port_self]
    obtain ⟨line, timer, rfl⟩ : ∃ line timer, v = { s.port p with
      rx := .hunting, threshold := threshold.toNat, age := age.toNat, line := line, ageTimer := timer } := ⟨_, _, he⟩
    refine ⟨⟨?_, hline⟩, ?_⟩
    · have htimer := congrArg PortUnit.ageTimer he
      dsimp only at htimer ⊢
      rw [htimer]
    · simp [le8, leNat16, leFlag, byteOf]
  · have hexec : exec (.ageTimerExpiry p) s = .next (ageExpires p s) := live_up s _ hup
    rw [hexec, ageExpires, expiresNow, decide_eq_true h, if_pos rfl]

/-! ### The store (R186) -/

theorem storeUnready_iff (s : State) : storeUnready s = true ↔ s.loader.state = .loading ∨ s.loader.write.isSome = true := by
  rw [storeUnready, Bool.or_eq_true, decide_eq_true_iff]
  rfl

theorem TakesFrame.notDropped {p : Port} {s : State} (h : TakesFrame s p) : frameDropped (s.port p) = false := by
  obtain ⟨_, hwaiting, hlen⟩ := h
  refine Bool.eq_false_iff.mpr fun k => ?_
  rw [frameDropped_iff, hwaiting] at k
  simp at k
  omega

theorem serveWriteStore_refuses {p : Port} {s : State} (h : TakesFrame s p) (n : Byte) {offset : Word16} (bytes : Vector Byte 32)
    {r : Result} (hr : writeStoreRefusal p offset (frameTaken p s) = some r) :
    serveWriteStore p n offset bytes s = s.answered p ⟨codeWriteStore, n, r, []⟩ := by
  have ⟨_, hwaiting, _⟩ := h
  rw [serveWriteStore, frameTaken_dropped, frameTaken_waiting, if_neg (by rw [h.notDropped]; decide),
    if_neg (by simp [hwaiting]), hr]
  exact issue_frameTaken p _ s

theorem serveWriteStore_begins {p : Port} {s : State} (h : TakesFrame s p) (n : Byte) {offset : Word16} (bytes : Vector Byte 32)
    (hr : writeStoreRefusal p offset (frameTaken p s) = none) :
    serveWriteStore p n offset bytes s = beginStoreWrite p n offset bytes (frameTaken p s) := by
  have ⟨_, hwaiting, _⟩ := h
  rw [serveWriteStore, frameTaken_dropped, frameTaken_waiting, if_neg (by rw [h.notDropped]; decide),
    if_neg (by simp [hwaiting]), hr]

section
variable {s : State} {offset : Word16}

theorem writeStoreRefusal_key (hk : s.keyClosed = false) : writeStoreRefusal .sv offset s = some .key := by
  rw [writeStoreRefusal, if_neg (by decide), if_pos (by rw [hk]; rfl)]

theorem writeStoreRefusal_range (hk : s.keyClosed = true) (h : 4064 < offset.toNat ∨ offset.toNat % 32 ≠ 0) :
    writeStoreRefusal .sv offset s = some .range := by
  rw [writeStoreRefusal, if_neg (by decide), if_neg (by rw [hk]; decide), if_pos h]

theorem writeStoreRefusal_busy (hk : s.keyClosed = true) (h : ¬(4064 < offset.toNat ∨ offset.toNat % 32 ≠ 0))
    (hb : storeUnready s = true) : writeStoreRefusal .sv offset s = some .busy := by
  rw [writeStoreRefusal, if_neg (by decide), if_neg (by rw [hk]; decide), if_neg h, if_pos hb]

theorem writeStoreRefusal_ready (hk : s.keyClosed = true) (h : ¬(4064 < offset.toNat ∨ offset.toNat % 32 ≠ 0))
    (hb : storeUnready s = false) : writeStoreRefusal .sv offset s = none := by
  rw [writeStoreRefusal, if_neg (by decide), if_neg (by rw [hk]; decide), if_neg h, if_neg (by rw [hb]; decide)]

theorem readStoreReply_range (h : 4064 < offset.toNat) : readStoreReply offset s = refuse .range s := by
  rw [readStoreReply, if_pos h]

theorem readStoreReply_busy (h : offset.toNat ≤ 4064) (hb : storeUnready s = true) : readStoreReply offset s = refuse .busy s := by
  rw [readStoreReply, if_neg (by omega), if_pos hb]

theorem readStoreReply_ready (h : offset.toNat ≤ 4064) (hb : storeUnready s = false) :
    readStoreReply offset s = accept (le16 offset ++ readBytes s.store offset.toNat 32) s := by
  rw [readStoreReply, if_neg (by omega), if_neg (by rw [hb]; decide)]

end

/-- The completion of a store write, where SV's request is pending (R186). -/
theorem completeStoreWrite_eq {s : State} {w : StoreWrite} {q : PendingRequest} (hw : s.loader.write = some w) (hdue : w.due = s.tick)
    (hq : (s.port .sv).waiting = some q) (held : Vector Byte 32) :
    completeStoreWrite held s =
      { s.setPort .sv { s.port .sv with
          waiting := none,
          tx := (s.port .sv).tx ++ [⟨q.code, q.number, .ok, leNat16 w.offset.toNat ++ [if held = w.bytes then 0 else 1]⟩] } with
        loader := { s.loader with write := none }, store := writeBytes s.store w.offset.toNat held.toList } := by
  have hq' : (((s.putPage w.offset held).setLoader { s.loader with write := none }).port .sv).waiting = some q := hq
  rw [completeStoreWrite, hw]
  dsimp only
  rw [if_pos hdue, issueWritten, hq']
  dsimp only
  by_cases h : held = w.bytes
  all_goals simp [h, issue, State.setPort, State.port, State.putPage, State.setLoader, leFlag, flagByte]

/-- Settles O59: the first check that a WRITE_STORE fails, the write that is begun, and the run of bytes at its end. -/
theorem storeWritesFillOnePage : Obligations.StoreWritesFillOnePage := by
  intro n offset bytes held a s hup ⟨hwf, hinside, _⟩
  have served {t : State} (h : serveWriteStore .sv n offset bytes s = t) : exec (.writeStore .sv n offset bytes) s = .next t :=
    (live_up s _ hup).trans (congrArg _ h)
  have refused {r : Result} (ht : TakesFrame s .sv) (hr : writeStoreRefusal .sv offset (frameTaken .sv s) = some r) :=
    served (serveWriteStore_refuses ht n bytes hr)
  refine ⟨fun ht hk h1 h2 hl hw => ?_, fun ht hk => refused ht (writeStoreRefusal_key hk),
    fun ht hk h => refused ht (writeStoreRefusal_range hk h),
    fun ht hk h1 h2 h => refused ht (writeStoreRefusal_busy hk (by omega) ((storeUnready_iff s).mpr h)),
    fun p ht => ⟨fun h => ?_, fun h1 h => ?_⟩, fun w hw hdue q hq => ?_⟩
  · have hready : storeUnready s = false := Bool.eq_false_iff.mpr fun k => by
      rw [storeUnready_iff, hw] at k
      exact k.elim hl nofun
    rw [served (serveWriteStore_begins ht n bytes (writeStoreRefusal_ready hk (by omega) hready))]
    simp [beginStoreWrite, frameTaken, State.setPort, State.port, State.setLoader, State.after]
  · exact serve_refuses ht codeReadStore n (readStoreReply_range h)
  · exact serve_refuses ht codeReadStore n (readStoreReply_busy h1 ((storeUnready_iff s).mpr h))
  · have hfits : w.offset.toNat + held.toList.length ≤ 4096 := by
      have := hinside w hw
      rw [Vector.length_toList]
      omega
    refine ⟨_, (live_up s _ hup).trans (congrArg _ (completeStoreWrite_eq hw hdue hq held)), rfl, fun ha => ?_, fun i => ?_⟩
    · exact readCell_writeBytes_outside _ _ _ _ hwf hfits (by rwa [Vector.length_toList])
    · rw [readCell_writeBytes_inside _ _ _ i.val hwf hfits (by rw [Vector.length_toList]; exact i.isLt)]
      rfl

end Sys2Proof.Machine
end

