-- ==== Sys2Proof/Proofs/Judgments.lean ====
section
/-! PROOFS. The checks of a request, place by place (R174): what each reply is for its operands, the port, the key and the state. -/

namespace Sys2Proof.Machine

open Sys2Proof

/-! ### Judgments -/

/-- A request passes the checks of places 3 to 5. -/
structure Passes (c : Instr) (s : State) : Prop where
  denied : deniedTo c = false
  key : needsKey c = true → s.keyClosed = true
  range : operandsInRange s c = true

/-- A reply is the one that the first failing check of R174 gives: a refusal that changes nothing, or the acceptance. -/
inductive Judged (c : Instr) (s : State) : Reply → Prop
  | denied (payload : List Byte) (h : deniedTo c = true) : Judged c s (refuseWith .denied payload s)
  | key (payload : List Byte) (hd : deniedTo c = false) (hk : needsKey c = true) (h : s.keyClosed = false) :
    Judged c s (refuseWith .key payload s)
  | range (payload : List Byte) (hd : deniedTo c = false) (hk : needsKey c = true → s.keyClosed = true)
      (h : operandsInRange s c = false) : Judged c s (refuseWith .range payload s)
  | idle (payload : List Byte) (r : Result) (h : Passes c s) (hrun : s.isRunning = false) (hr : r ≠ .ok)
      (hq : servedInEveryState c = false → QuietOk s → r = if tagsAgree s c then .notNow else .stale) :
    Judged c s (refuseWith r payload s)
  | stale (payload : List Byte) (h : Passes c s) (ht : tagsAgree s c = false) : Judged c s (refuseWith .stale payload s)
  | barred (payload : List Byte) (r : Result) (h : Passes c s) (hrun : s.isRunning = true ∨ servedInEveryState c = true)
      (hr : r ≠ .ok) (ht : tagsAgree s c = true) (hb : barred s c = some r) : Judged c s (refuseWith r payload s)
  | accepted (payload : List Byte) (t : State) (h : Passes c s) (hrun : s.isRunning = true ∨ servedInEveryState c = true)
      (ht : tagsAgree s c = true) (hb : barred s c = none) : Judged c s (accept payload t)

theorem idle_of_not {s : State} (h : (!s.isRunning) = true) : s.isRunning = false := (Bool.not_eq_true' _).mp h

section
variable {c : Instr} {s : State}

/-- A request without a tag that only RUNNING keeps from being served. -/
theorem Judged.notNow (payload : List Byte) (h : Passes c s) (hrun : s.isRunning = false) (ht : tagsAgree s c = true) :
    Judged c s (refuseWith .notNow payload s) := .idle payload .notNow h hrun (by decide) fun _ _ => by rw [ht]; rfl

/-- A read where the part is RUNNING. -/
theorem Judged.read {r : Reply} (h : Passes c s) (ht : tagsAgree s c = true) (hb : Machine.barred s c = none)
    (hr : ∃ payload, r = if s.isRunning then accept payload s else refuse .notNow s) : Judged c s r := by
  obtain ⟨payload, rfl⟩ := hr
  split
  next hrun => exact .accepted _ _ h (.inl hrun) ht hb
  next hrun => exact .notNow _ h (Bool.eq_false_iff.mpr hrun) ht

/-- A refusal NOT_NOW whose rule takes in that the part is not RUNNING. -/
theorem Judged.notNowOr (payload : List Byte) {P : Prop} (h : Passes c s) (ht : tagsAgree s c = true)
    (hP : s.isRunning = false ∨ P) (hb : P → Machine.barred s c = some .notNow) : Judged c s (refuseWith .notNow payload s) := by
  by_cases hrun : s.isRunning = true
  · exact .barred _ _ h (.inl hrun) (by decide) ht (hb (hP.resolve_left (by rw [hrun]; decide)))
  · exact .notNow _ h (Bool.eq_false_iff.mpr hrun) ht

theorem running_of_free {P : Prop} (h : ¬(s.isRunning = false ∨ P)) : s.isRunning = true :=
  (Bool.not_eq_false _).mp fun k => h (.inl k)

/-! ### Operands -/

theorem indexBelow_cases (n : Nat) (b : Byte) :
    (indexBelow n b = none ∧ ¬b.toNat < n) ∨ ∃ i : Fin n, indexBelow n b = some i ∧ b.toNat = i.val := by
  unfold indexBelow
  split
  next h => exact .inr ⟨_, rfl, rfl⟩
  next h => exact .inl ⟨rfl, h⟩

theorem ductOperand_cases (b : Byte) :
    (ductOperand b = none ∧ ¬(1 ≤ b.toNat ∧ b.toNat ≤ 4)) ∨ ∃ d : Fin 4, ductOperand b = some d ∧ b.toNat = d.val + 1 := by
  unfold ductOperand
  split
  next h => exact .inr ⟨_, rfl, by simp; omega⟩
  next h => exact .inl ⟨rfl, h⟩

theorem exists_index_iff {n : Nat} {b : Byte} {i : Fin n} (h : b.toNat = i.val) (P : Fin n → Prop) :
    (∃ j : Fin n, b.toNat = j.val ∧ P j) ↔ P i :=
  ⟨fun ⟨_, hj, hP⟩ => Fin.ext (hj.symm.trans h) ▸ hP, fun hP => ⟨i, h, hP⟩⟩

theorem exists_duct_iff {b : Byte} {d : Fin 4} (h : b.toNat = d.val + 1) (P : Fin 4 → Prop) :
    (∃ e : Fin 4, b.toNat = e.val + 1 ∧ P e) ↔ P d :=
  ⟨fun ⟨_, he, hP⟩ => Fin.ext (Nat.succ.inj (he.symm.trans h)) ▸ hP, fun hP => ⟨d, h, hP⟩⟩

theorem tagsAgree_zone {z : Byte} {i : Fin 16} (h : z.toNat = i.val) (tag : Word16) :
    ((List.finRange 16).all fun j => decide (z.toNat ≠ j.val) || decide (tag = (s.zone j).tag)) = decide (tag = (s.zone i).tag) := by
  rw [Bool.eq_iff_iff, List.all_eq_true, decide_eq_true_iff]
  refine ⟨fun k => ?_, fun k j _ => ?_⟩
  · simpa [h] using k i (List.mem_finRange i)
  · by_cases hj : i = j
    · subst hj
      simp [k]
    · have : z.toNat ≠ j.val := fun e => hj (Fin.ext (h.symm.trans e))
      simp [this]

theorem asserted_ne_fire (x : Ctl) : x.asserted ≠ .fire ↔ ∀ y ∈ x.stop, y.level ≠ .fire := by
  unfold Ctl.asserted
  split
  next y hy => simp [hy]
  next hy => simp [hy]

theorem resetDenied_iff {p : Port} (hp : p ≠ .sv) (x : Ctl) :
    resetDenied p x = true ↔ p = .pc ∧ x.state = .stopped ∧ ∃ y ∈ x.stop, y.kind = .fire := by
  cases p with
  | fp => simp [resetDenied]
  | sv => exact absurd rfl hp
  | pc =>
    unfold resetDenied
    dsimp only
    split
    next y hy => simp [hy]
    next hy => simp [hy]

theorem level_atLeast_alarm (l : Level) : l.atLeast .alarm = true ↔ l = .alarm ∨ l = .fire := by cases l <;> decide

end

/-! ### What the state of the part forbids -/

theorem resetZoneForbidden_iff (s : State) (z : Fin 16) : (!s.isRunning || !(s.zone z).latch || fireCause (s.zone z)) = true ↔
    s.isRunning = false ∨ (s.zone z).latch = false ∨ ∃ k : Fin 13, (s.zone z).causes[k] = .fire := by
  rw [Bool.or_eq_true, Bool.or_eq_true, Bool.not_eq_true', Bool.not_eq_true', fireCause, decide_eq_true_iff, causesLevel_fire, or_assoc]

theorem startForbidden_iff (s : State) (d : Fin 4) : startForbidden s d = true ↔
    s.isRunning = false ∨ (s.ctl d).state ≠ .offline ∨ (s.zone (ductZone d)).level = .alarm ∨ (s.zone (ductZone d)).level = .fire ∨
      ∃ z : Fin 16, zoneIn (s.ductCfg d).served z = true ∧ (s.zone z).level = .fire := by
  rw [startForbidden, Bool.or_eq_true, Bool.or_eq_true, Bool.or_eq_true, Bool.not_eq_true', decide_eq_true_iff, level_atLeast_alarm,
    List.any_eq_true]
  simp only [List.mem_finRange, true_and, Bool.and_eq_true, decide_eq_true_eq, or_assoc]

theorem resetForbidden_iff (s : State) (d : Fin 4) : resetForbidden s d = true ↔
    s.isRunning = false ∨ (s.ctl d).state ≠ .stopped ∨ (s.ctl d).listMark = true ∨
      ((s.zone (ductZone d)).latch = true ∧ ∀ x ∈ (s.ctl d).stop, x.level ≠ .fire) := by
  rw [resetForbidden]
  rw [Bool.or_eq_true, Bool.or_eq_true, Bool.or_eq_true, Bool.not_eq_true', Bool.and_eq_true, decide_eq_true_iff,
    decide_eq_true_iff, asserted_ne_fire, or_assoc, or_assoc]

theorem isolateTarget_none (x : Channel) : isolateTarget x = none ↔ x.state = .unused := by
  unfold isolateTarget
  split <;> simp_all

theorem restoreTarget_none (x : Channel) : restoreTarget x = none ↔ x.state ≠ .isolated := by
  unfold restoreTarget
  split <;> simp_all

theorem clearTarget_none (x : Channel) :
    clearTarget x = none ↔ (x.state ≠ .fault .stuck ∧ x.state ≠ .fault .dead) ∨ x.clean ≠ 400 := by
  unfold clearTarget
  split
  next k h => cases k <;> split <;> simp_all
  all_goals simp_all

theorem testForbidden_iff (s : State) (d : Fin 4) (v : Fin 2) :
    (!s.isRunning || (s.duct d).ctl.state.refusesTest || !(s.duct d).tracks.isEmpty || !(s.valveCfg d v).installed ||
        (s.duct d).test.isSome) = true ↔
      s.isRunning = false ∨ ((s.ctl d).state ≠ .offline ∧ (s.ctl d).state ≠ .stopped) ∨ (s.duct d).tracks ≠ [] ∨
        (s.valveCfg d v).installed = false ∨ (s.duct d).test.isSome = true := by
  have hstate : (s.duct d).ctl.state.refusesTest = true ↔ (s.ctl d).state ≠ .offline ∧ (s.ctl d).state ≠ .stopped := by
    show (s.ctl d).state.refusesTest = true ↔ _
    cases (s.ctl d).state <;> simp [DuctState.refusesTest]
  simp only [Bool.or_eq_true, Bool.not_eq_true', hstate, List.isEmpty_eq_false_iff, or_assoc]

theorem doorZoneCondition_iff (s : State) (i : Fin 12) : doorZoneCondition s i = true ↔
    ∃ z : Fin 16, zoneIn s.cfg.doors[i].zones z = true ∧
      ((s.zone z).level = .fire ∨ (s.cfg.doors[i].closeOnAlarm = true ∧ (s.zone z).level = .alarm)) := by
  rw [doorZoneCondition, zoneCondition, List.any_eq_true]
  simp only [List.mem_finRange, true_and, Bool.and_eq_true, Bool.or_eq_true, decide_eq_true_eq, level_atLeast_alarm]
  refine exists_congr fun z => and_congr_right fun _ => ?_
  tauto

theorem holdable_eq_false (x : Door) : x.holdable = false ↔ x.state = .closing ∨ x.state = .stuck ∨
    (x.state = .releaseWait ∧ x.cause ≠ some .holdExpired ∧ x.cause ≠ some .holdWithdrawn ∧ x.cause ≠ some .closeRequest) := by
  unfold Door.holdable
  split
  next h => simp [h]
  next h => simp [h]
  next h => split <;> simp_all
  next h => simp [h]
  next h => simp [h]

theorem holdForbidden_iff (s : State) (i : Fin 12) : (!s.isRunning || doorZoneCondition s i || !(s.door i).holdable) = true ↔
    s.isRunning = false ∨ (∃ z : Fin 16, zoneIn s.cfg.doors[i].zones z = true ∧
        ((s.zone z).level = .fire ∨ (s.cfg.doors[i].closeOnAlarm = true ∧ (s.zone z).level = .alarm))) ∨
      (s.door i).state = .closing ∨ (s.door i).state = .stuck ∨
      ((s.door i).state = .releaseWait ∧ (s.door i).cause ≠ some .holdExpired ∧ (s.door i).cause ≠ some .holdWithdrawn ∧
        (s.door i).cause ≠ some .closeRequest) := by
  rw [Bool.or_eq_true, Bool.or_eq_true, Bool.not_eq_true', Bool.not_eq_true', doorZoneCondition_iff, holdable_eq_false, or_assoc]

theorem Door.hold_eq {p : Port} (hp : p ≠ .sv) (x : Door) : x.hold p = if p = .fp then x.holdFp else x.holdPc := by
  cases p
  · rfl
  · rfl
  · exact absurd rfl hp

theorem soundable_none (p : Port) (n mask pattern : Byte) (w : Word16) :
    soundable p pattern = none ↔ deniedTo (.soundSiren p n mask pattern w) = true := by
  cases p
  all_goals simp only [soundable, deniedTo]
  all_goals repeat' split
  all_goals simp_all

theorem Siren.manual_eq {p : Port} (hp : p ≠ .sv) (x : Siren) : x.manual p = if p = .fp then x.manualFp else x.manualPc := by
  cases p
  · rfl
  · rfl
  · exact absurd rfl hp

theorem stopSound_noData_iff {p : Port} (hp : p ≠ .sv) (s : State) (mask : Byte) :
    ¬((List.finRange 8).any fun i => sirenIn mask i && (s.arbiter.sirens[i].manual p).isSome) = true ↔
      ∀ i : Fin 8, mask.getLsbD i.val = true →
        (if p = .fp then s.arbiter.sirens[i].manualFp else s.arbiter.sirens[i].manualPc) = none := by
  rw [List.any_eq_true, not_exists]
  refine forall_congr' fun i => ?_
  rw [← Siren.manual_eq hp, Bool.and_eq_true, sirenIn, ← Option.not_isSome_iff_eq_none]
  simp [List.mem_finRange]

theorem testSirensForbidden_iff (s : State) : (!s.isRunning || viewAlarmed s.arbiter) = true ↔
    s.isRunning = false ∨ ∃ z : Fin 16, s.arbiter.view[z].level = .alarm ∨ s.arbiter.view[z].level = .fire := by
  rw [Bool.or_eq_true, Bool.not_eq_true', viewAlarmed, List.any_eq_true]
  refine or_congr_right (exists_congr fun z => ?_)
  rw [level_atLeast_alarm, and_iff_right (List.mem_finRange z)]

theorem layoutRange_iff (s : State) (p : Port) (n l pre : Byte) (post : Word16) :
    operandsInRange s (.setCaptureLayout p n l pre post) = true ↔
      ∃ i : Fin 3, layoutOperand l = some i ∧ layoutFits i pre.toNat post.toNat = true := by
  have hl (k : Byte) : l = k ↔ l.toNat = k.toNat := BitVec.toNat_inj.symm
  simp only [operandsInRange, Bool.and_eq_true, Bool.or_eq_true, decide_eq_true_eq, hl]
  obtain ⟨ho, hout⟩ | ⟨i, ho, hi⟩ := indexBelow_cases 3 l
  · rw [layoutOperand, ho]
    simp
    omega
  · rw [layoutOperand, ho]
    simp only [Option.some.injEq, exists_eq_left', layoutFits, Bool.and_eq_true, decide_eq_true_eq, hi]
    fin_cases i
    all_goals simp [blockSize, and_assoc]

theorem restartForbidden_iff (s : State) : restartForbidden s = true ↔
    (∃ z : Fin 16, (s.zone z).level = .fire) ∨ ∃ d : Fin 4, (s.ctl d).state ≠ .offline ∧ (s.ctl d).state ≠ .stopped := by
  rw [restartForbidden, Bool.or_eq_true, List.any_eq_true, List.any_eq_true]
  simp only [List.mem_finRange, true_and, Bool.and_eq_true, decide_eq_true_eq]

section
variable {p : Port} {n : Byte} {s : State}

/-! ### Zone requests -/

theorem readIdentReply_judged : Judged (.readIdent p n) s (readIdentReply s) :=
  .accepted _ _ ⟨rfl, nofun, rfl⟩ (.inr rfl) rfl rfl

theorem readZonesReply_judged (z : Byte) : Judged (.readZones p n z) s (readZonesReply z s) := by
  unfold readZonesReply
  split
  next h => exact .read ⟨rfl, nofun, by simp [operandsInRange, h]⟩ rfl rfl ⟨_, rfl⟩
  next h =>
    obtain ⟨ho, hout⟩ | ⟨i, ho, hi⟩ := indexBelow_cases 16 z
    · rw [zoneOperand, ho]
      exact .range _ rfl nofun (by simp only [operandsInRange, decide_eq_false hout, decide_eq_false h, Bool.or_false])
    · rw [zoneOperand, ho]
      exact .read ⟨rfl, nofun, by simp [operandsInRange, hi]⟩ rfl rfl ⟨_, rfl⟩

theorem ackZoneReply_judged (z : Byte) (tag : Word16) : Judged (.ackZone p n z tag) s (ackZoneReply p z tag s) := by
  unfold ackZoneReply
  split
  next hp => exact .denied _ (decide_eq_true hp)
  next hp =>
    obtain ⟨ho, hout⟩ | ⟨i, ho, hi⟩ := indexBelow_cases 16 z
    · rw [zoneOperand, ho]
      exact .range _ (decide_eq_false hp) nofun (decide_eq_false hout)
    · rw [zoneOperand, ho]
      dsimp only
      have pass : Passes (.ackZone p n z tag) s := ⟨decide_eq_false hp, nofun, decide_eq_true (hi ▸ i.isLt)⟩
      have htags := tagsAgree_zone (s := s) hi tag
      split
      next htag => exact .stale _ pass (htags.trans (decide_eq_false htag))
      next htag =>
        have hagree := htags.trans (decide_eq_true (not_not.mp htag))
        split
        next hrun => exact .notNow _ pass (idle_of_not hrun) hagree
        next hrun => exact .accepted _ _ pass (.inl (running_of_not hrun)) hagree rfl

theorem resetZoneReply_judged (z : Byte) (tag : Word16) : Judged (.resetZone p n z tag) s (resetZoneReply p z tag s) := by
  unfold resetZoneReply
  split
  next hp => exact .denied _ (decide_eq_true hp)
  next hp =>
    obtain ⟨ho, hout⟩ | ⟨i, ho, hi⟩ := indexBelow_cases 16 z
    · rw [zoneOperand, ho]
      exact .range _ (decide_eq_false hp) nofun (decide_eq_false hout)
    · rw [zoneOperand, ho]
      dsimp only
      have pass : Passes (.resetZone p n z tag) s := ⟨decide_eq_false hp, nofun, decide_eq_true (hi ▸ i.isLt)⟩
      have htags := tagsAgree_zone (s := s) hi tag
      have hbar := exists_index_iff hi fun j => (s.zone j).latch = false ∨ ∃ k : Fin 13, (s.zone j).causes[k] = .fire
      have hforbidden : (!s.isRunning || !(s.zone i).latch || fireCause (s.zone i)) = true ↔ s.isRunning = false ∨ _ :=
        (resetZoneForbidden_iff s i).trans (or_congr_right hbar.symm)
      split
      next htag => exact .stale _ pass (htags.trans (decide_eq_false htag))
      next htag =>
        have hagree := htags.trans (decide_eq_true (not_not.mp htag))
        rw [if_congr hforbidden rfl rfl]
        split
        next h => exact .notNowOr _ pass hagree h fun k => if_pos k
        next h => exact .accepted _ _ pass (.inl (running_of_free h)) hagree (if_neg fun k => h (.inr k))

theorem levelOfNat_eq_some {k : Nat} {l : Level} : levelOfNat k = some l ↔ k = l.num := by
  unfold levelOfNat
  split <;> cases l <;> simp_all [Level.num]

theorem declarable_none (p : Port) (n z l : Byte) : declarable p l = none ↔ deniedTo (.declare p n z l) = true := by
  have hnum (k : Byte) : l = k ↔ l.toNat = k.toNat := BitVec.toNat_inj.symm
  cases hl : levelOfNat l.toNat with
  | none =>
    have hne (v : Level) : l.toNat ≠ v.num := fun h => by simp [levelOfNat_eq_some.mpr h] at hl
    have h1 := hne .watch
    have h2 := hne .alarm
    have h3 := hne .fire
    cases p <;> simp_all [declarable, deniedTo, Level.num]
  | some v =>
    have hv := levelOfNat_eq_some.mp hl
    cases p <;> cases v <;> simp_all [declarable, deniedTo, Level.num]

theorem declareReply_judged (z l : Byte) : Judged (.declare p n z l) s (declareReply p z l s) := by
  have hden := declarable_none p n z l
  unfold declareReply
  split
  next hp => exact .denied _ (hden.mp hp)
  next hp =>
    have hd : deniedTo (.declare p n z l) = false := Bool.eq_false_iff.mpr fun k => by simp [hden.mpr k] at hp
    obtain ⟨ho, hout⟩ | ⟨i, ho, hi⟩ := indexBelow_cases 16 z
    · rw [zoneOperand, ho]
      exact .range _ hd nofun (decide_eq_false hout)
    · rw [zoneOperand, ho]
      dsimp only
      have pass : Passes (.declare p n z l) s := ⟨hd, nofun, decide_eq_true (hi ▸ i.isLt)⟩
      split
      next hrun => exact .notNow _ pass (idle_of_not hrun) rfl
      next hrun => exact .accepted _ _ pass (.inl (running_of_not hrun)) rfl rfl

theorem withdrawReply_judged (z : Byte) : Judged (.withdraw p n z) s (withdrawReply p z s) := by
  unfold withdrawReply
  split
  next hp => exact .denied _ (decide_eq_true hp)
  next hp =>
    obtain ⟨ho, hout⟩ | ⟨i, ho, hi⟩ := indexBelow_cases 16 z
    · rw [zoneOperand, ho]
      exact .range _ (decide_eq_false hp) nofun (decide_eq_false hout)
    · rw [zoneOperand, ho]
      dsimp only
      have pass : Passes (.withdraw p n z) s := ⟨decide_eq_false hp, nofun, decide_eq_true (hi ▸ i.isLt)⟩
      have hbar := exists_index_iff hi fun j => (s.zone j).causes[(CauseKey.declaration p).ix] = .normal
      split
      next hrun => exact .notNow _ pass (idle_of_not hrun) rfl
      next hrun =>
        split
        next h => exact .barred _ _ pass (.inl (running_of_not hrun)) (by decide) rfl (if_pos (hbar.mpr h))
        next h => exact .accepted _ _ pass (.inl (running_of_not hrun)) rfl (if_neg fun k => h (hbar.mp k))

/-! ### Duct requests -/

theorem readDuctReply_judged (d : Byte) : Judged (.readDuct p n d) s (readDuctReply d s) := by
  unfold readDuctReply
  obtain ⟨ho, hout⟩ | ⟨e, ho, he⟩ := ductOperand_cases d
  · rw [ho]
    exact .range _ rfl nofun (decide_eq_false hout)
  · rw [ho]
    exact .read ⟨rfl, nofun, decide_eq_true (by omega)⟩ rfl rfl ⟨_, rfl⟩

theorem startDuctReply_judged (d : Byte) : Judged (.startDuct p n d) s (startDuctReply p d s) := by
  unfold startDuctReply
  obtain ⟨ho, hout⟩ | ⟨e, ho, he⟩ := ductOperand_cases d
  · rw [ho]
    dsimp only
    split
    next hp => exact .denied _ (decide_eq_true hp)
    next hp => exact .range _ (decide_eq_false hp) nofun (decide_eq_false hout)
  · rw [ho]
    dsimp only
    split
    next hp => exact .denied _ (decide_eq_true hp)
    next hp =>
      have pass : Passes (.startDuct p n d) s := ⟨decide_eq_false hp, nofun, decide_eq_true (by omega)⟩
      have hbar := exists_duct_iff he fun e => (s.ctl e).state ≠ .offline ∨ (s.zone (ductZone e)).level = .alarm ∨
        (s.zone (ductZone e)).level = .fire ∨ ∃ z : Fin 16, zoneIn (s.ductCfg e).served z = true ∧ (s.zone z).level = .fire
      rw [if_congr ((startForbidden_iff s e).trans (or_congr_right hbar.symm)) rfl rfl]
      split
      next h => exact .notNowOr _ pass rfl h fun k => if_pos k
      next h => exact .accepted _ _ pass (.inl (running_of_free h)) rfl (if_neg fun k => h (.inr k))

theorem stopDuctReply_judged (d : Byte) : Judged (.stopDuct p n d) s (stopDuctReply p d s) := by
  unfold stopDuctReply
  obtain ⟨ho, hout⟩ | ⟨e, ho, he⟩ := ductOperand_cases d
  · rw [ho]
    dsimp only
    split
    next hp => exact .denied _ (decide_eq_true hp)
    next hp => exact .range _ (decide_eq_false hp) nofun (decide_eq_false hout)
  · rw [ho]
    dsimp only
    split
    next hp => exact .denied _ (decide_eq_true hp)
    next hp =>
      have pass : Passes (.stopDuct p n d) s := ⟨decide_eq_false hp, nofun, decide_eq_true (by omega)⟩
      have hbar := exists_duct_iff he fun e => (s.ctl e).state = .offline ∨ (s.ctl e).state = .stopped
      split
      next hrun => exact .notNow _ pass (idle_of_not hrun) rfl
      next hrun =>
        have hrun := running_of_not hrun
        have going {t : State} (h : ¬((s.ctl e).state = .offline ∨ (s.ctl e).state = .stopped)) (l : List Byte) :
            Judged (.stopDuct p n d) s (accept l t) := .accepted _ _ pass (.inl hrun) rfl (if_neg fun k => h (hbar.mp k))
        have barred (h : (s.ctl e).state = .offline ∨ (s.ctl e).state = .stopped) (l : List Byte) :
            Judged (.stopDuct p n d) s (refuseWith .notNow l s) := .barred _ _ pass (.inl hrun) (by decide) rfl (if_pos (hbar.mpr h))
        split
        next h => exact going (by rw [h]; decide) _
        next h => exact going (by rw [h]; decide) _
        next h => exact going (by rw [h]; decide) _
        next h => exact going (by rw [h]; decide) _
        next h => exact going (by rw [h]; decide) _
        next h => exact barred (.inl h) _
        next h => exact barred (.inr h) _

theorem quiet_ctl (hq : QuietOk s) (hrun : s.isRunning = false) (d : Fin 4) : (s.ctl d).state = .offline := by
  obtain ⟨_, _, _, _, _, hducts, _⟩ := hq hrun
  show (s.ducts[d]).ctl.state = .offline
  rw [hducts]
  revert d
  decide

theorem resetDuctReply_judged (d : Byte) : Judged (.resetDuct p n d) s (resetDuctReply p d s) := by
  unfold resetDuctReply
  obtain ⟨ho, hout⟩ | ⟨e, ho, he⟩ := ductOperand_cases d
  · rw [ho]
    dsimp only
    split
    next hp => exact .denied _ (decide_eq_true hp)
    next hp => exact .range _ (decide_eq_false hp) nofun (decide_eq_false hout)
  · rw [ho]
    dsimp only
    by_cases hp : p = .sv
    · subst hp
      exact .denied _ rfl
    have pass : Passes (.resetDuct p n d) s := ⟨decide_eq_false hp, nofun, decide_eq_true (by omega)⟩
    have hfire := exists_duct_iff he fun e => p = .pc ∧ (s.ctl e).state = .stopped ∧ ∃ x ∈ (s.ctl e).stop, x.kind = .fire
    have hbar := exists_duct_iff he fun e => (s.ctl e).state ≠ .stopped ∨ (s.ctl e).listMark = true ∨
      ((s.zone (ductZone e)).latch = true ∧ ∀ x ∈ (s.ctl e).stop, x.level ≠ .fire)
    have hdenied := (resetDenied_iff hp (s.ctl e)).trans hfire.symm
    split
    next h =>
      by_cases hrun : s.isRunning = true
      · exact .barred _ _ pass (.inl hrun) (by decide) rfl (if_pos (hdenied.mp h))
      · refine .idle _ _ pass (Bool.eq_false_iff.mpr hrun) (by decide) fun _ hq => ?_
        obtain ⟨_, hstopped, _⟩ := (resetDenied_iff hp (s.ctl e)).mp h
        rw [quiet_ctl hq (Bool.eq_false_iff.mpr hrun)] at hstopped
        cases hstopped
    next hd =>
      have hnot : ¬∃ e : Fin 4, d.toNat = e.val + 1 ∧ p = .pc ∧ (s.ctl e).state = .stopped ∧ ∃ x ∈ (s.ctl e).stop, x.kind = .fire :=
        fun k => hd (hdenied.mpr k)
      rw [if_congr ((resetForbidden_iff s e).trans (or_congr_right hbar.symm)) rfl rfl]
      split
      next h => exact .notNowOr _ pass rfl h fun k => (if_neg hnot).trans (if_pos k)
      next h => exact .accepted _ _ pass (.inl (running_of_free h)) rfl ((if_neg hnot).trans (if_neg fun k => h (.inr k)))

theorem readTracksReply_judged (d k : Byte) : Judged (.readTracks p n d k) s (readTracksReply d k s) := by
  unfold readTracksReply
  obtain ⟨ho, hout⟩ | ⟨e, ho, he⟩ := ductOperand_cases d
  · rw [ho]
    exact .range _ rfl nofun (by simp only [operandsInRange, decide_eq_false hout, Bool.false_and])
  · rw [ho]
    dsimp only
    have hin : decide (1 ≤ d.toNat ∧ d.toNat ≤ 4) = true := decide_eq_true (by omega)
    have hbar := exists_duct_iff he fun e => k ≠ 255 ∧ (s.duct e).tracks.length ≤ k.toNat
    split
    next hk =>
      refine .read ⟨rfl, nofun, ?_⟩ rfl (if_neg fun x => (hbar.mp x).1 hk) ⟨_, rfl⟩
      simp only [operandsInRange, hin, decide_eq_true hk, Bool.or_true, Bool.and_true]
    next hk =>
      split
      next h8 =>
        refine .range _ rfl nofun ?_
        simp only [operandsInRange, decide_eq_false hk, decide_eq_false (Nat.not_lt.mpr h8), Bool.or_false, Bool.and_false]
      next h8 =>
        have pass : Passes (.readTracks p n d k) s := by
          refine ⟨rfl, nofun, ?_⟩
          simp only [operandsInRange, hin, decide_eq_true (Nat.not_le.mp h8), Bool.true_or, Bool.and_true]
        split
        next hrun => exact .notNow _ pass (idle_of_not hrun) rfl
        next hrun =>
          split
          next t ht =>
            refine .accepted _ _ pass (.inl (running_of_not hrun)) rfl (if_neg fun x => ?_)
            have := (List.getElem?_eq_some_iff.mp ht).1
            have := (hbar.mp x).2
            omega
          next ht =>
            exact .barred _ _ pass (.inl (running_of_not hrun)) (by decide) rfl
              (if_pos (hbar.mpr ⟨hk, List.getElem?_eq_none_iff.mp ht⟩))

/-! ### Channel requests -/

theorem readChannelsReply_judged (c : Byte) : Judged (.readChannels p n c) s (readChannelsReply c s) := by
  unfold readChannelsReply
  split
  next h => exact .read ⟨rfl, nofun, by simp [operandsInRange, h]⟩ rfl rfl ⟨_, rfl⟩
  next h =>
    obtain ⟨ho, hout⟩ | ⟨i, ho, hi⟩ := indexBelow_cases 16 c
    · rw [channelOperand, ho]
      exact .range _ rfl nofun (by simp only [operandsInRange, decide_eq_false hout, decide_eq_false h, Bool.or_false])
    · rw [channelOperand, ho]
      exact .read ⟨rfl, nofun, by simp [operandsInRange, hi]⟩ rfl rfl ⟨_, rfl⟩

/-- The three channel requests share their checks after the authority (R36). -/
theorem channelReply_judged {c : Instr} {b : Byte} {target : Channel → Option ChannelState} (hd : deniedTo c = false)
    (hk : needsKey c = decide (p = .sv)) (hr : operandsInRange s c = decide (b.toNat < 16)) (ht : tagsAgree s c = true)
    (hb : ∀ i : Fin 16, b.toNat = i.val →
      barred s c = if s.cfg.channels[i] = none ∨ target (s.channel i) = none then some .notNow else none) :
    Judged c s (channelReply p b target s) := by
  unfold channelReply
  have key (h : p = .sv ∧ (!s.keyClosed) = true) (l : List Byte) : Judged c s (refuseWith .key l s) :=
    .key _ hd (hk.trans (decide_eq_true h.1)) ((Bool.not_eq_true' _).mp h.2)
  have closed (h : ¬(p = .sv ∧ (!s.keyClosed) = true)) : needsKey c = true → s.keyClosed = true := fun k => by
    rw [hk, decide_eq_true_iff] at k
    simpa [k] using h
  obtain ⟨ho, hout⟩ | ⟨i, ho, hi⟩ := indexBelow_cases 16 b
  · rw [channelOperand, ho]
    dsimp only
    split
    next h => exact key h _
    next h => exact .range _ hd (closed h) (hr.trans (decide_eq_false hout))
  · rw [channelOperand, ho]
    dsimp only
    split
    next h => exact key h _
    next h =>
      have pass : Passes c s := ⟨hd, closed h, hr.trans (decide_eq_true (hi ▸ i.isLt))⟩
      have hbar := hb i hi
      unfold requestMove
      split
      next x st hx hst =>
        rw [hx, hst, if_neg (by simp)] at hbar
        split
        next hrun => exact .notNow _ pass (idle_of_not hrun) ht
        next hrun => split <;> exact .accepted _ _ pass (.inl (running_of_not hrun)) ht hbar
      next hno =>
        refine .notNowOr _ pass ht (P := True) (.inr trivial) fun _ => hbar.trans (if_pos ?_)
        cases hx : s.cfg.channels[i] with
        | none => exact .inl rfl
        | some x =>
          refine .inr (Option.eq_none_iff_forall_ne_some.mpr fun st hst => hno x st hx hst)

theorem channelDenied_judged {c : Instr} (hd : deniedTo c = true) (b : Byte) : Judged c s (channelDenied b s) := by
  unfold channelDenied
  split <;> exact .denied _ hd

theorem isolateChannelReply_judged (c : Byte) : Judged (.isolateChannel p n c) s (isolateChannelReply p c s) := by
  unfold isolateChannelReply
  split
  next h =>
    refine channelReply_judged (decide_eq_false (not_not.mpr h)) rfl rfl rfl fun i hi => if_congr ?_ rfl rfl
    rw [exists_index_iff hi fun j => s.cfg.channels[j] = none ∨ (s.channel j).state = .unused, isolateTarget_none]
  next h => exact channelDenied_judged (c := .isolateChannel p n c) (decide_eq_true h) c

theorem restoreChannelReply_judged (c : Byte) : Judged (.restoreChannel p n c) s (restoreChannelReply p c s) := by
  unfold restoreChannelReply
  split
  next h => exact channelDenied_judged (c := .restoreChannel p n c) (decide_eq_true h) c
  next h =>
    refine channelReply_judged (decide_eq_false h) rfl rfl rfl fun i hi => if_congr ?_ rfl rfl
    rw [exists_index_iff hi fun j => s.cfg.channels[j] = none ∨ (s.channel j).state ≠ .isolated, restoreTarget_none]

theorem clearChannelFaultReply_judged (c : Byte) : Judged (.clearChannelFault p n c) s (clearChannelFaultReply p c s) := by
  unfold clearChannelFaultReply
  split
  next h => exact channelDenied_judged (c := .clearChannelFault p n c) (decide_eq_true h) c
  next h =>
    refine channelReply_judged (decide_eq_false h) rfl rfl rfl fun i hi => if_congr ?_ rfl rfl
    rw [exists_index_iff hi fun j => s.cfg.channels[j] = none ∨
      ((s.channel j).state ≠ .fault .stuck ∧ (s.channel j).state ≠ .fault .dead) ∨ (s.channel j).clean ≠ 400, clearTarget_none]

/-! ### Valve tests and overlays -/

theorem testValveReply_judged (d v : Byte) (w : Word16) : Judged (.testValve p n d v w) s (testValveReply p d v w s) := by
  unfold testValveReply
  split
  next hp => exact .denied _ (decide_eq_true hp)
  next hp =>
    have hp := not_not.mp hp
    subst hp
    split
    next hk => exact .key _ rfl rfl ((Bool.not_eq_true' _).mp hk)
    next hk =>
      have hclosed : needsKey (.testValve .sv n d v w) = true → s.keyClosed = true := fun _ => by simpa using hk
      obtain ⟨ho, hout⟩ | ⟨e, ho, he⟩ := ductOperand_cases d
      · rw [ho]
        exact .range _ rfl hclosed (by simp only [operandsInRange, decide_eq_false hout, Bool.false_and])
      obtain ⟨hv, hout⟩ | ⟨i, hv, hi⟩ := indexBelow_cases 2 v
      · rw [ho, valveOperand, hv]
        exact .range _ rfl hclosed (by simp only [operandsInRange, decide_eq_false hout, Bool.and_false])
      · rw [ho, valveOperand, hv]
        dsimp only
        have pass : Passes (.testValve .sv n d v w) s := by
          refine ⟨rfl, hclosed, ?_⟩
          rw [operandsInRange, decide_eq_true (by omega), decide_eq_true (by omega)]
          rfl
        have hbar := exists_duct_iff he fun e => ∃ k : Fin 2, v.toNat = k.val ∧
          (((s.ctl e).state ≠ .offline ∧ (s.ctl e).state ≠ .stopped) ∨ (s.duct e).tracks ≠ [] ∨
            (s.valveCfg e k).installed = false ∨ (s.duct e).test.isSome = true)
        rw [exists_index_iff hi] at hbar
        simp only [← exists_and_left] at hbar
        rw [if_congr ((testForbidden_iff s e i).trans (or_congr_right hbar.symm)) rfl rfl]
        split
        next h => exact .notNowOr _ pass rfl h fun k => if_pos k
        next h => exact .accepted _ _ pass (.inl (running_of_free h)) rfl (if_neg fun k => h (.inr k))

theorem readOverlaysReply_judged (d : Byte) : Judged (.readOverlays p n d) s (readOverlaysReply d s) := by
  unfold readOverlaysReply
  obtain ⟨ho, hout⟩ | ⟨e, ho, he⟩ := ductOperand_cases d
  · rw [ho]
    exact .range _ rfl nofun (decide_eq_false hout)
  · rw [ho]
    exact .read ⟨rfl, nofun, decide_eq_true (by omega)⟩ rfl rfl ⟨_, rfl⟩

theorem pushOverlayReply_judged (d : Byte) (duration offset : Word16) (nq a b c : Byte) (window : Word16) :
    Judged (.pushOverlay p n d duration offset nq a b c window) s (pushOverlayReply p d duration offset nq a b c window s) := by
  unfold pushOverlayReply
  obtain ⟨ho, hout⟩ | ⟨e, ho, he⟩ := ductOperand_cases d
  · rw [ho]
    dsimp only
    split
    next hp => exact .denied _ (decide_eq_true hp)
    next hp => exact .range _ (decide_eq_false hp) nofun (by simp only [operandsInRange, decide_eq_false hout, Bool.false_and])
  · rw [ho]
    dsimp only
    split
    next hp => exact .denied _ (decide_eq_true hp)
    next hp =>
      have hin : (1 ≤ d.toNat ∧ d.toNat ≤ 4) := by omega
      split
      next hr =>
        refine .range _ (decide_eq_false hp) nofun ?_
        simp only [operandsInRange, hin]
        simp only [Bool.or_eq_true, decide_eq_true_eq] at hr
        simp
        omega
      next hr =>
        have pass : Passes (.pushOverlay p n d duration offset nq a b c window) s := by
          refine ⟨decide_eq_false hp, nofun, ?_⟩
          simp only [operandsInRange, hin]
          simp only [Bool.or_eq_true, decide_eq_true_eq] at hr
          simp
          omega
        have hlevel := exists_duct_iff he fun e => (s.zone (ductZone e)).level = .alarm ∨ (s.zone (ductZone e)).level = .fire
        have hfull := exists_duct_iff he fun e => 4 ≤ (s.duct e).overlays.length
        have hforbidden := (Bool.or_eq_true (!s.isRunning) _).to_iff.trans
          (or_congr (Bool.not_eq_true' _).to_iff ((level_atLeast_alarm (s.zone (ductZone e)).level).trans hlevel.symm))
        rw [if_congr hforbidden rfl rfl]
        split
        next h => exact .notNowOr _ pass rfl h fun k => if_pos k
        next h =>
          have hnot := fun k => h (Or.inr k)
          split
          next h4 => exact .barred _ _ pass (.inl (running_of_free h)) (by decide) rfl ((if_neg hnot).trans (if_pos (hfull.mpr h4)))
          next h4 => exact .accepted _ _ pass (.inl (running_of_free h)) rfl ((if_neg hnot).trans (if_neg fun k => h4 (hfull.mp k)))

theorem popOverlayReply_judged (d : Byte) : Judged (.popOverlay p n d) s (popOverlayReply p d s) := by
  unfold popOverlayReply
  obtain ⟨ho, hout⟩ | ⟨e, ho, he⟩ := ductOperand_cases d
  · rw [ho]
    dsimp only
    split
    next hp => exact .denied _ (decide_eq_true hp)
    next hp => exact .range _ (decide_eq_false hp) nofun (decide_eq_false hout)
  · rw [ho]
    dsimp only
    split
    next hp => exact .denied _ (decide_eq_true hp)
    next hp =>
      have pass : Passes (.popOverlay p n d) s := ⟨decide_eq_false hp, nofun, decide_eq_true (by omega)⟩
      have hempty := exists_duct_iff he fun e => (s.duct e).overlays = []
      have howner := exists_duct_iff he fun e => p = .pc ∧ ∃ x ∈ (s.duct e).overlays.head?, x.owner ≠ .pc
      split
      next hrun => exact .notNow _ pass (idle_of_not hrun) rfl
      next hrun =>
        have hrun := running_of_not hrun
        split
        next h => exact .barred _ _ pass (.inl hrun) (by decide) rfl (if_pos (hempty.mpr h))
        next x rest h =>
          rw [h] at hempty howner
          have hnot := fun k => List.cons_ne_nil _ _ (hempty.mp k)
          split
          next hx => exact .barred _ _ pass (.inl hrun) (by decide) rfl ((if_neg hnot).trans (if_pos (howner.mpr ⟨hx.1, x, rfl, hx.2⟩)))
          next hx =>
            refine .accepted _ _ pass (.inl hrun) rfl ((if_neg hnot).trans (if_neg fun k => ?_))
            obtain ⟨hpc, y, hy, hne⟩ := howner.mp k
            cases hy
            exact hx ⟨hpc, hne⟩

/-! ### Door requests -/

theorem readDoorsReply_judged (d : Byte) : Judged (.readDoors p n d) s (readDoorsReply d s) := by
  unfold readDoorsReply
  split
  next h => exact .read ⟨rfl, nofun, by simp [operandsInRange, h]⟩ rfl rfl ⟨_, rfl⟩
  next h =>
    obtain ⟨ho, hout⟩ | ⟨i, ho, hi⟩ := indexBelow_cases 12 d
    · rw [doorOperand, ho]
      exact .range _ rfl nofun (by simp only [operandsInRange, decide_eq_false hout, decide_eq_false h, Bool.or_false])
    · rw [doorOperand, ho]
      exact .read ⟨rfl, nofun, by simp [operandsInRange, hi]⟩ rfl rfl ⟨_, rfl⟩

theorem holdDoorReply_judged (d : Byte) (w : Word16) : Judged (.holdDoor p n d w) s (holdDoorReply p d w s) := by
  unfold holdDoorReply
  obtain ⟨ho, hout⟩ | ⟨i, ho, hi⟩ := indexBelow_cases 12 d
  · rw [doorOperand, ho]
    dsimp only
    split
    next hp => exact .denied _ (decide_eq_true hp)
    next hp => exact .range _ (decide_eq_false hp) nofun (decide_eq_false hout)
  · rw [doorOperand, ho]
    dsimp only
    split
    next hp => exact .denied _ (decide_eq_true hp)
    next hp =>
      have pass : Passes (.holdDoor p n d w) s := ⟨decide_eq_false hp, nofun, decide_eq_true (hi ▸ i.isLt)⟩
      have hbar := exists_index_iff hi fun j =>
        (∃ z : Fin 16, zoneIn s.cfg.doors[j].zones z = true ∧
          ((s.zone z).level = .fire ∨ (s.cfg.doors[j].closeOnAlarm = true ∧ (s.zone z).level = .alarm))) ∨
        (s.door j).state = .closing ∨ (s.door j).state = .stuck ∨
        ((s.door j).state = .releaseWait ∧ (s.door j).cause ≠ some .holdExpired ∧ (s.door j).cause ≠ some .holdWithdrawn ∧
          (s.door j).cause ≠ some .closeRequest)
      rw [if_congr ((holdForbidden_iff s i).trans (or_congr_right hbar.symm)) rfl rfl]
      split
      next h => exact .notNowOr _ pass rfl h fun k => if_pos k
      next h => exact .accepted _ _ pass (.inl (running_of_free h)) rfl (if_neg fun k => h (.inr k))

theorem unholdDoorReply_judged (d : Byte) : Judged (.unholdDoor p n d) s (unholdDoorReply p d s) := by
  unfold unholdDoorReply
  obtain ⟨ho, hout⟩ | ⟨i, ho, hi⟩ := indexBelow_cases 12 d
  · rw [doorOperand, ho]
    dsimp only
    split
    next hp => exact .denied _ (decide_eq_true hp)
    next hp => exact .range _ (decide_eq_false hp) nofun (decide_eq_false hout)
  · rw [doorOperand, ho]
    dsimp only
    split
    next hp => exact .denied _ (decide_eq_true hp)
    next hp =>
      have pass : Passes (.unholdDoor p n d) s := ⟨decide_eq_false hp, nofun, decide_eq_true (hi ▸ i.isLt)⟩
      have hbar := exists_index_iff hi fun j => (if p = .fp then (s.door j).holdFp else (s.door j).holdPc) = none
      rw [← Door.hold_eq hp] at hbar
      split
      next hrun => exact .notNow _ pass (idle_of_not hrun) rfl
      next hrun =>
        rw [← Option.isNone_iff_eq_none] at hbar
        split
        next h => exact .barred _ _ pass (.inl (running_of_not hrun)) (by decide) rfl (if_pos (hbar.mpr h))
        next h => exact .accepted _ _ pass (.inl (running_of_not hrun)) rfl (if_neg fun k => h (hbar.mp k))

theorem closeDoorReply_judged (d : Byte) : Judged (.closeDoor p n d) s (closeDoorReply p d s) := by
  unfold closeDoorReply
  obtain ⟨ho, hout⟩ | ⟨i, ho, hi⟩ := indexBelow_cases 12 d
  · rw [doorOperand, ho]
    dsimp only
    split
    next hp => exact .denied _ (decide_eq_true hp)
    next hp => exact .range _ (decide_eq_false hp) nofun (decide_eq_false hout)
  · rw [doorOperand, ho]
    dsimp only
    split
    next hp => exact .denied _ (decide_eq_true hp)
    next hp =>
      have pass : Passes (.closeDoor p n d) s := ⟨decide_eq_false hp, nofun, decide_eq_true (hi ▸ i.isLt)⟩
      split
      next hrun => exact .notNow _ pass (idle_of_not hrun) rfl
      next hrun => exact .accepted _ _ pass (.inl (running_of_not hrun)) rfl rfl

/-! ### Siren requests -/

theorem readSirensReply_judged (i : Byte) : Judged (.readSirens p n i) s (readSirensReply i s) := by
  unfold readSirensReply
  split
  next h => exact .read ⟨rfl, nofun, by simp [operandsInRange, h]⟩ rfl rfl ⟨_, rfl⟩
  next h =>
    obtain ⟨ho, hout⟩ | ⟨j, ho, hj⟩ := indexBelow_cases 8 i
    · rw [sirenOperand, ho]
      exact .range _ rfl nofun (by simp only [operandsInRange, decide_eq_false hout, decide_eq_false h, Bool.or_false])
    · rw [sirenOperand, ho]
      exact .read ⟨rfl, nofun, by simp [operandsInRange, hj]⟩ rfl rfl ⟨_, rfl⟩

theorem soundSirenReply_judged (mask pattern : Byte) (w : Word16) :
    Judged (.soundSiren p n mask pattern w) s (soundSirenReply p mask pattern w s) := by
  have hden := soundable_none p n mask pattern w
  unfold soundSirenReply
  split
  next hp => exact .denied _ (hden.mp hp)
  next hp =>
    have hd : deniedTo (.soundSiren p n mask pattern w) = false := Bool.eq_false_iff.mpr fun k => by simp [hden.mpr k] at hp
    split
    next hm => exact .range _ hd nofun (decide_eq_false (not_not.mpr hm))
    next hm =>
      have pass : Passes (.soundSiren p n mask pattern w) s := ⟨hd, nofun, decide_eq_true hm⟩
      split
      next hrun => exact .notNow _ pass (idle_of_not hrun) rfl
      next hrun => exact .accepted _ _ pass (.inl (running_of_not hrun)) rfl rfl

theorem stopSoundReply_judged (mask : Byte) : Judged (.stopSound p n mask) s (stopSoundReply p mask s) := by
  unfold stopSoundReply
  split
  next hp => exact .denied _ (decide_eq_true hp)
  next hp =>
    split
    next hm => exact .range _ (decide_eq_false hp) nofun (decide_eq_false (not_not.mpr hm))
    next hm =>
      have pass : Passes (.stopSound p n mask) s := ⟨decide_eq_false hp, nofun, decide_eq_true hm⟩
      have hbar := stopSound_noData_iff hp s mask
      split
      next hrun => exact .notNow _ pass (idle_of_not hrun) rfl
      next hrun =>
        split
        next h => exact .accepted _ _ pass (.inl (running_of_not hrun)) rfl (if_neg fun k => hbar.mpr k h)
        next h => exact .barred _ _ pass (.inl (running_of_not hrun)) (by decide) rfl (if_pos (hbar.mp h))

theorem silenceReply_judged (mask : Byte) : Judged (.silence p n mask) s (silenceReply p mask s) := by
  unfold silenceReply
  split
  next hp => exact .denied _ (decide_eq_true hp)
  next hp =>
    split
    next hm => exact .range _ (decide_eq_false hp) nofun (decide_eq_false (not_not.mpr hm))
    next hm =>
      have pass : Passes (.silence p n mask) s := ⟨decide_eq_false hp, nofun, decide_eq_true hm⟩
      split
      next hrun => exact .notNow _ pass (idle_of_not hrun) rfl
      next hrun => exact .accepted _ _ pass (.inl (running_of_not hrun)) rfl rfl

theorem testSirensReply_judged (mask : Byte) : Judged (.testSirens p n mask) s (testSirensReply p mask s) := by
  unfold testSirensReply
  split
  next hp => exact .denied _ (decide_eq_true hp)
  next hp =>
    split
    next hk => exact .key _ (decide_eq_false hp) (decide_eq_true (not_not.mp hp)) ((Bool.not_eq_true' _).mp hk)
    next hk =>
      have hclosed : needsKey (.testSirens p n mask) = true → s.keyClosed = true := fun _ => by simpa using hk
      split
      next hm => exact .range _ (decide_eq_false hp) hclosed (decide_eq_false (not_not.mpr hm))
      next hm =>
        have pass : Passes (.testSirens p n mask) s := ⟨decide_eq_false hp, hclosed, decide_eq_true hm⟩
        rw [if_congr (testSirensForbidden_iff s) rfl rfl]
        split
        next h => exact .notNowOr _ pass rfl h fun k => if_pos k
        next h => exact .accepted _ _ pass (.inl (running_of_free h)) rfl (if_neg fun k => h (.inr k))

/-! ### Captures -/

theorem readCaptureReply_judged (k part : Byte) (offset : Word16) (count : Byte) :
    Judged (.readCapture p n k part offset count) s (readCaptureReply k part offset count s) := by
  unfold readCaptureReply
  split
  next h => exact .range _ rfl nofun (by simp only [operandsInRange, h, Option.isSome_none, Bool.false_and])
  next r h =>
    have hpart : decide (part.toNat ≤ 1) = true ↔ ¬(part ≠ 0 ∧ part ≠ 1) := by
      have h0 : part = 0 ↔ part.toNat = 0 := BitVec.toNat_inj.symm
      have h1 : part = 1 ↔ part.toNat = 1 := BitVec.toNat_inj.symm
      rw [decide_eq_true_iff, ne_eq, ne_eq, h0, h1]
      omega
    split
    next hp =>
      refine .range _ rfl nofun ?_
      rw [operandsInRange, h, Bool.eq_false_iff.mpr fun x => hpart.mp x hp]
      rfl
    next hp =>
      have pass : Passes (.readCapture p n k part offset count) s := by
        refine ⟨rfl, nofun, ?_⟩
        rw [operandsInRange, h, hpart.mpr hp]
        rfl
      split
      next hrun => exact .notNow _ pass (idle_of_not hrun) rfl
      next hrun => split <;> exact .accepted _ _ pass (.inl (running_of_not hrun)) rfl rfl

theorem freeCapturesReply_judged (k : Byte) (oldest : Word16) :
    Judged (.freeCaptures p n k oldest) s (freeCapturesReply k oldest s) := by
  unfold freeCapturesReply
  have hzero : k = 0 ↔ k.toNat = 0 := BitVec.toNat_inj.symm
  rw [if_congr (or_congr_left hzero) rfl rfl]
  split
  next h => exact .range _ rfl nofun (decide_eq_false (by omega))
  next h =>
    have pass : Passes (.freeCaptures p n k oldest) s := ⟨rfl, nofun, decide_eq_true (by omega)⟩
    split
    next ht => exact .stale _ pass (decide_eq_false ht)
    next ht =>
      have hagree : tagsAgree s (.freeCaptures p n k oldest) = true := decide_eq_true (not_not.mp ht)
      split
      next hrun => exact .notNow _ pass (idle_of_not hrun) hagree
      next hrun => exact .accepted _ _ pass (.inl (running_of_not hrun)) hagree rfl

theorem quiet_captures (hq : QuietOk s) (hrun : s.isRunning = false) : s.captures = Captures.initial := by
  obtain ⟨_, _, _, _, _, _, _, _, hcaptures⟩ := hq hrun
  exact hcaptures

theorem setCaptureLayoutReply_judged (l pre : Byte) (post : Word16) :
    Judged (.setCaptureLayout p n l pre post) s (setCaptureLayoutReply p l pre post s) := by
  unfold setCaptureLayoutReply
  split
  next hp => exact .denied _ (decide_eq_true hp)
  next hp =>
    split
    next hk => exact .key _ (decide_eq_false hp) (decide_eq_true (not_not.mp hp)) ((Bool.not_eq_true' _).mp hk)
    next hk =>
      have hclosed : needsKey (.setCaptureLayout p n l pre post) = true → s.keyClosed = true := fun _ => by simpa using hk
      have hrange := layoutRange_iff s p n l pre post
      split
      next ho => exact .range _ (decide_eq_false hp) hclosed (Bool.eq_false_iff.mpr fun k => by
        obtain ⟨i, hi, _⟩ := hrange.mp k
        rw [ho] at hi
        cases hi)
      next i ho =>
        split
        next hfit => exact .range _ (decide_eq_false hp) hclosed (Bool.eq_false_iff.mpr fun k => by
          obtain ⟨j, hj, hf⟩ := hrange.mp k
          rw [ho] at hj
          cases hj
          rw [hf] at hfit
          cases hfit)
        next hfit =>
          have pass : Passes (.setCaptureLayout p n l pre post) s :=
            ⟨decide_eq_false hp, hclosed, hrange.mpr ⟨i, ho, by simpa using hfit⟩⟩
          have hbar : s.captures.blocks.any Block.isFilling = true ↔ ∃ x ∈ s.captures.blocks, x.isFilling = true := List.any_eq_true
          split
          next hb =>
            by_cases hrun : s.isRunning = true
            · exact .barred _ _ pass (.inl hrun) (by decide) rfl (if_pos (hbar.mp hb))
            · refine .idle _ _ pass (Bool.eq_false_iff.mpr hrun) (by decide) fun _ hq => ?_
              rw [quiet_captures hq (Bool.eq_false_iff.mpr hrun)] at hb
              cases hb
          next hb =>
            split
            next hrun => exact .notNow _ pass (idle_of_not hrun) rfl
            next hrun => exact .accepted _ _ pass (.inl (running_of_not hrun)) rfl (if_neg fun k => hb (hbar.mpr k))

/-! ### Port settings, the store and RESTART -/

theorem fetchNoticesReply_judged (k : Byte) : Judged (.fetchNotices p n k) s (fetchNoticesReply p k s) := by
  have pass : Passes (.fetchNotices p n k) s := ⟨rfl, nofun, rfl⟩
  unfold fetchNoticesReply
  split
  next hrun => exact .notNow _ pass (idle_of_not hrun) rfl
  next hrun => exact .accepted _ _ pass (.inl (running_of_not hrun)) rfl rfl

theorem setSubscriptionReply_judged (mask : Byte) : Judged (.setSubscription p n mask) s (setSubscriptionReply p mask s) := by
  have pass : Passes (.setSubscription p n mask) s := ⟨rfl, nofun, rfl⟩
  unfold setSubscriptionReply
  split
  next hrun => exact .notNow _ pass (idle_of_not hrun) rfl
  next hrun => exact .accepted _ _ pass (.inl (running_of_not hrun)) rfl rfl

theorem setCoalescingReply_judged (k : Byte) (age : Word16) : Judged (.setCoalescing p n k age) s (setCoalescingReply p k age s) := by
  unfold setCoalescingReply
  split
  next h =>
    refine .range _ rfl nofun ?_
    rw [operandsInRange, Bool.and_eq_false_iff, decide_eq_false_iff_not, decide_eq_false_iff_not]
    omega
  next h =>
    have pass : Passes (.setCoalescing p n k age) s := by
      refine ⟨rfl, nofun, ?_⟩
      rw [operandsInRange, Bool.and_eq_true, decide_eq_true_iff, decide_eq_true_iff]
      omega
    split
    next hrun => exact .notNow _ pass (idle_of_not hrun) rfl
    next hrun => exact .accepted _ _ pass (.inl (running_of_not hrun)) rfl rfl

theorem readStoreReply_judged (offset : Word16) : Judged (.readStore p n offset) s (readStoreReply offset s) := by
  unfold readStoreReply
  split
  next h => exact .range _ rfl nofun (decide_eq_false (by omega))
  next h =>
    have pass : Passes (.readStore p n offset) s := ⟨rfl, nofun, decide_eq_true (by omega)⟩
    split
    next hb =>
      obtain hload | hwrite := (storeUnready_iff s).mp hb
      · exact .idle _ _ pass (by rw [State.isRunning, hload]; rfl) (by decide) nofun
      · exact .barred _ _ pass (.inr rfl) (by decide) rfl (if_pos hwrite)
    next hb => exact .accepted _ _ pass (.inr rfl) rfl (if_neg fun k => hb ((storeUnready_iff s).mpr (.inr k)))

theorem restartReply_judged : Judged (.restart p n) s (restartReply p s) := by
  unfold restartReply
  split
  next hp => exact .denied _ (decide_eq_true hp)
  next hp =>
    have pass : Passes (.restart p n) s := ⟨decide_eq_false hp, nofun, rfl⟩
    split
    next hw => exact .barred _ _ pass (.inr rfl) (by decide) rfl (if_pos hw)
    next hw =>
      split
      next h => exact .barred _ _ pass (.inr rfl) (by decide) rfl ((if_neg hw).trans (if_pos ((restartForbidden_iff s).mp h)))
      next h => exact .accepted _ _ pass (.inr rfl) rfl ((if_neg hw).trans (if_neg fun k => h ((restartForbidden_iff s).mpr k)))

end

end Sys2Proof.Machine
end

