-- ==== Sys2Proof/Proofs/Refusals.lean ====
section
/-! PROOFS. Refused requests: the first failing check of R174 gives the answer, and changes nothing else. -/

namespace Sys2Proof.Machine

open Sys2Proof

/-! ### What a judgment says -/

section
variable {c : Instr} {s : State} {r : Reply}

theorem Judged.state_eq (h : Judged c s r) (hr : r.result ≠ .ok) : r.state = s := by
  cases h
  case accepted => exact absurd rfl hr
  all_goals rfl

theorem Judged.result_denied (h : Judged c s r) (hd : deniedTo c = true) : r.result = .denied := by
  have not_pass (k : Passes c s) : False := Bool.noConfusion (hd.symm.trans k.denied)
  cases h
  case denied => rfl
  case key k _ _ => exact Bool.noConfusion (hd.symm.trans k)
  case range k _ _ => exact Bool.noConfusion (hd.symm.trans k)
  case stale k _ => exact (not_pass k).elim
  all_goals exact (not_pass ‹_›).elim

theorem Judged.result_key (h : Judged c s r) (hd : deniedTo c = false) (hk : needsKey c = true) (ho : s.keyClosed = false) :
    r.result = .key := by
  have closed (k : needsKey c = true → s.keyClosed = true) : False := Bool.noConfusion (ho.symm.trans (k hk))
  cases h
  case denied k => exact Bool.noConfusion (hd.symm.trans k)
  case key => rfl
  case range k _ => exact (closed k).elim
  case stale k _ => exact (closed k.key).elim
  all_goals exact (closed (Passes.key ‹_›)).elim

theorem Judged.result_range (h : Judged c s r) (hd : deniedTo c = false) (hk : needsKey c = true → s.keyClosed = true)
    (hr : operandsInRange s c = false) : r.result = .range := by
  have inside (k : Passes c s) : False := Bool.noConfusion (hr.symm.trans k.range)
  cases h
  case denied k => exact Bool.noConfusion (hd.symm.trans k)
  case key _ hn ho => exact Bool.noConfusion (ho.symm.trans (hk hn))
  case range => rfl
  case stale k _ => exact (inside k).elim
  all_goals exact (inside ‹_›).elim

theorem Judged.refused (h : Judged c s r) (hrun : s.isRunning = false) (hs : servedInEveryState c = false) : r.result ≠ .ok := by
  have served (k : s.isRunning = true ∨ servedInEveryState c = true) : False :=
    k.elim (fun k => Bool.noConfusion (hrun.symm.trans k)) fun k => Bool.noConfusion (hs.symm.trans k)
  cases h
  case accepted k _ _ => exact (served k).elim
  case barred k _ _ _ => exact (served k).elim
  case idle hr _ => exact hr
  all_goals nofun

theorem Judged.result_idle (h : Judged c s r) (hp : Passes c s) (hrun : s.isRunning = false) (hs : servedInEveryState c = false)
    (hq : QuietOk s) : r.result = if tagsAgree s c then .notNow else .stale := by
  have served (k : s.isRunning = true ∨ servedInEveryState c = true) : False :=
    k.elim (fun k => Bool.noConfusion (hrun.symm.trans k)) fun k => Bool.noConfusion (hs.symm.trans k)
  cases h
  case denied k => exact Bool.noConfusion (hp.denied.symm.trans k)
  case key _ hn ho => exact Bool.noConfusion (ho.symm.trans (hp.key hn))
  case range k => exact Bool.noConfusion (hp.range.symm.trans k)
  case idle k => exact k hs hq
  case stale k => rw [k]; rfl
  case barred k _ _ _ => exact (served k).elim
  case accepted k _ _ => exact (served k).elim

theorem Judged.result_running (h : Judged c s r) (hp : Passes c s) (hrun : s.isRunning = true) :
    r.result = if tagsAgree s c then (Machine.barred s c).getD .ok else .stale := by
  cases h
  case denied k => exact Bool.noConfusion (hp.denied.symm.trans k)
  case key _ hn ho => exact Bool.noConfusion (ho.symm.trans (hp.key hn))
  case range k => exact Bool.noConfusion (hp.range.symm.trans k)
  case idle k _ _ => exact Bool.noConfusion (hrun.symm.trans k)
  case stale k => rw [k]; rfl
  case barred ht hb => rw [ht, hb]; rfl
  case accepted ht hb => rw [ht, hb]; rfl

end

/-! ### Every request's judgment -/

/-- A request that is answered at arrival: its reply, and the judgment on it. -/
theorem request_judged {c : Instr} {p : Port} {n code : Byte} (h : requestOf c = some (p, n, code)) (hw : code ≠ codeWriteStore)
    (hc : ∀ k, c ≠ .unknownRequest p n k) :
    ∃ reply : State → Reply, (∀ s, exec c s = live s (serve p code n reply)) ∧ ∀ s, Judged c s (reply s) := by
  cases c
  case unknownRequest =>
    cases h
    exact absurd rfl (hc _)
  case writeStore =>
    cases h
    exact absurd rfl hw
  case readIdent => cases h; exact ⟨_, fun _ => rfl, fun _ => readIdentReply_judged⟩
  case readZones => cases h; exact ⟨_, fun _ => rfl, fun _ => readZonesReply_judged _⟩
  case ackZone => cases h; exact ⟨_, fun _ => rfl, fun _ => ackZoneReply_judged _ _⟩
  case declare => cases h; exact ⟨_, fun _ => rfl, fun _ => declareReply_judged _ _⟩
  case withdraw => cases h; exact ⟨_, fun _ => rfl, fun _ => withdrawReply_judged _⟩
  case resetZone => cases h; exact ⟨_, fun _ => rfl, fun _ => resetZoneReply_judged _ _⟩
  case readDuct => cases h; exact ⟨_, fun _ => rfl, fun _ => readDuctReply_judged _⟩
  case startDuct => cases h; exact ⟨_, fun _ => rfl, fun _ => startDuctReply_judged _⟩
  case stopDuct => cases h; exact ⟨_, fun _ => rfl, fun _ => stopDuctReply_judged _⟩
  case resetDuct => cases h; exact ⟨_, fun _ => rfl, fun _ => resetDuctReply_judged _⟩
  case readTracks => cases h; exact ⟨_, fun _ => rfl, fun _ => readTracksReply_judged _ _⟩
  case readChannels => cases h; exact ⟨_, fun _ => rfl, fun _ => readChannelsReply_judged _⟩
  case isolateChannel => cases h; exact ⟨_, fun _ => rfl, fun _ => isolateChannelReply_judged _⟩
  case restoreChannel => cases h; exact ⟨_, fun _ => rfl, fun _ => restoreChannelReply_judged _⟩
  case clearChannelFault => cases h; exact ⟨_, fun _ => rfl, fun _ => clearChannelFaultReply_judged _⟩
  case testValve => cases h; exact ⟨_, fun _ => rfl, fun _ => testValveReply_judged _ _ _⟩
  case readOverlays => cases h; exact ⟨_, fun _ => rfl, fun _ => readOverlaysReply_judged _⟩
  case pushOverlay => cases h; exact ⟨_, fun _ => rfl, fun _ => pushOverlayReply_judged _ _ _ _ _ _ _ _⟩
  case popOverlay => cases h; exact ⟨_, fun _ => rfl, fun _ => popOverlayReply_judged _⟩
  case readDoors => cases h; exact ⟨_, fun _ => rfl, fun _ => readDoorsReply_judged _⟩
  case holdDoor => cases h; exact ⟨_, fun _ => rfl, fun _ => holdDoorReply_judged _ _⟩
  case unholdDoor => cases h; exact ⟨_, fun _ => rfl, fun _ => unholdDoorReply_judged _⟩
  case closeDoor => cases h; exact ⟨_, fun _ => rfl, fun _ => closeDoorReply_judged _⟩
  case readSirens => cases h; exact ⟨_, fun _ => rfl, fun _ => readSirensReply_judged _⟩
  case soundSiren => cases h; exact ⟨_, fun _ => rfl, fun _ => soundSirenReply_judged _ _ _⟩
  case stopSound => cases h; exact ⟨_, fun _ => rfl, fun _ => stopSoundReply_judged _⟩
  case silence => cases h; exact ⟨_, fun _ => rfl, fun _ => silenceReply_judged _⟩
  case testSirens => cases h; exact ⟨_, fun _ => rfl, fun _ => testSirensReply_judged _⟩
  case readCapture => cases h; exact ⟨_, fun _ => rfl, fun _ => readCaptureReply_judged _ _ _ _⟩
  case freeCaptures => cases h; exact ⟨_, fun _ => rfl, fun _ => freeCapturesReply_judged _ _⟩
  case setCaptureLayout => cases h; exact ⟨_, fun _ => rfl, fun _ => setCaptureLayoutReply_judged _ _ _⟩
  case fetchNotices => cases h; exact ⟨_, fun _ => rfl, fun _ => fetchNoticesReply_judged _⟩
  case setSubscription => cases h; exact ⟨_, fun _ => rfl, fun _ => setSubscriptionReply_judged _⟩
  case setCoalescing => cases h; exact ⟨_, fun _ => rfl, fun _ => setCoalescingReply_judged _ _⟩
  case readStore => cases h; exact ⟨_, fun _ => rfl, fun _ => readStoreReply_judged _⟩
  case restart => cases h; exact ⟨_, fun _ => rfl, fun _ => restartReply_judged⟩
  all_goals cases h

/-! The checks do not look at the receivers. -/

theorem operandsInRange_frameTaken (p : Port) (s : State) (c : Instr) : operandsInRange (frameTaken p s) c = operandsInRange s c := by
  cases c <;> rfl

theorem tagsAgree_frameTaken (p : Port) (s : State) (c : Instr) : tagsAgree (frameTaken p s) c = tagsAgree s c := by
  cases c <;> rfl

theorem barred_frameTaken (p : Port) (s : State) (c : Instr) : barred (frameTaken p s) c = barred s c := by
  cases c <;> rfl

/-- A judged request's answer (R173, R174). -/
theorem exec_judged {c : Instr} {p : Port} {n code : Byte} {s : State} {reply : State → Reply} (ht : TakesFrame s p)
    (hexec : exec c s = live s (serve p code n reply)) (hj : Judged c (frameTaken p s) (reply (frameTaken p s))) :
    ∃ t : State, exec c s = .next t ∧
      (t.port p).tx.getLast? = some ⟨code, n, (reply (frameTaken p s)).result, (reply (frameTaken p s)).payload⟩ ∧
      ((reply (frameTaken p s)).result ≠ .ok →
        t = s.answered p ⟨code, n, (reply (frameTaken p s)).result, (reply (frameTaken p s)).payload⟩) := by
  have ⟨hup, _, _⟩ := ht
  rw [hexec, live_up s _ hup, serve_takes p code n reply s ht]
  refine ⟨_, rfl, ?_, fun hr => ?_⟩
  · rw [issue_port_self, List.getLast?_append]
    rfl
  · rw [hj.state_eq hr, issue_frameTaken]

/-- Settles O21: every request's judgment, read place by place. -/
theorem refusedRequestsChangeNothing : Obligations.RefusedRequestsChangeNothing := fun c p n code s h hw hwf ht => by
  by_cases hunknown : ∃ k, c = .unknownRequest p n k
  · obtain ⟨k, rfl⟩ := hunknown
    cases h
    have hc : code ∉ catalogue := by simpa [wellFormed] using hwf
    have ⟨hup, _, _⟩ := ht
    have hexec : exec (.unknownRequest p n code) s = .next (s.answered p ⟨code, n, .unknown, []⟩) := by
      unfold exec execUnknownRequest
      simp only [if_neg hc]
      exact serve_refuses ht code n rfl
    refine ⟨_, .unknown, [], hexec, ?_, fun _ => rfl, nofun, fun _ _ _ k => absurd k hc, fun _ _ _ k => absurd k hc⟩
    rw [← issue_frameTaken, issue_port_self, List.getLast?_append]
    rfl
  · obtain ⟨reply, hexec, hj⟩ := request_judged h hw (not_exists.mp hunknown)
    have hj := hj (frameTaken p s)
    obtain ⟨t, ht, hlast, hsame⟩ := exec_judged ht (hexec s) hj
    refine ⟨t, _, _, ht, hlast, hsame, hj.refused, fun hd hk hr _ hrun hq hs => ?_, fun hd hk hr _ hrun => ?_⟩
    · rw [← tagsAgree_frameTaken p]
      exact hj.result_idle ⟨hd, hk, (operandsInRange_frameTaken p s c).trans hr⟩ hrun hs hq
    · rw [← tagsAgree_frameTaken p, ← barred_frameTaken p]
      exact hj.result_running ⟨hd, hk, (operandsInRange_frameTaken p s c).trans hr⟩ hrun

/-- Settles O22: the judgment at places 3 to 5, and WRITE_STORE's own checks. -/
theorem requestsBeyondAuthorityAreDenied : Obligations.RequestsBeyondAuthorityAreDenied := fun c p n code s h ht => by
  by_cases hunknown : ∃ k, c = .unknownRequest p n k
  · obtain ⟨k, rfl⟩ := hunknown
    exact ⟨nofun, nofun, nofun⟩
  by_cases hw : code = codeWriteStore
  · subst hw
    have ⟨hup, _, _⟩ := ht
    obtain ⟨offset, bytes, rfl⟩ : ∃ offset bytes, c = .writeStore p n offset bytes := by
      cases c
      case unknownRequest => cases h; exact absurd ⟨_, rfl⟩ hunknown
      case writeStore => cases h; exact ⟨_, _, rfl⟩
      all_goals cases h
    have refused {r : Result} (hr : writeStoreRefusal p offset (frameTaken p s) = some r) :
        ∃ payload : List Byte, exec (.writeStore p n offset bytes) s = .next (s.answered p ⟨codeWriteStore, n, r, payload⟩) :=
      ⟨[], (live_up s _ hup).trans (congrArg _ (serveWriteStore_refuses ht n bytes hr))⟩
    by_cases hp : p = .sv
    · subst hp
      refine ⟨nofun, fun _ _ hk => refused (writeStoreRefusal_key hk), fun _ hk hr => refused (writeStoreRefusal_range (hk rfl) ?_)⟩
      rw [operandsInRange, Bool.and_eq_false_iff, decide_eq_false_iff_not, decide_eq_false_iff_not] at hr
      omega
    · have hd : deniedTo (.writeStore p n offset bytes) = true := decide_eq_true hp
      exact ⟨fun _ => refused (if_pos hp), fun k => Bool.noConfusion (hd.symm.trans k), fun k => Bool.noConfusion (hd.symm.trans k)⟩
  · obtain ⟨reply, hexec, hj⟩ := request_judged h hw (not_exists.mp hunknown)
    have hj := hj (frameTaken p s)
    obtain ⟨t, ht, _, hsame⟩ := exec_judged ht (hexec s) hj
    have refused {r : Result} (hr : (reply (frameTaken p s)).result = r) (hne : r ≠ .ok) :
        ∃ payload : List Byte, exec c s = .next (s.answered p ⟨code, n, r, payload⟩) := by
      rw [hr] at hsame
      exact ⟨_, ht.trans (congrArg _ (hsame hne))⟩
    exact ⟨fun hd => refused (hj.result_denied hd) (by decide), fun hd hk ho => refused (hj.result_key hd hk ho) (by decide),
      fun hd hk hr => refused (hj.result_range hd hk ((operandsInRange_frameTaken p s c).trans hr)) (by decide)⟩

end Sys2Proof.Machine
end

