-- ==== Sys2Proof/Proofs/Records.lean ====
section
/-! PROOFS. The records of R191, byte by byte, and the reading requests that answer with them. -/

namespace Sys2Proof.Machine

open Sys2Proof

/-! ### Fields (R190) -/

theorem presence_eq (n : Nat) (o : Option (List Byte)) : presence n o = optField n o := by cases o <;> rfl

theorem tickBytes_eq (t : Option Tick) : tickBytes t = optTick t := presence_eq 4 _

theorem listField_map {α : Type} (f : α → List Byte) (l : List α) : listField (l.map f) = byteOf l.length :: l.flatMap f := by
  rw [listField, List.length_map, List.flatMap_def]

theorem flatMap_byte {α : Type} (f : α → Byte) (l : List α) : (l.flatMap fun m => [f m]) = l.map f := by
  induction l with
  | nil => rfl
  | cons x l ih => rw [List.flatMap_cons, ih]; rfl

theorem padTo_numbers {α : Type} (k : Nat) (f : α → Byte) (l : List α) :
    padTo (k + 1) absentByte (listField (l.map fun m => [f m])) =
      byteOf l.length :: (l.map f ++ List.replicate (k - l.length) 0xFF) := by
  rw [listField_map, flatMap_byte, padTo, List.length_cons, List.length_map, Nat.add_sub_add_right]
  rfl

theorem matchedFields_eq (l : List (Fin 4)) :
    matchedFields l = byteOf l.length :: (l.map (fun m => byteOf m.val) ++ List.replicate (3 - l.length) 0xFF) :=
  padTo_numbers 3 (fun m : Fin 4 => byteOf m.val) l

theorem twoBytes_eq (n : Nat) : twoBytes n = leNat16 n := rfl

theorem fourBytes_eq (n : Nat) : fourBytes n = leNat32 n := rfl

theorem byteOf_toNat (b : Byte) : byteOf b.toNat = b := by rw [byteOf, BitVec.ofNat_toNat, BitVec.setWidth_eq]

theorem bitByte_eq (b : Bool) : bitByte b = flagByte b := rfl

theorem patternByte_eq (o : Option Pattern) : patternByte o = demandByte o := by cases o <;> rfl

theorem causeByte_eq (x : Door) : causeByte x.cause = releaseByte x := by
  unfold causeByte releaseByte
  cases x.cause <;> rfl

theorem stopBytes_eq (o : Option Stop) : stopBytes o = stopFields o := by cases o <;> rfl

theorem holdBytes_eq (x : Door) : holdBytes x = holdSetFields x := by
  unfold holdBytes holdSetFields
  cases x.holdFp <;> cases x.holdPc <;> simp [holdFields, padTo, listField, le8, le32, portNum, portIx, Tick.ms, byteOf]

/-! ### Records (R191) -/

section
variable (s : State)

theorem zoneBytes_eq (z : Fin 16) : zoneBytes s z = zoneSummary s z := by
  simp only [zoneBytes, zoneSummary, le8, leFlag, heldCauses, AckSet.byte, List.cons_append, List.nil_append, List.append_assoc]
  rfl

theorem zoneListBytes_eq (z : Fin 16) : zoneListBytes s z = zoneDetail s z := by
  have cause (i : Fin 13) : (if i.val < 3 then [byteOf i.val, byteOf (z.val + 1)]
      else if i.val < 11 then [3, byteOf (i.val - 3)] else [4, byteOf (i.val - 11)]) ++ [byteOf (s.zone z).causes[i].num] =
      causeFields z (s.zone z) i := by
    unfold causeFields causeKindNum causeSource
    repeat' split
    all_goals rfl
  simp only [zoneListBytes, cause]
  rfl

theorem valveListBytes_eq (d : Fin 4) : valveListBytes s d =
    listField (((List.finRange 2).filter fun v => (s.ductCfg d).valves[v].installed).map fun v => valveFields v (s.duct d).valves[v]) := by
  rw [listField_map]
  rfl

theorem ductBytes_eq (d : Fin 4) : ductBytes s d = ductRecord s d := by
  unfold ductBytes ductRecord
  dsimp only
  rw [valveListBytes_eq, ductStateBytes, ductAnswer, stopBytes_eq]
  simp only [tickBytes_eq, presence_eq, boundsFields, gateBytes, gateFields, twoBytes_eq, fourBytes_eq, bitByte_eq, State.ctl, le8, leFlag]
  cases (s.duct d).test
  all_goals
    dsimp only
    simp only [List.cons_append, List.nil_append, List.append_assoc]
    rfl

theorem trackBytes_eq (t : Track) : trackBytes t = trackSummary t := by
  simp only [trackBytes, trackSummary, matchedFields_eq, presence_eq, le8, List.cons_append, List.nil_append, List.append_assoc]
  rw [byteOf_toNat]

theorem trackFullBytes_eq (d : Fin 4) (t : Track) : trackFullBytes s d t = trackRecord s d t := by
  have gate : gateEntryFields s d = fun e => fourBytes e.te ++ le32 e.deadline ++ tickBytes (match (s.gate d).state with
      | .opened => some (e.deadline - s.tick.plus (4 * (s.gateCfg d).stroke))
      | .closing => some (e.deadline - (s.gate d).cmdTick.plus (4 * (s.gateCfg d).stroke))
      | .closed | .opening | .fault => none) := funext fun e => by
    rw [gateEntryFields, readMargin, tickBytes_eq]
    cases (s.gate d).state <;> rfl
  simp only [trackFullBytes, trackRecord, gate, trackBytes_eq, presence_eq, listField_map, List.cons_append, List.append_assoc]
  rfl

theorem channelBytes_eq (full : Bool) (c : Fin 16) : channelBytes s full c = channelSummary s full c := by
  have state : channelAnswer s c = match (s.channel c).state with
      | .unused => [0, 0xFF]
      | .active => [1, 0xFF]
      | .isolated => [2, 0xFF]
      | .fault .stuck => [3, 0]
      | .fault .dead => [3, 1] := by
    unfold channelAnswer
    cases (s.channel c).state with
    | fault k => cases k <;> rfl
    | _ => rfl
  unfold channelBytes channelSummary channelPlace baseThreshold
  rw [state]
  dsimp only
  cases s.cfg.channels[c]
  all_goals
    simp only [twoBytes_eq, bitByte_eq, presence_eq, leFlag]
    cases full <;> rfl

theorem channelListBytes_eq (c : Fin 16) : channelListBytes s c = channelDetail s c := by
  unfold channelListBytes channelDetail
  cases s.cfg.channels[c] with
  | none => rfl
  | some x =>
    simp only [listField_map, le8, List.cons_append, List.nil_append]
    rfl

theorem overlayBytes_eq (d : Fin 4) : overlayBytes s d = overlayRecord s d := by
  simp only [overlayBytes, overlayRecord, paramFields, listField_map, le8, List.cons_append, List.nil_append, List.append_assoc]
  rfl

theorem doorBytes_eq (i : Fin 12) : doorBytes s i = doorSummary s i := by
  have troubled (kind : TroubleKind) : doorTroubled s i kind = match lowestZone s.cfg.doors[i].zones with
      | none => false
      | some z => decide ((⟨kind, i.val⟩ : Trouble) ∈ (s.zone z).troubles) := by
    unfold doorTroubled
    cases lowestZone s.cfg.doors[i].zones <;> rfl
  unfold doorBytes doorSummary
  rw [doorStateBytes, causeByte_eq, holdBytes_eq, troubled, troubled]
  rfl

theorem doorListBytes_eq (i : Fin 12) : doorListBytes s i = doorDetail s i := by
  rw [doorListBytes, doorDetail, tickBytes_eq]
  rfl

theorem sirenBytes_eq (x : Siren) : sirenBytes x = sirenSummary x := by
  have manual (m : Option Manual) : manualFields m = match m with
      | none => [0xFF, 0, 0, 0, 0]
      | some y => byteOf y.pattern.num :: le32 (y.until_ >>> 2) := by cases m <;> rfl
  have ends (t : Option Tick) : endFields t = match t with
      | none => [0, 0, 0, 0]
      | some e => le32 (e >>> 2) := by cases t <;> rfl
  unfold sirenBytes sirenSummary
  dsimp only
  rw [patternByte_eq, manual, manual, ends, ends]
  rfl

theorem sirenHeaderBytes_eq : sirenHeaderBytes s = sirenHeader s := by
  simp only [sirenHeaderBytes, sirenHeader, tickBytes_eq, le8, List.cons_append, List.nil_append]
  cases s.arbiter.mark <;> cases s.arbiter.phaseOn <;> rfl

theorem captureBytes_eq (r : Capture) : captureBytes r = captureHeader r := by
  have channels : padTo 5 absentByte (listField (r.channels.map fun c => le8 c.val)) =
      byteOf r.channels.length :: (r.channels.map (fun c => byteOf c.val) ++ List.replicate (4 - r.channels.length) 0xFF) :=
    padTo_numbers 4 (fun c : Fin 16 => byteOf c.val) r.channels
  unfold captureBytes captureHeader
  rw [channels]
  simp only [le8, leFlag, List.cons_append, List.nil_append, List.append_assoc]
  cases r.trackId <;> rfl

end

/-! ### Operands of reading requests -/

theorem toNat_byteOf {k : Nat} (h : k < 256) : (byteOf k).toNat = k := by
  rw [byteOf, BitVec.toNat_ofNat, Nat.mod_eq_of_lt h]

theorem byteOf_ne_255 {k : Nat} (h : k < 255) : byteOf k ≠ 255 := fun e => by
  have := congrArg BitVec.toNat e
  rw [toNat_byteOf (by omega)] at this
  simp at this
  omega

theorem indexBelow_byteOf {k : Nat} (hk : k ≤ 256) (i : Fin k) : indexBelow k (byteOf i.val) = some i := by
  have h : (byteOf i.val).toNat = i.val := toNat_byteOf (by omega)
  rw [indexBelow, dif_pos (by rw [h]; exact i.isLt)]
  simp only [h]

theorem ductOperand_number (d : Fin 4) : ductOperand (ductNumber d) = some d := by
  have h : (ductNumber d).toNat = d.val + 1 := toNat_byteOf (by omega)
  rw [ductOperand, dif_pos (by omega)]
  simp only [h, Nat.add_sub_cancel]

/-! ### The reading requests -/

section
variable {s : State} (hrun : s.isRunning = true)
include hrun

theorem readIdentReply_running : readIdentReply s = accept ([0x3B, 0x40, 0x02, 0x01, 1,
    (match s.loader.failing with | none => 0 | some code => byteOf (checkPlace code))] ++ le16 s.loader.imageCrc) s := by
  have hstate : s.loader.state = .running := of_decide_eq_true hrun
  rw [readIdentReply, identification, hstate]
  cases s.loader.failing with
  | none => rfl
  | some code => cases code <;> rfl

theorem readZonesReply_all : readZonesReply 255 s = accept (255 :: (List.finRange 16).flatMap (zoneBytes s)) s := by
  rw [readZonesReply, if_pos rfl, if_pos hrun, funext (zoneBytes_eq s)]

theorem readZonesReply_one (z : Fin 16) :
    readZonesReply (byteOf z.val) s = accept (byteOf z.val :: (zoneBytes s z ++ zoneListBytes s z)) s := by
  rw [readZonesReply, if_neg (byteOf_ne_255 (by omega)), zoneOperand, indexBelow_byteOf (by decide), zoneBytes_eq, zoneListBytes_eq]
  exact if_pos hrun

theorem readDuctReply_one (d : Fin 4) : readDuctReply (ductNumber d) s = accept (ductBytes s d) s := by
  rw [readDuctReply, ductOperand_number, ductBytes_eq]
  exact if_pos hrun

theorem readTracksReply_all (d : Fin 4) : readTracksReply (ductNumber d) 255 s =
    accept (byteOf (s.duct d).tracks.length :: (s.duct d).nextId :: (s.duct d).tracks.flatMap trackBytes) s := by
  rw [readTracksReply, ductOperand_number, funext trackBytes_eq]
  dsimp only
  rw [if_pos rfl, if_pos hrun, le8, le8, byteOf_toNat]
  rfl

theorem readTracksReply_one (d : Fin 4) {k : Byte} (h : k.toNat < 8 ∧ k.toNat < (s.duct d).tracks.length) :
    readTracksReply (ductNumber d) k s =
      accept (byteOf (s.duct d).tracks.length :: trackFullBytes s d ((s.duct d).tracks[k.toNat]'h.2)) s := by
  obtain ⟨h8, hlen⟩ := h
  have hk : k ≠ 255 := fun e => by
    rw [e] at h8
    exact absurd h8 (by decide)
  rw [readTracksReply, ductOperand_number, trackFullBytes_eq]
  dsimp only
  rw [if_neg hk, if_neg (by omega), if_neg (by simp [hrun]), List.getElem?_eq_getElem hlen]
  rfl

theorem readChannelsReply_all :
    readChannelsReply 255 s = accept ((List.finRange 16).flatMap (channelBytes s false)) s := by
  rw [readChannelsReply, if_pos rfl, if_pos hrun, funext (channelBytes_eq s false)]

theorem readChannelsReply_one (c : Fin 16) :
    readChannelsReply (byteOf c.val) s = accept (channelBytes s true c ++ channelListBytes s c) s := by
  rw [readChannelsReply, if_neg (byteOf_ne_255 (by omega)), channelOperand, indexBelow_byteOf (by decide), channelBytes_eq,
    channelListBytes_eq]
  exact if_pos hrun

theorem readOverlaysReply_one (d : Fin 4) : readOverlaysReply (ductNumber d) s = accept (overlayBytes s d) s := by
  rw [readOverlaysReply, ductOperand_number, overlayBytes_eq]
  exact if_pos hrun

theorem readDoorsReply_all : readDoorsReply 255 s = accept ((List.finRange 12).flatMap (doorBytes s)) s := by
  rw [readDoorsReply, if_pos rfl, if_pos hrun, funext (doorBytes_eq s)]

theorem readDoorsReply_one (i : Fin 12) : readDoorsReply (byteOf i.val) s = accept (doorBytes s i ++ doorListBytes s i) s := by
  rw [readDoorsReply, if_neg (byteOf_ne_255 (by omega)), doorOperand, indexBelow_byteOf (by decide), doorBytes_eq, doorListBytes_eq]
  exact if_pos hrun

theorem readSirensReply_all : readSirensReply 255 s =
    accept (sirenHeaderBytes s ++ (List.finRange 8).flatMap fun j => sirenBytes s.arbiter.sirens[j]) s := by
  rw [readSirensReply, if_pos rfl, if_pos hrun, sirenHeaderBytes_eq, funext sirenBytes_eq]

theorem readSirensReply_one (i : Fin 8) : readSirensReply (byteOf i.val) s =
    accept (sirenHeaderBytes s ++ sirenBytes s.arbiter.sirens[i] ++ byteOf s.cfg.sirens[i].weight ::
      (le16 s.cfg.sirens[i].cover ++ twoBytes s.cfg.slotLength ++ twoBytes s.cfg.allClearTime)) s := by
  rw [readSirensReply, if_neg (byteOf_ne_255 (by omega)), sirenOperand, indexBelow_byteOf (by decide), sirenHeaderBytes_eq, sirenBytes_eq]
  exact if_pos hrun

theorem readCaptureReply_header {k : Byte} {r : Capture} (h : s.captures.storedRecord k.toNat = some r) (offset : Word16) (count : Byte) :
    readCaptureReply k 0 offset count s = accept (le16 r.sequence ++ twoBytes r.words.length ++ captureBytes r) s := by
  rw [readCaptureReply, h, captureBytes_eq]
  dsimp only
  rw [if_neg (by decide), if_neg (by simp [hrun]), if_pos rfl]
  rfl

theorem readCaptureReply_words {k : Byte} {r : Capture} (h : s.captures.storedRecord k.toNat = some r) (offset : Word16) (count : Byte) :
    let words := (r.words.drop offset.toNat).take (max 1 (min 100 count.toNat))
    readCaptureReply k 1 offset count s = accept (le16 r.sequence ++ twoBytes r.words.length ++
      byteOf words.length :: words.flatMap fun x => twoBytes x.toNat) s := by
  rw [readCaptureReply, h]
  dsimp only
  rw [if_neg (by decide), if_neg (by simp [hrun]), if_neg (by decide), listField_map]
  rfl

end

/-- Settles O19: each read's answer in the state with the receiver back in HUNTING, which no record shows. -/
theorem readsAnswerTheStateAndChangeNothing : Obligations.ReadsAnswerTheStateAndChangeNothing := by
  intro p n z d c i w k count offset s ht
  refine ⟨fun h1 h2 h3 => ?_, fun hrun => ?_⟩
  · have hready : storeUnready (frameTaken p s) = false := Bool.eq_false_iff.mpr fun k => by
      obtain hl | hw := (storeUnready_iff _).mp k
      · exact h2 hl
      · rw [show (frameTaken p s).loader.write = none from h3] at hw
        cases hw
    exact serve_answers ht _ n (readStoreReply_ready h1 hready)
  · have hrun : (frameTaken p s).isRunning = true := hrun
    exact ⟨serve_answers ht _ n (readIdentReply_running hrun), serve_answers ht _ n (readZonesReply_all hrun),
      serve_answers ht _ n (readZonesReply_one hrun z), serve_answers ht _ n (readDuctReply_one hrun d),
      serve_answers ht _ n (readTracksReply_all hrun d), fun h => serve_answers ht _ n (readTracksReply_one hrun d h),
      serve_answers ht _ n (readChannelsReply_all hrun), serve_answers ht _ n (readChannelsReply_one hrun c),
      serve_answers ht _ n (readOverlaysReply_one hrun d), serve_answers ht _ n (readDoorsReply_all hrun),
      serve_answers ht _ n (readDoorsReply_one hrun i), serve_answers ht _ n (readSirensReply_all hrun),
      serve_answers ht _ n (readSirensReply_one hrun w),
      fun r hr => ⟨serve_answers ht _ n (readCaptureReply_header hrun hr offset count),
        serve_answers ht _ n (readCaptureReply_words hrun hr offset count)⟩⟩

end Sys2Proof.Machine
end

