-- ==== Sys2Proof/Proofs/DoorNotices.lean ====
section
/-! PROOFS. Troubles after a raise and a clear (R13), and the events of doors: records and notices (R126 to R139). -/

namespace Sys2Proof.Machine

open Sys2Proof

/-! ### Troubles (R13) -/

theorem raised_of_zones {s t : State} (h : t.zones = s.zones) (z : Fin 16) (k : TroubleKind) (n : Nat) :
    Raised t z k n ↔ Raised s z k n := by
  unfold Raised
  rw [State.zone_eq_of_zones h]

theorem raised_raiseTrouble_iff (z y : Fin 16) (k l : TroubleKind) (n m : Nat) (s : State) :
    Raised (raiseTrouble z k n s) y l m ↔ (y = z ∧ l = k ∧ m = n) ∨ Raised s y l m := by
  unfold raiseTrouble Raised
  dsimp only
  by_cases hy : y = z
  · subst hy
    split
    next h =>
      refine ⟨.inr, fun x => x.elim (fun ⟨_, hl, hm⟩ => ?_) id⟩
      rwa [hl, hm]
    next h => simp [mem_addTrouble]
  · split
    · simp [hy]
    · simp [hy, State.setZone_zone_ne _ _ _ _ hy]

theorem raised_clearTrouble_ne {z y : Fin 16} {k l : TroubleKind} {n m : Nat} (s : State) (h : ¬(y = z ∧ l = k ∧ m = n)) :
    Raised (clearTrouble z k n s) y l m ↔ Raised s y l m := by
  unfold clearTrouble Raised
  dsimp only
  split
  next =>
    by_cases hy : y = z
    · subst hy
      have hne : (⟨l, m⟩ : Trouble) ≠ ⟨k, n⟩ := fun e => h ⟨rfl, congrArg Trouble.kind e, congrArg Trouble.subject e⟩
      simp [List.mem_erase_of_ne hne]
    · simp [State.setZone_zone_ne _ _ _ _ hy]
  next => rfl

theorem not_raised_clearTrouble {z : Fin 16} {s : State} (h : (s.zone z).troubles.Nodup) (k : TroubleKind) (n : Nat) :
    ¬Raised (clearTrouble z k n s) z k n := by
  unfold clearTrouble Raised
  dsimp only
  split
  next => simp [h.mem_erase_iff]
  next hnot => exact hnot

theorem raiseNotices_congr {s t : State} {z : Fin 16} {k : TroubleKind} {n : Nat} (h : Raised t z k n ↔ Raised s z k n) :
    raiseNotices t z k n = raiseNotices s z k n := if_congr h rfl rfl

theorem clearNotices_congr {s t : State} {z : Fin 16} {k : TroubleKind} {n : Nat} (h : Raised t z k n ↔ Raised s z k n) :
    clearNotices t z k n = clearNotices s z k n := if_congr h rfl rfl

/-! ### Notices of doors -/

theorem doorOffer_eq (i : Fin 12) (old new : Door) (cause : DoorCause) :
    doorOffer i old new cause = doorNotice i old new (byteOf cause.num) := by
  rw [doorOffer, doorNotice, holdBytes_eq, causeByte_eq]

theorem doorTrouble_told (i : Fin 12) (k : TroubleKind) (b : Bool) (s : State) :
    Told (doorTroubleNotices s i k b) s (doorTrouble i k b s) := by
  unfold doorTroubleNotices doorTrouble
  cases lowestZone s.cfg.doors[i].zones with
  | none => exact .refl s
  | some z =>
    cases b
    · exact clearTrouble_told z k i.val s
    · exact raiseTrouble_told z k i.val s

theorem doorTroubleNotices_congr {s t : State} {i : Fin 12} {k : TroubleKind} (hc : t.cfg = s.cfg)
    (h : ∀ z, Raised t z k i.val ↔ Raised s z k i.val) (b : Bool) : doorTroubleNotices t i k b = doorTroubleNotices s i k b := by
  unfold doorTroubleNotices
  rw [hc]
  cases lowestZone s.cfg.doors[i].zones with
  | none => rfl
  | some z =>
    dsimp only
    rw [raiseNotices_congr (h z), clearNotices_congr (h z)]

theorem raised_doorTrouble_ne {i j : Fin 12} {k l : TroubleKind} (hkind : l ≠ k) (b : Bool) (s : State) (z : Fin 16) :
    Raised (doorTrouble i k b s) z l j.val ↔ Raised s z l j.val := by
  unfold doorTrouble setTrouble
  cases lowestZone s.cfg.doors[i].zones with
  | none => rfl
  | some y =>
    dsimp only
    split
    · rw [raised_raiseTrouble_iff]
      exact or_iff_right fun h => hkind h.2.1
    · exact raised_clearTrouble_ne s fun h => hkind h.2.1

theorem doorTrouble_raised {i : Fin 12} {s : State} (h : s.cfg.doors[i].zones ≠ 0) (k : TroubleKind) :
    DoorTrouble (doorTrouble i k true s) i k := by
  obtain ⟨z, hz⟩ : ∃ z, lowestZone s.cfg.doors[i].zones = some z := by
    by_contra hnone
    have hnone : lowestZone s.cfg.doors[i].zones = none := Option.eq_none_iff_forall_ne_some.mpr fun z hz => hnone ⟨z, hz⟩
    refine h (BitVec.eq_of_getLsbD_eq fun b hb => ?_)
    simpa [zoneIn] using List.find?_eq_none.mp hnone ⟨b, hb⟩ (List.mem_finRange _)
  have hcfg : (doorTrouble i k true s).cfg = s.cfg := (doorTrouble_within i k true s).fixed.cfg_eq
  refine ⟨z, by rw [hcfg]; exact hz, ?_⟩
  rw [doorTrouble, hz]
  exact raised_raiseTrouble z k i.val s

theorem doorTrouble_cleared {i : Fin 12} {s : State} (h : ∀ z, (s.zone z).troubles.Nodup) (k : TroubleKind) :
    ¬DoorTrouble (doorTrouble i k false s) i k := by
  have hcfg : (doorTrouble i k false s).cfg = s.cfg := (doorTrouble_within i k false s).fixed.cfg_eq
  rintro ⟨z, hz, hr⟩
  rw [hcfg] at hz
  rw [doorTrouble, show lowestZone s.cfg.doors[i].zones = some z from hz] at hr
  exact not_raised_clearTrouble (h z) k i.val hr

/-- The event of a door offers its notices (R139). -/
theorem doorEvent_told (i : Fin 12) (new : Door) (cause : DoorCause) (s : State) :
    Told (doorNotices s (doorEvent i new cause s) i (byteOf cause.num)) s (doorEvent i new cause s) := by
  rw [doorNotices, doorEvent_door, if_pos rfl, ← doorOffer_eq]
  unfold doorEvent
  dsimp only
  have h1 : Told [doorOffer i (s.door i) new cause] s (offer (doorOffer i (s.door i) new cause) (s.setDoor i new)) :=
    .after (t := s.setDoor i new) rfl rfl (offer_told _ _)
  generalize hu : offer (doorOffer i (s.door i) new cause) (s.setDoor i new) = u at h1
  have hcfg : u.cfg = s.cfg := by rw [← hu]; rfl
  have htick : u.tick = s.tick := by rw [← hu]; rfl
  have hzones : u.zones = s.zones := by rw [← hu]; rfl
  split
  next =>
    refine h1.trans ?_ htick
    split
    next =>
      have h2 := doorTrouble_told i .doorStuck false u
      rw [doorTroubleNotices_congr hcfg fun z => raised_of_zones hzones z _ _] at h2
      refine h2.trans ?_ (doorTrouble_within i _ false u).fixed.tick_eq
      have h3 := doorTrouble_told i .doorPropped false (doorTrouble i .doorStuck false u)
      rwa [doorTroubleNotices_congr ((doorTrouble_within i _ false u).fixed.cfg_eq.trans hcfg) fun z =>
        (raised_doorTrouble_ne (by decide) false u z).trans (raised_of_zones hzones z _ _)] at h3
    next =>
      have h3 := doorTrouble_told i .doorPropped false u
      rwa [doorTroubleNotices_congr hcfg fun z => raised_of_zones hzones z _ _] at h3
  next => exact h1

/-- A door that does not come to FREE clears no trouble. -/
theorem doorEvent_staying {s : State} {new : Door} (i : Fin 12) (h : new.state ≠ .free) (cause : DoorCause) :
    doorEvent i new cause s = offer (doorOffer i (s.door i) new cause) (s.setDoor i new) := if_neg fun k => h k.1

/-! ### What a door's event leaves -/

theorem DoorStep.stays {i : Fin 12} {s t : State} (h : DoorStep s t) (hd : KeepsOtherDoors i s t) : StaysAtDoor i s t :=
  ⟨h.within.fixed, ⟨h.within.channels rfl, h.within.stations rfl, h.within.inputs rfl, h.within.captures rfl⟩, hd, h.hazards,
    h.within.ducts rfl, h.within.arbiter rfl⟩

theorem doorEvent_stays (i : Fin 12) (x : Door) (c : DoorCause) (s : State) : StaysAtDoor i s (doorEvent i x c s) :=
  (doorEvent_doorStep i x c s).stays fun j hj => by rw [doorEvent_door, if_neg hj]

theorem StaysAtDoor.refl (i : Fin 12) (s : State) : StaysAtDoor i s s :=
  (DoorStep.refl s).stays fun _ _ => rfl

theorem doorEvent_door_self (i : Fin 12) (x : Door) (c : DoorCause) (s : State) : (doorEvent i x c s).door i = x := by
  rw [doorEvent_door, if_pos rfl]

theorem setDoor_stays (i : Fin 12) (x : Door) (s : State) : StaysAtDoor i s (s.setDoor i x) :=
  (setDoor_doorStep i x s).stays fun j hj => s.setDoor_door_ne i j x hj

theorem StaysAtDoor.trans {i : Fin 12} {s t u : State} (h : StaysAtDoor i s t) (k : StaysAtDoor i t u) : StaysAtDoor i s u := by
  obtain ⟨hf, ⟨h1, h2, h3, h4⟩, hd, hz, hducts, ha⟩ := h
  obtain ⟨kf, ⟨k1, k2, k3, k4⟩, kd, kz, kducts, ka⟩ := k
  exact ⟨hf.trans kf, ⟨k1.trans h1, k2.trans h2, k3.trans h3, k4.trans h4⟩, fun j hj => (kd j hj).trans (hd j hj), hz.trans kz,
    kducts.trans hducts, ka.trans ha⟩

theorem doorTrouble_stays (i : Fin 12) (k : TroubleKind) (b : Bool) (s : State) : StaysAtDoor i s (doorTrouble i k b s) :=
  (doorTrouble_doorStep i k b s).stays fun j _ => State.door_eq_of_doors (doorTrouble_doors i k b s) j

/-! ### Records of doors -/

theorem toClosing_eq (c : DoorCfg) (now : Tick) (x : Door) : x.toClosing c now = { x with
    magnet := false, obstruction := none, propped := none, state := if x.closedSwitch then .free else .closing,
    close := if x.closedSwitch then none else some (now.plus (4000 * c.closeTime)) } := by
  unfold Door.toClosing
  split
  next h => simp [h, Door.toFree, Door.enter, magnetOn]
  next h => simp [h, Door.enter, magnetOn, secondsTicks]

theorem release_letGo (c : DoorCfg) (now : Tick) (cause : ReleaseCause) (x : Door) : LetGo c now cause x (x.release c now cause) := by
  unfold Door.release
  dsimp only
  split
  next h =>
    rw [Bool.and_eq_true, decide_eq_true_iff] at h
    refine ⟨rfl, rfl, rfl, rfl, rfl, rfl, ?_⟩
    rw [if_pos h]
    exact ⟨rfl, rfl, rfl, rfl⟩
  next h =>
    rw [Bool.and_eq_true, decide_eq_true_iff] at h
    rw [toClosing_eq]
    refine ⟨rfl, rfl, rfl, rfl, rfl, rfl, ?_⟩
    rw [if_neg h]
    dsimp only
    split
    next => simp
    next => simp

theorem toHeld_eq {p : Port} (hp : p ≠ .sv) (ends : Tick) (x : Door) : x.toHeld p ends = { x with
    state := .held, magnet := true, cause := none, obstruction := none, close := none, propped := none,
    holdFp := if p = .fp then some ends else x.holdFp, holdPc := if p = .pc then some ends else x.holdPc } := by
  cases p
  · rfl
  · rfl
  · exact absurd rfl hp

theorem setHold_none_eq {p : Port} (hp : p ≠ .sv) (x : Door) : x.setHold p none = { x with
    holdFp := if p = .fp then none else x.holdFp, holdPc := if p = .pc then none else x.holdPc } := by
  cases p
  · rfl
  · rfl
  · exact absurd rfl hp

theorem setHold_noHolds {p : Port} (hp : p ≠ .sv) (x : Door) :
    (x.setHold p none).noHolds = true ↔ (if p = .fp then x.holdPc else x.holdFp) = none := by
  cases p
  · simp [Door.setHold, Door.noHolds]
  · simp [Door.setHold, Door.noHolds]
  · exact absurd rfl hp

/-! ### The obligations on doors -/

theorem not_idle {s : State} (h : s.isRunning = true) : ¬(!s.isRunning) = true := by simp [h]

theorem doorStateBytes_eq (s : State) (i : Fin 12) : doorStateBytes s i = doorAnswer s i := by
  rw [doorStateBytes, doorAnswer, causeByte_eq, holdBytes_eq]

/-- A door's request that is accepted: the door's event, with the door's record in the answer. -/
theorem door_accepts {p : Port} {s : State} (ht : TakesFrame s p) (i : Fin 12) (code n : Byte) {reply : State → Reply}
    {t : State} (hr : reply (frameTaken p s) = accept (doorAnswer t i) t) {l : List Offer} (hw : Within .closing (frameTaken p s) t)
    (htold : Told l (frameTaken p s) t) :
    let answer : Response := ⟨code, n, .ok, doorStateBytes t i⟩
    live s (serve p code n reply) = .next (issue p answer t) ∧ Answers p answer s (issue p answer t) ∧
      OffersAll l (s.answered p answer) (issue p answer t) := by
  dsimp only
  rw [doorStateBytes_eq]
  exact ⟨serve_accepts ht code n hr, hw.answers _, (htold.answered _).offersAll⟩

/-- Settles O52: the door's event with the record that HOLD_DOOR gives it. -/
theorem holdDoorHoldsTheDoor : Obligations.HoldDoorHoldsTheDoor := by
  intro p n i seconds s hp ht hrun x k ends hzones hstate
  have hallowed : ¬(!(frameTaken p s).isRunning || doorZoneCondition (frameTaken p s) i || !((frameTaken p s).door i).holdable) = true := by
    rw [holdForbidden_iff]
    rintro (h | ⟨z, hz, h⟩ | h)
    · exact Bool.noConfusion (h.symm.trans hrun)
    · exact h.elim (hzones z hz).1 fun h => (hzones z hz).2 h.1 h.2
    · have hx : (frameTaken p s).door i = x := rfl
      rw [hx] at h
      obtain hs | hs | ⟨hs, hc | hc | hc⟩ := hstate <;> simp_all
  have hreply : holdDoorReply p (byteOf i.val) seconds (frameTaken p s) =
      accept (doorAnswer (doorEvent i (x.toHeld p ends) .hold (frameTaken p s)) i) (doorEvent i (x.toHeld p ends) .hold (frameTaken p s)) := by
    rw [holdDoorReply, doorOperand, indexBelow_byteOf (by decide)]
    dsimp only
    rw [if_neg hp, if_neg hallowed]
    rfl
  obtain ⟨hexec, hanswers, htold⟩ := door_accepts ht i codeHoldDoor n hreply (doorEvent_within i _ _ _) (doorEvent_told i _ _ _)
  refine ⟨_, hexec, hanswers, htold, ?_, ?_, doorEvent_stays i (x.toHeld p ends) .hold (frameTaken p s)⟩
  · exact (doorEvent_door_self i _ _ _).trans (toHeld_eq hp ends x)
  · have hnot : (x.toHeld p ends).state ≠ .free := by
      rw [toHeld_eq hp]
      nofun
    rw [doorEvent_staying (s := frameTaken p s) i hnot .hold]
    rfl

/-- What the removal of a port's hold leaves (R130, R131). -/
theorem dropHold_left {p : Port} (hp : p ≠ .sv) (i : Fin 12) (staying : DoorCause) (cause : ReleaseCause) (s : State) :
    let x := s.door i
    let other := if p = .fp then x.holdPc else x.holdFp
    let t := dropHold i p staying cause s
    Told (doorNotices s t i (if other = none then byteOf cause.num else byteOf staying.num)) s t ∧
      (other = none → LetGo s.cfg.doors[i] s.tick cause x (t.door i)) ∧
      (other.isSome = true → t.door i = { x with
        holdFp := if p = .fp then none else x.holdFp, holdPc := if p = .pc then none else x.holdPc }) ∧ StaysAtDoor i s t := by
  intro x other t
  have hother := setHold_noHolds hp x
  by_cases ho : other = none
  · have ht : t = doorEvent i ((x.setHold p none).release s.cfg.doors[i] s.tick cause) (.release cause) s := if_pos (hother.mpr ho)
    rw [ht, if_pos ho, doorEvent_door_self]
    refine ⟨doorEvent_told i _ (.release cause) s, fun _ => ?_, fun h => ?_, doorEvent_stays i _ _ s⟩
    · have h := release_letGo s.cfg.doors[i] s.tick cause (x.setHold p none)
      rwa [setHold_none_eq hp] at h ⊢
    · rw [ho] at h
      cases h
  · have ht : t = doorEvent i (x.setHold p none) staying s := if_neg fun h => ho (hother.mp h)
    rw [ht, if_neg ho, doorEvent_door_self]
    exact ⟨doorEvent_told i _ staying s, fun h => absurd h ho, fun _ => setHold_none_eq hp x, doorEvent_stays i _ _ s⟩

theorem LetGo.not_held {c : DoorCfg} {now : Tick} {cause : ReleaseCause} {x y : Door} (h : LetGo c now cause x y) : y.state ≠ .held := by
  obtain ⟨_, _, _, _, _, _, h⟩ := h
  intro hy
  rw [hy] at h
  split at h
  · exact absurd h.1 (by decide)
  · split at h <;> exact absurd h.1 (by decide)

/-- What CLOSE_DOOR leaves (R132). -/
theorem closeDoor_left (i : Fin 12) (s : State) :
    let x := s.door i
    let t := closeDoor i s
    Told (if t.door i = x then [] else doorNotices s t i 2) s t ∧ StaysAtDoor i s t ∧
      (x.state = .held → LetGo s.cfg.doors[i] s.tick .closeRequest x (t.door i)) ∧
      (x.state = .releaseWait → x.cause = some .holdExpired ∨ x.cause = some .holdWithdrawn →
        t.door i = { x with cause := some .closeRequest }) ∧
      (x.state = .releaseWait → x.cause = some .closeRequest ∨ x.cause = some .zoneAlarm ∨ x.cause = some .zoneFire →
        t.door i = x) ∧
      (x.state = .free ∨ x.state = .closing ∨ x.state = .stuck → t.door i = x) := by
  intro x t
  have moved {new : Door} (ht : t = doorEvent i new (.release .closeRequest) s) (hne : new ≠ x) :
      Told (if t.door i = x then [] else doorNotices s t i 2) s t ∧ StaysAtDoor i s t ∧ t.door i = new := by
    rw [ht, doorEvent_door_self, if_neg hne]
    exact ⟨doorEvent_told i new (.release .closeRequest) s, doorEvent_stays i _ _ s, rfl⟩
  have kept (ht : t = s) : Told (if t.door i = x then [] else doorNotices s t i 2) s t ∧ StaysAtDoor i s t ∧ t.door i = x := by
    rw [ht, if_pos rfl]
    exact ⟨.refl s, .refl i s, rfl⟩
  have still (hstate : x.state ≠ .held) (hcause : x.state = .releaseWait → ¬(x.cause = some .holdExpired ∨ x.cause = some .holdWithdrawn)) :
      t = s := by
    show closeDoor i s = s
    unfold closeDoor
    dsimp only
    split
    next h => exact absurd h hstate
    next h =>
      split
      next hc => exact absurd (.inl hc) (hcause h)
      next hc => exact absurd (.inr hc) (hcause h)
      next => rfl
    all_goals rfl
  by_cases hheld : x.state = .held
  · have hgo := release_letGo s.cfg.doors[i] s.tick .closeRequest x
    have ht : t = doorEvent i (x.release s.cfg.doors[i] s.tick .closeRequest) (.release .closeRequest) s := by
      show closeDoor i s = _
      rw [closeDoor, show (s.door i).state = .held from hheld]
      rfl
    obtain ⟨htold, hstays, hdoor⟩ := moved ht fun e => hgo.not_held ((congrArg Door.state e).trans hheld)
    rw [hheld, hdoor]
    exact ⟨by rwa [hdoor] at htold, hstays, fun _ => hgo, nofun, nofun, by simp⟩
  by_cases hwait : x.state = .releaseWait ∧ (x.cause = some .holdExpired ∨ x.cause = some .holdWithdrawn)
  · obtain ⟨hs, hc⟩ := hwait
    have ht : t = doorEvent i { x with cause := some .closeRequest } (.release .closeRequest) s := by
      show closeDoor i s = _
      rw [closeDoor, show (s.door i).state = .releaseWait from hs]
      obtain hc | hc := hc
      all_goals rw [show (s.door i).cause = _ from hc]
    obtain ⟨htold, hstays, hdoor⟩ := moved ht fun e => by
      have hcause := congrArg Door.cause e
      obtain hc | hc := hc
      all_goals
        rw [hc] at hcause
        cases hcause
    rw [hdoor]
    refine ⟨by rwa [hdoor] at htold, hstays, fun h => absurd h hheld, fun _ _ => rfl, fun _ h => ?_, fun h => ?_⟩
    case refine_2 => simp [hs] at h
    obtain hc | hc := hc
    all_goals
      rw [hc] at h
      simp at h
  · obtain ⟨htold, hstays, hdoor⟩ := kept (still hheld fun h k => hwait ⟨h, k⟩)
    exact ⟨htold, hstays, fun h => absurd h hheld, fun h k => absurd ⟨h, k⟩ hwait, fun _ _ => hdoor, fun _ => hdoor⟩

/-- Settles O53: the removal of a hold, and CLOSE_DOOR by the door's state. -/
theorem doorsAreLetGo : Obligations.DoorsAreLetGo := by
  intro p n i s hp ⟨hup, hrun⟩ x mine other left
  have hhold : x.hold p = mine := Door.hold_eq hp x
  have hoperand : doorOperand (byteOf i.val) = some i := indexBelow_byteOf (by decide) i
  refine ⟨fun ht hm => ?_, fun ht hm => ?_, fun hm => ?_, fun ht => ?_⟩
  · have hreply : unholdDoorReply p (byteOf i.val) (frameTaken p s) =
        accept (doorAnswer (dropHold i p .unhold .holdWithdrawn (frameTaken p s)) i)
          (dropHold i p .unhold .holdWithdrawn (frameTaken p s)) := by
      rw [unholdDoorReply, hoperand]
      dsimp only
      rw [if_neg hp, if_neg (not_idle (s := frameTaken p s) hrun),
        if_neg (by rw [show ((frameTaken p s).door i).hold p = mine from hhold, Option.isNone_eq_false_iff.mpr hm]; decide)]
    obtain ⟨htold, hgo, hstay, hstays⟩ := dropHold_left hp i .unhold .holdWithdrawn (frameTaken p s)
    obtain ⟨hexec, hanswers, htold⟩ := door_accepts ht i codeUnholdDoor n hreply (dropHold_within i p _ _ _) htold
    exact ⟨_, hexec, hanswers, htold, hgo, hstay, hstays⟩
  · rw [doorStateBytes_eq]
    refine serve_refuses ht codeUnholdDoor n ?_
    rw [unholdDoorReply, hoperand]
    dsimp only
    rw [if_neg hp, if_neg (not_idle (s := frameTaken p s) hrun), if_pos (by rw [show ((frameTaken p s).door i).hold p = mine from hhold, hm]; rfl)]
    rfl
  · have hexec : exec (.holdExpiry i p) s = .next (dropHold i p .expiry .holdExpired s) := by
      refine (whenRunning_working s _ ⟨hup, hrun⟩).trans ?_
      rw [holdExpires, expiresNow, decide_eq_true (hhold.trans hm), if_pos rfl]
    obtain ⟨htold, hgo, hstay, hstays⟩ := dropHold_left hp i .expiry .holdExpired s
    exact ⟨_, hexec, (dropHold_within i p _ _ s).links, htold.offersAll, hgo, hstay, hstays⟩
  · have hreply : closeDoorReply p (byteOf i.val) (frameTaken p s) =
        accept (doorAnswer (closeDoor i (frameTaken p s)) i) (closeDoor i (frameTaken p s)) := by
      rw [closeDoorReply, hoperand]
      dsimp only
      rw [if_neg hp, if_neg (not_idle (s := frameTaken p s) hrun)]
    obtain ⟨htold, hstays, hcases⟩ := closeDoor_left i (frameTaken p s)
    obtain ⟨hexec, hanswers, htold⟩ := door_accepts ht i codeCloseDoor n hreply (closeDoor_within i _) htold
    exact ⟨_, hexec, hanswers, hstays, htold, hcases⟩

end Sys2Proof.Machine
end

