-- ==== Sys2Proof/Proofs/DoorSupervision.lean ====
section
/-! PROOFS. The inputs and the supervision timers of doors (R127, R135 to R138). -/

namespace Sys2Proof.Machine

open Sys2Proof

/-- A door's notices follow the door's record alone. -/
theorem doorNotices_congr {i : Fin 12} {t u : State} (h : t.door i = u.door i) (s : State) (cause : Byte) :
    doorNotices s t i cause = doorNotices s u i cause := by
  unfold doorNotices
  rw [h]

/-! ### The closed switch -/

/-- A door that comes to FREE clears its standing troubles (R136, R138). -/
theorem doorEvent_freed {i : Fin 12} {s : State} {new : Door} (hok : ZonesOk s) (hnew : new.state = .free)
    (hold : (s.door i).state ≠ .free) (cause : DoorCause) :
    ¬DoorTrouble (doorEvent i new cause s) i .doorPropped ∧
      ((s.door i).state = .stuck → ¬DoorTrouble (doorEvent i new cause s) i .doorStuck) := by
  unfold doorEvent
  dsimp only
  rw [if_pos ⟨hnew, hold⟩]
  generalize hu : offer (doorOffer i (s.door i) new cause) (s.setDoor i new) = u
  have hnodup : ∀ z, (u.zone z).troubles.Nodup := fun z => by
    have ⟨_, _, h⟩ := hok z
    rw [← hu]
    exact h
  split
  next =>
    refine ⟨doorTrouble_cleared (fun z => (doorTrouble_doorStep i .doorStuck false u).nodup z (hnodup z)) .doorPropped, fun _ => ?_⟩
    rintro ⟨z, hz, hr⟩
    refine doorTrouble_cleared hnodup .doorStuck ⟨z, ?_, (raised_doorTrouble_ne (by decide) false _ z).mp hr⟩
    rwa [(doorTrouble_within i .doorPropped false _).fixed.cfg_eq] at hz
  next h => exact ⟨doorTrouble_cleared hnodup .doorPropped, fun k => absurd k h⟩

/-- A closed switch that turns inactive (R137). -/
theorem closedSwitchEvent_opened {i : Fin 12} {s : State} (hne : (s.door i).closedSwitch ≠ false) :
    closedSwitchEvent i false s = s.setDoor i { s.door i with
      closedSwitch := false,
      propped := if (s.door i).state = .free then some (s.tick.plus (4000 * s.cfg.doors[i].proppedTime)) else (s.door i).propped } := by
  unfold closedSwitchEvent
  dsimp only
  rw [if_neg hne, if_neg (by decide)]
  split
  next h => rw [if_pos h]; rfl
  next h => rw [if_neg h]

/-- A closed switch that turns active shuts a door that was on its way (R136). -/
theorem closedSwitchEvent_shut {i : Fin 12} {s : State} (hne : (s.door i).closedSwitch ≠ true)
    (h : (s.door i).state = .closing ∨ (s.door i).state = .stuck) :
    closedSwitchEvent i true s = doorEvent i { s.door i with closedSwitch := true }.toFree .closed s := by
  unfold closedSwitchEvent
  dsimp only
  rw [if_neg hne, if_pos rfl]
  obtain h | h := h
  all_goals rw [h]

/-- A closed switch that turns active at any other door clears DOOR_PROPPED (R138). -/
theorem closedSwitchEvent_still {i : Fin 12} {s : State} (hne : (s.door i).closedSwitch ≠ true)
    (h : ¬((s.door i).state = .closing ∨ (s.door i).state = .stuck)) :
    closedSwitchEvent i true s = doorTrouble i .doorPropped false (s.setDoor i { s.door i with
      closedSwitch := true, propped := if (s.door i).state = .free then none else (s.door i).propped }) := by
  unfold closedSwitchEvent
  dsimp only
  rw [if_neg hne, if_pos rfl]
  split
  next k => exact absurd (.inl k) h
  next k => exact absurd (.inr k) h
  next k => rw [if_pos k]
  next k => rw [if_neg fun e => absurd (e.symm.trans k) (by decide)]
  next k => rw [if_neg fun e => absurd (e.symm.trans k) (by decide)]

/-- What a changed closed switch leaves of its door (R127, R135 to R138). -/
theorem closedSwitchEvent_left {i : Fin 12} {active : Bool} {s : State} (hok : ZonesOk s) (hne : (s.door i).closedSwitch ≠ active) :
    let x := s.door i
    let t := closedSwitchEvent i active s
    KeepsLinks s t ∧ StaysAtDoor i s t ∧
      Told (if active = true ∧ (x.state = .closing ∨ x.state = .stuck) then doorNotices s t i 10
        else if active then doorTroubleNotices s i .doorPropped false else []) s t ∧
      (active = true → x.state = .closing ∨ x.state = .stuck → t.door i = { x with
        state := .free, magnet := false, closedSwitch := true, obstruction := none, close := none, propped := none } ∧
        (x.state = .stuck → ¬DoorTrouble t i .doorStuck)) ∧
      (active = true → ¬DoorTrouble t i .doorPropped) ∧
      (active = true → x.state = .free → t.door i = { x with closedSwitch := true, propped := none }) ∧
      (active = true → x.state = .held ∨ x.state = .releaseWait → t.door i = { x with closedSwitch := true }) ∧
      (active = false → t.door i = { x with
        closedSwitch := false,
        propped := if x.state = .free then some (s.tick.plus (4000 * s.cfg.doors[i].proppedTime)) else x.propped }) := by
  dsimp only
  cases active with
  | false =>
    rw [closedSwitchEvent_opened hne]
    exact ⟨(setDoor_within s i _).links, setDoor_stays i _ s, .of_ports rfl, nofun, nofun, nofun, nofun, fun _ => s.setDoor_door_self i _⟩
  | true =>
    by_cases hshuts : (s.door i).state = .closing ∨ (s.door i).state = .stuck
    · have hold : (s.door i).state ≠ .free := fun h => by simp [h] at hshuts
      obtain ⟨hpropped, hstuck⟩ := doorEvent_freed (new := { s.door i with closedSwitch := true }.toFree) hok rfl hold .closed
      rw [if_pos ⟨rfl, hshuts⟩, closedSwitchEvent_shut hne hshuts]
      exact ⟨(doorEvent_within i _ _ s).links, doorEvent_stays i _ _ s, doorEvent_told i _ .closed s,
        fun _ _ => ⟨doorEvent_door_self i _ _ s, hstuck⟩, fun _ => hpropped, fun _ h => absurd h hold,
        fun _ h => by obtain h | h := h <;> simp [h] at hshuts, nofun⟩
    · have hset := closedSwitchEvent_still hne hshuts
      generalize hy : ({ s.door i with closedSwitch := true, propped := if (s.door i).state = .free then none else (s.door i).propped } :
        Door) = y at hset
      have hdoor : (closedSwitchEvent i true s).door i = y := by
        rw [hset]
        exact (State.door_eq_of_doors (doorTrouble_doors i _ _ _) i).trans (s.setDoor_door_self i _)
      rw [if_neg fun h => hshuts h.2, if_pos rfl, hdoor, hset]
      refine ⟨((setDoor_within s i y).mono (n := .closing) rfl |>.trans ((doorTrouble_within i _ _ _).mono rfl)).links,
        (setDoor_stays i y s).trans (doorTrouble_stays i _ _ _),
        .after (t := s.setDoor i y) rfl rfl (doorTrouble_told i .doorPropped false _), fun _ h => absurd h hshuts,
        fun _ => doorTrouble_cleared (fun z => ?_) .doorPropped, fun _ h => ?_, fun _ h => ?_, nofun⟩
      · obtain ⟨_, _, h⟩ := hok z
        exact h
      · rw [← hy, if_pos h]
      · rw [← hy, if_neg fun k => by simp [k] at h]

/-! ### The barrier -/

/-- What a changed barrier leaves of its door (R127, R135). -/
theorem barrierEvent_left {i : Fin 12} {active : Bool} {s : State} (hne : (s.door i).barrier ≠ active) :
    let x := s.door i
    let t := barrierEvent i active s
    KeepsLinks s t ∧ StaysAtDoor i s t ∧ Told (if active = false ∧ x.state = .releaseWait then doorNotices s t i 8 else []) s t ∧
      (active = true ∨ x.state ≠ .releaseWait → t.door i = { x with barrier := active }) ∧
      (active = false → x.state = .releaseWait → t.door i = { x with
        barrier := false, magnet := false, obstruction := none, propped := none,
        state := if x.closedSwitch then .free else .closing,
        close := if x.closedSwitch then none else some (s.tick.plus (4000 * s.cfg.doors[i].closeTime)) }) := by
  intro x t
  have ht : barrierEvent i active s = t := rfl
  unfold barrierEvent at ht
  dsimp only at ht
  rw [if_neg hne] at ht
  by_cases hwait : active = false ∧ x.state = .releaseWait
  · obtain ⟨rfl, hstate⟩ := hwait
    rw [if_pos (show (!false && decide ((s.door i).state = .releaseWait)) = true by
      rw [decide_eq_true (show (s.door i).state = .releaseWait from hstate)]; rfl)] at ht
    rw [if_pos ⟨rfl, hstate⟩, ← ht]
    refine ⟨(doorEvent_within i _ _ s).links, doorEvent_stays i _ _ s, doorEvent_told i _ .barrier s, fun h => ?_, fun _ _ => ?_⟩
    · exact h.elim nofun fun k => absurd hstate k
    · exact (doorEvent_door_self i _ _ s).trans (toClosing_eq _ _ _)
  · have hnot : ¬(!active && decide ((s.door i).state = .releaseWait)) = true := by
      simpa using hwait
    rw [if_neg hnot] at ht
    rw [if_neg hwait, ← ht]
    exact ⟨(setDoor_within s i _).links, setDoor_stays i _ s, .of_ports rfl, fun _ => s.setDoor_door_self i _,
      fun ha hs => absurd ⟨ha, hs⟩ hwait⟩

/-- Settles O54: the two leads and their samples. -/
theorem doorInputsMoveTheDoor : Obligations.DoorInputsMoveTheDoor := by
  intro i active s hup hok x k closed barred
  refine ⟨fun h => ?_, fun h hx => ?_, fun h hx => ?_, fun h => ?_, fun h hx => ?_, fun h hx => ?_⟩
  · exact (live_up closed _ hup).trans (congrArg Host.Outcome.next (sampling_idle (x := .closedSwitch i) (s := closed) h _))
  · refine (live_up closed _ hup).trans (congrArg Host.Outcome.next ((sampling_due (x := .closedSwitch i) (s := closed) h _).trans ?_))
    exact if_pos hx
  · have hleft := closedSwitchEvent_left (i := i) (active := active) (s := closed.tookSample (.closedSwitch i)) hok hx
    obtain ⟨hlinks, hstays, htold, hrest⟩ := hleft
    refine ⟨_, (live_up closed _ hup).trans (congrArg Host.Outcome.next (sampling_due (x := .closedSwitch i) (s := closed) h _)), hlinks, hstays,
      (Told.after (s := s) (t := closed.tookSample (.closedSwitch i)) rfl rfl htold).offersAll, hrest⟩
  · exact (live_up barred _ hup).trans (congrArg Host.Outcome.next (sampling_idle (x := .barrier i) (s := barred) h _))
  · refine (live_up barred _ hup).trans (congrArg Host.Outcome.next ((sampling_due (x := .barrier i) (s := barred) h _).trans ?_))
    exact if_pos hx
  · have hleft := barrierEvent_left (i := i) (active := active) (s := barred.tookSample (.barrier i)) hx
    obtain ⟨hlinks, hstays, htold, hrest⟩ := hleft
    refine ⟨_, (live_up barred _ hup).trans (congrArg Host.Outcome.next (sampling_due (x := .barrier i) (s := barred) h _)), hlinks, hstays,
      (Told.after (s := s) (t := barred.tookSample (.barrier i)) rfl rfl htold).offersAll, hrest⟩

/-! ### The timers -/

/-- An expiry at the present tick in the state that its timer runs in. -/
theorem expires_in {s : State} {timer : Option Tick} {p : Prop} [Decidable p] (h : timer = some s.tick) (hp : p) :
    (expiresNow s timer && decide p) = true := by
  rw [expiresNow, decide_eq_true h, decide_eq_true hp]
  rfl

/-- Settles O55: the ends of the three supervision timers. -/
theorem doorTimersSuperviseTheDoor : Obligations.DoorTimersSuperviseTheDoor := by
  intro i s hw x k
  refine ⟨fun htimer hstate => ?_, fun htimer hstate => ?_, fun htimer hstate => ?_⟩
  · have hexec : exec (.obstructionTimerExpiry i) s = .next (doorEvent i (x.toClosing k s.tick) .waitExpired s) :=
      (whenRunning_working s _ hw).trans (congrArg Host.Outcome.next (if_pos (expires_in htimer hstate)))
    exact ⟨_, hexec, (doorEvent_door_self i _ _ s).trans (toClosing_eq k s.tick x), (doorEvent_told i _ .waitExpired s).offersAll,
      (doorEvent_within i _ _ s).links, doorEvent_stays i _ _ s⟩
  · let u := doorEvent i { x.enter .stuck with close := none } .closeTimeout s
    have hexec : exec (.closeTimerExpiry i) s = .next (doorTrouble i .doorStuck true u) :=
      (whenRunning_working s _ hw).trans (congrArg Host.Outcome.next (if_pos (expires_in htimer hstate)))
    have hu : u = offer (doorOffer i x { x.enter .stuck with close := none } .closeTimeout) (s.setDoor i { x.enter .stuck with close := none }) :=
      doorEvent_staying i (by decide : DoorState.stuck ≠ .free) .closeTimeout
    have hfixed := (doorEvent_within i { x.enter .stuck with close := none } .closeTimeout s).fixed
    have hzones : u.zones = s.zones := (congrArg State.zones hu).trans rfl
    have hdoor : (doorTrouble i .doorStuck true u).door i = u.door i := State.door_eq_of_doors (doorTrouble_doors i _ _ u) i
    have htold := doorTrouble_told i .doorStuck true u
    rw [doorTroubleNotices_congr hfixed.cfg_eq fun z => raised_of_zones hzones z _ _] at htold
    refine ⟨_, hexec, hdoor.trans (doorEvent_door_self i _ _ s), fun hz => doorTrouble_raised (by rwa [hfixed.cfg_eq]) .doorStuck, ?_, ?_,
      (doorEvent_stays i _ _ s).trans (doorTrouble_stays i _ _ u)⟩
    · rw [doorNotices_congr hdoor]
      exact ((doorEvent_told i _ .closeTimeout s).trans htold hfixed.tick_eq).offersAll
    · exact ((doorEvent_within i _ .closeTimeout s).trans (doorTrouble_within i .doorStuck true u |>.mono rfl)).links
  · let u := s.setDoor i { x with propped := none }
    have hexec : exec (.proppedTimerExpiry i) s = .next (doorTrouble i .doorPropped true u) :=
      (whenRunning_working s _ hw).trans (congrArg Host.Outcome.next (if_pos (expires_in htimer hstate)))
    refine ⟨_, hexec, (State.door_eq_of_doors (doorTrouble_doors i _ _ u) i).trans (s.setDoor_door_self i _),
      fun hz => doorTrouble_raised (s := u) hz .doorPropped, ?_, ?_, (setDoor_stays i _ s).trans (doorTrouble_stays i _ _ u)⟩
    · exact (Told.after (t := u) rfl rfl (doorTrouble_told i .doorPropped true u)).offersAll
    · exact ((setDoor_within s i { x with propped := none }).mono (n := .closing) rfl |>.trans
        ((doorTrouble_within i .doorPropped true u).mono rfl)).links

end Sys2Proof.Machine
end

