-- ==== Sys2Proof/Proofs/OverlayNotices.lean ====
section
/-! PROOFS. The pushes, pops and expiries of overlay entries (R115 to R122). -/

namespace Sys2Proof.Machine

open Sys2Proof

theorem effective_eq (s : State) (d : Fin 4) : s.effective d = paramsUnder s d (s.duct d).overlays := rfl

theorem effective_setOverlays (s : State) (d : Fin 4) (l : List Overlay) : (s.setOverlays d l).effective d = paramsUnder s d l := by
  rw [effective_eq]
  exact congrArg (paramsUnder (s.setOverlays d l) d) (congrArg Duct.overlays (s.setDuct_duct_self d _))

theorem overlayOffer_eq (d : Fin 4) (cause : OverlayCause) (old new : Nat) (e : Overlay) (position : Nat) (eff : RateParams) :
    overlayOffer d cause old new e position eff = overlayNotice d (byteOf cause.num) old new e position eff := rfl

/-- A duct's event that gives it another overlay stack and touches nothing else. -/
def OnlyOverlays (d : Fin 4) (l : List Overlay) (s t : State) : Prop :=
  t.duct d = { s.duct d with overlays := l } ∧ KeepsFixed s t ∧ KeepsDetectors s t ∧ KeepsOtherDucts d s t ∧
    t.zones = s.zones ∧ t.doors = s.doors ∧ t.arbiter = s.arbiter

/-- An entry that enters or leaves a stack, with its notice (R122). -/
theorem overlay_moved (d : Fin 4) (l : List Overlay) (cause : OverlayCause) (old new : Nat) (e : Overlay) (position : Nat) (s : State) :
    let s1 := s.setOverlays d l
    let t := offer (overlayOffer d cause old new e position (s1.effective d)) s1
    OnlyOverlays d l s t ∧ Within { ducts := true } s t ∧
      Told [overlayNotice d (byteOf cause.num) old new e position (paramsUnder s d l)] s t := by
  intro s1 t
  have hw : Within { ducts := true } s t := setOverlays_within d l _ s
  refine ⟨⟨s.setDuct_duct_self d _, hw.fixed, ⟨hw.channels rfl, hw.stations rfl, hw.inputs rfl, hw.captures rfl⟩,
    fun f hf => s.setDuct_duct_ne d f _ hf, rfl, rfl, rfl⟩, hw, ?_⟩
  rw [← effective_setOverlays, ← overlayOffer_eq]
  exact .after (t := s1) rfl rfl (offer_told _ s1)

/-- Removal counted from the bottom is removal counted from the top (R115, Assumption 23). -/
theorem removeFromBottom_eq {l : List Overlay} {position : Nat} (h : position < l.length) :
    removeFromBottom l position = l.eraseIdx (l.length - 1 - position) := by
  rw [removeFromBottom, List.eraseIdx_eq_take_drop_succ, List.eraseIdx_eq_take_drop_succ, List.reverse_append, List.take_reverse,
    List.drop_reverse, List.reverse_reverse, List.reverse_reverse]
  congr 2 <;> omega

theorem entryFromBottom_eq {l : List Overlay} {position : Nat} (h : position < l.length) :
    entryFromBottom l position = l[l.length - 1 - position]? := List.getElem?_reverse h

theorem pop_allowed {p : Port} {owner : Port} (h : p = .fp ∨ (p = .pc ∧ owner = .pc)) : p ≠ .sv ∧ ¬(p = .pc ∧ owner ≠ .pc) := by
  obtain rfl | ⟨rfl, ho⟩ := h
  · exact ⟨nofun, fun h => nomatch h.1⟩
  · exact ⟨nofun, fun h => h.2 ho⟩

/-- Settles O51: the stack that each event leaves, with its notice. -/
theorem overlaysPushPopAndExpire : Obligations.OverlaysPushPopAndExpire := by
  intro p n d position duration offset nq a b c window s ⟨hup, hrun⟩ l stack ends
  refine ⟨?_, ?_, ?_⟩
  · intro hp ht ho hq1 hq16 hw1 hw60 hlevel hroom e answer
    obtain ⟨honly, hw, htold⟩ := overlay_moved d (e :: l) .pushed l.length (l.length + 1) e l.length (frameTaken p s)
    refine ⟨_, serve_accepts ht codePushOverlay n ?_, hw.answers answer, honly, (htold.answered answer).offersAll⟩
    rw [pushOverlayReply, ductOperand_number]
    dsimp only
    rw [if_neg hp, if_neg (by simp; omega), if_neg (by rw [show (frameTaken p s).isRunning = true from hrun,
      show ((frameTaken p s).zone (ductZone d)).level.atLeast .alarm = false from hlevel]; decide),
      if_neg (show ¬4 ≤ ((frameTaken p s).duct d).overlays.length from Nat.not_le.mpr hroom)]
    rfl
  · intro e he hown ht answer
    obtain ⟨hp, hmay⟩ := pop_allowed hown
    obtain ⟨rest, hl⟩ : ∃ rest, l = e :: rest := List.head?_eq_some_iff.mp he
    have htail : l.tail = rest := congrArg List.tail hl
    have hlen : l.length = rest.length + 1 := congrArg List.length hl
    obtain ⟨honly, hw, htold⟩ := overlay_moved d l.tail .popped l.length l.tail.length e l.tail.length (frameTaken p s)
    refine ⟨_, serve_accepts ht codePopOverlay n ?_, hw.answers answer, honly, (htold.answered answer).offersAll⟩
    rw [popOverlayReply, ductOperand_number]
    dsimp only
    rw [if_neg hp, if_neg (not_idle (s := frameTaken p s) hrun), show ((frameTaken p s).duct d).overlays = e :: rest from hl]
    dsimp only
    rw [if_neg hmay, htail, hlen]
    rfl
  · intro e he hin hend left
    have hexec : overlayExpires d position.val s = offer (overlayOffer d .expired l.length (l.length - 1) e position.val
        ((s.setOverlays d left).effective d)) (s.setOverlays d left) := by
      rw [overlayExpires, show entryFromBottom (s.duct d).overlays position.val = some e from (entryFromBottom_eq hin).trans he]
      dsimp only
      rw [if_pos hend, show removeFromBottom (s.duct d).overlays position.val = left from removeFromBottom_eq hin]
    obtain ⟨honly, hw, htold⟩ := overlay_moved d left .expired l.length (l.length - 1) e position.val s
    exact ⟨_, (whenRunning_working s _ ⟨hup, hrun⟩).trans (congrArg Host.Outcome.next hexec), hw.links, honly, htold.offersAll⟩

end Sys2Proof.Machine
end

