-- ==== Sys2Proof/Proofs/ValveNotices.lean ====
section
/-! PROOFS. The valves: what an evaluation by R75 leaves, with its notices, and the events that make one (R74 to R76, R87 to R89). -/

namespace Sys2Proof.Machine

open Sys2Proof

/-! ### What an event of a duct's blocks leaves -/

theorem Local.staysInDuct {m : List DuctPart} {d : Fin 4} {s t : State} (h : Local m d s t) : StaysInDuct d s t :=
  ⟨h.within.fixed, ⟨h.within.channels rfl, h.within.stations rfl, h.within.inputs rfl, h.within.captures rfl⟩, h.others,
    fun z _ => h.hazards z⟩

/-- An event of a duct's blocks touches, beside them, troubles and notices alone. -/
theorem Local.beside {m : List DuctPart} {d : Fin 4} {s t : State} (h : Local m d s t) :
    KeepsHazards s t ∧ KeepsLinks s t ∧ StaysInDuct d s t ∧ t.doors = s.doors ∧ t.arbiter = s.arbiter :=
  ⟨h.hazards, h.within.links, h.staysInDuct, h.within.doors rfl, h.within.arbiter rfl⟩

theorem Local.besideAnswer {m : List DuctPart} {d : Fin 4} {p : Port} {s t : State} (h : Local m d (frameTaken p s) t) (r : Response) :
    KeepsHazards s (issue p r t) ∧ StaysInDuct d s (issue p r t) ∧ (issue p r t).doors = s.doors ∧
      (issue p r t).arbiter = s.arbiter :=
  ⟨h.hazards, h.staysInDuct, h.within.doors rfl, h.within.arbiter rfl⟩

theorem clearTrouble_duct (z : Fin 16) (k : TroubleKind) (n : Nat) (s : State) (d : Fin 4) :
    (clearTrouble z k n s).duct d = s.duct d := State.duct_eq_of_ducts ((clearTrouble_within z k n s).ducts rfl) d

theorem raiseTrouble_duct (z : Fin 16) (k : TroubleKind) (n : Nat) (s : State) (d : Fin 4) :
    (raiseTrouble z k n s).duct d = s.duct d := State.duct_eq_of_ducts ((raiseTrouble_within z k n s).ducts rfl) d

/-- Clearing a trouble raises none. -/
theorem Raised.of_clear {z y : Fin 16} {k l : TroubleKind} {n m : Nat} {s : State} (h : Raised (clearTrouble z k n s) y l m) :
    Raised s y l m := by
  unfold clearTrouble at h
  dsimp only at h
  split at h
  next =>
    by_cases hy : y = z
    · subst hy
      have h : (⟨l, m⟩ : Trouble) ∈ ((s.setZone y _).zone y).troubles := h
      rw [State.setZone_zone_self] at h
      exact List.mem_of_mem_erase h
    · have h : (⟨l, m⟩ : Trouble) ∈ ((s.setZone z _).zone y).troubles := h
      rwa [State.setZone_zone_ne _ _ _ _ hy] at h
  next => exact h

/-- A tick up to half the counter's range ahead is later (R57). -/
theorem later_plus (t : Tick) {n : Nat} (h : 0 < n) (hn : n < 2 ^ 31) : Tick.later (t.plus n) t = true := by
  have hsub : t + BitVec.ofNat 32 n - t = BitVec.ofNat 32 n := by rw [BitVec.add_comm, BitVec.add_sub_cancel]
  have hnat : (BitVec.ofNat 32 n).toNat = n := Nat.mod_eq_of_lt (by omega)
  rw [Tick.later, Tick.plus, hsub, decide_eq_true_iff, BitVec.toInt_eq_toNat_of_lt (by omega), hnat]
  exact Int.natCast_pos.mpr h

/-! ### The condition of R75 -/

theorem windowRuns_iff (tracks : List Track) (v : Fin 2) (now : Tick) :
    windowRuns tracks v now = true ↔ ∃ t ∈ tracks, ∃ e ∈ t.valves, e.valve = v ∧ Tick.notLater e.openTick now = true ∧
      Tick.later e.closeTick now = true := by
  simp only [windowRuns, ValveEntry.contains, List.any_eq_true, Bool.and_eq_true, decide_eq_true_iff]

theorem floodRuns_iff (flood : Option Tick) (now : Tick) : floodRuns flood now = true ↔ ∃ e ∈ flood, Tick.later e now = true := by
  cases flood <;> simp [floodRuns]

theorem testRuns_iff (test : Option TestRun) (v : Fin 2) (now : Tick) :
    testRuns test v now = true ↔ ∃ t ∈ test, t.valve = v ∧ Tick.later t.until_ now = true := by
  cases test <;> simp [testRuns]

theorem wanted_iff (s : State) (d : Fin 4) (v : Fin 2) : s.wanted d v = true ↔ SprayDue s d v := by
  rw [State.wanted, valveWanted, Bool.and_eq_true, Bool.or_eq_true, Bool.or_eq_true, windowRuns_iff, floodRuns_iff, testRuns_iff,
    or_assoc]
  rfl

/-- The condition does not read the valves. -/
theorem SprayDue.of_valves {d : Fin 4} {v : Fin 2} {s t : State} (hc : t.cfg = s.cfg) (ht : t.tick = s.tick)
    {l : Vector Valve 2} (hd : t.duct d = { s.duct d with valves := l }) : SprayDue t d v ↔ SprayDue s d v := by
  unfold SprayDue State.valveCfg State.ductCfg
  rw [hc, ht, hd]

/-! ### One valve's evaluation -/

/-- From `s` to `t` the output of one valve has been brought to `on` (R76). -/
structure ValveSet (d : Fin 4) (v : Fin 2) (on : Bool) (s t : State) : Prop where
  output : (t.valve d v).output = on
  turned : ValveTurned d v s t
  told : Told (valveNotices s t d v) s t
  duct : t.duct d = { s.duct d with valves := (s.duct d).valves.set v (t.valve d v) }
  raised : ∀ z k n, Raised t z k n → Raised s z k n
  others : ∀ z k n, ¬(z = ductZone d ∧ k = .valveFault ∧ n = v.val) → (Raised t z k n ↔ Raised s z k n)
  same : (s.valve d v).output = on → t = s

theorem ValveSet.refl (d : Fin 4) (v : Fin 2) (s : State) : ValveSet d v (s.valve d v).output s s where
  output := rfl
  turned := ⟨fun h k => absurd (h.symm.trans k) nofun, fun h k => absurd (h.symm.trans k) nofun,
    fun h k => absurd (h.symm.trans k) nofun, fun _ => rfl⟩
  told := by
    rw [valveNotices, if_pos rfl]
    exact .refl s
  duct := congrArg (fun l => ({ s.duct d with valves := l } : Duct)) (Vector.set_getElem_self _).symm
  raised _ _ _ := id
  others _ _ _ _ := .rfl
  same _ := rfl

theorem setValve_duct (s : State) (d : Fin 4) (v : Fin 2) (x : Valve) :
    (s.setValve d v x).duct d = { s.duct d with valves := (s.duct d).valves.set v x } := s.setDuct_duct_self d _

theorem turnOff_sets {d : Fin 4} {v : Fin 2} {s : State} (h : (s.valve d v).output = true) : ValveSet d v false s (turnOff d v s) := by
  have hx : (turnOff d v s).valve d v = (s.valve d v).closing := s.setValve_valve_self d v _
  refine ⟨congrArg Valve.output hx, ⟨fun k => absurd (h.symm.trans k) nofun, fun k => absurd (h.symm.trans k) nofun, fun _ _ => hx,
    fun k => ?_⟩, ?_, ?_, fun _ _ _ => id, fun _ _ _ _ => .rfl, fun k => absurd (h.symm.trans k) nofun⟩
  · rw [hx, h] at k
    exact absurd k nofun
  · have hne : ¬(s.valve d v).output = ((turnOff d v s).valve d v).output := by
      rw [hx, h]
      nofun
    rw [valveNotices, if_neg hne, hx]
    exact .after (t := s.setValve d v (s.valve d v).closing) rfl rfl (offer_told _ _)
  · rw [hx]
    exact setValve_duct s d v _

theorem turnOn_valve (d : Fin 4) (v : Fin 2) (s : State) :
    (turnOn d v s).valve d v = (s.valve d v).opening (s.valveCfg d v) s.tick ∧
      (turnOn d v s).duct d = { s.duct d with valves := (s.duct d).valves.set v ((s.valve d v).opening (s.valveCfg d v) s.tick) } := by
  have hd : (turnOn d v s).duct d = { s.duct d with valves := (s.duct d).valves.set v ((s.valve d v).opening (s.valveCfg d v) s.tick) } := by
    unfold turnOn
    dsimp only
    split
    · exact (clearTrouble_duct _ _ _ _ d).trans (setValve_duct s d v _)
    · exact setValve_duct s d v _
  refine ⟨?_, hd⟩
  rw [State.valve, hd]
  exact Vector.getElem_set_self _

theorem turnOn_sets {d : Fin 4} {v : Fin 2} {s : State} (h : (s.valve d v).output = false) : ValveSet d v true s (turnOn d v s) := by
  obtain ⟨hx, hd⟩ := turnOn_valve d v s
  have hne : ¬(s.valve d v).output = ((turnOn d v s).valve d v).output := by
    rw [hx, h]
    nofun
  refine ⟨congrArg Valve.output hx, ⟨fun _ _ => hx, fun _ _ hflow hok => ?_, fun k => absurd (h.symm.trans k) nofun,
    fun k => absurd k hne⟩, ?_, hd.trans (by rw [hx]), fun z k n => ?_, fun z k n hz => ?_, fun k => absurd (h.symm.trans k) nofun⟩
  · rw [turnOn]
    rw [if_pos (show ((s.valve d v).opening _ _).confirmed = true from hflow)]
    exact not_raised_clearTrouble (s := offer _ (s.setValve d v _)) (hok (ductZone d)).2.2 .valveFault v.val
  · rw [valveNotices, if_neg hne, hx]
    have hoffer : Told [valveNotice d v (s.valve d v) ((s.valve d v).opening (s.valveCfg d v) s.tick)] s
        (offer (valveOffer d v (s.valve d v) ((s.valve d v).opening (s.valveCfg d v) s.tick)) (s.setValve d v
          ((s.valve d v).opening (s.valveCfg d v) s.tick))) :=
      .after (t := s.setValve d v ((s.valve d v).opening (s.valveCfg d v) s.tick)) rfl rfl (offer_told _ _)
    rw [turnOn]
    split
    next hc =>
      rw [if_pos (show ((s.valve d v).opening _ _).confirmed = true from hc)]
      exact hoffer.trans (clearTrouble_told _ _ _ _) rfl
    next hc =>
      rw [if_neg (show ¬((s.valve d v).opening _ _).confirmed = true from hc)]
      exact hoffer
  · rw [turnOn]
    split
    · exact Raised.of_clear (s := offer _ (s.setValve d v _))
    · exact id
  · rw [turnOn]
    split
    · exact raised_clearTrouble_ne (offer _ (s.setValve d v _)) hz
    · rfl

/-- The evaluation of a valve's output (R75, R76). -/
theorem evalValve_sets (d : Fin 4) (v : Fin 2) (s : State) : ValveSet d v (s.wanted d v) s (evalValve d v s) := by
  unfold evalValve
  split
  next h =>
    rw [h]
    exact .refl d v s
  next h =>
    split
    next hw =>
      rw [hw] at h ⊢
      exact turnOn_sets (Bool.eq_false_iff.mpr fun k => h k.symm)
    next hw =>
      rw [Bool.eq_false_iff.mpr hw] at h ⊢
      exact turnOff_sets (Bool.not_eq_false _ ▸ fun k => h k.symm)

/-! ### Both valves -/

theorem ValveSet.valve_ne {d : Fin 4} {v w : Fin 2} {on : Bool} {s t : State} (h : ValveSet d v on s t) (hw : w ≠ v) :
    t.valve d w = s.valve d w := by
  rw [State.valve, h.duct]
  exact Vector.getElem_set_ne v.isLt w.isLt fun e => hw (Fin.ext e.symm)

/-- What follows at the other blocks does not turn the valve. -/
theorem ValveTurned.later {d : Fin 4} {v : Fin 2} {s u t : State} (h : ValveTurned d v s u) (hv : t.valve d v = u.valve d v)
    (hr : Raised t (ductZone d) .valveFault v.val → Raised u (ductZone d) .valveFault v.val) : ValveTurned d v s t := by
  unfold ValveTurned at h ⊢
  rw [hv]
  obtain ⟨hon, hclear, hoff, hsame⟩ := h
  exact ⟨hon, fun a b c e k => hclear a b c e (hr k), hoff, hsame⟩

/-- What went before at the other blocks has not turned the valve. -/
theorem ValveTurned.earlier {d : Fin 4} {v : Fin 2} {s u t : State} (h : ValveTurned d v u t) (hv : u.valve d v = s.valve d v)
    (hc : u.cfg = s.cfg) (ht : u.tick = s.tick) (hz : ZonesOk s → ZonesOk u) : ValveTurned d v s t := by
  unfold ValveTurned State.valveCfg State.ductCfg at h ⊢
  rw [hv, hc, ht] at h
  obtain ⟨hon, hclear, hoff, hsame⟩ := h
  exact ⟨hon, fun a b c e => hclear a b c (hz e), hoff, hsame⟩

theorem valveNotices_congr {d : Fin 4} {v : Fin 2} {s u t w : State} (hs : u.valve d v = s.valve d v) (ht : w.valve d v = t.valve d v)
    (hr : Raised u (ductZone d) .valveFault v.val ↔ Raised s (ductZone d) .valveFault v.val) :
    valveNotices u w d v = valveNotices s t d v := by
  unfold valveNotices
  rw [hs, ht, clearNotices_congr hr]

/-- The evaluation of both valves of a duct (R75, R76). -/
theorem evalValves_sets (d : Fin 4) (s : State) :
    (∀ v, ((evalValves d s).valve d v).output = s.wanted d v ∧ ValveTurned d v s (evalValves d s)) ∧
      Told (valveNotices s (evalValves d s) d 0 ++ valveNotices s (evalValves d s) d 1) s (evalValves d s) ∧
      (evalValves d s).duct d = { s.duct d with valves := ((evalValves d s).duct d).valves } := by
  have h0 := evalValve_sets d 0 s
  have l0 := evalValve_local d 0 s
  have h1 := evalValve_sets d 1 (evalValve d 0 s)
  have ht : evalValves d s = evalValve d 1 (evalValve d 0 s) := rfl
  generalize evalValve d 0 s = u at h0 l0 h1 ht
  rw [ht]
  generalize evalValve d 1 u = t at h1
  have hfixed := l0.within.fixed
  have hwant : ∀ v, u.wanted d v = s.wanted d v := fun v => by
    rw [Bool.eq_iff_iff, wanted_iff, wanted_iff]
    exact SprayDue.of_valves hfixed.cfg_eq hfixed.tick_eq h0.duct
  have hold := h0.valve_ne (w := 1) (by decide)
  have hnew := h1.valve_ne (w := 0) (by decide)
  have hfault : Raised u (ductZone d) .valveFault 1 ↔ Raised s (ductZone d) .valveFault 1 :=
    h0.others _ _ _ fun ⟨_, _, h⟩ => absurd h (by decide)
  refine ⟨fun v => ?_, ?_, ?_⟩
  · obtain rfl | rfl : v = 0 ∨ v = 1 := by omega
    · exact ⟨(congrArg Valve.output hnew).trans h0.output, h0.turned.later hnew (h1.raised _ _ _)⟩
    · exact ⟨h1.output.trans (hwant 1), h1.turned.earlier hold hfixed.cfg_eq hfixed.tick_eq (l0.hazards.zonesOk l0.nodup)⟩
  · rw [valveNotices_congr (v := 0) (s := s) (u := s) rfl hnew .rfl, ← valveNotices_congr (v := 1) hold rfl hfault]
    exact h0.told.trans h1.told hfixed.tick_eq
  · rw [h1.duct, h0.duct]

/-! ### The events that evaluate valves -/

/-- An evaluation's outcome, as the condition of R75 after it. -/
theorem output_iff_due {d : Fin 4} {v : Fin 2} {s t : State} (h : (t.valve d v).output = s.wanted d v) (hc : t.cfg = s.cfg)
    (ht : t.tick = s.tick) {l : Vector Valve 2} (hd : t.duct d = { s.duct d with valves := l }) :
    (t.valve d v).output = true ↔ SprayDue t d v := by
  rw [h, wanted_iff]
  exact (SprayDue.of_valves hc ht hd).symm

/-- A duct that differs in flood and test alone has the same valves. -/
theorem valve_of_valves {d : Fin 4} {s t : State} (h : (t.duct d).valves = (s.duct d).valves) (v : Fin 2) :
    t.valve d v = s.valve d v := congrArg (·[v]) h

/-- A new flood or test of a duct, with its notice. -/
structure SprayMoved (d : Fin 4) (o : Offer) (new : Duct) (s u : State) : Prop where
  fixed : KeepsFixed s u
  duct : u.duct d = new
  zones : u.zones = s.zones
  told : Told [o] s u

theorem sprayMoved {d : Fin 4} (o : Offer) (new : Duct) (s : State) : SprayMoved d o new s (offer o (s.setDuct d new)) :=
  ⟨((setDuct_within s d new).trans ((offer_within o _).mono rfl)).fixed, s.setDuct_duct_self d new, rfl,
    .after (t := s.setDuct d new) rfl rfl (offer_told o _)⟩

/-- One valve's evaluation after a new flood or test. -/
theorem SprayMoved.evalValve {d : Fin 4} {o : Offer} {new : Duct} {s u : State} (h : SprayMoved d o new s u)
    (hv : new.valves = (s.duct d).valves) (v : Fin 2) :
    let t := evalValve d v u
    t.duct d = { new with valves := (s.duct d).valves.set v (t.valve d v) } ∧ (t.valve d v).output = u.wanted d v ∧
      ((t.valve d v).output = true ↔ SprayDue t d v) ∧ ValveTurned d v s t ∧ Told (o :: valveNotices s t d v) s t := by
  intro t
  have hset := evalValve_sets d v u
  have hfixed := (evalValve_local d v u).within.fixed
  have hold : u.valve d v = s.valve d v := valve_of_valves (h.duct ▸ hv) v
  have hd : t.duct d = { new with valves := (s.duct d).valves.set v (t.valve d v) } := by
    rw [hset.duct, h.duct, hv]
  refine ⟨hd, hset.output, output_iff_due hset.output hfixed.cfg_eq hfixed.tick_eq hset.duct,
    hset.turned.earlier hold h.fixed.cfg_eq h.fixed.tick_eq fun hok z => ?_, ?_⟩
  · rw [State.zone_eq_of_zones h.zones]
    exact hok z
  · rw [← valveNotices_congr (w := t) (t := t) hold rfl (raised_of_zones h.zones _ _ _)]
    exact h.told.trans hset.told h.fixed.tick_eq

/-- Both valves' evaluation after a new flood. -/
theorem SprayMoved.evalValves {d : Fin 4} {o : Offer} {new : Duct} {s u : State} (h : SprayMoved d o new s u)
    (hv : new.valves = (s.duct d).valves) :
    let t := evalValves d u
    t.duct d = { new with valves := (t.duct d).valves } ∧
      (∀ v, (t.valve d v).output = u.wanted d v ∧ ((t.valve d v).output = true ↔ SprayDue t d v) ∧ ValveTurned d v s t) ∧
      Told (o :: (valveNotices s t d 0 ++ valveNotices s t d 1)) s t := by
  intro t
  obtain ⟨hvalves, htold, hduct⟩ := evalValves_sets d u
  have hfixed := (evalValves_local d u).within.fixed
  have hold : ∀ v, u.valve d v = s.valve d v := valve_of_valves (h.duct ▸ hv)
  refine ⟨hduct.trans (by rw [h.duct]), fun v => ⟨(hvalves v).1, ?_, ?_⟩, ?_⟩
  · exact output_iff_due (hvalves v).1 hfixed.cfg_eq hfixed.tick_eq hduct
  · refine (hvalves v).2.earlier (hold v) h.fixed.cfg_eq h.fixed.tick_eq fun hok z => ?_
    rw [State.zone_eq_of_zones h.zones]
    exact hok z
  · have hn : ∀ v, valveNotices u t d v = valveNotices s t d v := fun v =>
      valveNotices_congr (hold v) rfl (raised_of_zones h.zones _ _ _)
    have htold : Told (valveNotices u t d 0 ++ valveNotices u t d 1) u t := htold
    rw [hn, hn] at htold
    exact h.told.trans htold h.fixed.tick_eq

/-- Settles O45: the evaluations at a window's ticks and at the ends of flood and test. -/
theorem valveOutputsFollowTheirWindows : Obligations.ValveOutputsFollowTheirWindows := by
  intro d v s hw x evaluated
  have heval : evaluated (evalValve d v s) := by
    have h := evalValve_sets d v s
    refine ⟨by rw [h.output, wanted_iff], h.turned, h.told.offersAll, fun hx hdue => h.same ?_, fun hx hdue => h.same ?_, h.duct,
      (evalValve_local d v s).beside⟩
    · exact hx.trans ((wanted_iff s d v).mpr hdue).symm
    · exact hx.trans (Bool.eq_false_iff.mpr fun k => hdue ((wanted_iff s d v).mp k)).symm
  refine ⟨⟨_, whenRunning_working s _ hw, heval⟩, ⟨_, whenRunning_working s _ hw, heval⟩, fun hflood => ?_, fun r hr hend => ?_⟩
  · have hexec : floodEnds d s = evalValves d (offer (floodOffer d 1 0 s.tick) (s.setDuct d { s.duct d with flood := none })) := by
      rw [floodEnds, hflood]
      exact if_pos rfl
    obtain ⟨hduct, hvalves, htold⟩ := (sprayMoved (floodOffer d 1 0 s.tick) { s.duct d with flood := none } s).evalValves rfl
    obtain ⟨-, hdue, hturned⟩ := hvalves v
    have hbeside := (floodEnds_local d s).beside
    rw [hexec] at hbeside
    exact ⟨_, (whenRunning_working s _ hw).trans (congrArg Host.Outcome.next hexec), hduct, hdue, hturned, htold.offersAll, hbeside⟩
  · have hexec : testEnds d s = evalValve d r.valve (offer (testOffer d 1 0 r) (s.setDuct d { s.duct d with test := none })) := by
      rw [testEnds, hr]
      exact if_pos hend
    obtain ⟨hduct, -, hdue, hturned, htold⟩ :=
      (sprayMoved (testOffer d 1 0 r) { s.duct d with test := none } s).evalValve rfl r.valve
    have hbeside := (testEnds_local d s).beside
    rw [hexec] at hbeside
    have hoffer : testOffer d 1 0 r = testNotice d 1 0 r.valve s.tick := by
      rw [← hend]
      rfl
    refine ⟨_, (whenRunning_working s _ hw).trans (congrArg Host.Outcome.next hexec), hduct, hdue, hturned, ?_, hbeside⟩
    rw [← hoffer]
    exact htold.offersAll

theorem valveOperand_byteOf (v : Fin 2) : valveOperand (byteOf v.val) = some v := indexBelow_byteOf (by decide) v

/-- Settles O46: the evaluation of the tested valve. -/
theorem testValveOpensTheValve : Obligations.TestValveOpensTheValve := by
  intro n d v seconds s ht hrun hkey hstate hnone hinst htest ends
  have hallowed : ¬(!(frameTaken .sv s).isRunning || ((frameTaken .sv s).duct d).ctl.state.refusesTest ||
      !((frameTaken .sv s).duct d).tracks.isEmpty || !((frameTaken .sv s).valveCfg d v).installed ||
      ((frameTaken .sv s).duct d).test.isSome) = true := by
    rw [testForbidden_iff]
    rintro (h | ⟨h, k⟩ | h | h | h)
    · exact Bool.noConfusion (h.symm.trans hrun)
    · exact hstate.elim h k
    · exact h hnone
    · exact Bool.noConfusion (h.symm.trans hinst)
    · exact Bool.noConfusion (h.symm.trans (congrArg Option.isSome htest))
  let o := testOffer d 0 1 ⟨v, ends⟩
  let u := offer o ((frameTaken .sv s).setDuct d { (frameTaken .sv s).duct d with test := some ⟨v, ends⟩ })
  have hmoved : SprayMoved d o { (frameTaken .sv s).duct d with test := some ⟨v, ends⟩ } (frameTaken .sv s) u := sprayMoved o _ _
  obtain ⟨hduct, hout, -, hturned, htold⟩ := hmoved.evalValve rfl v
  have hreply : testValveReply .sv (ductNumber d) (byteOf v.val) seconds (frameTaken .sv s) =
      accept (byteOf ((evalValve d v u).valve d v).state.num :: le32 ends) (evalValve d v u) := by
    rw [testValveReply, ductOperand_number, valveOperand_byteOf, if_neg (fun h => h rfl),
      if_neg (by rw [show (frameTaken .sv s).keyClosed = true from hkey]; decide)]
    dsimp only
    rw [if_neg hallowed]
    rfl
  have hlocal : Local [.test, .valves] d (frameTaken .sv s) (evalValve d v u) := setTest_local d v o (some ⟨v, ends⟩) (frameTaken .sv s)
  have hexec := serve_accepts ht codeTestValve n hreply
  refine ⟨_, hexec, hlocal.within.answers _, congrArg Duct.test hduct, ?_, hturned, (htold.answered _).offersAll, ?_,
    hlocal.besideAnswer _⟩
  · refine hout.trans ((wanted_iff u d v).mpr ⟨hinst, .inr (.inr ⟨⟨v, ends⟩, ?_, rfl, ?_⟩)⟩)
    · exact congrArg Duct.test hmoved.duct
    · exact later_plus s.tick (by omega) (by omega)
  · exact hduct.trans (congrArg
      (fun x => ({ s.duct d with test := x, valves := (s.duct d).valves.set v ((evalValve d v u).valve d v) } : Duct))
      (congrArg Duct.test hduct).symm)

/-! ### The flow switch -/

theorem setValve_setValve (s : State) (d : Fin 4) (v : Fin 2) (x y : Valve) :
    (s.setValve d v x).setValve d v y = s.setValve d v y := by
  simp [State.setValve, State.setDuct, State.duct]

/-- What a changed flow switch leaves of its valve (R76). -/
theorem flowSwitchEvent_left {d : Fin 4} {v : Fin 2} {active : Bool} {s : State} (hok : ZonesOk s) (hne : (s.valve d v).flow ≠ active) :
    let x := s.valve d v
    let supervised := active = true ∧ x.state = .opened ∧ x.timer.isSome = true
    let t := flowSwitchEvent d v active s
    (supervised → t.valve d v = { x with flow := true, timer := none, confirmed := true } ∧
        Told (clearNotices s (ductZone d) .valveFault v.val) s t ∧ ¬Raised t (ductZone d) .valveFault v.val) ∧
      (¬supervised → t.valve d v = { x with flow := active } ∧ t.zones = s.zones ∧ t.ports = s.ports) ∧
      t.duct d = { s.duct d with valves := (s.duct d).valves.set v (t.valve d v) } := by
  intro x supervised t
  have ht : flowSwitchEvent d v active s = t := rfl
  rw [flowSwitchEvent, if_pos hne] at ht
  dsimp only at ht
  have hcond : (active && decide ((s.valve d v).state = .opened) && (s.valve d v).timer.isSome) = true ↔ supervised := by
    rw [Bool.and_eq_true, Bool.and_eq_true, decide_eq_true_iff, and_assoc]
  rw [if_congr hcond rfl rfl] at ht
  by_cases hs : supervised
  · have hactive : active = true := hs.1
    rw [if_pos hs, confirmOpening, State.setValve_valve_self, setValve_setValve, hactive] at ht
    have hduct := (clearTrouble_duct (ductZone d) .valveFault v.val _ d).trans
      (setValve_duct s d v { x with flow := true, timer := none, confirmed := true })
    have hvalve : t.valve d v = { x with flow := true, timer := none, confirmed := true } := by
      rw [← ht]
      exact (valve_of_valves (congrArg Duct.valves (clearTrouble_duct _ _ _ _ d)) v).trans (s.setValve_valve_self d v _)
    refine ⟨fun _ => ⟨hvalve, ?_, ?_⟩, fun h => absurd hs h, ?_⟩
    · rw [← ht]
      exact .after (t := s.setValve d v _) rfl rfl (clearTrouble_told _ _ _ _)
    · rw [← ht]
      exact not_raised_clearTrouble (s := s.setValve d v _) (hok (ductZone d)).2.2 .valveFault v.val
    · rw [hvalve, ← ht]
      exact hduct
  · rw [if_neg hs] at ht
    have hvalve : t.valve d v = { x with flow := active } := by
      rw [← ht]
      exact s.setValve_valve_self d v _
    refine ⟨fun h => absurd h hs, fun _ => ⟨hvalve, ?_, ?_⟩, ?_⟩
    · rw [← ht]
      rfl
    · rw [← ht]
      rfl
    · rw [hvalve, ← ht]
      exact setValve_duct s d v _

/-- Settles O47: the lead and its samples. -/
theorem flowSwitchConfirmsAnOpening : Obligations.FlowSwitchConfirmsAnOpening := by
  intro d v active s hup hok x supervised moved base
  refine ⟨fun h => ?_, fun h hx => ?_, fun h hx => ?_⟩
  · exact (live_up moved _ hup).trans (congrArg Host.Outcome.next (sampling_idle (x := .flow d v) (s := moved) h _))
  · refine (live_up moved _ hup).trans (congrArg Host.Outcome.next ((sampling_due (x := .flow d v) (s := moved) h _).trans ?_))
    exact if_neg fun k => k hx
  · obtain ⟨hsupervised, hplain, hduct⟩ := flowSwitchEvent_left (v := v) (s := base) hok hx
    have hlocal := flowSwitchEvent_local d v active base
    refine ⟨_, (live_up moved _ hup).trans (congrArg Host.Outcome.next (sampling_due (x := .flow d v) (s := moved) h _)), fun hs => ?_,
      hplain, hduct, hlocal.within.fixed, hlocal.others, ?_, hlocal.hazards, hlocal.within.links, hlocal.within.doors rfl,
      hlocal.within.arbiter rfl⟩
    · obtain ⟨hvalve, htold, hclear⟩ := hsupervised hs
      exact ⟨hvalve, (Told.after (s := s) (t := base) rfl rfl htold).offersAll, hclear⟩
    · obtain ⟨-, hdetectors, -⟩ := hlocal.staysInDuct
      exact hdetectors

end Sys2Proof.Machine
end

