-- ==== Sys2Proof/Proofs/ReportNotices.lean ====
section
/-! PROOFS. The notices of a zone's event (R6) and of its reports to Overlay Stacks, doors and sirens (R121, R133, R143, R155). -/

namespace Sys2Proof.Machine

open Sys2Proof

/-! ### The Siren Arbiter (R155) -/

theorem sirenOffer_eq (i : Fin 8) (old new : Arbiter) (cause : SirenCause) :
    sirenOffer i old.sirens[i] new.sirens[i] cause new.units = sirenTold old new i (byteOf cause.num) := by
  rw [sirenOffer, sirenTold, patternByte_eq, patternByte_eq]
  rfl

/-- The notice of one siren in an event. -/
def sirenToldAt (old new : Arbiter) (cause : Fin 8 → Byte) (flagCause : Byte) (i : Fin 8) : Option Offer :=
  if old.sirens[i].demand ≠ new.sirens[i].demand ∨ old.sirens[i].snapshot ≠ new.sirens[i].snapshot then
    some (sirenTold old new i (cause i))
  else if old.sirens[i].sounding ≠ new.sirens[i].sounding then some (sirenTold old new i flagCause)
  else none

theorem sirensTold_eq (old new : Arbiter) (cause : Fin 8 → Byte) (flagCause : Byte) :
    sirensTold old new cause flagCause = (List.finRange 8).filterMap (sirenToldAt old new cause flagCause) := rfl

theorem sirenNotice_told (old new : Arbiter) (causeOf : Fin 8 → Siren → SirenCause) (flagCause : SirenCause) (i : Fin 8) (s : State) :
    Told (sirenToldAt old new (fun i => byteOf (causeOf i new.sirens[i]).num) (byteOf flagCause.num) i).toList s
        (sirenNotice old new causeOf flagCause i s) ∧ (sirenNotice old new causeOf flagCause i s).tick = s.tick := by
  unfold sirenToldAt sirenNotice
  dsimp only
  split
  next =>
    rw [← sirenOffer_eq]
    exact ⟨offer_told _ s, rfl⟩
  next =>
    split
    next =>
      rw [← sirenOffer_eq]
      exact ⟨offer_told _ s, rfl⟩
    next => exact ⟨.refl s, rfl⟩

/-- A run of steps, each with its own notices. -/
theorem Told.foldl {α : Type} {f : State → α → State} {g : α → List Offer}
    (hf : ∀ s a, Told (g a) s (f s a) ∧ (f s a).tick = s.tick) (l : List α) (s : State) : Told (l.flatMap g) s (l.foldl f s) := by
  induction l generalizing s with
  | nil => exact .refl s
  | cons a rest ih =>
    obtain ⟨htold, htick⟩ := hf s a
    exact htold.trans (ih (f s a)) htick

theorem sirenNotices_told (old new : Arbiter) (causeOf : Fin 8 → Siren → SirenCause) (flagCause : SirenCause) (s : State) :
    Told (sirensTold old new (fun i => byteOf (causeOf i new.sirens[i]).num) (byteOf flagCause.num)) s
      (sirenNotices old new causeOf flagCause s) := by
  rw [sirensTold_eq, List.filterMap_eq_flatMap_toList]
  exact .foldl (fun s i => sirenNotice_told old new causeOf flagCause i s) _ s

/-- An event of the Arbiter offers its SIREN notices (R155). -/
theorem arbiterEvent_told (a : Arbiter) (g : Fin 8 → Bool) (causeOf : Fin 8 → Siren → SirenCause) (s : State) :
    let t := arbiterEvent a g causeOf s
    Told (sirensTold s.arbiter t.arbiter (fun i => byteOf (causeOf i t.arbiter.sirens[i]).num) 7) s t := by
  intro t
  rw [show t.arbiter = _ from arbiterEvent_arbiter a g causeOf s]
  exact .after (t := s.setArbiter (settleArbiter s.cfg s.tick s.arbiter a g)) rfl rfl (sirenNotices_told _ _ causeOf .grant _)

/-! ### The Overlay Stacks (R121, R122) -/

theorem paramsUnder_of_cfg {s t : State} (h : t.cfg = s.cfg) (d : Fin 4) (l : List Overlay) : paramsUnder t d l = paramsUnder s d l := by
  unfold paramsUnder State.ductCfg
  rw [h]

theorem clearedNotices_of_cfg {s t : State} (h : t.cfg = s.cfg) (d : Fin 4) (l : List Overlay) :
    clearedNotices t d l = clearedNotices s d l := by
  induction l with
  | nil => rfl
  | cons e rest ih => rw [clearedNotices, clearedNotices, ih, paramsUnder_of_cfg h]

theorem clearEntries_told (d : Fin 4) (l : List Overlay) (s : State) : Told (clearedNotices s d l) s (clearEntries d l s) := by
  induction l generalizing s with
  | nil => exact .refl s
  | cons e rest ih =>
    obtain ⟨-, hw, htold⟩ := overlay_moved d rest .cleared (rest.length + 1) rest.length e rest.length s
    have hrest := ih (offer (overlayOffer d .cleared (rest.length + 1) rest.length e rest.length
      ((s.setOverlays d rest).effective d)) (s.setOverlays d rest))
    rw [clearedNotices_of_cfg hw.fixed.cfg_eq] at hrest
    exact htold.trans hrest hw.fixed.tick_eq

/-- The OVERLAY notices of a zone's report. -/
def overlaysTold (z : Fin 16) (level : Level) (s : State) : List Offer :=
  match zoneDuct z with
  | some d => if level.atLeast .alarm then clearedNotices s d (s.duct d).overlays else []
  | none => []

theorem overlaysReport_told (z : Fin 16) (level : Level) (s : State) : Told (overlaysTold z level s) s (overlaysReport z level s) := by
  unfold overlaysTold overlaysReport
  cases zoneDuct z with
  | none => exact .refl s
  | some d =>
    dsimp only
    split
    · exact clearEntries_told d _ s
    · exact .refl s

theorem overlaysTold_congr {s t : State} (hc : t.cfg = s.cfg) (hd : t.ducts = s.ducts) (z : Fin 16) (level : Level) :
    overlaysTold z level t = overlaysTold z level s := by
  unfold overlaysTold
  cases zoneDuct z with
  | none => rfl
  | some d =>
    dsimp only
    rw [clearedNotices_of_cfg hc, State.duct_eq_of_ducts hd]

/-! ### The doors (R133, R139) -/

/-- A clear or a raise of one door's trouble leaves the troubles of the other doors. -/
theorem raised_doorTrouble_door {i j : Fin 12} (hij : j ≠ i) (k l : TroubleKind) (b : Bool) (s : State) (z : Fin 16) :
    Raised (doorTrouble i k b s) z l j.val ↔ Raised s z l j.val := by
  unfold doorTrouble setTrouble
  cases lowestZone s.cfg.doors[i].zones with
  | none => rfl
  | some y =>
    dsimp only
    split
    · rw [raised_raiseTrouble_iff]
      exact or_iff_right fun ⟨_, _, h⟩ => hij (Fin.ext h)
    · exact raised_clearTrouble_ne s fun ⟨_, _, h⟩ => hij (Fin.ext h)

theorem raised_doorEvent_door {i j : Fin 12} (hij : j ≠ i) (new : Door) (cause : DoorCause) (l : TroubleKind) (s : State) (z : Fin 16) :
    Raised (doorEvent i new cause s) z l j.val ↔ Raised s z l j.val := by
  unfold doorEvent
  dsimp only
  split
  · split
    · exact (raised_doorTrouble_door hij _ l _ _ z).trans (raised_doorTrouble_door hij _ l _ _ z)
    · exact raised_doorTrouble_door hij _ l _ _ z
  · rfl

/-- The notices of a zone report at one door. -/
def doorToldAt (level : Level) (s t : State) (i : Fin 12) : List Offer :=
  if t.door i = s.door i then [] else doorNotices s t i (if level = .fire then 4 else 3)

/-- The cause of a report's release is the one of its level. -/
theorem reportCause_byte {c : DoorCfg} {level : Level} {cause : ReleaseCause} (h : reportCause c level = some cause) :
    byteOf (DoorCause.release cause).num = if level = .fire then 4 else 3 := by
  unfold reportCause at h
  split at h
  next hf =>
    cases h
    rw [if_pos hf]
    rfl
  next hf =>
    split at h
    · cases h
      rw [if_neg hf]
      rfl
    · cases h

/-- A zone report at one door: the door's event, or nothing. -/
theorem doorReport_cases (z : Fin 16) (level : Level) (i : Fin 12) (s : State) :
    doorReport z level i s = s ∨ ∃ new cause, doorReport z level i s = doorEvent i new (.release cause) s ∧ new ≠ s.door i ∧
      byteOf (DoorCause.release cause).num = if level = .fire then 4 else 3 := by
  rw [doorReport_eq]
  split
  · split
    · exact .inl rfl
    next cause hcause =>
      have hbyte := reportCause_byte hcause
      split
      next hs =>
        refine .inr ⟨_, cause, rfl, fun h => ?_, hbyte⟩
        exact Door.release_not_held _ _ cause _ ((congrArg Door.state h).trans hs)
      next =>
        split
        next hrank =>
          refine .inr ⟨_, cause, rfl, fun h => ?_, hbyte⟩
          rw [← show some cause = (s.door i).cause from congrArg Door.cause h] at hrank
          simp [ReleaseCause.outranks] at hrank
        next => exact .inl rfl
      all_goals exact .inl rfl
  · exact .inl rfl

theorem doorReport_told (z : Fin 16) (level : Level) (i : Fin 12) (s : State) :
    Told (doorToldAt level s (doorReport z level i s) i) s (doorReport z level i s) := by
  obtain h | ⟨new, cause, h, hne, hbyte⟩ := doorReport_cases z level i s
  · rw [h, doorToldAt, if_pos rfl]
    exact .refl s
  · rw [h, doorToldAt, doorEvent_door_self, if_neg hne, ← hbyte]
    exact doorEvent_told i new (.release cause) s

theorem raised_doorReport_door {i j : Fin 12} (hij : j ≠ i) (z : Fin 16) (level : Level) (l : TroubleKind) (s : State) (y : Fin 16) :
    Raised (doorReport z level i s) y l j.val ↔ Raised s y l j.val := by
  obtain h | ⟨new, cause, h, -⟩ := doorReport_cases z level i s
  · rw [h]
  · rw [h]
    exact raised_doorEvent_door hij new _ l s y

/-- What another door's event leaves of a door's notices. -/
theorem doorToldAt_congr {s u t w : State} {i : Fin 12} (hs : u.door i = s.door i) (ht : w.door i = t.door i) (hc : u.cfg = s.cfg)
    (hr : ∀ l z, Raised u z l i.val ↔ Raised s z l i.val) (level : Level) : doorToldAt level u w i = doorToldAt level s t i := by
  unfold doorToldAt doorNotices
  rw [hs, ht, doorTroubleNotices_congr hc (hr .doorStuck), doorTroubleNotices_congr hc (hr .doorPropped)]

theorem doorReports_told (z : Fin 16) (level : Level) (l : List (Fin 12)) (hl : l.Nodup) (s : State) :
    let t := l.foldl (fun s i => doorReport z level i s) s
    Told (l.flatMap (doorToldAt level s t)) s t ∧ ∀ j, j ∉ l → t.door j = s.door j := by
  induction l generalizing s with
  | nil => exact ⟨.refl s, fun _ _ => rfl⟩
  | cons i rest ih =>
    obtain ⟨hi, hrest⟩ := List.nodup_cons.mp hl
    have hfixed := (doorReport_within z level i s).fixed
    have hother : ∀ j, j ≠ i → (doorReport z level i s).door j = s.door j := fun j hj => by rw [doorReport_door, if_neg hj]
    have hraised : ∀ j, j ≠ i → ∀ k y, Raised (doorReport z level i s) y k j.val ↔ Raised s y k j.val := fun j hj k y =>
      raised_doorReport_door hj z level k s y
    have hfirst := doorReport_told z level i s
    obtain ⟨htold, hdoors⟩ := ih hrest (doorReport z level i s)
    rw [List.foldl_cons]
    generalize doorReport z level i s = u at hfixed hother hraised hfirst htold hdoors
    generalize rest.foldl (fun s i => doorReport z level i s) u = t at htold hdoors
    refine ⟨?_, fun j hj => ?_⟩
    · rw [List.flatMap_cons, doorToldAt_congr (i := i) (s := s) (u := s) rfl (hdoors i hi) rfl (fun _ _ => .rfl) level]
      have hlist : rest.flatMap (doorToldAt level s t) = rest.flatMap (doorToldAt level u t) := by
        refine List.flatMap_congr fun j hj => (doorToldAt_congr ?_ rfl hfixed.cfg_eq ?_ level).symm
        · exact hother j fun e => hi (e ▸ hj)
        · exact hraised j fun e => hi (e ▸ hj)
      rw [hlist]
      exact hfirst.trans htold hfixed.tick_eq
    · exact (hdoors j fun h => hj (.tail _ h)).trans (hother j fun e => hj (e ▸ .head _))

/-- The DOOR notices of a zone's report, with those of the troubles that it clears (R133, R139). -/
def doorsTold (level : Level) (s t : State) : List Offer := (List.finRange 12).flatMap (doorToldAt level s t)

theorem doorsReport_told (z : Fin 16) (level : Level) (s : State) :
    Told (doorsTold level s (doorsReport z level s)) s (doorsReport z level s) :=
  (doorReports_told z level _ (List.nodup_finRange 12) s).1

/-! ### The zone (R6) -/

theorem zoneOffer_eq (z : Fin 16) (old new : Zone) (cause : ZoneCause) :
    zoneOffer z old new cause = zoneNotice z (byteOf cause.num) old new := by
  rw [zoneOffer, zoneNotice, ← Bool.decide_and]
  rfl

/-- The notices of a zone's change, in the order in which the model offers them (Assumption 39). -/
def zoneTold (z : Fin 16) (old new : Zone) (cause : ZoneCause) (reset : Bool) (s t : State) : List Offer :=
  zoneNotice z (byteOf cause.num) old new :: (overlaysTold z new.level s ++ (doorsTold new.level s t ++
    sirensTold s.arbiter t.arbiter (fun i => byteOf (reportSirenCause z new.level reset s.arbiter i t.arbiter.sirens[i]).num) 7))

/-- The reports of a zone's change, with their notices. -/
theorem reportZone_told (z : Fin 16) (old new : Zone) (cause : ZoneCause) (reset : Bool) (s : State) :
    Told (zoneTold z old new cause reset s (reportZone z old new cause reset s)) s (reportZone z old new cause reset s) := by
  unfold zoneTold reportZone
  have hoffer : Told [zoneNotice z (byteOf cause.num) old new] s (offer (zoneOffer z old new cause) s) := by
    rw [← zoneOffer_eq]
    exact offer_told _ s
  have hw1 := (offer_within (zoneOffer z old new cause) s).mono (n := { ducts := true }) rfl
  have h1 := overlaysReport_told z new.level (offer (zoneOffer z old new cause) s)
  rw [overlaysTold_congr (s := s) (t := offer (zoneOffer z old new cause) s) rfl rfl] at h1
  have hw2 := overlaysReport_within z new.level (offer (zoneOffer z old new cause) s)
  generalize overlaysReport z new.level (offer (zoneOffer z old new cause) s) = u at h1 hw2
  have hw := hw1.trans hw2
  have h2 := doorsReport_told z new.level u
  have hw3 := doorsReport_within z new.level u
  generalize doorsReport z new.level u = v at h2 hw3
  have h3 : Told (sirensTold v.arbiter (sirensReport z new.level new.acked reset v).arbiter (fun i => byteOf
      (reportSirenCause z new.level reset v.arbiter i (sirensReport z new.level new.acked reset v).arbiter.sirens[i]).num) 7) v
      (sirensReport z new.level new.acked reset v) := arbiterEvent_told _ _ (reportSirenCause z new.level reset v.arbiter) v
  have hw4 := sirensReport_within z new.level new.acked reset v
  generalize sirensReport z new.level new.acked reset v = t at h3 hw4
  have hdoors : doorsTold new.level s t = doorsTold new.level u v := List.flatMap_congr fun i _ =>
    (doorToldAt_congr (State.door_eq_of_doors (hw.doors rfl) i) (State.door_eq_of_doors (hw4.doors rfl).symm i) hw.fixed.cfg_eq
      (fun l y => raised_of_zones (hw.zones rfl) y l _) new.level).symm
  rw [show v.arbiter = s.arbiter from (hw3.arbiter rfl).trans (hw.arbiter rfl)] at h3
  rw [hdoors]
  exact hoffer.trans (h1.trans (h2.trans h3 hw3.fixed.tick_eq) hw2.fixed.tick_eq) rfl

theorem settleZone_tag (old raw : Zone) (r : Bool) :
    (settleZone old raw r).tag = if zoneChanged old (settleZone old raw r) then old.tag + 1 else old.tag := rfl

/-- The event of a zone: it leaves level, latch, tag and acknowledged set and offers nothing, or its tag rises and its notices are
offered (R6). -/
theorem zoneEvent_told (z : Fin 16) (raw : Zone) (cause : ZoneCause) (reset : Bool) (s : State) :
    let old := s.zone z
    let new := settleZone old raw reset
    let t := (zoneEvent z raw cause reset s).state
    (zoneChanged old new = true ∧ new.tag = old.tag + 1 ∧
        Told (zoneTold z old new cause reset (s.setZone z new) t) (s.setZone z new) t) ∨
      (zoneChanged old new = false ∧ new.tag = old.tag ∧ t = s.setZone z new ∧ (zoneEvent z raw cause reset s).fire = false) := by
  intro old new t
  obtain ⟨hc, h⟩ | ⟨hc, h⟩ := zoneEvent_cases z raw cause reset s
  · refine .inl ⟨hc, ?_, ?_⟩
    · rw [settleZone_tag, if_pos hc]
    · rw [show t = _ from congrArg Posted.state h]
      exact reportZone_told z old new cause reset _
  · refine .inr ⟨hc, ?_, congrArg Posted.state h, congrArg Posted.fire h⟩
    rw [settleZone_tag, if_neg (Bool.eq_false_iff.mp hc)]

end Sys2Proof.Machine
end

