-- ==== Sys2Proof/Proofs/DuctTellings.lean ====
section
/-! PROOFS. The postings of a Duct Controller (R107, R108): which of them leave their zone as it was, and the notices of those that do
not. -/

namespace Sys2Proof.Machine

open Sys2Proof

/-! ### The face of a zone (R6) -/

/-- What a ZONE notice shows of a zone is as it was. -/
def SameFace (x y : Zone) : Prop := y.level = x.level ∧ y.latch = x.latch ∧ y.acked = x.acked ∧ y.tag = x.tag

theorem SameFace.refl (x : Zone) : SameFace x x := ⟨rfl, rfl, rfl, rfl⟩

theorem SameFace.trans {x y w : Zone} (h : SameFace x y) (k : SameFace y w) : SameFace x w := by
  obtain ⟨h1, h2, h3, h4⟩ := h
  obtain ⟨k1, k2, k3, k4⟩ := k
  exact ⟨k1.trans h1, k2.trans h2, k3.trans h3, k4.trans h4⟩

theorem KeepsHazard.sameFace {z : Fin 16} {s t : State} (h : KeepsHazard z s t) : SameFace (s.zone z) (t.zone z) := by
  have hz : t.zone z = _ := h
  rw [hz]
  exact ⟨rfl, rfl, rfl, rfl⟩

theorem zoneNotice_congr {z : Fin 16} {cause : Byte} {old new old' new' : Zone} (ho : SameFace old old') (hn : SameFace new new') :
    zoneNotice z cause old' new' = zoneNotice z cause old new := by
  obtain ⟨ho, -, -, -⟩ := ho
  obtain ⟨hl, hlatch, hacked, htag⟩ := hn
  unfold zoneNotice
  rw [ho, hl, hlatch, hacked, htag]

/-! ### The tag's rises and their notices -/

/-- From `s` to `t` the tag of zone `z` has risen `n` times, by causes of its Duct Controller, with the notices `l`. -/
structure ZoneTells (z : Fin 16) (n : Nat) (l : List Offer) (s t : State) : Prop where
  tick : t.tick = s.tick
  told : Told l s t
  tag : (t.zone z).tag = (s.zone z).tag + BitVec.ofNat 16 n
  still : n = 0 → l = [] ∧ SameFace (s.zone z) (t.zone z)
  once : n = 1 → ∃ cause : Fin 3, ∃ rest, l = zoneNotice z (byteOf cause.val) (s.zone z) (t.zone z) :: rest

theorem ZoneTells.trans {z : Fin 16} {n m : Nat} {l k : List Offer} {s t w : State} (h : ZoneTells z n l s t) (g : ZoneTells z m k t w) :
    ZoneTells z (n + m) (l ++ k) s w where
  tick := g.tick.trans h.tick
  told := h.told.trans g.told h.tick
  tag := by rw [g.tag, h.tag, BitVec.add_assoc, BitVec.ofNat_add]
  still := fun e => by
    obtain ⟨hl, hface⟩ := h.still (by omega)
    obtain ⟨gl, gface⟩ := g.still (by omega)
    exact ⟨by rw [hl, gl]; rfl, hface.trans gface⟩
  once := fun e => by
    obtain hn | hn : n = 0 ∨ n = 1 := by omega
    · obtain ⟨hl, hface⟩ := h.still hn
      obtain ⟨cause, rest, gl⟩ := g.once (by omega)
      exact ⟨cause, rest, by rw [hl, gl, List.nil_append, zoneNotice_congr hface (.refl _)]⟩
    · obtain ⟨cause, rest, hl⟩ := h.once hn
      obtain ⟨-, gface⟩ := g.still (by omega)
      exact ⟨cause, rest ++ k, by rw [hl, List.cons_append, zoneNotice_congr (.refl _) gface]⟩

/-- A cause of a Duct Controller. -/
def CauseKey.ofDuct : Fin 3 → CauseKey
  | 0 => .ductState
  | 1 => .velocity
  | 2 => .ember

theorem CauseKey.ofDuct_num (k : Fin 3) : (CauseKey.ofDuct k).cause.num = k.val := by
  revert k
  decide

theorem zonePosting_tells (z : Fin 16) (k : Fin 3) (level : Level) (s : State) :
    ∃ n l, n ≤ 1 ∧ ZoneTells z n l s (zonePosting z (.ofDuct k) level s).state := by
  have hfixed := (zonePosting_within z (.ofDuct k) level s).fixed
  have hzone : (zonePosting z (.ofDuct k) level s).state.zone z = { settleZone (s.zone z)
      { s.zone z with causes := (s.zone z).causes.set (CauseKey.ofDuct k).ix level } false with
      troubles := ((zonePosting z (.ofDuct k) level s).state.zone z).troubles } := by
    have h := zoneEvent_zone z { s.zone z with causes := (s.zone z).causes.set (CauseKey.ofDuct k).ix level } (CauseKey.ofDuct k).cause
      false s z
    rwa [if_pos rfl] at h
  have htold := zoneEvent_told z { s.zone z with causes := (s.zone z).causes.set (CauseKey.ofDuct k).ix level }
    (CauseKey.ofDuct k).cause false s
  dsimp only at htold
  unfold zonePosting at hfixed hzone ⊢
  generalize settleZone (s.zone z) { s.zone z with causes := (s.zone z).causes.set (CauseKey.ofDuct k).ix level } false = new
    at hzone htold
  generalize (zoneEvent z { s.zone z with causes := (s.zone z).causes.set (CauseKey.ofDuct k).ix level } (CauseKey.ofDuct k).cause
    false s).state = t at hfixed hzone htold
  have hface : SameFace new (t.zone z) := by
    rw [hzone]
    exact ⟨rfl, rfl, rfl, rfl⟩
  obtain ⟨-, htag, htold⟩ | ⟨hc, htag, ht, -⟩ := htold
  · have hnotice : zoneNotice z (byteOf (CauseKey.ofDuct k).cause.num) (s.zone z) new =
        zoneNotice z (byteOf k.val) (s.zone z) (t.zone z) := by
      rw [CauseKey.ofDuct_num, zoneNotice_congr (.refl _) hface]
    refine ⟨1, _, le_rfl, hfixed.tick_eq, .after (t := s.setZone z new) rfl rfl htold, ?_, nofun,
      fun _ => ⟨k, _, congrArg (List.cons · _) hnotice⟩⟩
    rw [hface.2.2.2, htag]
    rfl
  · refine ⟨0, [], Nat.zero_le 1, hfixed.tick_eq, .of_ports (by rw [ht]; rfl), ?_, fun _ => ⟨rfl, ?_⟩, nofun⟩
    · rw [hface.2.2.2, htag]
      exact (BitVec.add_zero _).symm
    · obtain ⟨hlevel, hlatch, hacked⟩ := zoneChanged_false hc
      exact .trans ⟨hlevel, hlatch, hacked, htag⟩ hface

theorem dcPost_tells (d : Fin 4) (s : State) : ∃ n l, n ≤ 3 ∧ ZoneTells (ductZone d) n l s (dcPost d s).state := by
  rw [dcPost_state]
  obtain ⟨n1, l1, h1, t1⟩ := zonePosting_tells (ductZone d) 0 (ductStateLevel (s.ctl d)) s
  obtain ⟨n2, l2, h2, t2⟩ := zonePosting_tells (ductZone d) 1 (velocityLevel (s.ctl d).state (s.duct d).vel.state)
    (zonePosting (ductZone d) .ductState (ductStateLevel (s.ctl d)) s).state
  obtain ⟨n3, l3, h3, t3⟩ := zonePosting_tells (ductZone d) 2 (emberLevel (s.ctl d))
    (zonePosting (ductZone d) .velocity (velocityLevel (s.ctl d).state (s.duct d).vel.state)
      (zonePosting (ductZone d) .ductState (ductStateLevel (s.ctl d)) s).state).state
  exact ⟨_, _, by omega, t1.trans (t2.trans t3)⟩

/-! ### Postings that show no zone at FIRE -/

/-- A posting shows its zone at FIRE only where it brings it there. -/
theorem zonePosting_shows {z : Fin 16} {key : CauseKey} {l : Level} {s : State} (hok : ZoneOk (s.zone z))
    (h : (zonePosting z key l s).fire = true) : l = .fire ∧ (s.zone z).level ≠ .fire := by
  have hlevel : ((zonePosting z key l s).state.zone z).level = deriveLevel (s.zone z).latch ((s.zone z).causes.set key.ix l) :=
    zoneEvent_level z _ _ false s
  have hcause := zonePosting_fire (key := key) (l := l) hok
  obtain ⟨hc, he⟩ | ⟨-, he⟩ := zoneEvent_cases z { s.zone z with causes := (s.zone z).causes.set key.ix l } key.cause false s
  · have hnew : deriveLevel (s.zone z).latch ((s.zone z).causes.set key.ix l) = .fire :=
      of_decide_eq_true ((congrArg Posted.fire he).symm.trans h)
    have hold : (s.zone z).level ≠ .fire := fun hf => by
      obtain ⟨hlatch, -, -⟩ := hok
      have hl : (s.zone z).latch = true := hlatch.mpr hf
      have hsame : zoneChanged (s.zone z) (settleZone (s.zone z)
          { s.zone z with causes := (s.zone z).causes.set key.ix l } false) = false := by
        simp [zoneChanged, settleZone, deriveLevel, hl, hf, Level.above, Level.num]
      exact Bool.noConfusion (hc.symm.trans hsame)
    exact ⟨(hcause (hlevel.trans hnew)).resolve_right hold, hold⟩
  · exact Bool.noConfusion (h.symm.trans (congrArg Posted.fire he))

/-- The postings of a Duct Controller show its zone at FIRE only where its stop asserts FIRE and the zone stood below. -/
theorem dcPost_shows {d : Fin 4} {s : State} (hok : ZonesOk s) (h : (dcPost d s).fire = true) :
    ductStateLevel (s.ctl d) = .fire ∧ (s.zone (ductZone d)).level ≠ .fire := by
  have k1 := (zonePosting_keeps true (ductZone d) .ductState (ductStateLevel (s.ctl d)) s).zones hok
  unfold dcPost at h
  dsimp only at h
  rw [Bool.or_eq_true, Bool.or_eq_true] at h
  obtain (h | h) | h := h
  · exact zonePosting_shows (hok _) h
  · obtain ⟨hl, -⟩ := zonePosting_shows (k1 _) h
    exact absurd hl (velocityLevel_ne_fire _ _)
  · obtain ⟨hl, -⟩ := zonePosting_shows ((zonePosting_keeps true (ductZone d) .velocity _ _).zones k1 _) h
    exact absurd hl (emberLevel_ne_fire _)

/-- An event of a duct whose stop brings its zone to no FIRE ends with its postings. -/
theorem settleDuct_quiet {d : Fin 4} {s : State} (hok : ZonesOk s)
    (h : ductStateLevel (s.ctl d) = .fire → (s.zone (ductZone d)).level = .fire) : settleDuct d s = (dcPost d s).state :=
  if_neg fun hf => (dcPost_shows hok hf).2 (h (dcPost_shows hok hf).1)

/-! ### Postings that leave their zone -/

/-- A cause that stands at its level leaves a settled zone. -/
theorem settleZone_same {x : Zone} (h : ZoneOk x) : settleZone x x false = x := by
  obtain ⟨hlatch, hlevel, -⟩ := h
  have hd : deriveLevel x.latch x.causes = x.level := hlevel.symm
  have hl : (x.latch || decide (x.level = .fire)) = x.latch := by
    cases hx : x.latch
    · exact decide_eq_false fun hf => Bool.false_ne_true (hx.symm.trans (hlatch.mpr hf))
    · rfl
  have habove : x.level.above x.level = false := decide_eq_false (Nat.lt_irrefl _)
  simp only [settleZone, hd, hl, habove, Bool.false_and, Bool.or_false]
  simp

theorem zonePosting_same {z : Fin 16} {key : CauseKey} {l : Level} {s : State} (hok : ZoneOk (s.zone z))
    (h : (s.zone z).causes[key.ix] = l) : zonePosting z key l s = ⟨s, false⟩ := by
  have hraw : ({ s.zone z with causes := (s.zone z).causes.set key.ix l } : Zone) = s.zone z := by
    rw [← h]
    exact congrArg (fun v => ({ s.zone z with causes := v } : Zone)) (Vector.set_getElem_self _)
  have hset : s.setZone z (s.zone z) = s :=
    congrArg (fun v => ({ s with zones := v } : State)) (Vector.set_getElem_self _)
  rw [zonePosting, hraw]
  obtain ⟨hc, -⟩ | ⟨-, he⟩ := zoneEvent_cases z (s.zone z) key.cause false s
  · rw [settleZone_same hok] at hc
    simp [zoneChanged] at hc
  · rw [he, settleZone_same hok, hset]

/-- Postings at the levels that stand already leave the state. -/
theorem settleDuct_posted {d : Fin 4} {s : State} (hok : ZoneOk (s.zone (ductZone d))) (h : PostedAt s d) : settleDuct d s = s := by
  obtain ⟨h1, h2, h3⟩ := h
  unfold settleDuct dcPost
  dsimp only
  rw [zonePosting_same hok h1, zonePosting_same hok h2, zonePosting_same hok h3]
  rfl

/-! ### What an event of a duct tells -/

/-- An event of a duct tells its own notices and those of the rises of its zone's tag. -/
theorem ZoneTells.ductTold {d : Fin 4} {n : Nat} {l k : List Offer} {s u t : State} (tells : ZoneTells (ductZone d) n k u t) (hn : n ≤ 3)
    (h : Told l s u) (ht : u.tick = s.tick) (hz : KeepsHazard (ductZone d) s u) : DuctTold d l s t := by
  have hface := hz.sameFace
  have htold := h.trans tells.told ht
  have htag : (t.zone (ductZone d)).tag = (s.zone (ductZone d)).tag + BitVec.ofNat 16 n := by
    rw [tells.tag, hface.2.2.2]
  have hrise : ∀ m < 4, (t.zone (ductZone d)).tag = (s.zone (ductZone d)).tag + BitVec.ofNat 16 m → n = m := fun m hm e => by
    have e : BitVec.ofNat 16 n = BitVec.ofNat 16 m := BitVec.add_right_inj _ |>.mp (htag.symm.trans e)
    have e := congrArg BitVec.toNat e
    simp only [BitVec.toNat_ofNat] at e
    omega
  refine ⟨htold.these, fun e => ?_, fun e => ?_⟩
  · obtain ⟨hk, -⟩ := tells.still (hrise 0 (by decide) (e.trans (BitVec.add_zero _).symm))
    rw [hk, List.append_nil] at htold
    exact htold.offersAll
  · obtain ⟨cause, rest, hk⟩ := tells.once (hrise 1 (by decide) e)
    rw [zoneNotice_congr hface (.refl _)] at hk
    refine ⟨cause, rest, _, ?_, htold⟩
    rw [hk]
    exact List.perm_middle

/-- An event of a duct that ends with its postings, none of which brings a zone to FIRE, tells its own notices and theirs. -/
theorem dcPost_told {d : Fin 4} {l : List Offer} {s u : State} (h : Told l s u) (ht : u.tick = s.tick)
    (hz : KeepsHazard (ductZone d) s u) : DuctTold d l s (dcPost d u).state := by
  obtain ⟨n, k, hn, tells⟩ := dcPost_tells d u
  exact tells.ductTold hn h ht hz

end Sys2Proof.Machine
end

