-- ==== Sys2Proof/Proofs/DuctNotices.lean ====
section
/-! PROOFS. The events of Duct Controllers: their records and notices (R92 to R111). -/

namespace Sys2Proof.Machine

open Sys2Proof

/-! ### Troubles through a zone's event -/

/-- A kind of trouble that no door's event clears. -/
def NoDoorKind (k : TroubleKind) : Prop := k ≠ .doorStuck ∧ k ≠ .doorPropped

theorem raised_doorTrouble_kind {k l : TroubleKind} (h : l ≠ k) (i : Fin 12) (b : Bool) (s : State) (y : Fin 16) (n : Nat) :
    Raised (doorTrouble i k b s) y l n ↔ Raised s y l n := by
  unfold doorTrouble setTrouble
  cases lowestZone s.cfg.doors[i].zones with
  | none => rfl
  | some z =>
    dsimp only
    split
    · rw [raised_raiseTrouble_iff]
      exact or_iff_right fun e => h e.2.1
    · exact raised_clearTrouble_ne s fun e => h e.2.1

theorem raised_doorEvent_kind {l : TroubleKind} (h : NoDoorKind l) (i : Fin 12) (new : Door) (cause : DoorCause) (s : State)
    (y : Fin 16) (n : Nat) : Raised (doorEvent i new cause s) y l n ↔ Raised s y l n := by
  obtain ⟨h1, h2⟩ := h
  unfold doorEvent
  dsimp only
  split
  · split
    · exact (raised_doorTrouble_kind h2 i _ _ y n).trans (raised_doorTrouble_kind h1 i _ _ y n)
    · exact raised_doorTrouble_kind h2 i _ _ y n
  · rfl

theorem raised_doorsReport {l : TroubleKind} (h : NoDoorKind l) (z : Fin 16) (level : Level) (s : State) (y : Fin 16) (n : Nat) :
    Raised (doorsReport z level s) y l n ↔ Raised s y l n := by
  have run : ∀ (ds : List (Fin 12)) (t : State),
      Raised (ds.foldl (fun s i => doorReport z level i s) t) y l n ↔ Raised t y l n := by
    intro ds
    induction ds with
    | nil => exact fun _ => .rfl
    | cons i rest ih =>
      intro t
      rw [List.foldl_cons, ih]
      obtain he | ⟨new, cause, he, -⟩ := doorReport_cases z level i t
      · rw [he]
      · rw [he]
        exact raised_doorEvent_kind h i new _ t y n
  exact run _ s

theorem raised_zoneEvent {l : TroubleKind} (h : NoDoorKind l) {z : Fin 16} {raw : Zone} (cause : ZoneCause) (reset : Bool) {s : State}
    (hraw : raw.troubles = (s.zone z).troubles) (y : Fin 16) (n : Nat) :
    Raised (zoneEvent z raw cause reset s).state y l n ↔ Raised s y l n := by
  have hset : Raised (s.setZone z (settleZone (s.zone z) raw reset)) y l n ↔ Raised s y l n := by
    unfold Raised
    by_cases hy : y = z
    · subst hy
      rw [State.setZone_zone_self, settleZone_troubles, hraw]
    · rw [State.setZone_zone_ne _ _ _ _ hy]
  obtain ⟨-, he⟩ | ⟨-, he⟩ := zoneEvent_cases z raw cause reset s
  · rw [he]
    refine Iff.trans ?_ hset
    unfold reportZone
    refine (raised_of_zones ((sirensReport_within z _ _ reset _).zones rfl) y l n).trans ((raised_doorsReport h z _ _ y n).trans ?_)
    exact raised_of_zones ((overlaysReport_within z _ _).zones rfl) y l n
  · rw [he]
    exact hset

theorem raised_zonePosting {l : TroubleKind} (h : NoDoorKind l) (z : Fin 16) (key : CauseKey) (level : Level) (s : State) (y : Fin 16)
    (n : Nat) : Raised (zonePosting z key level s).state y l n ↔ Raised s y l n :=
  raised_zoneEvent (raw := { s.zone z with causes := (s.zone z).causes.set key.ix level }) h key.cause false rfl y n

theorem raised_dcPost {l : TroubleKind} (h : NoDoorKind l) (d : Fin 4) (s : State) (y : Fin 16) (n : Nat) :
    Raised (dcPost d s).state y l n ↔ Raised s y l n := by
  rw [dcPost_state, raised_zonePosting h, raised_zonePosting h, raised_zonePosting h]

/-! ### What the postings leave of the other ducts -/

theorem zoneEvent_duct_ne {z : Fin 16} {e : Fin 4} (h : ductZone e ≠ z) (raw : Zone) (cause : ZoneCause) (reset : Bool) (s : State) :
    (zoneEvent z raw cause reset s).state.duct e = s.duct e := by
  obtain ⟨-, he⟩ | ⟨-, he⟩ := zoneEvent_cases z raw cause reset s
  · rw [he, reportZone_duct, if_neg fun k => h k.1]
    rfl
  · rw [he]
    rfl

theorem dcPost_duct_ne {d e : Fin 4} (h : e ≠ d) (s : State) : (dcPost d s).state.duct e = s.duct e := by
  have hz : ductZone e ≠ ductZone d := fun k => h (ductZone_injective k)
  rw [dcPost_state]
  exact (zoneEvent_duct_ne hz _ _ _ _).trans ((zoneEvent_duct_ne hz _ _ _ _).trans (zoneEvent_duct_ne hz _ _ _ s))

/-! ### An event of a duct that ends with its postings -/

theorem Local.keepsWater {m : List DuctPart} {d : Fin 4} {s t : State} (h : Local m d s t)
    (hm : ∀ p ∈ [DuctPart.tracks, .nextId, .valves, .flood, .test], p ∉ m) : KeepsWater d s t :=
  ⟨h.same .tracks (hm _ (by decide)), h.same .nextId (hm _ (by decide)), h.same .valves (hm _ (by decide)),
    h.same .flood (hm _ (by decide)), h.same .test (hm _ (by decide))⟩

/-- From `s` an event of duct `d` has led to `u`, and its postings, which bring no zone to FIRE, to `t`. -/
structure DuctSettled (d : Fin 4) (l : List Offer) (s u t : State) : Prop where
  told : DuctTold d l s t
  duct : t.duct d = { u.duct d with overlays := (t.duct d).overlays }
  stays : StaysInDuct d s t
  links : KeepsLinks s t
  posted : PostedAt t d
  raised : ∀ k, NoDoorKind k → ∀ z n, Raised t z k n ↔ Raised u z k n
  latch : (t.zone (ductZone d)).latch = (s.zone (ductZone d)).latch

theorem Local.settled {m : List DuctPart} {d : Fin 4} {l : List Offer} {s u : State} (h : Local m d s u) (htold : Told l s u)
    (hok : ZonesOk s) (hlevel : ductStateLevel (u.ctl d) = .fire → (s.zone (ductZone d)).level = .fire) :
    DuctSettled d l s u (settleDuct d u) := by
  have hoku : ZonesOk u := h.hazards.zonesOk h.nodup hok
  have hquiet : settleDuct d u = (dcPost d u).state := settleDuct_quiet hoku fun e => by rw [h.hazards.level, hlevel e]
  have hw := h.within.mono (n := .hazard) rfl |>.trans (dcPost_within d u)
  rw [hquiet]
  refine ⟨dcPost_told htold h.within.fixed.tick_eq (h.hazards _), dcPost_duct d u d, ⟨hw.fixed, ⟨hw.channels rfl, hw.stations rfl,
    hw.inputs rfl, hw.captures rfl⟩, fun e he => (dcPost_duct_ne he u).trans (h.others e he), fun z hz => (h.hazards z).trans
      (dcPost_hazard d u hz)⟩, hw.links, dcPost_postedAt d u, fun k hk z n => raised_dcPost hk d u z n, ?_⟩
  have hlatch := ((dcPost_keeps false d u).latches rfl (ductZone d))
  obtain ⟨hs, -⟩ := hok (ductZone d)
  obtain ⟨ht, -⟩ := (dcPost_keeps true d u).zones hoku (ductZone d)
  rw [h.hazards.latch] at hlatch
  refine Bool.eq_iff_iff.mpr ⟨fun e => hs.mpr ?_, hlatch⟩
  obtain ⟨-, hf⟩ | hf := dcPost_fire hoku (ht.mp e)
  · exact hlevel hf
  · rwa [h.hazards.level] at hf

theorem DuctSettled.ctl {d : Fin 4} {l : List Offer} {s u t : State} (h : DuctSettled d l s u t) : t.ctl d = u.ctl d := by
  rw [State.ctl, h.duct]
  rfl

theorem DuctSettled.gate {d : Fin 4} {l : List Offer} {s u t : State} (h : DuctSettled d l s u t) : t.gate d = u.gate d := by
  rw [State.gate, h.duct]
  rfl

theorem DuctSettled.vel {d : Fin 4} {l : List Offer} {s u t : State} (h : DuctSettled d l s u t) : (t.duct d).vel = (u.duct d).vel := by
  rw [h.duct]

theorem DuctSettled.water {d : Fin 4} {l : List Offer} {s u t : State} (h : DuctSettled d l s u t) (hw : KeepsWater d s u) :
    KeepsWater d s t := by
  unfold KeepsWater
  rw [h.duct]
  exact hw

/-! ### Notices -/

theorem stateOffer_eq (d : Fin 4) (old new : Ctl) : stateOffer d old new = stateNotice d old new := by
  rw [stateOffer, stateNotice, stopBytes_eq]
  rfl

/-- The outputs of a record are not shown. -/
theorem stateNotice_withOutputs (d : Fin 4) (old new : Ctl) : stateNotice d old new.withOutputs = stateNotice d old new := rfl

theorem changeCtl_told (d : Fin 4) (new : Ctl) (s : State) : Told [stateNotice d (s.ctl d) new] s (changeCtl d new s) := by
  rw [← stateOffer_eq]
  exact .after (t := s.setCtl d new) rfl rfl (offer_told _ _)

/-- What goes after an event of a duct and leaves its zone but for troubles. -/
theorem DuctTold.then {d : Fin 4} {l m : List Offer} {s t w : State} (h : DuctTold d l s t) (k : Told m t w) (ht : t.tick = s.tick)
    (hz : KeepsHazard (ductZone d) t w) : DuctTold d (l ++ m) s w := by
  have hface := hz.sameFace
  have all {o : List Offer} (g : OffersAll o s t) : OffersAll (o ++ m) s w := by
    obtain ⟨os, hperm, htold⟩ := g
    exact ⟨os ++ m, hperm.append_right m, Told.trans htold k ht⟩
  have these {o : List Offer} (g : OffersThese o s t) : OffersThese (o ++ m) s w := by
    obtain ⟨more, g⟩ := g
    obtain ⟨os, hperm, htold⟩ := all g
    refine ⟨more, os, hperm.trans ?_, htold⟩
    rw [List.append_assoc, List.append_assoc]
    exact List.perm_append_comm.append_left o
  obtain ⟨h1, h2, h3⟩ := h
  refine ⟨these h1, fun e => all (h2 ?_), fun e => ?_⟩
  · rw [← hface.2.2.2, e]
  · obtain ⟨cause, g⟩ := h3 (by rw [← hface.2.2.2, e])
    refine ⟨cause, ?_⟩
    rw [zoneNotice_congr (.refl _) hface]
    exact these g

theorem OffersAll.answered {l : List Offer} {p : Port} {s t : State} (h : OffersAll l (frameTaken p s) t) (r : Response) :
    OffersAll l (s.answered p r) (issue p r t) := by
  obtain ⟨os, hperm, htold⟩ := h
  exact ⟨os, hperm, Told.answered htold r⟩

theorem OffersThese.answered {l : List Offer} {p : Port} {s t : State} (h : OffersThese l (frameTaken p s) t) (r : Response) :
    OffersThese l (s.answered p r) (issue p r t) := by
  obtain ⟨more, h⟩ := h
  exact ⟨more, h.answered r⟩

theorem DuctTold.answered {d : Fin 4} {l : List Offer} {p : Port} {s t : State} (h : DuctTold d l (frameTaken p s) t) (r : Response) :
    DuctTold d l (s.answered p r) (issue p r t) := by
  obtain ⟨h1, h2, h3⟩ := h
  refine ⟨h1.answered r, fun e => (h2 e).answered r, fun e => ?_⟩
  obtain ⟨cause, g⟩ := h3 e
  exact ⟨cause, g.answered r⟩

/-! ### ORDERLY stops (R103, R105) -/

theorem StopCause.orderly_level {c : StopCause} (h : c.kind = .orderly) : c.level = .normal := by
  revert h
  cases c <;> decide

/-- A running duct takes a stop cause. -/
theorem takeCauses_running_eq {d : Fin 4} {s : State} (h : (s.ctl d).state.isRunning = true) (causes : List StopCause) :
    takeCauses d causes s = match strongest causes with
      | some c => beginStop d c s
      | none => s := by
  unfold takeCauses
  cases hs : (s.ctl d).state
  case offline | stopping | stopped => simp [hs, DuctState.isRunning] at h
  all_goals rfl

theorem fireWait_eq {d : Fin 4} {s : State} (h : (s.ctl d).fireStopping = false) : fireWait d s = s := by
  rw [fireWait, h]
  rfl

theorem stateNotice_congr {old old' new new' : Ctl} (ho : old'.state = old.state) (hor : old'.stop = old.stop)
    (hn : new'.state = new.state) (hnr : new'.stop = new.stop) (d : Fin 4) : stateNotice d old' new' = stateNotice d old new := by
  unfold stateNotice Ctl.fireStopping
  rw [ho, hor, hn, hnr]

theorem changeCtl_gate (d : Fin 4) (c : Ctl) (s : State) : (changeCtl d c s).gate d = s.gate d := s.setCtl_gate d c

/-- The record of a running duct that an ORDERLY stop cause has taken into STOPPING. -/
def orderlyCtl (cause : StopCause) (purge : Option Tick) (c : Ctl) : Ctl :=
  { c with state := .stopping, stop := some ⟨.orderly, cause, .normal⟩, start := none, arm := none, cleanCount := 0, rateCount := 0,
           rate := none, quiet := none, lowFlow := none, purge := purge }

theorem beginStop_orderly_eq {cause : StopCause} (hk : cause.kind = .orderly) (d : Fin 4) (s : State) :
    beginStop d cause s = if (s.ductCfg d).purgeTime = 0 then enterStopped d (changeCtl d (orderlyCtl cause none (s.ctl d)) s)
      else changeCtl d (orderlyCtl cause (some (s.tick.plus (4000 * (s.ductCfg d).purgeTime))) (s.ctl d)) s := by
  have hstop : stopOf cause = ⟨.orderly, cause, .normal⟩ := by rw [stopOf, hk, StopCause.orderly_level hk]
  rw [beginStop, hk, hstop]
  dsimp only
  by_cases hp : (s.ductCfg d).purgeTime = 0
  · rw [if_pos hp, if_pos hp, if_neg fun h => h.2 hp]
    rfl
  · rw [if_neg hp, if_neg hp, if_pos ⟨rfl, hp⟩]
    rfl

/-- An ORDERLY stop of a running duct: its record and its notices, before its postings (R92, R103, R105). -/
theorem beginStop_orderly {cause : StopCause} (hk : cause.kind = .orderly) (d : Fin 4) (s : State) :
    let u := beginStop d cause s
    Told (orderlyNotices s d cause) s u ∧ StoppedOrderly d cause s u ∧ (u.ctl d).fireStopping = false ∧ u.gate d = s.gate d ∧
      ductStateLevel (u.ctl d) = .normal := by
  dsimp only
  rw [beginStop_orderly_eq hk, orderlyNotices, StoppedOrderly]
  have hfirst (purge : Option Tick) : Told [stateNotice d (s.ctl d)
      { s.ctl d with state := .stopping, stop := some ⟨.orderly, cause, .normal⟩ }] s (changeCtl d (orderlyCtl cause purge (s.ctl d)) s) :=
    changeCtl_told d _ s
  have hctl (purge : Option Tick) := changeCtl_ctl d (orderlyCtl cause purge (s.ctl d)) s
  by_cases hp : (s.ductCfg d).purgeTime = 0
  · rw [if_pos hp, if_pos hp, if_pos hp, if_pos hp]
    have hstopped := enterStopped_ctl d (changeCtl d (orderlyCtl cause none (s.ctl d)) s)
    rw [hctl] at hstopped
    rw [hstopped]
    refine ⟨(hfirst none).trans (Told.trans (l := [_]) ?_ (.refl _) rfl) rfl, ?_, rfl, (changeCtl_gate d _ _).trans (changeCtl_gate d _ s), rfl⟩
    · have h := changeCtl_told d { (changeCtl d (orderlyCtl cause none (s.ctl d)) s).ctl d with state := .stopped, purge := none }
        (changeCtl d (orderlyCtl cause none (s.ctl d)) s)
      rw [hctl] at h
      rw [enterStopped, hctl]
      exact h
    · rw [hp]
      rfl
  · rw [if_neg hp, if_neg hp, if_neg hp, if_neg hp, hctl]
    refine ⟨hfirst _, ?_, rfl, changeCtl_gate d _ s, rfl⟩
    rw [decide_eq_true hp]
    rfl

theorem beginStop_orderly_zones {cause : StopCause} (hk : cause.kind = .orderly) (d : Fin 4) (s : State) :
    (beginStop d cause s).zones = s.zones := by
  rw [beginStop_orderly_eq hk]
  split <;> rfl

/-- An ORDERLY stop cause at a running duct, with its postings. -/
theorem dcEvent_orderly {d : Fin 4} {cause : StopCause} {s : State} (hk : cause.kind = .orderly)
    (hrun : (s.ctl d).state.isRunning = true) (hok : ZonesOk s) :
    let u := beginStop d cause s
    let t := dcEvent d [cause] s
    DuctSettled d (orderlyNotices s d cause) s u t ∧ StoppedOrderly d cause s t ∧ t.gate d = s.gate d ∧ KeepsWater d s t := by
  intro u t
  obtain ⟨htold, hstop, hfire, hgate, hlevel⟩ := beginStop_orderly hk d s
  have hlocal := beginStop_local d cause s
  have ht : t = settleDuct d u := by
    show settleDuct d (fireWait d (takeCauses d [cause] s)) = settleDuct d u
    rw [takeCauses_running_eq hrun]
    exact congrArg (settleDuct d) (fireWait_eq hfire)
  have hset : DuctSettled d (orderlyNotices s d cause) s u t := by
    rw [ht]
    exact hlocal.settled htold hok fun e => nomatch hlevel.symm.trans e
  refine ⟨hset, ?_, hset.gate.trans hgate, hset.water (hlocal.keepsWater (by decide))⟩
  unfold StoppedOrderly at hstop ⊢
  rw [hset.ctl]
  exact hstop

theorem StaysInDuct.answered {d : Fin 4} {p : Port} {s t : State} (h : StaysInDuct d (frameTaken p s) t) (r : Response) :
    StaysInDuct d s (issue p r t) := h

theorem StaysInDuct.trans {d : Fin 4} {s t u : State} (h : StaysInDuct d s t) (k : StaysInDuct d t u) : StaysInDuct d s u := by
  obtain ⟨hf, ⟨h1, h2, h3, h4⟩, hd, hz⟩ := h
  obtain ⟨kf, ⟨k1, k2, k3, k4⟩, kd, kz⟩ := k
  exact ⟨hf.trans kf, ⟨k1.trans h1, k2.trans h2, k3.trans h3, k4.trans h4⟩, fun e he => (kd e he).trans (hd e he),
    fun z hn => (hz z hn).trans (kz z hn)⟩

theorem KeepsWater.answered {d : Fin 4} {p : Port} {s t : State} (h : KeepsWater d (frameTaken p s) t) (r : Response) :
    KeepsWater d s (issue p r t) := h

theorem gate_answered {d : Fin 4} {p : Port} {s t : State} (h : t.gate d = (frameTaken p s).gate d) (r : Response) :
    (issue p r t).gate d = s.gate d := h

theorem StoppedOrderly.answered {d : Fin 4} {cause : StopCause} {p : Port} {s t : State}
    (h : StoppedOrderly d cause (frameTaken p s) t) (r : Response) : StoppedOrderly d cause s (issue p r t) := h

theorem KeepsLinks.answers {p : Port} {s t : State} (h : KeepsLinks (frameTaken p s) t) (r : Response) :
    Answers p r s (Machine.issue p r t) := by
  unfold Answers
  rw [← issue_frameTaken]
  exact h.issue p r

theorem ductAnswer_orderly {d : Fin 4} {s t : State} (h : StoppedOrderly d .stopRequest s t) :
    ductAnswer t d = [(if (s.ductCfg d).purgeTime = 0 then 6 else 5), 0, 0, 0] := by
  unfold StoppedOrderly at h
  dsimp only at h
  rw [ductAnswer, h]
  dsimp only
  split <;> rfl

theorem ductStateBytes_eq (s : State) (d : Fin 4) : ductStateBytes s d = ductAnswer s d := by
  rw [ductStateBytes, ductAnswer, stopBytes_eq]

theorem stopDuctReply_running {p : Port} {d : Fin 4} {s : State} (hp : p ≠ .sv) (hrun : s.isRunning = true)
    (hstate : (s.ctl d).state.isRunning = true) : stopDuctReply p (ductNumber d) s =
      accept (ductAnswer (dcEvent d [.stopRequest] s) d) (dcEvent d [.stopRequest] s) := by
  rw [stopDuctReply, ductOperand_number]
  dsimp only
  rw [if_neg hp, if_neg (not_idle hrun)]
  cases hs : (s.ctl d).state
  case offline | stopping | stopped => simp [hs, DuctState.isRunning] at hstate
  all_goals rfl

/-- Settles O33: the ORDERLY stop of a running duct, and no change of a stopping one. -/
theorem stopDuctPurgesTheDuct : Obligations.StopDuctPurgesTheDuct := by
  intro p n d s hp ht hrun hok answer
  refine ⟨fun hstate => ?_, fun hstate => ?_⟩
  · obtain ⟨hset, hstop, hgate, hwater⟩ := dcEvent_orderly (cause := .stopRequest) (s := frameTaken p s) rfl hstate hok
    have hreply : stopDuctReply p (ductNumber d) (frameTaken p s) =
        accept answer.payload (dcEvent d [.stopRequest] (frameTaken p s)) := by
      rw [stopDuctReply_running (s := frameTaken p s) hp hrun hstate, ductAnswer_orderly hstop]
      rfl
    exact ⟨_, serve_accepts ht codeStopDuct n hreply, hset.links.answers _, hset.told.answered _, hstop.answered _,
      gate_answered hgate _, hwater.answered _, hset.stays.answered _⟩
  · rw [ductStateBytes_eq]
    refine serve_answers ht codeStopDuct n ?_
    rw [stopDuctReply, ductOperand_number]
    dsimp only
    rw [if_neg hp, if_neg (not_idle (s := frameTaken p s) hrun), show ((frameTaken p s).ctl d).state = .stopping from hstate]
    rfl

/-- A trouble that the same event raises after its stop. -/
theorem orderly_raised {d : Fin 4} {cause : StopCause} {k : TroubleKind} {s : State} (hk : cause.kind = .orderly)
    (hdoor : NoDoorKind k) (hrun : (s.ctl d).state.isRunning = true) (hok : ZonesOk s) :
    let t := raiseTrouble (ductZone d) k (d.val + 1) (dcEvent d [cause] s)
    StoppedOrderly d cause s t ∧ DuctTold d (orderlyNotices s d cause ++ raiseNotices s (ductZone d) k (d.val + 1)) s t ∧
      Raised t (ductZone d) k (d.val + 1) ∧ t.gate d = s.gate d ∧ KeepsWater d s t ∧ KeepsLinks s t ∧ StaysInDuct d s t := by
  obtain ⟨hset, hstop, hgate, hwater⟩ := dcEvent_orderly hk hrun hok
  have hzones := beginStop_orderly_zones hk d s
  generalize beginStop d cause s = u at hset hzones
  generalize dcEvent d [cause] s = v at hset hstop hgate hwater
  intro t
  have hraise := raiseTrouble_local d (ductZone d) k (d.val + 1) v
  have hduct : t.duct d = v.duct d := raiseTrouble_duct (ductZone d) k (d.val + 1) v d
  have htold := raiseTrouble_told (ductZone d) k (d.val + 1) v
  rw [raiseNotices_congr ((hset.raised k hdoor _ _).trans (raised_of_zones hzones _ _ _))] at htold
  refine ⟨?_, hset.told.then htold hset.stays.1.tick_eq (hraise.hazards _), raised_raiseTrouble _ _ _ v, ?_, ?_,
    hset.links.trans hraise.within.links, hset.stays.trans hraise.staysInDuct⟩
  · unfold StoppedOrderly at hstop ⊢
    rw [State.ctl, hduct]
    exact hstop
  · rw [State.gate, hduct]
    exact hgate
  · unfold KeepsWater
    rw [hduct]
    exact hwater

theorem running_of_flow {c : Ctl} (h : c.state = .starting ∨ c.state = .arming ∨ c.state = .guarded ∨ c.state = .alert) :
    c.state.isRunning = true := by
  obtain h | h | h | h := h
  all_goals rw [h]; rfl

/-- Settles O35: the two timers' stops. -/
theorem flowTimersStopTheDuct : Obligations.FlowTimersStopTheDuct := by
  intro d s hw hok
  refine ⟨fun htimer hstate => ?_, fun htimer hstate => ?_⟩
  · have hexec : exec (.startTimerExpiry d) s = .next (raiseTrouble (ductZone d) .noFlow (d.val + 1) (dcEvent d [.noFlow] s)) :=
      (whenRunning_working s _ hw).trans (congrArg Host.Outcome.next (if_pos (expires_in htimer hstate)))
    exact ⟨_, hexec, orderly_raised rfl ⟨nofun, nofun⟩ (running_of_flow (hstate.imp id .inl)) hok⟩
  · have hexec : exec (.lowFlowTimerExpiry d) s = .next (raiseTrouble (ductZone d) .lowFlow (d.val + 1) (dcEvent d [.lowFlow] s)) :=
      (whenRunning_working s _ hw).trans (congrArg Host.Outcome.next (if_pos (expires_in htimer hstate)))
    exact ⟨_, hexec, orderly_raised rfl ⟨nofun, nofun⟩ (running_of_flow (.inr (.inr hstate))) hok⟩

/-! ### Arming windows and timers (R97, R100, R101, R105) -/

/-- A record that differs from the present one in what fixes no output and no bounds is only put in its place. -/
theorem setCtl_eq {d : Fin 4} {s : State} (ho : OutputsOk s) (hb : BoundsOk s) {c : Ctl} (hs : c.state = (s.ctl d).state)
    (hr : c.stop = (s.ctl d).stop) (hp : c.purge = (s.ctl d).purge) (hf : c.feeder = (s.ctl d).feeder) (hn : c.fan = (s.ctl d).fan) :
    s.setCtl d c = s.setDuct d { s.duct d with ctl := c } := by
  obtain ⟨⟨hfeeder, hfan, -⟩, -⟩ := ho d
  have hbounds : boundsFor (s.ductCfg d) (s.duct d).vel.state (s.duct d).vel.value c.state = (s.duct d).vel.bounds := by
    rw [hs]
    exact ((boundsOk_iff s).mp hb d).symm
  have hout : c.withOutputs = c := by
    have h1 : feederOn c.state = c.feeder := by
      rw [hs, hf]
      exact hfeeder.symm
    have h2 : fanOn c.state c.stop c.purge = c.fan := by
      rw [hs, hr, hp, hn]
      exact hfan.symm
    rw [Ctl.withOutputs, h1, h2]
  rw [State.setCtl, hout, hbounds]

theorem zone_fire_of_cause {x : Zone} (hok : ZoneOk x) {i : Fin 13} (h : x.causes[i] = .fire) : x.level = .fire := by
  obtain ⟨-, hlevel, -⟩ := hok
  rw [hlevel, deriveLevel]
  split
  · rfl
  · exact causesLevel_fire.mpr ⟨i, h⟩

/-- A change of state of a duct, with its notice and its postings. -/
theorem changeCtl_settled {d : Fin 4} {new : Ctl} {s : State} (hok : ZonesOk s) (hl : Local [.ctl, .posts] d s (changeCtl d new s))
    (hlevel : ductStateLevel new = .fire → (s.zone (ductZone d)).level = .fire) :
    let t := settleDuct d (changeCtl d new s)
    t.ctl d = new.withOutputs ∧ DuctTold d [stateNotice d (s.ctl d) (t.ctl d)] s t ∧ PostedAt t d ∧ t.gate d = s.gate d ∧
      (t.duct d).vel.state = (s.duct d).vel.state ∧ KeepsWater d s t ∧ KeepsLinks s t ∧ StaysInDuct d s t := by
  have hctl := changeCtl_ctl d new s
  have hset := hl.settled (changeCtl_told d new s) hok fun e => hlevel (by rwa [hctl] at e)
  have hgate := hset.gate.trans (changeCtl_gate d new s)
  have hwater := hset.water (hl.keepsWater (by decide))
  have hvel : ((settleDuct d (changeCtl d new s)).duct d).vel.state = (s.duct d).vel.state := by
    rw [hset.vel]
    have hduct : (changeCtl d new s).duct d = _ := s.setDuct_duct_self d _
    rw [hduct]
  intro t
  have ht : t.ctl d = new.withOutputs := hset.ctl.trans hctl
  refine ⟨ht, ?_, hset.posted, hgate, hvel, hwater, hset.links, hset.stays⟩
  rw [ht, stateNotice_withOutputs]
  exact hset.told

/-- Settles O36: the three ends of an arming window. -/
theorem twoCleanWindowsGuardTheDuct : Obligations.TwoCleanWindowsGuardTheDuct := by
  intro d s hw hok hout hbounds htimer hstate c
  have hexec {t : State} (h : armingExpires d s = t) : exec (.armingWindowExpiry d) s = .next t :=
    (whenRunning_working s _ hw).trans (congrArg Host.Outcome.next h)
  have harm : armingExpires d s = if c.windowClean then
      (if c.cleanCount + 1 = 2 then
        settleDuct d (changeCtl d { c with state := .guarded, start := none, arm := none, cleanCount := 2, lowFlow := none } s)
      else s.setCtl d { c with arm := some (s.after 8000), cleanCount := c.cleanCount + 1 })
      else s.setCtl d { c with arm := some (s.after 8000), windowClean := true, cleanCount := 0 } := if_pos (expires_in htimer hstate)
  refine ⟨fun hclean hcount => ?_, fun hclean hcount => hexec ?_, fun hclean => hexec ?_⟩
  · rw [if_pos hclean, if_pos (congrArg (· + 1) hcount)] at harm
    have hl : Local [.ctl, .posts] d s
        (changeCtl d { c with state := .guarded, start := none, arm := none, cleanCount := 2, lowFlow := none } s) :=
      changeCtl_local (fun h => by simpa [StopRecorded, hstate] using h) rfl fun _ => by rw [hstate]; rfl
    obtain ⟨hctl, htold, ⟨-, hposted, -⟩, hgate, hvel, hwater, hlinks, hstays⟩ := changeCtl_settled hok hl nofun
    refine ⟨_, hexec harm, hctl, htold, ?_, hgate, hwater, hlinks, hstays⟩
    rw [hposted, hctl, hvel]
    cases (s.duct d).vel.state <;> rfl
  · rw [harm, if_pos hclean, if_neg (by rw [hcount]; decide), hcount]
    exact setCtl_eq hout hbounds rfl rfl rfl rfl rfl
  · rw [harm, if_neg (by rw [hclean]; decide)]
    exact setCtl_eq hout hbounds rfl rfl rfl rfl rfl

/-- Settles O37: the ends of rate window, quiet time and purge time. -/
theorem rateQuietAndPurgeTimersAct : Obligations.RateQuietAndPurgeTimersAct := by
  intro d s hw hok hposted hout hbounds c
  obtain ⟨⟨hfeeder, hfan, -⟩, -⟩ := hout d
  refine ⟨fun htimer => ?_, fun htimer hstate => ?_, fun htimer hstate => ?_⟩
  · refine (whenRunning_working s _ hw).trans (congrArg Host.Outcome.next ?_)
    rw [rateExpires, expiresNow, decide_eq_true htimer, if_pos rfl]
    exact setCtl_eq hout hbounds rfl rfl rfl rfl rfl
  · have hexec : quietExpires d s = settleDuct d (changeCtl d { c with state := .guarded, quiet := none } s) :=
      if_pos (expires_in htimer hstate)
    have hl : Local [.ctl, .posts] d s (changeCtl d { c with state := .guarded, quiet := none } s) :=
      changeCtl_local (fun h => by simpa [StopRecorded, show (s.ctl d).state = _ from hstate] using h) rfl fun _ => by
        rw [show (s.ctl d).state = _ from hstate]
        rfl
    obtain ⟨hctl, htold, ⟨hcause, -⟩, hgate, -, hwater, hlinks, hstays⟩ := changeCtl_settled hok hl nofun
    refine ⟨_, (whenRunning_working s _ hw).trans (congrArg Host.Outcome.next hexec), ?_, htold, ?_, hgate, hwater, hlinks, hstays⟩
    · have hf : c.feeder = true := by
        rw [show c.feeder = feederOn c.state from hfeeder, hstate]
        rfl
      have hn : c.fan = true := by
        rw [show c.fan = fanOn c.state c.stop c.purge from hfan, hstate]
        rfl
      rw [hctl, Ctl.withOutputs, hf, hn]
      rfl
    · rw [hcause, hctl]
      rfl
  · have hexec : purgeExpires d s = settleDuct d (changeCtl d { s.ctl d with state := .stopped, purge := none } s) :=
      if_pos (expires_in htimer hstate)
    have hl : Local [.ctl, .posts] d s (changeCtl d { s.ctl d with state := .stopped, purge := none } s) := enterStopped_local hstate
    obtain ⟨hctl, htold, ⟨-, -, hcause⟩, hgate, -, hwater, hlinks, hstays⟩ := changeCtl_settled hok hl fun e => by
      have hfire : ductStateLevel (s.ctl d) = .fire := by
        rw [ductStateLevel, show (s.ctl d).state = _ from hstate]
        exact e
      obtain ⟨hc, -⟩ := hposted d
      exact zone_fire_of_cause (hok _) (hc.trans hfire)
    refine ⟨_, (whenRunning_working s _ hw).trans (congrArg Host.Outcome.next hexec), hctl, htold, ?_, hgate, hwater, hlinks, hstays⟩
    rw [hcause, hctl]
    rfl

/-! ### The way back to OFFLINE (R111) -/

theorem clearTrouble_kind {z : Fin 16} {k : TroubleKind} {n : Nat} {s : State} (h : ZonesOk s) : ¬Raised (clearTrouble z k n s) z k n := by
  obtain ⟨_, _, hnodup⟩ := h z
  exact not_raised_clearTrouble hnodup k n

/-- The clearing of LOW_FLOW and NO_FLOW after a change of a duct's record. -/
theorem flowTroubles_cleared {d : Fin 4} {m : List DuctPart} {l : List Offer} {s v : State} (h : Local m d s v) (htold : Told l s v)
    (hzones : v.zones = s.zones) (hok : ZonesOk s) :
    let u := clearTrouble (ductZone d) .noFlow (d.val + 1) (clearTrouble (ductZone d) .lowFlow (d.val + 1) v)
    Local m d s u ∧ Told (l ++ (clearNotices s (ductZone d) .lowFlow (d.val + 1) ++ clearNotices s (ductZone d) .noFlow (d.val + 1))) s u ∧
      u.duct d = v.duct d ∧ ¬Raised u (ductZone d) .lowFlow (d.val + 1) ∧ ¬Raised u (ductZone d) .noFlow (d.val + 1) := by
  have hokv : ZonesOk v := h.hazards.zonesOk h.nodup hok
  have h1 := clearTrouble_local d (ductZone d) .lowFlow (d.val + 1) v
  have ht1 := clearTrouble_told (ductZone d) .lowFlow (d.val + 1) v
  have hlow : ¬Raised (clearTrouble (ductZone d) .lowFlow (d.val + 1) v) (ductZone d) .lowFlow (d.val + 1) := clearTrouble_kind hokv
  have hno : Raised (clearTrouble (ductZone d) .lowFlow (d.val + 1) v) (ductZone d) .noFlow (d.val + 1) ↔
      Raised v (ductZone d) .noFlow (d.val + 1) := raised_clearTrouble_ne v fun e => absurd e.2.1 (by decide)
  have hd1 := clearTrouble_duct (ductZone d) .lowFlow (d.val + 1) v d
  rw [clearNotices_congr (raised_of_zones hzones _ _ _)] at ht1
  generalize clearTrouble (ductZone d) .lowFlow (d.val + 1) v = w at h1 ht1 hlow hno hd1
  have h2 := clearTrouble_local d (ductZone d) .noFlow (d.val + 1) w
  have ht2 := clearTrouble_told (ductZone d) .noFlow (d.val + 1) w
  rw [clearNotices_congr (hno.trans (raised_of_zones hzones _ _ _))] at ht2
  refine ⟨h.trans ((h1.trans h2).mono (by simp)), htold.trans (ht1.trans ht2 h1.within.fixed.tick_eq) h.within.fixed.tick_eq,
    (clearTrouble_duct _ _ _ w d).trans hd1, fun e => hlow ?_, clearTrouble_kind (h1.hazards.zonesOk h1.nodup hokv)⟩
  exact (raised_clearTrouble_ne w fun k => absurd k.2.1 (by decide)).mp e

/-- RESET_DUCT of a STOPPED duct: its record, its troubles and its notices (R13, R93, R111). -/
theorem resetDuct_left {d : Fin 4} {s : State} (hok : ZonesOk s) :
    let t := resetDuct d s
    t.ctl d = { s.ctl d with state := .offline, stop := none, feeder := false, fan := false } ∧
      DuctTold d (stateNotice d (s.ctl d) (t.ctl d) :: (clearNotices s (ductZone d) .lowFlow (d.val + 1) ++
        clearNotices s (ductZone d) .noFlow (d.val + 1))) s t ∧
      (t.zone (ductZone d)).causes[CauseKey.ductState.ix] = .normal ∧ (t.zone (ductZone d)).latch = (s.zone (ductZone d)).latch ∧
      ¬Raised t (ductZone d) .lowFlow (d.val + 1) ∧ ¬Raised t (ductZone d) .noFlow (d.val + 1) ∧
      (t.duct d).vel.bounds.blind = true ∧ t.gate d = s.gate d ∧ KeepsWater d s t ∧ StaysInDuct d s t ∧ KeepsLinks s t := by
  have hchange : Local [.ctl, .posts] d s (changeCtl d { s.ctl d with state := .offline, stop := none } s) :=
    changeCtl_local (fun _ => ⟨nofun, fun h => h.elim nofun nofun⟩) rfl nofun
  have hctl := changeCtl_ctl d { s.ctl d with state := .offline, stop := none } s
  have hgate := changeCtl_gate d { s.ctl d with state := .offline, stop := none } s
  have hblind : ((changeCtl d { s.ctl d with state := .offline, stop := none } s).duct d).vel.bounds.blind = true := by
    have hb : ((changeCtl d { s.ctl d with state := .offline, stop := none } s).duct d).vel.bounds = _ := s.setCtl_bounds d _
    rw [hb]
    show isBlind (s.duct d).vel.state .offline = true
    cases (s.duct d).vel.state <;> rfl
  have htold := changeCtl_told d { s.ctl d with state := .offline, stop := none } s
  have hzones : (changeCtl d { s.ctl d with state := .offline, stop := none } s).zones = s.zones := rfl
  unfold resetDuct
  generalize changeCtl d { s.ctl d with state := .offline, stop := none } s = v at hchange hctl hgate hblind htold hzones
  obtain ⟨hlocal, htold, hduct, hlow, hno⟩ := flowTroubles_cleared hchange htold hzones hok
  dsimp only
  generalize clearTrouble (ductZone d) .noFlow (d.val + 1) (clearTrouble (ductZone d) .lowFlow (d.val + 1) v) = u
    at hlocal htold hduct hlow hno
  have huctl : u.ctl d = _ := (congrArg Duct.ctl hduct).trans hctl
  have hset := hlocal.settled htold hok fun e => by
    rw [huctl] at e
    exact nomatch e
  generalize settleDuct d u = t at hset
  have ht := hset.ctl.trans huctl
  obtain ⟨hcause, -⟩ := hset.posted
  refine ⟨ht, ?_, ?_, hset.latch, fun h => hlow ?_, fun h => hno ?_, ?_, hset.gate.trans ((congrArg Duct.gate hduct).trans hgate),
    hset.water (hlocal.keepsWater (by decide)), hset.stays, hset.links⟩
  · rw [ht, stateNotice_withOutputs]
    exact hset.told
  · rw [hcause, ht]
    rfl
  · exact (hset.raised .lowFlow ⟨by decide, by decide⟩ _ _).mp h
  · exact (hset.raised .noFlow ⟨by decide, by decide⟩ _ _).mp h
  · rw [hset.vel, hduct]
    exact hblind

/-- Settles O34: PC's denial at a FIRE stop, and the return to OFFLINE. -/
theorem resetDuctReturnsToOffline : Obligations.ResetDuctReturnsToOffline := by
  intro p n d s hp ht hrun hok hstate
  refine ⟨fun hpc hfire => ?_, fun hmay hmark hlatch => ?_⟩
  · rw [ductStateBytes_eq]
    refine serve_refuses ht codeResetDuct n ?_
    rw [resetDuctReply, ductOperand_number]
    exact if_pos ((resetDenied_iff hp _).mpr ⟨hpc, hstate, hfire⟩)
  · obtain ⟨hctl, htold, hcause, hlatched, hlow, hno, hblind, hgate, hwater, hstays, hlinks⟩ :=
      resetDuct_left (d := d) (s := frameTaken p s) hok
    have hallowed : ¬resetForbidden (frameTaken p s) d = true := by
      rw [resetForbidden_iff]
      rintro (h | h | h | ⟨h, k⟩)
      · exact Bool.noConfusion (h.symm.trans hrun)
      · exact h hstate
      · exact Bool.noConfusion (h.symm.trans hmark)
      · obtain ⟨x, hx, hl⟩ := hlatch h
        exact k x hx hl
    have hreply : resetDuctReply p (ductNumber d) (frameTaken p s) = accept [0, 0xFF, 0xFF, 0xFF] (resetDuct d (frameTaken p s)) := by
      rw [resetDuctReply, ductOperand_number]
      dsimp only
      rw [if_neg (mt (resetDenied_iff hp _).mp fun h => ?_), if_neg hallowed, ductAnswer, hctl]
      · rfl
      · obtain ⟨hpc, -, x, hx, hk⟩ := h
        exact hmay hpc x hx hk
    generalize resetDuct d (frameTaken p s) = t at hctl htold hcause hlatched hlow hno hblind hgate hwater hstays hlinks hreply
    exact ⟨_, serve_accepts ht codeResetDuct n hreply, hlinks.answers _, htold.answered _, hctl, hcause, hlatched, hlow, hno, hblind,
      gate_answered hgate _, hwater.answered _, hstays.answered _⟩

end Sys2Proof.Machine
end

