-- ==== Sys2Proof/Proofs/GateNotices.lean ====
section
/-! PROOFS. The strokes of a gate and their notices (R78, R83 to R86), and the start of a duct (R95). -/

namespace Sys2Proof.Machine

open Sys2Proof

/-! ### Strokes -/

theorem gateOffer_eq (d : Fin 4) (old new : Gate) (ended : Option StrokeEnd) :
    gateOffer d old new ended = gateNotice d old.state new.state new.cmdTick (optByte (ended.map fun e => byteOf e.num)) := rfl

theorem moveGate_told (d : Fin 4) (new : Gate) (ended : Option StrokeEnd) (s : State) :
    Told [gateNotice d (s.gate d).state new.state new.cmdTick (optByte (ended.map fun e => byteOf e.num))] s
      (moveGate d new ended s) := by
  rw [← gateOffer_eq]
  exact .after (t := s.setGate d new.withDrives) rfl rfl (offer_told _ _)

theorem moveGate_gate (d : Fin 4) (new : Gate) (ended : Option StrokeEnd) (s : State) :
    (moveGate d new ended s).gate d = new.withDrives := s.setGate_gate_self d _

/-- A gate at the end of its stroke (R85). -/
def Gate.ended (g : Gate) (goal : GateState) : Gate :=
  { g with state := goal, openDrive := false, closeDrive := false, timer := none, troubleMark := false }

theorem Gate.strokeGoal_withDrives (g : Gate) :
    ({ g with state := g.strokeGoal, timer := none, troubleMark := false } : Gate).withDrives = g.ended g.strokeGoal := by
  obtain h | h := g.strokeGoal_resting
  all_goals
    rw [h]
    rfl

/-- The end of a stroke at its switch (R85). -/
theorem endStroke_arrived {d : Fin 4} {s : State} (h : (s.gate d).arrived = true) :
    let g := s.gate d
    let t := endStroke d s
    Told (gateNotice d g.state g.strokeGoal g.cmdTick 0 :: (if g.troubleMark then clearNotices s (ductZone d) .gateFault 0 else [])) s t ∧
      t.gate d = g.ended g.strokeGoal ∧ (g.troubleMark = true → ZonesOk s → ¬Raised t (ductZone d) .gateFault 0) := by
  dsimp only
  rw [endStroke]
  dsimp only
  rw [if_pos h]
  have hmove := moveGate_told d { s.gate d with state := (s.gate d).strokeGoal, timer := none, troubleMark := false } (some .switch) s
  have hgate := moveGate_gate d { s.gate d with state := (s.gate d).strokeGoal, timer := none, troubleMark := false } (some .switch) s
  have hzones : (moveGate d { s.gate d with state := (s.gate d).strokeGoal, timer := none, troubleMark := false } (some .switch) s).zones =
      s.zones := rfl
  have hfixed := (moveGate_within d { s.gate d with state := (s.gate d).strokeGoal, timer := none, troubleMark := false }
    (some .switch) s).fixed
  rw [Gate.strokeGoal_withDrives] at hgate
  generalize moveGate d { s.gate d with state := (s.gate d).strokeGoal, timer := none, troubleMark := false } (some .switch) s = u
    at hmove hgate hzones hfixed
  cases hm : (s.gate d).troubleMark
  · exact ⟨hmove, hgate, nofun⟩
  · refine ⟨?_, (congrArg Duct.gate (clearTrouble_duct _ _ _ u d)).trans hgate, fun _ hok => clearTrouble_kind fun z => ?_⟩
    · have hclear := clearTrouble_told (ductZone d) .gateFault 0 u
      rw [clearNotices_congr (raised_of_zones hzones _ _ _)] at hclear
      exact hmove.trans hclear hfixed.tick_eq
    · rw [State.zone_eq_of_zones hzones]
      exact hok z

theorem endStroke_resting {d : Fin 4} {s : State} (h : (s.gate d).arrived = false) : endStroke d s = s := by
  rw [endStroke, h]
  rfl

/-- The gate that a stroke's command leaves (R83 to R85). -/
def Gate.strokeTo (g : Gate) (st goal : GateState) (there : Bool) (now due : Tick) : Gate :=
  if there then { g with state := goal, openDrive := false, closeDrive := false, cmdTick := now, timer := none, troubleMark := false }
  else { g with state := st, openDrive := decide (st = .opening), closeDrive := decide (st = .closing), cmdTick := now, timer := some due }

/-- The beginning of a stroke, which ends at once where its switch is active (R83 to R85). -/
theorem beginStroke_left (d : Fin 4) {st goal : GateState} {there : Bool} (s : State)
    (hst : (st = .closing ∧ goal = .closed ∧ there = (s.gate d).closedSwitch) ∨
      (st = .opening ∧ goal = .opened ∧ there = (s.gate d).openSwitch)) :
    let t := beginStroke d st s
    Told (strokeNotices s d (s.gate d) st goal there) s t ∧
      t.gate d = (s.gate d).strokeTo st goal there s.tick (s.tick.plus (4 * (s.gateCfg d).stroke + 4000)) := by
  let off : Gate :=
    { s.gate d with state := st, cmdTick := s.tick, timer := some (s.after (msTicks (s.gateCfg d).stroke + 4000)) }
  let ended : Option StrokeEnd := if (s.gate d).state = .opening ∨ (s.gate d).state = .closing then some .command else none
  have harrived : off.withDrives.arrived = there ∧ off.withDrives.strokeGoal = goal := by
    obtain ⟨rfl, rfl, rfl⟩ | ⟨rfl, rfl, rfl⟩ := hst
    · exact ⟨rfl, rfl⟩
    · exact ⟨rfl, rfl⟩
  have hmove := moveGate_told d off ended s
  have hbyte : optByte (ended.map fun e => byteOf e.num) =
      if (s.gate d).state = .opening ∨ (s.gate d).state = .closing then 2 else 0xFF := by
    show optByte (Option.map _ (if _ then _ else _)) = _
    split <;> rfl
  rw [hbyte] at hmove
  have hgate := moveGate_gate d off ended s
  have hzones : (moveGate d off ended s).zones = s.zones := rfl
  have hfixed := (moveGate_within d off ended s).fixed
  show Told _ s (endStroke d (moveGate d off ended s)) ∧ (endStroke d (moveGate d off ended s)).gate d = _
  generalize moveGate d off ended s = u at hmove hgate hzones hfixed
  obtain ⟨harrived, hgoal⟩ := harrived
  rw [← hgate] at harrived hgoal
  unfold strokeNotices Gate.strokeTo
  cases there
  · rw [endStroke_resting harrived]
    exact ⟨hmove, hgate⟩
  · obtain ⟨htold, hleft, -⟩ := endStroke_arrived harrived
    rw [hgoal] at hleft htold
    rw [hgate] at hleft htold
    rw [clearNotices_congr (raised_of_zones hzones _ _ _)] at htold
    exact ⟨hmove.trans htold hfixed.tick_eq, hleft⟩

theorem gateState_some {s : State} {d : Fin 4} (h : (s.gateCfg d).installed = true) : s.gateState d = some (s.gate d).state := if_pos h

theorem gateState_none {s : State} {d : Fin 4} (h : ¬(s.gateCfg d).installed = true) : s.gateState d = none := if_neg h

/-- A close command (R83, R85). -/
theorem closeCommand_left (d : Fin 4) (s : State) :
    Told (closeNotices s d (s.gate d)) s (closeCommand d s) ∧ GateShut d s (closeCommand d s) := by
  unfold closeNotices GateShut shutGate
  by_cases h : (s.gateCfg d).installed = true ∧ ((s.gate d).state = .opened ∨ (s.gate d).state = .opening ∨ (s.gate d).state = .fault)
  · have hcommand : closeCommand d s = beginStroke d .closing s := by
      rw [closeCommand, gateState_some h.1]
      obtain h | h | h := h.2
      all_goals rw [h]
    rw [if_pos h, if_pos h, hcommand]
    exact beginStroke_left d s (.inl ⟨rfl, rfl, rfl⟩)
  · have hcommand : closeCommand d s = s := by
      rw [closeCommand]
      by_cases hi : (s.gateCfg d).installed = true
      · rw [gateState_some hi]
        cases hs : (s.gate d).state
        case closing | closed => rfl
        all_goals exact absurd ⟨hi, by simp [hs]⟩ h
      · rw [gateState_none hi]
    rw [if_neg h, if_neg h, hcommand]
    exact ⟨.refl s, rfl⟩

/-- The gate that an open command leaves (R84, R85). -/
def openedGate (k : GateCfg) (now : Tick) (g : Gate) : Gate :=
  if k.installed = true ∧ (g.state = .closed ∨ g.state = .fault) then
    (if g.openSwitch then
      { g with state := .opened, openDrive := false, closeDrive := false, cmdTick := now, timer := none, troubleMark := false }
    else
      { g with state := .opening, openDrive := true, closeDrive := false, cmdTick := now, timer := some (now.plus (4 * k.stroke + 4000)) })
  else g

/-- An open command (R84, R85). -/
theorem openCommand_left (d : Fin 4) (s : State) :
    Told (openNotices s d (s.gate d)) s (openCommand d s) ∧
      (openCommand d s).gate d = openedGate (s.gateCfg d) s.tick (s.gate d) := by
  unfold openNotices openedGate
  by_cases h : (s.gateCfg d).installed = true ∧ ((s.gate d).state = .closed ∨ (s.gate d).state = .fault)
  · have hcommand : openCommand d s = beginStroke d .opening s := by
      rw [openCommand, gateState_some h.1]
      obtain h | h := h.2
      all_goals rw [h]
    rw [if_pos h, if_pos h, hcommand]
    exact beginStroke_left d s (.inr ⟨rfl, rfl, rfl⟩)
  · have hcommand : openCommand d s = s := by
      rw [openCommand]
      by_cases hi : (s.gateCfg d).installed = true
      · rw [gateState_some hi]
        cases hs : (s.gate d).state
        case closed | fault => exact absurd ⟨hi, by simp [hs]⟩ h
        all_goals rfl
      · rw [gateState_none hi]
    rw [if_neg h, if_neg h, hcommand]
    exact ⟨.refl s, rfl⟩

/-! ### The start of a duct (R95) -/

theorem strokeNotices_congr {s u : State} (ht : u.tick = s.tick) (hz : u.zones = s.zones) (d : Fin 4) (g : Gate)
    (driving rest : GateState) (there : Bool) : strokeNotices u d g driving rest there = strokeNotices s d g driving rest there := by
  unfold strokeNotices
  rw [ht, clearNotices_congr (raised_of_zones hz _ _ _)]

theorem openNotices_congr {s u : State} (hc : u.cfg = s.cfg) (ht : u.tick = s.tick) (hz : u.zones = s.zones) (d : Fin 4) (g : Gate) :
    openNotices u d g = openNotices s d g := by
  unfold openNotices State.gateCfg State.ductCfg
  rw [hc, strokeNotices_congr ht hz]

theorem closeNotices_congr {s u : State} (hc : u.cfg = s.cfg) (ht : u.tick = s.tick) (hz : u.zones = s.zones) (d : Fin 4) (g : Gate) :
    closeNotices u d g = closeNotices s d g := by
  unfold closeNotices State.gateCfg State.ductCfg
  rw [hc, strokeNotices_congr ht hz]

theorem Level.num_max (a b : Level) : (a.max b).num = Nat.max a.num b.num := by
  cases a <;> cases b <;> rfl

/-- A cause set stands at least as high as each of its records. -/
theorem le_causesLevel (causes : Vector Level 13) (i : Fin 13) : causes[i].num ≤ (causesLevel causes).num := by
  have run : ∀ (l : List (Fin 13)) (a : Level), a.num ≤ (l.foldl (fun l i => l.max causes[i]) a).num ∧
      ∀ i ∈ l, causes[i].num ≤ (l.foldl (fun l i => l.max causes[i]) a).num := by
    intro l
    induction l with
    | nil => exact fun a => ⟨le_rfl, nofun⟩
    | cons j rest ih =>
      intro a
      obtain ⟨hstart, hrest⟩ := ih (a.max causes[j])
      rw [Level.num_max] at hstart
      refine ⟨(Nat.le_max_left _ _).trans hstart, fun i hi => ?_⟩
      obtain rfl | hi := List.mem_cons.mp hi
      · exact (Nat.le_max_right _ _).trans hstart
      · exact hrest i hi
  exact (run (List.finRange 13) .normal).2 i (List.mem_finRange i)

/-- A cause at ALARM keeps its zone at ALARM or above. -/
theorem zone_alarm_of_cause {x : Zone} (hok : ZoneOk x) {i : Fin 13} (h : x.causes[i] = .alarm) : x.level.atLeast .alarm = true := by
  obtain ⟨-, hlevel, -⟩ := hok
  have hle := le_causesLevel x.causes i
  rw [h] at hle
  rw [hlevel, deriveLevel]
  split
  · rfl
  · exact decide_eq_true hle

theorem emberLevel_offline {c : Ctl} (h : c.state = .offline) : emberLevel c = if c.listMark then .alarm else .normal := by
  rw [emberLevel, h]

/-- The record of a duct that starts (R95). -/
def startingCtl (start : Tick) (c : Ctl) : Ctl :=
  { c with state := .starting, stop := none, start := some start, arm := none, cleanCount := 0, rateCount := 0, rate := none,
           quiet := none, lowFlow := none, purge := none }

theorem changeCtl_starting (d : Fin 4) (start : Tick) (s : State) :
    Local [.ctl, .posts, .starts, .gate] d s (changeCtl d (startingCtl start (s.ctl d)) s) := by
  have h : Local [.ctl, .posts, .starts, .gate] d s (s.setCtl d (startingCtl start (s.ctl d))) :=
    setCtl_local (by decide) (fun _ => ⟨nofun, fun h => h.elim nofun nofun⟩) (.inr rfl) (.inl (by decide)) (.inl (by decide))
  exact h.trans ((offer_local d _ _).mono (by simp))

/-- START_DUCT of an OFFLINE duct below ALARM: its record, its gate and its notices (R84, R85, R92, R93, R95). -/
theorem startDuct_left {d : Fin 4} {s : State} (hok : ZonesOk s) (hposted : PostedOk s) (hstate : (s.ctl d).state = .offline)
    (hbelow : (s.zone (ductZone d)).level.atLeast .alarm = false) :
    let t := startDuct d s
    Local [.ctl, .posts, .starts, .gate] d s t ∧ Told (stateNotice d (s.ctl d) (t.ctl d) :: openNotices s d (s.gate d)) s t ∧
      t.ctl d = (startingCtl (s.tick.plus (4000 * (s.ductCfg d).startTime)) (s.ctl d)).withOutputs ∧
      t.gate d = openedGate (s.gateCfg d) s.tick (s.gate d) := by
  let new := startingCtl (s.tick.plus (4000 * (s.ductCfg d).startTime)) (s.ctl d)
  have hchange := changeCtl_starting d (s.tick.plus (4000 * (s.ductCfg d).startTime)) s
  have hctl := changeCtl_ctl d new s
  have hgate := changeCtl_gate d new s
  have htold := changeCtl_told d new s
  have hzones : (changeCtl d new s).zones = s.zones := rfl
  have hstart : startDuct d s = settleDuct d (openCommand d (changeCtl d new s)) := rfl
  dsimp only
  rw [hstart]
  generalize changeCtl d new s = v at hchange hctl hgate htold hzones
  have hfixed := hchange.within.fixed
  obtain ⟨hopen, hleft⟩ := openCommand_left d v
  have hlocal := hchange.trans ((openCommand_local d v).mono (by simp))
  have huctl := ((openCommand_local d v).ctl_eq (by simp)).trans hctl
  rw [hgate, openNotices_congr hfixed.cfg_eq hfixed.tick_eq hzones] at hopen
  rw [hgate, hfixed.tick_eq, State.gateCfg, State.ductCfg, hfixed.cfg_eq] at hleft
  have hall := htold.trans hopen hfixed.tick_eq
  generalize openCommand d v = u at hlocal huctl hleft hall
  have hsettle : settleDuct d u = u := by
    refine settleDuct_posted (hlocal.hazards.zonesOk hlocal.nodup hok _) ?_
    obtain ⟨h1, h2, h3⟩ := hposted d
    have hember : emberLevel (s.ctl d) = .normal := by
      rw [emberLevel_offline hstate] at h3 ⊢
      split at h3
      · exact Bool.noConfusion (hbelow.symm.trans (zone_alarm_of_cause (hok _) h3))
      · rw [if_neg ‹_›]
    unfold PostedAt
    rw [hlocal.hazards.causes, huctl, h1, h2, h3]
    refine ⟨?_, ?_, hember⟩
    · rw [ductStateLevel, hstate]
      rfl
    · rw [hstate]
      rfl
  rw [hsettle]
  refine ⟨hlocal, ?_, huctl, hleft⟩
  rw [huctl, stateNotice_withOutputs]
  exact hall

/-- Settles O32: the start of the duct, with the answer that shows it. -/
theorem startDuctEntersStarting : Obligations.StartDuctEntersStarting := by
  intro p n d s hp ht hrun hok hposted hstate hbelow hserved g k answer
  obtain ⟨hlocal, htold, hctl, hgate⟩ := startDuct_left (s := frameTaken p s) hok hposted hstate hbelow
  have hallowed : ¬startForbidden (frameTaken p s) d = true := by
    rw [startForbidden_iff, ← or_assoc (a := (_ : Level) = .alarm), ← level_atLeast_alarm]
    rintro (h | h | h | ⟨z, hz, h⟩)
    · exact Bool.noConfusion (h.symm.trans hrun)
    · exact h hstate
    · exact Bool.noConfusion (hbelow.symm.trans h)
    · exact hserved z hz h
  have hreply : startDuctReply p (ductNumber d) (frameTaken p s) = accept answer.payload (startDuct d (frameTaken p s)) := by
    rw [startDuctReply, ductOperand_number]
    dsimp only
    rw [if_neg hp, if_neg hallowed, ductAnswer, hctl]
    rfl
  generalize startDuct d (frameTaken p s) = t at hlocal htold hctl hgate hreply
  obtain ⟨hhazards, hstays, hdoors, harbiter⟩ := hlocal.besideAnswer answer
  exact ⟨_, serve_accepts ht codeStartDuct n hreply, hlocal.within.answers _, (htold.answered _).offersAll, hctl, hgate,
    (hlocal.keepsWater (by decide)).answered _, hlocal.same .overlays (by decide), hhazards, hstays, hdoors, harbiter⟩

end Sys2Proof.Machine
end

