-- ==== Sys2Proof/Proofs/GateEvents.lean ====
section
/-! PROOFS. The events of a gate that reach the Duct Controller (R85, R86, R96, R106). -/

namespace Sys2Proof.Machine

open Sys2Proof

/-! ### A FIRE-kind stop that waits for its gate (R106) -/

/-- The gate of a duct lets a FIRE-kind stop end (R106). -/
def GateEnds (d : Fin 4) (s : State) : Prop :=
  (s.gateCfg d).installed = false ∨ (s.gate d).state = .closed ∨ (s.gate d).state = .fault

theorem gateShutEnough_iff (d : Fin 4) (s : State) : gateShutEnough (s.gateState d) = true ↔ GateEnds d s := by
  unfold GateEnds
  by_cases hi : (s.gateCfg d).installed = true
  · rw [gateState_some hi, hi]
    cases (s.gate d).state <;> simp [gateShutEnough]
  · rw [gateState_none hi]
    simp [gateShutEnough, hi]

theorem fireWait_stops {d : Fin 4} {s : State} (h : (s.ctl d).fireStopping = true) (hg : GateEnds d s) :
    fireWait d s = enterStopped d s := by
  rw [fireWait, h, (gateShutEnough_iff d s).mpr hg]
  rfl

theorem fireWait_waits {d : Fin 4} {s : State} (hg : ¬GateEnds d s) : fireWait d s = s := by
  rw [fireWait, Bool.eq_false_iff.mpr (mt (gateShutEnough_iff d s).mp hg), Bool.and_false]
  rfl

theorem enterStopped_told (d : Fin 4) (s : State) :
    Told [stateNotice d (s.ctl d) { s.ctl d with state := .stopped }] s (enterStopped d s) := changeCtl_told d _ s

theorem enterStopped_gate (d : Fin 4) (s : State) : (enterStopped d s).gate d = s.gate d := changeCtl_gate d _ s

/-- An event without stop causes takes none. -/
theorem takeCauses_nil (d : Fin 4) (s : State) : takeCauses d [] s = s := by
  unfold takeCauses
  split <;> rfl

theorem dcEvent_nil (d : Fin 4) (s : State) : dcEvent d [] s = settleDuct d (fireWait d s) := by
  rw [dcEvent, takeCauses_nil]

theorem fireStopping_iff (c : Ctl) : c.fireStopping = true ↔ c.state = .stopping ∧ ∃ x ∈ c.stop, x.kind = .fire := by
  unfold Ctl.fireStopping
  rw [Bool.and_eq_true, decide_eq_true_iff]
  refine and_congr_right fun _ => ?_
  split
  next h => simp [h]
  next h => simp [h]

/-- What a waiting FIRE-kind stop drives (R92). -/
theorem fireStopping_outputs {c : Ctl} (h : CtlOk c) (hf : c.fireStopping = true) : c.feeder = false ∧ c.fan = false := by
  obtain ⟨hfeeder, hfan, -⟩ := h
  obtain ⟨hstate, x, hx, hkind⟩ := (fireStopping_iff c).mp hf
  rw [hfeeder, hfan, hstate]
  refine ⟨rfl, ?_⟩
  simp [fanOn, show c.stop = some x from hx, hkind]

/-! ### The gate's switches (R85) -/

/-- A gate with a switch sampled that does not end a stroke stays. -/
theorem withSwitch_state (g : Gate) (which : GateSwitch) (b : Bool) : (g.withSwitch which b).state = g.state ∧
    (g.withSwitch which b).cmdTick = g.cmdTick ∧ (g.withSwitch which b).troubleMark = g.troubleMark := by
  cases which <;> exact ⟨rfl, rfl, rfl⟩

/-- The gate of a duct after a switch was sampled and a stroke that awaited it ended (R85). -/
theorem switchSampled_left {d : Fin 4} {which : GateSwitch} {active : Bool} {s : State} (hok : ZonesOk s) :
    let g := s.gate d
    let y := g.withSwitch which active
    let u := endStroke d (s.setGate d y)
    Told (if (u.gate d).state = g.state then [] else gateNotice d g.state (u.gate d).state g.cmdTick 0 ::
        (if g.troubleMark then clearNotices s (ductZone d) .gateFault 0 else [])) s u ∧
      u.gate d = (if y.arrived then y.ended y.strokeGoal else y) ∧
      (y.arrived = true → g.troubleMark = true → ¬Raised u (ductZone d) .gateFault 0) ∧ u.ctl d = s.ctl d := by
  intro g y u
  have hctl : u.ctl d = s.ctl d := (switchSampled_local d which active s).ctl_eq (by decide)
  have hgate : (s.setGate d y).gate d = y := s.setGate_gate_self d y
  obtain ⟨hstate, htick, hmark⟩ := withSwitch_state g which active
  cases ha : y.arrived
  · have hu : u = s.setGate d y := endStroke_resting (by rw [hgate]; exact ha)
    rw [hu, hgate, if_pos hstate]
    exact ⟨.of_ports rfl, rfl, nofun, s.setGate_ctl d y⟩
  · obtain ⟨htold, hleft, hclear⟩ := endStroke_arrived (d := d) (s := s.setGate d y) (by rw [hgate]; exact ha)
    rw [hgate] at htold hleft hclear
    have hgoal : (y.ended y.strokeGoal).state ≠ g.state := by
      rw [← hstate]
      show y.strokeGoal ≠ y.state
      unfold Gate.arrived at ha
      unfold Gate.strokeGoal
      cases hy : y.state <;> simp_all
    have hleft : u.gate d = y.ended y.strokeGoal := hleft
    rw [hleft, if_neg hgoal]
    rw [hstate, htick, hmark] at htold
    rw [hmark] at hclear
    exact ⟨.after (t := s.setGate d y) rfl rfl htold, rfl, fun _ hm => hclear hm hok, hctl⟩

/-- A part of the notices that are offered. -/
theorem OffersThese.mono {l m : List Offer} {s t : State} (h : OffersThese l s t) (hm : m.Sublist l) : OffersThese m s t := by
  obtain ⟨more, os, hos, ht⟩ := h
  obtain ⟨rest, hrest⟩ := hm.exists_perm_append
  refine ⟨rest ++ more, os, hos.trans ((hrest.append_right more).trans ?_), ht⟩
  rw [List.append_assoc]

/-- A change outside the ports and zones before the event of a duct. -/
theorem DuctTold.after {d : Fin 4} {l : List Offer} {s t w : State} (hp : t.ports = s.ports) (ht : t.tick = s.tick)
    (hz : t.zones = s.zones) (h : DuctTold d l t w) : DuctTold d l s w := by
  have hport : ∀ p, t.port p = s.port p := fun p => by simp only [State.port, hp]
  have hzone : ∀ z, t.zone z = s.zone z := fun z => by simp only [State.zone, hz]
  simpa only [DuctTold, OffersThese, OffersAll, hport, hzone, ht] using h

/-- What the Duct Controller has recorded stands at its level on the duct zone (R107). -/
theorem PostedAt.zone_fire {d : Fin 4} {s : State} (h : PostedAt s d) (hok : ZonesOk s) (hl : ductStateLevel (s.ctl d) = .fire) :
    (s.zone (ductZone d)).level = .fire := by
  obtain ⟨hcause, -⟩ := h
  exact zone_fire_of_cause (hok (ductZone d)) (hcause.trans hl)

theorem fireWait_zones (d : Fin 4) (s : State) : (fireWait d s).zones = s.zones := by
  unfold fireWait
  split <;> rfl

/-- A waiting FIRE-kind stop looks at its gate: record and notices (R92, R93, R106). -/
theorem fireWait_left (d : Fin 4) (s : State) :
    let u := fireWait d s
    Told (if (u.ctl d).state = (s.ctl d).state then [] else [stateNotice d (s.ctl d) (u.ctl d)]) s u ∧ u.gate d = s.gate d ∧
      ((s.ctl d).fireStopping = true → GateEnds d s →
        u.ctl d = { s.ctl d with state := .stopped, purge := none, feeder := false, fan := false }) ∧
      ((s.ctl d).fireStopping = true → ¬GateEnds d s → u.ctl d = s.ctl d) ∧
      ((s.ctl d).fireStopping = false → u.ctl d = s.ctl d) ∧ ductStateLevel (u.ctl d) = ductStateLevel (s.ctl d) := by
  intro u
  by_cases hf : (s.ctl d).fireStopping = true
  · by_cases hg : GateEnds d s
    · have hu : u = enterStopped d s := fireWait_stops hf hg
      have hctl := enterStopped_ctl d s
      have hstate : (s.ctl d).state = .stopping := ((fireStopping_iff _).mp hf).1
      rw [hu, enterStopped_gate, hctl, if_neg (by rw [hstate]; nofun), stateNotice_withOutputs]
      refine ⟨enterStopped_told d s, rfl, fun _ _ => rfl, fun _ h => absurd hg h, fun h => ?_, ?_⟩
      · exact absurd hf (by rw [h]; nofun)
      · unfold ductStateLevel
        rw [hstate]
        rfl
    · have hu : u = s := fireWait_waits hg
      rw [hu, if_pos rfl]
      exact ⟨.refl s, rfl, fun _ h => absurd h hg, fun _ _ => rfl, fun _ => rfl, rfl⟩
  · have hu : u = s := fireWait_eq (Bool.eq_false_iff.mpr hf)
    rw [hu, if_pos rfl]
    exact ⟨.refl s, rfl, fun h => absurd h hf, fun h => absurd h hf, fun _ => rfl, rfl⟩

/-- What a duct record that a switch event leaves is, by the gate that it leaves (R106). -/
theorem gateSwitchEvent_left {d : Fin 4} {which : GateSwitch} {active : Bool} {s : State} (hok : ZonesOk s) (hp : PostedAt s d)
    (hx : (s.gate d).switch which ≠ active) :
    let g := s.gate d
    let y := g.withSwitch which active
    let t := gateSwitchEvent d which active s
    t.gate d = (if y.arrived then y.ended y.strokeGoal else y) ∧
      (y.arrived = true → g.troubleMark = true → ¬Raised t (ductZone d) .gateFault 0) ∧
      ((s.ctl d).fireStopping = true → GateEnds d t →
        t.ctl d = { s.ctl d with state := .stopped, purge := none, feeder := false, fan := false }) ∧
      ((s.ctl d).fireStopping = true → ¬GateEnds d t → t.ctl d = s.ctl d) ∧
      ((s.ctl d).fireStopping = false → t.ctl d = s.ctl d) ∧
      DuctTold d ((if (t.gate d).state = g.state then [] else gateNotice d g.state (t.gate d).state g.cmdTick 0 ::
          (if g.troubleMark then clearNotices s (ductZone d) .gateFault 0 else [])) ++
        (if (t.ctl d).state = (s.ctl d).state then [] else [stateNotice d (s.ctl d) (t.ctl d)])) s t ∧
      KeepsWater d s t ∧ KeepsLinks s t ∧ StaysInDuct d s t := by
  intro g y t
  obtain ⟨htold, hgate, hclear, hctl⟩ := switchSampled_left (d := d) (which := which) (active := active) hok
  have hlocal := switchSampled_local d which active s
  have ht : t = settleDuct d (fireWait d (endStroke d (s.setGate d y))) := (if_pos hx).trans (dcEvent_nil d _)
  rw [ht]
  have hwait := fireWait_left d (endStroke d (s.setGate d y))
  have hlocalWait := fireWait_local d (endStroke d (s.setGate d y))
  generalize endStroke d (s.setGate d y) = u at htold hgate hclear hctl hlocal hwait hlocalWait
  obtain ⟨htoldWait, hgateWait, hstops, hwaits, hrests, hlevel⟩ := hwait
  have hall := (hlocal.mono (n := [.gate, .ctl, .posts]) (by simp)).trans (hlocalWait.mono (by simp))
  have hset := hall.settled (htold.trans htoldWait hlocal.within.fixed.tick_eq) hok fun e =>
    hp.zone_fire hok (by rw [← hctl, ← hlevel]; exact e)
  have hraised : Raised (fireWait d u) (ductZone d) .gateFault 0 ↔ Raised u (ductZone d) .gateFault 0 :=
    raised_of_zones (fireWait_zones d u) _ _ _
  generalize fireWait d u = w at *
  generalize settleDuct d w = v at *
  have hends : GateEnds d v ↔ GateEnds d u := by
    unfold GateEnds
    rw [hset.gate, hgateWait, State.gateCfg, State.gateCfg, State.ductCfg, State.ductCfg, hset.stays.1.cfg_eq, hlocal.within.fixed.cfg_eq]
  rw [hctl] at hstops hwaits hrests htoldWait
  refine ⟨?_, ?_, ?_, ?_, ?_, ?_, ?_, hset.links, hset.stays⟩
  · exact hset.gate.trans (hgateWait.trans hgate)
  · exact fun ha hm h => hclear ha hm (hraised.mp ((hset.raised _ ⟨by decide, by decide⟩ _ _).mp h))
  · exact fun hf he => hset.ctl.trans (hstops hf (hends.mp he))
  · exact fun hf he => hset.ctl.trans (hwaits hf (mt hends.mpr he))
  · exact fun hf => hset.ctl.trans (hrests hf)
  · rw [hset.ctl, hset.gate, hgateWait]
    have := hset.told
    rwa [hctl] at this
  · exact hset.water (hall.keepsWater (by decide))

/-- A FIRE-kind stop that waited and takes no cause (R104, R106). -/
theorem fireStopGoes_none {d : Fin 4} {s t : State} (hout : CtlOk (s.ctl d)) (hf : (s.ctl d).fireStopping = true)
    (hstops : GateEnds d t → t.ctl d = { s.ctl d with state := .stopped, purge := none, feeder := false, fan := false })
    (hwaits : ¬GateEnds d t → t.ctl d = s.ctl d) (hcfg : t.cfg = s.cfg)
    (htold : OffersThese (if (t.ctl d).state = (s.ctl d).state then [] else [stateNotice d (s.ctl d) (t.ctl d)]) s t) :
    FireStopGoes d none (s.ctl d) s t := by
  intro x hx stop ends waits
  have hstate := Ctl.fireStopping_state hf
  have hwaiting : waits = s.ctl d := congrArg (fun o => { s.ctl d with stop := o }) (show some x = (s.ctl d).stop from hx.symm)
  have hends : GateEnds d t ↔ ends := by
    unfold GateEnds
    rw [State.gateCfg, State.ductCfg, hcfg]
    rfl
  rw [hwaiting, if_pos rfl]
  by_cases he : ends
  · have hctl := hstops (hends.mpr he)
    rw [if_pos he, if_pos he, if_pos he, hctl]
    rw [hctl, if_neg (by rw [hstate]; nofun)] at htold
    exact ⟨rfl, htold⟩
  · have hctl := hwaits (mt hends.mp he)
    obtain ⟨hfeeder, hfan⟩ := fireStopping_outputs hout hf
    rw [if_neg he, if_neg he, if_neg he, hctl]
    rw [hctl, if_pos rfl] at htold
    refine ⟨?_, htold⟩
    generalize s.ctl d = c at hstate hfeeder hfan
    cases c
    simp_all

theorem gateEnds_of_state {d : Fin 4} {s : State} (h : (s.gate d).state = .closed ∨ (s.gate d).state = .fault) : GateEnds d s := .inr h

/-- A gate with a switch sampled that its stroke does not await. -/
theorem not_arrived_closing {g : Gate} {which : GateSwitch} {b : Bool} (hs : g.state = .closing)
    (hb : (g.withSwitch which b).closedSwitch = false) : (g.withSwitch which b).arrived = false := by
  obtain ⟨hstate, -⟩ := withSwitch_state g which b
  rw [Gate.arrived, hstate, hs]
  exact hb

theorem not_arrived_opening {g : Gate} {which : GateSwitch} {b : Bool} (hs : g.state = .opening)
    (hb : (g.withSwitch which b).openSwitch = false) : (g.withSwitch which b).arrived = false := by
  obtain ⟨hstate, -⟩ := withSwitch_state g which b
  rw [Gate.arrived, hstate, hs]
  exact hb

theorem not_arrived_resting {g : Gate} {which : GateSwitch} {b : Bool} (hs : g.state = .opened ∨ g.state = .closed ∨ g.state = .fault) :
    (g.withSwitch which b).arrived = false := by
  obtain ⟨hstate, -⟩ := withSwitch_state g which b
  rw [Gate.arrived, hstate]
  obtain h | h | h := hs <;> rw [h]

/-- Settles O49: the lead, its samples, and the ends of a stroke. -/
theorem gateSwitchEndsItsStroke : Obligations.GateSwitchEndsItsStroke := by
  intro d which active s hup hok hposted g moved base seen
  refine ⟨fun h => ?_, fun h hx => ?_, fun h hx => ?_⟩
  · exact (live_up moved _ hup).trans (congrArg Host.Outcome.next (sampling_idle (x := .gate d which) (s := moved) h _))
  · refine (live_up moved _ hup).trans (congrArg Host.Outcome.next ((sampling_due (x := .gate d which) (s := moved) h _).trans ?_))
    exact if_neg fun k => k hx
  · obtain ⟨hgate, hclear, hstops, hwaits, hctl, htold, hwater, hlinks, hstays⟩ :=
      gateSwitchEvent_left (d := d) (which := which) (active := active) (s := base) hok (hposted d) hx
    have htold := DuctTold.after (s := s) (t := base) rfl rfl rfl htold
    have hseen {goal : GateState} (ha : (g.withSwitch which active).arrived = true)
        (hg : (g.withSwitch which active).strokeGoal = goal) : seen goal (gateSwitchEvent d which active base) := by
      refine ⟨(hgate.trans (if_pos ha)).trans ?_, hclear ha⟩
      exact congrArg (g.withSwitch which active).ended hg
    have hrest (ha : (g.withSwitch which active).arrived = false) :
        (gateSwitchEvent d which active base).gate d = g.withSwitch which active :=
      hgate.trans (if_neg (Bool.eq_false_iff.mp ha))
    refine ⟨_, (live_up moved _ hup).trans (congrArg Host.Outcome.next (sampling_due (x := .gate d which) (s := moved) h _)),
      fun hs hw ha => ?_, fun hs hw ha => ?_, fun hs => hrest (not_arrived_resting hs), fun hs hb => hrest (not_arrived_closing hs hb),
      fun hs hb => hrest (not_arrived_opening hs hb), fun hs hf => hstops hf (gateEnds_of_state hs), fun hout hf => ?_, hctl, htold,
      hwater, hlinks, hstays⟩
    · subst hw ha
      refine hseen ?_ ?_
      · rw [Gate.arrived, (withSwitch_state _ _ _).1, hs]
        rfl
      · rw [Gate.strokeGoal, (withSwitch_state _ _ _).1, hs]
        rfl
    · subst hw ha
      refine hseen ?_ ?_
      · rw [Gate.arrived, (withSwitch_state _ _ _).1, hs]
        rfl
      · rw [Gate.strokeGoal, (withSwitch_state _ _ _).1, hs]
        rfl
    · obtain ⟨houtputs, -⟩ := hout d
      obtain ⟨hthese, -⟩ := htold
      refine fireStopGoes_none houtputs hf (hstops hf) (hwaits hf) hstays.1.cfg_eq (hthese.mono ?_)
      exact List.sublist_append_right _ _

end Sys2Proof.Machine
end

