-- ==== Sys2Proof/Proofs/FireReports.lean ====
section
/-! PROOFS. The report of a zone at FIRE at the four Duct Controllers (R109), seen from one of them: what it leaves there, what it
leaves of the others' work, and the ends of an event that brings a duct zone to FIRE. -/

namespace Sys2Proof.Machine

open Sys2Proof

/-! ### Some notices -/

/-- From `s` to `t` at the same tick the ports have taken some notices. -/
def Tells (s t : State) : Prop := t.tick = s.tick ∧ ∃ l, Told l s t

theorem Tells.refl (s : State) : Tells s s := ⟨rfl, [], .refl s⟩

theorem Tells.trans {s t w : State} (h : Tells s t) (k : Tells t w) : Tells s w := by
  obtain ⟨ht, l, h⟩ := h
  obtain ⟨kt, m, k⟩ := k
  exact ⟨kt.trans ht, l ++ m, h.trans k ht⟩

/-- A part of a duct's event: some notices, and at most GATE_FAULT on its own zone. -/
structure TellsFrom (d : Fin 4) (s t : State) : Prop where
  tells : Tells s t
  zone : ∀ z, z ≠ ductZone d → t.zone z = s.zone z
  raised : ∀ k, k ≠ .gateFault → ∀ z n, Raised t z k n ↔ Raised s z k n

theorem TellsFrom.refl (d : Fin 4) (s : State) : TellsFrom d s s := ⟨.refl s, fun _ _ => rfl, fun _ _ _ _ => .rfl⟩

theorem TellsFrom.trans {d : Fin 4} {s t w : State} (h : TellsFrom d s t) (k : TellsFrom d t w) : TellsFrom d s w :=
  ⟨h.tells.trans k.tells, fun z hz => (k.zone z hz).trans (h.zone z hz), fun l hl z n => (k.raised l hl z n).trans (h.raised l hl z n)⟩

theorem TellsFrom.of_zones {d : Fin 4} {l : List Offer} {s t : State} (htick : t.tick = s.tick) (htold : Told l s t)
    (hz : t.zones = s.zones) : TellsFrom d s t :=
  ⟨⟨htick, l, htold⟩, fun z _ => congrArg (·[z]) hz, fun k _ z n => raised_of_zones hz z k n⟩

theorem changeCtl_tells (d : Fin 4) (c : Ctl) (s : State) : TellsFrom d s (changeCtl d c s) :=
  .of_zones (changeCtl_within d c s).fixed.tick_eq (changeCtl_told d c s) rfl

theorem endStroke_zone_ne (d : Fin 4) (s : State) {z : Fin 16} (hz : z ≠ ductZone d) : (endStroke d s).zone z = s.zone z := by
  unfold endStroke
  dsimp only
  split
  · split
    · unfold clearTrouble
      dsimp only
      split
      · exact State.setZone_zone_ne _ _ _ _ hz
      · rfl
    · rfl
  · rfl

theorem closeCommand_zone_ne (d : Fin 4) (s : State) {z : Fin 16} (hz : z ≠ ductZone d) : (closeCommand d s).zone z = s.zone z := by
  unfold closeCommand
  split
  case h_1 | h_2 | h_3 => exact endStroke_zone_ne d _ hz
  all_goals rfl

theorem endStroke_raised (d : Fin 4) {k : TroubleKind} (hk : k ≠ .gateFault) (s : State) (z : Fin 16) (n : Nat) :
    Raised (endStroke d s) z k n ↔ Raised s z k n := by
  unfold endStroke
  dsimp only
  split
  · split
    · exact raised_clearTrouble_ne _ fun h => hk h.2.1
    · rfl
  · rfl

theorem closeCommand_raised (d : Fin 4) {k : TroubleKind} (hk : k ≠ .gateFault) (s : State) (z : Fin 16) (n : Nat) :
    Raised (closeCommand d s) z k n ↔ Raised s z k n := by
  unfold closeCommand
  split
  case h_1 | h_2 | h_3 => exact endStroke_raised d hk _ z n
  all_goals rfl

theorem closeCommand_tells (d : Fin 4) (s : State) : TellsFrom d s (closeCommand d s) :=
  ⟨⟨(closeCommand_local d s).within.fixed.tick_eq, _, (closeCommand_left d s).1⟩, fun _ hz => closeCommand_zone_ne d s hz,
    fun _ hk z n => closeCommand_raised d hk s z n⟩

theorem fireWait_tells (d : Fin 4) (s : State) : TellsFrom d s (fireWait d s) :=
  .of_zones (fireWait_within d s).fixed.tick_eq (fireWait_left d s).1 (fireWait_zones d s)

theorem beginStop_tells (d : Fin 4) (c : StopCause) (s : State) : TellsFrom d s (beginStop d c s) := by
  unfold beginStop
  dsimp only
  split
  · exact (changeCtl_tells d _ s).trans ((closeCommand_tells d _).trans (fireWait_tells d _))
  · split
    · exact (changeCtl_tells d _ s).trans (changeCtl_tells d _ _)
    · exact changeCtl_tells d _ s

theorem replaceStop_tells (d : Fin 4) (c : StopCause) (s : State) : TellsFrom d s (replaceStop d c s) := by
  unfold replaceStop
  extract_lets k orderly turning kind s1
  split
  · exact (changeCtl_tells d _ s).trans ((closeCommand_tells d _).trans (fireWait_tells d _))
  · exact changeCtl_tells d _ s

theorem replaceIfHigher_tells (d : Fin 4) (c : Option StopCause) (s : State) : TellsFrom d s (replaceIfHigher d c s) := by
  unfold replaceIfHigher
  split
  · split
    · exact replaceStop_tells d _ s
    · exact .refl d s
  · exact .refl d s

theorem takeCauses_tells (d : Fin 4) (l : List StopCause) (s : State) : TellsFrom d s (takeCauses d l s) := by
  unfold takeCauses
  split
  case h_5 | h_6 => exact replaceIfHigher_tells d _ s
  case h_7 => exact .refl d s
  all_goals
    split
    · exact beginStop_tells d _ s
    · exact .refl d s

/-! ### What leaves one duct alone -/

/-- From `s` to `t` nothing of duct `d` has moved: its record, and its zone but for the doors' troubles. -/
structure Beside (d : Fin 4) (s t : State) : Prop where
  within : Within .hazard s t
  tells : Tells s t
  duct : t.duct d = s.duct d
  hazard : KeepsHazard (ductZone d) s t
  raised : ∀ k, NoDoorKind k → ∀ n, Raised t (ductZone d) k n ↔ Raised s (ductZone d) k n
  sound : ZonesOk s → ZonesOk t

theorem KeepsHazard.refl (z : Fin 16) (s : State) : KeepsHazard z s s := KeepsHazards.refl s z

theorem Beside.refl (d : Fin 4) (s : State) : Beside d s s := ⟨.refl _ s, .refl s, rfl, .refl _ s, fun _ _ _ => .rfl, id⟩

theorem Beside.trans {d : Fin 4} {s t w : State} (h : Beside d s t) (k : Beside d t w) : Beside d s w :=
  ⟨h.within.trans k.within, h.tells.trans k.tells, k.duct.trans h.duct, h.hazard.trans k.hazard,
    fun kind hk n => (k.raised kind hk n).trans (h.raised kind hk n), fun x => k.sound (h.sound x)⟩

theorem fireReportAt_beside {d e : Fin 4} (h : e ≠ d) (z : Fin 16) (s : State) : Beside d s (fireReportAt z s e) := by
  unfold fireReportAt
  split
  · have hlocal := takeCauses_local e [.zoneFire] s
    have hne : ductZone d ≠ ductZone e := fun k => h (ductZone_injective k).symm
    obtain ⟨htells, hzone, -⟩ := takeCauses_tells e [.zoneFire] s
    obtain ⟨n, l, -, tells⟩ := dcPost_tells e (takeCauses e [.zoneFire] s)
    exact ⟨(takeCauses_within e _ s).trans (dcPost_within e _), htells.trans ⟨tells.tick, l, tells.told⟩,
      (dcPost_duct_ne (Ne.symm h) _).trans (hlocal.others d (Ne.symm h)), (hlocal.hazards _).trans (dcPost_hazard e _ hne),
      fun k hk n => (raised_dcPost hk e _ _ n).trans (by rw [Raised, Raised, hzone _ hne]),
      fun x => ((hlocal.keeps_dry (by simp)).trans (dcPost_keeps true e _)).zones x⟩
  · exact .refl d s

theorem fireReports_beside {d : Fin 4} (z : Fin 16) (l : List (Fin 4)) (hd : d ∉ l) (s : State) :
    Beside d s (l.foldl (fireReportAt z) s) := by
  induction l generalizing s with
  | nil => exact .refl d s
  | cons e rest ih =>
    have hne : e ≠ d := fun k => hd (k ▸ List.mem_cons_self)
    exact (fireReportAt_beside hne z s).trans (ih (fun k => hd (List.mem_cons_of_mem e k)) _)

/-- A duct hears the report of a zone at FIRE once, the others before it and after it. -/
theorem fireReport_split (d : Fin 4) (z : Fin 16) (s : State) :
    ∃ t, Beside d s t ∧ Beside d (fireReportAt z t d) (fireReport z s) := by
  obtain ⟨before, after, hl⟩ := List.append_of_mem (List.mem_finRange d)
  have hnodup := List.nodup_finRange 4
  rw [hl, List.nodup_middle, List.nodup_cons, List.mem_append, not_or] at hnodup
  obtain ⟨⟨hbefore, hafter⟩, -⟩ := hnodup
  refine ⟨before.foldl (fireReportAt z) s, fireReports_beside z before hbefore s, ?_⟩
  rw [fireReport, hl, List.foldl_append, List.foldl_cons]
  exact fireReports_beside z after hafter _

/-! ### A duct that a ZONE_FIRE leaves alone (R104) -/

theorem takeZoneFire_none {d : Fin 4} {s : State} (h : (s.ctl d).state = .offline ∨
    ((s.ctl d).state = .stopping ∨ (s.ctl d).state = .stopped) ∧ ((s.ctl d).asserted = .alarm ∨ (s.ctl d).asserted = .fire)) :
    takeCauses d [.zoneFire] s = s := by
  have hlow (ha : (s.ctl d).asserted = .alarm ∨ (s.ctl d).asserted = .fire) : replaceIfHigher d (some .zoneFire) s = s := by
    obtain ha | ha := ha
    all_goals
      refine if_neg ?_
      rw [ha]
      decide
  unfold takeCauses
  obtain h | ⟨h | h, ha⟩ := h
  all_goals rw [h]
  all_goals exact hlow ha

theorem dcPost_posted {d : Fin 4} {s : State} (hok : ZoneOk (s.zone (ductZone d))) (h : PostedAt s d) : dcPost d s = ⟨s, false⟩ := by
  obtain ⟨h1, h2, h3⟩ := h
  unfold dcPost
  dsimp only
  rw [zonePosting_same hok h1, zonePosting_same hok h2, zonePosting_same hok h3]
  rfl

theorem Beside.postedAt {d : Fin 4} {s t : State} (h : Beside d s t) (hp : PostedAt s d) : PostedAt t d :=
  hp.of_same (congrArg Duct.ctl h.duct) (by rw [h.duct]) fun i _ => by rw [h.hazard.causes]

/-- A report of a zone at FIRE leaves a duct that takes no further stop of it. -/
theorem fireReport_beside {d : Fin 4} {z : Fin 16} {s : State} (hok : ZonesOk s) (hp : PostedAt s d)
    (h : (s.ctl d).state = .offline ∨
      ((s.ctl d).state = .stopping ∨ (s.ctl d).state = .stopped) ∧ ((s.ctl d).asserted = .alarm ∨ (s.ctl d).asserted = .fire)) :
    Beside d s (fireReport z s) := by
  obtain ⟨t, hbefore, hafter⟩ := fireReport_split d z s
  have hctl : t.ctl d = s.ctl d := congrArg Duct.ctl hbefore.duct
  have hsame : fireReportAt z t d = t := by
    unfold fireReportAt
    rw [takeZoneFire_none (by rw [hctl]; exact h), dcPost_posted (hbefore.sound hok _) (hbefore.postedAt hp)]
    exact ite_self _
  rw [hsame] at hafter
  exact hbefore.trans hafter

/-! ### An event of a duct that may bring its zone to FIRE -/

theorem ductStateLevel_fire {c : Ctl} (h : ductStateLevel c = .fire) :
    (c.state = .stopping ∨ c.state = .stopped) ∧ c.asserted = .fire := by
  unfold ductStateLevel at h
  cases hs : c.state <;> rw [hs] at h
  case stopping => exact ⟨.inl rfl, h⟩
  case stopped => exact ⟨.inr rfl, h⟩
  all_goals exact Level.noConfusion h

/-- More notices after a change of the tag, or none after none. -/
theorem ZoneTells.then {z : Fin 16} {n : Nat} {l m : List Offer} {s t w : State} (h : ZoneTells z n l s t) (hn : n ≠ 0) (ht : w.tick = t.tick)
    (k : Told m t w) (hface : SameFace (t.zone z) (w.zone z)) : ZoneTells z n (l ++ m) s w where
  tick := ht.trans h.tick
  told := h.told.trans k h.tick
  tag := by
    obtain ⟨-, -, -, htag⟩ := hface
    rw [htag, h.tag]
  still := fun e => absurd e hn
  once := fun e => by
    obtain ⟨cause, rest, hl⟩ := h.once e
    exact ⟨cause, rest ++ m, by rw [hl, List.cons_append, zoneNotice_congr (.refl _) hface]⟩

/-- A duct's event ends with its postings: what they and their reports leave. -/
structure DuctPosted (d : Fin 4) (n : Nat) (k : List Offer) (u t : State) : Prop where
  few : n ≤ 3
  tells : ZoneTells (ductZone d) n k u t
  within : Within .hazard u t
  duct : t.duct d = { u.duct d with overlays := (t.duct d).overlays }
  posted : PostedAt t d
  sound : ZonesOk t
  raised : ∀ k, NoDoorKind k → ∀ n, Raised t (ductZone d) k n ↔ Raised u (ductZone d) k n

theorem dcPost_ends {d : Fin 4} {u : State} (hok : ZonesOk u) :
    ∃ n k, DuctPosted d n k u (dcPost d u).state ∧ ((dcPost d u).fire = true → n ≠ 0) := by
  obtain ⟨n, k, hn, tells⟩ := dcPost_tells d u
  have hsound := (dcPost_keeps true d u).zones hok
  refine ⟨n, k, ⟨hn, tells, dcPost_within d u, dcPost_duct d u d, dcPost_postedAt d u, hsound, fun k hk n => raised_dcPost hk d u _ n⟩,
    fun hfire hzero => ?_⟩
  obtain ⟨hlevel, hbelow⟩ := dcPost_shows hok hfire
  obtain ⟨-, hface, -⟩ := tells.still hzero
  have hposted := dcPost_postedAt d u
  exact hbelow (hface ▸ hposted.zone_fire hsound (by rwa [dcPost_ctl]))

theorem settleDuct_ends {d : Fin 4} {u : State} (hok : ZonesOk u) : ∃ n k, DuctPosted d n k u (settleDuct d u) := by
  obtain ⟨n, k, hpost, hn⟩ := dcPost_ends (d := d) hok
  have hshows := dcPost_shows (d := d) hok
  have hctl := dcPost_ctl d u d
  unfold settleDuct deliver
  generalize dcPost d u = r at hpost hn hshows hctl
  split
  case isFalse => exact ⟨n, k, hpost⟩
  case isTrue hfire =>
    obtain ⟨hlevel, -⟩ := hshows hfire
    obtain ⟨hstate, hasserted⟩ := ductStateLevel_fire hlevel
    have hbeside : Beside d r.state (fireReport (ductZone d) r.state) :=
      fireReport_beside hpost.sound hpost.posted (.inr (by rw [hctl]; exact ⟨hstate, .inr hasserted⟩))
    obtain ⟨htick, m, htold⟩ := hbeside.tells
    refine ⟨n, k ++ m, hpost.few, hpost.tells.then (hn hfire) htick htold hbeside.hazard.sameFace, hpost.within.trans hbeside.within, ?_,
      hbeside.postedAt hpost.posted, hbeside.sound hpost.sound, fun k hk n => (hbeside.raised k hk n).trans (hpost.raised k hk n)⟩
    rw [hbeside.duct]
    exact hpost.duct

/-- From `s` an event of duct `d` has led to `u`, and its postings, which may bring its zone to FIRE, to `t`. -/
structure DuctReported (d : Fin 4) (l : List Offer) (s u t : State) : Prop where
  told : DuctTold d l s t
  within : Within .hazard u t
  duct : t.duct d = { u.duct d with overlays := (t.duct d).overlays }
  posted : PostedAt t d
  sound : ZonesOk t
  raised : ∀ k, NoDoorKind k → ∀ n, Raised t (ductZone d) k n ↔ Raised u (ductZone d) k n

theorem settleDuct_reported {d : Fin 4} {l : List Offer} {s u : State} (hok : ZonesOk u) (h : Told l s u) (ht : u.tick = s.tick)
    (hz : KeepsHazard (ductZone d) s u) : DuctReported d l s u (settleDuct d u) := by
  obtain ⟨n, k, hends⟩ := settleDuct_ends (d := d) hok
  exact ⟨hends.tells.ductTold hends.few h ht hz, hends.within, hends.duct, hends.posted, hends.sound, hends.raised⟩

theorem DuctReported.ctl {d : Fin 4} {l : List Offer} {s u t : State} (h : DuctReported d l s u t) : t.ctl d = u.ctl d := by
  rw [State.ctl, h.duct]
  rfl

theorem DuctReported.gate {d : Fin 4} {l : List Offer} {s u t : State} (h : DuctReported d l s u t) : t.gate d = u.gate d := by
  rw [State.gate, h.duct]
  rfl

theorem DuctReported.water {d : Fin 4} {l : List Offer} {s u t : State} (h : DuctReported d l s u t) (k : KeepsWater d s u) :
    KeepsWater d s t := by
  unfold KeepsWater
  rw [h.duct]
  exact k

end Sys2Proof.Machine
end

