-- ==== Sys2Proof/Proofs/OverdueGates.lean ====
section
/-! PROOFS. A stroke that its switch does not end (R86), and what the Duct Controller makes of it (R96, R106). -/

namespace Sys2Proof.Machine

open Sys2Proof

/-! ### The gate in FAULT (R86) -/

/-- The gate of a duct enters FAULT, with GATE_FAULT. -/
def faultGate (d : Fin 4) (s : State) : State :=
  let g := s.gate d
  let t := moveGate d { g with state := .fault, timer := none, troubleMark := true } (some .expiry) s
  if g.troubleMark then t else raiseTrouble (ductZone d) .gateFault 0 t

theorem gateSupervisionExpires_eq {d : Fin 4} {s : State} (ht : (s.gate d).timer = some s.tick)
    (hg : (s.gate d).state = .closing ∨ (s.gate d).state = .opening) :
    gateSupervisionExpires d s = if (s.gate d).state = .opening ∧ ((faultGate d s).ctl d).state = .starting then
      dcEvent d [.startGate] (faultGate d s) else dcEvent d [] (raiseAsserted d (faultGate d s)) := if_pos (expires_in ht hg)

theorem faultGate_local (d : Fin 4) (s : State) : Local [.gate] d s (faultGate d s) := by
  unfold faultGate
  extract_lets g t
  have ht : Local [.gate] d s t :=
    (setGate_local fun _ => Gate.rested_ok g (.inr (.inr rfl)) true).trans (Local.mono (offer_local d _ _) (by simp))
  split
  · exact ht
  · exact ht.trans (Local.mono (raiseTrouble_local d _ _ _ _) (by simp))

theorem faultGate_left (d : Fin 4) (s : State) :
    let g := s.gate d
    let u := faultGate d s
    Told (gateNotice d g.state .fault g.cmdTick 1 :: (if g.troubleMark then [] else raiseNotices s (ductZone d) .gateFault 0)) s u ∧
      u.gate d = { g with state := .fault, openDrive := false, closeDrive := false, timer := none, troubleMark := true } ∧
      (g.troubleMark = false → Raised u (ductZone d) .gateFault 0) := by
  intro g u
  have hmove := moveGate_told d { s.gate d with state := .fault, timer := none, troubleMark := true } (some .expiry) s
  have hgate := moveGate_gate d { s.gate d with state := .fault, timer := none, troubleMark := true } (some .expiry) s
  have hfixed := (moveGate_within d { s.gate d with state := .fault, timer := none, troubleMark := true } (some .expiry) s).fixed
  have hzones : (moveGate d { s.gate d with state := .fault, timer := none, troubleMark := true } (some .expiry) s).zones = s.zones := rfl
  have hu : u = if g.troubleMark then moveGate d { s.gate d with state := .fault, timer := none, troubleMark := true } (some .expiry) s
    else raiseTrouble (ductZone d) .gateFault 0
      (moveGate d { s.gate d with state := .fault, timer := none, troubleMark := true } (some .expiry) s) := rfl
  generalize moveGate d { s.gate d with state := .fault, timer := none, troubleMark := true } (some .expiry) s = v
    at hmove hgate hfixed hzones hu
  rw [hu]
  cases hm : g.troubleMark
  · rw [if_neg Bool.false_ne_true, if_neg Bool.false_ne_true]
    have hraise := raiseTrouble_told (ductZone d) .gateFault 0 v
    rw [raiseNotices_congr (raised_of_zones hzones _ _ _)] at hraise
    exact ⟨hmove.trans hraise hfixed.tick_eq, (congrArg Duct.gate (raiseTrouble_duct _ _ _ v d)).trans hgate,
      fun _ => (raised_raiseTrouble_iff _ _ _ _ _ _ v).mpr (.inl ⟨rfl, rfl, rfl⟩)⟩
  · rw [if_pos rfl, if_pos rfl]
    exact ⟨hmove, hgate, nofun⟩

/-! ### The waiting stop at a gate in FAULT (R106) -/

/-- A Duct Controller whose recorded stop asserts FIRE. -/
def Ctl.raised (c : Ctl) : Ctl := { c with stop := c.stop.map fun x => { x with level := .fire } }

theorem Ctl.raised_eq_iff {c : Ctl} {x : Stop} (h : c.stop = some x) : c.raised = c ↔ x.level = .fire := by
  have hmap : c.raised.stop = some { x with level := .fire } := by
    rw [Ctl.raised, h]
    rfl
  refine ⟨fun e => ?_, fun e => ?_⟩
  · rw [e, h] at hmap
    exact congrArg Stop.level (Option.some.inj hmap)
  · have hx : ({ x with level := .fire } : Stop) = x := by rw [← e]
    have hsame : c.raised.stop = c.stop := by rw [hmap, hx, h]
    exact congrArg (fun o => ({ c with stop := o } : Ctl)) hsame

theorem raiseAsserted_left {d : Fin 4} {s : State} (h : (s.ctl d).fireStopping = true) :
    let c := s.ctl d
    let u := raiseAsserted d s
    Told (if c.raised = c then [] else [stateNotice d c c.raised]) s u ∧ (u.ctl d).stop = c.raised.stop ∧ (u.ctl d).fireStopping = true := by
  obtain ⟨hstate, x, hx, hkind⟩ := (fireStopping_iff _).mp h
  have hx : (s.ctl d).stop = some x := hx
  intro c u
  by_cases hl : x.level = .fire
  · have hraised : c.raised = c := (Ctl.raised_eq_iff hx).mpr hl
    have hu : u = s := by
      unfold u raiseAsserted
      dsimp only
      rw [hx]
      exact if_neg (by simp [hl])
    rw [hu, if_pos hraised, hraised]
    exact ⟨.refl s, rfl, h⟩
  · have hu : u = changeCtl d c.raised s := by
      unfold u raiseAsserted
      dsimp only
      rw [hx]
      refine (if_pos (by simp [h, hl])).trans ?_
      rw [Ctl.raised, show c.stop = some x from hx]
      rfl
    rw [hu, if_neg (mt (Ctl.raised_eq_iff hx).mp hl), changeCtl_ctl]
    refine ⟨changeCtl_told d _ s, rfl, (fireStopping_iff _).mpr ⟨hstate, { x with level := .fire }, ?_, hkind⟩⟩
    exact congrArg (Option.map fun y : Stop => { y with level := .fire }) hx

theorem raiseAsserted_zones (d : Fin 4) (s : State) : (raiseAsserted d s).zones = s.zones := by
  unfold raiseAsserted
  dsimp only
  split
  · split <;> rfl
  · rfl

theorem raiseAsserted_eq {d : Fin 4} {s : State} (h : (s.ctl d).fireStopping = false) : raiseAsserted d s = s := by
  unfold raiseAsserted
  dsimp only
  rw [h]
  split <;> rfl

/-- A duct whose gate enters FAULT, where nothing but a stop takes it (R106). -/
theorem faultTaken_left {d : Fin 4} {s : State} (hg : GateEnds d s) :
    let c := s.ctl d
    let u := fireWait d (raiseAsserted d s)
    Told (if c.fireStopping then (if c.raised = c then [] else [stateNotice d c c.raised]) ++
        [stateNotice d c.raised { c.raised with state := .stopped }] else []) s u ∧ u.gate d = s.gate d ∧
      (c.fireStopping = true → (u.ctl d).state = .stopped ∧ (u.ctl d).stop = c.raised.stop ∧ (u.ctl d).fan = false ∧
        ductStateLevel (u.ctl d) = .fire) ∧ (c.fireStopping = false → u.ctl d = c) := by
  intro c u
  have hlocal := raiseAsserted_local d s
  cases hf : c.fireStopping
  · have hu : u = s := by
      show fireWait d (raiseAsserted d s) = s
      rw [raiseAsserted_eq hf]
      exact fireWait_eq hf
    rw [hu, if_neg Bool.false_ne_true]
    exact ⟨.refl s, rfl, nofun, fun _ => rfl⟩
  · obtain ⟨htold, hstop, hwaiting⟩ := raiseAsserted_left hf
    obtain ⟨hstate, x, hx, -⟩ := (fireStopping_iff _).mp hf
    have hx : c.stop = some x := hx
    have hgate : (raiseAsserted d s).gate d = s.gate d := hlocal.same .gate (by simp)
    have hends : GateEnds d (raiseAsserted d s) := by
      unfold GateEnds
      rw [hgate, State.gateCfg, State.ductCfg, hlocal.within.fixed.cfg_eq]
      exact hg
    obtain ⟨htoldWait, hgateWait, hstops, -, -, -⟩ := fireWait_left d (raiseAsserted d s)
    have hu : u = fireWait d (raiseAsserted d s) := rfl
    rw [← hu] at htoldWait hgateWait hstops
    generalize raiseAsserted d s = v at htold hstop hwaiting hgate hends htoldWait hgateWait hstops hlocal
    have hctl := hstops hwaiting hends
    obtain ⟨hstateV, -⟩ := (fireStopping_iff _).mp hwaiting
    refine ⟨?_, hgateWait.trans hgate, fun _ => ?_, nofun⟩
    · rw [if_pos rfl]
      rw [hctl, if_neg (by rw [hstateV]; nofun), stateNotice_congr (old := c.raised)
        (new' := { v.ctl d with state := .stopped, purge := none, feeder := false, fan := false })
        (new := { c.raised with state := .stopped })
        (hstateV.trans hstate.symm) hstop rfl hstop] at htoldWait
      exact htold.trans htoldWait hlocal.within.fixed.tick_eq
    · rw [hctl]
      refine ⟨rfl, hstop, rfl, ?_⟩
      show (match (v.ctl d).stop with
        | some st => st.level
        | none => .normal) = Level.fire
      rw [hstop, Ctl.raised, hx]
      rfl

/-- Settles O50: the gate's FAULT, START_GATE and the end of a waiting FIRE-kind stop. -/
theorem overdueStrokeFaultsTheGate : Obligations.OverdueStrokeFaultsTheGate := by
  intro d s hw hok hposted htimer hstate hinstalled g c
  have hrun : exec (.gateSupervisionExpiry d) s = .next (gateSupervisionExpires d s) := whenRunning_working s _ hw
  rw [hrun, gateSupervisionExpires_eq htimer hstate]
  have hlocal := faultGate_local d s
  obtain ⟨htold, hgate, hraise⟩ := faultGate_left d s
  have hctl : (faultGate d s).ctl d = c := hlocal.ctl_eq (by decide)
  have hcfg := hlocal.within.fixed.cfg_eq
  have htick := hlocal.within.fixed.tick_eq
  generalize faultGate d s = v at hlocal htold hgate hraise hctl hcfg htick
  rw [hctl]
  have hends : GateEnds d v := .inr (.inr (by rw [hgate]))
  have hokv := hlocal.hazards.zonesOk hlocal.nodup hok
  by_cases hstart : g.state = .opening ∧ c.state = .starting
  · rw [if_pos hstart, if_pos hstart]
    obtain ⟨hopening, hstarting⟩ := hstart
    have hrunning : (v.ctl d).state.isRunning = true := by
      rw [hctl, hstarting]
      rfl
    obtain ⟨htoldStop, hstop, hfire, hgateStop, -⟩ := beginStop_orderly (cause := .startGate) rfl d v
    have hlocalStop := beginStop_local d .startGate v
    have hevent : dcEvent d [.startGate] v = settleDuct d (beginStop d .startGate v) := by
      rw [dcEvent, takeCauses_running_eq hrunning]
      exact congrArg (settleDuct d) (fireWait_eq hfire)
    have hzones := beginStop_orderly_zones (cause := .startGate) rfl d v
    rw [hevent]
    generalize beginStop d .startGate v = u at htoldStop hstop hfire hgateStop hlocalStop hzones
    have hall := (hlocal.mono (n := [.gate, .ctl, .posts]) (by simp)).trans (hlocalStop.mono (by simp))
    have hset := settleDuct_reported (d := d) (hlocalStop.hazards.zonesOk hlocalStop.nodup hokv)
      (htold.trans htoldStop htick) hall.within.fixed.tick_eq (hall.hazards _)
    generalize settleDuct d u = t at hset
    have hwithin := hall.within.mono (n := .hazard) rfl |>.trans hset.within
    have hnotices : orderlyNotices v d .startGate = orderlyNotices s d .startGate := by
      rw [orderlyNotices, orderlyNotices, hctl, State.ductCfg, State.ductCfg, hcfg]
    have hwaiting : c.fireStopping = true → False := fun hf => by
      have hstopping := Ctl.fireStopping_state hf
      exact nomatch hstopping.symm.trans hstarting
    refine ⟨t, rfl, hset.gate.trans (hgateStop.trans hgate), fun hm => ?_, ?_, fun hf => (hwaiting hf).elim, fun _ _ => ?_,
      fun _ h => absurd ⟨hopening, hstarting⟩ h, hset.water (hall.keepsWater (by decide)), hwithin.links, hwithin.fixed,
      hwithin.channels rfl, hwithin.stations rfl, hwithin.inputs rfl, hwithin.captures rfl⟩
    · exact (hset.raised .gateFault ⟨by decide, by decide⟩ 0).mpr ((raised_of_zones hzones _ _ _).mpr (hraise hm))
    · have := hset.told
      rwa [hnotices] at this
    · unfold StoppedOrderly at hstop ⊢
      rw [hset.ctl, hstop, hctl, State.ductCfg, State.ductCfg, hcfg, htick]
  · rw [if_neg hstart, if_neg hstart, dcEvent_nil]
    have hleft := faultTaken_left hends
    have hlocalStop := (raiseAsserted_local d v).trans (fireWait_local d _)
    dsimp only at hleft
    rw [hctl] at hleft
    have hzones : (fireWait d (raiseAsserted d v)).zones = v.zones := (fireWait_zones d _).trans (raiseAsserted_zones d v)
    generalize fireWait d (raiseAsserted d v) = u at hleft hlocalStop hzones
    obtain ⟨htoldStop, hgateStop, hstops, hrests⟩ := hleft
    have hall := (hlocal.mono (n := [.gate, .ctl, .posts]) (by simp)).trans (hlocalStop.mono (by simp))
    have hset := settleDuct_reported (d := d) (hlocalStop.hazards.zonesOk hlocalStop.nodup hokv)
      (htold.trans htoldStop htick) hall.within.fixed.tick_eq (hall.hazards _)
    generalize settleDuct d u = t at hset
    have hwithin := hall.within.mono (n := .hazard) rfl |>.trans hset.within
    refine ⟨t, rfl, hset.gate.trans (hgateStop.trans hgate), fun hm => ?_, hset.told, fun hf => ?_, fun h1 h2 => absurd ⟨h1, h2⟩ hstart,
      fun hf _ => hset.ctl.trans (hrests hf), hset.water (hall.keepsWater (by decide)), hwithin.links, hwithin.fixed,
      hwithin.channels rfl, hwithin.stations rfl, hwithin.inputs rfl, hwithin.captures rfl⟩
    · exact (hset.raised .gateFault ⟨by decide, by decide⟩ 0).mpr ((raised_of_zones hzones _ _ _).mpr (hraise hm))
    · obtain ⟨h1, h2, h3, h4⟩ := hstops hf
      rw [hset.ctl]
      have hfire := hset.posted.zone_fire hset.sound (by rw [hset.ctl]; exact h4)
      exact ⟨h1, h2, h3, hfire, (hset.sound _).1.mpr hfire⟩

end Sys2Proof.Machine
end

