-- ==== Sys2Proof/Proofs/Rotation.lean ====
section
/-! PROOFS. The outcome of a grant evaluation (R152): which classes fit, whom the rotation reaches in the one that does not, and the
Arbiter that is left (R152 to R154). -/

namespace Sys2Proof.Machine

open Sys2Proof

/-! ### One class in rotation (R152, step 3) -/

/-- The sirens stand in the visiting order by their turns. -/
theorem visitOrder_turns (pointer : Fin 8) : (visitOrder pointer).Pairwise fun i j => turnOf pointer i < turnOf pointer j := by
  revert pointer
  decide

theorem mem_visitOrder (pointer i : Fin 8) : i ∈ visitOrder pointer := by
  revert pointer i
  decide

/-- The weights of the sirens of a list that meet a condition. -/
def weightIn (w : Fin 8 → Nat) (l : List (Fin 8)) (p : Fin 8 → Bool) : Nat := weightSum w (l.filter p)

theorem weightIn_congr {w : Fin 8 → Nat} {l : List (Fin 8)} {p q : Fin 8 → Bool} (h : ∀ i ∈ l, p i = q i) :
    weightIn w l p = weightIn w l q := congrArg (weightSum w) (List.filter_congr h)

theorem weightIn_concat (w : Fin 8 → Nat) (l : List (Fin 8)) (x : Fin 8) (p : Fin 8 → Bool) :
    weightIn w (l ++ [x]) p = weightIn w l p + if p x then w x else 0 := by
  rw [weightIn, List.filter_append, weightSum_append, weightIn]
  cases hx : p x <;> simp [hx, weightSum_eq]

theorem weightIn_none {w : Fin 8 → Nat} {l : List (Fin 8)} {p : Fin 8 → Bool} (h : ∀ i ∈ l, p i = false) : weightIn w l p = 0 := by
  rw [weightIn, List.filter_eq_nil_iff.mpr fun i hi => by simp [h i hi]]
  rfl

/-- The sirens of one class have had their turns. -/
structure Visited (w : Fin 8 → Nat) (turn : Fin 8 → Nat) (l : List (Fin 8)) (r r' : GrantRun) : Prop where
  others : ∀ i, i ∉ l → (i ∈ r'.granted ↔ i ∈ r.granted)
  left : r'.remaining + weightIn w l (fun i => decide (i ∈ r'.granted)) = r.remaining
  turns : ∀ i ∈ l, (i ∈ r'.granted ↔
    w i + weightIn w l (fun j => decide (j ∈ r'.granted) && decide (turn j < turn i)) ≤ r.remaining)
  last : ∀ j, r'.last = some j ↔ j ∈ l ∧ j ∈ r'.granted ∧ ∀ o ∈ l, o ∈ r'.granted → turn o ≤ turn j

theorem visited_foldl (w : Fin 8 → Nat) (turn : Fin 8 → Nat) (r : GrantRun) (hlast : r.last = none) (l : List (Fin 8))
    (hsorted : l.Pairwise fun i j => turn i < turn j) (hnew : ∀ i ∈ l, i ∉ r.granted) :
    Visited w turn l r (l.foldl (visitSiren w) r) := by
  induction l using List.reverseRecOn with
  | nil => exact ⟨fun _ _ => .rfl, rfl, nofun, fun j => by simp [hlast]⟩
  | append_singleton l x ih =>
    obtain ⟨hl, -, hx⟩ := List.pairwise_append.mp hsorted
    have hx : ∀ i ∈ l, turn i < turn x := fun i hi => hx i hi x (List.mem_singleton.mpr rfl)
    obtain ⟨hothers, hleft, hturns, hlast⟩ := ih hl fun i hi => hnew i (List.mem_append_left _ hi)
    rw [List.foldl_concat]
    generalize l.foldl (visitSiren w) r = u at hothers hleft hturns hlast
    have hxl : x ∉ l := fun h => lt_irrefl _ (hx x h)
    have hxu : x ∉ u.granted := fun h => hnew x (by simp) ((hothers x hxl).mp h)
    have hmem : ∀ i, i ∈ (visitSiren w u x).granted ↔ i ∈ u.granted ∨ (i = x ∧ w x ≤ u.remaining) := fun i => by
      unfold visitSiren
      split <;> simp_all
    have hremaining : (visitSiren w u x).remaining = u.remaining - if w x ≤ u.remaining then w x else 0 := by
      unfold visitSiren
      split <;> rfl
    have hlast' : (visitSiren w u x).last = if w x ≤ u.remaining then some x else u.last := by
      unfold visitSiren
      split <;> rfl
    generalize visitSiren w u x = v at hmem hremaining hlast'
    have hkeep : ∀ i ∈ l, (i ∈ v.granted ↔ i ∈ u.granted) := fun i hi => by
      have hne : i ≠ x := fun e => hxl (e ▸ hi)
      simp [hmem, hne]
    have hself : x ∈ v.granted ↔ w x ≤ u.remaining := by simp [hmem, hxu]
    have hsum (p : Fin 8 → Bool) : weightIn w l (fun j => decide (j ∈ v.granted) && p j) =
        weightIn w l (fun j => decide (j ∈ u.granted) && p j) :=
      weightIn_congr fun i hi => by simp [hkeep i hi]
    have hall : weightIn w l (fun i => decide (i ∈ v.granted)) = weightIn w l (fun i => decide (i ∈ u.granted)) :=
      weightIn_congr fun i hi => by simp [hkeep i hi]
    refine ⟨fun i hi => ?_, ?_, fun i hi => ?_, fun j => ?_⟩
    · obtain ⟨hil, hix⟩ : i ∉ l ∧ i ≠ x := by simpa using hi
      simp [hmem, hix, hothers i hil]
    · rw [weightIn_concat, hall, hremaining]
      by_cases hw : w x ≤ u.remaining
      · rw [if_pos hw, if_pos (decide_eq_true (hself.mpr hw))]
        omega
      · rw [if_neg hw, if_neg fun h => hw (hself.mp (of_decide_eq_true h))]
        omega
    · rw [weightIn_concat, hsum]
      obtain hi | hi := List.mem_append.mp hi
      · rw [if_neg fun h => absurd (hx i hi) (not_lt.mpr (le_of_lt (of_decide_eq_true (Bool.and_eq_true_iff.mp h).2))), hkeep i hi]
        exact hturns i hi
      · obtain rfl := List.mem_singleton.mp hi
        have hbefore : weightIn w l (fun j => decide (j ∈ u.granted) && decide (turn j < turn i)) =
            weightIn w l (fun j => decide (j ∈ u.granted)) := weightIn_congr fun j hj => by simp [hx j hj]
        rw [hbefore, if_neg (by simp), hself]
        omega
    · rw [hlast']
      by_cases hw : w x ≤ u.remaining
      · rw [if_pos hw]
        refine ⟨fun e => ?_, fun ⟨hj, _, hmax⟩ => ?_⟩
        · obtain rfl := Option.some.inj e
          refine ⟨by simp, hself.mpr hw, fun o ho _ => ?_⟩
          obtain ho | ho := List.mem_append.mp ho
          · exact (hx o ho).le
          · exact (congrArg turn (List.mem_singleton.mp ho)).le
        · obtain hj | hj := List.mem_append.mp hj
          · exact absurd (hmax x (by simp) (hself.mpr hw)) (not_le.mpr (hx j hj))
          · rw [List.mem_singleton.mp hj]
      · rw [if_neg hw, hlast]
        have hxv : x ∉ v.granted := mt hself.mp hw
        refine ⟨fun ⟨hj, hg, hmax⟩ => ⟨List.mem_append_left _ hj, (hkeep j hj).mpr hg, fun o ho hog => ?_⟩, fun ⟨hj, hg, hmax⟩ => ?_⟩
        · obtain ho | ho := List.mem_append.mp ho
          · exact hmax o ho ((hkeep o ho).mp hog)
          · exact absurd (List.mem_singleton.mp ho ▸ hog) hxv
        · obtain hj | hj := List.mem_append.mp hj
          · exact ⟨hj, (hkeep j hj).mp hg, fun o ho hog => hmax o (List.mem_append_left _ ho) ((hkeep o ho).mpr hog)⟩
          · exact absurd (List.mem_singleton.mp hj ▸ hg) hxv

/-! ### The classes in turn (R152) -/

/-- The weights of the sirens whose class comes before number `n`. -/
def weightBefore (w : Fin 8 → Nat) (demand : Fin 8 → Option Pattern) (n : Nat) : Nat :=
  weightIn w (List.finRange 8) fun i => (demand i).any fun q => decide (q.num < n)

theorem Pattern.num_injective {k q : Pattern} (h : k.num = q.num) : k = q := by
  cases k <;> cases q <;> simp [Pattern.num] at h ⊢

theorem weightIn_or (w : Fin 8 → Nat) (l : List (Fin 8)) (p q : Fin 8 → Bool) (h : ∀ i ∈ l, p i = true → q i = false) :
    weightIn w l (fun i => p i || q i) = weightIn w l p + weightIn w l q := by
  induction l using List.reverseRecOn with
  | nil => rfl
  | append_singleton l x ih =>
    rw [weightIn_concat, weightIn_concat, weightIn_concat, ih fun i hi => h i (List.mem_append_left _ hi)]
    have hx := h x (by simp)
    cases hp : p x
    · rw [Bool.false_or, if_neg Bool.false_ne_true]
      omega
    · simp [hx hp]
      omega

theorem weightBefore_succ (w : Fin 8 → Nat) (demand : Fin 8 → Option Pattern) (k : Pattern) :
    weightBefore w demand (k.num + 1) =
      weightBefore w demand k.num + weightIn w (List.finRange 8) fun i => decide (demand i = some k) := by
  unfold weightBefore
  rw [← weightIn_or]
  · refine weightIn_congr fun i _ => ?_
    cases hd : demand i with
    | none => rfl
    | some q =>
      by_cases hq : q = k
      · simp [hq]
      · have hne : q.num ≠ k.num := fun e => hq (Pattern.num_injective e)
        have hlt : q.num ≤ k.num ↔ q.num < k.num := by omega
        simp [hq, hlt]
  · intro i _ hi
    refine decide_eq_false fun hd => ?_
    rw [hd] at hi
    exact absurd (of_decide_eq_true hi) (lt_irrefl _)

theorem weightBefore_mono (w : Fin 8 → Nat) (demand : Fin 8 → Option Pattern) {m n : Nat} (h : m ≤ n) :
    weightBefore w demand m ≤ weightBefore w demand n := by
  have hsplit : weightBefore w demand n = weightBefore w demand m +
      weightIn w (List.finRange 8) fun i => (demand i).any fun q => decide (q.num < n) && decide (m ≤ q.num) := by
    unfold weightBefore
    rw [← weightIn_or]
    · refine weightIn_congr fun i _ => ?_
      cases demand i with
      | none => rfl
      | some q =>
        by_cases hq : q.num < m
        · simp [hq, hq.trans_le h]
        · simp [hq, not_lt.mp hq]
    · intro i _ hi
      cases hd : demand i with
      | none => rfl
      | some q =>
        rw [hd] at hi
        have hq : q.num < m := of_decide_eq_true hi
        simp [hq]
  omega

/-- A siren in the class that does not fully fit sounds at its turn (R152). -/
def FitsAtTurn (budget : Nat) (w : Fin 8 → Nat) (demand : Fin 8 → Option Pattern) (pointer : Fin 8) (granted : List (Fin 8))
    (k : Pattern) (i : Fin 8) : Prop :=
  w i + weightBefore w demand k.num + weightIn w (List.finRange 8) (fun j => decide (demand j = some k) && decide (j ∈ granted) &&
    decide (turnOf pointer j < turnOf pointer i)) ≤ budget

/-- A grant evaluation behind the classes of numbers below `n`: they have all fitted, or one of them has not. -/
def GrantedTo (budget : Nat) (w : Fin 8 → Nat) (demand : Fin 8 → Option Pattern) (pointer : Fin 8) (n : Nat) (r : GrantRun) : Prop :=
  (r.blocked = false ∧ r.last = none ∧ r.remaining + weightBefore w demand n = budget ∧
      ∀ i, i ∈ r.granted ↔ ∃ q ∈ demand i, q.num < n) ∨
    (r.blocked = true ∧ ∃ k : Pattern, k.num < n ∧ weightBefore w demand k.num ≤ budget ∧ budget < weightBefore w demand (k.num + 1) ∧
      (∀ i, i ∈ r.granted ↔ ∃ q ∈ demand i, q.num < k.num ∨ (q = k ∧ FitsAtTurn budget w demand pointer r.granted k i)) ∧
      ∀ j, r.last = some j ↔ demand j = some k ∧ j ∈ r.granted ∧
        ∀ o, demand o = some k → o ∈ r.granted → turnOf pointer o ≤ turnOf pointer j)

theorem weightSum_visited (w : Fin 8 → Nat) (pointer : Fin 8) (p q : Fin 8 → Bool) :
    weightIn w ((visitOrder pointer).filter p) q = weightIn w (List.finRange 8) fun i => p i && q i := by
  rw [weightIn, weightIn, List.filter_filter]
  refine weightSum_perm w ((List.perm_ext_iff_of_nodup ((visitOrder_nodup pointer).filter _)
    ((List.nodup_finRange 8).filter _)).mpr fun i => ?_)
  simp [mem_visitOrder, and_comm]

theorem grantClass_granted {budget : Nat} {w : Fin 8 → Nat} {demand : Fin 8 → Option Pattern} {pointer : Fin 8} {r : GrantRun}
    (k : Pattern) (h : GrantedTo budget w demand pointer k.num r) :
    GrantedTo budget w demand pointer (k.num + 1) (grantClass w demand pointer r k) := by
  have hsucc := weightBefore_succ w demand k
  unfold grantClass
  extract_lets members visited u
  have hmembers : weightSum w members = weightIn w (List.finRange 8) fun i => decide (demand i = some k) := rfl
  obtain ⟨hb, hlast, hsum, hgranted⟩ | ⟨hb, q, hq, hrest⟩ := h
  · rw [if_neg (by rw [hb]; nofun)]
    have hother : ∀ i, demand i = some k → i ∉ r.granted := fun i hi hg => by
      obtain ⟨q, hq, hlt⟩ := (hgranted i).mp hg
      obtain rfl := Option.some.inj (hi.symm.trans hq)
      exact lt_irrefl _ hlt
    have hclass (i : Fin 8) : (∃ q ∈ demand i, q.num < k.num + 1) ↔ (∃ q ∈ demand i, q.num < k.num) ∨ demand i = some k := by
      refine ⟨fun ⟨q, hq, hlt⟩ => ?_, ?_⟩
      · obtain hlt | he := Nat.lt_succ_iff_lt_or_eq.mp hlt
        · exact .inl ⟨q, hq, hlt⟩
        · exact .inr (Pattern.num_injective he ▸ hq)
      · rintro (⟨q, hq, hlt⟩ | hk)
        · exact ⟨q, hq, Nat.lt_succ_of_lt hlt⟩
        · exact ⟨k, hk, Nat.lt_succ_self _⟩
    split
    · refine .inl ⟨hb, hlast, ?_, fun i => ?_⟩
      · show r.remaining - weightSum w members + _ = budget
        omega
      · rw [hclass, ← hgranted]
        simp [members]
    · rename_i hfit
      have hvisit : Visited w (turnOf pointer) visited r u := visited_foldl w (turnOf pointer) r hlast visited
        ((visitOrder_turns pointer).filter _) fun i hi => hother i (of_decide_eq_true (List.mem_filter.mp hi).2)
      have hmem (i : Fin 8) : i ∈ visited ↔ demand i = some k := by simp [visited, mem_visitOrder]
      clear_value u
      obtain ⟨hothers, -, hturns, hends⟩ := hvisit
      refine .inr ⟨rfl, k, Nat.lt_succ_self _, by omega, by omega, fun i => ?_, fun j => ?_⟩
      · by_cases hk : demand i = some k
        · have hfits : i ∈ u.granted ↔ FitsAtTurn budget w demand pointer u.granted k i := by
            rw [hturns i ((hmem i).mpr hk), weightSum_visited, FitsAtTurn]
            simp only [Bool.and_assoc]
            omega
          rw [hfits]
          refine ⟨fun h => ⟨k, hk, .inr ⟨rfl, h⟩⟩, fun ⟨q, hq, h⟩ => ?_⟩
          obtain rfl := Option.some.inj (hk.symm.trans hq)
          exact h.elim (fun hlt => absurd hlt (lt_irrefl _)) fun h => h.2
        · rw [hothers i (mt (hmem i).mp hk), hgranted]
          refine ⟨fun ⟨q, hq, hlt⟩ => ⟨q, hq, .inl hlt⟩, fun ⟨q, hq, h⟩ => ⟨q, hq, h.resolve_right fun e => ?_⟩⟩
          exact hk (e.1 ▸ hq)
      · rw [hends]
        simp only [hmem]
  · rw [if_pos hb]
    exact .inr ⟨hb, q, Nat.lt_succ_of_lt hq, hrest⟩

theorem grantRun_granted (budget : Nat) (w : Fin 8 → Nat) (demand : Fin 8 → Option Pattern) (pointer : Fin 8) :
    GrantedTo budget w demand pointer 4 (grantRun budget w demand pointer) := by
  have hnone : weightBefore w demand 0 = 0 := weightIn_none fun i _ => by cases demand i <;> rfl
  have h0 : GrantedTo budget w demand pointer 0 ⟨budget, [], false, none⟩ :=
    .inl ⟨rfl, rfl, by rw [hnone]; rfl, fun i => by simp⟩
  have h1 := grantClass_granted .evacuate h0
  have h2 := grantClass_granted .alert h1
  have h3 := grantClass_granted .allClear h2
  exact grantClass_granted .test h3

/-- Who sounds after a grant evaluation (R152). -/
theorem GrantedTo.sounds {budget : Nat} {w : Fin 8 → Nat} {demand : Fin 8 → Option Pattern} {pointer : Fin 8} {r : GrantRun}
    (h : GrantedTo budget w demand pointer 4 r) (i : Fin 8) :
    i ∈ r.granted ↔ ∃ k ∈ demand i, weightBefore w demand k.num ≤ budget ∧
      (weightBefore w demand (k.num + 1) ≤ budget ∨ FitsAtTurn budget w demand pointer r.granted k i) := by
  have hnum (k : Pattern) : k.num < 4 := by cases k <;> decide
  obtain ⟨-, -, hsum, hgranted⟩ | ⟨-, q, hq, hlow, hhigh, hgranted, -⟩ := h
  · rw [hgranted]
    have hfit (k : Pattern) : weightBefore w demand (k.num + 1) ≤ budget :=
      (weightBefore_mono w demand (hnum k)).trans (by omega)
    exact ⟨fun ⟨k, hk, _⟩ => ⟨k, hk, (weightBefore_mono w demand (Nat.le_succ _)).trans (hfit k), .inl (hfit k)⟩,
      fun ⟨k, hk, _⟩ => ⟨k, hk, hnum k⟩⟩
  · rw [hgranted]
    refine exists_congr fun k => and_congr_right fun _ => ?_
    obtain hlt | he | hgt := lt_trichotomy k.num q.num
    · have hfit := (weightBefore_mono w demand hlt).trans hlow
      exact ⟨fun _ => ⟨(weightBefore_mono w demand hlt.le).trans hlow, .inl hfit⟩, fun _ => .inl hlt⟩
    · obtain rfl := Pattern.num_injective he
      exact ⟨fun h => ⟨hlow, .inr (h.resolve_left (lt_irrefl _)).2⟩,
        fun h => .inr ⟨rfl, h.2.resolve_left (not_le.mpr hhigh)⟩⟩
    · have hover := hhigh.trans_le (weightBefore_mono w demand hgt)
      refine ⟨fun h => ?_, fun h => absurd h.1 (not_le.mpr hover)⟩
      obtain h | ⟨rfl, -⟩ := h
      · exact absurd h (not_lt.mpr hgt.le)
      · exact absurd hgt (lt_irrefl _)

/-- Whom the rotation reached last (R152). -/
theorem GrantedTo.last {budget : Nat} {w : Fin 8 → Nat} {demand : Fin 8 → Option Pattern} {pointer : Fin 8} {r : GrantRun}
    (h : GrantedTo budget w demand pointer 4 r) (j : Fin 8) :
    r.last = some j ↔ j ∈ r.granted ∧ ∃ k ∈ demand j, budget < weightBefore w demand (k.num + 1) ∧
      ∀ o, demand o = some k → o ∈ r.granted → turnOf pointer o ≤ turnOf pointer j := by
  have hnum (k : Pattern) : k.num < 4 := by cases k <;> decide
  have hsounds := h.sounds j
  obtain ⟨-, hlast, hsum, -⟩ | ⟨-, q, hq, hlow, hhigh, hgranted, hlast⟩ := h
  · rw [hlast]
    refine ⟨nofun, fun ⟨_, k, _, hover, _⟩ => ?_⟩
    have hfit : weightBefore w demand (k.num + 1) ≤ _ := weightBefore_mono w demand (hnum k)
    omega
  · rw [hlast]
    refine ⟨fun ⟨hd, hg, hmax⟩ => ⟨hg, q, hd, hhigh, hmax⟩, fun ⟨hg, k, hd, hover, hmax⟩ => ?_⟩
    obtain ⟨k', hd', h'⟩ := (hgranted j).mp hg
    obtain rfl := Option.some.inj (Option.mem_def.mp hd |>.symm.trans hd')
    obtain hlt | ⟨rfl, -⟩ := h'
    · exact absurd ((weightBefore_mono w demand hlt).trans hlow) (not_le.mpr hover)
    · exact ⟨hd, hg, hmax⟩

/-! ### The Arbiter after a grant evaluation (R152 to R154) -/

theorem weightAbove_eq (c : Cfg) (a : Arbiter) (k : Pattern) :
    weightAbove c a k = weightBefore (fun i => c.sirens[i].weight) (fun i => a.sirens[i].demand) k.num := rfl

theorem weightTo_eq (c : Cfg) (a : Arbiter) (k : Pattern) :
    weightTo c a k = weightBefore (fun i => c.sirens[i].weight) (fun i => a.sirens[i].demand) (k.num + 1) :=
  weightIn_congr fun i _ => by simp only [Nat.lt_succ_iff]

/-- The grants as their evaluation leaves them. -/
theorem evaluateGrants_evaluated (c : Cfg) (now : Tick) {old a : Arbiter} (hslot : a.slot = old.slot) (hcadence : a.cadence = old.cadence)
    (hphase : a.phaseOn = old.phaseOn) : GrantsEvaluated c now old (evaluateGrants c now a).withDrives := by
  have hgranted := grantRun_granted c.budget (fun i => c.sirens[i].weight) (fun i => a.sirens[i].demand) a.pointer
  obtain ⟨-, -, hnodup, -⟩ := grantRun_ok c.budget (fun i => c.sirens[i].weight) (fun i => a.sirens[i].demand) a.pointer
  have hdemand (i : Fin 8) : (evaluateGrants c now a).withDrives.sirens[i].demand = a.sirens[i].demand := by
    rw [Arbiter.withDrives_siren, evaluateGrants_siren]
  have hsounding (i : Fin 8) := congrArg Siren.sounding (Arbiter.withDrives_siren (evaluateGrants c now a) i)
  have hunits : (evaluateGrants c now a).withDrives.units = weightSum (fun i => c.sirens[i].weight)
    (grantRun c.budget (fun i => c.sirens[i].weight) (fun i => a.sirens[i].demand) a.pointer).granted := rfl
  have hmark : (evaluateGrants c now a).withDrives.mark =
    (grantRun c.budget (fun i => c.sirens[i].weight) (fun i => a.sirens[i].demand) a.pointer).last.map nextSiren := rfl
  have hwaiting : (evaluateGrants c now a).withDrives.slot = if (List.finRange 8).any (fun i => a.sirens[i].demand.isSome &&
      !decide (i ∈ (grantRun c.budget (fun i => c.sirens[i].weight) (fun i => a.sirens[i].demand) a.pointer).granted)) then
    some (a.slot.getD (now.plus (secondsTicks c.slotLength))) else none := rfl
  have halert : (evaluateGrants c now a).withDrives.cadence = (if (List.finRange 8).any (fun i => decide (i ∈ (grantRun c.budget
        (fun i => c.sirens[i].weight) (fun i => a.sirens[i].demand) a.pointer).granted) && decide (a.sirens[i].demand = some .alert)) then
      some (a.cadence.getD (now.plus 4000)) else none) ∧
    (evaluateGrants c now a).withDrives.phaseOn = if (List.finRange 8).any (fun i => decide (i ∈ (grantRun c.budget
        (fun i => c.sirens[i].weight) (fun i => a.sirens[i].demand) a.pointer).granted) &&
        decide (a.sirens[i].demand = some .alert)) && a.cadence.isSome then a.phaseOn else true := ⟨rfl, rfl⟩
  have hpointer : (evaluateGrants c now a).withDrives.pointer = a.pointer := rfl
  simp only [evaluateGrants_siren] at hsounding
  have habove (k : Pattern) : weightAbove c (evaluateGrants c now a).withDrives k =
      weightBefore (fun i => c.sirens[i].weight) (fun i => a.sirens[i].demand) k.num := by
    rw [weightAbove_eq]
    simp only [hdemand]
  have hto (k : Pattern) : weightTo c (evaluateGrants c now a).withDrives k =
      weightBefore (fun i => c.sirens[i].weight) (fun i => a.sirens[i].demand) (k.num + 1) := by
    rw [weightTo_eq]
    simp only [hdemand]
  generalize grantRun c.budget (fun i => c.sirens[i].weight) (fun i => a.sirens[i].demand) a.pointer = r at *
  generalize (evaluateGrants c now a).withDrives = e at *
  refine ⟨fun i => ?_, fun i => ?_, ?_, ?_, ?_, ?_⟩
  · rw [hsounding, hdemand, decide_eq_true_iff, hgranted.sounds]
    refine exists_congr fun k => and_congr_right fun _ => ?_
    rw [habove, hto]
    simp only [hdemand, hsounding, hpointer]
    exact .rfl
  · rw [hmark, Option.map_eq_some_iff]
    refine exists_congr fun j => ?_
    rw [hgranted.last]
    simp only [hsounding, hdemand, hto, hpointer, decide_eq_true_iff]
    have hnext : nextSiren j = i ↔ i.val = (j.val + 1) % 8 := by
      rw [Fin.ext_iff]
      exact eq_comm
    rw [hnext]
    exact and_comm
  · rw [hunits]
    simp only [weightOf, hsounding]
    exact (weightSum_filter_mem _ hnodup).symm
  · rw [hwaiting, hslot]
    refine if_congr ?_ rfl rfl
    simp only [hsounding, hdemand]
    simp
  · rw [halert.1, hcadence]
    refine if_congr ?_ rfl rfl
    simp only [hsounding, hdemand]
    simp [and_comm]
  · rw [halert.2, hcadence, hphase]
    refine if_congr ?_ rfl rfl
    simp only [hsounding, hdemand]
    simp [and_comm]

/-- An event of the Arbiter settles its grants (R144). -/
theorem settleArbiter_settled (c : Cfg) (now : Tick) {old a : Arbiter} (g : Fin 8 → Bool) (hsame : SameGrants old a)
    (hmark : a.mark = old.mark) (hslot : a.slot = old.slot) (hcadence : a.cadence = old.cadence) (hphase : a.phaseOn = old.phaseOn) :
    GrantsSettled c now old (settleArbiter c now old a g) := by
  obtain ⟨hunits, hsounding⟩ := hsame
  have hderived (i : Fin 8) : (a.derive c g).sirens[i].sounding = old.sirens[i].sounding := by
    rw [Arbiter.derive_siren, ← hsounding i]
    split <;> rfl
  have hdemand (i : Fin 8) : (settleArbiter c now old a g).sirens[i].demand = (a.derive c g).sirens[i].demand := by
    rw [(settleArbiter_siren c now old a g i).2, Arbiter.derive_siren]
    split <;> rfl
  unfold GrantsSettled
  simp only [hdemand]
  unfold settleArbiter
  dsimp only
  split
  · rename_i hsame
    rw [if_neg]
    · refine ⟨fun i => ?_, hunits, hmark, hslot, hcadence, hphase⟩
      rw [Arbiter.withDrives_siren]
      exact hderived i
    · simpa using hsame
  · rename_i hchanged
    rw [if_pos]
    · exact evaluateGrants_evaluated (a := a.derive c g) c now hslot hcadence hphase
    · simpa using hchanged

end Sys2Proof.Machine
end

