-- ==== Sys2Proof/Proofs/SirenNotices.lean ====
section
/-! PROOFS. The requests and the timers of the Siren Arbiter with their grants and their notices (R144 to R150, R152 to R155). -/

namespace Sys2Proof.Machine

open Sys2Proof

/-! ### An event of the Arbiter (R144) -/

/-- An event of the Arbiter that changes the contributions of some sirens, with one cause for its notices. -/
structure SirensMoved (g : Fin 8 → Bool) (f : Fin 8 → Siren → Siren) (cause : Byte) (s t : State) : Prop where
  within : Within .sound s t
  stays : StaysInArbiter g s t
  told : Told (sirensTold s.arbiter t.arbiter (fun _ => cause) 7) s t
  grants : GrantsSettled s.cfg s.tick s.arbiter t.arbiter
  contributions : ∀ i : Fin 8, SameContributions (if g i then f i s.arbiter.sirens[i] else s.arbiter.sirens[i]) t.arbiter.sirens[i]

/-- A change of a siren that moves no demand and no flag. -/
def KeepsGrant (f : Fin 8 → Siren → Siren) : Prop := ∀ i x, (f i x).sounding = x.sounding

theorem arbiterEvent_moved {g : Fin 8 → Bool} {f : Fin 8 → Siren → Siren} (cause : SirenCause) {s : State} (hf : KeepsGrant f) :
    SirensMoved g f (byteOf cause.num) s (arbiterEvent (s.arbiter.update g f) g (fun _ _ => cause) s) := by
  have hw := arbiterEvent_within (s.arbiter.update g f) g (fun _ _ => cause) s
  have ha := arbiterEvent_arbiter (s.arbiter.update g f) g (fun _ _ => cause) s
  have htold := arbiterEvent_told (s.arbiter.update g f) g (fun _ _ => cause) s
  generalize arbiterEvent (s.arbiter.update g f) g (fun _ _ => cause) s = t at hw ha htold
  have hsiren := settleArbiter_siren s.cfg s.tick s.arbiter (s.arbiter.update g f) g
  have hview : t.arbiter.view = s.arbiter.view := by rw [ha, settleArbiter_view, Arbiter.update_view]
  have hpointer : t.arbiter.pointer = s.arbiter.pointer := by rw [ha, settleArbiter_pointer, Arbiter.update_pointer]
  refine ⟨hw, ⟨hw.fixed, ⟨hw.channels rfl, hw.stations rfl, hw.inputs rfl, hw.captures rfl⟩, hw.zones rfl, hw.ducts rfl, hw.doors rfl,
    hview, hpointer, fun i => ?_⟩, htold, ?_, fun i => ?_⟩
  · obtain ⟨hsame, hdemand⟩ := hsiren i
    rw [ha, hdemand, sirenDemand_congr hsame, Arbiter.update_siren]
    split
    · rfl
    · rfl
  · rw [ha]
    refine settleArbiter_settled s.cfg s.tick g ⟨rfl, fun i => ?_⟩ rfl rfl rfl rfl
    rw [Arbiter.update_siren]
    split
    · exact hf i _
    · rfl
  · obtain ⟨hsame, -⟩ := hsiren i
    rw [ha]
    rwa [Arbiter.update_siren] at hsame

/-! ### The siren requests (R145 to R150) -/

theorem sirenAnswer_eq (s : State) : sirenAnswer s = sirenStateBytes s := by
  simp only [sirenAnswer, sirenStateBytes, patternByte_eq]
  rfl

/-- A request at the Siren Arbiter that is accepted: its answer, and what it changed. -/
structure SirensAnswered (p : Port) (n code cause : Byte) (g : Fin 8 → Bool) (f : Fin 8 → Siren → Siren) (s t : State) : Prop where
  answers : Answers p ⟨code, n, .ok, sirenStateBytes t⟩ s t
  stays : StaysInArbiter g s t
  told : OffersAll (sirensTold s.arbiter t.arbiter (fun _ => cause) 7) (s.answered p ⟨code, n, .ok, sirenStateBytes t⟩) t
  grants : GrantsSettled s.cfg s.tick s.arbiter t.arbiter
  contributions : ∀ i : Fin 8, SameContributions (if g i then f i s.arbiter.sirens[i] else s.arbiter.sirens[i]) t.arbiter.sirens[i]

theorem sirens_accepts {p : Port} {s : State} (ht : TakesFrame s p) (n code : Byte) {g : Fin 8 → Bool} {f : Fin 8 → Siren → Siren}
    (cause : SirenCause) {reply : State → Reply} (hf : KeepsGrant f)
    (hr : reply (frameTaken p s) = accept (sirenAnswer (arbiterEvent ((frameTaken p s).arbiter.update g f) g (fun _ _ => cause)
      (frameTaken p s))) (arbiterEvent ((frameTaken p s).arbiter.update g f) g (fun _ _ => cause) (frameTaken p s))) :
    ∃ t, live s (serve p code n reply) = .next t ∧ SirensAnswered p n code (byteOf cause.num) g f s t := by
  have hmoved := arbiterEvent_moved cause (s := frameTaken p s) (g := g) hf
  generalize arbiterEvent ((frameTaken p s).arbiter.update g f) g (fun _ _ => cause) (frameTaken p s) = t at hmoved hr
  rw [sirenAnswer_eq] at hr
  obtain ⟨hw, hstays, htold, hgrants, hsame⟩ := hmoved
  exact ⟨_, serve_accepts ht code n hr, hw.links.answers _, hstays, htold.offersAll.answered _, hgrants, hsame⟩

theorem soundable_eq {p : Port} {pat : Pattern} (h : (p = .fp ∧ (pat = .evacuate ∨ pat = .alert)) ∨ (p = .pc ∧ pat = .alert)) :
    soundable p (byteOf pat.num) = some pat := by
  obtain ⟨rfl, rfl | rfl⟩ | ⟨rfl, rfl⟩ := h
  all_goals rfl

theorem setManual_eq {p : Port} (hp : p ≠ .sv) (x : Siren) (m : Option Manual) : x.setManual p m =
    { x with manualFp := if p = .fp then m else x.manualFp, manualPc := if p = .pc then m else x.manualPc } := by
  cases p
  case sv => exact absurd rfl hp
  all_goals rfl

/-- Settles O56: the four siren requests. -/
theorem sirenRequestsChangeContributions : Obligations.SirenRequestsChangeContributions := by
  intro p n mask pat seconds s ht hrun hmask m changed
  have hchanged {code cause : Byte} {f : Fin 8 → Siren → Siren} {t : State} (h : SirensAnswered p n code cause (sirenIn mask) f s t) :
      changed code cause f t := ⟨h.answers, h.stays, h.told, h.grants, h.contributions⟩
  have hworks : (!(frameTaken p s).isRunning) = false := by
    rw [Bool.not_eq_false']
    exact hrun
  refine ⟨fun h => ?_, fun hp hany => ?_, fun hp => ?_, fun hp hkey hview => ?_⟩
  · have hp : p ≠ .sv := by
      rintro rfl
      exact h.elim (fun h => nomatch h.1) fun h => nomatch h.1
    obtain ⟨t, hexec, hmoved⟩ := sirens_accepts ht n codeSoundSiren (g := sirenIn mask) (f := fun _ x => x.setManual p (some m)) .manual
      (reply := soundSirenReply p mask (byteOf pat.num) seconds) (fun i x => by cases p <;> rfl) (by
        rw [soundSirenReply, soundable_eq h]
        dsimp only
        rw [if_neg hmask, hworks, if_neg Bool.false_ne_true]
        rfl)
    simp only [setManual_eq hp] at hmoved
    exact ⟨t, hexec, hchanged hmoved⟩
  · obtain ⟨t, hexec, hmoved⟩ := sirens_accepts ht n codeStopSound (g := sirenIn mask) (f := fun _ x => x.setManual p none) .manual
      (reply := stopSoundReply p mask) (fun i x => by cases p <;> rfl) (by
        rw [stopSoundReply, if_neg hp, if_neg hmask, hworks, if_neg Bool.false_ne_true, if_pos]
        · obtain ⟨i, hi, hm⟩ := hany
          exact List.any_eq_true.mpr ⟨i, List.mem_finRange i, Bool.and_eq_true_iff.mpr ⟨hi, hm⟩⟩)
    simp only [setManual_eq hp] at hmoved
    exact ⟨t, hexec, hchanged hmoved⟩
  · obtain ⟨t, hexec, hmoved⟩ := sirens_accepts ht n codeSilence (g := sirenIn mask)
      (f := fun i x => { x with snapshot := alarmedCover s.cfg s.arbiter i, manualFp := none, manualPc := none }) .silence
      (reply := silenceReply p mask) (fun _ _ => rfl) (by
        rw [silenceReply, if_neg (not_not.mpr hp), if_neg hmask, hworks, if_neg Bool.false_ne_true]
        rfl)
    exact ⟨t, hexec, hchanged hmoved⟩
  · obtain ⟨t, hexec, hmoved⟩ := sirens_accepts ht n codeTestSirens (g := sirenIn mask)
      (f := fun _ x => { x with test := some (s.tick.plus 8000) }) .test
      (reply := testSirensReply p mask) (fun _ _ => rfl) (by
        have hclosed : (!(frameTaken p s).keyClosed) = false := by
          rw [Bool.not_eq_false']
          exact hkey
        have hquiet : viewAlarmed (frameTaken p s).arbiter = false := by
          rw [viewAlarmed, List.any_eq_false]
          exact fun z _ => by rw [show (frameTaken p s).arbiter = s.arbiter from rfl, hview z]; nofun
        rw [testSirensReply, if_neg (not_not.mpr hp), hclosed, if_neg Bool.false_ne_true, if_neg hmask, hworks, hquiet]
        rfl)
    exact ⟨t, hexec, hchanged hmoved⟩

/-! ### The siren timers (R146, R148, R149, R153, R154) -/

/-- A contribution of one siren ends. -/
theorem sirenExpiry_left {i : Fin 8} {f : Siren → Siren} {s : State} (hf : ∀ x, (f x).sounding = x.sounding) :
    let t := sirenExpiry i f s
    StaysInArbiter (fun j => decide (j = i)) s t ∧ GrantsSettled s.cfg s.tick s.arbiter t.arbiter ∧ KeepsLinks s t ∧
      OffersAll (sirensTold s.arbiter t.arbiter (fun _ => 4) 7) s t ∧
      SameContributions (f s.arbiter.sirens[i]) t.arbiter.sirens[i] ∧
      ∀ j : Fin 8, j ≠ i → SameContributions s.arbiter.sirens[j] t.arbiter.sirens[j] := by
  intro t
  obtain ⟨hw, hstays, htold, hgrants, hsame⟩ : SirensMoved (fun j => decide (j = i)) (fun _ x => f x) (byteOf SirenCause.expiry.num) s t :=
    arbiterEvent_moved .expiry fun _ x => hf x
  refine ⟨hstays, hgrants, hw.links, htold.offersAll, ?_, fun j hj => ?_⟩
  · have := hsame i
    rwa [if_pos (decide_eq_true rfl)] at this
  · have := hsame j
    rwa [if_neg fun h => hj (of_decide_eq_true h)] at this

/-- The Arbiter at a slot boundary (R153). -/
def Arbiter.rotated (c : Cfg) (now : Tick) (a : Arbiter) : Arbiter :=
  (evaluateGrants c now { a with pointer := a.mark.getD a.pointer, slot := none }).withDrives

theorem slotExpires_eq {s : State} (h : s.arbiter.slot = some s.tick) : slotExpires s =
    sirenNotices s.arbiter (s.arbiter.rotated s.cfg s.tick) (fun _ _ => .rotation) .rotation
      (s.setArbiter (s.arbiter.rotated s.cfg s.tick)) := by
  refine if_pos ?_
  rw [expiresNow, h]
  exact decide_eq_true rfl

theorem Arbiter.rotated_siren (c : Cfg) (now : Tick) (a : Arbiter) (i : Fin 8) :
    SameContributions a.sirens[i] (a.rotated c now).sirens[i] ∧ (a.rotated c now).sirens[i].demand = a.sirens[i].demand := by
  rw [Arbiter.rotated, Arbiter.withDrives_siren, evaluateGrants_siren]
  exact ⟨⟨rfl, rfl, rfl, rfl, rfl⟩, rfl⟩

/-- Settles O57: the five expiries. -/
theorem sirenTimersAct : Obligations.SirenTimersAct := by
  intro i p s hw hp a x left
  have hexec {instr : Instr} {f : State → State} (h : exec instr s = whenRunning s f) : exec instr s = .next (f s) :=
    h.trans (whenRunning_working s f hw)
  have hexpires {o : Option Tick} (h : o = some s.tick) : expiresNow s o = true := decide_eq_true h
  refine ⟨fun m hm hend => ?_, fun h => ?_, fun h => ?_, fun h => ?_, fun h => ?_⟩
  · have hmanual : expiresNow s ((s.arbiter.sirens[i].manual p).map Manual.until_) = true :=
      hexpires (by rw [show s.arbiter.sirens[i].manual p = some m from hm, ← hend]; rfl)
    have hleft := sirenExpiry_left (i := i) (f := fun x => x.setManual p none) (s := s) fun x => by cases p <;> rfl
    rw [setManual_eq hp] at hleft
    exact ⟨_, (hexec (f := manualExpires i p) rfl).trans (congrArg Host.Outcome.next (if_pos hmanual)), hleft⟩
  · exact ⟨_, (hexec (f := allClearExpires i) rfl).trans (congrArg Host.Outcome.next (if_pos (hexpires h))), sirenExpiry_left fun _ => rfl⟩
  · exact ⟨_, (hexec (f := sirenTestExpires i) rfl).trans (congrArg Host.Outcome.next (if_pos (hexpires h))), sirenExpiry_left fun _ => rfl⟩
  · refine ⟨_, (hexec (f := slotExpires) rfl).trans (congrArg Host.Outcome.next (slotExpires_eq h)), ?_⟩
    have hlinks := sirenNotices_within s.arbiter (s.arbiter.rotated s.cfg s.tick) (fun _ _ => .rotation) .rotation
      (s.setArbiter (s.arbiter.rotated s.cfg s.tick))
    have htold := sirenNotices_told s.arbiter (s.arbiter.rotated s.cfg s.tick) (fun _ _ => .rotation) .rotation
      (s.setArbiter (s.arbiter.rotated s.cfg s.tick))
    have hsame := s.arbiter.rotated_siren s.cfg s.tick
    have hok : ArbiterOk s.cfg (s.arbiter.rotated s.cfg s.tick) := (evaluateGrants_ok s.cfg s.tick _).withDrives_ok
    have hgrants : GrantsEvaluated s.cfg s.tick { a with slot := none } (s.arbiter.rotated s.cfg s.tick) :=
      evaluateGrants_evaluated s.cfg s.tick rfl rfl rfl
    have hview : (s.arbiter.rotated s.cfg s.tick).view = a.view := rfl
    have hpointer : (s.arbiter.rotated s.cfg s.tick).pointer = a.mark.getD a.pointer := rfl
    generalize s.arbiter.rotated s.cfg s.tick = b at hlinks htold hsame hok hgrants hview hpointer
    have hw := (setArbiter_within s b).trans (hlinks.mono rfl)
    have harbiter : (sirenNotices s.arbiter b (fun _ _ => .rotation) .rotation (s.setArbiter b)).arbiter = b := hlinks.arbiter rfl
    generalize sirenNotices s.arbiter b (fun _ _ => .rotation) .rotation (s.setArbiter b) = t at hw harbiter htold
    subst harbiter
    exact ⟨hw.links, ⟨hw.fixed, ⟨hw.channels rfl, hw.stations rfl, hw.inputs rfl, hw.captures rfl⟩, hw.zones rfl, hw.ducts rfl,
      hw.doors rfl, hview, hpointer, fun j => (hsame j).2⟩,
      (Told.after (t := s.setArbiter t.arbiter) rfl rfl htold).offersAll, hok, fun j => (hsame j).1, hgrants⟩
  · refine ⟨_, (hexec (f := cadenceExpires) rfl).trans (congrArg Host.Outcome.next (if_pos (hexpires h))), rfl, fun j => ?_⟩
    exact Arbiter.withDrives_siren _ j

end Sys2Proof.Machine
end

