-- ==== Sys2Proof/Proofs/ZoneSirens.lean ====
section
/-! PROOFS. What the report of a zone leaves at the Siren Arbiter and at the doors (R133, R143, R148, R151), and what later reports of
other zones leave of it. -/

namespace Sys2Proof.Machine

open Sys2Proof

/-! ### The Siren Arbiter's part (R143, R148, R151) -/

/-- A siren resounds at the report of a zone that comes to a level (R151). -/
def Resounds (cover : ZoneMask) (z : Fin 16) (was level : Level) (x : Siren) : Prop :=
  zoneIn cover z = true ∧ (((level.atLeast .alarm = true ∧ was.atLeast .alarm = false) ∧ zoneIn x.snapshot z = false) ∨
    (zoneIn x.snapshot z = true ∧ was = .alarm ∧ level = .fire))

/-- A siren after the report of a zone without a reset, by the contributions that it had (R148, R151). -/
structure SirenHeard (cover : ZoneMask) (z : Fin 16) (was level : Level) (x y : Siren) : Prop where
  manual : y.manualFp = x.manualFp ∧ y.manualPc = x.manualPc ∧ y.test = x.test
  resound : Resounds cover z was level x → y.snapshot = 0
  kept : ¬Resounds cover z was level x → ∀ q : Fin 16, zoneIn y.snapshot q = true ↔
    zoneIn x.snapshot q = true ∧ ¬(zoneIn cover z = true ∧ q = z ∧ level.atLeast .alarm = false)
  ended : zoneIn cover z = true → level.atLeast .alarm = true ∧ was.atLeast .alarm = false → y.allClear = none
  clear : ¬(zoneIn cover z = true ∧ level.atLeast .alarm = true ∧ was.atLeast .alarm = false) → y.allClear = x.allClear

theorem SameContributions.heard {cover : ZoneMask} {z : Fin 16} {was level : Level} {x y w : Siren} (h : SirenHeard cover z was level x y)
    (k : SameContributions y w) : SirenHeard cover z was level x w := by
  obtain ⟨k1, k2, k3, k4, k5⟩ := k
  obtain ⟨⟨h1, h2, h3⟩, hresound, hkept, hended, hclear⟩ := h
  refine ⟨⟨k1.trans h1, k2.trans h2, k5.trans h3⟩, fun e => k3.trans (hresound e), fun e => ?_, fun e f => k4.trans (hended e f),
    fun e => k4.trans (hclear e)⟩
  rw [k3]
  exact hkept e

theorem uncovered_heard {cover : ZoneMask} {z : Fin 16} (h : ¬zoneIn cover z = true) (was level : Level) (x : Siren) :
    SirenHeard cover z was level x x :=
  ⟨⟨rfl, rfl, rfl⟩, fun e => absurd e.1 h, fun _ _ => ⟨fun e => ⟨e, fun f => h f.1⟩, fun e => e.1⟩, fun e => absurd e h, fun _ => rfl⟩

theorem reportSiren_heard {cover : ZoneMask} {z : Fin 16} (h : zoneIn cover z = true) (was level : Level) (ends : Tick) (x : Siren) :
    SirenHeard cover z was level x (reportSiren z was level false ends x) := by
  have hfire : level = .fire → level.atLeast .alarm = true := fun e => by rw [e]; rfl
  unfold reportSiren
  dsimp only
  cases hl : level.atLeast .alarm
  · have hnot : level ≠ .fire := fun e => Bool.noConfusion (hl.symm.trans (hfire e))
    refine ⟨⟨rfl, rfl, rfl⟩, ?_, fun _ q => ?_, ?_, ?_⟩
    · simp [Resounds, hl, hnot]
    · simp [hl, hnot, zoneIn_clear, h]
    · simp [hl]
    · simp [hl]
  · refine ⟨⟨rfl, rfl, rfl⟩, fun ⟨_, hr⟩ => ?_, fun hr q => ?_, fun _ hr => ?_, fun hr => ?_⟩
    · refine if_pos ?_
      simp only [Bool.not_true, Bool.false_eq_true, if_false, Bool.true_and, Bool.or_eq_true, Bool.and_eq_true, Bool.not_eq_true',
        decide_eq_true_eq]
      exact hr.imp (fun e => ⟨e.1.2, e.2⟩) fun e => ⟨⟨e.1, e.2.2⟩, e.2.1⟩
    · rw [if_neg]
      · simp [hl]
      · simp only [Bool.not_true, Bool.false_eq_true, if_false, Bool.true_and, Bool.or_eq_true, Bool.and_eq_true, Bool.not_eq_true',
          decide_eq_true_eq]
        exact fun e => hr ⟨h, e.imp (fun e => ⟨⟨hl, e.1⟩, e.2⟩) fun e => ⟨e.1.1, e.2, e.1.2⟩⟩
    · simp [hr.2]
    · cases hw : was.atLeast .alarm
      · exact absurd ⟨h, hl, hw⟩ hr
      · simp

/-- The Siren Arbiter after the report of a zone without a reset. -/
structure SirensHeard (z : Fin 16) (level : Level) (acked : AckSet) (s t : State) : Prop where
  view : t.arbiter.view = s.arbiter.view.set z ⟨level, acked⟩
  pointer : t.arbiter.pointer = s.arbiter.pointer
  sirens : ∀ i : Fin 8, SirenHeard s.cfg.sirens[i].cover z s.arbiter.view[z].level level s.arbiter.sirens[i] t.arbiter.sirens[i]
  grants : GrantsSettled s.cfg s.tick s.arbiter t.arbiter
  demands : ∀ i : Fin 8, t.arbiter.sirens[i].demand =
    if zoneIn s.cfg.sirens[i].cover z then sirenDemand s.cfg.sirens[i].cover t.arbiter.view t.arbiter.sirens[i]
    else s.arbiter.sirens[i].demand

/-- The grants and demands at any report of a zone. -/
theorem sirensReport_settled (z : Fin 16) (level : Level) (acked : AckSet) (reset : Bool) (s : State) :
    let t := sirensReport z level acked reset s
    t.arbiter.view = s.arbiter.view.set z ⟨level, acked⟩ ∧ t.arbiter.pointer = s.arbiter.pointer ∧
      GrantsSettled s.cfg s.tick s.arbiter t.arbiter ∧
      ∀ i : Fin 8, SameContributions (if zoneIn s.cfg.sirens[i].cover z then reportSiren z s.arbiter.view[z].level level reset
          (s.tick.plus (4000 * s.cfg.allClearTime)) s.arbiter.sirens[i] else s.arbiter.sirens[i]) t.arbiter.sirens[i] ∧
        t.arbiter.sirens[i].demand =
          if zoneIn s.cfg.sirens[i].cover z then sirenDemand s.cfg.sirens[i].cover t.arbiter.view t.arbiter.sirens[i]
          else s.arbiter.sirens[i].demand := by
  intro t
  have ha := sirensReport_arbiter z level acked reset s
  rw [show t.arbiter = _ from ha, settleArbiter_view, settleArbiter_pointer]
  refine ⟨rfl, rfl, settleArbiter_settled s.cfg s.tick _ ⟨rfl, fun i => ?_⟩ rfl rfl rfl rfl, fun i => ?_⟩
  · rw [Arbiter.told_siren]
    split <;> rfl
  · obtain ⟨hsame, hdemand⟩ := settleArbiter_siren s.cfg s.tick s.arbiter
      (s.arbiter.told s.cfg z level acked reset (s.after (secondsTicks s.cfg.allClearTime))) (fun i => zoneIn s.cfg.sirens[i].cover z) i
    refine ⟨?_, ?_⟩
    · rw [Arbiter.told_siren] at hsame
      exact hsame
    · rw [hdemand, sirenDemand_congr hsame]
      split
      · rfl
      · rename_i hc
        rw [Arbiter.told_siren, if_neg hc]

theorem sirensReport_heard (z : Fin 16) (level : Level) (acked : AckSet) (s : State) :
    SirensHeard z level acked s (sirensReport z level acked false s) := by
  obtain ⟨hview, hpointer, hgrants, hsirens⟩ := sirensReport_settled z level acked false s
  refine ⟨hview, hpointer, fun i => ?_, hgrants, fun i => (hsirens i).2⟩
  obtain ⟨hsame, -⟩ := hsirens i
  split at hsame
  next hc => exact hsame.heard (reportSiren_heard hc _ _ _ _)
  next hc => exact hsame.heard (uncovered_heard hc _ _ _)

/-! ### The doors' part (R133) -/

theorem reported_none {c : DoorCfg} {level : Level} (h : reportCause c level = none) (now : Tick) (x : Door) : x.reported c now level = x := by
  unfold Door.reported
  rw [h]

/-- Which cause a wait keeps (R134). -/
theorem waiting_takes {cause : ReleaseCause} (h : cause = .zoneFire ∨ cause = .zoneAlarm) (o : Option ReleaseCause) :
    (if cause.outranks o then some cause else o) = if o = some .zoneFire then some .zoneFire else some cause := by
  obtain rfl | rfl := h
  all_goals
    cases o with
    | none => rfl
    | some r => cases r <;> rfl

theorem reported_takes {c : DoorCfg} {level : Level} {cause : ReleaseCause} (h : reportCause c level = some cause) (now : Tick) (x : Door) :
    DoorTakes c now cause x (x.reported c now level) := by
  have hcause : cause = .zoneFire ∨ cause = .zoneAlarm := by
    unfold reportCause at h
    split at h
    · exact .inl (Option.some.inj h).symm
    · split at h
      · exact .inr (Option.some.inj h).symm
      · nomatch h
  have hreported : x.reported c now level = match x.state with
      | .held => x.release c now cause
      | .releaseWait => if cause.outranks x.cause then { x with cause := some cause } else x
      | .free | .closing | .stuck => x := by
    unfold Door.reported
    rw [h] <;> rfl
  rw [hreported]
  refine ⟨fun hs => ?_, fun hs => ?_, fun hs => ?_⟩
  · rw [hs]
    exact release_letGo c now cause x
  · rw [hs]
    dsimp only
    rw [← waiting_takes hcause]
    split
    · rfl
    · rw [← hs]
  · obtain hs | hs | hs := hs
    all_goals rw [hs]

theorem sublist_flatMap {α β : Type} {l : List α} {a : α} (h : a ∈ l) (f : α → List β) : (f a).Sublist (l.flatMap f) := by
  obtain ⟨before, after, rfl⟩ := List.append_of_mem h
  rw [List.flatMap_append, List.flatMap_cons]
  exact (List.sublist_append_left _ _).trans (List.sublist_append_right _ _)

/-- The doors that border a zone, as its report at a level leaves them. -/
theorem doorsReported_of {z : Fin 16} {level : Level} {s t : State} (hlevel : (t.zone z).level = level)
    (hdoor : ∀ i : Fin 12, zoneIn s.cfg.doors[i].zones z = true → t.door i = (s.door i).reported s.cfg.doors[i] s.tick level)
    (htold : ∀ i : Fin 12, zoneIn s.cfg.doors[i].zones z = true → t.door i ≠ s.door i →
      OffersThese (doorNotices s t i (if level = .fire then 4 else 3)) s t) :
    DoorsReported z s t := by
  intro i hz
  have hi := hdoor i hz
  have hcause : reportCause s.cfg.doors[i] level = if level = .fire then some .zoneFire
    else if level = .alarm ∧ s.cfg.doors[i].closeOnAlarm then some .zoneAlarm else none := rfl
  rw [hlevel]
  refine ⟨fun e => ?_, fun e hc => ?_, fun e hc => ?_, fun e => ?_, fun hne => htold i hz hne⟩
  · rw [hi]
    rw [e] at hcause ⊢
    exact reported_takes hcause _ _
  · rw [hi]
    rw [if_neg (by rw [e]; nofun), if_pos ⟨e, hc⟩] at hcause
    exact reported_takes hcause _ _
  · rw [if_neg (by rw [e]; nofun), if_neg (by rw [hc]; nofun)] at hcause
    exact hi.trans (reported_none hcause _ _)
  · rw [if_neg (by rintro rfl; exact e.elim nofun nofun), if_neg (by rintro ⟨rfl, -⟩; exact e.elim nofun nofun)] at hcause
    exact hi.trans (reported_none hcause _ _)

/-- A door that a zone's report at FIRE has reached: no later report moves it. -/
def DoorDone (x : Door) : Prop := x.state ≠ .held ∧ (x.state = .releaseWait → x.cause = some .zoneFire)

theorem reported_fire_done (c : DoorCfg) (now : Tick) (x : Door) : DoorDone (x.reported c now .fire) := by
  obtain ⟨hheld, hwait, hrest⟩ := reported_takes (c := c) (level := .fire) (cause := .zoneFire) rfl now x
  generalize x.reported c now .fire = y at hheld hwait hrest
  cases hs : x.state
  case held =>
    have hgo := hheld hs
    exact ⟨hgo.not_held, fun _ => hgo.2.2.1⟩
  case releaseWait =>
    rw [hwait hs]
    refine ⟨fun h => absurd (hs.symm.trans h) nofun, fun _ => ?_⟩
    show (if x.cause = some .zoneFire then some ReleaseCause.zoneFire else some .zoneFire) = some .zoneFire
    exact ite_self _
  case free | closing | stuck =>
    rw [hrest (by simp [hs])]
    exact ⟨fun h => absurd (hs.symm.trans h) nofun, fun h => absurd (hs.symm.trans h) nofun⟩

theorem DoorDone.reported {x : Door} (h : DoorDone x) (c : DoorCfg) (now : Tick) (level : Level) : x.reported c now level = x := by
  obtain ⟨hheld, hwait⟩ := h
  unfold Door.reported
  cases reportCause c level with
  | none => rfl
  | some cause =>
    cases hs : x.state
    case held => exact absurd hs hheld
    case releaseWait =>
      rw [hwait hs]
      refine if_neg ?_
      cases cause <;> decide
    all_goals rfl

end Sys2Proof.Machine
end

