-- ==== Sys2Proof/Proofs/ZoneAftermath.lean ====
section
/-! PROOFS. What the report of a zone at FIRE leaves alone at the Duct Controllers (R109): the zone's own face, the doors and sirens
that have taken its report, and everything that is neither a duct's stop nor its posting. -/

namespace Sys2Proof.Machine

open Sys2Proof

/-! ### What later reports leave -/

/-- A siren after reports of other zones. -/
structure SirenAfter (x y : Siren) : Prop where
  manual : y.manualFp = x.manualFp ∧ y.manualPc = x.manualPc ∧ y.test = x.test
  silent : x.snapshot = 0 → y.snapshot = 0
  ended : x.allClear = none → y.allClear = none
  clear : y.allClear = x.allClear ∨ y.allClear = none

theorem SirenAfter.refl (x : Siren) : SirenAfter x x := ⟨⟨rfl, rfl, rfl⟩, id, id, .inl rfl⟩

theorem SirenAfter.trans {x y w : Siren} (h : SirenAfter x y) (k : SirenAfter y w) : SirenAfter x w := by
  obtain ⟨⟨h1, h2, h3⟩, hsilent, hended, hclear⟩ := h
  obtain ⟨⟨k1, k2, k3⟩, ksilent, kended, kclear⟩ := k
  refine ⟨⟨k1.trans h1, k2.trans h2, k3.trans h3⟩, fun e => ksilent (hsilent e), fun e => kended (hended e), ?_⟩
  obtain e | e := kclear
  · exact hclear.imp e.trans e.trans
  · exact .inr e

/-- A mask without zones is empty. -/
theorem zoneMask_eq_zero {m : ZoneMask} (h : ∀ q : Fin 16, zoneIn m q = false) : m = 0 := by
  refine BitVec.eq_of_getLsbD_eq fun i hi => ?_
  have := h ⟨i, hi⟩
  rw [zoneIn] at this
  rw [this]
  simp

theorem SirenHeard.after {cover : ZoneMask} {z : Fin 16} {was level : Level} {x y : Siren} (h : SirenHeard cover z was level x y) :
    SirenAfter x y := by
  obtain ⟨hmanual, hresound, hkept, hended, hclear⟩ := h
  refine ⟨hmanual, fun e => ?_, fun e => ?_, ?_⟩
  · by_cases hr : Resounds cover z was level x
    · exact hresound hr
    · refine zoneMask_eq_zero fun q => Bool.eq_false_iff.mpr fun hq => ?_
      have := ((hkept hr q).mp hq).1
      rw [e, zoneIn_zero] at this
      exact Bool.false_ne_true this
  · by_cases hc : zoneIn cover z = true ∧ level.atLeast .alarm = true ∧ was.atLeast .alarm = false
    · exact hended hc.1 hc.2
    · exact (hclear hc).trans e
  · by_cases hc : zoneIn cover z = true ∧ level.atLeast .alarm = true ∧ was.atLeast .alarm = false
    · exact .inr (hended hc.1 hc.2)
    · exact .inl (hclear hc)

/-- The zone stands at FIRE, latched. -/
def FireStands (z : Fin 16) (s : State) : Prop := (s.zone z).level = .fire ∧ (s.zone z).latch = true

/-- The zone view shows the zone. -/
def ViewShows (z : Fin 16) (s : State) : Prop := s.arbiter.view[z] = ⟨(s.zone z).level, (s.zone z).acked⟩

/-- From `s`, where zone `z` stands at FIRE, to `t` the Duct Controllers have heard of it. -/
structure AfterFire (z : Fin 16) (s t : State) : Prop where
  within : Within .hazard s t
  tells : Tells s t
  face : SameFace (s.zone z) (t.zone z)
  kind : (t.zone z).kind = (s.zone z).kind
  causes : ∀ i : Fin 13, 3 ≤ i.val ∨ 4 ≤ z.val → (t.zone z).causes[i] = (s.zone z).causes[i]
  hazard : ∀ y, y ≠ z → 4 ≤ y.val → KeepsHazard y s t
  doors : ∀ i, DoorDone (s.door i) → t.door i = s.door i
  view : ViewShows z s → ViewShows z t
  pointer : t.arbiter.pointer = s.arbiter.pointer
  sirens : ∀ i : Fin 8, SirenAfter s.arbiter.sirens[i] t.arbiter.sirens[i]
  water : ∀ d, KeepsWater d s t
  overlays : ∀ d, (s.duct d).overlays = [] → (t.duct d).overlays = []
  raised : ∀ y n, Raised t y .inputFault n ↔ Raised s y .inputFault n

theorem KeepsWater.refl (d : Fin 4) (s : State) : KeepsWater d s s := ⟨rfl, rfl, rfl, rfl, rfl⟩

theorem KeepsWater.trans {d : Fin 4} {s t w : State} (h : KeepsWater d s t) (k : KeepsWater d t w) : KeepsWater d s w := by
  obtain ⟨h1, h2, h3, h4, h5⟩ := h
  obtain ⟨k1, k2, k3, k4, k5⟩ := k
  exact ⟨k1.trans h1, k2.trans h2, k3.trans h3, k4.trans h4, k5.trans h5⟩

theorem AfterFire.refl (z : Fin 16) (s : State) : AfterFire z s s :=
  ⟨.refl _ s, .refl s, .refl _, rfl, fun _ _ => rfl, fun _ _ _ => .refl _ s, fun _ _ => rfl, id, rfl, fun _ => .refl _,
    fun d => .refl d s, fun _ => id, fun _ _ => .rfl⟩

theorem AfterFire.trans {z : Fin 16} {s t w : State} (h : AfterFire z s t) (k : AfterFire z t w) : AfterFire z s w where
  within := h.within.trans k.within
  tells := h.tells.trans k.tells
  face := h.face.trans k.face
  kind := k.kind.trans h.kind
  causes := fun i hi => (k.causes i hi).trans (h.causes i hi)
  hazard := fun y hy hn => (h.hazard y hy hn).trans (k.hazard y hy hn)
  doors := fun i hi => by
    have hd := h.doors i hi
    exact (k.doors i (hd ▸ hi)).trans hd
  view := fun hv => k.view (h.view hv)
  pointer := k.pointer.trans h.pointer
  sirens := fun i => (h.sirens i).trans (k.sirens i)
  water := fun d => (h.water d).trans (k.water d)
  overlays := fun d hd => k.overlays d (h.overlays d hd)
  raised := fun y n => (k.raised y n).trans (h.raised y n)

theorem AfterFire.stands {z : Fin 16} {s t : State} (h : AfterFire z s t) (hz : FireStands z s) : FireStands z t := by
  obtain ⟨hlevel, hlatch, -, -⟩ := h.face
  exact ⟨hlevel.trans hz.1, hlatch.trans hz.2⟩

/-! ### The parts of a fire report -/

theorem takeCauses_afterFire (z : Fin 16) (e : Fin 4) (l : List StopCause) (s : State) : AfterFire z s (takeCauses e l s) := by
  have hlocal := takeCauses_local e l s
  obtain ⟨htells, -, hraised⟩ := takeCauses_tells e l s
  have harbiter := hlocal.within.arbiter rfl
  have hwater (d : Fin 4) : KeepsWater d s (takeCauses e l s) ∧ ((takeCauses e l s).duct d).overlays = (s.duct d).overlays := by
    by_cases hd : d = e
    · subst hd
      exact ⟨hlocal.keepsWater (by decide), hlocal.same .overlays (by decide)⟩
    · rw [KeepsWater, hlocal.others d hd]
      exact ⟨⟨rfl, rfl, rfl, rfl, rfl⟩, rfl⟩
  have hz := hlocal.hazards z
  refine ⟨takeCauses_within e l s, htells, hz.sameFace, by rw [show (takeCauses e l s).zone z = _ from hz], fun i _ => by rw [hz.causes],
    fun y _ _ => hlocal.hazards y, fun i _ => State.door_eq_of_doors (hlocal.within.doors rfl) i, fun hv => ?_, by rw [harbiter],
    fun i => by rw [harbiter]; exact .refl _, fun d => (hwater d).1, fun d hd => (hwater d).2.trans hd,
    fun y n => hraised .inputFault (by decide) y n⟩
  unfold ViewShows at hv ⊢
  rw [harbiter, hz.level, hz.acked]
  exact hv

/-- A settled record of a zone that stands at FIRE shows what it showed. -/
theorem settleZone_latched {x : Zone} (h : x.level = .fire ∧ x.latch = true) (causes : Vector Level 13) :
    zoneChanged x (settleZone x { x with causes := causes } false) = false := by
  obtain ⟨hlevel, hlatch⟩ := h
  simp [zoneChanged, settleZone, deriveLevel, hlatch, hlevel, Level.above, Level.num]

theorem CauseKey.ofDuct_ix (k : Fin 3) : (CauseKey.ofDuct k).ix.val = k.val := by
  revert k
  decide

/-- A posting at the zone itself, which stands at FIRE. -/
theorem zonePosting_same_afterFire {z : Fin 16} (k : Fin 3) (level : Level) {s : State} (hz : FireStands z s) (hlow : z.val < 4) :
    AfterFire z s (zonePosting z (.ofDuct k) level s).state := by
  have hw := zonePosting_within z (.ofDuct k) level s
  have hquiet := settleZone_latched (x := s.zone z) hz ((s.zone z).causes.set (CauseKey.ofDuct k).ix level)
  have htag := settleZone_tag (s.zone z) { s.zone z with causes := (s.zone z).causes.set (CauseKey.ofDuct k).ix level } false
  rw [hquiet, if_neg Bool.false_ne_true] at htag
  obtain ⟨hc, -⟩ | ⟨-, he⟩ := zoneEvent_cases z { s.zone z with causes := (s.zone z).causes.set (CauseKey.ofDuct k).ix level }
    (CauseKey.ofDuct k).cause false s
  · exact absurd (hquiet.symm.trans hc) Bool.false_ne_true
  · have ht : (zonePosting z (.ofDuct k) level s).state = s.setZone z (settleZone (s.zone z)
        { s.zone z with causes := (s.zone z).causes.set (CauseKey.ofDuct k).ix level } false) := congrArg Posted.state he
    have hcauses : (settleZone (s.zone z) { s.zone z with causes := (s.zone z).causes.set (CauseKey.ofDuct k).ix level } false).causes =
        (s.zone z).causes.set (CauseKey.ofDuct k).ix level := rfl
    have hkind : (settleZone (s.zone z) { s.zone z with causes := (s.zone z).causes.set (CauseKey.ofDuct k).ix level } false).kind =
        (s.zone z).kind := rfl
    have htroubles : (settleZone (s.zone z) { s.zone z with causes := (s.zone z).causes.set (CauseKey.ofDuct k).ix level } false).troubles =
        (s.zone z).troubles := rfl
    rw [ht] at hw ⊢
    obtain ⟨hlevel, hlatch, hacked⟩ := zoneChanged_false hquiet
    generalize settleZone (s.zone z) { s.zone z with causes := (s.zone z).causes.set (CauseKey.ofDuct k).ix level } false = new at *
    have hself : (s.setZone z new).zone z = new := s.setZone_zone_self z new
    refine ⟨hw, ⟨rfl, [], .of_ports rfl⟩, by rw [hself]; exact ⟨hlevel, hlatch, hacked, htag⟩, by rw [hself]; exact hkind, fun i hi => ?_,
      fun y hy _ => ?_, fun _ _ => rfl, fun hv => ?_, rfl, fun _ => .refl _, fun d => .refl d s, fun _ => id, fun y n => ?_⟩
    · rw [hself, hcauses]
      have hk := CauseKey.ofDuct_ix k
      exact Vector.getElem_set_ne _ _ (by have := k.isLt; omega)
    · have hne := s.setZone_zone_ne z y new hy
      unfold KeepsHazard
      rw [hne]
    · unfold ViewShows at hv ⊢
      rw [hself, hlevel, hacked]
      exact hv
    · unfold Raised
      by_cases hy : y = z
      · rw [hy, hself, htroubles]
      · rw [s.setZone_zone_ne z y new hy]

/-- What the reports of a zone leave of doors that are done, of the sirens and of the other zones' views. -/
theorem reportZone_leaves {y z : Fin 16} (hy : y ≠ z) (old new : Zone) (cause : ZoneCause) (s : State) :
    let t := reportZone y old new cause false s
    (∀ i, DoorDone (s.door i) → t.door i = s.door i) ∧ t.arbiter.view[z] = s.arbiter.view[z] ∧ t.arbiter.pointer = s.arbiter.pointer ∧
      (∀ i : Fin 8, SirenAfter s.arbiter.sirens[i] t.arbiter.sirens[i]) ∧ ∀ d, (s.duct d).overlays = [] → (t.duct d).overlays = [] := by
  intro t
  obtain ⟨u, hu, -, -, ht⟩ := reportZone_arbiter y old new cause false s
  have hheard := sirensReport_heard y new.level new.acked u
  rw [← ht] at hheard
  refine ⟨fun i hi => ?_, ?_, hheard.pointer.trans (congrArg Arbiter.pointer hu), fun i => ?_, fun d hd => ?_⟩
  · refine (reportZone_door y old new cause false s i).trans ?_
    rw [hi.reported]
    exact ite_self _
  · rw [show t.arbiter.view = _ from hheard.view, hu]
    exact Vector.getElem_set_ne y.isLt z.isLt fun e => hy (Fin.ext e)
  · have := (hheard.sirens i).after
    rwa [hu] at this
  · refine (congrArg Duct.overlays (reportZone_duct y old new cause false s d)).trans ?_
    show (if ductZone d = y ∧ new.level.atLeast .alarm = true then [] else (s.duct d).overlays) = []
    rw [hd]
    exact ite_self _

/-- A posting at another zone. -/
theorem zonePosting_other_afterFire {z y : Fin 16} (hy : y ≠ z) (hlow : y.val < 4) (k : Fin 3) (level : Level) (s : State) :
    AfterFire z s (zonePosting y (.ofDuct k) level s).state := by
  have hw := zonePosting_within y (.ofDuct k) level s
  have hhazard := zonePosting_hazard y (.ofDuct k) level s (Ne.symm hy)
  have hraised := raised_zonePosting (l := .inputFault) ⟨by decide, by decide⟩ y (.ofDuct k) level s
  have hduct := zonePosting_duct y (.ofDuct k) level s
  obtain ⟨n, l, -, htells⟩ := zonePosting_tells y k level s
  have hwater (d : Fin 4) : KeepsWater d s (zonePosting y (.ofDuct k) level s).state := by
    rw [KeepsWater, hduct d]
    exact ⟨rfl, rfl, rfl, rfl, rfl⟩
  have hhazards : ∀ x, x ≠ z → 4 ≤ x.val → KeepsHazard x s (zonePosting y (.ofDuct k) level s).state := fun x _ hx =>
    zonePosting_hazard y (.ofDuct k) level s fun e => by rw [e] at hx; omega
  have hrest : (∀ i, DoorDone (s.door i) → (zonePosting y (.ofDuct k) level s).state.door i = s.door i) ∧
      (zonePosting y (.ofDuct k) level s).state.arbiter.view[z] = s.arbiter.view[z] ∧
      (zonePosting y (.ofDuct k) level s).state.arbiter.pointer = s.arbiter.pointer ∧
      (∀ i : Fin 8, SirenAfter s.arbiter.sirens[i] (zonePosting y (.ofDuct k) level s).state.arbiter.sirens[i]) ∧
      ∀ d, (s.duct d).overlays = [] → ((zonePosting y (.ofDuct k) level s).state.duct d).overlays = [] := by
    obtain ⟨-, he⟩ | ⟨-, he⟩ := zoneEvent_cases y { s.zone y with causes := (s.zone y).causes.set (CauseKey.ofDuct k).ix level }
      (CauseKey.ofDuct k).cause false s
    · rw [show (zonePosting y (.ofDuct k) level s).state = _ from congrArg Posted.state he]
      exact reportZone_leaves hy _ _ _ (s.setZone y _)
    · rw [show (zonePosting y (.ofDuct k) level s).state = _ from congrArg Posted.state he]
      exact ⟨fun _ _ => rfl, rfl, rfl, fun _ => .refl _, fun _ => id⟩
  obtain ⟨hdoors, hview, hpointer, hsirens, hoverlays⟩ := hrest
  refine ⟨hw, ⟨htells.tick, l, htells.told⟩, hhazard.sameFace, by rw [show (zonePosting y (.ofDuct k) level s).state.zone z = _ from hhazard],
    fun i _ => by rw [hhazard.causes], hhazards, hdoors, fun hv => ?_, hpointer, hsirens, hwater, hoverlays, fun x n => hraised x n⟩
  unfold ViewShows at hv ⊢
  rw [hview, hhazard.level, hhazard.acked]
  exact hv

theorem zonePosting_afterFire {z : Fin 16} (e : Fin 4) (k : Fin 3) (level : Level) {s : State} (hz : FireStands z s) :
    AfterFire z s (zonePosting (ductZone e) (.ofDuct k) level s).state := by
  have hlow : (ductZone e).val < 4 := e.isLt
  by_cases he : ductZone e = z
  · subst he
    exact zonePosting_same_afterFire k level hz hlow
  · exact zonePosting_other_afterFire he hlow k level s

theorem dcPost_afterFire {z : Fin 16} (e : Fin 4) {s : State} (hz : FireStands z s) : AfterFire z s (dcPost e s).state := by
  rw [dcPost_state]
  have h1 := zonePosting_afterFire (z := z) e 0 (ductStateLevel (s.ctl e)) hz
  have h2 := h1.trans (zonePosting_afterFire e 1 (velocityLevel (s.ctl e).state (s.duct e).vel.state) (h1.stands hz))
  exact h2.trans (zonePosting_afterFire e 2 (emberLevel (s.ctl e)) (h2.stands hz))

theorem fireReportAt_afterFire {z : Fin 16} (e : Fin 4) {s : State} (hz : FireStands z s) : AfterFire z s (fireReportAt z s e) := by
  unfold fireReportAt
  split
  · have h := takeCauses_afterFire z e [.zoneFire] s
    exact h.trans (dcPost_afterFire e (h.stands hz))
  · exact .refl z s

theorem fireReport_afterFire {z : Fin 16} {s : State} (hz : FireStands z s) : AfterFire z s (fireReport z s) := by
  have hrun : ∀ (l : List (Fin 4)) (s : State), FireStands z s → AfterFire z s (l.foldl (fireReportAt z) s) := by
    intro l
    induction l with
    | nil => exact fun s _ => .refl z s
    | cons e rest ih =>
      intro s hz
      have h := fireReportAt_afterFire e hz
      exact h.trans (ih _ (h.stands hz))
  exact hrun _ s hz

/-- A report of a zone at FIRE finds no duct that takes a stop of it. -/
theorem fireReport_idle {z : Fin 16} {s : State} (hok : ZonesOk s) (hp : PostedOk s)
    (h : ∀ d, ActsOnZone s d z → (s.ctl d).state = .offline) : fireReport z s = s := by
  have hstep (d : Fin 4) : fireReportAt z s d = s := by
    unfold fireReportAt
    split
    next ha =>
      rw [takeZoneFire_none (.inl (h d ((actsOn_iff s d z).mp ha))), dcPost_posted (hok _) (hp d)]
    next => rfl
  have hrun : ∀ l : List (Fin 4), l.foldl (fireReportAt z) s = s := by
    intro l
    induction l with
    | nil => rfl
    | cons e rest ih => rw [List.foldl_cons, hstep, ih]
  exact hrun _

end Sys2Proof.Machine
end

