-- ==== Sys2Proof/Proofs/ZoneChanges.lean ====
section
/-! PROOFS. The whole event of one zone (R3 to R6, R109): its settled record, its notices, and the reports that it makes. -/

namespace Sys2Proof.Machine

open Sys2Proof

/-! ### The event of a zone with its delivery -/

/-- What a request or an input brings to a zone's record: no trouble, and no cause of its Duct Controller. -/
structure ZoneBrought (x raw : Zone) : Prop where
  troubles : raw.troubles = x.troubles
  kind : raw.kind = x.kind
  causes : ∀ i : Fin 13, i.val < 3 → raw.causes[i] = x.causes[i]

/-- From `s`, through the zone's own event to `u`, and through the Duct Controllers' answers to `t`, the change of zone `z` to `new`. -/
structure ZoneMoved (z : Fin 16) (new : Zone) (cause : ZoneCause) (reset : Bool) (s u t : State) : Prop where
  told : Told (zoneTold z (s.zone z) new cause reset s u) s u
  zone : u.zone z = { new with troubles := (u.zone z).troubles }
  within : Within .hazard s u
  hazard : ∀ y, y ≠ z → KeepsHazard y s u
  duct : ∀ d, u.duct d =
    { s.duct d with overlays := if ductZone d = z ∧ new.level.atLeast .alarm = true then [] else (s.duct d).overlays }
  door : ∀ i, u.door i = if zoneIn s.cfg.doors[i].zones z then (s.door i).reported s.cfg.doors[i] s.tick new.level else s.door i
  arbiter : ∃ v, v.arbiter = s.arbiter ∧ v.cfg = s.cfg ∧ v.tick = s.tick ∧
    u.arbiter = (sirensReport z new.level new.acked reset v).arbiter
  after : AfterFire z u t
  rest : new.level ≠ .fire → t = u
  idle : ZonesOk s → PostedOk s → (∀ d, ActsOnZone s d z → (s.ctl d).state = .offline) → t = u
  raised : ∀ k, NoDoorKind k → ∀ y n, Raised u y k n ↔ Raised s y k n

theorem setZone_raised {z : Fin 16} {new : Zone} {s : State} (ht : new.troubles = (s.zone z).troubles) (k : TroubleKind) (y : Fin 16)
    (n : Nat) : Raised (s.setZone z new) y k n ↔ Raised s y k n := by
  unfold Raised
  by_cases hy : y = z
  · rw [hy, s.setZone_zone_self, ht]
  · rw [s.setZone_zone_ne z y new hy]

theorem doorsTold_setZone {z : Fin 16} {new : Zone} {s : State} (ht : new.troubles = (s.zone z).troubles) (level : Level) (u : State) :
    doorsTold level (s.setZone z new) u = doorsTold level s u :=
  List.flatMap_congr fun _ _ => doorToldAt_congr (s := s) (u := s.setZone z new) (t := u) (w := u) rfl rfl rfl
    (fun l y => setZone_raised ht l y _) level

theorem zoneEvent_moved {z : Fin 16} {raw : Zone} (cause : ZoneCause) (reset : Bool) {s : State} (hraw : ZoneBrought (s.zone z) raw)
    (hc : zoneChanged (s.zone z) (settleZone (s.zone z) raw reset) = true) :
    ZoneMoved z (settleZone (s.zone z) raw reset) cause reset s (zoneEvent z raw cause reset s).state
      (deliver z (zoneEvent z raw cause reset s)) := by
  have htroubles : (settleZone (s.zone z) raw reset).troubles = (s.zone z).troubles := hraw.troubles
  have hcauses : ∀ i : Fin 13, i.val < 3 → (settleZone (s.zone z) raw reset).causes[i] = (s.zone z).causes[i] := hraw.causes
  have hsound := zoneEvent_zonesOk z raw cause reset s hraw.troubles
  have hzone := zoneEvent_zone z raw cause reset s z
  rw [if_pos rfl] at hzone
  have hhazard := fun y hy => zoneEvent_hazard (y := y) z raw cause reset s hy
  have hw := zoneEvent_within z raw cause reset s
  have hraised := fun k hk => raised_zoneEvent (l := k) (z := z) (raw := raw) (s := s) hk cause reset hraw.troubles
  have htold := reportZone_told z (s.zone z) (settleZone (s.zone z) raw reset) cause reset (s.setZone z (settleZone (s.zone z) raw reset))
  obtain ⟨-, he⟩ | ⟨hn, -⟩ := zoneEvent_cases z raw cause reset s
  · have hfire : (zoneEvent z raw cause reset s).fire = decide ((settleZone (s.zone z) raw reset).level = .fire) := congrArg Posted.fire he
    have hlatch : (settleZone (s.zone z) raw reset).level = .fire → (settleZone (s.zone z) raw reset).latch = true := fun h => by
      rw [settleZone_latch, ← settleZone_level (s.zone z) raw reset, h]
      simp
    have hstate : (zoneEvent z raw cause reset s).state =
        reportZone z (s.zone z) (settleZone (s.zone z) raw reset) cause reset (s.setZone z (settleZone (s.zone z) raw reset)) :=
      congrArg Posted.state he
    have hduct := reportZone_duct z (s.zone z) (settleZone (s.zone z) raw reset) cause reset (s.setZone z (settleZone (s.zone z) raw reset))
    have hdoor := reportZone_door z (s.zone z) (settleZone (s.zone z) raw reset) cause reset (s.setZone z (settleZone (s.zone z) raw reset))
    have harbiter := reportZone_arbiter z (s.zone z) (settleZone (s.zone z) raw reset) cause reset
      (s.setZone z (settleZone (s.zone z) raw reset))
    rw [← hstate] at htold hduct hdoor harbiter
    generalize settleZone (s.zone z) raw reset = new at *
    generalize zoneEvent z raw cause reset s = r at *
    have hafter : AfterFire z r.state (deliver z r) := by
      unfold deliver
      split
      next hf =>
        have hlevel : new.level = .fire := of_decide_eq_true (hfire.symm.trans hf)
        refine fireReport_afterFire ?_
        unfold FireStands
        rw [hzone]
        exact ⟨hlevel, hlatch hlevel⟩
      next => exact .refl z _
    refine ⟨?_, hzone, hw, hhazard, hduct, hdoor, ?_, hafter, fun hl => ?_, fun hok hp hoff => ?_, hraised⟩
    · have hlist : zoneTold z (s.zone z) new cause reset (s.setZone z new) r.state = zoneTold z (s.zone z) new cause reset s r.state := by
        rw [zoneTold, zoneTold, doorsTold_setZone htroubles]
        exact congrArg (fun l => _ :: (l ++ _)) (overlaysTold_congr (s := s) (t := s.setZone z new) rfl rfl z new.level)
      rw [hlist] at htold
      exact .after (t := s.setZone z new) rfl rfl htold
    · obtain ⟨v, hv, hcfg, htick, ht⟩ := harbiter
      exact ⟨v, hv, hcfg, htick, by rw [ht]⟩
    · refine if_neg fun hf => hl ?_
      exact of_decide_eq_true (hfire.symm.trans hf)
    · have hctl (d : Fin 4) : r.state.ctl d = s.ctl d := by
        rw [State.ctl, hduct]
        rfl
      unfold deliver
      refine (congrArg (ite _ · _) (fireReport_idle (hsound hok) (fun d => ?_) fun d hd => ?_)).trans (ite_self _)
      · refine PostedAt.of_same (hp d) (hctl d) (by rw [hduct]; rfl) fun i hi => ?_
        by_cases hdz : ductZone d = z
        · rw [hdz, hzone]
          exact hcauses i hi
        · rw [(hhazard _ hdz).causes]
      · rw [hctl]
        exact hoff d ((ActsOnZone.of_cfg hw.fixed.cfg_eq d z).mp hd)
  · exact absurd (hc.symm.trans hn) nofun

/-! ### What a change shows (R6, R121, R133) -/

theorem ZoneMoved.face {z : Fin 16} {new : Zone} {cause : ZoneCause} {reset : Bool} {s u t : State}
    (h : ZoneMoved z new cause reset s u t) : SameFace new (t.zone z) := by
  refine .trans ?_ h.after.face
  rw [h.zone]
  exact ⟨rfl, rfl, rfl, rfl⟩

/-- Notices of the zone's own event are among those of the whole. -/
theorem ZoneMoved.offers {z : Fin 16} {new : Zone} {cause : ZoneCause} {reset : Bool} {s u t : State}
    (h : ZoneMoved z new cause reset s u t) {l : List Offer} (hl : l.Sublist (zoneTold z (s.zone z) new cause reset s u)) :
    OffersThese l s t := by
  obtain ⟨-, m, hm⟩ := h.after.tells
  exact (h.told.trans hm h.within.fixed.tick_eq).offersThese (hl.trans (List.sublist_append_left _ _)).subperm

theorem ZoneMoved.notified {z : Fin 16} {new : Zone} {cause : ZoneCause} {reset : Bool} {s u t : State}
    (h : ZoneMoved z new cause reset s u t) : Notified (zoneNotice z (byteOf cause.num) (s.zone z) (t.zone z)) s t := by
  obtain ⟨-, m, hm⟩ := h.after.tells
  have htold := h.told.trans hm h.within.fixed.tick_eq
  rw [zoneNotice_congr (.refl _) h.face]
  exact htold.notified

theorem ZoneMoved.doorsReported {z : Fin 16} {new : Zone} {cause : ZoneCause} {reset : Bool} {s u t : State}
    (h : ZoneMoved z new cause reset s u t) : DoorsReported z s t := by
  have hstill (i : Fin 12) (hz : zoneIn s.cfg.doors[i].zones z = true) : t.door i = u.door i := by
    by_cases hl : new.level = .fire
    · refine h.after.doors i ?_
      rw [h.door i, if_pos hz, hl]
      exact reported_fire_done _ _ _
    · rw [h.rest hl]
  refine doorsReported_of h.face.1 (fun i hz => ?_) fun i hz hne => ?_
  · rw [hstill i hz, h.door i, if_pos hz]
  · have hnotices : doorToldAt new.level s u i = doorNotices s t i (if new.level = .fire then 4 else 3) := by
      rw [← doorToldAt_congr (s := s) (u := s) (t := u) (w := t) rfl (hstill i hz) rfl (fun _ _ => .rfl) new.level]
      exact if_neg hne
    rw [← hnotices]
    refine h.offers ?_
    exact ((sublist_flatMap (List.mem_finRange i) _).trans (List.sublist_append_left _ _)).trans
      ((List.sublist_append_right _ _).trans (List.sublist_cons_self _ _))

theorem zoneDuct_ductZone (d : Fin 4) : zoneDuct (ductZone d) = some d := by
  revert d
  decide

theorem ZoneMoved.overlaysReported {z : Fin 16} {new : Zone} {cause : ZoneCause} {reset : Bool} {s u t : State}
    (h : ZoneMoved z new cause reset s u t) : OverlaysReported z s t := by
  obtain ⟨hlevel, -⟩ := h.face
  intro d hd
  have hduct := congrArg Duct.overlays (h.duct d)
  dsimp only at hduct
  rw [hlevel]
  refine ⟨fun hl => ?_, fun hl => ⟨?_, ?_⟩⟩
  · have hlow : new.level.atLeast .alarm = false := by obtain e | e := hl <;> rw [e] <;> rfl
    rw [h.rest (by rintro e; rw [e] at hl; exact hl.elim nofun nofun), hduct, if_neg (by rw [hlow]; exact fun e => Bool.false_ne_true e.2)]
  · have hhigh := (level_atLeast_alarm new.level).mpr hl
    exact h.after.overlays d (hduct.trans (if_pos ⟨hd, hhigh⟩))
  · have hhigh := (level_atLeast_alarm new.level).mpr hl
    have hlist : overlaysTold z new.level s = clearedNotices s d (s.duct d).overlays := by
      rw [overlaysTold, ← hd, zoneDuct_ductZone, hhigh]
      rfl
    rw [← hlist]
    exact h.offers ((List.sublist_append_left _ _).trans (List.sublist_cons_self _ _))

/-! ### What a change shows the Siren Arbiter (R143, R148, R151, R155) -/

theorem ZoneMoved.heard {z : Fin 16} {new : Zone} {cause : ZoneCause} {s u t : State} (h : ZoneMoved z new cause false s u t) :
    SirensHeard z new.level new.acked s u := by
  obtain ⟨v, hv, hcfg, htick, hu⟩ := h.arbiter
  obtain ⟨hview, hpointer, hsirens, hgrants, hdemands⟩ := sirensReport_heard z new.level new.acked v
  rw [hv, ← hu] at hview hpointer
  simp only [hv, ← hu, hcfg, htick] at hsirens hgrants hdemands
  exact ⟨hview, hpointer, hsirens, hgrants, hdemands⟩

theorem ZoneMoved.quiet {z : Fin 16} {new : Zone} {cause : ZoneCause} {reset : Bool} {s u t : State}
    (h : ZoneMoved z new cause reset s u t) (hok : ZonesOk s) (hp : PostedOk s) (hn : NoDuctAnswers z s t) : t = u := by
  obtain hl | hoff := hn
  · exact h.rest (h.face.1 ▸ hl)
  · exact h.idle hok hp hoff

/-- The cause of a SIREN notice at a report without a reset. -/
theorem reportSirenCause_plain {cover : ZoneMask} {z : Fin 16} {was level : Level} {a : Arbiter} {i : Fin 8} {y : Siren}
    (h : SirenHeard cover z was level a.sirens[i] y) : byteOf (reportSirenCause z level false a i y).num =
      if level.atLeast .alarm = true ∧ a.sirens[i].snapshot ≠ 0 ∧ y.snapshot = 0 then 6 else 0 := by
  unfold reportSirenCause
  cases hl : level.atLeast .alarm
  · have hnot : ¬Resounds cover z was level a.sirens[i] := by
      rintro ⟨-, ⟨⟨hr, -⟩, -⟩ | ⟨-, -, rfl⟩⟩
      · exact Bool.noConfusion (hl.symm.trans hr)
      · exact absurd hl (by decide)
    have hnone : y.snapshot = 0 → a.sirens[i].snapshot &&& ~~~(BitVec.twoPow 16 z.val) = 0 := fun he =>
      zoneMask_eq_zero fun q => Bool.eq_false_iff.mpr fun hq => by
        rw [zoneIn_clear, Bool.and_eq_true, decide_eq_true_iff] at hq
        have := (h.kept hnot q).mpr ⟨hq.1, fun e => hq.2 e.2.1⟩
        rw [he, zoneIn_zero] at this
        exact Bool.false_ne_true this
    simp only [Bool.false_eq_true, if_false, false_and, Bool.false_and]
    refine congrArg (fun c : SirenCause => byteOf c.num) (if_neg fun e => ?_)
    rw [Bool.and_eq_true, decide_eq_true_iff, decide_eq_true_iff] at e
    exact e.1 (hnone e.2)
  · simp only [if_true, Bool.false_and, Bool.false_eq_true, if_false, true_and, Bool.and_eq_true, decide_eq_true_eq]
    split <;> rfl

theorem ZoneMoved.sirensReported {z : Fin 16} {new : Zone} {cause : ZoneCause} {s u t : State}
    (h : ZoneMoved z new cause false s u t) (hok : ZonesOk s) (hp : PostedOk s) : SirensReported z s t := by
  have hheard := h.heard
  have hquiet := h.quiet hok hp
  obtain ⟨hlevel, -, -, -⟩ := h.face
  have hshows : ViewShows z u := by
    unfold ViewShows
    rw [h.zone, hheard.view]
    exact Vector.getElem_set_self _
  unfold SirensReported
  rw [hlevel]
  refine ⟨?_, h.after.pointer.trans hheard.pointer, fun i => ?_, fun hn => ?_⟩
  · rw [← hlevel]
    exact h.after.view hshows
  · have hi := hheard.sirens i
    have hafter := h.after.sirens i
    obtain ⟨hm1, hm2, hm3⟩ := hi.manual
    obtain ⟨km1, km2, km3⟩ := hafter.manual
    refine ⟨km1.trans hm1, km2.trans hm2, km3.trans hm3, fun e => hafter.silent (hi.resound e), fun hc hr => hafter.ended (hi.ended hc hr),
      fun hr => ?_, fun hn hr => ?_, fun hn hr => ?_⟩
    · have hsame := hi.clear fun e => hr e.2
      exact hafter.clear.imp (·.trans hsame) id
    · rw [hquiet hn]
      exact hi.clear hr
    · rw [hquiet hn]
      exact hi.kept hr
  · rw [hquiet hn]
    have hcauses : (fun i : Fin 8 => byteOf (reportSirenCause z new.level false s.arbiter i u.arbiter.sirens[i]).num) = fun i =>
        if new.level.atLeast .alarm = true ∧ s.arbiter.sirens[i].snapshot ≠ 0 ∧ u.arbiter.sirens[i].snapshot = 0 then 6 else 0 :=
      funext fun i => reportSirenCause_plain (hheard.sirens i)
    refine ⟨hheard.grants, ?_, hheard.demands⟩
    rw [← hcauses, ← hquiet hn]
    refine h.offers ?_
    rw [hquiet hn]
    exact (List.sublist_append_right _ _).trans ((List.sublist_append_right _ _).trans (List.sublist_cons_self _ _))

/-! ### The settled zone and what stays (R4, R5) -/

theorem ZoneMoved.staysAtZone {z : Fin 16} {new : Zone} {cause : ZoneCause} {reset : Bool} {s u t : State}
    (h : ZoneMoved z new cause reset s u t) : StaysAtZone z s t := by
  have hw := h.within.trans h.after.within
  have hwater (d : Fin 4) : KeepsWater d s u := by
    rw [KeepsWater, h.duct d]
    exact ⟨rfl, rfl, rfl, rfl, rfl⟩
  have hrest : (t.zone z).level ≠ .fire → t = u := fun hl => h.rest (h.face.1 ▸ hl)
  refine ⟨hw.fixed, hw.channels rfl, hw.stations rfl, hw.captures rfl, fun d => (hwater d).trans (h.after.water d), fun y hy hl => ?_,
    fun hl d => ?_⟩
  · by_cases hfire : (t.zone z).level = .fire
    · exact (h.hazard y hy).trans (h.after.hazard y hy (hl.resolve_left (not_not.mpr hfire)))
    · rw [hrest hfire]
      exact h.hazard y hy
  · rw [hrest hl, h.duct d]
    refine ⟨fun hd => ?_, rfl⟩
    rw [if_neg fun e => hd e.1]

theorem setZone_staysAtZone (z : Fin 16) (new : Zone) (s : State) : StaysAtZone z s (s.setZone z new) :=
  ⟨.refl s, rfl, rfl, rfl, fun d => .refl d s, fun y hy _ => by
    unfold KeepsHazard
    rw [s.setZone_zone_ne z y new hy], fun _ _ => ⟨fun _ => rfl, rfl⟩⟩

theorem num_lt_iff_above (a b : Level) : b.above a = true ↔ a.num < b.num := decide_eq_true_iff

theorem settleZone_settled {old raw : Zone} (reset : Bool) (hk : raw.kind = old.kind) :
    SettledTo old raw (settleZone old raw reset) reset := by
  have hlevel : (settleZone old raw reset).level = deriveLevel raw.latch raw.causes := rfl
  have hacked : (settleZone old raw reset).acked = if ((settleZone old raw reset).level.above old.level ||
      (old.level.above (settleZone old raw reset).level && decide ((settleZone old raw reset).level = .normal)) || reset) then AckSet.none
    else raw.acked := rfl
  have htag := settleZone_tag old raw reset
  have hlatch := settleZone_latch old raw reset
  have hkind : (settleZone old raw reset).kind = raw.kind := rfl
  rw [← hlevel] at hlatch
  generalize settleZone old raw reset = new at *
  refine ⟨hlevel, ?_, ?_, ?_, hkind.trans hk⟩
  · rw [hlatch, Bool.or_eq_true, decide_eq_true_iff]
  · rw [hacked]
    refine if_congr ?_ rfl rfl
    rw [Bool.or_eq_true, Bool.or_eq_true, Bool.and_eq_true, decide_eq_true_iff, num_lt_iff_above, num_lt_iff_above, or_assoc]
    refine or_congr_right (or_congr_left ⟨fun ⟨h1, h2⟩ => ⟨h2, fun e => ?_⟩, fun ⟨h1, h2⟩ => ⟨?_, h1⟩⟩)
    · rw [h2, e] at h1
      exact lt_irrefl _ h1
    · rw [h1]
      cases ho : old.level
      case normal => exact absurd ho h2
      all_goals decide
  · rw [htag]
    refine if_congr ?_ rfl rfl
    simp [zoneChanged, or_assoc]

theorem SettledTo.of_face {old raw new t : Zone} {reset : Bool} (h : SettledTo old raw new reset) (hf : SameFace new t)
    (hk : t.kind = new.kind) : SettledTo old raw t reset := by
  obtain ⟨hlevel, hlatch, hacked, htag⟩ := hf
  unfold SettledTo at h ⊢
  rw [hlevel, hlatch, hacked, htag, hk]
  exact h

/-- The event of a zone with all that it brings about. -/
structure ZoneEnds (z : Fin 16) (raw : Zone) (cause : ZoneCause) (reset : Bool) (s t : State) : Prop where
  settled : SettledTo (s.zone z) raw (t.zone z) reset
  causes : ∀ i : Fin 13, 3 ≤ i.val ∨ 4 ≤ z.val ∨ (t.zone z).level ≠ .fire → (t.zone z).causes[i] = raw.causes[i]
  stays : StaysAtZone z s t
  inputs : t.inputs = s.inputs
  links : KeepsLinks s t
  moved : (t.zone z).tag ≠ (s.zone z).tag → ∃ u, ZoneMoved z (settleZone (s.zone z) raw reset) cause reset s u t
  still : (t.zone z).tag = (s.zone z).tag → t = s.setZone z (settleZone (s.zone z) raw reset)
  raised : ∀ y n, Raised t y .inputFault n ↔ Raised s y .inputFault n

theorem zoneEvent_ends {z : Fin 16} {raw : Zone} (cause : ZoneCause) (reset : Bool) {s : State} (hraw : ZoneBrought (s.zone z) raw) :
    ZoneEnds z raw cause reset s (deliver z (zoneEvent z raw cause reset s)) := by
  have hsettled := settleZone_settled (old := s.zone z) reset hraw.kind
  have htag := settleZone_tag (s.zone z) raw reset
  have hcauses : (settleZone (s.zone z) raw reset).causes = raw.causes := rfl
  cases hc : zoneChanged (s.zone z) (settleZone (s.zone z) raw reset)
  · rw [hc, if_neg Bool.false_ne_true] at htag
    have hstate : deliver z (zoneEvent z raw cause reset s) = s.setZone z (settleZone (s.zone z) raw reset) := by
      obtain ⟨h, -⟩ | ⟨-, h⟩ := zoneEvent_cases z raw cause reset s
      · exact absurd (hc.symm.trans h) Bool.false_ne_true
      · rw [h]
        rfl
    rw [hstate]
    have hself := s.setZone_zone_self z (settleZone (s.zone z) raw reset)
    refine ⟨by rw [hself]; exact hsettled, fun i _ => by rw [hself, hcauses], setZone_staysAtZone _ _ _, rfl, .refl s,
      fun h => absurd (by rw [hself]; exact htag) h, fun _ => rfl, fun y n =>
        setZone_raised (new := settleZone (s.zone z) raw reset) hraw.troubles _ y n⟩
  · rw [hc, if_pos rfl] at htag
    have hmoved := zoneEvent_moved cause reset hraw hc
    have hw := hmoved.within.trans hmoved.after.within
    have hkind : ((deliver z (zoneEvent z raw cause reset s)).zone z).kind = (settleZone (s.zone z) raw reset).kind := by
      rw [hmoved.after.kind, hmoved.zone]
    refine ⟨hsettled.of_face hmoved.face hkind, fun i hi => ?_, hmoved.staysAtZone, hw.inputs rfl, hw.links, fun _ => ⟨_, hmoved⟩,
      fun h => ?_, fun y n => (hmoved.after.raised y n).trans (hmoved.raised _ ⟨by decide, by decide⟩ y n)⟩
    · have hu : ((zoneEvent z raw cause reset s).state.zone z).causes = raw.causes := by
        rw [hmoved.zone]
        exact hcauses
      rw [← hu]
      obtain hi | hi | hi := hi
      · exact hmoved.after.causes i (.inl hi)
      · exact hmoved.after.causes i (.inr hi)
      · rw [hmoved.rest (hmoved.face.1 ▸ hi)]
    · obtain ⟨-, -, -, hface⟩ := hmoved.face
      have : (s.zone z).tag + 1 = (s.zone z).tag := htag.symm.trans (hface.symm.trans h)
      exact absurd this (by simp)

end Sys2Proof.Machine
end

