-- ==== Sys2Proof/Proofs/ZoneSettling.lean ====
section
/-! PROOFS. The requests that acknowledge and reset a zone (R8, R11), with their reports and notices. -/

namespace Sys2Proof.Machine

open Sys2Proof

/-! ### What an answer leaves of a report -/

theorem StaysAtZone.answered {z : Fin 16} {p : Port} {s t : State} (h : StaysAtZone z (frameTaken p s) t) (r : Response) :
    StaysAtZone z s (issue p r t) := h

theorem Notified.answered {o : Offer} {p : Port} {s t : State} (h : Notified o (frameTaken p s) t) (r : Response) :
    Notified o (s.answered p r) (issue p r t) := by
  obtain ⟨l, h⟩ := h
  exact ⟨l, Told.answered h r⟩

theorem DoorsReported.answered {z : Fin 16} {p : Port} {s t : State} (h : DoorsReported z (frameTaken p s) t) (r : Response) :
    DoorsReported z (s.answered p r) (issue p r t) := fun i hi => by
  obtain ⟨h1, h2, h3, h4, h5⟩ := h i hi
  exact ⟨h1, h2, h3, h4, fun hne => (h5 hne).answered r⟩

theorem OverlaysReported.answered {z : Fin 16} {p : Port} {s t : State} (h : OverlaysReported z (frameTaken p s) t) (r : Response) :
    OverlaysReported z (s.answered p r) (issue p r t) := fun d hd => by
  obtain ⟨h1, h2⟩ := h d hd
  refine ⟨h1, fun hl => ?_⟩
  obtain ⟨hempty, htold⟩ := h2 hl
  exact ⟨hempty, (clearedNotices_of_cfg (s := s) (t := s.answered p r) rfl d _ ▸
    clearedNotices_of_cfg (s := s) (t := frameTaken p s) rfl d _ ▸ htold).answered r⟩

theorem SirensReported.answered {z : Fin 16} {p : Port} {s t : State} (h : SirensReported z (frameTaken p s) t) (r : Response) :
    SirensReported z (s.answered p r) (issue p r t) := by
  obtain ⟨hview, hpointer, hsirens, hrest⟩ := h
  refine ⟨hview, hpointer, hsirens, fun hn => ?_⟩
  obtain ⟨hgrants, htold, hdemands⟩ := hrest hn
  exact ⟨hgrants, htold.answered r, hdemands⟩

theorem zoneOperand_byteOf (z : Fin 16) : zoneOperand (byteOf z.val) = some z := indexBelow_byteOf (by decide) z

theorem zoneAnswer_eq (s : State) (z : Fin 16) : zoneAnswer s z = byteOf (s.zone z).level.num :: le16 (s.zone z).tag := rfl

/-! ### The requests that carry a tag (R8, R11) -/

/-- An acknowledgement of a zone above NORMAL by a port that had not acknowledged (R5, R8). -/
theorem ackZone_left {p : Port} {z : Fin 16} {s : State} (hp : p ≠ .sv) (hok : ZonesOk s) (hl : (s.zone z).level ≠ .normal)
    (hnew : (s.zone z).acked.has p = false) :
    let x := s.zone z
    let t := ackZone z p s
    ZoneEnds z { x with acked := x.acked.add p } .acknowledge false s t ∧ (t.zone z).level = x.level ∧ (t.zone z).latch = x.latch ∧
      (t.zone z).tag = x.tag + 1 ∧ (t.zone z).acked = ⟨x.acked.fp || decide (p = .fp), x.acked.pc || decide (p = .pc)⟩ := by
  intro x t
  have ht : t = deliver z (zoneEvent z { x with acked := x.acked.add p } .acknowledge false s) := if_neg (by
    rintro (h | h)
    · exact hl h
    · exact Bool.false_ne_true (hnew.symm.trans h))
  have hends : ZoneEnds z { x with acked := x.acked.add p } .acknowledge false s t :=
    ht ▸ zoneEvent_ends .acknowledge false ⟨rfl, rfl, fun _ _ => rfl⟩
  obtain ⟨hsound, hderived, -⟩ := hok z
  obtain ⟨hlevel, hlatch, hacked, htag, -⟩ := hends.settled
  have hlevel : (t.zone z).level = x.level := hlevel.trans hderived.symm
  have hlatch : (t.zone z).latch = x.latch := Bool.eq_iff_iff.mpr (by
    rw [hlatch, hlevel]
    exact or_iff_left_of_imp hsound.mpr)
  have hacked : (t.zone z).acked = x.acked.add p := by
    refine hacked.trans (if_neg ?_)
    rw [hlevel]
    rintro (h | ⟨h, -⟩ | h)
    · exact lt_irrefl _ h
    · exact hl h
    · exact Bool.false_ne_true h
  have hadd : x.acked.add p = ⟨x.acked.fp || decide (p = .fp), x.acked.pc || decide (p = .pc)⟩ := by
    cases p
    case sv => exact absurd rfl hp
    case fp => simp [AckSet.add]
    case pc => simp [AckSet.add]
  have hrise : x.acked.add p ≠ x.acked := fun e => by
    cases p
    case sv => exact hp rfl
    case fp => exact Bool.false_ne_true (hnew.symm.trans (congrArg AckSet.fp e).symm)
    case pc => exact Bool.false_ne_true (hnew.symm.trans (congrArg AckSet.pc e).symm)
  refine ⟨hends, hlevel, hlatch, htag.trans (if_pos (.inr (.inr ?_))), hacked.trans hadd⟩
  rw [hacked]
  exact hrise

theorem tag_succ_ne (t : Word16) : t + 1 ≠ t := by simp

/-- Settles O28: the three answers of ACK_ZONE, and the acknowledgement. -/
theorem ackZoneRecordsThePort : Obligations.AckZoneRecordsThePort := by
  intro p n z tag s hp ht hrun hok x
  have hreply : ackZoneReply p (byteOf z.val) tag (frameTaken p s) = if tag ≠ x.tag then refuseStale (frameTaken p s) z
      else accept (zoneAnswer (ackZone z p (frameTaken p s)) z) (ackZone z p (frameTaken p s)) := by
    rw [ackZoneReply, if_neg hp, zoneOperand_byteOf]
    refine if_congr .rfl rfl (if_neg ?_)
    rw [Bool.not_eq_true', Bool.not_eq_false]
    exact hrun
  refine ⟨fun hne => ?_, fun he hq => ?_, fun he hl hnew => ?_⟩
  · exact serve_refuses ht codeAckZone n (hreply.trans (if_pos hne))
  · have hsame : ackZone z p (frameTaken p s) = frameTaken p s := if_pos hq
    rw [if_neg (not_not.mpr he), hsame] at hreply
    exact (serve_accepts ht codeAckZone n hreply).trans (congrArg Host.Outcome.next (issue_frameTaken p _ s))
  · rw [if_neg (not_not.mpr he)] at hreply
    obtain ⟨hends, hlevel, hlatch, htag, hacked⟩ := ackZone_left (z := z) (s := frameTaken p s) hp hok hl hnew
    generalize ackZone z p (frameTaken p s) = t at hends hlevel hlatch htag hacked hreply
    rw [zoneAnswer_eq, hlevel, htag] at hreply
    obtain ⟨u, hmoved⟩ := hends.moved (by rw [htag]; exact tag_succ_ne _)
    refine ⟨_, serve_accepts ht codeAckZone n hreply, hends.links.answers _, hlevel, hlatch, htag, hacked, ?_, fun hc => ?_, hends.inputs,
      hends.stays.answered _, hmoved.notified.answered _, fun hpost => ?_⟩
    · exact hends.settled.2.2.2.2
    · refine Vector.ext fun i hi => hends.causes ⟨i, hi⟩ ?_
      exact hc.elim (fun h => .inr (.inr (by rw [hlevel]; exact h))) fun h => .inr (.inl h)
    · exact (hmoved.sirensReported hok hpost).answered _

/-! ### A reset at the Siren Arbiter (R148, R155) -/

/-- A siren below ALARM keeps its snapshot but for the zone, and its all-clear starts or is extended by a reset. -/
theorem reportSiren_reset {z : Fin 16} {was level : Level} (hl : level.atLeast .alarm = false) (ends : Tick) (x : Siren) :
    (reportSiren z was level true ends x).snapshot = x.snapshot &&& ~~~(BitVec.twoPow 16 z.val) ∧
      (reportSiren z was level true ends x).allClear = some (match x.allClear with
        | none => ends
        | some e => if Tick.later ends e then ends else e) := by
  have hfire : level ≠ .fire := by
    rintro rfl
    exact absurd hl (by decide)
  unfold reportSiren laterTick
  dsimp only
  rw [hl]
  refine ⟨if_neg (by simp [hfire]), ?_⟩
  cases x.allClear <;> rfl

/-- The cause of a SIREN notice at the report of a reset. -/
theorem reportSirenCause_reset {covers : Bool} {z : Fin 16} {was level : Level} {ends : Tick} {a : Arbiter} {i : Fin 8} {y : Siren}
    (h : y.snapshot = (if covers then reportSiren z was level true ends a.sirens[i] else a.sirens[i]).snapshot) :
    byteOf (reportSirenCause z level true a i y).num =
      if level.atLeast .alarm = true ∧ a.sirens[i].snapshot ≠ 0 ∧ y.snapshot = 0 then 6
      else if level.atLeast .alarm = false ∧ y.demand = some .allClear then 2 else 0 := by
  unfold reportSirenCause
  cases hl : level.atLeast .alarm
  · have hnone : y.snapshot = 0 → a.sirens[i].snapshot &&& ~~~(BitVec.twoPow 16 z.val) = 0 := fun he => by
      rw [h] at he
      cases covers
      · rw [show a.sirens[i].snapshot = 0 from he]
        exact BitVec.zero_and
      · exact (reportSiren_reset hl _ _).1.symm.trans he
    have hkept : ¬(a.sirens[i].snapshot &&& ~~~(BitVec.twoPow 16 z.val) ≠ 0 ∧ y.snapshot = 0) := fun e => e.1 (hnone e.2)
    simp only [Bool.false_eq_true, if_false, false_and, Bool.not_false, Bool.true_and, true_and, Bool.and_eq_true, decide_eq_true_eq,
      if_neg hkept]
    split <;> rfl
  · simp only [if_true, true_and, Bool.and_eq_true, decide_eq_true_eq, Bool.not_true, Bool.and_false, Bool.false_and,
      Bool.false_eq_true, if_false, reduceCtorEq, false_and]
    split <;> rfl

/-- A reset of a latched zone without a FIRE cause (R5, R11). -/
theorem resetZone_left {z : Fin 16} {s : State} (hlatched : (s.zone z).latch = true) (hcool : ∀ i : Fin 13, (s.zone z).causes[i] ≠ .fire) :
    let x := s.zone z
    let t := resetZone z s
    ZoneEnds z { x with latch := false, acked := AckSet.none } .reset true s t ∧ (t.zone z).level = causesLevel x.causes ∧
      (t.zone z).level ≠ .fire ∧ (t.zone z).latch = false ∧ (t.zone z).tag = x.tag + 1 ∧ (t.zone z).acked = ⟨false, false⟩ := by
  intro x t
  have hends : ZoneEnds z { x with latch := false, acked := AckSet.none } .reset true s t :=
    zoneEvent_ends .reset true ⟨rfl, rfl, fun _ _ => rfl⟩
  obtain ⟨hlevel, hlatch, hacked, htag, -⟩ := hends.settled
  have hfire : (t.zone z).level ≠ .fire := fun e => by
    obtain ⟨i, hi⟩ := causesLevel_fire.mp (hlevel.symm.trans e)
    exact hcool i hi
  have hclear : (t.zone z).latch = false := Bool.eq_false_iff.mpr fun e => (hlatch.mp e).elim nofun hfire
  refine ⟨hends, hlevel, hfire, hclear, htag.trans (if_pos (.inr (.inl ?_))), hacked.trans (if_pos (.inr (.inr rfl)))⟩
  rw [hclear, hlatched]
  nofun

theorem ZoneMoved.resetHeard {z : Fin 16} {new : Zone} {cause : ZoneCause} {s u t : State} (h : ZoneMoved z new cause true s u t) :
    ∀ i : Fin 8, SameContributions (if zoneIn s.cfg.sirens[i].cover z then reportSiren z s.arbiter.view[z].level new.level true
      (s.tick.plus (4000 * s.cfg.allClearTime)) s.arbiter.sirens[i] else s.arbiter.sirens[i]) u.arbiter.sirens[i] := by
  obtain ⟨v, hv, hcfg, htick, hu⟩ := h.arbiter
  obtain ⟨-, -, -, hsirens⟩ := sirensReport_settled z new.level new.acked true v
  simp only [hv, ← hu, hcfg, htick] at hsirens
  exact fun i => (hsirens i).1

/-- Settles O30: the three answers of RESET_ZONE, and the reset. -/
theorem resetZoneClearsTheLatch : Obligations.ResetZoneClearsTheLatch := by
  intro n z tag s ht hrun hok x newEnd
  have hreply : resetZoneReply .fp (byteOf z.val) tag (frameTaken .fp s) = if tag ≠ x.tag then refuseStale (frameTaken .fp s) z
      else if !s.isRunning || !x.latch || fireCause x then refuse .notNow (frameTaken .fp s)
      else accept (zoneAnswer (resetZone z (frameTaken .fp s)) z) (resetZone z (frameTaken .fp s)) := by
    rw [resetZoneReply, if_neg (not_not.mpr rfl), zoneOperand_byteOf]
    rfl
  have hforbidden := resetZoneForbidden_iff s z
  refine ⟨fun hne => ?_, fun he hq => ?_, fun he hlatched hcool => ?_⟩
  · exact serve_refuses ht codeResetZone n (hreply.trans (if_pos hne))
  · rw [if_neg (not_not.mpr he), if_pos (hforbidden.mpr (.inr hq))] at hreply
    exact serve_refuses ht codeResetZone n hreply
  · have hfree : ¬(!s.isRunning || !x.latch || fireCause x) = true := fun h => by
      obtain h | h | ⟨i, h⟩ := hforbidden.mp h
      · exact Bool.noConfusion (h.symm.trans hrun)
      · exact Bool.noConfusion (h.symm.trans hlatched)
      · exact hcool i h
    rw [if_neg (not_not.mpr he), if_neg hfree] at hreply
    obtain ⟨hends, hlevel, hfire, hlatch, htag, hacked⟩ := resetZone_left (z := z) (s := frameTaken .fp s) hlatched hcool
    generalize resetZone z (frameTaken .fp s) = t at hends hlevel hfire hlatch htag hacked hreply
    rw [zoneAnswer_eq, htag] at hreply
    obtain ⟨u, hmoved⟩ := hends.moved (by rw [htag]; exact tag_succ_ne _)
    obtain ⟨hface, -⟩ := hmoved.face
    have hu : t = u := hmoved.rest (hface ▸ hfire)
    have hheard := hmoved.resetHeard
    have hoffers : OffersThese (sirensTold (frameTaken .fp s).arbiter u.arbiter (fun i => byteOf (reportSirenCause z _ true
        (frameTaken .fp s).arbiter i u.arbiter.sirens[i]).num) 7) (frameTaken .fp s) t :=
      hmoved.offers ((List.sublist_append_right _ _).trans ((List.sublist_append_right _ _).trans (List.sublist_cons_self _ _)))
    rw [← hface, ← hu] at hoffers hheard
    refine ⟨_, serve_accepts ht codeResetZone n hreply, hends.links.answers _, hlatch, hlevel, hfire, htag, hacked, ?_,
      hends.settled.2.2.2.2, hends.inputs, hends.stays.answered _, ⟨hmoved.notified.answered _, hmoved.doorsReported.answered _, ?_⟩,
      fun hlow i hc => ?_⟩
    · exact Vector.ext fun i hi => hends.causes ⟨i, hi⟩ (.inr (.inr hfire))
    · have hcauses := funext fun i : Fin 8 => reportSirenCause_reset (z := z) (level := (t.zone z).level) (a := (frameTaken .fp s).arbiter)
        (y := t.arbiter.sirens[i]) (hheard i).2.2.1
      rw [hcauses] at hoffers
      exact hoffers.answered _
    · have hlow : (t.zone z).level.atLeast .alarm = false := by
        obtain e | e := hlow
        all_goals
          rw [show (t.zone z).level = _ from e]
          rfl
      have hi := hheard i
      rw [if_pos (show zoneIn (frameTaken .fp s).cfg.sirens[i].cover z = true from hc)] at hi
      obtain ⟨-, -, -, hclear, -⟩ := hi
      exact hclear.trans (reportSiren_reset hlow _ _).2

end Sys2Proof.Machine
end

