-- ==== Sys2Proof/Proofs/InputSamples.lean ====
section
/-! PROOFS. The samples of the contact inputs (R17 to R20): which of the two commands takes one, and the posting that an accepted state
makes (R19). -/

namespace Sys2Proof.Machine

open Sys2Proof

/-! ### A posting (R3) -/

/-- A posting that is not one of the zone's Duct Controller. -/
theorem postZone_ends {z : Fin 16} {key : CauseKey} (hkey : 3 ≤ key.ix.val) (l : Level) (s : State) :
    ZoneEnds z { s.zone z with causes := (s.zone z).causes.set key.ix l } key.cause false s (postZone z key l s) :=
  zoneEvent_ends key.cause false ⟨rfl, rfl, fun i hi => Vector.getElem_set_ne key.ix.isLt i.isLt (by omega)⟩

theorem ZoneEnds.causeSet {z : Fin 16} {key : CauseKey} {l : Level} {cause : ZoneCause} {reset : Bool} {s t : State}
    (h : ZoneEnds z { s.zone z with causes := (s.zone z).causes.set key.ix l } cause reset s t) (hkey : 3 ≤ key.ix.val) :
    CauseSet z key l s t := by
  refine ⟨(h.causes key.ix (.inl hkey)).trans (Vector.getElem_set_self _), fun i hne hi => (h.causes i hi).trans ?_⟩
  exact Vector.getElem_set_ne key.ix.isLt i.isLt fun e => hne (Fin.ext e.symm)

theorem ZoneEnds.tells {z : Fin 16} {raw : Zone} {cause : ZoneCause} {reset : Bool} {s t : State} (h : ZoneEnds z raw cause reset s t) :
    Tells s t := by
  refine ⟨h.stays.1.tick_eq, ?_⟩
  by_cases htag : (t.zone z).tag = (s.zone z).tag
  · exact ⟨[], .of_ports (by rw [h.still htag]; rfl)⟩
  · obtain ⟨u, hmoved⟩ := h.moved htag
    obtain ⟨-, m, hm⟩ := hmoved.after.tells
    exact ⟨_, hmoved.told.trans hm hmoved.within.fixed.tick_eq⟩

/-! ### More notices after a report -/

theorem OffersThese.more {l : List Offer} {s t w : State} (h : OffersThese l s t) (ht : t.tick = s.tick) (k : Tells t w) :
    OffersThese l s w := by
  obtain ⟨more, os, hperm, htold⟩ := h
  obtain ⟨-, m, hm⟩ := k
  refine ⟨more ++ m, os ++ m, ?_, Told.trans htold hm ht⟩
  rw [← List.append_assoc]
  exact hperm.append_right m

theorem OffersThese.before {l : List Offer} {s t w : State} (k : Tells s t) (h : OffersThese l t w) : OffersThese l s w := by
  obtain ⟨more, os, hperm, htold⟩ := h
  obtain ⟨ht, m, hm⟩ := k
  refine ⟨more ++ m, m ++ os, ?_, Told.trans hm htold ht⟩
  rw [← List.append_assoc]
  exact List.perm_append_comm.trans (hperm.append_right m)

/-- A later part of an event that leaves the zones' hazards, the doors, the ducts and the sirens of a report as they are. -/
structure ReportKept (t w : State) : Prop where
  tells : Tells t w
  hazards : KeepsHazards t w
  within : Within .troubles t w

theorem ReportKept.face {t w : State} (k : ReportKept t w) (z : Fin 16) : SameFace (t.zone z) (w.zone z) := (k.hazards z).sameFace

theorem DoorsReported.more {z : Fin 16} {s t w : State} (h : DoorsReported z s t) (ht : t.tick = s.tick) (k : ReportKept t w) :
    DoorsReported z s w := fun i hi => by
  obtain ⟨h1, h2, h3, h4, h5⟩ := h i hi
  have hdoor : w.door i = t.door i := State.door_eq_of_doors (k.within.doors rfl) i
  have hnotices (c : Byte) : doorNotices s w i c = doorNotices s t i c := by unfold doorNotices; rw [hdoor]
  rw [hnotices, hdoor, (k.face z).1]
  exact ⟨h1, h2, h3, h4, fun hne => (h5 hne).more ht k.tells⟩

theorem OverlaysReported.more {z : Fin 16} {s t w : State} (h : OverlaysReported z s t) (ht : t.tick = s.tick) (k : ReportKept t w) :
    OverlaysReported z s w := fun d hd => by
  obtain ⟨h1, h2⟩ := h d hd
  rw [State.duct_eq_of_ducts (k.within.ducts rfl) d, (k.face z).1]
  exact ⟨h1, fun hl => ⟨(h2 hl).1, (h2 hl).2.more ht k.tells⟩⟩

/-- Overlays, settings, clock and ports of two states are the same. -/
theorem OverlaysReported.since {z : Fin 16} {s u t : State} (h : OverlaysReported z u t) (hc : u.cfg = s.cfg) (hd : u.ducts = s.ducts)
    (hp : u.ports = s.ports) (ht : u.tick = s.tick) : OverlaysReported z s t := fun d hz => by
  obtain ⟨h1, h2⟩ := h d hz
  rw [State.duct_eq_of_ducts hd d] at h1 h2
  exact ⟨h1, fun hl => ⟨(h2 hl).1, OffersThese.before ⟨ht, [], .of_ports hp⟩ (clearedNotices_of_cfg hc d _ ▸ (h2 hl).2)⟩⟩

theorem SirensReported.more {z : Fin 16} {s t w : State} (h : SirensReported z s t) (ht : t.tick = s.tick) (k : ReportKept t w) :
    SirensReported z s w := by
  obtain ⟨hview, hpointer, hsirens, hrest⟩ := h
  obtain ⟨hlevel, -, hacked, -⟩ := k.face z
  have hnone : NoDuctAnswers z s w ↔ NoDuctAnswers z s t := by rw [NoDuctAnswers, NoDuctAnswers, hlevel]
  unfold SirensReported
  rw [k.within.arbiter rfl, hlevel, hacked, hnone]
  refine ⟨hview, hpointer, hsirens, fun hn => ?_⟩
  obtain ⟨hgrants, htold, hdemands⟩ := hrest hn
  exact ⟨hgrants, htold.more ht k.tells, hdemands⟩

theorem Notified.more {o : Offer} {s t w : State} (h : Notified o s t) (ht : t.tick = s.tick) (k : Tells t w) : Notified o s w := by
  obtain ⟨l, h⟩ := h
  obtain ⟨-, m, hm⟩ := k
  exact ⟨l ++ m, Told.trans h hm ht⟩

/-! ### INPUT_FAULT (R19) -/

theorem ReportKept.of_local {l : List Offer} {s t : State} (hl : Local [] 0 s t) (hw : Within .troubles s t) (h : Told l s t) :
    ReportKept s t := ⟨⟨hw.fixed.tick_eq, l, h⟩, hl.hazards, hw⟩

/-- INPUT_FAULT once an input's accepted state has changed. -/
def inputTrouble (i : Fin 8) (z : Fin 16) (old new : Sensed) (s : State) : State :=
  if new = .fault then raiseTrouble z .inputFault i.val s
  else if old = .fault then clearTrouble z .inputFault i.val s
  else s

theorem inputAcceptedEvent_eq (i : Fin 8) (z : Fin 16) (sensed : Sensed) (s : State) :
    inputAcceptedEvent i z sensed s = inputTrouble i z (s.input i).accepted sensed (postZone z (.input i)
      (inputLevel s.cfg.inputs[i] sensed) (s.setInput i ((s.input i).sampled s.cfg.inputs[i].debounce sensed))) := rfl

/-- The notices of INPUT_FAULT. -/
def inputTroubles (s : State) (i : Fin 8) (z : Fin 16) (old new : Sensed) : List Offer :=
  if new = .fault then raiseNotices s z .inputFault i.val
  else if old = .fault then clearNotices s z .inputFault i.val else []

theorem inputTroubles_congr {s t : State} {i : Fin 8} {z : Fin 16} (h : Raised t z .inputFault i.val ↔ Raised s z .inputFault i.val)
    (old new : Sensed) : inputTroubles t i z old new = inputTroubles s i z old new := by
  rw [inputTroubles, inputTroubles, raiseNotices_congr h, clearNotices_congr h]

theorem inputTrouble_kept (i : Fin 8) (z : Fin 16) (old new : Sensed) (s : State) :
    ReportKept s (inputTrouble i z old new s) ∧ Told (inputTroubles s i z old new) s (inputTrouble i z old new s) := by
  unfold inputTrouble inputTroubles
  split
  · exact ⟨.of_local (raiseTrouble_local 0 z _ _ s) (raiseTrouble_within z _ _ s) (raiseTrouble_told z _ _ s), raiseTrouble_told z _ _ s⟩
  split
  · exact ⟨.of_local (clearTrouble_local 0 z _ _ s) (clearTrouble_within z _ _ s) (clearTrouble_told z _ _ s), clearTrouble_told z _ _ s⟩
  · exact ⟨.of_local (.refl _ 0 s) (.refl _ s) (.refl s), .refl s⟩

theorem inputTrouble_raised (i : Fin 8) (z : Fin 16) {old new : Sensed} {s : State} (hok : ZonesOk s) (hne : new ≠ old) :
    (new = .fault → Raised (inputTrouble i z old new s) z .inputFault i.val) ∧
      (old = .fault → ¬Raised (inputTrouble i z old new s) z .inputFault i.val) := by
  refine ⟨fun h => ?_, fun h => ?_⟩
  · rw [inputTrouble, if_pos h]
    exact raised_raiseTrouble z _ _ s
  · rw [inputTrouble, if_neg fun e => hne (e.trans h.symm), if_pos h]
    exact clearTrouble_kind hok

/-! ### Beside the zone -/

theorem StaysAtZone.more {z : Fin 16} {s t w : State} (h : StaysAtZone z s t) (k : ReportKept t w) : StaysAtZone z s w := by
  obtain ⟨hfixed, hchannels, hstations, hcaptures, hwater, hothers, hducts⟩ := h
  have hduct (d : Fin 4) : w.duct d = t.duct d := State.duct_eq_of_ducts (k.within.ducts rfl) d
  refine ⟨hfixed.trans k.within.fixed, (k.within.channels rfl).trans hchannels, (k.within.stations rfl).trans hstations,
    (k.within.captures rfl).trans hcaptures, fun d => ?_, fun y hy hl => ?_, fun hl d => ?_⟩
  · exact (hwater d).trans (by unfold KeepsWater; rw [hduct d]; exact ⟨rfl, rfl, rfl, rfl, rfl⟩)
  · rw [k.hazards.level] at hl
    exact (hothers y hy hl).trans (k.hazards y)
  · rw [k.hazards.level] at hl
    rw [hduct d]
    exact hducts hl d

theorem SettledTo.more {z : Fin 16} {old raw : Zone} {reset : Bool} {t w : State} (h : SettledTo old raw (t.zone z) reset)
    (k : ReportKept t w) : SettledTo old raw (w.zone z) reset :=
  h.of_face (k.face z) (by rw [show w.zone z = _ from k.hazards z])

theorem CauseSet.more {z : Fin 16} {key : CauseKey} {l : Level} {s t w : State} (h : CauseSet z key l s t) (k : ReportKept t w) :
    CauseSet z key l s w := by
  unfold CauseSet
  rw [k.hazards.causes, k.hazards.level]
  exact h

/-! ### The accepted state (R18, R19) -/

theorem inputAccepts_iff (debounce : Nat) (x : Input) (sensed : Sensed) :
    inputAccepts debounce x sensed = true ↔ sensed ≠ x.accepted ∧ x.candidate = some sensed ∧ debounce ≤ x.stable + 1 := by
  simp [inputAccepts, and_assoc]

theorem inputLevel_eq (c : InputCfg) (sensed : Sensed) : inputLevel c sensed = if sensed = .active then c.level else .normal := by
  cases sensed <;> rfl

/-- An accepted state with its posting, its report and its trouble. -/
theorem inputAcceptedEvent_ends {i : Fin 8} {z : Fin 16} {now : Sensed} {s : State} (hok : ZonesOk s)
    (hacc : acceptsNow s i now = true) :
    let x := s.input i
    let level := if now = .active then s.cfg.inputs[i].level else .normal
    let t := inputAcceptedEvent i z now s
    t.input i = ⟨now, none, 0⟩ ∧ (∀ j : Fin 8, j ≠ i → t.input j = s.input j) ∧
      SettledTo (s.zone z) { s.zone z with causes := (s.zone z).causes.set (CauseKey.input i).ix level } (t.zone z) false ∧
      CauseSet z (.input i) level s t ∧ (now = .fault → Raised t z .inputFault i.val) ∧
      (x.accepted = .fault → ¬Raised t z .inputFault i.val) ∧ KeepsLinks s t ∧ StaysAtZone z s t ∧
      (OffersThese (inputTroubles s i z x.accepted now) s t ∧
        ((t.zone z).tag = (s.zone z).tag → OffersAll (inputTroubles s i z x.accepted now) s t)) ∧
      ((t.zone z).tag ≠ (s.zone z).tag → Notified (zoneNotice z 3 (s.zone z) (t.zone z)) s t ∧ DoorsReported z s t ∧
        OverlaysReported z s t ∧ (PostedOk s → SirensReported z s t)) := by
  intro x level t
  have hkey : 3 ≤ (CauseKey.input i).ix.val := Nat.le_add_right 3 i.val
  obtain ⟨hne, -⟩ := (inputAccepts_iff _ _ _).mp hacc
  have hsampled : (s.input i).sampled s.cfg.inputs[i].debounce now = ⟨now, none, 0⟩ := by
    rw [Input.sampled, if_neg hne]
    exact if_pos hacc
  have ht : t = inputTrouble i z x.accepted now (postZone z (.input i) level (s.setInput i ⟨now, none, 0⟩)) := by
    rw [← hsampled]
    exact (inputAcceptedEvent_eq i z now s).trans (by rw [inputLevel_eq])
  have hends := postZone_ends (z := z) hkey level (s.setInput i ⟨now, none, 0⟩)
  have hokv : ZonesOk (postZone z (.input i) level (s.setInput i ⟨now, none, 0⟩)) :=
    (postZone_sound hkey level _).zones ((setInput_sound i _ s).zones hok)
  obtain ⟨hkept, htold⟩ := inputTrouble_kept i z x.accepted now (postZone z (.input i) level (s.setInput i ⟨now, none, 0⟩))
  obtain ⟨hraised, hcleared⟩ := inputTrouble_raised i z hokv hne
  have hinputs : t.inputs = (s.setInput i ⟨now, none, 0⟩).inputs := by
    rw [ht, hkept.within.inputs rfl, hends.inputs]
  rw [← ht] at hkept htold hraised hcleared
  have htroubles : inputTroubles s i z x.accepted now =
      inputTroubles (postZone z (.input i) level (s.setInput i ⟨now, none, 0⟩)) i z x.accepted now :=
    (inputTroubles_congr (hends.raised z i.val) _ _).symm
  rw [← htroubles] at htold
  clear_value t
  generalize postZone z (.input i) level (s.setInput i ⟨now, none, 0⟩) = v at hends hokv htold hraised hcleared hkept
  have htick : v.tick = s.tick := hends.stays.1.tick_eq
  have hstays : StaysAtZone z s v := hends.stays
  have hsettled : SettledTo (s.zone z) { s.zone z with causes := (s.zone z).causes.set (CauseKey.input i).ix level } (v.zone z) false :=
    hends.settled
  have hset : CauseSet z (.input i) level s v := hends.causeSet hkey
  have htag : (t.zone z).tag = (v.zone z).tag := (hkept.face z).2.2.2
  refine ⟨?_, fun j hj => ?_, hsettled.more hkept, hset.more hkept, hraised, hcleared, hends.links.trans hkept.within.links,
    hstays.more hkept, ⟨(htold.offersThese (.refl _)).before hends.tells, fun he => ?_⟩, fun he => ?_⟩
  · exact (congrArg (·[i]) hinputs).trans (s.setInput_input_self i _)
  · exact (congrArg (·[j]) hinputs).trans (s.setInput_input_ne i j _ hj)
  · have hports : v.ports = s.ports := by
      rw [hends.still (htag.symm.trans he)]
      rfl
    exact (Told.after hports htick htold).offersAll
  · obtain ⟨u, hmoved⟩ := hends.moved fun e => he (htag.trans e)
    have hnotified : Notified (zoneNotice z 3 (s.zone z) (v.zone z)) s v := hmoved.notified
    have hdoors : DoorsReported z s v := hmoved.doorsReported
    have hoverlays : OverlaysReported z s v := hmoved.overlaysReported.since rfl rfl rfl rfl
    rw [← zoneNotice_congr (.refl _) (hkept.face z)] at hnotified
    refine ⟨hnotified.more htick hkept.tells, hdoors.more htick hkept, hoverlays.more htick hkept, fun hpost => ?_⟩
    have hsirens : SirensReported z s v := hmoved.sirensReported ((setInput_sound i _ s).zones hok) ((setInput_sound i _ s).posted hpost)
    exact hsirens.more htick hkept

/-! ### The samples (R17, R20) -/

theorem sample_of_contact {s : State} {x : Sampler} {i : Fin 8} {supervision line : Bool}
    (h : sampleCommand s x = .contactInputAccepted i supervision line ∨ sampleCommand s x = .contactInputSample i supervision line) :
    x = .contact i := by
  cases x with
  | contact j =>
    simp only [sampleCommand] at h
    split at h
    · obtain h | h := h <;> cases h
      rfl
    · obtain h | h := h <;> cases h
      rfl
  | transducer d =>
    simp only [sampleCommand] at h
    split at h <;> obtain h | h := h <;> cases h
  | gate d w => cases w <;> obtain h | h := h <;> cases h
  | _ => obtain h | h := h <;> cases h

theorem contact_due_iff {s : State} {i : Fin 8} {c : Instr} {supervision line : Bool}
    (hc : c = .contactInputAccepted i supervision line ∨ c = .contactInputSample i supervision line) :
    c ∈ dueEvents s ↔ SampleDue s (.contact i) ∧ sampleCommand s (.contact i) = c := by
  rw [mem_dueEvents_iff (by obtain rfl | rfl := hc <;> rfl)]
  refine ⟨fun ⟨x, hx, he⟩ => ?_, fun ⟨hx, he⟩ => ⟨_, hx, he⟩⟩
  obtain rfl := sample_of_contact (s := s) (x := x) (by rw [he]; exact hc)
  exact ⟨hx, he⟩

/-- Settles O31: the leads, the samples of the two rows, and the accepted state. -/
theorem contactInputsDebounceAndPost : Obligations.ContactInputsDebounceAndPost := by
  intro i z supervision line s hup hok x k now level moved due accepts sampled
  have hacc : acceptsNow s i now = true ↔ accepts := inputAccepts_iff _ _ _
  have hexecAccepted : exec (.contactInputAccepted i supervision line) s = .next
      (if acceptsNow s i now then sampling (.contact i) (inputAcceptedSample i now) moved else moved) :=
    live_up moved (fun s => if acceptsNow s i now then sampling (.contact i) (inputAcceptedSample i now) s else s) hup
  have hexecSample : exec (.contactInputSample i supervision line) s = .next
      (if acceptsNow s i now then moved else sampling (.contact i) (inputQuietSample i now) moved) :=
    live_up moved (fun s => if acceptsNow s i now then s else sampling (.contact i) (inputQuietSample i now) s) hup
  have hquiet (hd : due) (hn : ¬accepts) : sampled (x.sampled k.debounce now) := by
    rw [if_neg (mt hacc.mp hn), sampling_due (x := .contact i) (s := moved) hd] at hexecSample
    exact hexecSample
  have hcommand : sampleCommand s (.contact i) =
      let y := s.leads.contacts[i]
      if acceptsNow s i (sensedOf y.supervision y.line) then .contactInputAccepted i y.supervision y.line
      else .contactInputSample i y.supervision y.line := rfl
  have hrefused : x.sampled k.debounce now = if now = x.accepted then ⟨x.accepted, none, 0⟩ else if acceptsNow s i now then ⟨now, none, 0⟩
      else if x.candidate = some now then { x with stable := x.stable + 1 } else { x with candidate := some now, stable := 0 } := rfl
  refine ⟨fun hd hz ha => ?_, fun hd he => ?_, fun hd hne hc => ?_, fun hd hne hc hs => ?_, fun h => ?_, fun h => ?_, fun hl => ?_, fun hl => ?_⟩
  · have hsample : inputAcceptedSample i now (moved.tookSample (.contact i)) = inputAcceptedEvent i z now (moved.tookSample (.contact i)) := by
      unfold inputAcceptedSample
      rw [show (moved.tookSample (.contact i)).cfg.inputs[i].zone = some z from hz]
    rw [if_pos (hacc.mpr ha), sampling_due (x := .contact i) (s := moved) hd, hsample] at hexecAccepted
    obtain ⟨hinput, hothers, hsettled, hset, hraised, hcleared, hlinks, hstays, htroubles, hreports⟩ :=
      inputAcceptedEvent_ends (z := z) (s := moved.tookSample (.contact i)) hok (hacc.mpr ha)
    refine ⟨_, hexecAccepted, hinput, hothers, hsettled, hset, hraised, hcleared, hlinks, hstays, htroubles, fun he => ?_⟩
    obtain ⟨hnotified, hdoors, hoverlays, hsirens⟩ := hreports he
    exact ⟨hnotified, hdoors, hoverlays.since rfl rfl rfl rfl, hsirens⟩
  · have h := hquiet hd fun h => h.1 he
    rw [hrefused, if_pos he] at h
    exact h
  · have h := hquiet hd fun h => hc h.2.1
    rw [hrefused, if_neg hne, if_neg (mt hacc.mp fun h => hc h.2.1), if_neg hc] at h
    exact h
  · have hno : ¬accepts := fun h => by
      obtain ⟨-, -, h⟩ := h
      omega
    have h := hquiet hd hno
    rw [hrefused, if_neg hne, if_neg (mt hacc.mp hno), if_pos hc] at h
    rw [hc] at h
    exact h
  · obtain h | h := h
    · rw [sampling_idle (x := .contact i) (s := moved) h, ite_self] at hexecSample
      exact hexecSample
    · rw [if_pos (hacc.mpr h)] at hexecSample
      exact hexecSample
  · obtain h | h := h
    · rw [sampling_idle (x := .contact i) (s := moved) h, ite_self] at hexecAccepted
      exact hexecAccepted
    · rw [if_neg (mt hacc.mp h)] at hexecAccepted
      exact hexecAccepted
  · rw [contact_due_iff (.inl rfl), contact_due_iff (.inr rfl), hcommand, hl]
    dsimp only
    rw [← hacc]
    cases acceptsNow s i (sensedOf supervision line) <;> simp [due]
  · rw [contact_due_iff (.inl rfl), contact_due_iff (.inr rfl), hcommand]
    dsimp only
    constructor
    · rintro ⟨-, he⟩
      split at he <;> cases he
      exact hl rfl
    · rintro ⟨-, he⟩
      split at he <;> cases he
      exact hl rfl

end Sys2Proof.Machine
end

