-- ==== Sys2Proof/Proofs/FireStops.lean ====
section
/-! PROOFS. The stop of FIRE kind (R103, R104, R106): how a duct takes it, and what it leaves of record, gate and notices. DECLARE and
WITHDRAW, whose report of a zone at FIRE brings one to every duct that acts on it (R9, R10, R109). -/

namespace Sys2Proof.Machine

open Sys2Proof

/-! ### The record -/

/-- The record of a FIRE-kind stop before its gate is looked at (R103, R104). -/
def fireRecord (cause : StopCause) (old : Ctl) : Ctl :=
  { (if old.state.isRunning = true then
      { old with start := none, arm := none, cleanCount := 0, rateCount := 0, rate := none, quiet := none, lowFlow := none }
    else old) with
    state := if old.state = .stopped then .stopped else .stopping, stop := some ⟨.fire, cause, cause.level⟩, purge := none }

/-- The stop sequence of FIRE kind: record, close command, and the look at the gate (R106). -/
def fireSequence (d : Fin 4) (cause : StopCause) (s : State) : State :=
  fireWait d (closeCommand d (changeCtl d (fireRecord cause (s.ctl d)) s))

theorem fireRecord_state (cause : StopCause) (old : Ctl) :
    (fireRecord cause old).state = if old.state = .stopped then .stopped else .stopping := rfl

theorem fireRecord_stop (cause : StopCause) (old : Ctl) : (fireRecord cause old).stop = some ⟨.fire, cause, cause.level⟩ := rfl

theorem fireRecord_outputs (cause : StopCause) (old : Ctl) :
    (fireRecord cause old).withOutputs = { fireRecord cause old with feeder := false, fan := false } := by
  have hfan : fanOn (fireRecord cause old).state (fireRecord cause old).stop (fireRecord cause old).purge = false := by
    rw [fireRecord_state, fireRecord_stop]
    split <;> rfl
  have hfeeder : feederOn (fireRecord cause old).state = false := by
    rw [fireRecord_state]
    split <;> rfl
  rw [Ctl.withOutputs, hfan, hfeeder]

/-! ### How a duct takes it (R103, R104) -/

/-- A duct that a FIRE-kind stop cause takes: in each running state, and over an ORDERLY stop (R103, R104). -/
def TakenBy (cause : StopCause) (c : Ctl) : Prop :=
  TakesFireStop c ∨ (cause = .zoneFire ∧ c.state = .stopped ∧ ∃ x ∈ c.stop, x.kind = .orderly ∧ x.level = .normal)

theorem StopCause.fire_level {c : StopCause} (h : c.kind = .fire) : c.level.above .normal = true := by
  cases c <;> first | rfl | nomatch h

theorem replaceStop_turning {d : Fin 4} {cause : StopCause} {s : State} (hk : cause.kind = .fire) {x : Stop} (hx : (s.ctl d).stop = some x)
    (hox : x.kind = .orderly) (hst : (s.ctl d).state = .stopping ∨ (s.ctl d).state = .stopped) :
    replaceStop d cause s = fireSequence d cause s := by
  have hrecord : fireRecord cause (s.ctl d) = { s.ctl d with stop := some ⟨.fire, cause, cause.level⟩, purge := none } := by
    generalize s.ctl d = c at hst
    cases c
    obtain h | h := hst
    all_goals
      dsimp only at h
      subst h
      rfl
  unfold replaceStop fireSequence
  extract_lets c orderly turning kind s1
  have horderly : orderly = true := by
    simp only [orderly, c, hx]
    exact decide_eq_true hox
  have hturning : turning = true := by
    simp only [turning, horderly, hk]
    rfl
  have hs1 : s1 = changeCtl d (fireRecord cause (s.ctl d)) s := by
    simp only [s1, kind, horderly, hturning, hk, hrecord, c, if_true]
  rw [hs1]
  exact if_pos hturning

theorem beginStop_fire {d : Fin 4} {cause : StopCause} {s : State} (hk : cause.kind = .fire) (hrun : (s.ctl d).state.isRunning = true) :
    beginStop d cause s = fireSequence d cause s := by
  have hrecord : fireRecord cause (s.ctl d) = { s.ctl d with
      state := .stopping, stop := some (stopOf cause), start := none, arm := none, cleanCount := 0, rateCount := 0, rate := none,
      quiet := none, lowFlow := none, purge := none } := by
    unfold fireRecord stopOf
    rw [if_pos hrun, hk, if_neg (by cases h : (s.ctl d).state <;> simp_all [DuctState.isRunning])]
  unfold beginStop fireSequence
  rw [hrecord, hk]
  rfl

theorem replaceIfHigher_turning {d : Fin 4} {cause : StopCause} {s : State} (hk : cause.kind = .fire) {x : Stop} (hx : (s.ctl d).stop = some x)
    (hox : x.kind = .orderly) (hl : x.level = .normal) (hst : (s.ctl d).state = .stopping ∨ (s.ctl d).state = .stopped) :
    replaceIfHigher d (some cause) s = fireSequence d cause s := by
  refine (if_pos ?_).trans (replaceStop_turning hk hx hox hst)
  rw [Ctl.asserted, hx]
  exact (congrArg (cause.level.above) hl).trans (StopCause.fire_level hk)

/-- The causes of one event at a duct, the strongest of them of FIRE kind among those that it takes. -/
theorem takeCauses_fire {d : Fin 4} {cause : StopCause} {causes : List StopCause} {s : State} (hk : cause.kind = .fire)
    (hs : strongest causes = some cause) (hstopping : strongest (causes.filter StopCause.takenStopping) = some cause)
    (h : TakesFireStop (s.ctl d)) : takeCauses d causes s = fireSequence d cause s := by
  obtain hrun | ⟨hst, x, hx, hox, hl⟩ := h
  · rw [takeCauses_running_eq hrun, hs]
    exact beginStop_fire hk hrun
  · unfold takeCauses
    rw [hst, hstopping]
    exact replaceIfHigher_turning hk hx hox hl (.inl hst)

theorem takeCauses_zoneFire {d : Fin 4} {s : State} (h : TakenBy .zoneFire (s.ctl d)) :
    takeCauses d [.zoneFire] s = fireSequence d .zoneFire s := by
  obtain h | ⟨-, hst, x, hx, hox, hl⟩ := h
  · exact takeCauses_fire rfl rfl rfl h
  · unfold takeCauses
    rw [hst]
    exact replaceIfHigher_turning rfl hx hox hl (.inr hst)

/-! ### What it leaves (R78, R85, R93, R106) -/

theorem closeNotices_raised {s u : State} (hc : u.cfg = s.cfg) (ht : u.tick = s.tick) {d : Fin 4}
    (hr : Raised u (ductZone d) .gateFault 0 ↔ Raised s (ductZone d) .gateFault 0) (g : Gate) :
    closeNotices u d g = closeNotices s d g := by
  unfold closeNotices strokeNotices State.gateCfg State.ductCfg
  rw [hc, ht, clearNotices_congr hr]

theorem shutGate_fault {k : GateCfg} (hi : k.installed = true) (now : Tick) (g : Gate) : (shutGate k now g).state ≠ .fault := by
  unfold shutGate
  split
  · split <;> nofun
  next h => exact fun e => h ⟨hi, .inr (.inr e)⟩

/-- A FIRE-kind stop with all that it leaves at its duct. -/
structure FireStops (d : Fin 4) (cause : StopCause) (s t : State) : Prop where
  told : Told (fireStopNotices s d cause (s.ctl d)) s t
  gate : GateShut d s t
  ctl : t.ctl d = { fireRecord cause (s.ctl d) with
    state := if (s.gateCfg d).installed = false ∨ (t.gate d).state = .closed ∨ (s.ctl d).state = .stopped then .stopped else .stopping,
    feeder := false, fan := false }

theorem fireSequence_left (d : Fin 4) (cause : StopCause) (s : State) : FireStops d cause s (fireSequence d cause s) := by
  have htold1 := changeCtl_told d (fireRecord cause (s.ctl d)) s
  have hctl1 := (changeCtl_ctl d (fireRecord cause (s.ctl d)) s).trans (fireRecord_outputs cause _)
  have hgate1 := changeCtl_gate d (fireRecord cause (s.ctl d)) s
  have hfixed1 := (changeCtl_within d (fireRecord cause (s.ctl d)) s).fixed
  have hzones1 : (changeCtl d (fireRecord cause (s.ctl d)) s).zones = s.zones := rfl
  unfold fireSequence
  generalize changeCtl d (fireRecord cause (s.ctl d)) s = u at *
  obtain ⟨htold2, hgate2⟩ := closeCommand_left d u
  have hctl2 := closeCommand_ctl d u
  have hfixed2 := (closeCommand_within d u).fixed
  rw [hgate1, closeNotices_congr hfixed1.cfg_eq hfixed1.tick_eq hzones1] at htold2
  have hgate2 : GateShut d s (closeCommand d u) := by
    unfold GateShut at hgate2 ⊢
    rw [hgate2, hgate1, State.gateCfg, State.gateCfg, State.ductCfg, State.ductCfg, hfixed1.cfg_eq, hfixed1.tick_eq]
  generalize closeCommand d u = v at *
  have hctl2 := hctl2.trans hctl1
  have hcfg : v.cfg = s.cfg := hfixed2.cfg_eq.trans hfixed1.cfg_eq
  have hends : GateEnds d v ↔ (s.gateCfg d).installed = false ∨ (shutGate (s.gateCfg d) s.tick (s.gate d)).state = .closed := by
    unfold GateEnds
    rw [show v.gate d = _ from hgate2, State.gateCfg, State.gateCfg, State.ductCfg, State.ductCfg, hcfg]
    refine ⟨fun h => ?_, fun h => h.imp id .inl⟩
    obtain h | h | h := h
    · exact .inl h
    · exact .inr h
    · refine .inl (Bool.eq_false_iff.mpr fun hi => shutGate_fault hi _ _ h)
  obtain ⟨htold3, hgate3, hstops, hwaits, hrests, -⟩ := fireWait_left d v
  have hgate : GateShut d s (fireWait d v) := hgate3.trans hgate2
  generalize fireWait d v = t at *
  have htold : Told (stateNotice d (s.ctl d) (fireRecord cause (s.ctl d)) :: (closeNotices s d (s.gate d) ++
      if (t.ctl d).state = (v.ctl d).state then [] else [stateNotice d (v.ctl d) (t.ctl d)])) s t :=
    (htold1.trans (htold2.trans htold3 hfixed2.tick_eq) hfixed1.tick_eq)
  refine ⟨?_, hgate, ?_⟩
  · show Told (stateNotice d (s.ctl d) (fireRecord cause (s.ctl d)) :: (closeNotices s d (s.gate d) ++
      if (fireRecord cause (s.ctl d)).state = .stopping ∧
        ((s.gateCfg d).installed = false ∨ (shutGate (s.gateCfg d) s.tick (s.gate d)).state = .closed)
      then [stateNotice d (fireRecord cause (s.ctl d)) { fireRecord cause (s.ctl d) with state := .stopped }] else [])) s t
    by_cases hs : (fireRecord cause (s.ctl d)).state = .stopping ∧
        ((s.gateCfg d).installed = false ∨ (shutGate (s.gateCfg d) s.tick (s.gate d)).state = .closed)
    · have hf : (v.ctl d).fireStopping = true := by
        rw [hctl2]
        exact (fireStopping_iff _).mpr ⟨hs.1, _, rfl, rfl⟩
      have hctl := hstops hf (hends.mpr hs.2)
      rw [hctl, hctl2, if_neg (by rw [hs.1]; nofun)] at htold
      rw [if_pos hs]
      exact htold
    · have hstay : t.ctl d = v.ctl d := by
        by_cases hf : (v.ctl d).fireStopping = true
        · refine hwaits hf fun h => hs ⟨?_, hends.mp h⟩
          have := ((fireStopping_iff _).mp hf).1
          rwa [hctl2] at this
        · exact hrests (Bool.eq_false_iff.mpr hf)
      rw [hstay, if_pos rfl] at htold
      rw [if_neg hs]
      exact htold
  · have hclosed : GateEnds d v ↔ (s.gateCfg d).installed = false ∨ (t.gate d).state = .closed := by
      rw [hends, hgate]
    by_cases hst : (s.ctl d).state = .stopped
    · have hrest : (v.ctl d).fireStopping = false := by
        rw [hctl2, Ctl.fireStopping]
        rw [show ({ fireRecord cause (s.ctl d) with feeder := false, fan := false } : Ctl).state = .stopped from if_pos hst]
        rfl
      rw [hrests hrest, hctl2, if_pos (.inr (.inr hst))]
      exact congrArg (fun x => { fireRecord cause (s.ctl d) with state := x, feeder := false, fan := false }) (if_pos hst)
    · have hf : (v.ctl d).fireStopping = true := by
        rw [hctl2]
        exact (fireStopping_iff _).mpr ⟨if_neg hst, _, rfl, rfl⟩
      by_cases he : GateEnds d v
      · rw [hstops hf he, hctl2, if_pos ((hclosed.mp he).imp id .inl)]
        rfl
      · rw [hwaits hf he, hctl2, if_neg fun h => he (hclosed.mpr (h.imp id fun k => k.resolve_right hst))]
        exact congrArg (fun x => { fireRecord cause (s.ctl d) with state := x, feeder := false, fan := false }) (if_neg hst)

theorem FireStops.stopped {d : Fin 4} {cause : StopCause} {s t : State} (h : FireStops d cause s t) :
    FireStopped d cause (s.ctl d) s t :=
  ⟨h.gate, h.told.offersThese (.refl _), h.ctl⟩

/-! ### The stop inside a larger event -/

theorem FireStopped.more {d : Fin 4} {cause : StopCause} {old : Ctl} {s t w : State} (h : FireStopped d cause old s t)
    (ht : t.tick = s.tick) (k : Tells t w) (hctl : w.ctl d = t.ctl d) (hgate : w.gate d = t.gate d) : FireStopped d cause old s w := by
  obtain ⟨hshut, htold, hrecord⟩ := h
  refine ⟨hgate.trans hshut, htold.more ht k, ?_⟩
  rw [hctl, hgate]
  exact hrecord

/-- Before the stop nothing of the gate has moved, and GATE_FAULT stands as it was. -/
theorem FireStopped.before {d : Fin 4} {cause : StopCause} {old : Ctl} {s u t : State} (k : Tells s u) (hcfg : u.cfg = s.cfg)
    (hgate : u.gate d = s.gate d) (hraised : Raised u (ductZone d) .gateFault 0 ↔ Raised s (ductZone d) .gateFault 0)
    (h : FireStopped d cause old u t) : FireStopped d cause old s t := by
  have hnotices := closeNotices_raised hcfg k.1 hraised (s.gate d)
  unfold FireStopped GateShut fireStopNotices State.gateCfg State.ductCfg at h ⊢
  rw [hcfg, hgate, hnotices, k.1] at h
  obtain ⟨hshut, htold, hrecord⟩ := h
  exact ⟨hshut, htold.before k, hrecord⟩

theorem FireStopped.answered {d : Fin 4} {cause : StopCause} {old : Ctl} {p : Port} {s t : State}
    (h : FireStopped d cause old (frameTaken p s) t) (r : Response) : FireStopped d cause old (s.answered p r) (issue p r t) := by
  obtain ⟨hshut, htold, hrecord⟩ := h
  exact ⟨hshut, htold.answered r, hrecord⟩

theorem dcPost_told_state (d : Fin 4) (s : State) : Tells s (dcPost d s).state := by
  obtain ⟨n, l, -, h⟩ := dcPost_tells d s
  exact ⟨h.tick, l, h.told⟩

theorem dcPost_gate (d : Fin 4) (s : State) : (dcPost d s).state.gate d = s.gate d := by
  rw [State.gate, dcPost_duct d s d]
  rfl

/-- The report of a zone at FIRE at a duct that takes its stop (R103, R104, R109). -/
theorem fireReport_stopped {d : Fin 4} {z : Fin 16} {s : State} (hacts : ActsOnZone s d z) (h : TakenBy .zoneFire (s.ctl d)) :
    FireStopped d .zoneFire (s.ctl d) s (fireReport z s) := by
  obtain ⟨u, hbefore, hafter⟩ := fireReport_split d z s
  have hctl : u.ctl d = s.ctl d := congrArg Duct.ctl hbefore.duct
  have hacts' : actsOn u d z = true := (actsOn_iff u d z).mpr ((ActsOnZone.of_cfg hbefore.within.fixed.cfg_eq d z).mpr hacts)
  have htaken : fireReportAt z u d = (dcPost d (fireSequence d .zoneFire u)).state := by
    unfold fireReportAt
    rw [if_pos hacts', takeCauses_zoneFire (by rw [hctl]; exact h)]
  have hstopped := (fireSequence_left d .zoneFire u).stopped
  have hlocal := takeCauses_local d [.zoneFire] u
  rw [takeCauses_zoneFire (by rw [hctl]; exact h)] at hlocal
  rw [hctl] at hstopped
  rw [htaken] at hafter
  generalize fireSequence d .zoneFire u = v at *
  have hfixed : v.tick = u.tick := hlocal.within.fixed.tick_eq
  have hposted := hstopped.more hfixed (dcPost_told_state d v) (dcPost_ctl d v d) (dcPost_gate d v)
  refine .before hbefore.tells hbefore.within.fixed.cfg_eq (congrArg Duct.gate hbefore.duct)
    (hbefore.raised .gateFault ⟨by decide, by decide⟩ 0) (hposted.more ?_ hafter.tells (congrArg Duct.ctl hafter.duct)
      (congrArg Duct.gate hafter.duct))
  exact (dcPost_told_state d v).1.trans hfixed

/-- The report of a zone at FIRE at a duct that takes no further stop of it (R104). -/
theorem fireReport_left {d : Fin 4} {z : Fin 16} {s : State} (h : (s.ctl d).state = .offline ∨
      ((s.ctl d).state = .stopping ∨ (s.ctl d).state = .stopped) ∧ ((s.ctl d).asserted = .alarm ∨ (s.ctl d).asserted = .fire)) :
    (fireReport z s).ctl d = s.ctl d ∧ (fireReport z s).gate d = s.gate d := by
  obtain ⟨u, hbefore, hafter⟩ := fireReport_split d z s
  have hctl : u.ctl d = s.ctl d := congrArg Duct.ctl hbefore.duct
  have hsame : (fireReportAt z u d).ctl d = u.ctl d ∧ (fireReportAt z u d).gate d = u.gate d := by
    unfold fireReportAt
    rw [takeZoneFire_none (by rw [hctl]; exact h)]
    split
    · exact ⟨dcPost_ctl d u d, dcPost_gate d u⟩
    · exact ⟨rfl, rfl⟩
  rw [State.ctl, State.gate, hafter.duct]
  exact ⟨hsame.1.trans hctl, hsame.2.trans (congrArg Duct.gate hbefore.duct)⟩

/-! ### A zone that comes to FIRE (R109) -/

theorem zoneEvent_fires {z : Fin 16} {raw : Zone} {cause : ZoneCause} {reset : Bool} {s : State}
    (hc : zoneChanged (s.zone z) (settleZone (s.zone z) raw reset) = true) (hl : (settleZone (s.zone z) raw reset).level = .fire) :
    deliver z (zoneEvent z raw cause reset s) = fireReport z (zoneEvent z raw cause reset s).state := by
  refine if_pos ?_
  obtain ⟨-, he⟩ | ⟨hn, -⟩ := zoneEvent_cases z raw cause reset s
  · rw [he]
    exact decide_eq_true hl
  · exact absurd (hc.symm.trans hn) nofun

theorem settleZone_fire {old raw : Zone} {i : Fin 13} (h : raw.causes[i] = .fire) : (settleZone old raw false).level = .fire := by
  have hmax := le_causesLevel raw.causes i
  rw [h] at hmax
  show deriveLevel raw.latch raw.causes = .fire
  unfold deriveLevel
  split
  · rfl
  · cases hc : causesLevel raw.causes
    case fire => rfl
    all_goals
      rw [hc] at hmax
      exact absurd hmax (by decide)

/-- A posting of FIRE on a zone below FIRE, at a duct that acts on the zone. -/
theorem postFire_ducts {z : Fin 16} {key : CauseKey} (hkey : 3 ≤ key.ix.val) {s : State} (hl : (s.zone z).level ≠ .fire) {d : Fin 4}
    (hacts : ActsOnZone s d z) :
    let t := postZone z key .fire s
    (TakenBy .zoneFire (s.ctl d) → FireStopped d .zoneFire (s.ctl d) s t) ∧
      ((s.ctl d).state = .offline ∨
        ((s.ctl d).state = .stopping ∨ (s.ctl d).state = .stopped) ∧ ((s.ctl d).asserted = .alarm ∨ (s.ctl d).asserted = .fire) →
        t.ctl d = s.ctl d ∧ t.gate d = s.gate d) := by
  have hlevel : (settleZone (s.zone z) { s.zone z with causes := (s.zone z).causes.set key.ix .fire } false).level = .fire :=
    settleZone_fire (i := key.ix) (Vector.getElem_set_self _)
  have hchanged : zoneChanged (s.zone z) (settleZone (s.zone z) { s.zone z with causes := (s.zone z).causes.set key.ix .fire } false) = true := by
    unfold zoneChanged
    rw [hlevel]
    simp [hl.symm]
  have hmoved := zoneEvent_moved (z := z) key.cause false (s := s) (raw := { s.zone z with causes := (s.zone z).causes.set key.ix .fire })
    ⟨rfl, rfl, fun i hi => Vector.getElem_set_ne key.ix.isLt i.isLt (by omega)⟩ hchanged
  have ht : postZone z key .fire s = _ := zoneEvent_fires (cause := key.cause) hchanged hlevel
  dsimp only
  rw [ht]
  generalize (zoneEvent z _ key.cause false s).state = u at hmoved
  have hctl : u.ctl d = s.ctl d := by
    rw [State.ctl, hmoved.duct d]
    rfl
  have hgate : u.gate d = s.gate d := by
    rw [State.gate, hmoved.duct d]
    rfl
  have hfixed := hmoved.within.fixed
  rw [← hctl, ← hgate]
  refine ⟨fun h => ?_, fun h => fireReport_left h⟩
  exact .before ⟨hfixed.tick_eq, _, hmoved.told⟩ hfixed.cfg_eq hgate (hmoved.raised .gateFault ⟨by decide, by decide⟩ _ _)
    (fireReport_stopped ((ActsOnZone.of_cfg hfixed.cfg_eq d z).mpr hacts) h)

/-! ### DECLARE and WITHDRAW (R9, R10) -/

/-- What a posting that a port requests leaves, with its answer. -/
theorem posted_answers {p : Port} {z : Fin 16} {key : CauseKey} (hkey : 3 ≤ key.ix.val) (l : Level) (s : State) (code n : Byte) :
    let v := postZone z key l (frameTaken p s)
    let answer : Response := ⟨code, n, .ok, byteOf (v.zone z).level.num :: le16 (v.zone z).tag⟩
    let answered := s.answered p answer
    let t := issue p answer v
    Answers p answer s t ∧
      SettledTo (s.zone z) { s.zone z with causes := (s.zone z).causes.set key.ix l } (t.zone z) false ∧
      CauseSet z key l s t ∧ t.inputs = s.inputs ∧ StaysAtZone z s t ∧
      ((t.zone z).tag ≠ (s.zone z).tag → Notified (zoneNotice z (byteOf key.cause.num) (s.zone z) (t.zone z)) answered t ∧
        DoorsReported z answered t ∧ OverlaysReported z answered t ∧
        (ZonesOk s → PostedOk s → SirensReported z answered t)) ∧
      ((t.zone z).tag = (s.zone z).tag → t.ports = answered.ports ∧ t.arbiter = s.arbiter ∧ t.doors = s.doors ∧ t.ducts = s.ducts) := by
  have hends := postZone_ends (z := z) hkey l (frameTaken p s)
  have hset := hends.causeSet hkey
  intro v answer answered t
  have hzone (y : Fin 16) : t.zone y = v.zone y := rfl
  refine ⟨hends.links.answers _, hends.settled, hset, hends.inputs, hends.stays.answered _, fun h => ?_, fun h => ?_⟩
  · obtain ⟨u, hmoved⟩ := hends.moved h
    exact ⟨hmoved.notified.answered _, hmoved.doorsReported.answered _, hmoved.overlaysReported.answered _,
      fun hok hp => (hmoved.sirensReported hok hp).answered _⟩
  · have hstill := hends.still h
    have hports : t.ports = (issue p answer (frameTaken p s)).ports := by
      show (issue p answer (postZone z key l (frameTaken p s))).ports = _
      rw [hstill]
      rfl
    refine ⟨hports.trans (by rw [issue_frameTaken]), ?_, ?_, ?_⟩
    · exact (congrArg State.arbiter hstill :)
    · exact (congrArg State.doors hstill :)
    · exact (congrArg State.ducts hstill :)

theorem declarable_level {p : Port} {l : Level} (h : (p = .fp ∧ (l = .alarm ∨ l = .fire)) ∨ (p = .pc ∧ (l = .watch ∨ l = .alarm))) :
    declarable p (byteOf l.num) = some l := by
  obtain ⟨rfl, rfl | rfl⟩ | ⟨rfl, rfl | rfl⟩ := h <;> rfl

theorem asserted_high {c : Ctl} (h : ∃ x ∈ c.stop, x.level = .alarm ∨ x.level = .fire) : c.asserted = .alarm ∨ c.asserted = .fire := by
  obtain ⟨x, hx, hl⟩ := h
  rw [Ctl.asserted, show c.stop = some x from hx]
  exact hl

/-- Settles O29: the two requests, and the report of a zone that comes to FIRE. -/
theorem declarationsArePostedAndWithdrawn : Obligations.DeclarationsArePostedAndWithdrawn := by
  intro p n z l s ht hrun answered told
  have hkey : 3 ≤ (CauseKey.declaration p).ix.val := by cases p <;> decide
  have hcause : byteOf (CauseKey.declaration p).cause.num = 4 := rfl
  have hrunning : ¬(!(frameTaken p s).isRunning) = true := by
    rw [Bool.not_eq_true', Bool.not_eq_false]
    exact hrun
  refine ⟨fun hl => ?_, fun hp hdeclared => ?_, fun hp hnone => ?_⟩
  · have hreply : declareReply p (byteOf z.val) (byteOf l.num) (frameTaken p s) =
        accept (zoneAnswer (postZone z (.declaration p) l (frameTaken p s)) z) (postZone z (.declaration p) l (frameTaken p s)) := by
      rw [declareReply, declarable_level hl, zoneOperand_byteOf]
      exact if_neg hrunning
    obtain ⟨hanswers, hsettled, hset, hinputs, hstays, htold⟩ := posted_answers (p := p) (z := z) hkey l s codeDeclare n
    refine ⟨_, serve_accepts ht codeDeclare n hreply, hanswers, hsettled, hset, hinputs, hstays, htold, ?_⟩
    rintro rfl hbelow d hacts
    obtain ⟨hstops, hstays⟩ := postFire_ducts (z := z) hkey (s := frameTaken p s) hbelow hacts
    refine ⟨fun h => ?_, fun hs hx => hstays (.inr ⟨hs, asserted_high hx⟩), fun hs => hstays (.inl hs)⟩
    exact (hstops (h.imp id fun k => ⟨rfl, k⟩)).answered _
  · have hreply : withdrawReply p (byteOf z.val) (frameTaken p s) =
        accept (zoneAnswer (postZone z (.declaration p) .normal (frameTaken p s)) z)
          (postZone z (.declaration p) .normal (frameTaken p s)) := by
      rw [withdrawReply, if_neg hp, zoneOperand_byteOf]
      exact (if_neg hrunning).trans (if_neg hdeclared)
    exact ⟨_, serve_accepts ht codeWithdraw n hreply, posted_answers (p := p) (z := z) hkey .normal s codeWithdraw n⟩
  · refine serve_refuses ht codeWithdraw n ?_
    rw [withdrawReply, if_neg hp, zoneOperand_byteOf]
    exact (if_neg hrunning).trans (if_pos hnone)

end Sys2Proof.Machine
end

