-- ==== Sys2Proof/Proofs/GateDecisions.lean ====
section
/-! PROOFS. The gate decisions (R81, R82): their results, their notices and the gate that they leave. -/

namespace Sys2Proof.Machine

open Sys2Proof

/-! ### A close command that moves no gate (R83) -/

/-- A gate that a close command sets off. -/
def Closable (k : GateCfg) (g : Gate) : Prop := k.installed = true ∧ (g.state = .opened ∨ g.state = .opening ∨ g.state = .fault)

theorem shutGate_still {k : GateCfg} {g : Gate} (h : ¬Closable k g) (now : Tick) : shutGate k now g = g := if_neg h

theorem closeNotices_still {s : State} {d : Fin 4} {g : Gate} (h : ¬Closable (s.gateCfg d) g) : closeNotices s d g = [] := if_neg h

theorem shutGate_not_closable (k : GateCfg) (now : Tick) (g : Gate) : ¬Closable k (shutGate k now g) := by
  by_cases h : Closable k g
  · have he : shutGate k now g = _ := if_pos h
    rintro ⟨-, hs⟩
    rw [he] at hs
    split at hs
    · exact hs.elim nofun (·.elim nofun nofun)
    · exact hs.elim nofun (·.elim nofun nofun)
  · rw [shutGate_still h]
    exact h

theorem shutGate_twice (k : GateCfg) (now : Tick) (g : Gate) : shutGate k now (shutGate k now g) = shutGate k now g :=
  shutGate_still (shutGate_not_closable k now g) now

/-- The gate after the decisions for some tracks: ordered shut where one of them lists it. -/
theorem gateAfter_foldl (k : GateCfg) (now : Tick) (l : List Track) (g : Gate) :
    l.foldl (gateAfter k now) g = if ∃ x ∈ l, x.gate.isSome = true then shutGate k now g else g := by
  induction l generalizing g with
  | nil => exact (if_neg (by simp)).symm
  | cons x rest ih =>
    rw [List.foldl_cons, ih, gateAfter]
    cases hx : x.gate.isSome
    · simp [hx]
    · rw [if_pos rfl, shutGate_twice, ite_self, if_pos ⟨x, List.mem_cons_self, hx⟩]

/-! ### One decision -/

theorem decideGate_cause (k : GateCfg) (g : Gate) (now : Tick) (entry : Option GateEntry) :
    (decideGate (if k.installed then some g else none) k.stroke now entry).cause = gateResult k g now entry := by
  unfold decideGate gateResult
  cases entry with
  | none => cases k.installed <;> rfl
  | some e =>
    cases k.installed
    · rfl
    · cases g with
      | mk state => cases state <;> rfl

/-- The notice of a decision, with the gate as its command leaves it (R82). -/
theorem decisionOffer_eq (k : GateCfg) (d : Fin 4) (now : Tick) (g : Gate) (x : Track) :
    decisionOffer d x (decideGate (if k.installed then some g else none) k.stroke now x.gate)
      (if k.installed then some g.state else none) (if k.installed then some (gateAfter k now g x).state else none) =
      decisionNotice k d now g x := by
  have hnum (c : StopCause) : byteOf (if c = .diverted then DuctCause.diverted else .outrun).num = if c = .diverted then 6 else 5 := by
    split <;> rfl
  have hid : le8 x.id.toNat = [x.id] := by simp [le8, byteOf]
  unfold decisionOffer decisionNotice ductOffer ductNotice
  rw [decideGate_cause, hnum, hid]
  unfold decideGate
  cases x.gate with
  | none => cases k.installed <;> rfl
  | some e =>
    cases k.installed
    · cases g with
      | mk state => cases state <;> rfl
    · cases g with
      | mk state => cases state <;> rfl

/-- The command of a gate decision (R81). -/
theorem decisionCommand_left (d : Fin 4) (x : Track) (s : State) :
    Told (if x.gate.isSome then closeNotices s d (s.gate d) else []) s (decisionCommand d x s) ∧
      (decisionCommand d x s).gate d = gateAfter (s.gateCfg d) s.tick (s.gate d) x := by
  unfold decisionCommand gateAfter
  split
  · exact closeCommand_left d s
  · exact ⟨.refl s, rfl⟩

theorem gateDecision_left (d : Fin 4) (x : Track) (s : State) :
    let k := s.gateCfg d
    let r := gateDecision d x s
    r.1 = gateResult k (s.gate d) s.tick x.gate ∧
      Told (decisionNotice k d s.tick (s.gate d) x :: (if x.gate.isSome then closeNotices s d (s.gate d) else [])) s r.2 ∧
      r.2.gate d = gateAfter k s.tick (s.gate d) x := by
  intro k r
  obtain ⟨-, hgate⟩ := decisionCommand_left d x s
  have hafter : (decisionCommand d x s).gateState d = if k.installed then some (gateAfter k s.tick (s.gate d) x).state else none := by
    rw [← hgate, State.gateState, State.gateCfg, State.ductCfg, (decisionCommand_local d x s).within.fixed.cfg_eq]
    rfl
  obtain ⟨htold, hgate⟩ := decisionCommand_left d x (offer (decisionNotice k d s.tick (s.gate d) x) s)
  have hr : r.2 = decisionCommand d x (offer (decisionNotice k d s.tick (s.gate d) x) s) := by
    rw [← decisionOffer_eq, ← hafter]
    rfl
  refine ⟨decideGate_cause k (s.gate d) s.tick x.gate, ?_, by rw [hr]; exact hgate⟩
  rw [hr]
  rw [closeNotices_congr (s := s) (offer_within _ s).fixed.cfg_eq (offer_within _ s).fixed.tick_eq rfl] at htold
  exact (offer_told _ s).trans htold (offer_within _ s).fixed.tick_eq

/-! ### The decisions for some tracks (R82) -/

theorem gateDecision_raised (d : Fin 4) (x : Track) {k : TroubleKind} (hk : k ≠ .gateFault) (s : State) (z : Fin 16) (n : Nat) :
    Raised (gateDecision d x s).2 z k n ↔ Raised s z k n := by
  show Raised (decisionCommand d x _) z k n ↔ _
  unfold decisionCommand
  split
  · exact closeCommand_raised d hk _ z n
  · exact .rfl

theorem gateDecisions_raised (d : Fin 4) (l : List Track) {k : TroubleKind} (hk : k ≠ .gateFault) (s : State) (z : Fin 16) (n : Nat) :
    Raised (gateDecisions d l s).2 z k n ↔ Raised s z k n := by
  induction l generalizing s with
  | nil => rfl
  | cons x rest ih => exact (ih _).trans (gateDecision_raised d x hk s z n)

/-- GATE_FAULT is as it was, or the gate is one that no close command moves. -/
def CloseTold (d : Fin 4) (s u : State) : Prop :=
  (Raised u (ductZone d) .gateFault 0 ↔ Raised s (ductZone d) .gateFault 0) ∨ ¬Closable (s.gateCfg d) (u.gate d)

theorem CloseTold.notices {d : Fin 4} {s u : State} (h : CloseTold d s u) (hc : u.cfg = s.cfg) (ht : u.tick = s.tick) :
    closeNotices u d (u.gate d) = closeNotices s d (u.gate d) := by
  obtain h | h := h
  · exact closeNotices_raised hc ht h _
  · rw [closeNotices_still h, closeNotices_still]
    rwa [State.gateCfg, State.ductCfg, hc]

theorem gateDecision_closeTold {d : Fin 4} {s u : State} (x : Track) (h : CloseTold d s u) (hc : u.cfg = s.cfg) :
    CloseTold d s (gateDecision d x u).2 := by
  obtain ⟨-, -, hgate⟩ := gateDecision_left d x u
  have hcfg : u.gateCfg d = s.gateCfg d := by rw [State.gateCfg, State.gateCfg, State.ductCfg, State.ductCfg, hc]
  cases hx : x.gate.isSome
  · obtain h | h := h
    · refine .inl (Iff.trans ?_ h)
      have : (gateDecision d x u).2 = offer _ u := if_neg (by rw [hx]; exact Bool.false_ne_true)
      rw [this]
      exact .rfl
    · refine .inr ?_
      rw [hgate, gateAfter, hx]
      exact h
  · refine .inr ?_
    rw [hgate, gateAfter, hx, if_pos rfl, hcfg]
    exact shutGate_not_closable _ _ _

theorem gateDecisions_left {d : Fin 4} {s : State} (l : List Track) {u : State} (hc : u.cfg = s.cfg) (ht : u.tick = s.tick)
    (hr : CloseTold d s u) :
    let r := gateDecisions d l u
    r.1 = decideAll (s.gateCfg d) s.tick (u.gate d) l ∧ Told (decisionNotices s d (u.gate d) l) u r.2 ∧
      r.2.gate d = l.foldl (gateAfter (s.gateCfg d) s.tick) (u.gate d) ∧ CloseTold d s r.2 := by
  induction l generalizing u with
  | nil => exact ⟨rfl, .refl u, rfl, hr⟩
  | cons x rest ih =>
    intro r
    obtain ⟨hcause, htold, hgate⟩ := gateDecision_left d x u
    have hfixed := (gateDecision_local d x u).within.fixed
    have hcfg : u.gateCfg d = s.gateCfg d := by rw [State.gateCfg, State.gateCfg, State.ductCfg, State.ductCfg, hc]
    rw [hcfg, ht, hr.notices hc ht] at htold
    rw [hcfg, ht] at hcause hgate
    obtain ⟨hrest, htoldRest, hgateRest, hclose⟩ := ih (hfixed.cfg_eq.trans hc) (hfixed.tick_eq.trans ht) (gateDecision_closeTold x hr hc)
    rw [hgate] at hrest htoldRest hgateRest
    refine ⟨congrArg₂ List.cons hcause hrest, htold.trans htoldRest hfixed.tick_eq, hgateRest, hclose⟩

/-! ### The results (R81, Assumption 20) -/

theorem gateResult_or (k : GateCfg) (g : Gate) (now : Tick) (entry : Option GateEntry) :
    gateResult k g now entry = .outrun ∨ gateResult k g now entry = .diverted := by
  unfold gateResult
  split
  · exact .inl rfl
  · split
    · exact .inl rfl
    · split
      · exact .inr rfl
      · exact .inl rfl
      · exact .inl rfl
      · exact ite_eq_or_eq ..
      · exact ite_eq_or_eq ..

theorem decideAll_or (k : GateCfg) (now : Tick) (l : List Track) (g : Gate) :
    ∀ c ∈ decideAll k now g l, c = .outrun ∨ c = .diverted := by
  induction l generalizing g with
  | nil => nofun
  | cons x rest ih =>
    intro c hc
    obtain rfl | hc := List.mem_cons.mp hc
    · exact gateResult_or k g now x.gate
    · exact ih _ c hc

theorem decideAll_eq_nil (k : GateCfg) (now : Tick) (g : Gate) (l : List Track) : decideAll k now g l = [] ↔ l = [] := by
  cases l with
  | nil => exact iff_of_true rfl rfl
  | cons x rest => exact iff_of_false nofun nofun

/-- Of the results of gate decisions the strongest is OUTRUN where one of them is. -/
theorem strongest_decided {l : List StopCause} (h : ∀ c ∈ l, c = .outrun ∨ c = .diverted) (hne : l ≠ []) :
    strongest l = some (if .outrun ∈ l then .outrun else .diverted) := by
  have run : ∀ (l : List StopCause) (a : StopCause), (a = .outrun ∨ a = .diverted) → (∀ c ∈ l, c = .outrun ∨ c = .diverted) →
      l.foldl (fun o c => some (match o with | none => c | some b => b.stronger c)) (some a) =
        some (if a = .outrun ∨ .outrun ∈ l then .outrun else .diverted) := by
    intro l
    induction l with
    | nil =>
      rintro a (rfl | rfl) -
      · rfl
      · rfl
    | cons c rest ih =>
      intro a ha hl
      obtain rfl | rfl := hl c List.mem_cons_self
      · have hstrong : a.stronger .outrun = .outrun := by obtain rfl | rfl := ha <;> rfl
        rw [List.foldl_cons]
        dsimp only
        rw [hstrong, ih _ (.inl rfl) fun c hc => hl c (List.mem_cons_of_mem _ hc)]
        simp
      · have hstrong : a.stronger .diverted = a := by obtain rfl | rfl := ha <;> rfl
        rw [List.foldl_cons]
        dsimp only
        rw [hstrong, ih _ ha fun c hc => hl c (List.mem_cons_of_mem _ hc)]
        simp
  cases l with
  | nil => exact absurd rfl hne
  | cons a rest =>
    refine (run rest a (h a List.mem_cons_self) fun c hc => h c (List.mem_cons_of_mem _ hc)).trans ?_
    simp only [List.mem_cons, eq_comm]

end Sys2Proof.Machine
end

