-- ==== Sys2Proof/Proofs/FaultedValves.lean ====
section
/-! PROOFS. An opening that is not confirmed (R77): the judgments and gate decisions that it brings (R80, R81), and what the Duct
Controller makes of their results (R103, R104, R106). -/

namespace Sys2Proof.Machine

open Sys2Proof

/-! ### What any event of a duct leaves -/

/-- A part of a Duct Controller's event: no detector, water part or trouble but GATE_FAULT and the doors' moves. -/
structure EventKept (s t : State) : Prop where
  within : Within .hazard s t
  tells : Tells s t
  water : ∀ e, KeepsWater e s t
  raised : ∀ k, NoDoorKind k → k ≠ .gateFault → ∀ z n, Raised t z k n ↔ Raised s z k n

theorem EventKept.refl (s : State) : EventKept s s := ⟨.refl _ s, .refl s, fun e => .refl e s, fun _ _ _ _ _ => .rfl⟩

theorem EventKept.trans {s t w : State} (h : EventKept s t) (k : EventKept t w) : EventKept s w :=
  ⟨h.within.trans k.within, h.tells.trans k.tells, fun e => (h.water e).trans (k.water e),
    fun l hl hg z n => (k.raised l hl hg z n).trans (h.raised l hl hg z n)⟩

theorem Local.eventKept {m : List DuctPart} {d : Fin 4} {s t : State} (h : Local m d s t) (hw : Within .hazard s t) (ht : TellsFrom d s t)
    (hm : ∀ p ∈ [DuctPart.tracks, .nextId, .valves, .flood, .test], p ∉ m) : EventKept s t := by
  refine ⟨hw, ht.tells, fun e => ?_, fun k _ hg z n => ht.raised k hg z n⟩
  by_cases he : e = d
  · exact he ▸ h.keepsWater hm
  · unfold KeepsWater
    rw [h.others e he]
    exact ⟨rfl, rfl, rfl, rfl, rfl⟩

theorem takeCauses_kept (d : Fin 4) (l : List StopCause) (s : State) : EventKept s (takeCauses d l s) :=
  (takeCauses_local d l s).eventKept (takeCauses_within d l s) (takeCauses_tells d l s) (by decide)

theorem fireWait_kept (d : Fin 4) (s : State) : EventKept s (fireWait d s) :=
  (fireWait_local d s).eventKept (fireWait_within d s) (fireWait_tells d s) (by decide)

theorem dcPost_kept (d : Fin 4) (s : State) : EventKept s (dcPost d s).state := by
  refine ⟨dcPost_within d s, dcPost_told_state d s, fun e => ?_, fun k hk _ z n => raised_dcPost hk d s z n⟩
  unfold KeepsWater
  rw [dcPost_duct d s e]
  exact ⟨rfl, rfl, rfl, rfl, rfl⟩

theorem fireReport_kept (z : Fin 16) (s : State) : EventKept s (fireReport z s) := by
  unfold fireReport
  generalize List.finRange 4 = l
  induction l generalizing s with
  | nil => exact .refl s
  | cons e rest ih =>
    refine EventKept.trans ?_ (ih _)
    unfold fireReportAt
    split
    · exact (takeCauses_kept e _ s).trans (dcPost_kept e _)
    · exact .refl s

theorem settleDuct_kept (d : Fin 4) (s : State) : EventKept s (settleDuct d s) := by
  unfold settleDuct deliver
  split
  · exact (dcPost_kept d s).trans (fireReport_kept _ _)
  · exact dcPost_kept d s

theorem dcEvent_kept (d : Fin 4) (l : List StopCause) (s : State) : EventKept s (dcEvent d l s) :=
  (takeCauses_kept d l s).trans ((fireWait_kept d _).trans (settleDuct_kept d _))

/-! ### A cause at a FIRE-kind stop that waits (R104, R106) -/

/-- The recorded stop once a cause of the event has been weighed against it. -/
def weighedStop (cause : Option StopCause) (x : Stop) : Stop :=
  match cause with
  | none => x
  | some c => if x.level.num < c.level.num then ⟨.fire, c, c.level⟩ else x

theorem weighedStop_kind {cause : Option StopCause} {x : Stop} (h : x.kind = .fire) : (weighedStop cause x).kind = .fire := by
  unfold weighedStop
  split
  · exact h
  · split
    · rfl
    · exact h

theorem takeCauses_waiting {d : Fin 4} {s : State} (hf : (s.ctl d).fireStopping = true) (causes : List StopCause) :
    takeCauses d causes s = replaceIfHigher d (strongest (causes.filter StopCause.takenStopping)) s := by
  unfold takeCauses
  rw [Ctl.fireStopping_state hf]

theorem weighed_outputs {d : Fin 4} {s : State} (hout : CtlOk (s.ctl d)) (hf : (s.ctl d).fireStopping = true) {y : Stop}
    (hk : y.kind = .fire) : ({ s.ctl d with stop := some y } : Ctl).withOutputs = { s.ctl d with stop := some y } := by
  obtain ⟨hfeeder, hfan⟩ := fireStopping_outputs hout hf
  have hs := Ctl.fireStopping_state hf
  generalize s.ctl d = c at *
  cases c
  dsimp only at hfeeder hfan hs
  subst hfeeder hfan hs
  simp [Ctl.withOutputs, feederOn, fanOn, hk]

theorem replaceIfHigher_waiting {d : Fin 4} {s : State} {x : Stop} (hout : CtlOk (s.ctl d)) (hf : (s.ctl d).fireStopping = true)
    (hx : (s.ctl d).stop = some x) (cause : Option StopCause) :
    let waits : Ctl := { s.ctl d with stop := some (weighedStop cause x) }
    let u := replaceIfHigher d cause s
    Told (if weighedStop cause x = x then [] else [stateNotice d (s.ctl d) waits]) s u ∧ u.ctl d = waits ∧ u.gate d = s.gate d := by
  intro waits u
  obtain ⟨hs, y, hy, hkind⟩ := (fireStopping_iff _).mp hf
  obtain rfl : x = y := Option.some.inj (hx.symm.trans hy)
  have hstay (hw : weighedStop cause x = x) : waits = s.ctl d := by
    show ({ s.ctl d with stop := some (weighedStop cause x) } : Ctl) = _
    rw [hw, ← hx]
  have hasserted : (s.ctl d).asserted = x.level := by rw [Ctl.asserted, hx]
  cases cause with
  | none =>
    rw [if_pos (show weighedStop none x = x from rfl)]
    exact ⟨.refl s, (hstay rfl).symm, rfl⟩
  | some c =>
    by_cases hl : x.level.num < c.level.num
    · have hw : weighedStop (some c) x = ⟨.fire, c, c.level⟩ := if_pos hl
      have hne : weighedStop (some c) x ≠ x := fun e => by
        rw [hw] at e
        rw [← e] at hl
        exact lt_irrefl _ hl
      have hu : u = changeCtl d waits s := by
        show replaceIfHigher d (some c) s = _
        unfold replaceIfHigher
        refine (if_pos (by rw [hasserted]; exact decide_eq_true hl)).trans ?_
        unfold replaceStop
        extract_lets k orderly turning kind s1
        have horderly : orderly = false := by
          simp only [orderly, k, hx]
          rw [hkind]
          rfl
        have hturning : turning = false := by simp only [turning, horderly, Bool.false_and]
        refine (if_neg (by rw [hturning]; exact Bool.false_ne_true)).trans ?_
        simp only [s1, kind, horderly, hturning, k, waits, hw, Bool.false_eq_true, if_false]
      rw [if_neg hne, hu, changeCtl_ctl, changeCtl_gate]
      exact ⟨changeCtl_told d waits s, weighed_outputs hout hf (weighedStop_kind hkind), rfl⟩
    · have hw : weighedStop (some c) x = x := if_neg hl
      have hu : u = s := if_neg (by rw [hasserted]; exact fun e => hl (of_decide_eq_true e))
      rw [if_pos hw, hu]
      exact ⟨.refl s, (hstay hw).symm, rfl⟩

/-- A waiting FIRE-kind stop at the end of an event. -/
theorem waiting_goes {d : Fin 4} {s : State} (hout : CtlOk (s.ctl d)) (hf : (s.ctl d).fireStopping = true) (causes : List StopCause) :
    let t := fireWait d (takeCauses d causes s)
    FireStopGoes d (strongest (causes.filter StopCause.takenStopping)) (s.ctl d) s t ∧ t.gate d = s.gate d := by
  intro t
  have ht : t = fireWait d (replaceIfHigher d (strongest (causes.filter StopCause.takenStopping)) s) := by
    show fireWait d (takeCauses d causes s) = _
    rw [takeCauses_waiting hf]
  rw [ht]
  have hfixed := (replaceIfHigher_within d (strongest (causes.filter StopCause.takenStopping)) s).fixed
  have hleft (x : Stop) (hx : (s.ctl d).stop = some x) :=
    replaceIfHigher_waiting hout hf hx (strongest (causes.filter StopCause.takenStopping))
  generalize strongest (causes.filter StopCause.takenStopping) = cause at *
  generalize replaceIfHigher d cause s = u at *
  obtain ⟨hs, x, hx, hkind⟩ := (fireStopping_iff _).mp hf
  have hx : (s.ctl d).stop = some x := hx
  obtain ⟨htold, hctl, hgate⟩ := hleft x hx
  obtain ⟨htoldWait, hgateWait, hstops, hwaits, -, -⟩ := fireWait_left d u
  generalize fireWait d u = w at *
  refine ⟨fun y hy => ?_, hgateWait.trans hgate⟩
  obtain rfl : x = y := Option.some.inj (hx.symm.trans hy)
  have hwaiting : (u.ctl d).fireStopping = true := by
    rw [hctl]
    exact (fireStopping_iff _).mpr ⟨hs, _, rfl, weighedStop_kind hkind⟩
  have hends : GateEnds d u ↔ (s.gateCfg d).installed = false ∨ (w.gate d).state = .closed ∨ (w.gate d).state = .fault := by
    unfold GateEnds
    rw [hgateWait, State.gateCfg, State.gateCfg, State.ductCfg, State.ductCfg, hfixed.cfg_eq]
  show w.ctl d = { s.ctl d with
      stop := some (weighedStop cause x),
      state := if (s.gateCfg d).installed = false ∨ (w.gate d).state = .closed ∨ (w.gate d).state = .fault then .stopped else .stopping,
      purge := if (s.gateCfg d).installed = false ∨ (w.gate d).state = .closed ∨ (w.gate d).state = .fault then none else (s.ctl d).purge,
      feeder := false, fan := false } ∧
    OffersThese ((if weighedStop cause x = x then [] else [stateNotice d (s.ctl d) { s.ctl d with stop := some (weighedStop cause x) }]) ++
      (if (s.gateCfg d).installed = false ∨ (w.gate d).state = .closed ∨ (w.gate d).state = .fault then
        [stateNotice d { s.ctl d with stop := some (weighedStop cause x) }
          { s.ctl d with stop := some (weighedStop cause x), state := .stopped }] else [])) s w
  by_cases he : GateEnds d u
  · have hend := hstops hwaiting he
    have hstate : (u.ctl d).state = .stopping := Ctl.fireStopping_state hwaiting
    rw [hend, if_neg (by rw [hstate]; nofun)] at htoldWait
    rw [if_pos (hends.mp he), if_pos (hends.mp he), if_pos (hends.mp he), hend, hctl]
    rw [hctl] at htoldWait
    exact ⟨rfl, (htold.trans htoldWait hfixed.tick_eq).offersThese (.refl _)⟩
  · have hend := hwaits hwaiting he
    obtain ⟨hfeeder, hfan⟩ := fireStopping_outputs hout hf
    rw [hend, if_pos rfl] at htoldWait
    rw [if_neg (mt hends.mpr he), if_neg (mt hends.mpr he), if_neg (mt hends.mpr he), hend, hctl]
    refine ⟨?_, (htold.trans htoldWait hfixed.tick_eq).offersThese (.refl _)⟩
    generalize s.ctl d = c at hs hfeeder hfan
    cases c
    dsimp only at hs hfeeder hfan
    subst hs hfeeder hfan
    rfl

/-! ### The stop inside a larger event -/

theorem OffersThese.part {l m : List Offer} {s t : State} (h : OffersThese l s t) (hm : m.Subperm l) : OffersThese m s t := by
  obtain ⟨k, hperm, hsub⟩ := hm
  obtain ⟨more, os, hos, ht⟩ := h.mono hsub
  exact ⟨more, os, hos.trans (hperm.append_right more), ht⟩

theorem OffersThese.append {l m : List Offer} {s t w : State} (h : OffersThese l s t) (k : Told m t w) (ht : t.tick = s.tick) :
    OffersThese (l ++ m) s w := by
  obtain ⟨more, os, hos, htold⟩ := h
  refine ⟨more, os ++ m, (hos.append_right m).trans ?_, Told.trans htold k ht⟩
  rw [List.append_assoc, List.append_assoc]
  exact List.perm_append_comm.append_left l

theorem OffersThese.tells {l : List Offer} {s t : State} (h : OffersThese l s t) (ht : t.tick = s.tick) : Tells s t := by
  obtain ⟨-, os, -, htold⟩ := h
  exact ⟨ht, os, htold⟩

theorem FireStopGoes.more {d : Fin 4} {cause : Option StopCause} {old : Ctl} {s t w : State} (h : FireStopGoes d cause old s t)
    (ht : t.tick = s.tick) (k : Tells t w) (hctl : w.ctl d = t.ctl d) (hgate : w.gate d = t.gate d) : FireStopGoes d cause old s w := by
  unfold FireStopGoes at h ⊢
  rw [hctl, hgate]
  intro x hx
  obtain ⟨hrecord, htold⟩ := h x hx
  exact ⟨hrecord, htold.more ht k⟩

theorem FireStopGoes.before {d : Fin 4} {cause : Option StopCause} {old : Ctl} {s u t : State} (k : Tells s u) (hcfg : u.cfg = s.cfg)
    (h : FireStopGoes d cause old u t) : FireStopGoes d cause old s t := by
  unfold FireStopGoes State.gateCfg State.ductCfg at h ⊢
  rw [hcfg] at h
  intro x hx
  obtain ⟨hrecord, htold⟩ := h x hx
  exact ⟨hrecord, htold.before k⟩

theorem fireWait_twice (d : Fin 4) (s : State) : fireWait d (fireWait d s) = fireWait d s := by
  by_cases hf : (s.ctl d).fireStopping = true
  · by_cases hg : GateEnds d s
    · obtain ⟨-, -, hstops, -⟩ := fireWait_left d s
      refine fireWait_eq ?_
      rw [hstops hf hg]
      rfl
    · rw [fireWait_waits hg, fireWait_waits hg]
  · rw [fireWait_eq (Bool.eq_false_iff.mpr hf), fireWait_eq (Bool.eq_false_iff.mpr hf)]

theorem fireWait_fireSequence (d : Fin 4) (cause : StopCause) (s : State) :
    fireWait d (fireSequence d cause s) = fireSequence d cause s := fireWait_twice d _

/-- The notices of the close command are among those of the decisions, where one of the tracks lists the gate. -/
theorem closeNotices_sublist {s : State} {d : Fin 4} {l : List Track} (g : Gate) (h : ∃ x ∈ l, x.gate.isSome = true) :
    (closeNotices s d g).Sublist (decisionNotices s d g l) := by
  induction l with
  | nil =>
    obtain ⟨x, hx, -⟩ := h
    nomatch hx
  | cons x rest ih =>
    rw [decisionNotices]
    refine List.Sublist.cons _ ?_
    cases hx : x.gate.isSome
    · refine List.Sublist.trans ?_ (List.sublist_append_right _ _)
      rw [gateAfter, hx]
      refine ih ?_
      obtain ⟨y, hy, hs⟩ := h
      obtain rfl | hy := List.mem_cons.mp hy
      · exact absurd (hx.symm.trans hs) Bool.false_ne_true
      · exact ⟨y, hy, hs⟩
    · exact List.sublist_append_left _ _

/-- A FIRE-kind stop after gate decisions, as the whole event shows it: the close command came with the first of them or with the
stop (R81, R106). -/
theorem FireStops.decided {d : Fin 4} {cause : StopCause} {s u w : State} {l : List Track}
    (h : FireStops d cause u w) (hcfg : u.cfg = s.cfg) (htick : u.tick = s.tick) (hclose : CloseTold d s u)
    (hgate : u.gate d = l.foldl (gateAfter (s.gateCfg d) s.tick) (s.gate d))
    (htold : OffersThese (decisionNotices s d (s.gate d) l) s u) : FireStopped d cause (u.ctl d) s w := by
  have hinstalled : u.gateCfg d = s.gateCfg d := by rw [State.gateCfg, State.gateCfg, State.ductCfg, State.ductCfg, hcfg]
  have hshut : shutGate (u.gateCfg d) u.tick (u.gate d) = shutGate (s.gateCfg d) s.tick (s.gate d) := by
    rw [hinstalled, htick, hgate, gateAfter_foldl]
    split
    · exact shutGate_twice _ _ _
    · rfl
  have hrecord := h.ctl
  have hall := htold.append h.told htick
  rw [hinstalled] at hrecord
  refine ⟨h.gate.trans hshut, hall.part ?_, hrecord⟩
  unfold fireStopNotices
  dsimp only
  rw [hshut, hinstalled, hclose.notices hcfg htick, hgate, gateAfter_foldl]
  by_cases hl : ∃ x ∈ l, x.gate.isSome = true
  · rw [if_pos hl, closeNotices_still (shutGate_not_closable _ _ _), List.nil_append]
    refine List.perm_middle.symm.subperm.trans (List.Sublist.subperm ?_)
    exact (closeNotices_sublist _ hl).append (.refl _)
  · rw [if_neg hl]
    exact (List.sublist_append_right _ _).subperm

/-! ### What stop causes leave of the gate (R106) -/

theorem closeSequence_gate (d : Fin 4) (c : Ctl) (s : State) : GateShut d s (fireWait d (closeCommand d (changeCtl d c s))) := by
  obtain ⟨-, hgate, -⟩ := fireWait_left d (closeCommand d (changeCtl d c s))
  obtain ⟨-, hshut⟩ := closeCommand_left d (changeCtl d c s)
  unfold GateShut at hshut ⊢
  rw [hgate, hshut, changeCtl_gate]
  rfl

theorem beginStop_gate (d : Fin 4) (c : StopCause) (s : State) :
    (beginStop d c s).gate d = s.gate d ∨ GateShut d s (beginStop d c s) := by
  unfold beginStop
  dsimp only
  split
  · exact .inr (closeSequence_gate d _ s)
  · split
    · exact .inl ((enterStopped_gate d _).trans (changeCtl_gate d _ s))
    · exact .inl (changeCtl_gate d _ s)

theorem replaceIfHigher_gate (d : Fin 4) (c : Option StopCause) (s : State) :
    (replaceIfHigher d c s).gate d = s.gate d ∨ GateShut d s (replaceIfHigher d c s) := by
  unfold replaceIfHigher
  split
  · split
    · unfold replaceStop
      extract_lets k orderly turning kind s1
      split
      · exact .inr (closeSequence_gate d _ s)
      · exact .inl (changeCtl_gate d _ s)
    · exact .inl rfl
  · exact .inl rfl

/-- Stop causes leave the gate as it is, or order it shut. -/
theorem takeCauses_gate (d : Fin 4) (l : List StopCause) (s : State) :
    (takeCauses d l s).gate d = s.gate d ∨ GateShut d s (takeCauses d l s) := by
  unfold takeCauses
  split
  case h_5 | h_6 => exact replaceIfHigher_gate d _ s
  case h_7 => exact .inl rfl
  all_goals
    split
    · exact beginStop_gate d _ s
    · exact .inl rfl

/-! ### A valve whose opening is not confirmed (R77, R79, R80) -/

/-- The valve enters FAULT, with VALVE_FAULT. -/
def failValve (d : Fin 4) (v : Fin 2) (s : State) : State :=
  let new := { s.valve d v with state := .fault, timer := none }
  raiseTrouble (ductZone d) .valveFault v.val (offer (valveOffer d v (s.valve d v) new) (s.setValve d v new))

theorem flowConfirmExpires_eq {d : Fin 4} {v : Fin 2} {s : State} (ht : (s.valve d v).timer = some s.tick)
    (hs : (s.valve d v).state = .opened) : flowConfirmExpires d v s =
      dcEvent d (rejudge d (failValve d v s)).1 (rejudge d (failValve d v s)).2 := if_pos (expires_in ht hs)

theorem failValve_local {d : Fin 4} {v : Fin 2} {s : State} (hs : (s.valve d v).state = .opened) :
    Local [.valves] d s (failValve d v s) := by
  have hvalve : Local [.valves] d s (s.setValve d v { s.valve d v with state := .fault, timer := none }) :=
    setValve_local fun hv => by simpa [ValveOk, hs] using hv.1
  exact hvalve.trans ((Local.mono (offer_local d _ _) (by simp)).trans (Local.mono (raiseTrouble_local d _ _ _ _) (by simp)))

theorem failValve_left (d : Fin 4) (v : Fin 2) (s : State) :
    let new := { s.valve d v with state := .fault, timer := none }
    let u := failValve d v s
    Told (valveNotice d v (s.valve d v) new :: raiseNotices s (ductZone d) .valveFault v.val) s u ∧
      u.duct d = { s.duct d with valves := (s.duct d).valves.set v new } ∧ Raised u (ductZone d) .valveFault v.val ∧
      (∀ z n, Raised u z .gateFault n ↔ Raised s z .gateFault n) := by
  intro new u
  have hoffer : Told [valveNotice d v (s.valve d v) new] s (offer (valveOffer d v (s.valve d v) new) (s.setValve d v new)) :=
    .after (t := s.setValve d v new) rfl rfl (offer_told _ _)
  refine ⟨hoffer.trans (raiseTrouble_told _ _ _ _) rfl, (raiseTrouble_duct _ _ _ _ d).trans (setValve_duct s d v new),
    raised_raiseTrouble _ _ _ _, fun z n => ?_⟩
  refine (raised_raiseTrouble_iff _ _ _ _ _ _ _).trans ⟨fun h => h.elim (fun e => ?_) id, .inr⟩
  exact nomatch e.2.1

/-- The judgments and gate decisions after a valve's entry to FAULT (R80, R81). -/
theorem rejudge_left {d : Fin 4} {s u : State} (hc : u.cfg = s.cfg) (ht : u.tick = s.tick) (hgate : u.gate d = s.gate d)
    (hr : Raised u (ductZone d) .gateFault 0 ↔ Raised s (ductZone d) .gateFault 0) :
    let r := rejudge d u
    let news := newlyUnquenched (u.duct d)
    r.1 = decideAll (s.gateCfg d) s.tick (s.gate d) news ∧ Told (decisionNotices s d (s.gate d) news) u r.2 ∧
      r.2.gate d = news.foldl (gateAfter (s.gateCfg d) s.tick) (s.gate d) ∧ CloseTold d s r.2 ∧
      (r.2.duct d).tracks = (u.duct d).tracks.map (Track.rejudged (u.duct d).valves) := by
  intro r news
  have hset : (u.setDuct d { u.duct d with tracks := (u.duct d).tracks.map (Track.rejudged (u.duct d).valves) }).gate d = s.gate d := by
    rw [State.gate, u.setDuct_duct_self]
    exact hgate
  obtain ⟨hcauses, htold, hafter, hclose⟩ := gateDecisions_left (d := d) (s := s) news
    (u := u.setDuct d { u.duct d with tracks := (u.duct d).tracks.map (Track.rejudged (u.duct d).valves) }) hc ht (.inl hr)
  have hlocal := gateDecisions_local d news
    (u.setDuct d { u.duct d with tracks := (u.duct d).tracks.map (Track.rejudged (u.duct d).valves) })
  rw [hset] at hcauses htold hafter
  refine ⟨hcauses, .after (t := u.setDuct d _) rfl rfl htold, hafter, hclose, ?_⟩
  exact (show (r.2.duct d).tracks = _ from hlocal.same .tracks (by decide)).trans (congrArg Duct.tracks (u.setDuct_duct_self d _))

theorem decided_taken {k : GateCfg} {now : Tick} {g : Gate} {l : List Track} (hl : l ≠ []) :
    let cause := if .outrun ∈ decideAll k now g l then StopCause.outrun else .diverted
    strongest (decideAll k now g l) = some cause ∧
      (decideAll k now g l).filter StopCause.takenStopping = decideAll k now g l ∧
      (decideAll k now g l).filter (fun c => decide (c = .zoneFire)) = [] ∧ cause.kind = .fire := by
  intro cause
  have hor := decideAll_or k now l g
  refine ⟨strongest_decided hor (mt (decideAll_eq_nil k now g l).mp hl), List.filter_eq_self.mpr fun c hc => ?_,
    List.filter_eq_nil_iff.mpr fun c hc => ?_, ?_⟩
  · obtain rfl | rfl := hor c hc <;> rfl
  · obtain rfl | rfl := hor c hc <;> decide
  · show (if _ then _ else _ : StopCause).kind = .fire
    split <;> rfl

theorem takeCauses_resting {d : Fin 4} {s : State} (hs : (s.ctl d).state = .offline ∨ (s.ctl d).state = .stopped) {causes : List StopCause}
    (hc : causes.filter (fun c => decide (c = .zoneFire)) = []) : takeCauses d causes s = s := by
  unfold takeCauses
  obtain h | h := hs
  · rw [h]
  · rw [h, hc]
    rfl

/-- The Duct Controller takes the causes of an event, as the whole event shows it, gate decisions for `l` before them. -/
structure CausesTaken (d : Fin 4) (l : List Track) (causes : List StopCause) (s u t : State) : Prop where
  stops : ∀ cause : StopCause, cause.kind = .fire → strongest causes = some cause →
    ((u.ctl d).state.isRunning = true ∨ strongest (causes.filter StopCause.takenStopping) = some cause) → TakesFireStop (u.ctl d) →
    FireStopped d cause (u.ctl d) s t
  goes : (u.ctl d).fireStopping = true →
    FireStopGoes d (strongest (causes.filter StopCause.takenStopping)) (u.ctl d) s t ∧ t.gate d = u.gate d
  rests : (u.ctl d).state = .offline ∨ (u.ctl d).state = .stopped ∨ causes = [] ∧ (u.ctl d).fireStopping = false →
    t.ctl d = u.ctl d ∧ t.gate d = u.gate d
  shuts : ∀ x ∈ l, x.gate.isSome = true → GateShut d s t

theorem dcEvent_causes {d : Fin 4} {l : List Track} {causes : List StopCause} {s u : State} (hok : ZonesOk u) (hout : CtlOk (u.ctl d))
    (hcfg : u.cfg = s.cfg) (htick : u.tick = s.tick) (hclose : CloseTold d s u)
    (hgate : u.gate d = l.foldl (gateAfter (s.gateCfg d) s.tick) (s.gate d))
    (htold : OffersThese (decisionNotices s d (s.gate d) l) s u)
    (hresting : causes.filter (fun c => decide (c = .zoneFire)) = []) : CausesTaken d l causes s u (dcEvent d causes u) := by
  have hlocal := (takeCauses_local d causes u).trans ((fireWait_local d (takeCauses d causes u)).mono (by simp))
  obtain ⟨-, m, hm⟩ := ((takeCauses_kept d causes u).trans (fireWait_kept d _)).tells
  have hreported := settleDuct_reported (d := d) (hlocal.hazards.zonesOk hlocal.nodup hok) hm hlocal.within.fixed.tick_eq (hlocal.hazards _)
  have hctl : (dcEvent d causes u).ctl d = (fireWait d (takeCauses d causes u)).ctl d := hreported.ctl
  have hsame : (dcEvent d causes u).gate d = (fireWait d (takeCauses d causes u)).gate d := hreported.gate
  have htells : Tells (fireWait d (takeCauses d causes u)) (dcEvent d causes u) := (settleDuct_kept d _).tells
  have hfixed := hlocal.within.fixed
  generalize dcEvent d causes u = t at *
  have hinstalled : u.gateCfg d = s.gateCfg d := by rw [State.gateCfg, State.gateCfg, State.ductCfg, State.ductCfg, hcfg]
  refine ⟨fun cause hkind hwhole hstopping hstop => ?_, fun hf => ?_, fun hs => ?_, fun x hx hs => ?_⟩
  · have htaken : fireWait d (takeCauses d causes u) = fireSequence d cause u := by
      obtain hrun | ⟨hst, x, hx, hox, hl⟩ := hstop
      · rw [takeCauses_running_eq hrun, hwhole]
        exact (congrArg (fireWait d) (beginStop_fire hkind hrun)).trans (fireWait_fireSequence d cause u)
      · have hfilter := hstopping.resolve_left (by rw [hst]; exact Bool.false_ne_true)
        rw [takeCauses_fire hkind hwhole hfilter (.inr ⟨hst, x, hx, hox, hl⟩), fireWait_fireSequence]
    rw [htaken] at hctl hsame htells hfixed
    exact ((fireSequence_left d cause u).decided hcfg htick hclose hgate htold).more (hfixed.tick_eq.trans htick) htells hctl hsame
  · obtain ⟨hgoes, hstay⟩ := waiting_goes hout hf causes
    exact ⟨.before (htold.tells htick) hcfg (hgoes.more hfixed.tick_eq htells hctl hsame), hsame.trans hstay⟩
  · have hwait : (u.ctl d).fireStopping = false := by
      refine Bool.eq_false_iff.mpr fun hf => ?_
      have hstopping := Ctl.fireStopping_state hf
      rcases hs with h | h | h
      · exact nomatch hstopping.symm.trans h
      · exact nomatch hstopping.symm.trans h
      · exact nomatch hf.symm.trans h.2
    have htaken : takeCauses d causes u = u := by
      rcases hs with h | h | h
      · exact takeCauses_resting (.inl h) hresting
      · exact takeCauses_resting (.inr h) hresting
      · rw [h.1, takeCauses_nil]
    rw [htaken, fireWait_eq hwait] at hctl hsame
    exact ⟨hctl, hsame⟩
  · have hshut : u.gate d = shutGate (s.gateCfg d) s.tick (s.gate d) := by
      rw [hgate, gateAfter_foldl]
      exact if_pos ⟨x, hx, hs⟩
    have htwice : shutGate (u.gateCfg d) u.tick (u.gate d) = shutGate (s.gateCfg d) s.tick (s.gate d) := by
      rw [hinstalled, htick, hshut, shutGate_twice]
    obtain ⟨-, hwait, -⟩ := fireWait_left d (takeCauses d causes u)
    refine hsame.trans (hwait.trans ?_)
    obtain h | h := takeCauses_gate d causes u
    · exact h.trans hshut
    · exact h.trans htwice

/-- The Duct Controller's event after gate decisions alone. -/
theorem dcEvent_decided {d : Fin 4} {l : List Track} {s u : State} (hok : ZonesOk u) (hout : CtlOk (u.ctl d))
    (hcfg : u.cfg = s.cfg) (htick : u.tick = s.tick) (hclose : CloseTold d s u)
    (hgate : u.gate d = l.foldl (gateAfter (s.gateCfg d) s.tick) (s.gate d))
    (htold : OffersThese (decisionNotices s d (s.gate d) l) s u) :
    let causes := decideAll (s.gateCfg d) s.tick (s.gate d) l
    let cause : StopCause := if .outrun ∈ causes then .outrun else .diverted
    let t := dcEvent d causes u
    let old := u.ctl d
    (l = [] → old.fireStopping = false → t.gate d = s.gate d ∧ t.ctl d = old) ∧
      (∀ x ∈ l, x.gate.isSome = true → GateShut d s t) ∧
      (l ≠ [] → TakesFireStop old → FireStopped d cause old s t) ∧
      (old.fireStopping = true → FireStopGoes d (if l = [] then none else some cause) old s t ∧ t.gate d = u.gate d) ∧
      (old.state = .offline ∨ old.state = .stopped → t.ctl d = old ∧ t.gate d = u.gate d) := by
  intro causes cause t old
  have hdecided (hl : l ≠ []) := decided_taken (k := s.gateCfg d) (now := s.tick) (g := s.gate d) hl
  have hnil (hl : l = []) : causes = [] := (decideAll_eq_nil _ _ _ _).mpr hl
  have hresting : causes.filter (fun c => decide (c = .zoneFire)) = [] := by
    by_cases hl : l = []
    · rw [hnil hl]
      rfl
    · exact (hdecided hl).2.2.1
  have h := dcEvent_causes hok hout hcfg htick hclose hgate htold hresting
  refine ⟨fun hl hf => ?_, h.shuts, fun hl hstop => ?_, fun hf => ?_, fun hs => h.rests (hs.imp id .inl)⟩
  · obtain ⟨hctl, hsame⟩ := h.rests (.inr (.inr ⟨hnil hl, hf⟩))
    rw [hl] at hgate
    exact ⟨hsame.trans hgate, hctl⟩
  · obtain ⟨hstrong, hfilter, -, hkind⟩ := hdecided hl
    exact h.stops cause hkind hstrong (.inr (by rw [show causes.filter _ = _ from hfilter]; exact hstrong)) hstop
  · have hcause : strongest (causes.filter StopCause.takenStopping) = if l = [] then none else some cause := by
      by_cases hl : l = []
      · rw [if_pos hl, hnil hl]
        rfl
      · obtain ⟨hstrong, hfilter, -⟩ := hdecided hl
        rw [if_neg hl, show causes.filter StopCause.takenStopping = causes from hfilter]
        exact hstrong
    rw [← hcause]
    exact h.goes hf

theorem gateAfter_none {k : GateCfg} {now : Tick} {g : Gate} {l : List Track} (h : ∀ x ∈ l, x.gate = none) :
    l.foldl (gateAfter k now) g = g := by
  rw [gateAfter_foldl]
  refine if_neg ?_
  rintro ⟨x, hx, hs⟩
  rw [h x hx] at hs
  exact Bool.false_ne_true hs

/-- Settles O48: the valve's FAULT, the judgments and decisions, and the stop. -/
theorem unconfirmedOpeningFaultsTheValve : Obligations.UnconfirmedOpeningFaultsTheValve := by
  intro d v s hw htimer hstate after
  have hrun : exec (.flowConfirmExpiry d v) s = .next (flowConfirmExpires d v s) := whenRunning_working s _ hw
  rw [hrun, flowConfirmExpires_eq htimer hstate]
  have hlocalF := failValve_local hstate
  obtain ⟨htoldF, hductF, hraisedF, hgateFaultF⟩ := failValve_left d v s
  generalize failValve d v s = f at hlocalF htoldF hductF hraisedF hgateFaultF
  have hfixedF := hlocalF.within.fixed
  have hgateF : f.gate d = s.gate d := by
    rw [State.gate, hductF]
    rfl
  obtain ⟨hcauses, htoldR, hgateR, hclose, htracks⟩ := rejudge_left hfixedF.cfg_eq hfixedF.tick_eq hgateF (hgateFaultF _ _)
  have hlocalR := rejudge_local d f
  have hraisedR : Raised (rejudge d f).2 (ductZone d) .valveFault v.val ↔ Raised f (ductZone d) .valveFault v.val :=
    gateDecisions_raised d _ (by decide) _ _ _
  generalize rejudge d f = r at hcauses htoldR hgateR hclose htracks hlocalR hraisedR
  have hnews : newlyUnquenched (f.duct d) = (s.duct d).tracks.filter fun x => x.quenched && !x.valves.any fun e => !(e.late ||
      (decide (after[e.valve].state = .fault) && Tick.later e.closeTick after[e.valve].openTick)) := by
    rw [hductF]
    rfl
  rw [hnews] at hcauses htoldR hgateR
  have hlocal := (hlocalF.mono (n := [.valves, .tracks, .gate]) (by simp)).trans (hlocalR.mono (by simp))
  have htold := htoldF.trans htoldR hfixedF.tick_eq
  have hfixed := hlocal.within.fixed
  have hkept := dcEvent_kept d r.1 r.2
  have hwithin := (hlocal.within.mono (n := .hazard) rfl).trans hkept.within
  obtain ⟨hkTracks, hkNextId, hkValves, hkFlood, hkTest⟩ := hkept.water d
  have hnotice : after[v] = { s.valve d v with state := .fault, timer := none } := Vector.getElem_set_self _
  refine ⟨_, rfl, ?_, ?_, ?_, ?_, ?_, ?_, hwithin.links, hwithin.fixed, ⟨hwithin.channels rfl, hwithin.stations rfl, hwithin.inputs rfl,
    hwithin.captures rfl⟩, ?_, fun hok hp hout => ?_⟩
  · refine hkValves.trans ((show (r.2.duct d).valves = _ from hlocalR.same .valves (by decide)).trans ?_)
    rw [hductF]
  · exact (hkept.raised .valveFault ⟨by decide, by decide⟩ (by decide) _ _).mpr (hraisedR.mpr hraisedF)
  · rw [hkTracks, htracks, hductF]
    rfl
  · exact hkNextId.trans (hlocal.same .nextId (by decide))
  · exact hkFlood.trans (hlocal.same .flood (by decide))
  · exact hkTest.trans (hlocal.same .test (by decide))
  · dsimp only
    rw [hnotice]
    exact (htold.offersThese (.refl _)).more hfixed.tick_eq hkept.tells
  · have hctl : r.2.ctl d = s.ctl d := hlocal.ctl_eq (by decide)
    obtain ⟨houtputs, -⟩ := hout d
    obtain ⟨hnone, hshut, hstop, hgoes, hrest⟩ := dcEvent_decided (hlocal.hazards.zonesOk hlocal.nodup hok) (by rw [hctl]; exact houtputs)
      hfixed.cfg_eq hfixed.tick_eq hclose hgateR (htold.offersThese (List.sublist_append_right _ _).subperm)
    rw [hctl] at hnone hstop hgoes hrest
    rw [hcauses]
    refine ⟨hnone, hshut, hstop, fun hf => ⟨(hgoes hf).1, fun h => ?_⟩, fun hs => ⟨(hrest hs).1, fun h => ?_⟩⟩
    · exact (hgoes hf).2.trans (hgateR.trans (gateAfter_none h))
    · exact (hrest hs).2.trans (hgateR.trans (gateAfter_none h))

end Sys2Proof.Machine
end

