-- ==== Sys2Proof/Proofs/VelocityEvents.lean ====
section
/-! PROOFS. The Velocity Unit (R43 to R46) and its reports at the Duct Controller (R96, R97, R102). -/

namespace Sys2Proof.Machine

open Sys2Proof

/-! ### The table of R44 -/

theorem sampled_bad_iff (v : Velocity) (code : Code) :
    (v.sampled code).bad = true ↔ v.bad = true ∨ code.toNat < 16 ∨ 4079 < code.toNat := by
  show (v.bad || !liveBand code) = true ↔ _
  rw [Bool.or_eq_true, Bool.not_eq_true', liveBand, Bool.and_eq_false_iff, decide_eq_false_iff_not, decide_eq_false_iff_not, not_le, not_le]

/-- The record of a Velocity Unit after an update moves by the table (R44). -/
theorem updated_moves (v : Velocity) (span : Nat) (code : Code) (now : Tick) :
    let w := v.updated span code now
    let bad := v.bad = true ∨ code.toNat < 16 ∨ 4079 < code.toNat
    let m := (v.sum + code.toNat) * span / 262080
    w = { v with count := 0, sum := 0, bad := false, state := w.state, value := w.value, hold := w.hold, recovery := w.recovery } ∧
      (¬bad → v.state ≠ .failed → w.state = .valid ∧ w.value = m ∧ w.hold = none ∧ w.recovery = 0) ∧
      (¬bad → v.state = .failed → v.recovery < 7 →
        w.state = .failed ∧ w.value = v.value ∧ w.hold = v.hold ∧ w.recovery = v.recovery + 1) ∧
      (¬bad → v.state = .failed → 7 ≤ v.recovery → w.state = .valid ∧ w.value = m ∧ w.hold = none ∧ w.recovery = 0) ∧
      (bad → v.state = .valid → w.state = .held ∧ w.value = v.value ∧ w.hold = some (now.plus 8000) ∧ w.recovery = 0) ∧
      (bad → v.state = .held → w.state = .held ∧ w.value = v.value ∧ w.hold = v.hold) ∧
      (bad → v.state = .failed → w.state = .failed ∧ w.value = v.value ∧ w.recovery = 0) := by
  intro w bad m
  have hbad : (v.sampled code).bad = true ↔ bad := sampled_bad_iff v code
  by_cases hb : bad
  · have hw : w = { (v.sampled code).poor now with count := 0, sum := 0, bad := false } := by
      show v.updated span code now = _
      unfold Velocity.updated
      simp only [hbad.mpr hb, if_true]
    have hstate : (v.sampled code).state = v.state := rfl
    unfold Velocity.poor at hw
    rw [hw]
    cases hs : v.state <;> rw [hstate, hs] <;> simp [hb, hs, Velocity.sampled]
  · have hw : w = { (v.sampled code).good m with count := 0, sum := 0, bad := false } := by
      show v.updated span code now = _
      unfold Velocity.updated
      simp only [mt hbad.mp hb, Bool.false_eq_true, if_false]
      rfl
    have hstate : (v.sampled code).state = v.state := rfl
    unfold Velocity.good at hw
    rw [hw]
    cases hs : v.state
    case failed =>
      by_cases hr : v.recovery < 7
      · rw [hstate, hs]
        simp [hb, hs, show v.recovery + 1 < 8 by omega, show ¬7 ≤ v.recovery by omega, Velocity.sampled]
      · rw [hstate, hs]
        simp [hb, hs, show ¬v.recovery + 1 < 8 by omega, hr, Velocity.sampled]
    all_goals
      rw [hstate, hs]
      simp [hb, hs, Velocity.sampled]

/-! ### A change of the record (R46, R50) -/

/-- The notices of a change of the Velocity Unit's record. -/
def velocityNotices (s : State) (d : Fin 4) (old new : Velocity) : List Offer :=
  (if new.state = old.state then [] else [velocityNotice d old new]) ++
    (if old.state ≠ .failed ∧ new.state = .failed then raiseNotices s (ductZone d) .velocityFault (d.val + 1)
    else if old.state = .failed ∧ new.state ≠ .failed then clearNotices s (ductZone d) .velocityFault (d.val + 1) else [])

theorem changeVelocity_left (d : Fin 4) (new : Velocity) (s : State) :
    let old := (s.duct d).vel
    let u := changeVelocity d new s
    Told (velocityNotices s d old new) s u ∧
      u.duct d = { s.duct d with vel := { new with bounds := (u.duct d).vel.bounds } } ∧
      (old.state ≠ .failed → new.state = .failed → Raised u (ductZone d) .velocityFault (d.val + 1)) ∧
      (ZonesOk s → old.state = .failed → new.state ≠ .failed → ¬Raised u (ductZone d) .velocityFault (d.val + 1)) := by
  intro old u
  have hset := s.setDuct_duct_self d { s.duct d with
    vel := { new with bounds := boundsFor (s.ductCfg d) new.state new.value (s.duct d).ctl.state } }
  have hu : u = changeVelocity d new s := rfl
  unfold changeVelocity at hu
  dsimp only at hu
  generalize hv : s.setDuct d { s.duct d with
    vel := { new with bounds := boundsFor (s.ductCfg d) new.state new.value (s.duct d).ctl.state } } = v at hu hset
  have hports : v.ports = s.ports := by rw [← hv]; rfl
  have htick : v.tick = s.tick := by rw [← hv]; rfl
  have hzones : v.zones = s.zones := by rw [← hv]; rfl
  have hduct (w : State) (h : w.duct d = v.duct d) : w.duct d = { s.duct d with vel := { new with bounds := (w.duct d).vel.bounds } } := by
    rw [h, hset]
  unfold velocityNotices
  by_cases hsame : old.state = new.state
  · rw [if_pos hsame] at hu
    rw [if_pos hsame.symm, if_neg (by rw [hsame]; exact fun h => h.1 h.2), if_neg (by rw [hsame]; exact fun h => h.2 h.1), hu]
    exact ⟨.of_ports hports, hduct v rfl, fun h k => absurd (hsame.trans k) h, fun _ h k => absurd (hsame.symm.trans h) k⟩
  · rw [if_neg hsame] at hu
    rw [if_neg (Ne.symm hsame)]
    have hoffer : Told [velocityNotice d old new] s (offer (velocityOffer d old new) v) := .after hports htick (offer_told _ v)
    have hoffered : (offer (velocityOffer d old new) v).zones = s.zones := hzones
    have hofferDuct : (offer (velocityOffer d old new) v).duct d = v.duct d := rfl
    have hofferTick : (offer (velocityOffer d old new) v).tick = s.tick := htick
    generalize offer (velocityOffer d old new) v = w at hu hoffer hoffered hofferDuct hofferTick
    by_cases hf : new.state = .failed
    · have hold : old.state ≠ .failed := fun h => hsame (h.trans hf.symm)
      rw [if_pos hf] at hu
      rw [if_pos ⟨hold, hf⟩, hu]
      have hraise := raiseTrouble_told (ductZone d) .velocityFault (d.val + 1) w
      rw [raiseNotices_congr (raised_of_zones hoffered _ _ _)] at hraise
      exact ⟨hoffer.trans hraise hofferTick, hduct _ ((raiseTrouble_duct _ _ _ w d).trans hofferDuct), fun _ _ => raised_raiseTrouble _ _ _ w,
        fun _ h => absurd h hold⟩
    · rw [if_neg hf] at hu
      rw [if_neg fun h => hf h.2]
      by_cases hold : old.state = .failed
      · rw [if_pos hold] at hu
        rw [if_pos ⟨hold, hf⟩, hu]
        have hclear := clearTrouble_told (ductZone d) .velocityFault (d.val + 1) w
        rw [clearNotices_congr (raised_of_zones hoffered _ _ _)] at hclear
        refine ⟨hoffer.trans hclear hofferTick, hduct _ ((clearTrouble_duct _ _ _ w d).trans hofferDuct), fun _ h => absurd h hf,
          fun hok _ _ => clearTrouble_kind fun z => ?_⟩
        rw [State.zone, hoffered]
        exact hok z
      · rw [if_neg hold] at hu
        rw [if_neg fun h => hold h.1, hu]
        exact ⟨hoffer, hduct _ hofferDuct, fun _ h => absurd h hf, fun _ h => absurd h hold⟩

/-! ### The report at the Duct Controller (R96, R97, R102) -/

/-- A record that differs in what fixes no output keeps the outputs. -/
theorem withOutputs_same {c x : Ctl} (hc : CtlOk c) (hs : x.state = c.state) (hr : x.stop = c.stop) (hp : x.purge = c.purge)
    (hf : x.feeder = c.feeder) (hn : x.fan = c.fan) : x.withOutputs = x := by
  obtain ⟨hfeeder, hfan, -⟩ := hc
  have h1 : feederOn x.state = x.feeder := by rw [hs, hf, hfeeder]
  have h2 : fanOn x.state x.stop x.purge = x.fan := by rw [hs, hr, hp, hn, hfan]
  rw [Ctl.withOutputs, h1, h2]

theorem soundAir_iff (s : State) (d : Fin 4) :
    soundAir s d = true ↔ (s.duct d).vel.state = .valid ∧ (s.ductCfg d).lmin ≤ (s.duct d).vel.value := by
  rw [soundAir, Bool.and_eq_true, decide_eq_true_iff, decide_eq_true_iff]

theorem gateReady_iff (s : State) (d : Fin 4) :
    gateReady (s.gateState d) = true ↔ (s.gateCfg d).installed = false ∨ (s.gate d).state = .opened := by
  by_cases hi : (s.gateCfg d).installed = true
  · rw [gateState_some hi, hi]
    cases (s.gate d).state <;> simp [gateReady]
  · rw [gateState_none hi]
    simp [gateReady, hi]

theorem lowFlowAfter_eq (k : DuctCfg) (v : Velocity) (now : Tick) (timer : Option Tick) :
    lowFlowAfter k v now timer = if v.state = .failed ∨ k.lmin ≤ v.value then none
      else some (timer.getD (now.plus (4000 * k.lowFlowGrace))) := by
  have hseconds : secondsTicks k.lowFlowGrace = 4000 * k.lowFlowGrace := rfl
  unfold lowFlowAfter
  rw [hseconds]
  cases v.state
  case failed => simp
  all_goals
    by_cases h : v.value < k.lmin
    · rw [if_pos h, if_neg (by rintro (h | h) <;> [nomatch h; omega])]
    · rw [if_neg h, if_pos (.inr (by omega))]

theorem velocityReport_starting {d : Fin 4} {s : State} (h : (s.ctl d).state = .starting) :
    velocityReport d s = if soundAir s d && gateReady (s.gateState d) then
      changeCtl d { s.ctl d with state := .arming, arm := some (s.after 8000), windowClean := true, cleanCount := 0 } s else s := by
  unfold velocityReport
  dsimp only
  split
  case h_1 => rfl
  all_goals
    rename_i k
    exact nomatch h.symm.trans k

theorem velocityReport_arming {d : Fin 4} {s : State} (h : (s.ctl d).state = .arming) :
    velocityReport d s = if soundAir s d then s else s.setCtl d { s.ctl d with windowClean := false } := by
  unfold velocityReport
  dsimp only
  split
  case h_2 => rfl
  all_goals
    rename_i k
    exact nomatch h.symm.trans k

theorem velocityReport_guarding {d : Fin 4} {s : State} (h : (s.ctl d).state = .guarded ∨ (s.ctl d).state = .alert) :
    velocityReport d s =
      s.setCtl d { s.ctl d with lowFlow := lowFlowAfter (s.ductCfg d) (s.duct d).vel s.tick (s.ctl d).lowFlow } := by
  unfold velocityReport
  dsimp only
  split
  case h_3 | h_4 => rfl
  all_goals
    rename_i k
    exact h.elim (fun e => nomatch e.symm.trans k) fun e => nomatch e.symm.trans k

theorem velocityReport_resting {d : Fin 4} {s : State}
    (h : (s.ctl d).state = .offline ∨ (s.ctl d).state = .stopping ∨ (s.ctl d).state = .stopped) : velocityReport d s = s := by
  unfold velocityReport
  dsimp only
  split
  case h_5 | h_6 | h_7 => rfl
  all_goals
    rename_i k
    exact h.elim (fun e => nomatch e.symm.trans k) (·.elim (fun e => nomatch e.symm.trans k) fun e => nomatch e.symm.trans k)

/-- A velocity report changes the state from STARTING to ARMING alone. -/
theorem velocityReport_cases (d : Fin 4) (s : State) :
    let c := s.ctl d
    (∃ x : Ctl, x.state = c.state ∧ x.stop = c.stop ∧ velocityReport d s = s.setCtl d x) ∨ velocityReport d s = s ∨
      (c.state = .starting ∧ velocityReport d s =
        changeCtl d { c with state := .arming, arm := some (s.after 8000), windowClean := true, cleanCount := 0 } s) := by
  intro c
  have hs : ∀ x, c.state = x → (s.ctl d).state = x := fun _ => id
  cases h : c.state
  case starting =>
    rw [velocityReport_starting (hs _ h)]
    split
    · exact .inr (.inr ⟨rfl, rfl⟩)
    · exact .inr (.inl rfl)
  case arming =>
    rw [velocityReport_arming (hs _ h)]
    split
    · exact .inr (.inl rfl)
    · exact .inl ⟨{ s.ctl d with windowClean := false }, h, rfl, rfl⟩
  case guarded => exact .inl ⟨{ s.ctl d with lowFlow := lowFlowAfter (s.ductCfg d) (s.duct d).vel s.tick (s.ctl d).lowFlow }, h, rfl,
     velocityReport_guarding (.inl (hs _ h))⟩
  case alert => exact .inl ⟨{ s.ctl d with lowFlow := lowFlowAfter (s.ductCfg d) (s.duct d).vel s.tick (s.ctl d).lowFlow }, h, rfl,
     velocityReport_guarding (.inr (hs _ h))⟩
  case offline => exact .inr (.inl (velocityReport_resting (.inl (hs _ h))))
  case stopping => exact .inr (.inl (velocityReport_resting (.inr (.inl (hs _ h)))))
  case stopped => exact .inr (.inl (velocityReport_resting (.inr (.inr (hs _ h)))))

theorem setCtl_vel (d : Fin 4) (x : Ctl) (s : State) :
    ((s.setCtl d x).duct d).vel = { (s.duct d).vel with bounds := ((s.setCtl d x).duct d).vel.bounds } := by
  rw [State.setCtl, s.setDuct_duct_self]

/-- What a velocity report leaves: the notice of a change of state, the gate and the Velocity Unit's own record. -/
theorem velocityReport_left (d : Fin 4) (s : State) :
    let c := s.ctl d
    let u := velocityReport d s
    Told (if (u.ctl d).state = c.state then [] else [stateNotice d c (u.ctl d)]) s u ∧ u.zones = s.zones ∧ u.gate d = s.gate d ∧
      (u.duct d).vel = { (s.duct d).vel with bounds := (u.duct d).vel.bounds } ∧ ductStateLevel (u.ctl d) = ductStateLevel c := by
  intro c u
  obtain ⟨x, hs, hr, hu⟩ | hu | ⟨hs, hu⟩ : (∃ x : Ctl, x.state = c.state ∧ x.stop = c.stop ∧ u = s.setCtl d x) ∨ u = s ∨
    (c.state = .starting ∧ u = changeCtl d { c with state := .arming, arm := some (s.after 8000), windowClean := true, cleanCount := 0 } s) :=
      velocityReport_cases d s
  · have hctl := s.setCtl_ctl_self d x
    rw [hu, hctl, if_pos (show x.withOutputs.state = c.state from hs)]
    refine ⟨.of_ports rfl, rfl, s.setCtl_gate d x, setCtl_vel d x s, ?_⟩
    show ductStateLevel { x with feeder := _, fan := _ } = _
    unfold ductStateLevel Ctl.asserted
    dsimp only
    rw [hs, hr]
  · rw [hu, if_pos rfl]
    exact ⟨.refl s, rfl, rfl, rfl, rfl⟩
  · have hctl := changeCtl_ctl d { c with state := .arming, arm := some (s.after 8000), windowClean := true, cleanCount := 0 } s
    rw [hu, hctl, if_neg (by rw [hs]; nofun), stateNotice_withOutputs]
    refine ⟨changeCtl_told d _ s, rfl, changeCtl_gate d _ s, setCtl_vel d _ s, ?_⟩
    unfold ductStateLevel
    rw [hs]
    rfl

/-- The record of the Duct Controller after a velocity report (R96, R97, R102). -/
theorem velocityReport_ctl {d : Fin 4} {s : State} (hout : CtlOk (s.ctl d)) :
    let c := s.ctl d
    let w := (s.duct d).vel
    let lmin := (s.ductCfg d).lmin
    let t := velocityReport d s
    let sound := w.state = .valid ∧ lmin ≤ w.value
    let ready := (s.gateCfg d).installed = false ∨ (s.gate d).state = .opened
    (c.state = .starting → sound → ready → t.ctl d = { c with
      state := .arming, arm := some (s.tick.plus 8000), windowClean := true, cleanCount := 0 }) ∧
    (c.state = .starting → ¬(sound ∧ ready) → t.ctl d = c) ∧
    (c.state = .arming → sound → t.ctl d = c) ∧
    (c.state = .arming → ¬sound → t.ctl d = { c with windowClean := false }) ∧
    (c.state = .guarded ∨ c.state = .alert → t.ctl d = { c with
      lowFlow := if w.state = .failed ∨ lmin ≤ w.value then none
        else some (c.lowFlow.getD (s.tick.plus (4000 * (s.ductCfg d).lowFlowGrace))) }) ∧
    (c.state = .offline ∨ c.state = .stopping ∨ c.state = .stopped → t.ctl d = c) := by
  intro c w lmin t sound ready
  have hair : soundAir s d = true ↔ sound := soundAir_iff s d
  have hready : gateReady (s.gateState d) = true ↔ ready := gateReady_iff s d
  have hboth : (soundAir s d && gateReady (s.gateState d)) = true ↔ sound ∧ ready := by rw [Bool.and_eq_true, hair, hready]
  have hset (x : Ctl) (hs : x.state = c.state) (hr : x.stop = c.stop) (hp : x.purge = c.purge) (hf : x.feeder = c.feeder)
      (hn : x.fan = c.fan) : (s.setCtl d x).ctl d = x := (s.setCtl_ctl_self d x).trans (withOutputs_same hout hs hr hp hf hn)
  have htaken {u : State} (h : velocityReport d s = u) : t.ctl d = u.ctl d := congrArg (fun x : State => x.ctl d) h
  refine ⟨fun hs ha hb => ?_, fun hs hn => ?_, fun hs ha => ?_, fun hs ha => ?_, fun hs => ?_, fun hs => ?_⟩
  · rw [htaken ((velocityReport_starting hs).trans (if_pos (hboth.mpr ⟨ha, hb⟩))), changeCtl_ctl]
    obtain ⟨hfeeder, hfan, -⟩ := hout
    rw [show (s.ctl d).state = _ from hs] at hfeeder hfan
    show ({ c with state := .arming, arm := _, windowClean := _, cleanCount := _, feeder := false, fan := true } : Ctl) = _
    rw [show c.feeder = false from hfeeder, show c.fan = true from hfan]
    rfl
  · exact htaken ((velocityReport_starting hs).trans (if_neg (mt hboth.mp hn)))
  · exact htaken ((velocityReport_arming hs).trans (if_pos (hair.mpr ha)))
  · rw [htaken ((velocityReport_arming hs).trans (if_neg (mt hair.mp ha)))]
    exact hset _ rfl rfl rfl rfl rfl
  · rw [htaken (velocityReport_guarding hs),
      hset { s.ctl d with lowFlow := lowFlowAfter (s.ductCfg d) (s.duct d).vel s.tick (s.ctl d).lowFlow } rfl rfl rfl rfl rfl,
      lowFlowAfter_eq]
  · exact htaken (velocityReport_resting hs)

/-! ### The update and the hold timer (R43 to R46) -/

/-- A change of the velocity record, the report of it and the postings. -/
theorem velocityTaken_settled {d : Fin 4} {new : Velocity} {s : State} (hok : ZonesOk s) (hp : PostedAt s d) :
    let old := (s.duct d).vel
    let c := s.ctl d
    let u := velocityReport d (changeVelocity d new s)
    let t := settleDuct d u
    DuctSettled d (velocityNotices s d old new ++ (if (t.ctl d).state = c.state then [] else [stateNotice d c (t.ctl d)])) s u t ∧
      (t.duct d).vel = { new with bounds := (t.duct d).vel.bounds } ∧ t.gate d = s.gate d ∧ KeepsWater d s t ∧
      (old.state = .failed → new.state ≠ .failed → ¬Raised t (ductZone d) .velocityFault (d.val + 1)) := by
  intro old c u t
  obtain ⟨htold, hduct, -, hcleared⟩ := changeVelocity_left d new s
  have hlocal := changeVelocity_local d new s
  have hu : u = velocityReport d (changeVelocity d new s) := rfl
  have ht : t = settleDuct d u := rfl
  clear_value t u
  generalize changeVelocity d new s = w at htold hduct hcleared hlocal hu
  have hctl : w.ctl d = c := hlocal.ctl_eq (by decide)
  obtain ⟨htoldReport, hzones, hgate, hvel, hlevel⟩ := velocityReport_left d w
  have hlocalReport := velocityReport_local d w
  rw [← hu] at htoldReport hzones hgate hvel hlevel hlocalReport
  rw [hctl] at htoldReport hlevel
  have hall := (hlocal.mono (n := [.vel, .ctl, .posts]) (by simp)).trans (hlocalReport.mono (by simp))
  have hset := hall.settled (htold.trans htoldReport hlocal.within.fixed.tick_eq) hok fun e => hp.zone_fire hok (hlevel ▸ e)
  rw [← ht] at hset
  have hsame := hset.ctl
  refine ⟨by rw [hsame]; exact hset, ?_, hset.gate.trans (hgate.trans (hlocal.same .gate (by decide))), hset.water (hall.keepsWater (by decide)),
    fun hold hnew h => ?_⟩
  · rw [hset.vel, hvel, hduct]
  · refine hcleared hok hold hnew ?_
    exact (raised_of_zones hzones _ _ _).mp ((hset.raised _ ⟨by decide, by decide⟩ _ _).mp h)

/-- Settles O42: the samples, the update with the Duct Controller's reaction, and the hold timer's end. -/
theorem velocityMovesByItsTable : Obligations.VelocityMovesByItsTable := by
  intro d code s hup hok hp v c bad m lmin due
  have hsample : exec (.transducerSample d code) s =
      .next (if updatesNow s d then s else sampling (.transducer d) (transducerEvent d code) s) :=
    live_up s (fun s => if updatesNow s d then s else sampling (.transducer d) (transducerEvent d code) s) hup
  have hupdate : exec (.velocityUpdate d code) s =
      .next (if updatesNow s d then sampling (.transducer d) (velocityEvent d code) s else s) :=
    live_up s (fun s => if updatesNow s d then sampling (.transducer d) (velocityEvent d code) s else s) hup
  have hnow : updatesNow s d = true ↔ 63 ≤ v.count := decide_eq_true_iff
  refine ⟨fun hd hc => ?_, fun h => ?_, fun h => ?_, fun hd hc => ?_, fun hrun hhold hheld => ?_⟩
  · rw [hsample, if_neg (by rw [hnow]; omega), sampling_due hd]
    have hband : (!liveBand code) = (decide (code.toNat < 16) || decide (4079 < code.toNat)) := by
      rw [Bool.eq_iff_iff]
      simp [liveBand]
    show Host.Outcome.next ((s.tookSample _).setDuct d { s.duct d with vel := v.sampled code }) = _
    rw [Velocity.sampled, hband, ← Bool.or_assoc]
  · rw [hsample]
    obtain h | h := h
    · rw [sampling_idle h, ite_self]
    · rw [if_pos (hnow.mpr (by omega))]
  · rw [hupdate]
    obtain h | h := h
    · rw [sampling_idle h, ite_self]
    · rw [if_neg (by rw [hnow]; omega)]
  · rw [hupdate, if_pos (hnow.mpr (by omega)), sampling_due hd]
    obtain ⟨hrest, hgood, hwaits, hback, hpoor, hheld, hfailed⟩ := updated_moves v (s.ductCfg d).span code s.tick
    have hreport := @velocityReport_ctl d
      (changeVelocity d (v.updated (s.ductCfg d).span code s.tick) (s.tookSample (.transducer d)))
    have hlocal := changeVelocity_local d (v.updated (s.ductCfg d).span code s.tick) (s.tookSample (.transducer d))
    obtain ⟨-, hduct, -⟩ := changeVelocity_left d (v.updated (s.ductCfg d).span code s.tick) (s.tookSample (.transducer d))
    obtain ⟨hset, hvel, hgate, hwater, hcleared⟩ := velocityTaken_settled (new := v.updated (s.ductCfg d).span code s.tick)
      (s := s.tookSample (.transducer d)) hok (hp d)
    have hctl := hset.ctl
    have htold : DuctTold d _ s _ := DuctTold.after (s := s) (t := s.tookSample (.transducer d)) rfl rfl rfl hset.told
    have hevent : velocityEvent d code (s.tookSample (.transducer d)) = settleDuct d (velocityReport d
      (changeVelocity d (v.updated (s.ductCfg d).span code s.tick) (s.tookSample (.transducer d)))) := rfl
    rw [hevent]
    generalize v.updated (s.ductCfg d).span code s.tick = new at *
    generalize changeVelocity d new (s.tookSample (.transducer d)) = u at *
    generalize velocityReport d u = x at *
    generalize settleDuct d x = t at *
    have hstate : (t.duct d).vel.state = new.state := by rw [hvel]
    have hvalue : (t.duct d).vel.value = new.value := by rw [hvel]
    have hholdEq : (t.duct d).vel.hold = new.hold := by rw [hvel]
    have hrecovery : (t.duct d).vel.recovery = new.recovery := by rw [hvel]
    refine ⟨t, rfl, ?_, hgate, hwater, hset.links, hset.stays⟩
    dsimp only
    rw [hstate, hvalue, hholdEq, hrecovery]
    refine ⟨?_, hgood, hwaits, fun h1 h2 h3 => ?_, hpoor, hheld, hfailed, fun hout => ?_, ?_⟩
    · exact hvel.trans (congrArg (fun x : Velocity => { x with bounds := (t.duct d).vel.bounds }) hrest)
    · obtain ⟨h4, h5, h6, h7⟩ := hback h1 h2 h3
      exact ⟨h4, h5, h6, h7, hcleared h2 (by rw [h4]; nofun)⟩
    · obtain ⟨houtputs, -⟩ := hout d
      have huctl : u.ctl d = c := hlocal.ctl_eq (by decide)
      have hugate : u.gate d = s.gate d := hlocal.same .gate (by decide)
      have hustate : (u.duct d).vel.state = new.state := by rw [hduct]
      have huvalue : (u.duct d).vel.value = new.value := by rw [hduct]
      have hucfg : u.ductCfg d = s.ductCfg d := by rw [State.ductCfg, hlocal.within.fixed.cfg_eq]; rfl
      have hutick : u.tick = s.tick := hlocal.within.fixed.tick_eq
      have hrecord := hreport (by rw [huctl]; exact houtputs)
      dsimp only at hrecord
      rw [huctl, hugate, hustate, huvalue, State.gateCfg, hucfg, hutick] at hrecord
      rw [hctl]
      exact hrecord
    · have hnofail : ¬(v.state ≠ .failed ∧ new.state = .failed) := by
        rintro ⟨h1, h2⟩
        by_cases hb : bad
        · cases hs : v.state
          case failed => exact h1 hs
          case valid =>
            obtain ⟨h3, -⟩ := hpoor hb hs
            exact nomatch h3.symm.trans h2
          case held =>
            obtain ⟨h3, -⟩ := hheld hb hs
            exact nomatch h3.symm.trans h2
        · obtain ⟨h3, -⟩ := hgood hb h1
          exact nomatch h3.symm.trans h2
      have hnotice : velocityNotice d v (t.duct d).vel = velocityNotice d v new := by
        unfold velocityNotice
        rw [hstate, hvalue]
      have hlist : velocityNotices (s.tookSample (.transducer d)) d v new = (if new.state = v.state then [] else [velocityNotice d v new]) ++
          (if v.state = .failed ∧ new.state ≠ .failed then clearNotices s (ductZone d) .velocityFault (d.val + 1) else []) := by
        unfold velocityNotices
        rw [if_neg hnofail]
        rfl
      rw [hnotice, ← hlist]
      exact htold
  · have hw : Working s := ⟨hup, hrun⟩
    obtain ⟨htold, hduct, hraised, -⟩ := changeVelocity_left d { v with state := .failed, hold := none, recovery := 0 } s
    have hlocal := changeVelocity_local d { v with state := .failed, hold := none, recovery := 0 } s
    have hexec : exec (.holdTimerExpiry d) s =
        .next (settleDuct d (changeVelocity d { v with state := .failed, hold := none, recovery := 0 } s)) :=
      (whenRunning_working s _ hw).trans (congrArg Host.Outcome.next (if_pos (expires_in hhold hheld)))
    rw [hexec]
    generalize changeVelocity d { v with state := .failed, hold := none, recovery := 0 } s = u at htold hduct hraised hlocal
    have hold : v.state ≠ .failed := by rw [hheld]; nofun
    have hctl : u.ctl d = s.ctl d := hlocal.ctl_eq (by decide)
    have hset := hlocal.settled htold hok fun e => PostedAt.zone_fire (hp d) hok (hctl ▸ e)
    generalize settleDuct d u = t at hset
    have hvel : (t.duct d).vel = { v with state := .failed, hold := none, recovery := 0, bounds := (t.duct d).vel.bounds } := by
      rw [hset.vel, hduct]
    have hlist : velocityNotices s d v { v with state := .failed, hold := none, recovery := 0 } =
        velocityNotice d v (t.duct d).vel :: raiseNotices s (ductZone d) .velocityFault (d.val + 1) := by
      unfold velocityNotices
      rw [if_neg (by rw [hheld]; nofun), if_pos ⟨hold, rfl⟩, hvel]
      rfl
    have htoldAll := hset.told
    rw [hlist] at htoldAll
    exact ⟨t, rfl, hvel, htoldAll, (hset.raised _ ⟨by decide, by decide⟩ _ _).mpr (hraised hold rfl), hset.ctl.trans hctl,
      hset.gate.trans (hlocal.same .gate (by decide)), hset.water (hlocal.keepsWater (by decide)), hset.links, hset.stays⟩

end Sys2Proof.Machine
end

