-- ==== Sys2Proof/Proofs/TrackRetirements.lean ====
section
/-! PROOFS. A track's retirement (R66, R69, R71). -/

namespace Sys2Proof.Machine

open Sys2Proof

/-! ### The list (R58) -/

/-- In a list with unique ids a track is the only one of its id. -/
theorem track_of_id {l : List Track} (h : (l.map Track.id).Nodup) {x y : Track} (hx : x ∈ l) (hy : y ∈ l) (he : y.id = x.id) : y = x :=
  List.inj_on_of_nodup_map h hy hx he

theorem find_track {l : List Track} (h : (l.map Track.id).Nodup) {x : Track} (hx : x ∈ l) :
    (l.find? fun t => decide (t.id = x.id)) = some x := by
  cases hf : l.find? fun t => decide (t.id = x.id) with
  | none => exact absurd (List.find?_eq_none.mp hf x hx) (by simp)
  | some y =>
    have hid : decide (y.id = x.id) = true := List.find?_some (p := fun t : Track => decide (t.id = x.id)) hf
    rw [track_of_id h hx (List.mem_of_find?_eq_some hf) (of_decide_eq_true hid)]

theorem erase_track {l : List Track} (h : (l.map Track.id).Nodup) {x : Track} (hx : x ∈ l) :
    l.erase x = l.filter fun y => decide (y.id ≠ x.id) := by
  rw [(List.Nodup.of_map _ h).erase_eq_filter]
  refine List.filter_congr fun y hy => ?_
  rw [Bool.eq_iff_iff, bne_iff_ne, decide_eq_true_iff]
  exact not_congr ⟨fun e => congrArg Track.id e, track_of_id h hx hy⟩

/-! ### Notices -/

theorem retiredOffer_eq (d : Fin 4) (n : Nat) (x : Track) : retiredOffer d n x = detectionNotice d x.station n (n - 1) 3
    (x.id :: (le32 x.origin ++ (if x.quenched then 0 else 1) :: byteOf x.matched.length :: x.matched.map fun m => byteOf m.val)) := by
  have hid : le8 x.id.toNat = [x.id] := by simp [le8, byteOf]
  have hflag : le8 (if x.quenched then 0 else 1) = [if x.quenched then 0 else 1] := by cases x.quenched <;> rfl
  have hlist : listField (x.matched.map fun m => le8 m.val) = byteOf x.matched.length :: x.matched.map fun m => byteOf m.val := by
    unfold listField
    rw [List.length_map, show (x.matched.map fun m => le8 m.val) = (x.matched.map fun m => byteOf m.val).map fun b => [b] by
      rw [List.map_map]; rfl]
    rw [← List.flatMap_def, List.flatMap_singleton']
  unfold retiredOffer detectionOffer detectionNotice
  rw [hid, hflag, hlist, List.append_assoc, List.append_assoc]
  rfl

/-- An event of a duct that makes no posting. -/
theorem Told.ductTold {d : Fin 4} {l : List Offer} {s t : State} (h : Told l s t) (hz : KeepsHazard (ductZone d) s t) : DuctTold d l s t := by
  obtain ⟨-, -, -, htag⟩ := hz.sameFace
  refine ⟨h.offersThese (.refl _), fun _ => h.offersAll, fun e => ?_⟩
  exact absurd (e.symm.trans htag) (tag_succ_ne _)

/-! ### The event (R69, R71) -/

/-- A track leaves its list, with its notice. -/
def dropTrack (d : Fin 4) (x : Track) (s : State) : State :=
  offer (retiredOffer d (s.duct d).tracks.length x) (s.setDuct d { s.duct d with tracks := (s.duct d).tracks.erase x })

theorem trackRetires_eq {d : Fin 4} {x : Track} {s : State} (h : ((s.duct d).tracks.map Track.id).Nodup) (hx : x ∈ (s.duct d).tracks)
    (ht : x.retire = s.tick) : trackRetires d x.id s =
      if ((s.duct d).tracks.erase x).isEmpty then settleDuct d (setListMark d false (dropTrack d x s)) else dropTrack d x s := by
  unfold trackRetires
  dsimp only
  rw [find_track h hx]
  exact if_pos ht

theorem dropTrack_local (d : Fin 4) (x : Track) (s : State) : Local [.tracks, .ids] d s (dropTrack d x s) :=
  (setTracks_local (by simp) (.inl (by simp))).trans (Local.mono (offer_local d _ _) (by simp))

theorem dropTrack_duct (d : Fin 4) (x : Track) (s : State) :
    (dropTrack d x s).duct d = { s.duct d with tracks := (s.duct d).tracks.erase x } := s.setDuct_duct_self d _

theorem emberLevel_clear {c : Ctl} (h : c.listMark = false) : emberLevel c = .normal := by
  unfold emberLevel
  rw [h]
  cases c.state <;> rfl

/-- Settles O44: the list after a retirement, and what an emptied list tells. -/
theorem tracksRetireAtTheirTick : Obligations.TracksRetireAtTheirTick := by
  intro d x s hw hok hp htracks hx hretire
  obtain ⟨-, hnodup, hmark⟩ := htracks d
  have hrun : exec (.trackRetirement d x.id) s = .next (trackRetires d x.id s) := whenRunning_working s _ hw
  rw [hrun, trackRetires_eq hnodup hx hretire]
  have htold : Told [retiredOffer d (s.duct d).tracks.length x] s (dropTrack d x s) :=
    .after (t := s.setDuct d { s.duct d with tracks := (s.duct d).tracks.erase x }) rfl rfl (offer_told _ _)
  rw [retiredOffer_eq] at htold
  have hlocal := dropTrack_local d x s
  have hduct := dropTrack_duct d x s
  have hlength : ((s.duct d).tracks.erase x).length = (s.duct d).tracks.length - 1 := List.length_erase_of_mem hx
  have hpos : 0 < (s.duct d).tracks.length := List.length_pos_of_mem hx
  have hrest := erase_track hnodup hx
  generalize dropTrack d x s = u at htold hlocal hduct
  have hctl : u.ctl d = s.ctl d := hlocal.ctl_eq (by decide)
  have htracksU : (u.duct d).tracks = (s.duct d).tracks.filter fun y => decide (y.id ≠ x.id) := by rw [hduct, ← hrest]
  by_cases hempty : ((s.duct d).tracks.erase x).isEmpty = true
  · have hone : (s.duct d).tracks.length = 1 := by
      rw [List.isEmpty_iff.mp hempty, List.length_nil] at hlength
      omega
    rw [if_pos hempty]
    have hall := (hlocal.mono (n := [.tracks, .ids, .ctl, .mark, .posts]) (by simp)).trans ((setListMark_local d false u).mono (by simp))
    have hmarked : (setListMark d false u).ctl d = { u.ctl d with listMark := false }.withOutputs := u.setCtl_ctl_self d _
    have htoldMark : Told _ s (setListMark d false u) := htold.before rfl
    have hlevel : ductStateLevel ((setListMark d false u).ctl d) = ductStateLevel (s.ctl d) := by
      rw [hmarked, hctl]
      rfl
    have hset := hall.settled htoldMark hok fun e => PostedAt.zone_fire (hp d) hok (hlevel ▸ e)
    have htracksV : ((setListMark d false u).duct d).tracks = (u.duct d).tracks := (setListMark_local d false u).same .tracks (by decide)
    generalize setListMark d false u = v at hall hmarked hlevel hset htracksV
    generalize settleDuct d v = t at hset
    have hctlT : t.ctl d = { s.ctl d with listMark := false }.withOutputs := hset.ctl.trans (by rw [hmarked, hctl])
    have htracksT : (t.duct d).tracks = (v.duct d).tracks := by rw [hset.duct]
    refine ⟨t, rfl, htracksT.trans (htracksV.trans htracksU), hset.told, by rw [hctlT]; rfl, ?_, fun _ => ?_, ?_, ?_,
      hset.gate.trans (hall.same .gate (by decide)), ?_, ?_, hset.links, hset.stays⟩
    · rw [hctlT, hone]
      rfl
    · obtain ⟨-, -, hember⟩ := hset.posted
      rw [hember, hctlT]
      exact emberLevel_clear rfl
    · exact (congrArg Duct.nextId hset.duct).trans (hall.same .nextId (by decide))
    · exact (congrArg Duct.valves hset.duct).trans (hall.same .valves (by decide))
    · exact (congrArg Duct.flood hset.duct).trans (hall.same .flood (by decide))
    · exact (congrArg Duct.test hset.duct).trans (hall.same .test (by decide))
  · have hmore : (s.duct d).tracks.length ≠ 1 := fun h => hempty (List.isEmpty_iff.mpr (List.length_eq_zero_iff.mp (by omega)))
    rw [if_neg hempty]
    refine ⟨u, rfl, htracksU, htold.ductTold (hlocal.hazards _), by rw [hctl], ?_, fun h => absurd h hmore, hlocal.same .nextId (by decide),
      hlocal.same .valves (by decide), hlocal.same .gate (by decide), hlocal.same .flood (by decide), hlocal.same .test (by decide),
      hlocal.within.links, hlocal.staysInDuct⟩
    rw [hctl, decide_eq_true hmore]
    exact hmark.mpr (List.ne_nil_of_mem hx)

end Sys2Proof.Machine
end

