-- ==== Sys2Proof/Proofs/ChannelMoves.lean ====
section
/-! PROOFS. The requests that move a channel (R36 to R39), with its troubles and the station's coincidence troubles (R30, R31). -/

namespace Sys2Proof.Machine

open Sys2Proof

/-! ### Troubles of one zone (R13) -/

/-- Only troubles of zone `z` have come and gone. -/
structure TroublesAt (z : Fin 16) (s t : State) : Prop where
  within : Within .troubles s t
  hazards : KeepsHazards s t
  nodup : ∀ y, (s.zone y).troubles.Nodup → (t.zone y).troubles.Nodup
  zone : ∀ y, y ≠ z → t.zone y = s.zone y

theorem TroublesAt.refl (z : Fin 16) (s : State) : TroublesAt z s s := ⟨.refl _ s, .refl s, fun _ => id, fun _ _ => rfl⟩

theorem TroublesAt.trans {z : Fin 16} {s t w : State} (h : TroublesAt z s t) (k : TroublesAt z t w) : TroublesAt z s w :=
  ⟨h.within.trans k.within, h.hazards.trans k.hazards, fun y hy => k.nodup y (h.nodup y hy), fun y hy => (k.zone y hy).trans (h.zone y hy)⟩

theorem TroublesAt.zonesOk {z : Fin 16} {s t : State} (h : TroublesAt z s t) (hok : ZonesOk s) : ZonesOk t := h.hazards.zonesOk h.nodup hok

theorem raiseTrouble_at (z : Fin 16) (k : TroubleKind) (n : Nat) (s : State) : TroublesAt z s (raiseTrouble z k n s) := by
  have h := raiseTrouble_local 0 z k n s
  refine ⟨raiseTrouble_within z k n s, h.hazards, h.nodup, fun y hy => ?_⟩
  unfold raiseTrouble
  dsimp only
  split
  · rfl
  · exact State.setZone_zone_ne _ _ _ _ hy

theorem clearTrouble_at (z : Fin 16) (k : TroubleKind) (n : Nat) (s : State) : TroublesAt z s (clearTrouble z k n s) := by
  have h := clearTrouble_local 0 z k n s
  refine ⟨clearTrouble_within z k n s, h.hazards, h.nodup, fun y hy => ?_⟩
  unfold clearTrouble
  dsimp only
  split
  · exact State.setZone_zone_ne _ _ _ _ hy
  · rfl

theorem setTrouble_at (z : Fin 16) (k : TroubleKind) (n : Nat) (b : Bool) (s : State) : TroublesAt z s (setTrouble z k n b s) := by
  unfold setTrouble
  split
  · exact raiseTrouble_at z k n s
  · exact clearTrouble_at z k n s

theorem setTrouble_raised {z : Fin 16} {k : TroubleKind} {n : Nat} {b : Bool} {s : State} (hok : ZonesOk s) :
    Raised (setTrouble z k n b s) z k n ↔ b = true := by
  unfold setTrouble
  cases b
  · exact iff_of_false (clearTrouble_kind hok) Bool.false_ne_true
  · exact iff_of_true (raised_raiseTrouble z k n s) rfl

theorem raised_raiseTrouble_ne {z y : Fin 16} {k l : TroubleKind} {n m : Nat} (s : State) (h : ¬(y = z ∧ l = k ∧ m = n)) :
    Raised (raiseTrouble z k n s) y l m ↔ Raised s y l m := (raised_raiseTrouble_iff z y k l n m s).trans (or_iff_right h)

theorem setTrouble_raised_ne {z y : Fin 16} {k l : TroubleKind} {n m : Nat} (b : Bool) (s : State) (h : ¬(y = z ∧ l = k ∧ m = n)) :
    Raised (setTrouble z k n b s) y l m ↔ Raised s y l m := by
  unfold setTrouble
  split
  · exact raised_raiseTrouble_ne s h
  · exact raised_clearTrouble_ne s h

theorem setNotices_congr {s t : State} {z : Fin 16} {k : TroubleKind} {n : Nat} (h : Raised t z k n ↔ Raised s z k n) (present : Prop)
    [Decidable present] : setNotices t z k n present = setNotices s z k n present := by
  rw [setNotices, setNotices, raiseNotices_congr h, clearNotices_congr h]

/-! ### The coincidence of a station (R31) -/

theorem reducedCoincidence_eq (level n : Nat) : reducedCoincidence level n = decide (0 < n ∧ n ≤ level) := by
  rw [Bool.eq_iff_iff, reducedCoincidence, Bool.and_eq_true, decide_eq_true_iff, decide_eq_true_iff, decide_eq_true_iff]
  omega

theorem evalCoincidence_at (d st : Fin 4) (s : State) : TroublesAt (ductZone d) s (evalCoincidence d st s) :=
  (setTrouble_at _ _ _ _ s).trans (setTrouble_at _ _ _ _ _)

theorem evalCoincidence_told (d st : Fin 4) (s : State) : Told (coincidenceNotices s d st (activeCount s d st)) s (evalCoincidence d st s) := by
  have h1 := setTrouble_told (ductZone d) .reducedCoincidence st.val
    (0 < activeCount s d st ∧ activeCount s d st ≤ (s.ductCfg d).base.coincidence) s
  have h2 := setTrouble_told (ductZone d) .stationUnprotected st.val (activeCount s d st = 0)
    (setTrouble (ductZone d) .reducedCoincidence st.val
      (decide (0 < activeCount s d st ∧ activeCount s d st ≤ (s.ductCfg d).base.coincidence)) s)
  have hother := setTrouble_raised_ne (z := ductZone d) (y := ductZone d) (k := .reducedCoincidence) (l := .stationUnprotected) (n := st.val)
    (m := st.val) (decide (0 < activeCount s d st ∧ activeCount s d st ≤ (s.ductCfg d).base.coincidence)) s fun h => absurd h.2.1 (by decide)
  rw [setNotices_congr hother] at h2
  have h := h1.trans h2 (setTrouble_at _ _ _ _ s).within.fixed.tick_eq
  rw [← reducedCoincidence_eq] at h
  exact h

theorem evalCoincidence_raised {d st : Fin 4} {s : State} (hok : ZonesOk s) :
    let n := activeCount s d st
    (Raised (evalCoincidence d st s) (ductZone d) .stationUnprotected st.val ↔ n = 0) ∧
      (Raised (evalCoincidence d st s) (ductZone d) .reducedCoincidence st.val ↔ 0 < n ∧ n ≤ (s.ductCfg d).base.coincidence) := by
  intro n
  have hreduced : Raised (setTrouble (ductZone d) .reducedCoincidence st.val (reducedCoincidence (s.ductCfg d).base.coincidence n) s)
      (ductZone d) .reducedCoincidence st.val ↔ 0 < n ∧ n ≤ (s.ductCfg d).base.coincidence :=
    (setTrouble_raised hok).trans (by rw [reducedCoincidence_eq, decide_eq_true_iff])
  have hok1 := (setTrouble_at (ductZone d) .reducedCoincidence st.val (reducedCoincidence (s.ductCfg d).base.coincidence n) s).zonesOk hok
  have ht : evalCoincidence d st s = setTrouble (ductZone d) .stationUnprotected st.val (decide (n = 0))
    (setTrouble (ductZone d) .reducedCoincidence st.val (reducedCoincidence (s.ductCfg d).base.coincidence n) s) := rfl
  rw [ht]
  generalize setTrouble (ductZone d) .reducedCoincidence st.val (reducedCoincidence (s.ductCfg d).base.coincidence n) s = u at hreduced hok1
  exact ⟨(setTrouble_raised hok1).trans decide_eq_true_iff,
    (setTrouble_raised_ne (k := .stationUnprotected) (l := .reducedCoincidence) _ u fun h => absurd h.2.1 (by decide)).trans hreduced⟩

theorem evalCoincidence_raised_ne {d st : Fin 4} {k : TroubleKind} {n : Nat} (s : State) (y : Fin 16)
    (h : n = st.val → k ≠ .reducedCoincidence ∧ k ≠ .stationUnprotected) : Raised (evalCoincidence d st s) y k n ↔ Raised s y k n :=
  (setTrouble_raised_ne _ _ fun e => (h e.2.2).2 e.2.1).trans (setTrouble_raised_ne _ _ fun e => (h e.2.2).1 e.2.1)

theorem activeCount_congr {s t : State} (hc : t.cfg = s.cfg) (h : t.channels = s.channels) (d st : Fin 4) :
    activeCount t d st = activeCount s d st := by
  unfold activeCount State.channel
  rw [hc, h]

/-! ### The trouble of a channel's state (R30) -/

/-- The trouble of the state that a channel leaves is cleared. -/
def leaveTrouble (z : Fin 16) (n : Nat) (o : Option TroubleKind) (s : State) : State :=
  match o with
  | some k => clearTrouble z k n s
  | none => s

/-- The trouble of the state that a channel comes to is raised. -/
def enterTrouble (z : Fin 16) (n : Nat) (o : Option TroubleKind) (s : State) : State :=
  match o with
  | some k => raiseTrouble z k n s
  | none => s

theorem moveChannel_eq (c : Fin 16) (x : ChannelCfg) (st : ChannelState) (s : State) :
    moveChannel c x st s = evalCoincidence x.duct x.station (enterTrouble (ductZone x.duct) c.val st.trouble
      (leaveTrouble (ductZone x.duct) c.val (s.channel c).state.trouble (s.setChannel c ((s.channel c).enter st)))) := rfl

/-- The notice of a trouble that is left. -/
def leaveNotices (s : State) (z : Fin 16) (n : Nat) (o : Option TroubleKind) : List Offer := (o.map fun k => clearNotices s z k n).getD []

/-- The notice of a trouble that comes. -/
def enterNotices (s : State) (z : Fin 16) (n : Nat) (o : Option TroubleKind) : List Offer := (o.map fun k => raiseNotices s z k n).getD []

theorem leaveTrouble_at (z : Fin 16) (n : Nat) (o : Option TroubleKind) (s : State) : TroublesAt z s (leaveTrouble z n o s) := by
  cases o with
  | none => exact .refl z s
  | some k => exact clearTrouble_at z k n s

theorem enterTrouble_at (z : Fin 16) (n : Nat) (o : Option TroubleKind) (s : State) : TroublesAt z s (enterTrouble z n o s) := by
  cases o with
  | none => exact .refl z s
  | some k => exact raiseTrouble_at z k n s

theorem leaveTrouble_told (z : Fin 16) (n : Nat) (o : Option TroubleKind) (s : State) :
    Told (leaveNotices s z n o) s (leaveTrouble z n o s) := by
  cases o with
  | none => exact .refl s
  | some k => exact clearTrouble_told z k n s

theorem enterTrouble_told (z : Fin 16) (n : Nat) (o : Option TroubleKind) (s : State) :
    Told (enterNotices s z n o) s (enterTrouble z n o s) := by
  cases o with
  | none => exact .refl s
  | some k => exact raiseTrouble_told z k n s

theorem leaveTrouble_raised_ne {z : Fin 16} {n m : Nat} {o : Option TroubleKind} {l : TroubleKind} (s : State) (y : Fin 16)
    (h : o = some l → m ≠ n) : Raised (leaveTrouble z n o s) y l m ↔ Raised s y l m := by
  cases o with
  | none => exact .rfl
  | some k => exact raised_clearTrouble_ne s fun e => h (congrArg some e.2.1.symm) e.2.2

theorem enterTrouble_raised_ne {z : Fin 16} {n m : Nat} {o : Option TroubleKind} {l : TroubleKind} (s : State) (y : Fin 16)
    (h : o = some l → m ≠ n) : Raised (enterTrouble z n o s) y l m ↔ Raised s y l m := by
  cases o with
  | none => exact .rfl
  | some k => exact raised_raiseTrouble_ne s fun e => h (congrArg some e.2.1.symm) e.2.2

/-- The troubles of channel states are not those of coincidence. -/
theorem ChannelState.trouble_ne (x : ChannelState) : x.trouble ≠ some .reducedCoincidence ∧ x.trouble ≠ some .stationUnprotected := by
  cases x with
  | fault k => cases k <;> exact ⟨nofun, nofun⟩
  | _ => exact ⟨nofun, nofun⟩

/-! ### The move of a channel (R30, R31, R36) -/

theorem moveChannel_left {c : Fin 16} {x : ChannelCfg} {st : ChannelState} {s : State} (hok : ZonesOk s)
    (hst : ∀ k ∈ st.trouble, (s.channel c).state.trouble ≠ some k) :
    let z := ductZone x.duct
    let old := (s.channel c).state
    let t := moveChannel c x st s
    let n := activeCount t x.duct x.station
    Told (leaveNotices s z c.val old.trouble ++ enterNotices s z c.val st.trouble ++ coincidenceNotices s x.duct x.station n) s t ∧
      t.channels = s.channels.set c ((s.channel c).enter st) ∧
      (Raised t z .stationUnprotected x.station.val ↔ n = 0) ∧
      (Raised t z .reducedCoincidence x.station.val ↔ 0 < n ∧ n ≤ (s.ductCfg x.duct).base.coincidence) ∧
      (∀ kind subject, subject ≠ c.val → subject ≠ x.station.val → (Raised t z kind subject ↔ Raised s z kind subject)) ∧
      TroublesAt z (s.setChannel c ((s.channel c).enter st)) t ∧
      (∀ k ∈ st.trouble, Raised t z k c.val) ∧ (∀ k ∈ old.trouble, ¬Raised t z k c.val) := by
  intro z old t n
  have ht : t = _ := moveChannel_eq c x st s
  clear_value t
  have hset : (s.setChannel c ((s.channel c).enter st)).zones = s.zones := rfl
  have hoku : ZonesOk (s.setChannel c ((s.channel c).enter st)) := hok
  have hports : (s.setChannel c ((s.channel c).enter st)).ports = s.ports := rfl
  have htick : (s.setChannel c ((s.channel c).enter st)).tick = s.tick := rfl
  have hchannels : (s.setChannel c ((s.channel c).enter st)).channels = s.channels.set c ((s.channel c).enter st) := rfl
  have hcfg : (s.setChannel c ((s.channel c).enter st)).cfg = s.cfg := rfl
  generalize s.setChannel c ((s.channel c).enter st) = u at *
  have hraisedU (y : Fin 16) (k : TroubleKind) (m : Nat) : Raised u y k m ↔ Raised s y k m := raised_of_zones hset y k m
  have hat1 := leaveTrouble_at z c.val old.trouble u
  have htold1 := leaveTrouble_told z c.val old.trouble u
  have hne1 : ∀ (l : TroubleKind) (m : Nat), (old.trouble = some l → m ≠ c.val) →
    (Raised (leaveTrouble z c.val old.trouble u) z l m ↔ Raised u z l m) := fun l m h => leaveTrouble_raised_ne u z h
  have hleft : ∀ k ∈ old.trouble, ¬Raised (leaveTrouble z c.val old.trouble u) z k c.val := fun k hk => by
    rw [show old.trouble = some k from hk]
    exact clearTrouble_kind hoku
  have hnotices1 : leaveNotices u z c.val old.trouble = leaveNotices s z c.val old.trouble := by
    unfold leaveNotices
    cases old.trouble with
    | none => rfl
    | some k => exact clearNotices_congr (hraisedU _ _ _)
  change t = evalCoincidence x.duct x.station (enterTrouble z c.val st.trouble (leaveTrouble z c.val old.trouble u)) at ht
  generalize leaveTrouble z c.val old.trouble u = v at *
  have hat2 := enterTrouble_at z c.val st.trouble v
  have htold2 := enterTrouble_told z c.val st.trouble v
  have hne2 : ∀ (l : TroubleKind) (m : Nat), (st.trouble = some l → m ≠ c.val) →
    (Raised (enterTrouble z c.val st.trouble v) z l m ↔ Raised v z l m) := fun l m h => enterTrouble_raised_ne v z h
  have hentered : ∀ k ∈ st.trouble, Raised (enterTrouble z c.val st.trouble v) z k c.val := fun k hk => by
    rw [show st.trouble = some k from hk]
    exact raised_raiseTrouble z k c.val v
  have hnotices2 : enterNotices v z c.val st.trouble = enterNotices s z c.val st.trouble := by
    unfold enterNotices
    cases hk : st.trouble with
    | none => rfl
    | some k => exact raiseNotices_congr ((hne1 k c.val fun e => absurd e (hst k hk)).trans (hraisedU _ _ _))
  generalize enterTrouble z c.val st.trouble v = w at *
  have hall := hat1.trans hat2
  obtain ⟨hreduced, hunprotected⟩ := ChannelState.trouble_ne old
  obtain ⟨hreduced', hunprotected'⟩ := ChannelState.trouble_ne st
  have hcoincidence (k : TroubleKind) (m : Nat) (h : old.trouble ≠ some k) (h' : st.trouble ≠ some k) : Raised w z k m ↔ Raised s z k m :=
    (hne2 k m fun e => absurd e h').trans ((hne1 k m fun e => absurd e h).trans (hraisedU z k m))
  have hcfgW : w.cfg = s.cfg := hall.within.fixed.cfg_eq.trans hcfg
  have hcount : activeCount t x.duct x.station = activeCount w x.duct x.station := by
    rw [ht]
    exact activeCount_congr (evalCoincidence_at _ _ w).within.fixed.cfg_eq ((evalCoincidence_at _ _ w).within.channels rfl) _ _
  have htold3 := evalCoincidence_told x.duct x.station w
  have hat3 := evalCoincidence_at x.duct x.station w
  obtain ⟨hzero, hfew⟩ := evalCoincidence_raised (d := x.duct) (st := x.station) (hall.zonesOk hoku)
  have hkeep : ∀ (k : TroubleKind) (m : Nat), (m = x.station.val → k ≠ .reducedCoincidence ∧ k ≠ .stationUnprotected) →
    (Raised (evalCoincidence x.duct x.station w) z k m ↔ Raised w z k m) := fun k m h => evalCoincidence_raised_ne w z h
  rw [← ht] at htold3 hat3 hzero hfew hkeep
  rw [← hcount] at htold3 hzero hfew
  have hnotices3 : coincidenceNotices w x.duct x.station n = coincidenceNotices s x.duct x.station n := by
    unfold coincidenceNotices
    rw [setNotices_congr (hcoincidence _ _ hreduced hreduced'), setNotices_congr (hcoincidence _ _ hunprotected hunprotected'),
      State.ductCfg, State.ductCfg, hcfgW]
  rw [hnotices1] at htold1
  rw [hnotices2] at htold2
  rw [State.ductCfg, hcfgW] at hfew
  refine ⟨?_, ?_, hzero, hfew, fun kind subject h1 h2 => ?_, hall.trans hat3, fun k hk => ?_, fun k hk => ?_⟩
  · rw [← hnotices3]
    exact .after hports htick ((htold1.trans htold2 hat1.within.fixed.tick_eq).trans htold3 hall.within.fixed.tick_eq)
  · rw [(hall.trans hat3).within.channels rfl, hchannels]
  · exact (hkeep kind subject fun e => absurd e h2).trans ((hne2 _ _ fun _ => h1).trans ((hne1 _ _ fun _ => h1).trans (hraisedU _ _ _)))
  · exact (hkeep k _ fun _ => ⟨fun e => hreduced' (e ▸ hk), fun e => hunprotected' (e ▸ hk)⟩).mpr (hentered k hk)
  · refine fun h => hleft k hk ((hne2 _ _ fun e => absurd hk ?_).mp
      ((hkeep k _ fun _ => ⟨fun e => hreduced (e ▸ hk), fun e => hunprotected (e ▸ hk)⟩).mp h))
    exact hst k e

/-! ### The requests (R36 to R39) -/

theorem channelOperand_byteOf (c : Fin 16) : channelOperand (byteOf c.val) = some c := indexBelow_byteOf (by decide) c

theorem requestMove_some {c : Fin 16} {k : ChannelCfg} {s : State} (hcfg : s.cfg.channels[c] = some k) (hrun : s.isRunning = true)
    (st : ChannelState) : requestMove c (some st) s =
      if st = (s.channel c).state then accept (channelAnswer s c) s
      else accept (channelAnswer (moveChannel c k st s) c) (moveChannel c k st s) := by
  unfold requestMove
  rw [hcfg]
  dsimp only
  rw [hrun, if_neg (by decide)]

/-- A channel request with its checks passed is the move to its target. -/
theorem channelReply_passed {p : Port} {c : Fin 16} {target : Channel → Option ChannelState} {k : ChannelCfg} {st : ChannelState} {s : State}
    (hrun : s.isRunning = true) (hkey : p = .sv → s.keyClosed = true) (hcfg : s.cfg.channels[c] = some k)
    (htarget : target (s.channel c) = some st) :
    channelReply p (byteOf c.val) target s = if st = (s.channel c).state then accept (channelAnswer s c) s
      else accept (channelAnswer (moveChannel c k st s) c) (moveChannel c k st s) := by
  rw [channelReply, channelOperand_byteOf]
  dsimp only
  rw [if_neg (by rintro ⟨h, h'⟩; rw [hkey h] at h'; exact absurd h' (by decide)), htarget, requestMove_some hcfg hrun]

theorem channelAnswer_settled {s : State} {c : Fin 16} {st : ChannelState} (h : (s.channel c).state = st)
    (hst : st = .isolated ∨ st = .active) : channelAnswer s c = if st = .isolated then [2, 0xFF] else [1, 0xFF] := by
  rw [channelAnswer, h]
  rcases hst with rfl | rfl <;> rfl

theorem isolateTarget_of_used {x : Channel} (h : x.state ≠ .unused) : isolateTarget x = some .isolated := by
  unfold isolateTarget
  split
  · exact absurd ‹_› h
  all_goals rfl

theorem restoreTarget_of_isolated {x : Channel} (h : x.state = .isolated) : restoreTarget x = some .active := by
  unfold restoreTarget
  rw [h]

theorem clearTarget_of_fault {x : Channel} {f : FaultKind} (h : x.state = .fault f) (hclean : x.clean = 400) :
    clearTarget x = some .active := by
  unfold clearTarget
  rw [h]
  exact if_pos hclean

/-- Settles O38: each request is one move of the channel. -/
theorem channelRequestsMoveTheChannel : Obligations.ChannelRequestsMoveTheChannel := by
  intro p n c k kind subject s ht hrun hok hcfg hkey x z moved
  have hmoves (st : ChannelState) (hst : st = .isolated ∨ st = .active) (hne : st ≠ x.state) (code : Byte) (reply : State → Reply)
      (hreply : reply (frameTaken p s) =
        accept (channelAnswer (moveChannel c k st (frameTaken p s)) c) (moveChannel c k st (frameTaken p s))) :
      ∃ t, live s (serve p code n reply) = .next t ∧ moved code st t ∧ (∀ l ∈ st.trouble, Raised t z l c.val) ∧
        ∀ l ∈ x.state.trouble, ¬Raised t z l c.val := by
    have hfresh : ∀ l ∈ st.trouble, x.state.trouble ≠ some l := by
      rcases hst with rfl | rfl
      · intro l hl
        cases Option.some.inj hl
        cases hx : x.state with
        | fault f => cases f <;> nofun
        | isolated => exact absurd hx.symm hne
        | _ => nofun
      · nofun
    obtain ⟨htold, hchannels, hzero, hfew, hother, hat, hin, hout⟩ :=
      moveChannel_left (c := c) (x := k) (st := st) (s := frameTaken p s) hok hfresh
    have hexec := serve_accepts ht code n hreply
    generalize moveChannel c k st (frameTaken p s) = t at *
    have hchannel : t.channel c = { x with state := st, run := 0, qualified := false } :=
      (congrArg (fun v : Vector Channel 16 => v[c]) hchannels).trans (Vector.getElem_set_self _)
    rw [channelAnswer_settled (congrArg Channel.state hchannel) hst] at hexec
    have hentered : enterNotices s z c.val st.trouble = if st = .isolated then raiseNotices s z .channelIsolated c.val else [] := by
      rcases hst with rfl | rfl <;> rfl
    have hwithin := hat.within
    refine ⟨_, hexec, ⟨?_, ?_, hchannel, ?_, hzero, hfew, hother kind subject, hat.zone, hat.hazards, hwithin.fixed, hwithin.stations rfl,
      hwithin.inputs rfl, hwithin.captures rfl, hwithin.ducts rfl, hwithin.doors rfl, hwithin.arbiter rfl⟩, hin, hout⟩
    · exact KeepsLinks.answers hwithin.links _
    · have h := (htold.answered ⟨code, n, .ok, if st = .isolated then [2, 0xFF] else [1, 0xFF]⟩).offersAll
      rw [← hentered]
      split <;> rename_i hx <;> rw [show (frameTaken p s).channel c = x from rfl, hx] at h <;> exact h
    · exact fun o ho => (congrArg (fun v : Vector Channel 16 => v[o]) hchannels).trans
        (Vector.getElem_set_ne c.isLt o.isLt fun e => ho (Fin.ext e.symm))
  refine ⟨fun hp hused hne => ?_, fun hp hx => ?_, fun hp hx => ?_, fun hp hx hclean => ?_⟩
  · obtain ⟨t, hexec, hmoved, hin, hout⟩ := hmoves .isolated (.inl rfl) (Ne.symm hne) codeIsolateChannel
      (isolateChannelReply p (byteOf c.val)) (by
        rw [isolateChannelReply, if_pos hp]
        exact (channelReply_passed (s := frameTaken p s) hrun hkey hcfg (isolateTarget_of_used hused)).trans (if_neg (Ne.symm hne)))
    exact ⟨t, hexec, hmoved, hin _ rfl, fun h => hout _ (by rw [h]; rfl), fun h => hout _ (by rw [h]; rfl)⟩
  · have hreply : isolateChannelReply p (byteOf c.val) (frameTaken p s) = accept [2, 0xFF] (frameTaken p s) := by
      rw [isolateChannelReply, if_pos hp, channelReply_passed (s := frameTaken p s) hrun hkey hcfg
          (isolateTarget_of_used fun h => nomatch h.symm.trans hx),
        if_pos (show _ = ((frameTaken p s).channel c).state from hx.symm),
        channelAnswer_settled (s := frameTaken p s) (st := .isolated) hx (.inl rfl), if_pos rfl]
    exact (serve_accepts ht _ n hreply).trans (congrArg Host.Outcome.next (issue_frameTaken p _ s))
  · obtain ⟨t, hexec, hmoved, -, hout⟩ := hmoves .active (.inr rfl) (by rw [hx]; nofun) codeRestoreChannel
      (restoreChannelReply p (byteOf c.val)) (by
        rw [restoreChannelReply, if_neg hp]
        exact (channelReply_passed (s := frameTaken p s) hrun hkey hcfg (restoreTarget_of_isolated hx)).trans (if_neg fun h => nomatch h.trans hx))
    exact ⟨t, hexec, hmoved, hout _ (by rw [hx]; rfl)⟩
  · have hfault : ∃ f, x.state = .fault f := hx.elim (fun h => ⟨_, h⟩) fun h => ⟨_, h⟩
    obtain ⟨f, hf⟩ := hfault
    obtain ⟨t, hexec, hmoved, -, hout⟩ := hmoves .active (.inr rfl) (by rw [hf]; nofun) codeClearChannelFault
      (clearChannelFaultReply p (byteOf c.val)) (by
        rw [clearChannelFaultReply, if_neg hp]
        exact (channelReply_passed (s := frameTaken p s) hrun hkey hcfg (clearTarget_of_fault hf hclean)).trans (if_neg fun h => nomatch h.trans hf))
    exact ⟨t, hexec, hmoved, fun h => hout _ (by rw [h]; rfl), fun h => hout _ (by rw [h]; rfl)⟩

end Sys2Proof.Machine
end

