-- ==== Sys2Proof/Proofs/ChannelSamples.lean ====
section
/-! PROOFS. The sample of one detector channel (R24 to R29): what stages 2 to 4 make of it, by its state before. -/

namespace Sys2Proof.Machine

open Sys2Proof

/-! ### Stages 2 and 3 (R25 to R27) -/

/-- What stage 2 makes of a channel that is not UNUSED (R25). -/
def Channel.taken (threshold : Nat) (code : Code) (x : Channel) : Channel :=
  { x with ring := (x.ring ++ [code]).drop (x.ring.length + 1 - 64), low := lowAfter code x,
           clean := if 8 ≤ code.toNat ∧ code.toNat < threshold then min 400 (x.clean + 1) else 0, effective := threshold }

/-- What stages 2 and 3 make of an ACTIVE channel, its qualification with them (R25 to R27). -/
def Channel.ran (threshold nq : Nat) (code : Code) (now : Tick) (x : Channel) : Channel :=
  { x.taken threshold code with
    run := if threshold ≤ code.toNat then runAfter x else 0,
    runStart := if threshold ≤ code.toNat then startAfter now x else x.runStart,
    qualified := decide (threshold ≤ code.toNat) && ((decide (x.run ≠ 0) && x.qualified) || decide (nq ≤ runAfter x)) }

theorem Channel.recorded_unused {threshold : Nat} {code : Code} {x : Channel} (h : x.state = .unused) : x.recorded threshold code = x := by
  unfold Channel.recorded
  rw [h]

theorem Channel.recorded_used {threshold : Nat} {code : Code} {x : Channel} (h : x.state ≠ .unused) :
    x.recorded threshold code = x.taken threshold code := by
  unfold Channel.recorded
  split
  · exact absurd ‹_› h
  all_goals rfl

theorem Channel.runUpdated_resting {threshold : Nat} {code : Code} {now : Tick} {x : Channel} (h : x.state ≠ .active) :
    x.runUpdated threshold code now = x := if_neg fun e => h (of_decide_eq_true e)

theorem Channel.qualifies_resting {threshold nq : Nat} {code : Code} {x : Channel} (h : x.state ≠ .active) :
    x.qualifies threshold nq code = false := by
  rw [Channel.qualifies, Channel.isActive, decide_eq_false h]
  rfl

theorem Channel.faultFound_resting {limit : Nat} {x : Channel} (h : x.state ≠ .active) : x.faultFound limit = none :=
  if_pos (by rw [Channel.isActive, decide_eq_false h]; rfl)

/-- A channel that is not ACTIVE is recorded, and nothing comes of it. -/
theorem sampleChannel_resting {threshold nq limit : Nat} {code : Code} {now : Tick} {x : Channel} (h : x.state ≠ .active) :
    sampleChannel threshold nq limit code now x = ⟨x.recorded threshold code, decide (threshold ≤ code.toNat), false, none⟩ := by
  have hstate : (x.recorded threshold code).state = x.state := by
    unfold Channel.recorded
    split <;> rfl
  have h2 : (x.recorded threshold code).state ≠ .active := hstate ▸ h
  unfold sampleChannel
  dsimp only
  rw [Channel.runUpdated_resting h2, Channel.qualifies_resting h2, if_neg Bool.false_ne_true, Channel.faultFound_resting h2]
  rfl

/-- The sample of an ACTIVE channel qualifies its run (R27). -/
def qualifiesAt (threshold nq : Nat) (code : Code) (x : Channel) : Bool :=
  decide (threshold ≤ code.toNat) && (decide (x.run = 0) || !x.qualified) && decide (nq ≤ runAfter x)

theorem Channel.run_active {threshold : Nat} {code : Code} {now : Tick} {x : Channel} (h : x.state = .active) :
    x.runUpdated threshold code now = { x with
      run := if threshold ≤ code.toNat then runAfter x else 0,
      runStart := if threshold ≤ code.toNat then startAfter now x else x.runStart,
      qualified := decide (threshold ≤ code.toNat) && decide (x.run ≠ 0) && x.qualified } := by
  unfold Channel.runUpdated
  rw [if_pos (show x.isActive = true from decide_eq_true h)]
  by_cases ht : threshold ≤ code.toNat
  · by_cases hr : x.run = 0 <;> simp [ht, hr, runAfter, startAfter]
  · simp [ht]

theorem Channel.qualified_or (b : Bool) (x : Channel) :
    (if b then { x with qualified := true } else x) = { x with qualified := x.qualified || b } := by
  cases b
  · rw [Bool.or_false]
    rfl
  · rw [Bool.or_true]
    rfl

/-- A run that reaches stays qualified, or qualifies now. -/
theorem qualification_or : ∀ reached first qualified long : Bool,
    (reached && !first && qualified || reached && (first || !qualified) && long) = (reached && (!first && qualified || long)) := by
  decide

/-- An ACTIVE channel up to its qualification, and whether it qualifies. -/
theorem sampleChannel_active {threshold nq limit : Nat} {code : Code} {now : Tick} {x : Channel} (h : x.state = .active) :
    let y := x.ran threshold nq code now
    sampleChannel threshold nq limit code now x =
      ⟨match y.faultFound limit with | some k => y.enter (.fault k) | none => y, decide (threshold ≤ code.toNat),
        qualifiesAt threshold nq code x && (y.faultFound limit).isNone, y.faultFound limit⟩ := by
  intro y
  have hused : x.state ≠ .unused := fun e => nomatch h.symm.trans e
  have hactive : (x.taken threshold code).state = .active := h
  have hq : ((x.taken threshold code).runUpdated threshold code now).qualifies threshold nq code = qualifiesAt threshold nq code x := by
    rw [Channel.run_active hactive, Channel.qualifies, Channel.isActive, decide_eq_true hactive, qualifiesAt]
    by_cases ht : threshold ≤ code.toNat
    · by_cases hr : x.run = 0 <;> simp [ht, hr, Channel.taken, runAfter]
    · simp [ht]
  have hy : (if qualifiesAt threshold nq code x then { (x.taken threshold code).runUpdated threshold code now with qualified := true }
      else (x.taken threshold code).runUpdated threshold code now) = y := by
    rw [Channel.qualified_or, Channel.run_active hactive]
    refine congrArg (fun q => { y with qualified := q }) ?_
    have h := qualification_or (decide (threshold ≤ code.toNat)) (decide (x.run = 0)) x.qualified (decide (nq ≤ runAfter x))
    rw [← decide_not] at h
    exact h
  unfold sampleChannel
  dsimp only
  rw [Channel.recorded_used hused, hq, hy] <;> rfl

/-! ### One channel of a station (R24 to R29) -/

theorem secondsTicks_pos {n : Nat} (h : 0 < n) : secondsTicks n ≠ 0 := by
  unfold secondsTicks
  omega

theorem Channel.ran_fault {threshold nq limit : Nat} {code : Code} {now : Tick} {x : Channel} (h : x.state = .active) :
    (x.ran threshold nq code now).faultFound limit =
      if (if threshold ≤ code.toNat then runAfter x else 0) = secondsTicks limit then some .stuck
      else if lowAfter code x = 400 then some .dead else none :=
  if_neg (by rw [Channel.isActive, show (x.ran threshold nq code now).state = x.state from rfl, h]; decide)

section
variable (s : State) (d : Fin 4) (c : Fin 16) (code : Code)

theorem channelSample_resting {s : State} {c : Fin 16} (h : (s.channel c).state ≠ .active) :
    channelSample s d c code =
      ⟨(s.channel c).recorded (thresholdOf s d c) code, decide (thresholdOf s d c ≤ code.toNat), false, none⟩ :=
  sampleChannel_resting h

/-- The fault of a sample, where the stuck limit is not 0 (R28, R29). -/
theorem channelSample_fault (hlimit : 0 < (s.ductCfg d).base.stuckLimit) : (channelSample s d c code).fault = faultAfter s d c code := by
  unfold faultAfter
  dsimp only
  by_cases h : (s.channel c).state = .active
  · rw [if_neg (not_not_intro h), channelSample, sampleChannel_active h]
    dsimp only
    rw [Channel.ran_fault h]
    by_cases ht : thresholdOf s d c ≤ code.toNat
    · rw [if_pos ht, if_congr (and_iff_right ht) rfl rfl]
      rfl
    · rw [if_neg ht, if_neg (secondsTicks_pos hlimit).symm,
        if_neg (show ¬(thresholdOf s d c ≤ code.toNat ∧ runAfter (s.channel c) = 4000 * (s.ductCfg d).base.stuckLimit) from fun e => ht e.1)]
  · rw [if_pos h, channelSample_resting d code h]

theorem channelSample_reached : (channelSample s d c code).reached = decide (thresholdOf s d c ≤ code.toNat) := rfl

theorem channelSample_qualified (hlimit : 0 < (s.ductCfg d).base.stuckLimit) :
    (channelSample s d c code).qualified = qualifiesNow s d c code := by
  have hfault := channelSample_fault s d c code hlimit
  unfold qualifiesNow reachesNow
  by_cases h : (s.channel c).state = .active
  · rw [← hfault, decide_eq_true h, channelSample, sampleChannel_active h]
    dsimp only [qualifiesAt]
    rw [Bool.true_and]
    ac_rfl
  · rw [decide_eq_false h, channelSample_resting d code h]
    rfl

/-- A channel that is ACTIVE behind the stages has been so before, and has no fault. -/
theorem channelSample_active : (channelSample s d c code).channel.isActive =
    (decide ((s.channel c).state = .active) && (channelSample s d c code).fault.isNone) := by
  by_cases h : (s.channel c).state = .active
  · rw [decide_eq_true h, channelSample, sampleChannel_active h]
    dsimp only
    cases Channel.faultFound _ (Channel.ran _ _ code s.tick (s.channel c)) with
    | none => exact decide_eq_true h
    | some k => rfl
  · rw [channelSample_resting d code h, decide_eq_false h]
    unfold Channel.recorded
    split
    all_goals rename_i hs; exact decide_eq_false (by rw [hs] at h ⊢; exact h)

end

end Sys2Proof.Machine
end

