-- ==== Sys2Proof/Proofs/StationSamples.lean ====
section
/-! PROOFS. Stages 1 to 4 of a station sample event (R23 to R31): the channels of the station, their faults, and its coincidence
troubles. -/

namespace Sys2Proof.Machine

open Sys2Proof

/-! ### The samples of a list of channels -/

/-- A Duct Controller whose arming window is spoiled, where it has one and a fault came (R97). -/
def Ctl.spoiled (fault : Bool) (c : Ctl) : Ctl := { c with windowClean := !(fault && decide (c.state = .arming)) && c.windowClean }

theorem Ctl.spoiled_spoiled (a b : Bool) (c : Ctl) : (c.spoiled a).spoiled b = c.spoiled (a || b) := by
  unfold Ctl.spoiled
  dsimp only
  cases a <;> cases b <;> cases decide (c.state = .arming) <;> rfl

/-- From `s` to `t` the arming window of duct `d` is at most spoiled. -/
structure Spoilt (d : Fin 4) (fault : Bool) (s t : State) : Prop where
  sound : Sound false s t
  rest : t.duct d = { s.duct d with vel := (t.duct d).vel, ctl := t.ctl d }
  state : (t.ctl d).state = (s.ctl d).state
  clean : (t.ctl d).windowClean = ((s.ctl d).spoiled fault).windowClean
  air : BoundsOk s → (t.duct d).vel = (s.duct d).vel
  duct : OutputsOk s → BoundsOk s → t.duct d = { s.duct d with ctl := (s.ctl d).spoiled fault }
  others : KeepsOtherDucts d s t

theorem Spoilt.of_ducts {d : Fin 4} {s t : State} (hs : Sound false s t) (h : t.ducts = s.ducts) : Spoilt d false s t := by
  have hd (e : Fin 4) : t.duct e = s.duct e := State.duct_eq_of_ducts h e
  have hc : t.ctl d = s.ctl d := congrArg Duct.ctl (hd d)
  refine ⟨hs, ?_, by rw [hc], by rw [hc]; rfl, fun _ => by rw [hd], fun _ _ => hd d, fun e _ => hd e⟩
  rw [hc, hd]
  rfl

theorem Spoilt.trans {d : Fin 4} {a b : Bool} {s t w : State} (h : Spoilt d a s t) (k : Spoilt d b t w) : Spoilt d (a || b) s w := by
  refine ⟨h.sound.trans k.sound, ?_, k.state.trans h.state, ?_, fun hb => (k.air (h.sound.bounds hb)).trans (h.air hb), fun ho hb => ?_,
    fun e he => (k.others e he).trans (h.others e he)⟩
  · rw [k.rest, h.rest]
  · rw [k.clean, Ctl.spoiled, h.clean, h.state, ← Ctl.spoiled_spoiled]
    rfl
  · rw [k.duct (h.sound.outputs ho) (h.sound.bounds hb), State.ctl, h.duct ho hb]
    show ({ s.duct d with ctl := ((s.ctl d).spoiled a).spoiled b } : Duct) = _
    rw [Ctl.spoiled_spoiled]

theorem spoilWindow_spoilt (d : Fin 4) (s : State) : Spoilt d true s (spoilWindow d s) := by
  have hsound := spoilWindow_sound d s
  unfold spoilWindow at hsound ⊢
  by_cases h : (s.ctl d).state = .arming
  · rw [if_pos h] at hsound ⊢
    have hself := s.setDuct_duct_self d
    have hctl : (s.setCtl d { s.ctl d with windowClean := false }).ctl d =
        Ctl.withOutputs { s.ctl d with windowClean := false } := congrArg Duct.ctl (hself _)
    have hspoiled : (s.ctl d).spoiled true = { s.ctl d with windowClean := false } := by
      rw [Ctl.spoiled, decide_eq_true h]
      rfl
    refine ⟨hsound, ?_, by rw [hctl]; rfl, by rw [hctl, hspoiled]; rfl, fun hb => ?_, fun ho hb => ?_, fun e he => ?_⟩
    · rw [hctl, State.setCtl, hself]
    · rw [State.setCtl, hself]
      have hbounds : (s.duct d).vel.bounds = boundsFor (s.ductCfg d) (s.duct d).vel.state (s.duct d).vel.value (s.ctl d).state :=
        (boundsOk_iff s).mp hb d
      show ({ (s.duct d).vel with bounds := _ } : Velocity) = _
      rw [← hbounds]
    · rw [hspoiled, setCtl_eq (c := { s.ctl d with windowClean := false }) ho hb rfl rfl rfl rfl rfl]
      exact hself _
    · exact s.setDuct_duct_ne d e _ he
  · rw [if_neg h]
    refine ⟨.refl _ s, rfl, rfl, ?_, fun _ => rfl, fun _ _ => ?_, fun _ _ => rfl⟩
    all_goals rw [Ctl.spoiled, decide_eq_false h]; rfl

/-- The notices of one channel's fault (R13, R30). -/
def faultNotices (s : State) (d : Fin 4) (x : Fin 16 × Sampled) : List Offer :=
  match x.2.fault with
  | some k => raiseNotices s (ductZone d) k.trouble x.1.val
  | none => []

/-- Some of the channels have come into a fault. -/
def anyFault (l : List (Fin 16 × Sampled)) : Bool := l.any fun x => x.2.fault.isSome

/-- The samples of some channels of duct `d` have been taken. -/
structure SamplesTaken (d : Fin 4) (l : List (Fin 16 × Sampled)) (s t : State) : Prop where
  within : Within { zones := true, channels := true, ducts := true } s t
  hazards : KeepsHazards s t
  nodup : ∀ y, (s.zone y).troubles.Nodup → (t.zone y).troubles.Nodup
  told : Told (l.flatMap (faultNotices s d)) s t
  raised : ∀ x ∈ l, ∀ f ∈ x.2.fault, Raised t (ductZone d) f.trouble x.1.val
  raised_ne : ∀ y k n, (∀ x ∈ l, ∀ f ∈ x.2.fault, k = f.trouble → n ≠ x.1.val) → (Raised t y k n ↔ Raised s y k n)
  stands : ∀ y k n, Raised s y k n → Raised t y k n
  channel : ∀ x ∈ l, t.channel x.1 = x.2.channel
  channel_ne : ∀ o, o ∉ l.map Prod.fst → t.channel o = s.channel o
  spoilt : Spoilt d (anyFault l) s t

theorem SamplesTaken.nil (d : Fin 4) (s : State) : SamplesTaken d [] s s :=
  ⟨.refl _ s, .refl s, fun _ => id, .refl s, nofun, fun _ _ _ _ => .rfl, fun _ _ _ => id, nofun, fun _ _ => rfl,
    .of_ducts (.refl _ s) rfl⟩

theorem faultNotices_congr {d : Fin 4} {s t : State} {x : Fin 16 × Sampled}
    (h : ∀ f ∈ x.2.fault, Raised t (ductZone d) f.trouble x.1.val ↔ Raised s (ductZone d) f.trouble x.1.val) :
    faultNotices t d x = faultNotices s d x := by
  unfold faultNotices
  cases hf : x.2.fault with
  | none => rfl
  | some k => exact raiseNotices_congr (h k hf)

theorem SamplesTaken.cons {d : Fin 4} {x : Fin 16 × Sampled} {l : List (Fin 16 × Sampled)} {s t w : State} (h : SamplesTaken d [x] s t)
    (k : SamplesTaken d l t w) (hx : x.1 ∉ l.map Prod.fst) : SamplesTaken d (x :: l) s w := by
  have hkeys : ∀ y ∈ l, y.1 ≠ x.1 := fun y hy e => hx (e ▸ List.mem_map_of_mem hy)
  have hkept : ∀ y ∈ l, ∀ f ∈ y.2.fault, Raised t (ductZone d) f.trouble y.1.val ↔ Raised s (ductZone d) f.trouble y.1.val :=
    fun y hy f _ => h.raised_ne _ _ _ fun a ha g _ _ e => hkeys y hy (by rw [List.mem_singleton.mp ha] at e; exact Fin.ext e)
  refine ⟨h.within.trans k.within, h.hazards.trans k.hazards, fun y hy => k.nodup y (h.nodup y hy), ?_, ?_, ?_,
    fun y l n hr => k.stands y l n (h.stands y l n hr), ?_, ?_, ?_⟩
  · have hnotices : l.flatMap (faultNotices t d) = l.flatMap (faultNotices s d) :=
      List.flatMap_congr fun y hy => faultNotices_congr (hkept y hy)
    have := h.told.trans k.told h.within.fixed.tick_eq
    rwa [hnotices, List.flatMap_singleton] at this
  · rintro y (_ | ⟨_, hy⟩) f hf
    · exact k.stands _ _ _ (h.raised x (List.mem_singleton_self x) f hf)
    · exact k.raised y hy f hf
  · intro y l n hn
    exact (k.raised_ne y l n fun a ha => hn a (List.mem_cons_of_mem x ha)).trans
      (h.raised_ne y l n fun a ha => hn a (List.mem_singleton.mp ha ▸ List.mem_cons_self))
  · rintro y (_ | ⟨_, hy⟩)
    · exact (k.channel_ne x.1 hx).trans (h.channel x (List.mem_singleton_self x))
    · exact k.channel y hy
  · intro o ho
    rw [List.map_cons, List.mem_cons, not_or] at ho
    exact (k.channel_ne o ho.2).trans (h.channel_ne o (by simpa using ho.1))
  · have := h.spoilt.trans k.spoilt
    rwa [show (anyFault [x] || anyFault l) = anyFault (x :: l) by simp [anyFault]] at this

/-- The sample of one channel, with the report of its fault (R29, R30). -/
theorem takeSampled_taken (d : Fin 4) (x : Fin 16 × Sampled) (s : State) : SamplesTaken d [x] s (takeSampled d s x) := by
  have hset : (s.setChannel x.1 x.2.channel).channels = s.channels.set x.1 x.2.channel := rfl
  have hself : (s.setChannel x.1 x.2.channel).channel x.1 = x.2.channel := Vector.getElem_set_self _
  have hne : ∀ o, o ≠ x.1 → (s.setChannel x.1 x.2.channel).channel o = s.channel o := fun o ho =>
    Vector.getElem_set_ne x.1.isLt o.isLt fun e => ho (Fin.ext e.symm)
  have hwithin : Within { channels := true } s (s.setChannel x.1 x.2.channel) := setChannel_within s _ _
  have hzones : (s.setChannel x.1 x.2.channel).zones = s.zones := rfl
  have hducts : (s.setChannel x.1 x.2.channel).ducts = s.ducts := rfl
  have hports : (s.setChannel x.1 x.2.channel).ports = s.ports := rfl
  have hsound := setChannel_sound x.1 x.2.channel s
  unfold takeSampled
  dsimp only
  generalize s.setChannel x.1 x.2.channel = u at *
  have hother (o : Fin 16) (ho : o ∉ [x].map Prod.fst) : o ≠ x.1 := by simpa using ho
  cases hf : x.2.fault with
  | none =>
    have hno : ∀ y ∈ [x], ∀ f, f ∉ y.2.fault := fun y hy f h => by
      rw [List.mem_singleton.mp hy, hf] at h
      exact nomatch h
    refine ⟨hwithin.mono rfl, .of_zones hzones, fun y => by rw [State.zone_eq_of_zones hzones]; exact id, ?_,
      fun y hy f h => absurd h (hno y hy f), fun y k n _ => raised_of_zones hzones y k n, fun y k n => (raised_of_zones hzones y k n).mpr,
      fun y hy => by rw [List.mem_singleton.mp hy, hself], fun o ho => hne o (hother o ho), ?_⟩
    · rw [List.flatMap_singleton, faultNotices, hf]
      exact .of_ports hports
    · rw [anyFault, List.any_cons, hf]
      exact .of_ducts hsound hducts
  | some f =>
    have hf' : ∀ y ∈ [x], ∀ g ∈ y.2.fault, y = x ∧ g = f := fun y hy g h => by
      rw [List.mem_singleton.mp hy, hf] at h
      exact ⟨List.mem_singleton.mp hy, (Option.some.inj h).symm⟩
    have hraise := raiseTrouble_at (ductZone d) f.trouble x.1.val u
    have htold := raiseTrouble_told (ductZone d) f.trouble x.1.val u
    have hraiseSound := raiseTrouble_sound (ductZone d) f.trouble x.1.val u
    have hraised := raised_raiseTrouble_iff (ductZone d) (s := u) (k := f.trouble) (n := x.1.val)
    show SamplesTaken d [x] s (spoilWindow d (raiseTrouble (ductZone d) f.trouble x.1.val u))
    generalize raiseTrouble (ductZone d) f.trouble x.1.val u = v at *
    have hspoil := spoilWindow_local d v
    have hduct := spoilWindow_spoilt d v
    have hv : (spoilWindow d v).zones = v.zones := by unfold spoilWindow; split <;> rfl
    have hw : (spoilWindow d v).ports = v.ports := by unfold spoilWindow; split <;> rfl
    generalize spoilWindow d v = w at *
    have hzoneRaised (y : Fin 16) (k : TroubleKind) (n : Nat) : Raised w y k n ↔
        (y = ductZone d ∧ k = f.trouble ∧ n = x.1.val) ∨ Raised s y k n :=
      (raised_of_zones hv y k n).trans ((hraised y k n).trans (or_congr_right (raised_of_zones hzones y k n)))
    have hchannels : w.channels = u.channels := (hspoil.within.channels rfl).trans (hraise.within.channels rfl)
    have hchannel (o : Fin 16) : w.channel o = u.channel o := congrArg (fun v : Vector Channel 16 => v[o]) hchannels
    refine ⟨(hwithin.mono rfl).trans ((hraise.within.mono rfl).trans (hspoil.within.mono rfl)),
      (KeepsHazards.of_zones hzones).trans (hraise.hazards.trans hspoil.hazards), fun y h => ?_, ?_, ?_, ?_,
      fun y k n h => (hzoneRaised y k n).mpr (.inr h), ?_, fun o ho => (hchannel o).trans (hne o (hother o ho)), ?_⟩
    · exact hspoil.nodup y (hraise.nodup y (by rwa [State.zone_eq_of_zones hzones]))
    · rw [List.flatMap_singleton, faultNotices, hf]
      dsimp only
      rw [← raiseNotices_congr (raised_of_zones hzones (ductZone d) f.trouble x.1.val)]
      exact .after hports hwithin.fixed.tick_eq (htold.before hw)
    · intro y hy g hg
      obtain ⟨rfl, rfl⟩ := hf' y hy g hg
      exact (hzoneRaised _ _ _).mpr (.inl ⟨rfl, rfl, rfl⟩)
    · exact fun y k n hn => (hzoneRaised y k n).trans (or_iff_right fun e => hn x (List.mem_singleton_self x) f hf e.2.1 e.2.2)
    · intro y hy
      rw [List.mem_singleton.mp hy, hchannel, hself]
    · have h := (Spoilt.of_ducts hsound hducts).trans ((Spoilt.of_ducts hraiseSound (hraise.within.ducts rfl)).trans hduct)
      rwa [show (false || (false || true)) = anyFault [x] by rw [anyFault, List.any_cons, hf]; rfl] at h

theorem samples_taken {d : Fin 4} {l : List (Fin 16 × Sampled)} (hl : (l.map Prod.fst).Nodup) (s : State) :
    SamplesTaken d l s (l.foldl (takeSampled d) s) := by
  induction l generalizing s with
  | nil => exact .nil d s
  | cons x rest ih =>
    rw [List.map_cons, List.nodup_cons] at hl
    exact (takeSampled_taken d x s).cons (ih hl.2 _) hl.1

/-! ### The samples of a station -/

theorem stationChannels_nodup (c : Cfg) (d st : Fin 4) : (stationChannels c d st).Nodup := (List.nodup_finRange 16).filter _

theorem zip_fst_sublist {α β : Type} (l : List α) (m : List β) : ((l.zip m).map Prod.fst).Sublist l := by
  induction l generalizing m with
  | nil => exact .slnil
  | cons a rest ih =>
    cases m with
    | nil => exact List.nil_sublist _
    | cons b others => exact (ih others).cons_cons a

theorem stationCodes_nodup (s : State) (d st : Fin 4) (codes : Vector Code 4) : ((stationCodes s d st codes).map Prod.fst).Nodup := by
  exact (zip_fst_sublist _ _).nodup (stationChannels_nodup s.cfg d st)


/-- Stages 1 to 4 of a station sample event, with the count of the dead time (R23 to R31, R34). -/
def stationTaken (d st : Fin 4) (l : List (Fin 16 × Sampled)) (s : State) : State := takeSamples d st l (passDeadTime d st s)

/-- A kind of trouble that no sample raises or clears. -/
def NoSampleKind (k : TroubleKind) : Prop :=
  k ≠ .channelStuck ∧ k ≠ .channelDead ∧ k ≠ .reducedCoincidence ∧ k ≠ .stationUnprotected

/-- What stages 1 to 4 leave. -/
structure StationTaken (d st : Fin 4) (l : List (Fin 16 × Sampled)) (s t : State) : Prop where
  within : Within { zones := true, channels := true, stations := true, ducts := true } s t
  hazards : KeepsHazards s t
  told : Told (l.flatMap (faultNotices s d) ++ if anyFault l then coincidenceNotices s d st (activeCount t d st) else []) s t
  raised : ∀ x ∈ l, ∀ f ∈ x.2.fault, Raised t (ductZone d) f.trouble x.1.val
  coincidence : anyFault l = true → ZonesOk s →
    (Raised t (ductZone d) .stationUnprotected st.val ↔ activeCount t d st = 0) ∧
      (Raised t (ductZone d) .reducedCoincidence st.val ↔
        0 < activeCount t d st ∧ activeCount t d st ≤ (s.ductCfg d).base.coincidence)
  kept : ∀ k, NoSampleKind k → ∀ y n, Raised t y k n ↔ Raised s y k n
  channel : ∀ x ∈ l, t.channel x.1 = x.2.channel
  channel_ne : ∀ o, o ∉ l.map Prod.fst → t.channel o = s.channel o
  spoilt : Spoilt d (anyFault l) s t
  stations : t.stations = s.stations.set (stationIx d st) { s.station d st with dead := (s.station d st).dead - 1 }

theorem FaultKind.trouble_cases (f : FaultKind) : f.trouble = .channelStuck ∨ f.trouble = .channelDead := by
  cases f
  · exact .inl rfl
  · exact .inr rfl

theorem coincidenceNotices_congr {s t : State} {d st : Fin 4} (hc : t.cfg = s.cfg)
    (h : ∀ k, k = .reducedCoincidence ∨ k = .stationUnprotected → ∀ n, Raised t (ductZone d) k n ↔ Raised s (ductZone d) k n) (n : Nat) :
    coincidenceNotices t d st n = coincidenceNotices s d st n := by
  unfold coincidenceNotices
  rw [setNotices_congr (h _ (.inl rfl) _), setNotices_congr (h _ (.inr rfl) _), State.ductCfg, State.ductCfg, hc]

theorem stationTaken_left {d st : Fin 4} {l : List (Fin 16 × Sampled)} (hl : (l.map Prod.fst).Nodup) (s : State) :
    StationTaken d st l s (stationTaken d st l s) := by
  unfold stationTaken takeSamples
  have hpass : Within { stations := true } s (passDeadTime d st s) := setStation_within s d st _
  have hstations : (passDeadTime d st s).stations =
    s.stations.set (stationIx d st) { s.station d st with dead := (s.station d st).dead - 1 } := rfl
  have hsound : Sound false s (passDeadTime d st s) := setStation_sound rfl
  have hports : (passDeadTime d st s).ports = s.ports := rfl
  generalize passDeadTime d st s = u at *
  have hzones : u.zones = s.zones := hpass.zones rfl
  have hraisedU := raised_of_zones hzones
  have htaken := samples_taken (d := d) hl u
  have hchannelU (o : Fin 16) : u.channel o = s.channel o := congrArg (fun v : Vector Channel 16 => v[o]) (hpass.channels rfl)
  dsimp only
  generalize l.foldl (takeSampled d) u = v at *
  have hnotices : l.flatMap (faultNotices u d) = l.flatMap (faultNotices s d) :=
    List.flatMap_congr fun x _ => faultNotices_congr fun f _ => hraisedU _ _ _
  have htold : Told (l.flatMap (faultNotices s d)) s v := hnotices ▸ Told.after hports hpass.fixed.tick_eq htaken.told
  have hkeptV (k : TroubleKind) (h1 : k ≠ .channelStuck) (h2 : k ≠ .channelDead) (y : Fin 16) (n : Nat) :
      Raised v y k n ↔ Raised s y k n := by
    refine (htaken.raised_ne y k n fun x _ f _ e => ?_).trans (hraisedU y k n)
    rcases f.trouble_cases with h | h
    · exact absurd (e.trans h) h1
    · exact absurd (e.trans h) h2
  have hspoilt : Spoilt d (false || anyFault l) s v := (Spoilt.of_ducts hsound (hpass.ducts rfl)).trans htaken.spoilt
  rw [Bool.false_or] at hspoilt
  have hwithin : Within { zones := true, channels := true, stations := true, ducts := true } s v :=
    (hpass.mono rfl).trans (htaken.within.mono rfl)
  have hhazards : KeepsHazards s v := (KeepsHazards.of_zones hzones).trans htaken.hazards
  by_cases hany : anyFault l = true
  · rw [show (l.any fun x => x.2.fault.isSome) = true from hany, if_pos rfl]
    have hat := evalCoincidence_at d st v
    have heval := evalCoincidence_told d st v
    have hraisedC := evalCoincidence_raised (d := d) (st := st) (s := v)
    have hraisedNe (k : TroubleKind) (n : Nat) := evalCoincidence_raised_ne (d := d) (st := st) (k := k) (n := n) v
    have hsoundC := evalCoincidence_sound d st v
    generalize evalCoincidence d st v = w at *
    have hcount : activeCount w d st = activeCount v d st :=
      activeCount_congr hat.within.fixed.cfg_eq (hat.within.channels rfl) d st
    have hchannelW (o : Fin 16) : w.channel o = v.channel o := congrArg (fun x : Vector Channel 16 => x[o]) (hat.within.channels rfl)
    have hspoiltW := hspoilt.trans (.of_ducts hsoundC (hat.within.ducts rfl))
    rw [Bool.or_false] at hspoiltW
    refine ⟨hwithin.trans (hat.within.mono rfl), hhazards.trans hat.hazards, ?_, fun x hx f hf => ?_, fun _ hok => ?_, fun k hk y n => ?_,
      fun x hx => (hchannelW _).trans (htaken.channel x hx),
      fun o ho => (hchannelW o).trans ((htaken.channel_ne o ho).trans (hchannelU o)), hspoiltW,
      (hat.within.stations rfl).trans ((htaken.within.stations rfl).trans hstations)⟩
    · rw [if_pos hany, hcount, ← coincidenceNotices_congr (hwithin.fixed.cfg_eq) fun k hk n => ?_]
      · exact htold.trans heval hwithin.fixed.tick_eq
      · rcases hk with rfl | rfl
        · exact hkeptV .reducedCoincidence nofun nofun _ n
        · exact hkeptV .stationUnprotected nofun nofun _ n
    · refine (hraisedNe _ _ _ fun _ => ?_).mpr (htaken.raised x hx f hf)
      rcases f.trouble_cases with h | h
      · exact ⟨h ▸ nofun, h ▸ nofun⟩
      · exact ⟨h ▸ nofun, h ▸ nofun⟩
    · have h := hraisedC (hspoilt.sound.zones hok)
      rw [hcount]
      rw [State.ductCfg, hwithin.fixed.cfg_eq] at h
      exact h
    · obtain ⟨h1, h2, h3, h4⟩ := hk
      exact (hraisedNe k n y fun _ => ⟨h3, h4⟩).trans (hkeptV k h1 h2 y n)
  · have hquiet : anyFault l = false := Bool.eq_false_iff.mpr hany
    rw [show (l.any fun x => x.2.fault.isSome) = false from hquiet, if_neg Bool.false_ne_true]
    refine ⟨hwithin, hhazards, ?_, htaken.raised, fun h => absurd h hany, fun k hk => hkeptV k hk.1 hk.2.1, htaken.channel,
      fun o ho => (htaken.channel_ne o ho).trans (hchannelU o), hspoilt, (htaken.within.stations rfl).trans hstations⟩
    rw [if_neg hany, List.append_nil]
    exact htold

end Sys2Proof.Machine
end

