-- ==== Sys2Proof/Proofs/Confirmations.lean ====
section
/-! PROOFS. Stage 5 of a station sample event (R32 to R35) and the Capture Store's samples: what they leave of the channels, of the
troubles of stages 1 to 4, and of the window-clean mark. -/

namespace Sys2Proof.Machine

open Sys2Proof

/-! ### The window-clean mark (R97; Assumption 32) -/

/-- No event from `s` to `t` has touched a window-clean mark. -/
def KeepsClean (s t : State) : Prop := ∀ e, (t.ctl e).windowClean = (s.ctl e).windowClean

theorem KeepsClean.refl (s : State) : KeepsClean s s := fun _ => rfl

theorem KeepsClean.trans {s t w : State} (h : KeepsClean s t) (k : KeepsClean t w) : KeepsClean s w := fun e => (k e).trans (h e)

theorem KeepsClean.of_ctl {s t : State} (h : ∀ e, t.ctl e = s.ctl e) : KeepsClean s t := fun e => by rw [h]

theorem KeepsClean.of_local {m : List DuctPart} {d : Fin 4} {s t : State} (h : Local m d s t) (hm : .ctl ∉ m) : KeepsClean s t :=
  .of_ctl fun e => by
    by_cases he : e = d
    · rw [he, h.ctl_eq hm]
    · exact h.ctl_ne he

theorem setCtl_clean {d : Fin 4} {c : Ctl} {s : State} (h : c.windowClean = (s.ctl d).windowClean) : KeepsClean s (s.setCtl d c) := fun e => by
  by_cases he : e = d
  · subst he
    exact (congrArg (fun x : Duct => x.ctl.windowClean) (s.setDuct_duct_self e _)).trans h
  · exact congrArg (fun x : Duct => x.ctl.windowClean) (s.setDuct_duct_ne d e _ he)

theorem changeCtl_clean {d : Fin 4} {c : Ctl} {s : State} (h : c.windowClean = (s.ctl d).windowClean) : KeepsClean s (changeCtl d c s) :=
  setCtl_clean h

theorem closeCommand_clean (d : Fin 4) (s : State) : KeepsClean s (closeCommand d s) := .of_local (closeCommand_local d s) (by simp)

theorem enterStopped_clean (d : Fin 4) (s : State) : KeepsClean s (enterStopped d s) := changeCtl_clean rfl

theorem fireWait_clean (d : Fin 4) (s : State) : KeepsClean s (fireWait d s) := by
  unfold fireWait
  split
  · exact enterStopped_clean d s
  · exact .refl s

theorem beginStop_clean (d : Fin 4) (c : StopCause) (s : State) : KeepsClean s (beginStop d c s) := by
  unfold beginStop
  extract_lets purgeTime purge old s1
  have h : KeepsClean s s1 := changeCtl_clean rfl
  clear_value s1
  split
  · exact h.trans ((closeCommand_clean d s1).trans (fireWait_clean d _))
  · split
    · exact h.trans (enterStopped_clean d s1)
    · exact h

theorem replaceStop_clean (d : Fin 4) (c : StopCause) (s : State) : KeepsClean s (replaceStop d c s) := by
  unfold replaceStop
  extract_lets k orderly turning kind s1
  have h : KeepsClean s s1 := changeCtl_clean rfl
  clear_value s1
  split
  · exact h.trans ((closeCommand_clean d s1).trans (fireWait_clean d _))
  · exact h

theorem replaceIfHigher_clean (d : Fin 4) (c : Option StopCause) (s : State) : KeepsClean s (replaceIfHigher d c s) := by
  unfold replaceIfHigher
  split
  · split
    · exact replaceStop_clean d _ s
    · exact .refl s
  · exact .refl s

theorem takeCauses_clean (d : Fin 4) (l : List StopCause) (s : State) : KeepsClean s (takeCauses d l s) := by
  unfold takeCauses
  split
  case h_5 | h_6 => exact replaceIfHigher_clean d _ s
  case h_7 => exact .refl s
  all_goals
    split
    · exact beginStop_clean d _ s
    · exact .refl s

theorem dcPost_clean (d : Fin 4) (s : State) : KeepsClean s (dcPost d s).state := .of_ctl (dcPost_ctl d s)

theorem fireReport_clean (z : Fin 16) (s : State) : KeepsClean s (fireReport z s) := by
  unfold fireReport
  generalize List.finRange 4 = l
  induction l generalizing s with
  | nil => exact .refl s
  | cons e rest ih =>
    refine KeepsClean.trans ?_ (ih _)
    unfold fireReportAt
    split
    · exact (takeCauses_clean e _ s).trans (dcPost_clean e _)
    · exact .refl s

theorem settleDuct_clean (d : Fin 4) (s : State) : KeepsClean s (settleDuct d s) := by
  unfold settleDuct deliver
  split
  · exact (dcPost_clean d s).trans (fireReport_clean _ _)
  · exact dcPost_clean d s

theorem dcEvent_clean (d : Fin 4) (l : List StopCause) (s : State) : KeepsClean s (dcEvent d l s) :=
  (takeCauses_clean d l s).trans ((fireWait_clean d _).trans (settleDuct_clean d _))

/-- A counted detection spoils the arming window of a duct that has one (R97, R99). -/
theorem countDetection_clean (d : Fin 4) (causes : List StopCause) (s : State) :
    ((countDetection d causes s).2.ctl d).windowClean = ((s.ctl d).spoiled true).windowClean := by
  have hcounted : (countedCtl s.tick (s.effective d).window (s.ctl d)).windowClean =
      ((s.ctl d).spoiled true).windowClean := by
    unfold countedCtl Ctl.spoiled
    by_cases h : (s.ctl d).state = .arming <;> simp [h]
  unfold countDetection
  split
  · extract_lets p c s1 quiet
    have hself (x : Ctl) (t : State) : ((t.setCtl d x).ctl d).windowClean = x.windowClean :=
      congrArg (fun x : Duct => x.ctl.windowClean) (t.setDuct_duct_self d _)
    have h1 : (s1.ctl d).windowClean = ((s.ctl d).spoiled true).windowClean := (hself c s).trans hcounted
    split
    · exact h1
    · split
      · exact h1
      · split
        · exact (hself { c with state := .alert, quiet := quiet } s1).trans hcounted
        · split
          · exact (hself { c with quiet := quiet } s1).trans hcounted
          · exact h1
  · rename_i h
    have hne : (s.ctl d).state ≠ .arming := fun e => h (by rw [e]; rfl)
    rw [Ctl.spoiled, decide_eq_false hne]
    rfl

/-! ### The troubles of a detection's event -/

/-- A kind of trouble that neither a confirmed detection nor what it brings about raises or clears. -/
def CalmKind (k : TroubleKind) : Prop := NoDoorKind k ∧ k ≠ .gateFault ∧ k ≠ .valveFault

/-- A part of a detection's event: some notices, and no trouble of a channel or a station. -/
structure Calm (s t : State) : Prop where
  tells : Tells s t
  raised : ∀ k, CalmKind k → ∀ y n, Raised t y k n ↔ Raised s y k n

theorem Calm.refl (s : State) : Calm s s := ⟨.refl s, fun _ _ _ _ => .rfl⟩

theorem Calm.trans {s t w : State} (h : Calm s t) (k : Calm t w) : Calm s w :=
  ⟨h.tells.trans k.tells, fun l hl y n => (k.raised l hl y n).trans (h.raised l hl y n)⟩

theorem Calm.of_told {l : List Offer} {s t : State} (ht : t.tick = s.tick) (h : Told l s t) (hz : t.zones = s.zones) : Calm s t :=
  ⟨⟨ht, l, h⟩, fun k _ y n => raised_of_zones hz y k n⟩

theorem Calm.of_quiet {s t : State} (ht : t.tick = s.tick) (hp : t.ports = s.ports) (hz : t.zones = s.zones) : Calm s t :=
  .of_told ht (.of_ports hp) hz

theorem EventKept.calm {s t : State} (h : EventKept s t) : Calm s t := ⟨h.tells, fun k hk => h.raised k hk.1 hk.2.1⟩

theorem offer_calm (o : Offer) (s : State) : Calm s (offer o s) := .of_told (offer_within o s).fixed.tick_eq (offer_told o s) rfl

theorem setDuct_calm (d : Fin 4) (x : Duct) (s : State) : Calm s (s.setDuct d x) := .of_quiet rfl rfl rfl

theorem setCaptures_calm (c : Captures) (s : State) : Calm s (s.setCaptures c) := .of_quiet rfl rfl rfl

theorem setListMark_calm (d : Fin 4) (b : Bool) (s : State) : Calm s (setListMark d b s) := .of_quiet rfl rfl rfl

theorem evalValve_calm (d : Fin 4) (v : Fin 2) (s : State) : Calm s (evalValve d v s) :=
  ⟨⟨(evalValve_local d v s).within.fixed.tick_eq, _, (evalValve_sets d v s).told⟩,
    fun _ hk y n => (evalValve_sets d v s).others y _ n fun e => hk.2.2 e.2.1⟩

theorem evalValves_calm (d : Fin 4) (s : State) : Calm s (evalValves d s) := (evalValve_calm d 0 s).trans (evalValve_calm d 1 _)

theorem startFlood_calm (d : Fin 4) (s : State) : Calm s (startFlood d s) := by
  have hset (x : Duct) (o : Offer) : Calm s (evalValves d (offer o (s.setDuct d x))) :=
    (setDuct_calm d x s).trans ((offer_calm o _).trans (evalValves_calm d _))
  unfold startFlood
  dsimp only
  split
  · exact hset _ _
  · exact hset _ _

theorem gateDecision_calm (d : Fin 4) (y : Track) (s : State) : Calm s (gateDecision d y s).2 :=
  ⟨⟨(gateDecision_local d y s).within.fixed.tick_eq, _, (gateDecision_left d y s).2.1⟩,
    fun _ hk z n => gateDecision_raised d y hk.2.1 s z n⟩

theorem foldl_calm {α : Type} (f : State → α → State) (l : List α) (s : State) (h : ∀ t a, Calm t (f t a)) : Calm s (l.foldl f s) := by
  induction l generalizing s with
  | nil => exact .refl s
  | cons a rest ih => exact (h s a).trans (ih (f s a))

theorem takeNewTrack_calm (d : Fin 4) (y : Track) (s : State) : Calm s (takeNewTrack d y s).2 := by
  have h := foldl_calm (fun s (e : ValveEntry) => evalValve d e.valve s) y.valves s fun t e => evalValve_calm d e.valve t
  unfold takeNewTrack
  dsimp only
  split
  · exact h
  · exact h.trans (gateDecision_calm d y _)

theorem settleDetection_calm (x : Detection) (s : State) : Calm s (settleDetection x s).state := by
  unfold settleDetection
  split
  · exact (setDuct_calm x.duct _ s).trans (offer_calm _ _)
  · split
    · exact (setDuct_calm x.duct _ s).trans ((takeNewTrack_calm _ _ _).trans (offer_calm _ _))
    · exact (startFlood_calm _ s).trans (offer_calm _ _)

theorem settleCapture_calm (x : Detection) (o : TrackOutcome) (hi lo : Nat) (s : State) : Calm s (settleCapture x o hi lo s) := by
  unfold settleCapture
  split
  · exact .of_quiet rfl rfl rfl
  · split
    · unfold startCapture
      dsimp only
      split
      all_goals exact .of_quiet rfl rfl rfl
    · unfold skipCapture
      dsimp only
      split
      · exact .refl s
      · exact (setCaptures_calm _ s).trans (offer_calm _ _)

theorem countDetection_calm (d : Fin 4) (causes : List StopCause) (s : State) : Calm s (countDetection d causes s).2 := by
  have hset (c : Ctl) (t : State) : Calm t (t.setCtl d c) := .of_quiet rfl rfl rfl
  have hchange (c : Ctl) (t : State) : Calm t (changeCtl d c t) := (hset c t).trans (offer_calm _ _)
  unfold countDetection
  split
  · extract_lets p c s1 quiet
    have h : Calm s s1 := hset c s
    clear_value s1
    split
    · exact h
    · split
      · exact h
      · split
        · exact h.trans (hchange _ s1)
        · split
          · exact h.trans (hset _ s1)
          · exact h
  · exact .refl s

theorem reportDetection_calm (x : Detection) (r : Settled) (s : State) : Calm s (reportDetection x r s) := by
  have hreport (causes : List StopCause) (t : State) :
      Calm t (dcEvent x.duct (countDetection x.duct causes t).1 (countDetection x.duct causes t).2) :=
    (countDetection_calm x.duct causes t).trans (dcEvent_kept x.duct _ _).calm
  unfold reportDetection
  split
  · exact .refl s
  · dsimp only
    split
    · exact (setListMark_calm x.duct true s).trans (hreport _ _)
    · exact hreport _ _
  · exact hreport _ _

theorem confirmDetection_calm (x : Detection) (s : State) : Calm s (confirmDetection x s) := by
  unfold confirmDetection
  extract_lets src s1 r
  have h : Calm s s1 := .of_quiet rfl rfl rfl
  exact h.trans ((settleDetection_calm x s1).trans ((settleCapture_calm x _ _ _ _).trans (reportDetection_calm x r _)))

theorem absorbCapture_calm (d st : Fin 4) (s : State) : Calm s (absorbCapture d st s) := by
  unfold absorbCapture
  split
  · split
    · exact setCaptures_calm _ s
    · exact .refl s
  · exact .refl s

theorem completeCapture_calm (b : Nat) (r : Capture) (d st : Fin 4) (s : State) : Calm s (completeCapture b r d st s) := by
  unfold completeCapture
  extract_lets c old c1 s1
  have h : Calm s s1 := .of_quiet rfl rfl rfl
  split
  · exact h.trans (offer_calm _ s1)
  · exact h

theorem captureSamples_calm (d st : Fin 4) (words : List Code) (s : State) : Calm s (captureSamples d st words s) := by
  unfold captureSamples
  split
  · exact .refl s
  · split
    · split
      · dsimp only
        split
        · exact completeCapture_calm _ _ d st s
        · exact setCaptures_calm _ s
      · exact .refl s
    all_goals exact .refl s

/-! ### The channels of stage 5 (R35) -/

/-- A flash is counted (R35). -/
def Channel.flashed (x : Channel) : Channel := { x with flash := min 65535 (x.flash + 1) }

/-- The flash counters of some channels rise (R35). -/
def countFlashes (l : List (Fin 16)) (s : State) : State :=
  l.foldl (fun s c => s.setChannel c { s.channel c with flash := min 65535 ((s.channel c).flash + 1) }) s

theorem countFlashes_eq (l : List (Fin 16)) (s : State) : countFlashes l s = { s with channels := (countFlashes l s).channels } := by
  induction l generalizing s with
  | nil => rfl
  | cons c rest ih => exact ih _

theorem flashes_left {l : List (Fin 16)} (hl : l.Nodup) (s : State) (q : Fin 16) :
    (countFlashes l s).channel q =
      if q ∈ l then (s.channel q).flashed else s.channel q := by
  induction l generalizing s with
  | nil => rfl
  | cons c rest ih =>
    rw [List.nodup_cons] at hl
    refine (ih hl.2 _).trans ?_
    by_cases hq : q = c
    · subst hq
      rw [if_neg hl.1, if_pos List.mem_cons_self]
      exact Vector.getElem_set_self _
    · have hstay : (s.setChannel c { s.channel c with flash := min 65535 ((s.channel c).flash + 1) }).channel q = s.channel q :=
        Vector.getElem_set_ne c.isLt q.isLt fun e => hq (Fin.ext e.symm)
      rw [hstay]
      exact (if_congr (List.mem_cons.trans (or_iff_right hq)) rfl rfl).symm

theorem settleCapture_channels (x : Detection) (o : TrackOutcome) (hi lo : Nat) (s : State) :
    (settleCapture x o hi lo s).channels = s.channels := by
  unfold settleCapture
  split
  · rfl
  · split
    · unfold startCapture
      dsimp only
      split
      all_goals rfl
    · unfold skipCapture
      dsimp only
      split <;> rfl

theorem confirmDetection_channels (x : Detection) (s : State) : (confirmDetection x s).channels = s.channels := by
  unfold confirmDetection
  extract_lets src s1 r
  exact ((reportDetection_within x r _).channels rfl).trans ((settleCapture_channels x _ _ _ _).trans
    ((settleDetection_within x s1).channels rfl))

theorem qualifyingSet_nodup {l : List (Fin 16 × Sampled)} (hl : (l.map Prod.fst).Nodup) : (qualifyingSet l).Nodup :=
  (List.filter_sublist.map Prod.fst).nodup hl

/-- What stage 5 may do to the window-clean mark (R97). -/
def MayspoilAt (d : Fin 4) (s t : State) : Prop :=
  (t.ctl d).windowClean = (s.ctl d).windowClean ∨ (t.ctl d).windowClean = ((s.ctl d).spoiled true).windowClean

theorem Ctl.spoiled_mark {c k : Ctl} (hs : k.state = c.state) (hw : k.windowClean = c.windowClean) (b : Bool) :
    (k.spoiled b).windowClean = (c.spoiled b).windowClean := by
  unfold Ctl.spoiled
  rw [hs, hw]

/-- The report of a detection spoils the arming window, unless it is MATCHED (R97, R99). -/
theorem reportDetection_clean (x : Detection) (r : Settled) (s : State) :
    ((reportDetection x r s).ctl x.duct).windowClean = match r.outcome with
      | .matched _ => (s.ctl x.duct).windowClean
      | .tracked _ | .overflow => ((s.ctl x.duct).spoiled true).windowClean := by
  have hreport (causes : List StopCause) (t : State) :
      ((dcEvent x.duct (countDetection x.duct causes t).1 (countDetection x.duct causes t).2).ctl x.duct).windowClean =
        ((t.ctl x.duct).spoiled true).windowClean := (dcEvent_clean x.duct _ _ x.duct).trans (countDetection_clean x.duct causes t)
  unfold reportDetection
  cases r.outcome with
  | matched id => rfl
  | overflow => exact hreport _ _
  | tracked id =>
    dsimp only
    split
    · refine (hreport _ _).trans (Ctl.spoiled_mark ?_ ?_ true)
      all_goals
        unfold setListMark State.setCtl State.ctl
        rw [State.setDuct_duct_self]
        rfl
    · exact hreport _ _

theorem confirmDetection_clean (x : Detection) (s : State) : MayspoilAt x.duct s (confirmDetection x s) := by
  unfold confirmDetection
  extract_lets src s1 r
  have hctl : (settleCapture x r.outcome r.vHi r.vLo r.state).ctl x.duct = s.ctl x.duct :=
    Eq.trans ((settleCapture_inside x r.outcome r.vHi r.vLo r.state).same .ctl (by simp))
      ((settleDetection_local x s1).ctl_eq (by simp))
  have h := reportDetection_clean x r (settleCapture x r.outcome r.vHi r.vLo r.state)
  rw [hctl] at h
  unfold MayspoilAt
  rw [h]
  cases r.outcome with
  | matched id => exact .inl rfl
  | _ => exact .inr rfl

/-- What stage 5 leaves of the channels, of other troubles and of the arming window. -/
structure StageFive (d : Fin 4) (set : List (Fin 16)) (s t : State) : Prop where
  within : Within .sampling s t
  calm : Calm s t
  channel : ∀ q, t.channel q = s.channel q ∨ q ∈ set ∧ t.channel q = (s.channel q).flashed
  clean : MayspoilAt d s t

theorem StageFive.of_channels {d : Fin 4} {set : List (Fin 16)} {s t : State} (hw : Within .sampling s t) (hc : Calm s t)
    (h : t.channels = s.channels) (hm : MayspoilAt d s t) : StageFive d set s t :=
  ⟨hw, hc, fun q => .inl (congrArg (fun v : Vector Channel 16 => v[q]) h), hm⟩

/-- What an unconfirmed flash leaves (R35). -/
structure Flashed (d st : Fin 4) (requirement count : Nat) (set : List (Fin 16)) (s t : State) : Prop where
  told : Told [flashOffer d st requirement count set (earliestStart s set)] s t
  rest : t = { s with channels := t.channels, ports := t.ports }
  within : Within { channels := true } s t
  channel : ∀ q, t.channel q = if q ∈ set then (s.channel q).flashed else s.channel q

theorem unconfirmedFlash_left (d st : Fin 4) (requirement count : Nat) {set : List (Fin 16)} (hset : set.Nodup) (s : State) :
    Flashed d st requirement count set s (unconfirmedFlash d st requirement count set s) := by
  have heq := countFlashes_eq set s
  have hflash := flashes_left hset s
  have ht : unconfirmedFlash d st requirement count set s =
    offer (flashOffer d st requirement count set (earliestStart s set)) (countFlashes set s) := rfl
  rw [ht]
  generalize countFlashes set s = u at *
  have hin : Within { channels := true } s u := by
    rw [heq]
    exact ⟨.refl s, .refl s, fun _ => rfl, fun _ => rfl, nofun, fun _ => rfl, fun _ => rfl, fun _ => rfl, fun _ => rfl, fun _ => rfl⟩
  have hports : u.ports = s.ports := by rw [heq]
  refine ⟨.after hports hin.fixed.tick_eq (offer_told _ u), ?_, hin.trans ((offer_within _ u).mono rfl), hflash⟩
  exact congrArg (fun v : State => ({ v with ports := (offer (flashOffer d st requirement count set (earliestStart s set)) u).ports } : State))
    heq

theorem Flashed.stageFive {d st : Fin 4} {requirement count : Nat} {set : List (Fin 16)} {s t : State}
    (h : Flashed d st requirement count set s t) : StageFive d set s t := by
  refine ⟨h.within.mono rfl, .of_told h.within.fixed.tick_eq h.told (h.within.zones rfl), fun q => ?_, .inl ?_⟩
  · rw [h.channel]
    by_cases hq : q ∈ set
    · exact .inr ⟨hq, if_pos hq⟩
    · exact .inl (if_neg hq)
  · rw [State.ctl, State.duct_eq_of_ducts (h.within.ducts rfl)]
    rfl

theorem judgeStation_stageFive {d st : Fin 4} {dead : Nat} {l : List (Fin 16 × Sampled)} (hl : (l.map Prod.fst).Nodup) (s : State) :
    StageFive d (qualifyingSet l) s (judgeStation d st dead l s) := by
  have hw := judgeStation_within d st dead l s
  unfold judgeStation at hw ⊢
  dsimp only at hw ⊢
  split at hw
  · rw [if_pos ‹_›]
    exact .of_channels hw (.refl s) rfl (.inl rfl)
  · rw [if_neg ‹_›]
    split at hw
    · rw [if_pos ‹_›]
      have h := absorbCapture_within d st s
      refine .of_channels hw (absorbCapture_calm d st s) (h.channels rfl) (.inl ?_)
      rw [State.ctl, State.duct_eq_of_ducts (h.ducts rfl)]
      rfl
    · rw [if_neg ‹_›]
      split at hw
      · rw [if_pos ‹_›]
        exact .of_channels hw (confirmDetection_calm _ s) (confirmDetection_channels _ s) (confirmDetection_clean ⟨d, st, _, _, _⟩ s)
      · rw [if_neg ‹_›]
        exact (unconfirmedFlash_left d st _ _ (qualifyingSet_nodup hl) s).stageFive

end Sys2Proof.Machine
end

