-- ==== Sys2Proof/Proofs/CaptureSamples.lean ====
section
/-! PROOFS. The samples that a filling capture takes, and its completion (R162, R164). -/

namespace Sys2Proof.Machine

open Sys2Proof

/-- The CAPTURE_READY notice, as the model offers it (R164). -/
theorem captureOffer_eq (cause : CaptureCause) (c k : Captures) :
    captureOffer cause c k = captureNotice (byteOf cause.num) c k := by
  unfold captureOffer captureNotice
  cases k.oldestSequence <;> cases k.lost <;> rfl

/-- The Capture Store once the capture in block `b` is complete. -/
def Captures.completed (c : Captures) (d st : Fin 4) (b : Nat) (r : Capture) : Captures :=
  { c with blocks := c.blocks.set b (.stored r), filling := c.filling.set (stationIx d st) none, stored := c.stored ++ [b] }

/-- What the completion of a capture leaves (R162, R164). -/
structure CaptureCompleted (d st : Fin 4) (b : Nat) (r : Capture) (s t : State) : Prop where
  captures : t.captures = s.captures.completed d st b r
  stations : t.stations = s.stations.set (stationIx d st) { s.station d st with inFlight := false }
  rest : t = { s with captures := t.captures, stations := t.stations, ports := t.ports }
  told : Told (if s.captures.stored.length + 1 = min s.cfg.readyThreshold (blockCount s.captures.layout) then
    [captureNotice 0 s.captures t.captures] else []) s t

theorem completeCapture_left (d st : Fin 4) (b : Nat) (r : Capture) (s : State) :
    CaptureCompleted d st b r s (completeCapture b r d st s) := by
  unfold completeCapture
  extract_lets c old c1 s1
  have hports : s1.ports = s.ports := rfl
  have htick : s1.tick = s.tick := rfl
  split
  · rename_i h
    replace h : s.captures.stored.length + 1 = min s.cfg.readyThreshold (blockCount s.captures.layout) := h
    refine ⟨rfl, rfl, rfl, ?_⟩
    rw [if_pos h]
    exact .after hports htick (captureOffer_eq .ready c c1 ▸ offer_told _ s1)
  · rename_i h
    replace h : ¬s.captures.stored.length + 1 = min s.cfg.readyThreshold (blockCount s.captures.layout) := h
    refine ⟨rfl, rfl, rfl, ?_⟩
    rw [if_neg h]
    exact .of_ports hports

/-- A filling capture that takes one sample of each of its channels and is not complete with it. -/
def Captures.filled (c : Captures) (b : Nat) (r : Capture) (left : Nat) : Captures :=
  { c with blocks := c.blocks.set b (.filling r left) }

/-- A record with the words of one event more (R162). -/
def Capture.taking (r : Capture) (words : List Code) : Capture := { r with words := r.words ++ words.take r.channels.length }

theorem captureSamples_none {d st : Fin 4} {words : List Code} {s : State} (h : s.captures.fillingOf d st = none) :
    captureSamples d st words s = s := by
  unfold captureSamples
  rw [h]

theorem captureSamples_early {d st : Fin 4} {words : List Code} {s : State} {b : Nat} {r : Capture} {n : Nat}
    (h : s.captures.fillingOf d st = some b) (hb : s.captures.block b = .filling r n) (he : Tick.later s.tick r.confirm = false) :
    captureSamples d st words s = s := by
  unfold captureSamples
  rw [h]
  dsimp only
  rw [hb]
  exact if_neg (by rw [he]; exact Bool.false_ne_true)

theorem captureSamples_fills {d st : Fin 4} {words : List Code} {s : State} {b : Nat} {r : Capture} {n : Nat}
    (h : s.captures.fillingOf d st = some b) (hb : s.captures.block b = .filling r n) (he : Tick.later s.tick r.confirm = true)
    (hn : 1 < n) : captureSamples d st words s = s.setCaptures (s.captures.filled b (r.taking words) (n - 1)) := by
  unfold captureSamples
  rw [h]
  dsimp only
  rw [hb]
  dsimp only
  rw [if_pos he, if_neg (by omega)]
  rfl

theorem captureSamples_completes {d st : Fin 4} {words : List Code} {s : State} {b : Nat} {r : Capture} {n : Nat}
    (h : s.captures.fillingOf d st = some b) (hb : s.captures.block b = .filling r n) (he : Tick.later s.tick r.confirm = true)
    (hn : n ≤ 1) : captureSamples d st words s = completeCapture b (r.taking words) d st s := by
  unfold captureSamples
  rw [h]
  dsimp only
  rw [hb]
  dsimp only
  rw [if_pos he, if_pos hn]
  rfl

/-- The Capture Store takes a station's samples: it does nothing, fills a block, or completes one. -/
theorem captureSamples_cases (d st : Fin 4) (words : List Code) (s : State) :
    captureSamples d st words s = s ∨ ∃ b ∈ s.captures.fillingOf d st, ∃ r n, s.captures.block b = .filling r n ∧
      (captureSamples d st words s = s.setCaptures (s.captures.filled b (r.taking words) (n - 1)) ∨
        captureSamples d st words s = completeCapture b (r.taking words) d st s) := by
  cases h : s.captures.fillingOf d st with
  | none => exact .inl (captureSamples_none h)
  | some b =>
    cases hb : s.captures.block b with
    | filling r n =>
      cases he : Tick.later s.tick r.confirm with
      | false => exact .inl (captureSamples_early h hb he)
      | true =>
        refine .inr ⟨b, rfl, r, n, hb, ?_⟩
        by_cases hn : n ≤ 1
        · exact .inr (captureSamples_completes h hb he hn)
        · exact .inl (captureSamples_fills h hb he (by omega))
    | _ =>
      left
      unfold captureSamples
      rw [h]
      dsimp only
      rw [hb]

/-- What the samples leave of the other blocks. -/
structure SamplesKept (d st : Fin 4) (s t : State) : Prop where
  rest : t = { s with captures := t.captures, stations := t.stations, ports := t.ports }
  dead : ∀ q : Fin 16, t.stations[q].dead = s.stations[q].dead
  stations : ∀ q : Fin 16, q ≠ stationIx d st → t.stations[q] = s.stations[q]

theorem captureSamples_kept (d st : Fin 4) (words : List Code) (s : State) : SamplesKept d st s (captureSamples d st words s) := by
  obtain h | ⟨b, -, r, n, -, h | h⟩ := captureSamples_cases d st words s
  · rw [h]
    exact ⟨rfl, fun _ => rfl, fun _ _ => rfl⟩
  · rw [h]
    exact ⟨rfl, fun _ => rfl, fun _ _ => rfl⟩
  · rw [h]
    have hleft := completeCapture_left d st b (r.taking words) s
    refine ⟨hleft.rest, fun q => ?_, fun q hq => ?_⟩
    · rw [hleft.stations, Vector.getElem_set_fin]
      split
      · rename_i hq
        rw [hq]
        rfl
      · rfl
    · rw [hleft.stations, Vector.getElem_set_fin, if_neg hq]

theorem SamplesKept.ducts {d st : Fin 4} {s t : State} (h : SamplesKept d st s t) : t.ducts = s.ducts := by rw [h.rest]

theorem SamplesKept.channels {d st : Fin 4} {s t : State} (h : SamplesKept d st s t) : t.channels = s.channels := by rw [h.rest]

theorem captureSamples_stageFive (d st : Fin 4) (words : List Code) (set : List (Fin 16)) (s : State) :
    StageFive d set s (captureSamples d st words s) := by
  have h := captureSamples_kept d st words s
  refine .of_channels (captureSamples_within d st words s) (captureSamples_calm d st words s) h.channels (.inl ?_)
  rw [State.ctl, State.duct_eq_of_ducts h.ducts]
  rfl

end Sys2Proof.Machine
end

