-- ==== Sys2Proof/Proofs/StationEvents.lean ====
section
/-! PROOFS. The whole station sample event (R23): what becomes of the station's channels, and a quiet one (R32). -/

namespace Sys2Proof.Machine

open Sys2Proof

/-! ### The event's parts -/

theorem stationEvent_eq (d st : Fin 4) (codes : Vector Code 4) (first : Bool) (s : State) :
    stationEvent d st codes first s =
      let l := stationSamples s d st codes
      let words := (stationCodes s d st codes).map Prod.snd
      let u := stationTaken d st l s
      if first then judgeStation d st (s.station d st).dead l (captureSamples d st words u)
      else captureSamples d st words (judgeStation d st (s.station d st).dead l u) := rfl

theorem stationSamples_keys (s : State) (d st : Fin 4) (codes : Vector Code 4) :
    (stationSamples s d st codes).map Prod.fst = (stationCodes s d st codes).map Prod.fst := by
  rw [stationSamples, List.map_map]
  rfl

theorem stationSamples_nodup (s : State) (d st : Fin 4) (codes : Vector Code 4) :
    ((stationSamples s d st codes).map Prod.fst).Nodup := stationSamples_keys s d st codes ▸ stationCodes_nodup s d st codes

theorem stationCodes_mem {s : State} {d st : Fin 4} {codes : Vector Code 4} {j : Fin 4} {c : Fin 16}
    (h : (stationChannels s.cfg d st)[j.val]? = some c) : (c, codes[j]) ∈ stationCodes s d st codes := by
  refine List.mem_of_getElem? (i := j.val) ?_
  rw [stationCodes, List.getElem?_zip_eq_some]
  exact ⟨h, by simp⟩

theorem stationSamples_mem {s : State} {d st : Fin 4} {codes : Vector Code 4} {j : Fin 4} {c : Fin 16}
    (h : (stationChannels s.cfg d st)[j.val]? = some c) :
    (c, channelSample s d c codes[j]) ∈ stationSamples s d st codes := List.mem_map_of_mem (stationCodes_mem h)

/-- Two samples of one channel are one. -/
theorem samples_unique {l : List (Fin 16 × Sampled)} (hl : (l.map Prod.fst).Nodup) {c : Fin 16} {x y : Sampled} (hx : (c, x) ∈ l)
    (hy : (c, y) ∈ l) : x = y := congrArg Prod.snd (List.inj_on_of_nodup_map hl hx hy rfl)

theorem qualifyingSet_mem {l : List (Fin 16 × Sampled)} (hl : (l.map Prod.fst).Nodup) {c : Fin 16} {x : Sampled} (hx : (c, x) ∈ l) :
    c ∈ qualifyingSet l ↔ x.qualified = true := by
  rw [qualifyingSet, List.mem_map]
  constructor
  · rintro ⟨⟨q, y⟩, hy, rfl⟩
    rw [List.mem_filter] at hy
    rw [samples_unique hl hx hy.1]
    exact hy.2
  · exact fun h => ⟨(c, x), List.mem_filter.mpr ⟨hx, h⟩, rfl⟩

theorem StageFive.after {d st : Fin 4} {set : List (Fin 16)} {s u t : State} (h : SamplesKept d st s u) (hu : StageFive d set s u)
    (k : StageFive d set u t) : StageFive d set s t := by
  have hchannel (q : Fin 16) : u.channel q = s.channel q := congrArg (fun v : Vector Channel 16 => v[q]) h.channels
  have hctl : u.ctl d = s.ctl d := congrArg Duct.ctl (State.duct_eq_of_ducts h.ducts d)
  refine ⟨hu.within.trans k.within, hu.calm.trans k.calm, fun q => hchannel q ▸ k.channel q, ?_⟩
  have := k.clean
  unfold MayspoilAt at this ⊢
  rwa [hctl] at this

theorem StageFive.before {d st : Fin 4} {set : List (Fin 16)} {s u t : State} (h : StageFive d set s u) (k : SamplesKept d st u t)
    (hk : StageFive d set u t) : StageFive d set s t := by
  have hchannel (q : Fin 16) : t.channel q = u.channel q := congrArg (fun v : Vector Channel 16 => v[q]) k.channels
  have hctl : t.ctl d = u.ctl d := congrArg Duct.ctl (State.duct_eq_of_ducts k.ducts d)
  refine ⟨h.within.trans hk.within, h.calm.trans hk.calm, fun q => hchannel q ▸ h.channel q, ?_⟩
  have := h.clean
  unfold MayspoilAt at this ⊢
  rwa [hctl]

theorem judgeStation_absorbs {d st : Fin 4} {dead : Nat} (h : 0 < dead) (l : List (Fin 16 × Sampled)) (s : State) :
    judgeStation d st dead l s = if (qualifyingSet l).isEmpty then s else absorbCapture d st s := by
  unfold judgeStation
  dsimp only
  rw [if_pos h]

theorem judgeStation_absorbed {d st : Fin 4} {dead : Nat} (h : 0 < dead) (l : List (Fin 16 × Sampled)) (s : State) :
    Within { captures := true } s (judgeStation d st dead l s) := by
  rw [judgeStation_absorbs h]
  split
  · exact .refl _ s
  · exact absorbCapture_within d st s

/-- The event as stages 1 to 4 and what comes of them. -/
theorem stationEvent_left (d st : Fin 4) (codes : Vector Code 4) (first : Bool) (s : State) :
    let l := stationSamples s d st codes
    let t := stationEvent d st codes first s
    ∃ u, StationTaken d st l s u ∧ StageFive d (qualifyingSet l) u t ∧
      (0 < (s.station d st).dead → ∀ q : Fin 16, t.stations[q].dead = u.stations[q].dead) := by
  intro l t
  have hl := stationSamples_nodup s d st codes
  refine ⟨stationTaken d st l s, stationTaken_left hl s, ?_⟩
  have ht : t = _ := stationEvent_eq d st codes first s
  clear_value t
  dsimp only at ht
  generalize (stationCodes s d st codes).map Prod.snd = words at ht
  change t = if first = true then judgeStation d st (s.station d st).dead l (captureSamples d st words (stationTaken d st l s))
    else captureSamples d st words (judgeStation d st (s.station d st).dead l (stationTaken d st l s)) at ht
  generalize stationTaken d st l s = u at *
  subst ht
  cases first
  · have hkept := captureSamples_kept d st words (judgeStation d st (s.station d st).dead l u)
    refine ⟨(judgeStation_stageFive hl u).before hkept (captureSamples_stageFive d st words _ _), fun hdead q => ?_⟩
    exact (hkept.dead q).trans (by rw [(judgeStation_absorbed hdead l u).stations rfl])
  · have hkept := captureSamples_kept d st words u
    refine ⟨.after hkept (captureSamples_stageFive d st words _ u) (judgeStation_stageFive hl _), fun hdead q => ?_⟩
    show (judgeStation d st (s.station d st).dead l (captureSamples d st words u)).stations[q].dead = _
    rw [(judgeStation_absorbed hdead l _).stations rfl]
    exact hkept.dead q

/-! ### One channel at the event's end -/

theorem activeCount_states {s t : State} (hc : t.cfg = s.cfg) (h : ∀ q, (t.channel q).state = (s.channel q).state) (d st : Fin 4) :
    activeCount t d st = activeCount s d st := by
  unfold activeCount Channel.isActive
  simp only [hc, h]

theorem StageFive.state {d : Fin 4} {set : List (Fin 16)} {s t : State} (h : StageFive d set s t) (q : Fin 16) :
    (t.channel q).state = (s.channel q).state := by
  rcases h.channel q with h | ⟨-, h⟩ <;> rw [h]
  rfl

theorem StageFive.activeCount {d : Fin 4} {set : List (Fin 16)} {s t : State} (h : StageFive d set s t) (e st : Fin 4) :
    activeCount t e st = Machine.activeCount s e st := activeCount_states h.within.fixed.cfg_eq h.state e st

/-- A sampled channel at the event's end: as the samples left it, but for a flash that it counts where it qualified. -/
theorem sampled_end {d st : Fin 4} {l : List (Fin 16 × Sampled)} {s u t : State} (hl : (l.map Prod.fst).Nodup)
    (htaken : StationTaken d st l s u) (hfive : StageFive d (qualifyingSet l) u t) {c : Fin 16} {r : Sampled} (hr : (c, r) ∈ l) :
    t.channel c = r.channel ∨ r.qualified = true ∧ t.channel c = r.channel.flashed := by
  rw [← htaken.channel (c, r) hr, ← qualifyingSet_mem hl hr]
  exact hfive.channel c

theorem CalmKind.of_fault (f : FaultKind) : CalmKind f.trouble := by
  rcases f.trouble_cases with h | h <;> rw [h] <;> exact ⟨⟨nofun, nofun⟩, nofun, nofun⟩

/-- The fault of one sample, with its trouble, its notices and the station's coincidence (R28 to R31). -/
theorem fault_end {d st : Fin 4} {l : List (Fin 16 × Sampled)} {s u t : State}
    (htaken : StationTaken d st l s u) (hfive : StageFive d (qualifyingSet l) u t) {c : Fin 16} {r : Sampled} (hr : (c, r) ∈ l)
    {k : FaultKind} (hk : r.fault = some k) :
    Raised t (ductZone d) k.trouble c.val ∧
      OffersThese (raiseNotices s (ductZone d) k.trouble c.val ++ coincidenceNotices s d st (activeCount t d st)) s t ∧
      ((s.ctl d).state = .arming → (t.ctl d).windowClean = false) ∧
      (ZonesOk s →
        (Raised t (ductZone d) .stationUnprotected st.val ↔ activeCount t d st = 0) ∧
        (Raised t (ductZone d) .reducedCoincidence st.val ↔ 0 < activeCount t d st ∧
          activeCount t d st ≤ (s.ductCfg d).base.coincidence)) := by
  have hany : anyFault l = true := List.any_eq_true.mpr ⟨(c, r), hr, by rw [hk]; rfl⟩
  have hcount := hfive.activeCount d st
  refine ⟨(hfive.calm.raised _ (.of_fault k) _ _).mpr (htaken.raised (c, r) hr k hk), ?_, fun harm => ?_, fun hok => ?_⟩
  · obtain ⟨-, m, hm⟩ := hfive.calm.tells
    have htold := htaken.told.trans hm htaken.within.fixed.tick_eq
    rw [if_pos hany, ← hcount] at htold
    have hsub : (raiseNotices s (ductZone d) k.trouble c.val).Sublist (l.flatMap (faultNotices s d)) := by
      have hnotices : faultNotices s d (c, r) = raiseNotices s (ductZone d) k.trouble c.val := by rw [faultNotices, hk]
      obtain ⟨before, after, hsplit⟩ := List.append_of_mem hr
      rw [hsplit, List.flatMap_append, List.flatMap_cons, hnotices]
      exact (List.sublist_append_left _ _).trans (List.sublist_append_right _ _)
    exact htold.offersThese ((hsub.append_right _).trans (List.sublist_append_left _ m)).subperm
  · have hu : (u.ctl d).windowClean = false := by
      rw [htaken.spoilt.clean, Ctl.spoiled, hany, decide_eq_true harm]
      rfl
    rcases hfive.clean with h | h <;> rw [h]
    · exact hu
    · rw [Ctl.spoiled, hu, Bool.and_false]
  · have h := htaken.coincidence hany hok
    rw [hcount]
    exact ⟨(hfive.calm.raised .stationUnprotected ⟨⟨nofun, nofun⟩, nofun, nofun⟩ _ _).trans h.1,
      (hfive.calm.raised .reducedCoincidence ⟨⟨nofun, nofun⟩, nofun, nofun⟩ _ _).trans h.2⟩

theorem faultFound_dead {limit : Nat} {x : Channel} (hs : x.state = .active) (hl : x.low = 400) : ∃ k, x.faultFound limit = some k := by
  unfold Channel.faultFound
  rw [if_neg (by rw [Channel.isActive, decide_eq_true hs]; decide)]
  by_cases hrun : x.run = secondsTicks limit
  · exact ⟨.stuck, if_pos hrun⟩
  · exact ⟨.dead, (if_neg hrun).trans (if_pos hl)⟩

/-- The sample of an ACTIVE channel at the event's end (R26 to R30). -/
theorem active_end {s : State} {d : Fin 4} {c : Fin 16} {code : Code} {y : Channel} (hx : (s.channel c).state = .active)
    (hend : let r := channelSample s d c code
      y = r.channel ∨ r.qualified = true ∧ y = r.channel.flashed) :
    let ran := (s.channel c).ran (thresholdOf s d c) (s.effective d).nq code s.tick
    let fault := (channelSample s d c code).fault
    fault = ran.faultFound (s.ductCfg d).base.stuckLimit ∧ (fault = none → y = { ran with flash := y.flash }) ∧
      ∀ k ∈ fault, y = ran.enter (.fault k) := by
  intro ran fault
  have hr : channelSample s d c code = _ := sampleChannel_active hx
  have hfault : fault = ran.faultFound (s.ductCfg d).base.stuckLimit := by
    show (channelSample s d c code).fault = _
    rw [hr]
  rw [hr] at hend
  change y = (match ran.faultFound (s.ductCfg d).base.stuckLimit with | some k => ran.enter (.fault k) | none => ran) ∨
    (qualifiesAt (thresholdOf s d c) (s.effective d).nq code (s.channel c) &&
      (ran.faultFound (s.ductCfg d).base.stuckLimit).isNone) = true ∧ y = Channel.flashed
        (match ran.faultFound (s.ductCfg d).base.stuckLimit with | some k => ran.enter (.fault k) | none => ran) at hend
  rw [← hfault] at hend
  refine ⟨hfault, fun h => ?_, fun k hk => ?_⟩
  · rw [h] at hend
    rcases hend with rfl | ⟨-, rfl⟩ <;> rfl
  · rw [show fault = some k from hk] at hend
    rcases hend with rfl | ⟨h, -⟩
    · rfl
    · exact absurd h (by simp)

theorem StageFive.others {d st : Fin 4} {codes : Vector Code 4} {s u t : State}
    (htaken : StationTaken d st (stationSamples s d st codes) s u) (hfive : StageFive d (qualifyingSet (stationSamples s d st codes)) u t)
    {o : Fin 16} (ho : o ∉ stationChannels s.cfg d st) : t.channel o = s.channel o := by
  have hkeys : o ∉ (stationSamples s d st codes).map Prod.fst := fun h =>
    ho ((zip_fst_sublist _ _).subset (stationSamples_keys s d st codes ▸ h))
  have hset : o ∉ qualifyingSet (stationSamples s d st codes) := fun h => hkeys ((List.filter_sublist.map Prod.fst).subset h)
  exact ((hfive.channel o).resolve_right fun h => hset h.1).trans (htaken.channel_ne o hkeys)

/-- Settles O39: the channel's own sample, and what stage 5 leaves of it. -/
theorem stationSamplesReachTheirChannels : Obligations.StationSamplesReachTheirChannels := by
  intro d st codes first j c s hup
  refine ⟨fun h => ?_, fun hdue hc => ?_⟩
  · exact (live_up s _ hup).trans (congrArg Host.Outcome.next (sampling_idle (x := .station d st) h _))
  intro x code threshold low recorded
  have hexec : exec (.stationSampleEvent d st codes first) s = .next (stationEvent d st codes first (s.tookSample (.station d st))) :=
    (live_up s _ hup).trans (congrArg Host.Outcome.next (sampling_due (x := .station d st) hdue _))
  have hl := stationSamples_nodup (s.tookSample (.station d st)) d st codes
  obtain ⟨u, htaken, hfive, hdead⟩ := stationEvent_left d st codes first (s.tookSample (.station d st))
  have hwithin := stationEvent_within d st codes first (s.tookSample (.station d st))
  have hmem : (c, channelSample s d c codes[j]) ∈ stationSamples (s.tookSample (.station d st)) d st codes := stationSamples_mem hc
  have hend := sampled_end hl htaken hfive hmem
  have hfaults {k : FaultKind} := fault_end (k := k) htaken hfive hmem
  generalize stationEvent d st codes first (s.tookSample (.station d st)) = t at *
  have hresting (h : x.state ≠ .active) : t.channel c = x.recorded threshold codes[j] := by
    rw [show channelSample s d c codes[j] = _ from channelSample_resting d codes[j] h] at hend
    exact hend.resolve_right fun e => Bool.false_ne_true e.1
  have hactive (h : x.state = .active) := active_end (s := s) (d := d) (c := c) (code := codes[j]) h hend
  have hcounts (h : x.state ≠ .unused) : (t.channel c).ring = recorded.ring ∧ (t.channel c).low = recorded.low ∧
      (t.channel c).clean = recorded.clean := by
    by_cases ha : x.state = .active
    · obtain ⟨-, hnone, hsome⟩ := hactive ha
      cases hf : (channelSample s d c codes[j]).fault with
      | none =>
        rw [hnone hf]
        exact ⟨rfl, rfl, rfl⟩
      | some k =>
        rw [hsome k hf]
        exact ⟨rfl, rfl, rfl⟩
    · rw [hresting ha, Channel.recorded_used h]
      exact ⟨rfl, rfl, rfl⟩
  refine ⟨t, hexec, fun h => ?_, fun h ha => ?_, hcounts, fun ha hlow => ?_, fun ha hreach hs => ?_, fun ha hlow => ?_,
    fun hlimit ha => ?_, fun h => ?_, fun o ho => ?_, hwithin.inputs rfl, hwithin.fixed⟩
  · exact (hresting fun e => nomatch h.symm.trans e).trans (Channel.recorded_unused h)
  · exact (hresting ha).trans (Channel.recorded_used h)
  · have hmiss : ¬threshold ≤ code := Nat.not_le.mpr hlow
    obtain ⟨-, hnone, hsome⟩ := hactive ha
    cases hf : (channelSample s d c codes[j]).fault with
    | none =>
      rw [hnone hf]
      refine ⟨if_neg hmiss, ?_⟩
      show (decide (threshold ≤ code) && _) = false
      rw [decide_eq_false hmiss, Bool.false_and]
    | some k =>
      rw [hsome k hf]
      exact ⟨rfl, rfl⟩
  · obtain ⟨-, hnone, hsome⟩ := hactive ha
    cases hf : (channelSample s d c codes[j]).fault with
    | none =>
      rw [hnone hf]
      exact ⟨if_pos hreach, if_pos hreach⟩
    | some k =>
      rw [hsome k hf] at hs
      exact nomatch hs
  · obtain ⟨hf, -, hsome⟩ := hactive ha
    obtain ⟨k, hk⟩ := faultFound_dead (limit := (s.ductCfg d).base.stuckLimit)
      (x := x.ran threshold (s.effective d).nq codes[j] s.tick) ha hlow
    exact ⟨k, congrArg Channel.state (hsome k (hf.trans hk))⟩
  · obtain ⟨-, hnone, hsome⟩ := hactive ha
    rw [channelSample_fault s d c codes[j] hlimit] at hnone hsome hfaults
    refine ⟨hnone, fun k hk => ⟨hsome k hk, ?_⟩⟩
    have h := hfaults hk
    cases k
    · exact h
    · exact h
  · exact (hdead h _).trans (by rw [htaken.stations, Vector.getElem_set_fin, if_pos rfl]; rfl)
  · exact StageFive.others htaken hfive ho

/-! ### A quiet event (R32) -/

theorem stationSamples_inv {s : State} {d st : Fin 4} {codes : Vector Code 4} {x : Fin 16 × Sampled}
    (h : x ∈ stationSamples s d st codes) :
    ∃ j : Fin 4, (stationChannels s.cfg d st)[j.val]? = some x.1 ∧ x.2 = channelSample s d x.1 codes[j] := by
  rw [stationSamples, List.mem_map] at h
  obtain ⟨⟨c, code⟩, hmem, rfl⟩ := h
  obtain ⟨j, hj⟩ := List.mem_iff_getElem?.mp hmem
  rw [stationCodes, List.getElem?_zip_eq_some] at hj
  have hlt : j < 4 := by
    have := (List.getElem?_eq_some_iff.mp hj.2).1
    simpa using this
  refine ⟨⟨j, hlt⟩, hj.1, ?_⟩
  have : code = codes[j] := by simpa [hlt] using hj.2.symm
  rw [this]
  rfl

theorem faultAfter_quiet {s : State} {d : Fin 4} {c : Fin 16} {code : Code}
    (h : (s.channel c).state = .active → 8 ≤ code.toNat ∧ code.toNat < thresholdOf s d c) : faultAfter s d c code = none := by
  unfold faultAfter
  dsimp only
  by_cases ha : (s.channel c).state = .active
  · obtain ⟨hlow, hhigh⟩ := h ha
    have hzero : lowAfter code (s.channel c) = 0 := if_neg (by omega)
    rw [if_neg (not_not_intro ha), hzero]
    exact (if_neg fun e => absurd e.1 (by omega)).trans (if_neg (by decide))
  · rw [if_pos ha]

theorem qualifiesNow_quiet {s : State} {d : Fin 4} {c : Fin 16} {code : Code}
    (h : (s.channel c).state = .active → 8 ≤ code.toNat ∧ code.toNat < thresholdOf s d c) : qualifiesNow s d c code = false := by
  unfold qualifiesNow reachesNow
  by_cases ha : (s.channel c).state = .active
  · rw [decide_eq_false (Nat.not_le.mpr (h ha).2), Bool.and_false, Bool.false_and, Bool.false_and, Bool.false_and]
  · rw [decide_eq_false ha, Bool.false_and, Bool.false_and, Bool.false_and, Bool.false_and]

theorem takeSampled_quiet {d : Fin 4} {l : List (Fin 16 × Sampled)} (h : anyFault l = false) (s : State) :
    l.foldl (takeSampled d) s = { s with channels := (l.foldl (takeSampled d) s).channels } := by
  induction l generalizing s with
  | nil => rfl
  | cons x rest ih =>
    rw [anyFault, List.any_cons, Bool.or_eq_false_iff] at h
    have hone : takeSampled d s x = s.setChannel x.1 x.2.channel := by
      unfold takeSampled
      cases hx : x.2.fault with
      | none => rfl
      | some k => exact absurd h.1 (by rw [hx]; nofun)
    rw [List.foldl_cons, hone]
    exact ih h.2 _

/-- Channels' samples and the count of the dead time alone. -/
def quietTaken (d st : Fin 4) (v : Vector Channel 16) (s : State) : State :=
  { s with channels := v, stations := s.stations.set (stationIx d st) { s.station d st with dead := (s.station d st).dead - 1 } }

/-- A quiet event is its channels' samples, the count of the dead time, and the Capture Store's samples. -/
theorem stationEvent_quiet {d st : Fin 4} {codes : Vector Code 4} {first : Bool} {s : State} (hlimit : 0 < (s.ductCfg d).base.stuckLimit)
    (h : ∀ j : Fin 4, ∀ c ∈ (stationChannels s.cfg d st)[j.val]?, (s.channel c).state = .active →
      8 ≤ codes[j].toNat ∧ codes[j].toNat < thresholdOf s d c) :
    ∃ v words, stationEvent d st codes first s = captureSamples d st words (quietTaken d st v s) := by
  have hcalm : ∀ x ∈ stationSamples s d st codes, x.2.fault = none ∧ x.2.qualified = false := fun x hx => by
    obtain ⟨j, hj, hr⟩ := stationSamples_inv hx
    rw [hr, channelSample_fault s d x.1 codes[j] hlimit, channelSample_qualified s d x.1 codes[j] hlimit]
    exact ⟨faultAfter_quiet (h j x.1 hj), qualifiesNow_quiet (h j x.1 hj)⟩
  have hfault : anyFault (stationSamples s d st codes) = false := by
    rw [anyFault, List.any_eq_false]
    intro x hx
    rw [(hcalm x hx).1]
    exact Bool.false_ne_true
  have hset : qualifyingSet (stationSamples s d st codes) = [] := by
    rw [qualifyingSet, List.map_eq_nil_iff, List.filter_eq_nil_iff]
    intro x hx
    rw [(hcalm x hx).2]
    exact Bool.false_ne_true
  have hjudge (dead : Nat) (u : State) : judgeStation d st dead (stationSamples s d st codes) u = u := by
    unfold judgeStation
    rw [hset]
    exact if_pos rfl
  have htaken : stationTaken d st (stationSamples s d st codes) s = _ := if_neg (by
    rw [show ((stationSamples s d st codes).any fun x => x.2.fault.isSome) = false from hfault]
    exact Bool.false_ne_true)
  rw [takeSampled_quiet hfault] at htaken
  refine ⟨((stationSamples s d st codes).foldl (takeSampled d) (passDeadTime d st s)).channels, (stationCodes s d st codes).map Prod.snd, ?_⟩
  rw [stationEvent_eq]
  dsimp only
  rw [hjudge, hjudge, ite_self, htaken]
  rfl

/-- A block's present value in its place changes nothing, also where the layout has no such place. -/
theorem Captures.set_own (c : Captures) (b : Nat) : c.blocks.set b (c.block b) = c.blocks := by
  by_cases h : b < c.blocks.length
  · rw [Captures.block, List.getElem?_eq_getElem h]
    exact List.set_getElem_self h
  · exact List.set_eq_of_length_le (Nat.not_lt.mp h)

theorem Captures.set_new (c k : Captures) (b : Nat) (x : Block) (hk : k.blocks = c.blocks.set b x) :
    c.blocks.set b (k.block b) = k.blocks := by
  have h := k.set_own b
  rw [hk, List.set_set] at h
  rw [h, hk]

/-- What the Capture Store's samples leave, in full. -/
theorem captureSamples_left (d st : Fin 4) (words : List Code) (s : State) :
    let c := s.captures
    let t := captureSamples d st words s
    (c.fillingOf d st = none → t = s) ∧
      t = { s with captures := t.captures, ports := t.ports,
                   stations := s.stations.set (stationIx d st) ⟨(s.station d st).dead, (t.station d st).inFlight⟩ } ∧
      (∀ b ∈ c.fillingOf d st,
        t.captures = { c with
          blocks := c.blocks.set b (t.captures.block b), stored := t.captures.stored,
          filling := c.filling.set (stationIx d st) (t.captures.fillingOf d st) } ∧
        ((t.captures.stored = c.stored ∧ t.captures.fillingOf d st = some b) ∨
          (t.captures.stored = c.stored ++ [b] ∧ t.captures.fillingOf d st = none))) ∧
      OffersAll (if t.captures.stored ≠ c.stored ∧ c.stored.length + 1 = min s.cfg.readyThreshold (blockCount c.layout) then
        [captureNotice 0 c t.captures] else []) s t := by
  intro c t
  have hkeep : s.stations.set (stationIx d st) ⟨(s.station d st).dead, (s.station d st).inFlight⟩ = s.stations :=
    Vector.set_getElem_self _
  have hfilling : c.filling.set (stationIx d st) (c.fillingOf d st) = c.filling := Vector.set_getElem_self _
  obtain h | ⟨b, hb, r, n, hblock, h | h⟩ := captureSamples_cases d st words s
  · rw [show t = s from h]
    refine ⟨fun _ => rfl, ?_, fun b hb => ⟨?_, .inl ⟨rfl, hb⟩⟩, ?_⟩
    · rw [hkeep]
    · rw [Captures.set_own, hfilling]
    · rw [if_neg fun e => e.1 rfl]
      exact (Told.refl s).offersAll
  · rw [show t = _ from h]
    refine ⟨fun e => (nomatch e.symm.trans hb), ?_, fun a ha => ?_, ?_⟩
    · show _ = { s with captures := _, ports := _, stations := s.stations.set (stationIx d st) ⟨_, (s.station d st).inFlight⟩ }
      rw [hkeep]
      rfl
    · obtain rfl : b = a := Option.some.inj (hb.symm.trans ha)
      refine ⟨?_, .inl ⟨rfl, hb⟩⟩
      rw [Captures.set_new c (s.setCaptures (s.captures.filled b (r.taking words) (n - 1))).captures b
        (.filling (r.taking words) (n - 1)) rfl]
      show _ = { c with blocks := _, stored := _, filling := c.filling.set (stationIx d st) (c.fillingOf d st) }
      rw [hfilling]
      rfl
    · rw [if_neg fun e => e.1 rfl]
      exact (Told.of_ports rfl).offersAll
  · have hleft := completeCapture_left d st b (r.taking words) s
    rw [← h] at hleft
    change CaptureCompleted d st b (r.taking words) s t at hleft
    refine ⟨fun e => (nomatch e.symm.trans hb), ?_, fun a ha => ?_, ?_⟩
    · have hmark : (t.station d st).inFlight = false := by
        rw [State.station, hleft.stations]
        exact congrArg Station.inFlight (Vector.getElem_set_self _)
      rw [hmark, ← hleft.stations]
      exact hleft.rest
    · obtain rfl : b = a := Option.some.inj (hb.symm.trans ha)
      have hnone : t.captures.fillingOf d st = none := by
        rw [hleft.captures]
        exact Vector.getElem_set_self _
      refine ⟨?_, .inr ⟨by rw [hleft.captures]; rfl, hnone⟩⟩
      rw [hnone, Captures.set_new c t.captures b (.stored (r.taking words)) (by rw [hleft.captures]; rfl), hleft.captures]
      rfl
    · have hne : t.captures.stored ≠ c.stored := by
        rw [hleft.captures]
        exact fun e => absurd (congrArg List.length e) (by simp [Captures.completed, c])
      rw [if_congr (and_iff_right hne) rfl rfl]
      exact hleft.told.offersAll

/-- Settles O40: the Capture Store's samples are what comes of a quiet event beside its channels. -/
theorem quietSamplesChangeOnlyTheStation : Obligations.QuietSamplesChangeOnlyTheStation := by
  intro d st codes first s hup hdue hlimit hquiet c
  have hexec : exec (.stationSampleEvent d st codes first) s = .next (stationEvent d st codes first (s.tookSample (.station d st))) :=
    (live_up s _ hup).trans (congrArg Host.Outcome.next (sampling_due (x := .station d st) hdue _))
  obtain ⟨u, htaken, hfive, -⟩ := stationEvent_left d st codes first (s.tookSample (.station d st))
  obtain ⟨v, words, ht⟩ := stationEvent_quiet (first := first) (s := s.tookSample (.station d st)) hlimit hquiet
  have hothers (o : Fin 16) (ho : o ∉ stationChannels s.cfg d st) := StageFive.others htaken hfive ho
  have hlinks := (stationEvent_within d st codes first (s.tookSample (.station d st))).links
  refine ⟨_, hexec, hothers, ?_⟩
  rw [ht] at hlinks ⊢
  obtain ⟨hnone, hrest, hfilling, htold⟩ := captureSamples_left d st words (quietTaken d st v (s.tookSample (.station d st)))
  generalize captureSamples d st words (quietTaken d st v (s.tookSample (.station d st))) = t at *
  refine ⟨fun h => ?_, ?_, hfilling, hlinks, htold⟩
  · rw [hnone h]
    rfl
  · have hstation : (quietTaken d st v (s.tookSample (.station d st))).station d st =
        ⟨(s.station d st).dead - 1, (s.station d st).inFlight⟩ := Vector.getElem_set_self _
    have hset (x : Station) : (quietTaken d st v (s.tookSample (.station d st))).stations.set (stationIx d st) x =
        s.stations.set (stationIx d st) x := Vector.set_set _ (stationIx d st).isLt
    rw [hstation, hset] at hrest
    have hchannels : t.channels = v := by rw [hrest]; rfl
    rw [hchannels]
    exact hrest

end Sys2Proof.Machine
end

