-- ==== Sys2Proof/Proofs/ImageChecks.lean ====
section
/-! PROOFS. The configuration image (R184, R192): the loader's checks as the statements spell them, and the values that it reads. -/

namespace Sys2Proof.Machine

open Sys2Proof

/-! ### Ranges (R184, check 5) -/

theorem all_range_iff (n : Nat) (f : Nat → Bool) : (List.range n).all f = true ↔ ∀ i : Fin n, f i.val = true := by
  simp only [List.all_eq_true, List.mem_range, Fin.forall_iff]

theorem inRange_iff (lo hi n : Nat) : inRange lo hi n = true ↔ lo ≤ n ∧ n ≤ hi := by
  rw [inRange, Bool.and_eq_true, decide_eq_true_iff, decide_eq_true_iff]

theorem valveInRange_iff (m : List Host.Cell) (o : Nat) :
    valveInRange (imageOf m) o = true ↔ imageByte m o ≤ 1 ∧ imageWord m (o + 1) ≤ 20000 ∧ imageWord m (o + 3) ≤ 1000 ∧
      100 ≤ imageWord m (o + 5) ∧ imageWord m (o + 5) ≤ 10000 ∧ 100 ≤ imageWord m (o + 7) ∧ imageWord m (o + 7) ≤ 2000 := by
  simp only [valveInRange, flagInRange, Bool.and_eq_true, inRange_iff, Nat.zero_le, true_and, and_assoc]
  exact .rfl

theorem pairInRange_iff (n : Nat) : pairInRange n = true ↔ 1 ≤ n / 16 ∧ n / 16 ≤ 4 ∧ n % 16 ≤ 3 := by
  simp only [pairInRange, Bool.and_eq_true, inRange_iff, Nat.zero_le, true_and, and_assoc]

/-- The fields of the Velocity Unit in range (R42). -/
def AirInRange (m : List Host.Cell) (o : Nat) : Prop :=
  100 ≤ imageWord m o ∧ imageWord m o ≤ 600 ∧ imageWord m (o + 2) ≤ 50 ∧ 50 ≤ imageWord m (o + 4) ∧ imageWord m (o + 4) ≤ 300

/-- The fields of the Quench Unit in range (R74). -/
def WaterInRange (m : List Host.Cell) (o : Nat) : Prop :=
  valveInRange (imageOf m) o = true ∧ valveInRange (imageOf m) (o + 9) = true ∧ imageByte m (o + 18) ≤ 1 ∧
    imageWord m (o + 19) ≤ 20000 ∧ 100 ≤ imageWord m (o + 21) ∧ imageWord m (o + 21) ≤ 5000 ∧ 1 ≤ imageWord m (o + 23) ∧
    imageWord m (o + 23) ≤ 60

/-- The fields of the Duct Controller in range (R91). -/
def CtlInRange (m : List Host.Cell) (o : Nat) : Prop :=
  5 ≤ imageWord m (o + 2) ∧ imageWord m (o + 2) ≤ 120 ∧ imageWord m (o + 4) ≤ 120 ∧ 1 ≤ imageWord m (o + 6) ∧
    imageWord m (o + 6) ≤ 30 ∧ 5 ≤ imageWord m (o + 8) ∧ imageWord m (o + 8) ≤ 600

/-- The base parameter set in range (R114). -/
def BaseInRange (m : List Host.Cell) (o : Nat) : Prop :=
  1 ≤ imageByte m o ∧ imageByte m o ≤ 16 ∧ imageByte m (o + 1) ≤ 3 ∧ 1 ≤ imageWord m (o + 3) ∧ imageWord m (o + 3) ≤ 10 ∧
    1 ≤ imageWord m (o + 8) ∧ imageWord m (o + 8) ≤ 60

theorem ductInRange_iff (m : List Host.Cell) (d : Nat) :
    ductInRange (imageOf m) d = true ↔ AirInRange m (132 + 6 * d) ∧ WaterInRange m (157 + 25 * d) ∧
      imageWord m (258 + 2 * d) ≤ 100 ∧ CtlInRange m (267 + 10 * d) ∧ BaseInRange m (308 + 10 * d) := by
  simp only [ductInRange, flagInRange, Bool.and_eq_true, inRange_iff, Nat.zero_le, true_and, and_assoc, AirInRange, WaterInRange,
    CtlInRange, BaseInRange]
  exact .rfl

theorem fieldsInRange_iff (m : List Host.Cell) : fieldsInRange (imageOf m) = true ↔ ValuesInRange m := by
  have hkinds : (List.range 12).all (kindInRange (imageOf m)) = true ↔
      ∀ i : Fin 12, 1 ≤ imageByte m (4 + i.val) ∧ imageByte m (4 + i.val) ≤ 5 := by
    simp only [all_range_iff, kindInRange, inRange_iff]
    exact .rfl
  have hinputs : (List.range 8).all (inputInRange (imageOf m)) = true ↔ ∀ i : Fin 8, let o := 17 + 4 * i.val
      (imageByte m o ≤ 15 ∨ imageByte m o = 255) ∧ 1 ≤ imageByte m (o + 1) ∧ imageByte m (o + 1) ≤ 3 ∧ 50 ≤ imageWord m (o + 2) ∧
        imageWord m (o + 2) ≤ 2000 := by
    simp only [all_range_iff, inputInRange, Bool.and_eq_true, Bool.or_eq_true, decide_eq_true_iff, inRange_iff, Nat.zero_le, true_and, and_assoc]
    exact .rfl
  have hchannels : (List.range 16).all (channelInRange (imageOf m)) = true ↔ ∀ i : Fin 16, let o := 50 + 3 * i.val
      ((1 ≤ imageByte m o / 16 ∧ imageByte m o / 16 ≤ 4 ∧ imageByte m o % 16 ≤ 3) ∨ imageByte m o = 255) ∧
        1 ≤ imageWord m (o + 1) ∧ imageWord m (o + 1) ≤ 4095 := by
    simp only [all_range_iff, channelInRange, pairInRange_iff, Bool.and_eq_true, Bool.or_eq_true, decide_eq_true_iff, inRange_iff]
    exact .rfl
  have hpositions : (List.range 16).all (positionInRange (imageOf m)) = true ↔
      ∀ i : Fin 16, imageWord m (99 + 2 * i.val) ≤ 20000 ∨ imageWord m (99 + 2 * i.val) = 65535 := by
    simp only [all_range_iff, positionInRange, Bool.or_eq_true, decide_eq_true_iff, inRange_iff, Nat.zero_le, true_and]
    exact .rfl
  have hdoors : (List.range 12).all (doorInRange (imageOf m)) = true ↔ ∀ i : Fin 12, let o := 349 + 9 * i.val
      imageWord m o ≠ 0 ∧ imageByte m (o + 2) ≤ 1 ∧ imageWord m (o + 3) ≤ 30 ∧ 5 ≤ imageWord m (o + 5) ∧ imageWord m (o + 5) ≤ 60 ∧
        10 ≤ imageWord m (o + 7) ∧ imageWord m (o + 7) ≤ 600 := by
    simp only [all_range_iff, doorInRange, flagInRange, Bool.and_eq_true, decide_eq_true_iff, inRange_iff, Nat.zero_le, true_and, and_assoc]
    exact .rfl
  have hsirens : (List.range 8).all (fun i => inRange 1 4 (sirenWeight (imageOf m) i)) = true ↔
      ∀ i : Fin 8, 1 ≤ imageByte m (466 + 3 * i.val) ∧ imageByte m (466 + 3 * i.val) ≤ 4 := by
    simp only [all_range_iff, inRange_iff, sirenWeight, sectionAt, Nat.add_right_comm 464]
    exact .rfl
  have hports : (List.range 3).all (portInRange (imageOf m)) = true ↔ ∀ i : Fin 3, let o := 495 + 4 * i.val
      1 ≤ imageByte m (o + 1) ∧ imageByte m (o + 1) ≤ 32 ∧ 10 ≤ imageWord m (o + 2) ∧ imageWord m (o + 2) ≤ 5000 := by
    simp only [all_range_iff, portInRange, Bool.and_eq_true, inRange_iff, and_assoc]
    exact .rfl
  have harbiter : arbiterInRange (imageOf m) = true ↔ 1 ≤ imageByte m 458 ∧ imageByte m 458 ≤ 16 ∧ 1 ≤ imageWord m 459 ∧
      imageWord m 459 ≤ 10 ∧ 5 ≤ imageWord m 461 ∧ imageWord m 461 ≤ 60 := by
    simp only [arbiterInRange, Bool.and_eq_true, inRange_iff, and_assoc]
    exact .rfl
  have hcapture : captureInRange (imageOf m) = true ↔ imageByte m 489 ≤ 2 ∧ imageByte m 490 ≤ 64 ∧ 1 ≤ imageWord m 491 ∧
      imageWord m 491 ≤ 448 ∧ 1 ≤ imageByte m 493 ∧ imageByte m 493 ≤ 64 := by
    simp only [captureInRange, Bool.and_eq_true, inRange_iff, Nat.zero_le, true_and, and_assoc]
    exact .rfl
  have hducts : (List.range 4).all (ductInRange (imageOf m)) = true ↔
      (∀ d : Fin 4, AirInRange m (132 + 6 * d.val)) ∧ (∀ d : Fin 4, WaterInRange m (157 + 25 * d.val)) ∧
        (∀ d : Fin 4, imageWord m (258 + 2 * d.val) ≤ 100) ∧ (∀ d : Fin 4, CtlInRange m (267 + 10 * d.val)) ∧
        ∀ d : Fin 4, BaseInRange m (308 + 10 * d.val) := by
    simp only [all_range_iff, ductInRange_iff, forall_and]
  unfold fieldsInRange
  rw [Bool.and_eq_true, Bool.and_eq_true, Bool.and_eq_true, Bool.and_eq_true, Bool.and_eq_true, Bool.and_eq_true, Bool.and_eq_true,
    Bool.and_eq_true, Bool.and_eq_true, hkinds, hinputs, hchannels, hpositions, hducts, hdoors, hsirens, hports, harbiter, hcapture]
  have hwater (d : Fin 4) : WaterInRange m (157 + 25 * d.val) ↔ _ :=
    and_congr (valveInRange_iff m (157 + 25 * d.val)) (and_congr (valveInRange_iff m (157 + 25 * d.val + 9)) .rfl)
  rw [forall_congr' hwater]
  unfold ValuesInRange
  constructor
  · rintro ⟨⟨⟨⟨⟨⟨⟨⟨⟨h1, h2⟩, h3⟩, h4⟩, h5, h6, h7, h8, h9⟩, h10⟩, h11⟩, h12⟩, h13⟩, h14⟩
    exact ⟨h1, h2, h3, h4, h5, h6, h7, h8, h9, h10, h11, h12, h13, h14⟩
  · rintro ⟨h1, h2, h3, h4, h5, h6, h7, h8, h9, h10, h11, h12, h13, h14⟩
    exact ⟨⟨⟨⟨⟨⟨⟨⟨⟨h1, h2⟩, h3⟩, h4⟩, h5, h6, h7, h8, h9⟩, h10⟩, h11⟩, h12⟩, h13⟩, h14⟩

/-! ### The other checks (R184) -/

theorem crcCheck_iff (m : List Host.Cell) : crc16 (readBytes m 0 1022) ≠ imageCrcField m ↔ CheckFails m .crc := by
  simp only [readBytes, Nat.zero_add]
  exact .rfl

theorem sectionsCheck_iff (m : List Host.Cell) :
    (!sectionCounts.all fun x => decide (imageOf m x.1 = x.2)) = true ↔ CheckFails m .sections := by
  rw [Bool.not_eq_true', ← Bool.not_eq_true]
  refine not_congr ?_
  simp only [sectionCounts, List.all_cons, List.all_nil, Bool.and_eq_true, decide_eq_true_iff, Bool.and_true]
  exact .rfl

theorem fieldsCheck_iff (m : List Host.Cell) : (!fieldsInRange (imageOf m)) = true ↔ CheckFails m .fieldRange := by
  rw [Bool.not_eq_true', ← Bool.not_eq_true]
  exact not_congr (fieldsInRange_iff m)

theorem lowZones_iff (n : Nat) : BitVec.ofNat 16 n &&& 0x000F = 0 ↔ n % 16 = 0 := by
  rw [← BitVec.toNat_inj]
  have h : (BitVec.ofNat 16 n &&& 0x000F).toNat = n % 16 := by
    rw [BitVec.toNat_and, BitVec.toNat_ofNat]
    exact (Nat.and_two_pow_sub_one_eq_mod _ 4).trans (Nat.mod_mod_of_dvd n (by decide))
  rw [h]
  exact .rfl

theorem servedCheck_iff (m : List Host.Cell) : (!(List.range 4).all (maskServes (imageOf m))) = true ↔ CheckFails m .servedMask := by
  rw [Bool.not_eq_true', ← Bool.not_eq_true, all_range_iff, not_forall]
  refine exists_congr fun d => not_congr ?_
  rw [maskServes, decide_eq_true_iff]
  exact lowZones_iff _

theorem weightCheck_iff (m : List Host.Cell) :
    (!(List.range 8).all fun i => decide (sirenWeight (imageOf m) i ≤ imageOf m 458)) = true ↔ CheckFails m .sirenWeight := by
  rw [Bool.not_eq_true', ← Bool.not_eq_true, all_range_iff, not_forall]
  refine exists_congr fun i => ?_
  rw [decide_eq_true_iff, Nat.not_le, sirenWeight, sectionAt, Nat.add_right_comm]
  exact .rfl

theorem fitCheck_iff (m : List Host.Cell) (h : imageByte m 489 ≤ 2) :
    blockSize (imageLayout (imageOf m)) < imageOf m 490 + (imageOf m).word 491 ↔ CheckFails m .captureFit := by
  have hsize : blockSize (imageLayout (imageOf m)) = if imageByte m 489 = 0 then 512 else if imageByte m 489 = 1 then 256 else 128 := by
    have hn : (imageLayout (imageOf m)).val = imageByte m 489 := Nat.mod_eq_of_lt (show imageOf m 489 < 3 from Nat.lt_succ_of_le h)
    rw [← hn]
    generalize imageLayout (imageOf m) = l
    revert l
    decide
  rw [hsize]
  exact .rfl

/-! ### The stations of an image (R21, R184) -/

theorem readImage_channel (img : Image) (c : Fin 16) : (readImage img).channels[c] = readChannel img c.val := by
  simp [readImage]

theorem readImage_position (img : Image) (i : Fin 16) : (readImage img).positions[i] = readPosition img i.val := by
  simp [readImage]

/-- A channel of the image is assigned by its duct-and-station byte. -/
theorem assignedTo_image {m : List Host.Cell} (h : ValuesInRange m) (d st : Fin 4) (c : Fin 16) :
    assignedTo (readImage (imageOf m)) d st c = decide (imageByte m (50 + 3 * c.val) = 16 * (d.val + 1) + st.val) := by
  obtain ⟨-, -, hchannels, -⟩ := h
  obtain ⟨hpair, -⟩ := hchannels c
  have hread : (readImage (imageOf m)).channels[c] = if imageByte m (50 + 3 * c.val) = 255 then none
      else some ⟨⟨(imageByte m (50 + 3 * c.val) / 16 - 1) % 4, Nat.mod_lt _ (by decide)⟩,
        ⟨imageByte m (50 + 3 * c.val) % 4, Nat.mod_lt _ (by decide)⟩, imageWord m (50 + 3 * c.val + 1)⟩ := readImage_channel _ c
  unfold assignedTo
  rw [hread]
  generalize imageByte m (50 + 3 * c.val) = b at hpair
  by_cases hb : b = 255
  · rw [if_pos hb]
    exact (decide_eq_false (by omega)).symm
  · rw [if_neg hb, Bool.eq_iff_iff]
    simp only [Bool.and_eq_true, decide_eq_true_eq, Fin.ext_iff]
    omega

/-- The channels that the image assigns to a station. -/
def imageStation (m : List Host.Cell) (d st : Fin 4) : List (Fin 16) :=
  (List.finRange 16).filter fun c => decide (imageByte m (50 + 3 * c.val) = 16 * (d.val + 1) + st.val)

theorem stationChannels_image {m : List Host.Cell} (h : ValuesInRange m) (d st : Fin 4) :
    stationChannels (readImage (imageOf m)) d st = imageStation m d st :=
  List.filter_congr fun c _ => assignedTo_image h d st c

theorem stationSound_image {m : List Host.Cell} (h : ValuesInRange m) (d st : Fin 4) :
    stationSound (readImage (imageOf m)) d st = true ↔
      ¬(4 < (imageStation m d st).length ∨ imageStation m d st ≠ [] ∧ imageWord m (99 + 2 * (4 * d.val + st.val)) = 65535) := by
  have hposition : ((readImage (imageOf m)).positions[stationIx d st]).isSome = true ↔
      imageWord m (99 + 2 * (4 * d.val + st.val)) ≠ 65535 := by
    rw [readImage_position]
    show (if imageWord m (99 + 2 * (4 * d.val + st.val)) = 65535 then none else some _).isSome = true ↔ _
    split
    · exact iff_of_false nofun (not_not_intro ‹_›)
    · exact iff_of_true rfl ‹_›
  rw [stationSound, stationChannels_image h]
  rw [Bool.and_eq_true, Bool.or_eq_true, decide_eq_true_iff, hposition, List.isEmpty_iff, not_or, not_and, Nat.not_lt]
  exact and_congr_right fun _ => or_iff_not_imp_left

theorem stationCheck_iff (m : List Host.Cell) (h : ValuesInRange m) :
    (!stationsSound (readImage (imageOf m))) = true ↔ CheckFails m .channelStation := by
  rw [Bool.not_eq_true', ← Bool.not_eq_true]
  simp only [stationsSound, List.all_eq_true, List.mem_finRange, true_imp_iff, stationSound_image h, not_forall, not_not]
  exact .rfl

/-! ### The verdict (R184) -/

/-- One check of two spellings, before two spellings of the checks after it. -/
theorem check_congr {α : Type} {P Q : Prop} [Decidable P] [Decidable Q] {a x y : α} (h : P ↔ Q) (hnext : ¬Q → x = y) :
    (if P then a else x) = if Q then a else y := by
  by_cases hq : Q
  · rw [if_pos (h.mpr hq), if_pos hq]
  · rw [if_neg (mt h.mp hq), if_neg hq, hnext hq]

open Classical in
/-- The loader's verdict, check by check; the checks of a later place may take the values in range for granted. -/
theorem judgeImage_eq (m : List Host.Cell) : judgeImage m =
    if CheckFails m .crc then some .crc else if CheckFails m .magic then some .magic else if CheckFails m .version then some .version
    else if CheckFails m .sections then some .sections else if CheckFails m .fieldRange then some .fieldRange
    else if CheckFails m .servedMask then some .servedMask else if CheckFails m .channelStation then some .channelStation
    else if CheckFails m .sirenWeight then some .sirenWeight else if CheckFails m .captureFit then some .captureFit else none := by
  unfold judgeImage
  refine check_congr (crcCheck_iff m) fun _ => ?_
  refine check_congr .rfl fun _ => ?_
  refine check_congr .rfl fun _ => ?_
  refine check_congr (sectionsCheck_iff m) fun _ => ?_
  refine check_congr (fieldsCheck_iff m) fun hvalues => ?_
  have hvalues : ValuesInRange m := not_not.mp hvalues
  have hlayout : imageByte m 489 ≤ 2 := by
    obtain ⟨-, -, -, -, -, -, -, -, -, -, -, -, ⟨h, -⟩, -⟩ := hvalues
    exact h
  refine check_congr (servedCheck_iff m) fun _ => ?_
  refine check_congr (stationCheck_iff m hvalues) fun _ => ?_
  refine check_congr (weightCheck_iff m) fun _ => ?_
  exact check_congr (fitCheck_iff m hlayout) fun _ => rfl

theorem judgeImage_failing {m : List Host.Cell} {code : CheckCode} (h : FirstFailing m code) : judgeImage m = some code := by
  obtain ⟨hfails, hbefore⟩ := h
  rw [judgeImage_eq]
  cases code with
  | crc => rw [if_pos hfails]
  | magic => rw [if_neg (hbefore .crc (by decide)), if_pos hfails]
  | version => rw [if_neg (hbefore .crc (by decide)), if_neg (hbefore .magic (by decide)), if_pos hfails]
  | sections =>
    rw [if_neg (hbefore .crc (by decide)), if_neg (hbefore .magic (by decide)), if_neg (hbefore .version (by decide)), if_pos hfails]
  | fieldRange =>
    rw [if_neg (hbefore .crc (by decide)), if_neg (hbefore .magic (by decide)), if_neg (hbefore .version (by decide)),
      if_neg (hbefore .sections (by decide)), if_pos hfails]
  | servedMask =>
    rw [if_neg (hbefore .crc (by decide)), if_neg (hbefore .magic (by decide)), if_neg (hbefore .version (by decide)),
      if_neg (hbefore .sections (by decide)), if_neg (hbefore .fieldRange (by decide)), if_pos hfails]
  | channelStation =>
    rw [if_neg (hbefore .crc (by decide)), if_neg (hbefore .magic (by decide)), if_neg (hbefore .version (by decide)),
      if_neg (hbefore .sections (by decide)), if_neg (hbefore .fieldRange (by decide)), if_neg (hbefore .servedMask (by decide)),
      if_pos hfails]
  | sirenWeight =>
    rw [if_neg (hbefore .crc (by decide)), if_neg (hbefore .magic (by decide)), if_neg (hbefore .version (by decide)),
      if_neg (hbefore .sections (by decide)), if_neg (hbefore .fieldRange (by decide)), if_neg (hbefore .servedMask (by decide)),
      if_neg (hbefore .channelStation (by decide)), if_pos hfails]
  | captureFit =>
    rw [if_neg (hbefore .crc (by decide)), if_neg (hbefore .magic (by decide)), if_neg (hbefore .version (by decide)),
      if_neg (hbefore .sections (by decide)), if_neg (hbefore .fieldRange (by decide)), if_neg (hbefore .servedMask (by decide)),
      if_neg (hbefore .channelStation (by decide)), if_neg (hbefore .sirenWeight (by decide)), if_pos hfails]

theorem judgeImage_passing {m : List Host.Cell} (h : ∀ c, ¬CheckFails m c) : judgeImage m = none := by
  rw [judgeImage_eq]
  simp only [h, if_false]

/-! ### The values read (R192) -/

theorem imageMask_eq (m : List Host.Cell) (o : Nat) : BitVec.ofNat 16 (imageWord m o) = readCell m (o + 1) ++ readCell m o := by
  apply BitVec.eq_of_toNat_eq
  have h0 := (readCell m o).isLt
  have h1 := (readCell m (o + 1)).isLt
  rw [BitVec.toNat_ofNat, BitVec.toNat_append, imageWord, imageByte, imageByte, ← Nat.shiftLeft_add_eq_or_of_lt h0, Nat.shiftLeft_eq]
  omega

theorem kindOfNat_num {n : Nat} (h : n ≤ 5) : (kindOfNat n).num = n := by
  interval_cases n <;> rfl

theorem levelOfNat_num {n : Nat} (h : n ≤ 3) : ((levelOfNat n).getD .normal).num = n := by
  interval_cases n <;> rfl

theorem readInput_zone (m : List Host.Cell) (i : Nat) (h : imageByte m (17 + 4 * i) ≤ 15 ∨ imageByte m (17 + 4 * i) = 255) :
    (readInput (imageOf m) i).zone.map Fin.val = if imageByte m (17 + 4 * i) = 255 then none else some (imageByte m (17 + 4 * i)) := by
  show (if h : imageByte m (17 + 4 * i) < 16 then some (⟨_, h⟩ : Fin 16) else none).map Fin.val = _
  generalize imageByte m (17 + 4 * i) = b at h
  rcases h with h | h
  · rw [dif_pos (by omega), if_neg (by omega)]
    rfl
  · rw [dif_neg (by omega), if_pos h]
    rfl

theorem readChannel_place (m : List Host.Cell) (i : Nat) (h : (1 ≤ imageByte m (50 + 3 * i) / 16 ∧ imageByte m (50 + 3 * i) / 16 ≤ 4 ∧
    imageByte m (50 + 3 * i) % 16 ≤ 3) ∨ imageByte m (50 + 3 * i) = 255) :
    (readChannel (imageOf m) i = none ↔ imageByte m (50 + 3 * i) = 255) ∧ ∀ x ∈ readChannel (imageOf m) i,
      imageByte m (50 + 3 * i) = 16 * (x.duct.val + 1) + x.station.val ∧ x.threshold = imageWord m (50 + 3 * i + 1) := by
  have hread : readChannel (imageOf m) i = if imageByte m (50 + 3 * i) = 255 then none
      else some ⟨⟨(imageByte m (50 + 3 * i) / 16 - 1) % 4, Nat.mod_lt _ (by decide)⟩,
        ⟨imageByte m (50 + 3 * i) % 4, Nat.mod_lt _ (by decide)⟩, imageWord m (50 + 3 * i + 1)⟩ := rfl
  rw [hread]
  generalize imageByte m (50 + 3 * i) = b at h
  by_cases hb : b = 255
  · rw [if_pos hb]
    exact ⟨iff_of_true rfl hb, nofun⟩
  · rw [if_neg hb]
    refine ⟨iff_of_false nofun hb, fun x hx => ?_⟩
    cases Option.some.inj hx
    refine ⟨?_, rfl⟩
    dsimp only
    omega

theorem readDuctCfg_eq (m : List Host.Cell) (d : Nat) :
    let b := imageByte m
    let w := imageWord m
    let flag := fun o : Nat => decide (b o = 1)
    let valve := fun o : Nat => (⟨flag o, w (o + 1), w (o + 3), w (o + 5), w (o + 7)⟩ : ValveCfg)
    let v := 132 + 6 * d
    let q := 157 + 25 * d
    let c := 267 + 10 * d
    let p := 308 + 10 * d
    readDuctCfg (imageOf m) d = {
      span := w v, tol := w (v + 2), lmin := w (v + 4), valves := #v[valve q, valve (q + 9)],
      gate := ⟨flag (q + 18), w (q + 19), w (q + 21)⟩, floodTime := w (q + 23), margin := w (258 + 2 * d),
      served := readCell m (c + 1) ++ readCell m c, startTime := w (c + 2), purgeTime := w (c + 4), lowFlowGrace := w (c + 6),
      quietTime := w (c + 8), base := ⟨⟨0, b p, b (p + 5), b (p + 6), b (p + 7), w (p + 8)⟩, b (p + 1), b (p + 2), w (p + 3)⟩ } := by
  intro b w flag valve v q c p
  rw [← imageMask_eq]
  have hvalves : (Vector.ofFn fun i : Fin 2 => readValve (imageOf m) (q + 9 * i.val)) = #v[valve q, valve (q + 9)] := rfl
  rw [← hvalves]
  rfl

theorem readImage_configRead {m : List Host.Cell} (h : ValuesInRange m) : ConfigRead m (readImage (imageOf m)) := by
  obtain ⟨hkinds, hinputs, hchannels, -, -, -, -, -, -, -, -, -, ⟨hlayout, -⟩, -⟩ := h
  have hget {α : Type} {n : Nat} (f : Fin n → α) (i : Fin n) : (Vector.ofFn f)[i] = f i := by simp
  refine ⟨fun i => ?_, fun i => ?_, fun i => ?_, fun i => ?_, fun d => ?_, fun i => ?_, rfl, rfl, rfl, fun i => ?_, ?_, rfl, rfl, rfl,
    fun i => ?_⟩
  · rw [readImage, hget]
    exact kindOfNat_num (hkinds i).2
  · rw [readImage, hget]
    obtain ⟨hzone, -, hlevel, -⟩ := hinputs i
    exact ⟨readInput_zone m i.val hzone, levelOfNat_num hlevel, rfl⟩
  · rw [readImage, hget]
    exact readChannel_place m i.val (hchannels i).1
  · exact readImage_position _ i
  · rw [readImage, hget]
    exact readDuctCfg_eq m d.val
  · rw [readImage, hget]
    exact congrArg (fun z => (⟨z, _, _, _, _⟩ : DoorCfg)) (imageMask_eq m (349 + 9 * i.val))
  · rw [readImage, hget]
    exact congrArg (fun z => (⟨z, _⟩ : SirenCfg)) (imageMask_eq m (464 + 3 * i.val))
  · exact Nat.mod_eq_of_lt (show imageOf m 489 < 3 from Nat.lt_succ_of_le hlayout)
  · rw [readImage, hget]
    exact congrArg (fun z => (⟨z, _, _⟩ : PortCfg)) ((BitVec.ofNat_toNat 8 (readCell m (495 + 4 * i.val))).trans
      (BitVec.setWidth_eq _))

end Sys2Proof.Machine
end

