-- ==== Sys2Proof/Proofs/LoadCompletions.lean ====
section
/-! PROOFS. The end of the load (R183, R184) and RESTART (R187). -/

namespace Sys2Proof.Machine

open Sys2Proof

/-! ### The starting troubles (R31, R41, R47) -/

theorem startingTroubles_at (s : State) (d : Fin 4) : TroublesAt (ductZone d) s (startingTroubles s d) := by
  have hfold (l : List (Fin 4)) (t : State) : TroublesAt (ductZone d) t
      (l.foldl (fun s st => if stationConfigured s.cfg d st then evalCoincidence d st s else s) t) := by
    induction l generalizing t with
    | nil => exact .refl _ t
    | cons st rest ih =>
      refine TroublesAt.trans ?_ (ih _)
      dsimp only
      split
      · exact evalCoincidence_at d st t
      · exact .refl _ t
  exact (hfold _ s).trans (raiseTrouble_at _ _ _ _)

theorem startingTroubles_raised (s : State) (d : Fin 4) : Raised (startingTroubles s d) (ductZone d) .velocityFault (d.val + 1) :=
  raised_raiseTrouble _ _ _ _

/-- The starting troubles of some ducts. -/
structure StartedAt (l : List (Fin 4)) (s t : State) : Prop where
  within : Within .troubles s t
  hazards : KeepsHazards s t
  raised : ∀ d ∈ l, Raised t (ductZone d) .velocityFault (d.val + 1)
  zone : ∀ d, d ∉ l → t.zone (ductZone d) = s.zone (ductZone d)

theorem startingTroubles_all (l : List (Fin 4)) (s : State) : StartedAt l s (l.foldl startingTroubles s) := by
  induction l generalizing s with
  | nil => exact ⟨.refl _ s, .refl s, nofun, fun _ _ => rfl⟩
  | cons e rest ih =>
    have hone := startingTroubles_at s e
    have hraised := startingTroubles_raised s e
    have hrest := ih (startingTroubles s e)
    rw [List.foldl_cons]
    generalize startingTroubles s e = u at *
    refine ⟨hone.within.trans hrest.within, hone.hazards.trans hrest.hazards, fun d hd => ?_, fun d hd => ?_⟩
    · by_cases h : d ∈ rest
      · exact hrest.raised d h
      · obtain rfl : d = e := (List.mem_cons.mp hd).resolve_right h
        rw [Raised, hrest.zone d h]
        exact hraised
    · rw [List.mem_cons, not_or] at hd
      exact (hrest.zone d hd.2).trans (hone.zone _ fun k => hd.1 (ductZone_injective k))

/-! ### RUNNING (R183) -/

theorem KeepsHazard.kind {z : Fin 16} {s t : State} (h : KeepsHazard z s t) : (t.zone z).kind = (s.zone z).kind := by
  have h : t.zone z = { s.zone z with troubles := (t.zone z).troubles } := h
  rw [h]

theorem Sampler.ix_key {x : Sampler} : x.ix = Sampler.key.ix ↔ x = .key := by
  constructor
  · intro h
    have h := congrArg Fin.val h
    cases x with
    | key => rfl
    | gate d w => cases w <;> simp [Sampler.ix] at h
    | _ => simp [Sampler.ix] at h
  · rintro rfl
    rfl

theorem startSampling_sampled (s : State) (x : Sampler) :
    (startSampling s).sampled x = if x = .key then s.sampled .key else s.tick := by
  have h : (startSampling s).sampled x = if x.ix = Sampler.key.ix then s.sampled .key else (Vector.replicate 69 s.tick)[x.ix] :=
    Vector.getElem_set_fin _ _ _ _
  rw [h, if_congr Sampler.ix_key rfl (show (Vector.replicate 69 s.tick)[x.ix] = s.tick by simp)]

theorem takeConfiguration_channel (c : Cfg) (s : State) (i : Fin 16) :
    (takeConfiguration c s).channel i = loadedChannel c.channels[i] (s.channel i) := by
  simp [takeConfiguration, State.channel]

/-- The state in which the load ends in RUNNING, before the starting troubles. -/
def configured (c : Cfg) (s : State) : State :=
  startSampling ((takeConfiguration c s).setLoader { s.loader with state := .running, failing := none })

theorem configured_zone (c : Cfg) (s : State) (z : Fin 16) : (configured c s).zone z = loadedZone c z (s.zone z) := by
  show (takeConfiguration c s).zone z = _
  simp [takeConfiguration, State.zone]

theorem loadedZone_kind (c : Cfg) (z : Fin 16) (x : Zone) :
    (loadedZone c z x).kind = if h : 4 ≤ z.val then c.zoneKinds[z.val - 4]'(by omega) else x.kind := by
  unfold loadedZone
  split <;> rfl

theorem loadedZone_level (c : Cfg) (z : Fin 16) (x : Zone) : (loadedZone c z x).level = x.level := by
  rw [loadedZone_hazard]

theorem configured_gate {c : Cfg} {s : State} {d : Fin 4} (h : s.gate d = Gate.initial) :
    let g := (configured c s).gate d
    g.openDrive = false ∧ g.closeDrive = false ∧ (c.ducts[d].gate.installed = true → g.state =
      if s.leads.gateClosed[d] = true ∧ s.leads.gateOpen[d] = false then .closed
      else if s.leads.gateOpen[d] = true ∧ s.leads.gateClosed[d] = false then .opened else .fault) := by
  have hg : (configured c s).gate d = loadedGate c.ducts[d].gate s.leads.gateOpen[d] s.leads.gateClosed[d] (s.gate d) :=
    congrArg Duct.gate (takeConfiguration_duct c s d)
  dsimp only
  rw [hg, h, loadedGate]
  split
  · refine ⟨rfl, rfl, fun _ => ?_⟩
    dsimp only
    cases s.leads.gateClosed[d] <;> cases s.leads.gateOpen[d] <;> rfl
  · exact ⟨rfl, rfl, fun k => absurd k ‹_›⟩

/-- A quiet part that ends its load in RUNNING. -/
theorem enterRunning_left (c : Cfg) {s : State} (hrun : s.isRunning = false) (hq : QuietOk s) :
    let t := enterRunning c s
    t.cfg = c ∧ (t.loader = { s.loader with state := .running, failing := none } ∧ t.tick = s.tick ∧ t.store = s.store ∧
        t.leads = s.leads ∧ t.key = s.key ∧ t.pending = s.pending ∧
        ∀ x, t.sampled x = if x = .key then s.sampled .key else s.tick) ∧
      (∀ p, t.port p = { s.port p with
        subscription := c.ports[portIx p].subscription, threshold := c.ports[portIx p].threshold, age := c.ports[portIx p].age,
        queue := (t.port p).queue, overflow := (t.port p).overflow, nextSeq := (t.port p).nextSeq, line := (t.port p).line,
        ageTimer := (t.port p).ageTimer }) ∧
      (∀ i, (t.channel i).state = if c.channels[i].isSome then .active else .unused) ∧
      (∀ d, Raised t (ductZone d) .velocityFault (d.val + 1) ∧ (t.ctl d).state = .offline ∧ t.gate d = (configured c s).gate d) ∧
      ∀ z, (t.zone z).level = .normal ∧ (t.zone z).kind = if h : 4 ≤ z.val then c.zoneKinds[z.val - 4]'(by omega) else .duct := by
  intro t
  obtain ⟨-, hzones, -, hchannels, -, hducts, -, -, -⟩ := hq hrun
  have hstart := startingTroubles_all (List.finRange 4) (configured c s)
  change StartedAt (List.finRange 4) (configured c s) t at hstart
  clear_value t
  have hduct (d : Fin 4) : t.duct d = loadedDuct c.ducts[d] s.leads d (s.duct d) :=
    (State.duct_eq_of_ducts (hstart.within.ducts rfl) d).trans (takeConfiguration_duct c s d)
  have hzone (z : Fin 16) : s.zone z = Zone.initial (if z.val < 4 then .duct else .unused) := by
    rw [State.zone, hzones]
    exact initialZones_get z
  obtain ⟨htick, -, hcfg, hkey, hloader, hstore, hleads, hsamples, -, hpending⟩ := hstart.within.fixed
  have hsampled (x : Sampler) : t.sampled x = if x = .key then s.sampled .key else s.tick := by
    rw [State.sampled, hsamples]
    exact startSampling_sampled _ x
  refine ⟨hcfg, ⟨hloader, htick, hstore, hleads, hkey, hpending, hsampled⟩, fun p => ?_, fun i => ?_,
    fun d => ⟨hstart.raised d (List.mem_finRange d), ?_, ?_⟩,
    fun z => ?_⟩
  · have h := hstart.within.links p
    rw [OnlyNotices, show (configured c s).port p = _ from takeConfiguration_port c s p] at h
    exact h
  · have hi : t.channel i = loadedChannel c.channels[i] Channel.initial := by
      rw [State.channel, hstart.within.channels rfl]
      refine (takeConfiguration_channel c s i).trans (congrArg _ ?_)
      rw [State.channel, hchannels]
      simp [State.reset]
    rw [hi]
    generalize c.channels[i] = o
    cases o <;> rfl
  · rw [State.ctl, hduct, State.duct, hducts]
    exact congrArg (fun x : Duct => x.ctl.state) (reset_duct d)
  · exact congrArg Duct.gate (State.duct_eq_of_ducts (hstart.within.ducts rfl) d)
  · rw [hstart.hazards.level, (hstart.hazards z).kind, configured_zone, loadedZone_kind, loadedZone_level, hzone]
    refine ⟨rfl, ?_⟩
    split
    · rfl
    · exact if_pos (by omega)

/-! ### RESTART (R187) -/

theorem frameTaken_hunting {p : Port} {s : State} (h : (s.port p).rx = .hunting) : frameTaken p s = s := by
  have hport : ({ s.port p with rx := .hunting } : PortUnit) = s.port p := by rw [← h]
  rw [frameTaken, hport]
  exact congrArg (fun v : Vector PortUnit 3 => ({ s with ports := v } : State)) (Vector.set_getElem_self _)

/-- RESTART's checks for FP (R187). -/
theorem restartReply_fp (s : State) : restartReply .fp s =
    if s.loader.write.isSome then refuse .busy s else if restartForbidden s then refuse .notNow s else accept [] s.powerUp :=
  if_neg (not_not_intro rfl)

/-- Settles O60: the verdict on the image, the starting troubles over the values taken, and RESTART's checks. -/
theorem loadEndsRunningOrSafe : Obligations.LoadEndsRunningOrSafe := by
  intro n code s hup
  have hload (hloading : s.loader.state = .loading) (htick : s.tick = 1024) : exec .loadCompletion s = .next (completeLoad s) :=
    (live_up s _ hup).trans (congrArg Host.Outcome.next (if_pos ⟨hloading, htick⟩))
  refine ⟨fun hloading htick hfails => ?_, fun hloading htick hpasses hquiet => ?_, fun ht hwrite hzones hducts => ?_,
    fun ht hwrite => ?_, fun ht hwrite hrun => ?_⟩
  · have hverdict := judgeImage_failing hfails
    obtain ⟨hnone, -⟩ | ⟨c, hc, hend⟩ := completeLoad_cases s
    · exact nomatch hnone.symm.trans hverdict
    · obtain rfl : c = code := Option.some.inj (hc.symm.trans hverdict)
      rw [hload hloading htick, hend]
      rfl
  · obtain ⟨-, hend⟩ | ⟨c, hc, -⟩ := completeLoad_cases s
    · have hvalues : ValuesInRange s.store := not_not.mp (hpasses .fieldRange)
      have hconfig := readImage_configRead hvalues
      obtain ⟨hcfg, hfixed, hports, hchannels, hducts, hzones⟩ := enterRunning_left (readImage (imageOf s.store))
        (s := s.setLoader { s.loader with imageCrc := imageCrcField s.store }) (by simp [State.isRunning, hloading]) hquiet
      refine ⟨_, (hload hloading htick).trans (congrArg Host.Outcome.next hend), ?_⟩
      generalize enterRunning (readImage (imageOf s.store)) (s.setLoader { s.loader with imageCrc := imageCrcField s.store }) = t at *
      rw [← hcfg] at hconfig hports hchannels hzones
      have hduct (d : Fin 4) : s.gate d = Gate.initial := by
        obtain ⟨-, -, -, -, -, hquiet, -⟩ := hquiet (by simp [State.isRunning, hloading])
        rw [State.gate, State.duct, hquiet]
        exact congrArg Duct.gate (reset_duct d)
      obtain ⟨hloader, htick, hstore, hleads, hkey, hpending, hsampled⟩ := hfixed
      refine ⟨hloader, hconfig, hports, hchannels, fun d => ?_, hzones, hsampled, htick, hstore, hleads, hkey, hpending⟩
      · obtain ⟨hraised, hstate, hgate⟩ := hducts d
        obtain ⟨hopen, hclose, hswitch⟩ := configured_gate (c := readImage (imageOf s.store))
          (s := s.setLoader { s.loader with imageCrc := imageCrcField s.store }) (hduct d)
        rw [hgate, State.gateCfg, State.ductCfg, hcfg]
        exact ⟨hraised, hstate, hopen, hclose, hswitch⟩
    · exact nomatch hc.symm.trans (judgeImage_passing hpasses)
  · have hallowed : ¬restartForbidden (frameTaken .fp s) = true := by
      rw [restartForbidden_iff]
      rintro (⟨z, hz⟩ | ⟨d, h1, h2⟩)
      · exact hzones z hz
      · exact (hducts d).elim h1 h2
    have hreply : restartReply .fp (frameTaken .fp s) = accept [] (frameTaken .fp s).powerUp := by
      rw [restartReply_fp, if_neg (by rw [show (frameTaken .fp s).loader.write = none from hwrite]; nofun), if_neg hallowed]
    refine (serve_accepts ht codeRestart n hreply).trans (congrArg Host.Outcome.next ?_)
    refine Eq.trans ?_ (issue_frameTaken .fp ⟨codeRestart, n, .ok, []⟩ s.powerUp)
    rw [frameTaken_hunting (s := s.powerUp) rfl]
    rfl
  · refine serve_refuses ht codeRestart n (result := .busy) ?_
    exact (restartReply_fp _).trans (if_pos hwrite)
  · refine serve_refuses ht codeRestart n (result := .notNow) ?_
    exact (restartReply_fp _).trans ((if_neg (by rw [show (frameTaken .fp s).loader.write = none from hwrite]; nofun)).trans
      (if_pos ((restartForbidden_iff (frameTaken .fp s)).mpr hrun)))

end Sys2Proof.Machine
end

