-- ==== Sys2Proof/Proofs/QualifyingSets.lean ====
section
/-! PROOFS. The qualifying set of a station sample event, its coincidence and its origin (R32, R33), and the outcome that they bring. -/

namespace Sys2Proof.Machine

open Sys2Proof

theorem later_antisymm {a b : Tick} (h : Tick.later a b = true) : Tick.later b a = false := by
  unfold Tick.later at *
  rw [decide_eq_true_eq] at h
  rw [decide_eq_false_iff_not, show b - a = -(a - b) from (neg_sub a b).symm, BitVec.toInt_neg]
  intro hn
  have hlo := BitVec.le_toInt (a - b)
  have hhi := BitVec.toInt_lt (x := a - b)
  rw [Int.bmod_def] at hn
  omega

theorem later_self (a : Tick) : Tick.later a a = false := by simp [Tick.later]

/-! ### The set and its coincidence (R32) -/

section
variable {s : State} {d : Fin 4}

theorem qualifyingSet_now (hlimit : 0 < (s.ductCfg d).base.stuckLimit) (st : Fin 4) (codes : Vector Code 4) :
    qualifyingSet (stationSamples s d st codes) = qualifyingNow s d st codes := by
  rw [qualifyingSet, stationSamples, List.filter_map, List.map_map, qualifyingNow]
  refine congrArg (List.map Prod.fst) (List.filter_congr fun x _ => ?_)
  exact channelSample_qualified s d x.1 x.2 hlimit

theorem coincidenceCount_now (hlimit : 0 < (s.ductCfg d).base.stuckLimit) (st : Fin 4) (codes : Vector Code 4) :
    coincidenceCount (stationSamples s d st codes) = coincidenceNow s d st codes := by
  rw [coincidenceCount, qualifyingSet_now hlimit, coincidenceNow, stationSamples, List.filter_map, List.length_map]
  refine congrArg (fun l => List.length l + _) (List.filter_congr fun x _ => ?_)
  show ((channelSample s d x.1 x.2).channel.isActive && (channelSample s d x.1 x.2).reached && !(channelSample s d x.1 x.2).qualified) = _
  rw [channelSample_active, channelSample_reached, channelSample_qualified s d x.1 x.2 hlimit, channelSample_fault s d x.1 x.2 hlimit,
    reachesNow]
  ac_rfl

/-- A qualifying channel is ACTIVE without a fault, with the run that its sample extends (R26, R27). -/
theorem qualified_runStart (hlimit : 0 < (s.ductCfg d).base.stuckLimit) {c : Fin 16} {code : Code}
    (h : (channelSample s d c code).qualified = true) :
    (channelSample s d c code).channel.runStart = startAfter s.tick (s.channel c) := by
  rw [channelSample_qualified s d c code hlimit, qualifiesNow, reachesNow, ← channelSample_fault s d c code hlimit] at h
  simp only [Bool.and_eq_true, decide_eq_true_eq] at h
  obtain ⟨⟨⟨⟨hactive, hreach⟩, hfault⟩, -⟩, -⟩ := h
  rw [channelSample, sampleChannel_active hactive] at hfault ⊢
  dsimp only at hfault ⊢
  rw [Option.isNone_iff_eq_none.mp hfault]
  exact if_pos hreach

end

/-! ### The origin (R33) -/

theorem earliest_fold (f : Fin 16 → Tick) {o : Tick} (l : List (Fin 16)) {acc : Tick} (hacc : acc = o ∨ Tick.later acc o = true)
    (hl : ∀ c ∈ l, f c = o ∨ Tick.later (f c) o = true) (ho : acc = o ∨ ∃ c ∈ l, f c = o) :
    l.foldl (fun t c => if Tick.later t (f c) then f c else t) acc = o := by
  induction l generalizing acc with
  | nil => exact ho.resolve_right fun ⟨_, h, _⟩ => nomatch h
  | cons c rest ih =>
    rw [List.foldl_cons]
    refine ih ?_ (fun x hx => hl x (List.mem_cons_of_mem c hx)) ?_
    · split
      · exact hl c List.mem_cons_self
      · exact hacc
    · by_cases hc : f c = o
      · left
        split
        · exact hc
        · rename_i hnot
          exact hacc.resolve_right fun e => hnot (hc ▸ e)
      · rcases ho with rfl | ⟨x, hx, hxo⟩
        · left
          refine if_neg fun e => ?_
          have := later_antisymm ((hl c List.mem_cons_self).resolve_left hc)
          rw [e] at this
          exact nomatch this
        · right
          rcases List.mem_cons.mp hx with rfl | h
          · exact absurd hxo hc
          · exact ⟨x, h, hxo⟩

/-- The origin of a detection is the earliest run start of its channels. -/
theorem earliestStart_eq {s u : State} {d st : Fin 4} {codes : Vector Code 4} {o : Tick} (h : IsOrigin s d st codes o)
    (hu : ∀ c ∈ qualifyingNow s d st codes, (u.channel c).runStart = startAfter s.tick (s.channel c)) :
    earliestStart u (qualifyingNow s d st codes) = o := by
  obtain ⟨⟨c, hc, hco⟩, hall⟩ := h
  generalize qualifyingNow s d st codes = l at *
  have hstart : ∀ x ∈ l, (u.channel x).runStart = o ∨ Tick.later (u.channel x).runStart o = true := fun x hx => hu x hx ▸ hall x hx
  have hfound : (u.channel c).runStart = o := (hu c hc).trans hco
  cases l with
  | nil => exact nomatch hc
  | cons a rest =>
    refine earliest_fold (fun x => (u.channel x).runStart) rest (hstart a List.mem_cons_self)
      (fun x hx => hstart x (List.mem_cons_of_mem a hx)) ?_
    rcases List.mem_cons.mp hc with rfl | h
    · exact .inl hfound
    · exact .inr ⟨c, h, hfound⟩

/-! ### The outcome of stage 5 (R32 to R35) -/

/-- The judgment of a station whose channels did not qualify. -/
theorem judgeStation_rests {d st : Fin 4} {dead : Nat} {l : List (Fin 16 × Sampled)} (h : qualifyingSet l = []) (s : State) :
    judgeStation d st dead l s = s := by
  unfold judgeStation
  dsimp only
  rw [h]
  exact if_pos rfl

/-- The judgment of qualifying channels outside dead time, by their coincidence. -/
theorem judgeStation_judges (d st : Fin 4) {l : List (Fin 16 × Sampled)} (h : qualifyingSet l ≠ []) (s : State) :
    judgeStation d st 0 l s =
      if coincidenceRequirement (s.ductCfg d).base.coincidence (activeCount s d st) ≤ coincidenceCount l then
        confirmDetection ⟨d, st, earliestStart s (qualifyingSet l), s.tick, qualifyingSet l⟩ s
      else unconfirmedFlash d st (coincidenceRequirement (s.ductCfg d).base.coincidence (activeCount s d st)) (coincidenceCount l)
        (qualifyingSet l) s := by
  unfold judgeStation
  dsimp only
  rw [if_neg (by rwa [List.isEmpty_iff]), if_neg (Nat.lt_irrefl 0)]

end Sys2Proof.Machine
end

