-- ==== Sys2Proof/Proofs/CaptureStarts.lean ====
section
/-! PROOFS. A confirmed detection at the Track Unit's list and at the Capture Store (R58 to R65, R160, R161). -/

namespace Sys2Proof.Machine

open Sys2Proof

/-! ### Matching (R61) -/

theorem matchesTrack_iff (st : Fin 4) (o : Tick) (t : Track) : matchesTrack st o t = true ↔ Fits st o t := by
  unfold matchesTrack Fits StationEntry.admits Tick.notLater
  simp only [Bool.and_eq_true, List.any_eq_true, decide_eq_true_eq, Bool.not_eq_true', List.any_eq_false]
  constructor
  · rintro ⟨⟨e, he, h1, h2, h3⟩, hm⟩
    exact ⟨fun h => hm st h rfl, e, he, h1, h2, h3⟩
  · rintro ⟨hm, e, he, h1, h2, h3⟩
    exact ⟨⟨e, he, h1, h2, h3⟩, fun m h e => hm (e ▸ h)⟩

/-- The first fitting track of a list stands at a place. -/
def FirstFit (st : Fin 4) (o : Tick) (l : List Track) (i : Nat) (u : Track) : Prop :=
  l[i]? = some u ∧ Fits st o u ∧ ∀ v ∈ l.take i, ¬Fits st o v

theorem FirstFit.cons {st : Fin 4} {o : Tick} {l : List Track} {i : Nat} {u t : Track} (ht : ¬Fits st o t) (h : FirstFit st o l i u) :
    FirstFit st o (t :: l) (i + 1) u := by
  obtain ⟨hi, hu, hv⟩ := h
  refine ⟨hi, hu, fun v hmem => ?_⟩
  rcases List.mem_cons.mp hmem with rfl | h
  · exact ht
  · exact hv v h

theorem FirstFit.unique {st : Fin 4} {o : Tick} {l : List Track} {i j : Nat} {u v : Track} (h : FirstFit st o l i u)
    (k : FirstFit st o l j v) : i = j ∧ u = v := by
  have hle {a b : Nat} {x y : Track} (hx : FirstFit st o l a x) (hy : FirstFit st o l b y) : a ≤ b := by
    by_contra hlt
    obtain ⟨hb, hyb⟩ := List.getElem?_eq_some_iff.mp hy.1
    exact hx.2.2 y (List.mem_take_iff_getElem.mpr ⟨b, by omega, hyb⟩) hy.2.1
  obtain rfl : i = j := Nat.le_antisymm (hle h k) (hle k h)
  exact ⟨rfl, Option.some.inj (h.1.symm.trans k.1)⟩

theorem matchFirst_some {st : Fin 4} {o : Tick} {l : List Track} {r : Track × List Track} (h : matchFirst st o l = some r) :
    ∃ i, FirstFit st o l i r.1 ∧ r.2 = l.set i { r.1 with matched := r.1.matched ++ [st] } := by
  induction l generalizing r with
  | nil => exact nomatch h
  | cons t rest ih =>
    unfold matchFirst at h
    split at h
    · rename_i ht
      obtain rfl := Option.some.inj h
      exact ⟨0, ⟨rfl, (matchesTrack_iff st o t).mp ht, nofun⟩, rfl⟩
    · rename_i ht
      obtain ⟨q, hq, rfl⟩ := Option.map_eq_some_iff.mp h
      obtain ⟨i, hfit, hset⟩ := ih hq
      refine ⟨i + 1, hfit.cons fun e => ht ((matchesTrack_iff st o t).mpr e), ?_⟩
      rw [List.set_cons_succ, ← hset]

theorem matchFirst_none {st : Fin 4} {o : Tick} {l : List Track} (h : matchFirst st o l = none) : ∀ u ∈ l, ¬Fits st o u := by
  induction l with
  | nil => exact nofun
  | cons t rest ih =>
    unfold matchFirst at h
    split at h
    · exact nomatch h
    · rename_i ht
      intro u hu
      rcases List.mem_cons.mp hu with rfl | hu
      · exact fun e => ht ((matchesTrack_iff st o u).mpr e)
      · exact ih (Option.map_eq_none_iff.mp h) u hu

/-! ### The outcome at the Track Unit (R61 to R65) -/

/-- The track of a detection's outcome, as a capture record names it. -/
def TrackOutcome.id : TrackOutcome → Option Byte
  | .tracked id | .matched id => some id
  | .overflow => none

/-- The detection joined a track. -/
def TrackOutcome.isMatched : TrackOutcome → Bool
  | .matched _ => true
  | .tracked _ | .overflow => false

/-- What a capture record takes from a settled detection. -/
structure OutcomeOf (x : Detection) (s : State) (r : Settled) : Prop where
  fits : ∀ i u, FirstFit x.station x.origin (s.duct x.duct).tracks i u → r.outcome = .matched u.id ∧ r.vHi = u.vHi ∧ r.vLo = u.vLo
  fitless : (∀ u ∈ (s.duct x.duct).tracks, ¬Fits x.station x.origin u) → r.outcome.isMatched = false ∧
    r.vHi = (s.duct x.duct).vel.bounds.vHi ∧ r.vLo = (s.duct x.duct).vel.bounds.vLo ∧
    (8 ≤ (s.duct x.duct).tracks.length → r.outcome = .overflow) ∧
    ((s.duct x.duct).tracks.length < 8 → ∃ id, r.outcome = .tracked id ∧ (∀ u ∈ (s.duct x.duct).tracks, u.id ≠ id) ∧
      ∃ y ∈ (r.state.duct x.duct).tracks, y.id = id)

theorem settleDetection_outcome (x : Detection) (s : State) : OutcomeOf x s (settleDetection x s) := by
  have hids := settleDetection_ids x s
  dsimp only at hids
  unfold settleDetection at hids ⊢
  cases hm : matchFirst x.station x.origin (s.duct x.duct).tracks with
  | some r =>
    obtain ⟨i, hfit, -⟩ := matchFirst_some hm
    refine ⟨fun j u hu => ?_, fun h => absurd hfit.2.1 (h r.1 (List.mem_of_getElem? hfit.1))⟩
    obtain rfl := (hfit.unique hu).2
    exact ⟨rfl, rfl, rfl⟩
  | none =>
    have hnone := matchFirst_none hm
    refine ⟨fun j u hu => absurd hu.2.1 (hnone u (List.mem_of_getElem? hu.1)), fun _ => ?_⟩
    dsimp only
    by_cases hlen : (s.duct x.duct).tracks.length < 8
    · rw [hm] at hids
      dsimp only at hids
      rw [if_pos hlen] at hids ⊢
      refine ⟨rfl, rfl, rfl, fun h => absurd h (by omega), fun _ => ⟨_, rfl, fun u hu e => ?_, ?_⟩⟩
      · exact hids.2.1 (List.mem_map.mpr ⟨u, hu, e⟩)
      · exact List.mem_map.mp (hids.2.2.mem_iff.mpr List.mem_cons_self)
    · rw [if_neg hlen]
      exact ⟨rfl, rfl, rfl, fun _ => rfl, fun h => absurd h hlen⟩

/-! ### The report keeps the list (R69, R97) -/

theorem reportDetection_water (x : Detection) (r : Settled) (s : State) : KeepsWater x.duct s (reportDetection x r s) := by
  have hreport (causes : List StopCause) (t : State) :
      KeepsWater x.duct t (dcEvent x.duct (countDetection x.duct causes t).1 (countDetection x.duct causes t).2) :=
    ((countDetection_local x.duct causes t).keepsWater (by decide)).trans ((dcEvent_kept x.duct _ _).water x.duct)
  unfold reportDetection
  cases r.outcome with
  | matched id => exact .refl x.duct s
  | overflow => exact hreport _ _
  | tracked id =>
    dsimp only
    split
    · exact ((setListMark_local x.duct true s).keepsWater (by decide)).trans (hreport _ _)
    · exact hreport _ _

/-! ### The Capture Store (R160, R161) -/

theorem Captures.lowestFree_none {c : Captures} (h : ∀ x ∈ c.blocks, x ≠ .free) : c.lowestFree = none := by
  rw [Captures.lowestFree, List.findIdx?_eq_none_iff]
  intro x hx
  cases x with
  | free => exact absurd rfl (h _ hx)
  | _ => rfl

theorem Captures.lowestFree_at {c : Captures} {b : Nat} (hb : c.blocks[b]? = some .free) (h : ∀ x ∈ c.blocks.take b, x ≠ .free) :
    c.lowestFree = some b := by
  obtain ⟨hlt, hfree⟩ := List.getElem?_eq_some_iff.mp hb
  rw [Captures.lowestFree, List.findIdx?_eq_some_iff_getElem]
  refine ⟨hlt, by rw [hfree]; rfl, fun j hj => ?_⟩
  have hne := h c.blocks[j] (List.mem_take_iff_getElem.mpr ⟨j, by omega, rfl⟩)
  cases hx : c.blocks[j] with
  | free => exact absurd hx hne
  | _ => exact Bool.false_ne_true

/-- A detection without a capture of its station in flight, at a store without a FREE block (R160). -/
theorem settleCapture_skips {x : Detection} {s : State} (hfilling : s.captures.fillingOf x.duct x.station = none)
    (h : ∀ b ∈ s.captures.blocks, b ≠ .free) (o : TrackOutcome) (hi lo : Nat) : settleCapture x o hi lo s = skipCapture s := by
  unfold settleCapture
  rw [hfilling, Captures.lowestFree_none h]

theorem settleCapture_starts {x : Detection} {s : State} {b : Nat} (hfilling : s.captures.fillingOf x.duct x.station = none)
    (h : s.captures.lowestFree = some b) (o : TrackOutcome) (hi lo : Nat) :
    settleCapture x o hi lo s = startCapture b x o hi lo s := by
  unfold settleCapture
  rw [hfilling, h]

theorem settleCapture_counts {x : Detection} {s : State} {b : Nat} (hfilling : s.captures.fillingOf x.duct x.station = some b)
    (o : TrackOutcome) (hi lo : Nat) : settleCapture x o hi lo s = countExtra b s := by
  unfold settleCapture
  rw [hfilling]

/-- The LOST flag is set, with a notice where it was clear (R160, R164). -/
theorem skipCapture_left (s : State) :
    (skipCapture s).captures = { s.captures with lost := true } ∧ (skipCapture s).stations = s.stations ∧
      (skipCapture s).tick = s.tick ∧ (s.captures.lost = false →
        OffersThese [captureNotice 1 s.captures (skipCapture s).captures] s (skipCapture s)) := by
  unfold skipCapture
  dsimp only
  split
  · rename_i h
    refine ⟨?_, rfl, rfl, fun e => Bool.noConfusion (e.symm.trans h)⟩
    rw [← h]
  · refine ⟨rfl, rfl, rfl, fun _ => ?_⟩
    rw [captureOffer_eq]
    exact (Told.after rfl rfl (offer_told _ _)).offersThese (.refl _)

/-- What a started capture leaves: the store, the station's mark, and the sequence with its track (R65, R161). -/
theorem startCapture_left {x : Detection} {s : State} (b : Nat) (o : TrackOutcome) (hi lo : Nat) :
    let r := newCapture s x o hi lo
    let t := startCapture b x o hi lo s
    t.captures = { s.captures with
        blocks := s.captures.blocks.set b (.filling r s.captures.post),
        filling := s.captures.filling.set (stationIx x.duct x.station) (some b), nextSeq := s.captures.nextSeq + 1 } ∧
      (t.station x.duct x.station).inFlight = true ∧
      ∀ id, o = .tracked id → ∀ y ∈ (s.duct x.duct).tracks, y.id = id →
        { y with capture := some s.captures.nextSeq } ∈ (t.duct x.duct).tracks := by
  have hmark : ((setInFlight x.duct x.station true s).station x.duct x.station).inFlight = true :=
    congrArg Station.inFlight (Vector.getElem_set_self _)
  unfold startCapture
  dsimp only
  cases o with
  | tracked id =>
    refine ⟨rfl, hmark, fun k hk y hy hid => ?_⟩
    obtain rfl := TrackOutcome.tracked.inj hk
    unfold handSequence
    dsimp only
    rw [State.setDuct_duct_self]
    exact List.mem_map.mpr ⟨y, hy, if_pos hid⟩
  | _ => exact ⟨rfl, hmark, nofun⟩

theorem setStation_self (d st : Fin 4) (x : Station) (s : State) : (s.setStation d st x).station d st = x := Vector.getElem_set_self _

/-- A confirmed detection's store and station marks are the Capture Store's: neither its settlement nor its report touches them. -/
theorem confirmDetection_store (x : Detection) (s : State) :
    let s1 := s.setStation x.duct x.station { s.station x.duct x.station with dead := (s.ductCfg x.duct).base.deadTime }
    let r := settleDetection x s1
    let k := settleCapture x r.outcome r.vHi r.vLo r.state
    (confirmDetection x s).captures = k.captures ∧ (confirmDetection x s).stations = k.stations ∧ r.state.captures = s.captures ∧
      Tells s r.state ∧ Tells k (confirmDetection x s) := by
  intro s1 r k
  have hreport := reportDetection_within x r k
  have hcalm : Calm s s1 := .of_quiet rfl rfl rfl
  exact ⟨hreport.captures rfl, hreport.stations rfl, (settleDetection_within x s1).captures rfl,
    (hcalm.trans (settleDetection_calm x s1)).tells, (reportDetection_calm x r k).tells⟩

theorem confirmDetection_counts {x : Detection} {s : State} {b : Nat} (hfilling : s.captures.fillingOf x.duct x.station = some b) :
    (confirmDetection x s).captures = s.captures.setBlock b (s.captures.block b).counted := by
  obtain ⟨hcap, -, hsettled, -, -⟩ := confirmDetection_store x s
  rw [hcap, settleCapture_counts (hsettled ▸ hfilling), countExtra]
  show Captures.setBlock _ b (Captures.block _ b).counted = _
  rw [hsettled]

theorem confirmDetection_skips {x : Detection} {s : State} (hfilling : s.captures.fillingOf x.duct x.station = none)
    (h : ∀ b ∈ s.captures.blocks, b ≠ .free) :
    (confirmDetection x s).captures = { s.captures with lost := true } ∧
      (s.captures.lost = false → OffersThese [captureNotice 1 s.captures (confirmDetection x s).captures] s (confirmDetection x s)) ∧
      ((confirmDetection x s).station x.duct x.station).inFlight = (s.station x.duct x.station).inFlight := by
  have hwithin := settleDetection_within x
    (s.setStation x.duct x.station { s.station x.duct x.station with dead := (s.ductCfg x.duct).base.deadTime })
  obtain ⟨hcap, hstations, hsettled, hbefore, hafter⟩ := confirmDetection_store x s
  rw [settleCapture_skips (hsettled ▸ hfilling) (hsettled ▸ h)] at hcap hstations hafter
  obtain ⟨hskip, hmarks, htick, htold⟩ := skipCapture_left
    (settleDetection x (s.setStation x.duct x.station { s.station x.duct x.station with dead := (s.ductCfg x.duct).base.deadTime })).state
  rw [hsettled] at hskip htold
  refine ⟨hcap.trans hskip, fun hlost => ?_, ?_⟩
  · rw [hcap]
    exact .before hbefore ((htold hlost).more htick hafter)
  · rw [State.station, hstations, hmarks, hwithin.stations rfl]
    exact (congrArg Station.inFlight (setStation_self x.duct x.station _ s)).trans rfl

theorem newCapture_trackId (s : State) (x : Detection) (o : TrackOutcome) (hi lo : Nat) :
    (newCapture s x o hi lo).trackId = o.id := by
  cases o <;> rfl

theorem newCapture_matched (s : State) (x : Detection) (o : TrackOutcome) (hi lo : Nat) :
    (newCapture s x o hi lo).matched = o.isMatched := by
  cases o <;> rfl

theorem newCapture_congr {s t : State} {x : Detection} {o : TrackOutcome} {hi lo : Nat} (hc : t.captures = s.captures)
    (hcfg : t.cfg = s.cfg) (hch : t.channels = s.channels) : newCapture t x o hi lo = newCapture s x o hi lo := by
  unfold newCapture State.channel
  rw [hc, hcfg, hch]

/-- A confirmed detection starts a capture in the lowest FREE block (R160, R161). -/
theorem confirmDetection_starts {x : Detection} {s : State} {b : Nat} (hconfirm : x.confirm = s.tick)
    (hfilling : s.captures.fillingOf x.duct x.station = none) (hfree : s.captures.lowestFree = some b) :
    CaptureStarts s s.captures x.duct x.station x.origin b (confirmDetection x s) := by
  have hb := (Captures.lowestFree_free hfree).1
  have hchannels := confirmDetection_channels x s
  have hstore := confirmDetection_store x s
  dsimp only at hstore
  have hD : (s.setStation x.duct x.station { s.station x.duct x.station with
      dead := (s.ductCfg x.duct).base.deadTime }).duct x.duct = s.duct x.duct := rfl
  have hwithin := settleDetection_within x
    (s.setStation x.duct x.station { s.station x.duct x.station with dead := (s.ductCfg x.duct).base.deadTime })
  have hout := settleDetection_outcome x
    (s.setStation x.duct x.station { s.station x.duct x.station with dead := (s.ductCfg x.duct).base.deadTime })
  have hconf : confirmDetection x s = reportDetection x (settleDetection x (s.setStation x.duct x.station
    { s.station x.duct x.station with dead := (s.ductCfg x.duct).base.deadTime })) _ := rfl
  generalize settleDetection x (s.setStation x.duct x.station { s.station x.duct x.station with
    dead := (s.ductCfg x.duct).base.deadTime }) = r at *
  obtain ⟨hcap, hstations, hsettled, -, -⟩ := hstore
  rw [settleCapture_starts (hsettled ▸ hfilling) (hsettled ▸ hfree)] at hcap hstations hconf
  have hwater := reportDetection_water x r (startCapture b x r.outcome r.vHi r.vLo r.state)
  rw [← hconf] at hwater
  obtain ⟨hstore, hmark, htrack⟩ := startCapture_left (x := x) (s := r.state) b r.outcome r.vHi r.vLo
  rw [hsettled] at hstore
  have hblock : (confirmDetection x s).captures.block b = .filling (newCapture r.state x r.outcome r.vHi r.vLo) s.captures.post := by
    rw [hcap, hstore]
    exact (Captures.setBlock_block s.captures b _ b hb).trans (if_pos rfl)
  have hcfg : r.state.cfg = s.cfg := hwithin.fixed.cfg_eq
  have hrecord : newCapture r.state x r.outcome r.vHi r.vLo =
      newCapture { s with channels := (confirmDetection x s).channels } x r.outcome r.vHi r.vLo :=
    newCapture_congr hsettled hcfg ((hwithin.channels rfl).trans hchannels.symm)
  refine ⟨newCapture r.state x r.outcome r.vHi r.vLo, by rw [hblock]; rfl, ?_⟩
  rw [hrecord] at hstore hblock ⊢
  refine ⟨hcap.trans hstore, ?_, rfl, rfl, rfl, rfl, hconfirm, rfl, ?_, rfl, rfl, rfl, ?_, ?_⟩
  · rw [State.station, hstations]
    exact hmark
  · exact List.foldl_map.symm
  · intro i u hu hfit hfirst
    obtain ⟨ho, hhi, hlo⟩ := hout.fits i.val u ⟨hu, hfit, hfirst⟩
    exact ⟨by rw [newCapture_trackId, ho]; rfl, by rw [newCapture_matched, ho]; rfl, hhi, hlo⟩
  · intro hnone
    obtain ⟨hmatched, hhi, hlo, hover, htracked⟩ := hout.fitless hnone
    refine ⟨by rw [newCapture_matched, hmatched], hhi, hlo, fun h => by rw [newCapture_trackId, hover h]; rfl, fun h => ?_⟩
    · obtain ⟨id, ho, hfresh, y, hy, hid⟩ := htracked h
      refine ⟨_, hwater.1 ▸ htrack id ho y hy hid, fun u hu => hid ▸ hfresh u hu, ?_, ?_⟩
      · rw [newCapture_trackId, ho]
        exact congrArg some hid.symm
      · rw [hsettled]

/-- A capture's start is told of the state before the event by the duct's list and velocity. -/
theorem CaptureStarts.of {s v t : State} {c : Captures} {d st : Fin 4} {o : Tick} {b : Nat} (h : CaptureStarts v c d st o b t)
    (hcfg : v.cfg = s.cfg) (htick : v.tick = s.tick) (htracks : (v.duct d).tracks = (s.duct d).tracks)
    (hvel : (v.duct d).vel = (s.duct d).vel) : CaptureStarts s c d st o b t := by
  unfold CaptureStarts at h ⊢
  dsimp only at h ⊢
  rwa [hcfg, htick, htracks, hvel] at h

end Sys2Proof.Machine
end

