-- ==== Sys2Proof/Proofs/CaptureJudgments.lean ====
section
/-! PROOFS. Stage 5 of a station sample event at the Capture Store (R34, R160 to R163). -/

namespace Sys2Proof.Machine

open Sys2Proof

theorem zip_snd {α β : Type} (l : List α) (m : List β) : (l.zip m).map Prod.snd = m.take l.length := by
  induction l generalizing m with
  | nil => rfl
  | cons a rest ih =>
    cases m with
    | nil => rfl
    | cons b others => exact congrArg (b :: ·) (ih others)

/-! ### The outcomes (R32 to R35) -/

/-- The coincidence of a station's samples meets its requirement (R31, R32). -/
def Joint (d st : Fin 4) (l : List (Fin 16 × Sampled)) (s : State) : Prop :=
  coincidenceRequirement (s.ductCfg d).base.coincidence (activeCount s d st) ≤ coincidenceCount l

theorem joint_iff {s u t : State} {d st : Fin 4} (hlimit : 0 < (s.ductCfg d).base.stuckLimit) (codes : Vector Code 4)
    (hcfg : u.cfg = s.cfg) (hcount : activeCount t d st = activeCount u d st) :
    Joint d st (stationSamples s d st codes) u ↔ Coincides s d st codes t := by
  unfold Joint Coincides
  rw [coincidenceCount_now hlimit, hcount, State.ductCfg, hcfg]
  rfl

/-- The detection that a station's samples make (R33). -/
def detectionAt (d st : Fin 4) (l : List (Fin 16 × Sampled)) (s : State) : Detection :=
  ⟨d, st, earliestStart s (qualifyingSet l), s.tick, qualifyingSet l⟩

section
variable {d st : Fin 4} {dead : Nat} {l : List (Fin 16 × Sampled)} {s : State}

theorem judgeStation_confirms (h : qualifyingSet l ≠ []) (hj : Joint d st l s) :
    judgeStation d st 0 l s = confirmDetection (detectionAt d st l s) s := by
  rw [judgeStation_judges d st h]
  exact if_pos hj

theorem judgeStation_flashes (h : qualifyingSet l ≠ []) (hj : ¬Joint d st l s) :
    judgeStation d st 0 l s = unconfirmedFlash d st (coincidenceRequirement (s.ductCfg d).base.coincidence (activeCount s d st))
      (coincidenceCount l) (qualifyingSet l) s := by
  rw [judgeStation_judges d st h]
  exact if_neg hj

/-- The store and the station's marks are as they were. -/
def KeepsStore (d st : Fin 4) (s t : State) : Prop :=
  t.captures = s.captures ∧ (t.station d st).inFlight = (s.station d st).inFlight

theorem KeepsStore.of_within {m : Parts} {t : State} (h : Within m s t) (hc : m.captures = false) (hs : m.stations = false) :
    KeepsStore d st s t := ⟨h.captures hc, by rw [State.station, h.stations hs]; rfl⟩

theorem unconfirmedFlash_store (n m : Nat) (set : List (Fin 16)) : KeepsStore d st s (unconfirmedFlash d st n m set s) := by
  have h : KeepsStore d st s (countFlashes set s) := by
    rw [countFlashes_eq set s]
    exact ⟨rfl, rfl⟩
  have hoffer := offer_within (flashOffer d st n m set (earliestStart s set)) (countFlashes set s)
  exact ⟨(hoffer.captures rfl).trans h.1, Eq.trans (KeepsStore.of_within hoffer rfl rfl).2 h.2⟩

/-- Stage 5 without a detection or an absorbed qualification (R35). -/
theorem judgeStation_passes (h : ¬(qualifyingSet l ≠ [] ∧ (0 < dead ∨ Joint d st l s))) :
    KeepsStore d st s (judgeStation d st dead l s) := by
  by_cases hset : qualifyingSet l = []
  · rw [judgeStation_rests hset]
    exact ⟨rfl, rfl⟩
  · obtain ⟨hdead, hj⟩ := not_or.mp (not_and.mp h hset)
    obtain rfl : dead = 0 := Nat.eq_zero_of_not_pos hdead
    rw [judgeStation_flashes hset hj]
    exact unconfirmedFlash_store _ _ _

/-- Stage 5 without a confirmed detection at a station that fills no capture. -/
theorem judgeStation_idle (hfilling : s.captures.fillingOf d st = none) (h : ¬(qualifyingSet l ≠ [] ∧ dead = 0 ∧ Joint d st l s)) :
    KeepsStore d st s (judgeStation d st dead l s) := by
  by_cases hcounts : qualifyingSet l ≠ [] ∧ (0 < dead ∨ Joint d st l s)
  · have hdead : 0 < dead := Nat.pos_of_ne_zero fun e => h ⟨hcounts.1, e, hcounts.2.resolve_left (by omega)⟩
    have habsorb : absorbCapture d st s = s := by
      unfold absorbCapture
      rw [hfilling]
      exact ite_self s
    rw [judgeStation_absorbs hdead, habsorb, ite_self]
    exact ⟨rfl, rfl⟩
  · exact judgeStation_passes hcounts

/-- A detection or an absorbed qualification is counted into the station's filling capture (R160, R163). -/
theorem judgeStation_counts {b : Nat} (h : qualifyingSet l ≠ [] ∧ (0 < dead ∨ Joint d st l s))
    (hfilling : s.captures.fillingOf d st = some b) (hmark : (s.station d st).inFlight = true) :
    (judgeStation d st dead l s).captures = s.captures.setBlock b (s.captures.block b).counted := by
  obtain ⟨hset, hcase⟩ := h
  by_cases hdead : 0 < dead
  · rw [judgeStation_absorbs hdead, if_neg (by rwa [List.isEmpty_iff]), absorbCapture, if_pos hmark, hfilling]
    rfl
  · obtain rfl : dead = 0 := Nat.eq_zero_of_not_pos hdead
    rw [judgeStation_confirms hset (hcase.resolve_left hdead)]
    exact confirmDetection_counts (x := detectionAt d st l s) hfilling

end

/-! ### The filling capture through the event (R160, R162, R163) -/

/-- A record as a station sample event counts into it. -/
def Capture.counting (b : Prop) [Decidable b] (r : Capture) : Capture := { r with extra := if b then min 255 (r.extra + 1) else r.extra }

section
variable {d st : Fin 4} {dead : Nat} {l : List (Fin 16 × Sampled)} {s : State} {b : Nat} {r : Capture} {n : Nat}

theorem Captures.block_set {c : Captures} {x : Block} (hb : (c.block b).isFilling = true) :
    ({ c with blocks := c.blocks.set b x } : Captures).block b = x :=
  (Captures.setBlock_block c b x b (Captures.inside_of_filling hb)).trans (if_pos rfl)

/-- Stage 5 at a station that fills a capture. -/
theorem judgeStation_fills (count : Prop) [Decidable count]
    (hcount : count ↔ qualifyingSet l ≠ [] ∧ (0 < dead ∨ Joint d st l s)) (hfilling : s.captures.fillingOf d st = some b)
    (hblock : s.captures.block b = .filling r n) (hmark : (s.station d st).inFlight = true) :
    (judgeStation d st dead l s).captures = s.captures.filled b (r.counting count) n := by
  by_cases h : count
  · rw [judgeStation_counts (hcount.mp h) hfilling hmark, hblock, Capture.counting, if_pos h]
    rfl
  · rw [(judgeStation_passes fun e => h (hcount.mpr e)).1, Capture.counting, if_neg h]
    show _ = { s.captures with blocks := s.captures.blocks.set b (.filling r n) }
    rw [← hblock, Captures.set_own]

/-- What the event leaves of a capture that takes samples and is not complete with them, in either order. -/
theorem fillingEvent_left (count : Prop) [Decidable count] {words : List Code} (hfilling : s.captures.fillingOf d st = some b)
    (hblock : s.captures.block b = .filling r n) (hlater : Tick.later s.tick r.confirm = true)
    (hmark : (s.station d st).inFlight = true) (hn : 1 < n) :
    ((count ↔ qualifyingSet l ≠ [] ∧ (0 < dead ∨ Joint d st l s)) →
      (captureSamples d st words (judgeStation d st dead l s)).captures =
        s.captures.filled b ((r.counting count).taking words) (n - 1)) ∧
      ((count ↔ qualifyingSet l ≠ [] ∧ (0 < dead ∨ Joint d st l (captureSamples d st words s))) →
        (judgeStation d st dead l (captureSamples d st words s)).captures =
          s.captures.filled b ((r.counting count).taking words) (n - 1)) := by
  have hfill : (s.captures.block b).isFilling = true := by rw [hblock]; rfl
  have hset (x y : Block) : ({ s.captures with blocks := (s.captures.blocks.set b x).set b y } : Captures) =
      { s.captures with blocks := s.captures.blocks.set b y } := by rw [List.set_set]
  constructor
  · intro hcount
    have hcap := judgeStation_fills count hcount hfilling hblock hmark
    have htick := (judgeStation_within d st dead l s).fixed.tick_eq
    generalize judgeStation d st dead l s = w at *
    rw [captureSamples_fills (b := b) (r := r.counting count) (n := n) (by rw [hcap]; exact hfilling)
      (by rw [hcap]; exact Captures.block_set hfill) (by rw [htick]; exact hlater) hn]
    show w.captures.filled b ((r.counting count).taking words) (n - 1) = _
    rw [hcap]
    exact hset _ _
  · intro hcount
    rw [captureSamples_fills hfilling hblock hlater hn] at hcount ⊢
    rw [judgeStation_fills (s := s.setCaptures (s.captures.filled b (r.taking words) (n - 1))) (r := r.taking words) (n := n - 1) count
      hcount hfilling (Captures.block_set hfill) hmark]
    exact hset _ _

end

end Sys2Proof.Machine
end

