-- ==== Sys2Proof/Proofs/CaptureEvents.lean ====
section
/-! PROOFS. Captures are freed, laid out, started, filled and stored (R158 to R167). -/

namespace Sys2Proof.Machine

open Sys2Proof

/-! ### The requests (R166, R167) -/

theorem freeCapturesReply_passed {num : Byte} {oldest : Word16} {s : State} (hlow : 1 ≤ num.toNat)
    (hhigh : num.toNat ≤ s.captures.stored.length) (hoffered : s.captures.oldestSequence = some oldest) (hrun : s.isRunning = true) :
    freeCapturesReply num oldest s = accept (freeAnswer (freeCaptures num.toNat s)) (freeCaptures num.toNat s) := by
  unfold freeCapturesReply
  have hne : num ≠ 0 := fun e => by
    rw [e] at hlow
    exact absurd hlow (by decide)
  rw [if_neg (not_or.mpr ⟨hne, Nat.not_lt.mpr hhigh⟩), if_neg (not_not_intro hoffered), hrun]
  rfl

theorem freeCaptures_block (c : Captures) (n b : Nat) :
    ({ c with blocks := freed (c.stored.take n) c.blocks, stored := c.stored.drop n, lost := false } : Captures).block b =
      if b ∈ c.stored.take n then .free else c.block b := freed_getElem? _ _ b

theorem layoutOperand_byteOf (layout : Fin 3) : layoutOperand (byteOf layout.val) = some layout :=
  indexBelow_byteOf (by decide) layout

theorem setCaptureLayoutReply_passed {layout : Fin 3} {pre : Byte} {post : Word16} {s : State} (hkey : s.keyClosed = true)
    (hfits : layoutFits layout pre.toNat post.toNat = true) (hidle : ∀ x ∈ s.captures.blocks, x.isFilling = false)
    (hrun : s.isRunning = true) :
    let c := s.captures.emptied layout pre.toNat post.toNat
    setCaptureLayoutReply .sv (byteOf layout.val) pre post s =
      accept [] (offer (captureNotice 2 s.captures c) (s.setCaptures c)) := by
  intro c
  unfold setCaptureLayoutReply
  have hany : s.captures.blocks.any Block.isFilling = false := by
    rw [List.any_eq_false]
    exact fun x hx => by rw [hidle x hx]; exact Bool.false_ne_true
  rw [if_neg (not_not_intro rfl), hkey, layoutOperand_byteOf]
  dsimp only
  rw [hfits, hany, hrun, captureOffer_eq]
  rfl

/-! ### A station sample event at the store -/

section
variable {d st : Fin 4} {dead : Nat} {l : List (Fin 16 × Sampled)} {s : State} {b : Nat} {r : Capture} {words : List Code}

/-- What the completion of a capture leaves of the store, and its notice (R162, R164). -/
structure Completes (d st : Fin 4) (b : Nat) (r : Capture) (s t : State) : Prop where
  captures : t.captures = s.captures.completed d st b r
  mark : (t.station d st).inFlight = false
  told : s.captures.stored.length + 1 = min s.cfg.readyThreshold (blockCount s.captures.layout) →
    OffersThese [captureNotice 0 s.captures (s.captures.completed d st b r)] s t

theorem CaptureCompleted.completes {t : State} (h : CaptureCompleted d st b r s t) : Completes d st b r s t := by
  refine ⟨h.captures, ?_, fun hready => ?_⟩
  · rw [State.station, h.stations]
    exact congrArg Station.inFlight (Vector.getElem_set_self _)
  · have htold := h.told
    rw [if_pos hready, h.captures] at htold
    exact htold.offersThese (.refl _)

/-- The last sample taken after stage 5 (R162, R163). -/
theorem completes_after (count : Prop) [Decidable count] (hl : (l.map Prod.fst).Nodup)
    (hcount : count ↔ qualifyingSet l ≠ [] ∧ (0 < dead ∨ Joint d st l s)) (hfilling : s.captures.fillingOf d st = some b)
    (hblock : s.captures.block b = .filling r 1) (hlater : Tick.later s.tick r.confirm = true)
    (hmark : (s.station d st).inFlight = true) :
    Completes d st b ((r.counting count).taking words) s (captureSamples d st words (judgeStation d st dead l s)) := by
  have hfill : (s.captures.block b).isFilling = true := by rw [hblock]; rfl
  have hcap := judgeStation_fills count hcount hfilling hblock hmark
  have hfive := judgeStation_stageFive (d := d) (st := st) (dead := dead) hl s
  generalize judgeStation d st dead l s = w at *
  have hstep : captureSamples d st words w = completeCapture b ((r.counting count).taking words) d st w := by
    refine captureSamples_completes (n := 1) ?_ ?_ ?_ (Nat.le_refl 1)
    · rw [hcap]
      exact hfilling
    · rw [hcap]
      exact Captures.block_set hfill
    · rw [hfive.within.fixed.tick_eq]
      exact hlater
  have hcompleted : w.captures.completed d st b ((r.counting count).taking words) =
      s.captures.completed d st b ((r.counting count).taking words) := by
    rw [hcap]
    exact congrArg (fun bs => ({ s.captures with
      blocks := bs, filling := s.captures.filling.set (stationIx d st) none, stored := s.captures.stored ++ [b] } : Captures))
      (List.set_set ..)
  rw [hstep]
  have h := (completeCapture_left d st b ((r.counting count).taking words) w).completes
  refine ⟨h.captures.trans hcompleted, h.mark, fun hready => .before hfive.calm.tells ?_⟩
  have htold := h.told (by rw [hcap, hfive.within.fixed.cfg_eq]; exact hready)
  rw [hcompleted, hcap] at htold
  exact htold

/-- The last sample taken before stage 5 (R162). -/
theorem completes_before (hfilling : s.captures.fillingOf d st = some b) (hblock : s.captures.block b = .filling r 1)
    (hlater : Tick.later s.tick r.confirm = true) : Completes d st b (r.taking words) s (captureSamples d st words s) := by
  rw [captureSamples_completes hfilling hblock hlater (Nat.le_refl 1)]
  exact (completeCapture_left d st b (r.taking words) s).completes

/-- A confirmed detection at a station without a filling capture. -/
structure Confirms (c : Captures) (x : Detection) (s t : State) : Prop where
  skips : (∀ b ∈ c.blocks, b ≠ .free) → t.captures = { c with lost := true } ∧
    (c.lost = false → OffersThese [captureNotice 1 c t.captures] s t) ∧
    (t.station x.duct x.station).inFlight = (s.station x.duct x.station).inFlight
  starts : ∀ b, c.blocks[b]? = some .free → (∀ y ∈ c.blocks.take b, y ≠ .free) → CaptureStarts s c x.duct x.station x.origin b t

theorem confirmDetection_confirms {x : Detection} (hconfirm : x.confirm = s.tick)
    (hfilling : s.captures.fillingOf x.duct x.station = none) : Confirms s.captures x s (confirmDetection x s) :=
  ⟨confirmDetection_skips hfilling,
    fun _ hb hfirst => confirmDetection_starts hconfirm hfilling (Captures.lowestFree_at hb hfirst)⟩

/-- The samples of an event find no capture that is older than it, where stage 5 has found none. -/
theorem captureSamples_judged (hfilling : s.captures.fillingOf d st = none) :
    captureSamples d st words (judgeStation d st dead l s) = judgeStation d st dead l s := by
  have htick := (judgeStation_within d st dead l s).fixed.tick_eq
  by_cases h : qualifyingSet l ≠ [] ∧ dead = 0 ∧ Joint d st l s
  · obtain ⟨hset, rfl, hj⟩ := h
    have hconf : judgeStation d st 0 l s = _ := judgeStation_confirms hset hj
    rw [hconf] at htick ⊢
    have hskips := confirmDetection_skips (x := detectionAt d st l s) hfilling
    have hstarts {b : Nat} := confirmDetection_starts (x := detectionAt d st l s) (b := b) rfl hfilling
    generalize confirmDetection (detectionAt d st l s) s = t at *
    cases hfree : s.captures.lowestFree with
    | none =>
      refine captureSamples_none ?_
      rw [(hskips fun b hb e => ?_).1]
      · exact hfilling
      · rw [Captures.lowestFree, List.findIdx?_eq_none_iff] at hfree
        exact absurd (hfree b hb) (by rw [e]; decide)
    | some b =>
      have hb := Captures.lowestFree_free hfree
      obtain ⟨r, hr, hcap, -, -, -, -, -, hconfirm, -⟩ := hstarts hfree
      refine captureSamples_early (b := b) (r := r) (n := s.captures.post) ?_ ?_ ?_
      · rw [hcap]
        exact Vector.getElem_set_self _
      · rw [hcap]
        exact (Captures.setBlock_block s.captures b _ b hb.1).trans (if_pos rfl)
      · rw [hconfirm, htick]
        exact later_self _
  · refine captureSamples_none ?_
    rw [(judgeStation_idle hfilling h).1]
    exact hfilling

end

end Sys2Proof.Machine
end

