-- ==== Sys2Proof/Proofs/CapturesByOrder.lean ====
section
/-! PROOFS. The Capture Store through requests and station sample events (R158 to R167). -/

namespace Sys2Proof.Machine

open Sys2Proof

/-- Stages 1 to 4 of a station sample event have led from `s` to `v`: what stage 5 finds. -/
structure Underway (d st : Fin 4) (codes : Vector Code 4) (s v : State) : Prop where
  tells : Tells s v
  cfg : v.cfg = s.cfg
  tracks : (v.duct d).tracks = (s.duct d).tracks
  vel : (v.duct d).vel = (s.duct d).vel
  runStart : ∀ c ∈ qualifyingNow s d st codes, (v.channel c).runStart = startAfter s.tick (s.channel c)

section
variable {d st : Fin 4} {codes : Vector Code 4} {s u v t : State}

theorem StationTaken.underway (h : StationTaken d st (stationSamples s d st codes) s u) (hlimit : 0 < (s.ductCfg d).base.stuckLimit)
    (hb : BoundsOk s) : Underway d st codes s u := by
  refine ⟨⟨h.within.fixed.tick_eq, _, h.told⟩, h.within.fixed.cfg_eq, ?_, h.spoilt.air hb, fun c hc => ?_⟩
  · rw [h.spoilt.rest]
  · rw [← qualifyingSet_now hlimit, qualifyingSet, List.mem_map] at hc
    obtain ⟨⟨q, r⟩, hq, rfl⟩ := hc
    obtain ⟨hmem, hqualified⟩ := List.mem_filter.mp hq
    obtain ⟨⟨a, code⟩, ha, he⟩ := List.mem_map.mp hmem
    obtain ⟨rfl, rfl⟩ := Prod.mk.inj he
    rw [h.channel _ hmem]
    exact qualified_runStart hlimit hqualified

theorem Underway.of_took {x : Sampler} (h : Underway d st codes (s.tookSample x) v) : Underway d st codes s v :=
  ⟨h.tells, h.cfg, h.tracks, h.vel, h.runStart⟩

theorem Underway.sampled (h : Underway d st codes s u) (k : SamplesKept d st u v) (ht : Tells u v) : Underway d st codes s v := by
  have hd : v.duct d = u.duct d := State.duct_eq_of_ducts k.ducts d
  refine ⟨h.tells.trans ht, ?_, by rw [hd, h.tracks], by rw [hd, h.vel], fun c hc => ?_⟩
  · rw [k.rest]
    exact h.cfg
  · rw [← h.runStart c hc, State.channel, k.channels]
    rfl

/-- A confirmed detection at a station without a filling capture, told of the state before the event. -/
structure ConfirmedFrom (d st : Fin 4) (codes : Vector Code 4) (c : Captures) (s v t : State) : Prop where
  skips : (∀ b ∈ c.blocks, b ≠ .free) → t.captures = { c with lost := true } ∧
    (c.lost = false → OffersThese [captureNotice 1 c t.captures] s t) ∧ (t.station d st).inFlight = (v.station d st).inFlight
  starts : ∀ o b, IsOrigin s d st codes o → c.blocks[b]? = some .free → (∀ y ∈ c.blocks.take b, y ≠ .free) →
    CaptureStarts s c d st o b t

theorem Underway.confirmed (h : Underway d st codes s v) {l : List (Fin 16 × Sampled)}
    (hset : qualifyingSet l = qualifyingNow s d st codes) (hne : qualifyingSet l ≠ [])
    (hj : Joint d st l v) (hfilling : v.captures.fillingOf d st = none) :
    ConfirmedFrom d st codes v.captures s v (judgeStation d st 0 l v) := by
  rw [judgeStation_confirms hne hj]
  have hconf := confirmDetection_confirms (x := detectionAt d st l v) rfl hfilling
  refine ⟨fun hfull => ?_, fun o b horigin hb hfirst => ?_⟩
  · obtain ⟨hcap, htold, hmark⟩ := hconf.skips hfull
    exact ⟨hcap, fun hlost => .before h.tells (htold hlost), hmark⟩
  · have ho : (detectionAt d st l v).origin = o := by
      show earliestStart v (qualifyingSet l) = o
      rw [hset]
      exact earliestStart_eq horigin h.runStart
    exact ho ▸ (hconf.starts b hb hfirst).of h.cfg h.tells.1 h.tracks h.vel

end

/-- A capture that takes its last sample takes it before or after stage 5 counts into it (R162, R163). -/
def Capture.last (first : Bool) (count : Prop) [Decidable count] (words : List Code) (r : Capture) : Capture :=
  (if first then r else r.counting count).taking words

/-- The event at the Capture Store, from what stages 1 to 4 have left, by the coincidence of the station. -/
theorem stationEvent_store {d st : Fin 4} {codes : Vector Code 4} {first : Bool} {s u t : State} {l : List (Fin 16 × Sampled)}
    {words : List Code} {dead : Nat} (coincides : Prop) [Decidable coincides] (hl : (l.map Prod.fst).Nodup)
    (hu : Underway d st codes s u) (hset : qualifyingSet l = qualifyingNow s d st codes)
    (hmark : (u.station d st).inFlight = (u.captures.fillingOf d st).isSome) (hjoint : Joint d st l u ↔ coincides)
    (ht : t = if first then judgeStation d st dead l (captureSamples d st words u)
      else captureSamples d st words (judgeStation d st dead l u)) :
    let c := u.captures
    let set := qualifyingNow s d st codes
    let confirmed := set ≠ [] ∧ dead = 0 ∧ coincides
    (c.fillingOf d st = none → ¬confirmed → t.captures = c) ∧
      (c.fillingOf d st = none → confirmed → ConfirmedFrom d st codes c s u t) ∧
      ∀ b r n, c.fillingOf d st = some b → c.block b = .filling r n → Tick.later s.tick r.confirm = true →
        let count := set ≠ [] ∧ (0 < dead ∨ coincides)
        let complete := c.completed d st b (r.last first count words)
        (1 < n → t.captures = c.filled b ((r.counting count).taking words) (n - 1)) ∧
        (n = 1 →
          (c.stored.length + 1 = min s.cfg.readyThreshold (blockCount c.layout) → OffersThese [captureNotice 0 c complete] s t) ∧
          (¬(first = true ∧ confirmed) → t.captures = complete ∧ (t.station d st).inFlight = false) ∧
          (first = true → confirmed → ∃ v, (v.station d st).inFlight = false ∧ ConfirmedFrom d st codes complete s v t)) := by
  intro c set confirmed
  have hcalm := captureSamples_calm d st words u
  have hcount : activeCount (captureSamples d st words u) d st = activeCount u d st :=
    (captureSamples_stageFive d st words (qualifyingSet l) u).activeCount d st
  have hjointV : Joint d st l (captureSamples d st words u) ↔ coincides := by
    rw [← hjoint, Joint, Joint, hcount, State.ductCfg, State.ductCfg, (captureSamples_within d st words u).fixed.cfg_eq]
  have hconfirmed : confirmed ↔ qualifyingSet l ≠ [] ∧ dead = 0 ∧ Joint d st l u := by rw [hset, hjoint]
  have hnone (h : c.fillingOf d st = none) : t = judgeStation d st dead l u := by
    rw [ht, captureSamples_none h, captureSamples_judged h, ite_self]
  refine ⟨fun h hno => ?_, fun h hyes => ?_, fun b r n hfilling hblock hlater => ?_⟩
  · rw [hnone h]
    exact (judgeStation_idle h fun e => hno (hconfirmed.mpr e)).1
  · obtain ⟨hne, hdead, hj⟩ := hconfirmed.mp hyes
    rw [hnone h, hdead]
    exact hu.confirmed hset hne hj h
  intro count complete
  have hmarked : (u.station d st).inFlight = true := by
    rw [hmark, show u.captures.fillingOf d st = some b from hfilling]
    rfl
  have hlaterU : Tick.later u.tick r.confirm = true := by
    rw [hu.tells.1]
    exact hlater
  have hcountU : count ↔ qualifyingSet l ≠ [] ∧ (0 < dead ∨ Joint d st l u) := by rw [hset, hjoint]
  have hcountV : count ↔ qualifyingSet l ≠ [] ∧ (0 < dead ∨ Joint d st l (captureSamples d st words u)) := by rw [hset, hjointV]
  have hready (hn : c.stored.length + 1 = min s.cfg.readyThreshold (blockCount c.layout)) :
      u.captures.stored.length + 1 = min u.cfg.readyThreshold (blockCount u.captures.layout) := by
    rw [hu.cfg]
    exact hn
  rw [ht]
  refine ⟨fun hn => ?_, fun hn => ?_⟩
  · have h := fillingEvent_left (dead := dead) (l := l) (words := words) count hfilling hblock hlaterU hmarked hn
    cases first
    · exact h.1 hcountU
    · exact h.2 hcountV
  subst hn
  cases first
  · have h := completes_after (words := words) count hl hcountU hfilling hblock hlaterU hmarked
    exact ⟨fun hn => .before hu.tells (h.told (hready hn)), fun _ => ⟨h.captures, h.mark⟩, nofun⟩
  · have h := completes_before (words := words) hfilling hblock hlaterU
    have hfive := judgeStation_stageFive (d := d) (st := st) (dead := dead) hl (captureSamples d st words u)
    have hunder := hu.sampled (captureSamples_kept d st words u) hcalm.tells
    have hempty : (captureSamples d st words u).captures.fillingOf d st = none := by
      rw [h.captures]
      exact Vector.getElem_set_self _
    refine ⟨fun hn => .before hu.tells ((h.told (hready hn)).more hcalm.tells.1 hfive.calm.tells), fun hno => ?_, fun _ hyes => ?_⟩
    · have hidle := judgeStation_idle (l := l) (dead := dead) hempty fun e =>
        hno ⟨rfl, fun h => e.1 (hset.trans h), e.2.1, hjointV.mp e.2.2⟩
      exact ⟨hidle.1.trans h.captures, hidle.2.trans h.mark⟩
    · obtain ⟨hne, rfl, hc⟩ := hyes
      have := hunder.confirmed hset (hset ▸ hne) (hjointV.mpr hc) hempty
      rw [h.captures] at this
      exact ⟨_, h.mark, this⟩

/-- A block that is not FREE, replaced by one that is not, leaves the FREE blocks as they were. -/
theorem set_not_free {l : List Block} {b : Nat} {x : Block} (hx : x ≠ .free) :
    ((∀ y ∈ l, y ≠ .free) → ∀ y ∈ l.set b x, y ≠ .free) ∧
      (∀ e, (∀ y ∈ l.take e, y ≠ .free) → ∀ y ∈ (l.set b x).take e, y ≠ .free) := by
  have hset {k : List Block} (hk : ∀ y ∈ k, y ≠ .free) : ∀ y ∈ k.set b x, y ≠ .free := fun y hy =>
    (List.mem_or_eq_of_mem_set hy).elim (hk y) fun e => e ▸ hx
  exact ⟨hset, fun e h => by rw [List.take_set]; exact hset h⟩

/-- The channels left ACTIVE by stages 1 to 4 are those of the event's end. -/
theorem stationEvent_activeCount (d st : Fin 4) (codes : Vector Code 4) (first : Bool) (s : State) :
    activeCount (stationEvent d st codes first s) d st = activeCount (stationTaken d st (stationSamples s d st codes) s) d st := by
  have hl := stationSamples_nodup s d st codes
  rw [stationEvent_eq]
  dsimp only
  generalize stationTaken d st (stationSamples s d st codes) s = u
  have hcapture (v : State) : activeCount (captureSamples d st ((stationCodes s d st codes).map Prod.snd) v) d st = activeCount v d st :=
    (captureSamples_stageFive d st _ [] v).activeCount d st
  have hjudge (v : State) : activeCount (judgeStation d st (s.station d st).dead (stationSamples s d st codes) v) d st =
      activeCount v d st :=
    (judgeStation_stageFive hl v).activeCount d st
  cases first
  · exact (hcapture _).trans (hjudge u)
  · exact (hjudge _).trans (hcapture u)

/-- Settles O58: each request's own block, and the event's two orders of samples and stage 5. -/
theorem capturesAreFreedAndLaidOut : Obligations.CapturesAreFreedAndLaidOut := by
  intro p n num oldest layout pre post b s d st codes first o hport hrun hok c
  refine ⟨fun hlow hhigh hoffered => ?_, fun hp hkey hpre hlo hhi hfit hidle => ?_, fun hdue hlimit hbounds => ?_⟩
  · have hblock := freeCaptures_block c num.toNat b
    have hexec : exec (.freeCaptures p n num oldest) s =
        .next (issue p ⟨codeFreeCaptures, n, .ok, freeAnswer (freeCaptures num.toNat (frameTaken p s))⟩
        (freeCaptures num.toNat (frameTaken p s))) :=
      serve_accepts hport codeFreeCaptures n (freeCapturesReply_passed (s := frameTaken p s) hlow hhigh hoffered hrun)
    refine ⟨_, hexec, ?_, rfl, fun hb => ?_, fun hb => ?_⟩
    · exact issue_frameTaken p _ { s with captures := (freeCaptures num.toNat s).captures }
    · exact hblock.trans (if_pos hb)
    · exact hblock.trans (if_neg hb)
  · subst hp
    have hreply := setCaptureLayoutReply_passed (s := frameTaken .sv s) (pre := pre) (post := post) (layout := layout) hkey
      (by simp [layoutFits, hpre, hlo, hhi, hfit]) hidle hrun
    have hexec := serve_accepts hport codeSetCaptureLayout n hreply
    have hoffer := offer_within (captureNotice 2 s.captures (s.captures.emptied layout pre.toNat post.toNat))
      ((frameTaken .sv s).setCaptures (s.captures.emptied layout pre.toNat post.toNat))
    have htold : Told _ (frameTaken .sv s) _ := .after rfl rfl (offer_told
      (captureNotice 2 s.captures (s.captures.emptied layout pre.toNat post.toNat))
      ((frameTaken .sv s).setCaptures (s.captures.emptied layout pre.toNat post.toNat)))
    refine ⟨_, hexec, KeepsLinks.answers hoffer.links _, hoffer.captures rfl, ?_, hoffer.fixed, hoffer.zones rfl, hoffer.inputs rfl,
      hoffer.channels rfl, hoffer.stations rfl, hoffer.ducts rfl, hoffer.doors rfl, hoffer.arbiter rfl⟩
    exact (htold.answered _).offersAll
  · intro set dead confirmed
    have hup : s.resetLow = false := hport.1
    have hexec : exec (.stationSampleEvent d st codes first) s = .next (stationEvent d st codes first (s.tookSample (.station d st))) :=
      (live_up s _ hup).trans (congrArg Host.Outcome.next (sampling_due (x := .station d st) hdue _))
    refine ⟨_, hexec, ?_⟩
    have hl := stationSamples_nodup (s.tookSample (.station d st)) d st codes
    have htaken := stationTaken_left (d := d) (st := st) hl (s.tookSample (.station d st))
    have hunder := (htaken.underway hlimit hbounds).of_took
    have heq := stationEvent_eq d st codes first (s.tookSample (.station d st))
    dsimp only at heq
    rw [stationCodes, zip_snd] at heq
    have hcount := stationEvent_activeCount d st codes first (s.tookSample (.station d st))
    have hset : qualifyingSet (stationSamples (s.tookSample (.station d st)) d st codes) = set :=
      qualifyingSet_now (s := s.tookSample (.station d st)) hlimit st codes
    have hjoint := joint_iff (s := s.tookSample (.station d st)) hlimit codes htaken.within.fixed.cfg_eq hcount
    generalize stationEvent d st codes first (s.tookSample (.station d st)) = t at *
    have hcaptures := htaken.within.captures rfl
    have hstations := htaken.stations
    generalize stationTaken d st (stationSamples (s.tookSample (.station d st)) d st codes) (s.tookSample (.station d st)) = u at *
    have hagree := (capturesOk_iff s).mp hok
    have hmark : (u.station d st).inFlight = (u.captures.fillingOf d st).isSome := by
      rw [hcaptures, State.station, hstations]
      exact (congrArg Station.inFlight (Vector.getElem_set_self (stationIx d st).isLt)).trans (hagree.marks (stationIx d st))
    have hstore := stationEvent_store (dead := dead) (words := codes.toList.take (stationChannels s.cfg d st).length)
      (Coincides s d st codes t) hl hunder hset hmark hjoint heq
    dsimp only at hstore
    rw [show u.captures = c from hcaptures] at hstore
    obtain ⟨hidle, hconfirmed, hfilling⟩ := hstore
    refine ⟨hidle, fun hnone hyes hfull => ?_, fun hnone hyes horigin hb hfirst => ?_, fun hb r hr hlater => ?_⟩
    · have h := (hconfirmed hnone hyes).skips hfull
      exact ⟨h.1, h.2.1⟩
    · exact (hconfirmed hnone hyes).starts o b horigin hb hfirst
    intro extra words complete
    have hlast : c.completed d st b (r.last first (qualifyingNow s d st codes ≠ [] ∧ (0 < dead ∨ Coincides s d st codes t))
        (codes.toList.take (stationChannels s.cfg d st).length)) = complete (if first then r.extra else extra) := by
      cases first <;> rfl
    refine ⟨fun left hblock hleft => ?_, fun hblock hready => ?_, fun hblock hno => ?_, fun hblock hfirst hyes => ?_⟩
    · exact (hfilling b r left.val hb hblock hlater).1 hleft
    all_goals
      obtain ⟨htold, hplain, htwice⟩ := (hfilling b r 1 hb hblock hlater).2 rfl
      rw [show c.completed d st b _ = _ from hlast] at htold hplain htwice
    · exact htold hready
    · exact hplain hno
    · obtain ⟨v, hv, hconf⟩ := htwice hfirst hyes
      subst hfirst
      have hfree := set_not_free (l := c.blocks) (b := b) (x := .stored { r with words := words, extra := r.extra }) nofun
      refine ⟨fun hfull => ?_, fun e horigin he hbelow => ?_⟩
      · obtain ⟨hlost, htold, hstays⟩ := hconf.skips (hfree.1 hfull)
        exact ⟨hlost, hstays.trans hv, htold⟩
      · have hne : b ≠ e.val := fun h => by
          rw [Captures.block, h, he] at hblock
          exact nomatch hblock
        exact hconf.starts o e.val horigin ((List.getElem?_set_ne hne).trans he) (hfree.2 e.val hbelow)

end Sys2Proof.Machine
end

