-- ==== Sys2Proof/Proofs/NewTracks.lean ====
section
/-! PROOFS. A new track: its entries by the duct's bounds, its id, and its place in the list (R51 to R60, R62, R70, R79). -/

namespace Sys2Proof.Machine

open Sys2Proof

/-! ### The entries (R51 to R56, R62, R70) -/

theorem retirementTick_eq (confirm : Tick) (valves : List ValveEntry) (gate : Option GateEntry) (stations : List StationEntry) :
    retirementTick confirm valves gate stations = (valves.map ValveEntry.closeTick ++ gate.toList.map (fun g => g.deadline.plus 1) ++
      stations.map (fun e => e.winEnd.plus 16)).foldl laterTick (confirm.plus 1) := by
  rw [List.foldl_append, List.foldl_append, List.foldl_map, List.foldl_map, List.foldl_map]
  cases gate <;> rfl

theorem judgeQuenched_iff (valves : Vector Valve 2) (y : Track) :
    judgeQuenched valves y = true ↔ ∃ e ∈ y.valves, e.late = false ∧
      ¬(valves[e.valve].state = .fault ∧ Tick.later e.closeTick valves[e.valve].openTick = true) := by
  simp only [judgeQuenched, entryFails, List.any_eq_true, Bool.not_eq_true', Bool.or_eq_false_iff, Bool.and_eq_false_iff,
    decide_eq_false_iff_not, not_and, Bool.not_eq_true, imp_iff_not_or]

/-- The track of an unmatched detection, judged (R59, R64, R79). -/
def judgedTrack (s : State) (id : Byte) (x : Detection) : Track :=
  let y := newTrack s.cfg (s.duct x.duct).vel.bounds id x
  { y with quenched := judgeQuenched (s.duct x.duct).valves y }

theorem judgedTrack_new {s : State} {d : Fin 4} (hb : BoundsOk s) (id : Byte) (x : Detection) (hx : x.duct = d)
    (hconfirm : x.confirm = s.tick) (capture : Option Word16) :
    NewTrackOf s d x.station x.origin { judgedTrack s id x with capture := capture } := by
  subst hx
  have hbounds : (s.duct x.duct).vel.bounds = boundsFor (s.ductCfg x.duct) (s.duct x.duct).vel.state (s.duct x.duct).vel.value
      (s.ctl x.duct).state := (boundsOk_iff s).mp hb x.duct
  have hhi (n : Nat) : arrivalBy n (s.duct x.duct).vel.bounds.pHi = arrival n (s.duct x.duct).vel.bounds.vHi := by
    rw [hbounds]
    rfl
  have hlo (n : Nat) : arrivalBy n (s.duct x.duct).vel.bounds.pLo = arrival n (s.duct x.duct).vel.bounds.vLo := by
    rw [hbounds]
    rfl
  refine ⟨rfl, rfl, hconfirm, rfl, rfl, rfl, rfl, ?_, ?_, ?_, ?_, judgeQuenched_iff _ _⟩
  · refine List.filterMap_congr fun v _ => ?_
    unfold valveEntry
    rw [hhi, hlo, hconfirm]
    rfl
  · show gateEntry _ _ _ _ = _
    unfold gateEntry
    rw [hhi]
    rfl
  · refine List.filterMap_congr fun q _ => ?_
    unfold stationEntry
    rw [hhi, hlo]
    rfl
  · rw [← hconfirm]
    exact retirementTick_eq ..

/-! ### The id (R60) -/

/-- The search stops at the first id that no track holds. -/
theorem freshId_first (l : List Track) (fuel : Nat) (next : Byte) :
    ∃ n, freshId l fuel next = next + BitVec.ofNat 8 n ∧ ∀ m < n, ∃ u ∈ l, u.id = next + BitVec.ofNat 8 m := by
  induction fuel generalizing next with
  | zero => exact ⟨0, (BitVec.add_zero next).symm, fun m h => absurd h (Nat.not_lt_zero m)⟩
  | succ fuel ih =>
    unfold freshId
    split
    · rename_i htaken
      obtain ⟨u, hu, hid⟩ := List.any_eq_true.mp htaken
      obtain ⟨n, hn, hbelow⟩ := ih (next + 1)
      have hstep (m : Nat) : next + 1 + BitVec.ofNat 8 m = next + BitVec.ofNat 8 (m + 1) := by
        rw [BitVec.add_assoc, BitVec.add_comm 1]
        exact congrArg (next + ·) (BitVec.ofNat_add m 1).symm
      refine ⟨n + 1, hn.trans (hstep n), fun m hm => ?_⟩
      cases m with
      | zero => exact ⟨u, hu, (of_decide_eq_true hid).trans (BitVec.add_zero next).symm⟩
      | succ m =>
        obtain ⟨w, hw, hwid⟩ := hbelow m (by omega)
        exact ⟨w, hw, hwid.trans (hstep m)⟩
    · exact ⟨0, (BitVec.add_zero next).symm, fun m h => absurd h (Nat.not_lt_zero m)⟩

/-- A list of fewer than 8 tracks leaves one of the 8 ids from the next-id count on free. -/
theorem freshId_of {l : List Track} (hl : l.length < 8) (next : Byte) : FreshId next l (freshId l 256 next) := by
  obtain ⟨n, hn, hbelow⟩ := freshId_first l 256 next
  have hfresh := freshId_fresh l next (by omega)
  have hn8 : n < 8 := by
    by_contra hge
    have hsub : (List.range 8).map (fun m => next + BitVec.ofNat 8 m) ⊆ l.map Track.id := by
      intro b hb
      obtain ⟨m, hm, rfl⟩ := List.mem_map.mp hb
      obtain ⟨u, hu, hid⟩ := hbelow m (by have := List.mem_range.mp hm; omega)
      exact List.mem_map.mpr ⟨u, hu, hid⟩
    have hnodup : ((List.range 8).map (fun m => next + BitVec.ofNat 8 m)).Nodup := by
      refine List.Nodup.map_on (fun a ha b hb h => ?_) List.nodup_range
      have ha := List.mem_range.mp ha
      have hb := List.mem_range.mp hb
      have := congrArg BitVec.toNat (BitVec.add_right_inj next |>.mp h)
      simp only [BitVec.toNat_ofNat] at this
      omega
    have hlen := (List.subperm_of_subset hnodup hsub).length_le
    simp at hlen
    omega
  exact ⟨fun u hu e => hfresh (List.mem_map.mpr ⟨u, hu, e⟩), ⟨n, hn8⟩, hn, fun m hm => hbelow m.val hm⟩

/-! ### The place (R58) -/

theorem insertTrack_at (y : Track) (l : List Track) :
    ∃ i ≤ l.length, insertTrack y l = l.take i ++ y :: l.drop i ∧ (∀ u ∈ l.take i, Tick.later u.origin y.origin = false) ∧
      ∀ u ∈ (l.drop i).head?, Tick.later u.origin y.origin = true := by
  induction l with
  | nil => exact ⟨0, Nat.le_refl 0, rfl, nofun, nofun⟩
  | cons x rest ih =>
    unfold insertTrack
    split
    · rename_i hx
      refine ⟨0, Nat.zero_le _, rfl, nofun, fun u hu => ?_⟩
      obtain rfl := Option.some.inj hu
      exact hx
    · rename_i hx
      obtain ⟨i, hi, heq, hbefore, hnext⟩ := ih
      refine ⟨i + 1, Nat.succ_le_succ hi, congrArg (x :: ·) heq, fun u hu => ?_, hnext⟩
      rcases List.mem_cons.mp hu with rfl | h
      · exact Bool.eq_false_iff.mpr hx
      · exact hbefore u h

end Sys2Proof.Machine
end

