-- ==== Sys2Proof/Proofs/NewTrackWater.lean ====
section
/-! PROOFS. What the Quench Unit makes of a new track and of a flood (R64, R75, R79, R81, R87). -/

namespace Sys2Proof.Machine

open Sys2Proof

/-! ### Some of the valves (R75, R76) -/

/-- From `s` to `t` some valves of a duct, without repeats, have been evaluated one after the other. -/
structure ValvesTaken (d : Fin 4) (m : List (Fin 2)) (s t : State) : Prop where
  turned : ∀ v ∈ m, (t.valve d v).output = s.wanted d v ∧ ValveTurned d v s t
  other : ∀ v, v ∉ m → t.valve d v = s.valve d v
  told : Told (m.flatMap (valveNotices s t d)) s t
  duct : t.duct d = { s.duct d with valves := (t.duct d).valves }
  falls : ∀ z k n, Raised t z k n → Raised s z k n
  others : ∀ z k n, ¬(z = ductZone d ∧ k = .valveFault ∧ ∃ v ∈ m, n = v.val) → (Raised t z k n ↔ Raised s z k n)

theorem evalSome_taken (d : Fin 4) {m : List (Fin 2)} (hm : m.Nodup) (s : State) :
    ValvesTaken d m s (m.foldl (fun s v => evalValve d v s) s) := by
  induction m generalizing s with
  | nil => exact ⟨nofun, fun _ _ => rfl, .refl s, rfl, fun _ _ _ => id, fun _ _ _ _ => .rfl⟩
  | cons v rest ih =>
    obtain ⟨hv, hrest⟩ := List.nodup_cons.mp hm
    have hset := evalValve_sets d v s
    have hlocal := evalValve_local d v s
    rw [List.foldl_cons]
    generalize evalValve d v s = u at *
    have h := ih hrest u
    generalize rest.foldl (fun s v => evalValve d v s) u = t at *
    have hfixed := hlocal.within.fixed
    have hne {w : Fin 2} (hw : w ∈ rest) : w ≠ v := fun e => hv (e ▸ hw)
    have hold {w : Fin 2} (hw : w ∈ rest) : u.valve d w = s.valve d w := hset.valve_ne (hne hw)
    have hnew := h.other v hv
    refine ⟨fun w hw => ?_, fun w hw => ?_, ?_, ?_, fun z k n hr => hset.raised z k n (h.falls z k n hr), fun z k n hn => ?_⟩
    · rcases List.mem_cons.mp hw with rfl | hw
      · exact ⟨(congrArg Valve.output hnew).trans hset.output, hset.turned.later hnew (h.falls _ _ _)⟩
      · obtain ⟨hout, hturned⟩ := h.turned w hw
        refine ⟨hout.trans ?_, hturned.earlier (hold hw) hfixed.cfg_eq hfixed.tick_eq (hlocal.hazards.zonesOk hlocal.nodup)⟩
        rw [Bool.eq_iff_iff, wanted_iff, wanted_iff]
        exact SprayDue.of_valves hfixed.cfg_eq hfixed.tick_eq hset.duct
    · rw [List.mem_cons, not_or] at hw
      exact (h.other w hw.2).trans (hset.valve_ne hw.1)
    · rw [List.flatMap_cons, valveNotices_congr (v := v) (s := s) (u := s) rfl hnew .rfl]
      rw [show rest.flatMap (valveNotices s t d) = rest.flatMap (valveNotices u t d) from List.flatMap_congr fun w hw =>
        (valveNotices_congr (hold hw) rfl (hset.others _ _ _ fun e => hne hw (Fin.ext e.2.2))).symm]
      exact hset.told.trans h.told hfixed.tick_eq
    · rw [h.duct, hset.duct]
    · refine (h.others z k n fun e => hn ?_).trans (hset.others z k n fun e => hn ?_)
      · obtain ⟨hz, hk, w, hw, hnw⟩ := e
        exact ⟨hz, hk, w, List.mem_cons_of_mem v hw, hnw⟩
      · exact ⟨e.1, e.2.1, v, List.mem_cons_self, e.2.2⟩

/-- The notices of the valves that were evaluated are those of both. -/
theorem ValvesTaken.both {d : Fin 4} {m : List (Fin 2)} {s t : State} (h : ValvesTaken d m s t) (hm : m.Sublist (List.finRange 2)) :
    m.flatMap (valveNotices s t d) = valveNotices s t d 0 ++ valveNotices s t d 1 := by
  have hnone {v : Fin 2} (hv : v ∉ m) : valveNotices s t d v = [] := by
    rw [valveNotices, if_pos (by rw [h.other v hv])]
  have hcases : m ∈ (List.finRange 2).sublists := List.mem_sublists.mpr hm
  have hlist : m = [] ∨ m = [0] ∨ m = [1] ∨ m = [0, 1] := by
    revert hcases
    generalize m = l
    revert l
    decide
  rcases hlist with rfl | rfl | rfl | rfl
  · rw [hnone (v := 0) (by decide), hnone (v := 1) (by decide)]
    rfl
  · rw [hnone (v := 1) (by decide), List.append_nil]
    exact List.flatMap_singleton ..
  · rw [hnone (v := 0) (by decide)]
    exact List.flatMap_singleton ..
  · rw [List.flatMap_cons, List.flatMap_singleton]

/-! ### A new track's water (R64, R75, R81) -/

/-- The valves for which a track has an entry. -/
def Track.entryValves (y : Track) : List (Fin 2) := y.valves.map ValveEntry.valve

theorem valveEntry_valve {c : ValveCfg} {v : Fin 2} {pos : Nat} {o now : Tick} {b : Bounds} {e : ValveEntry}
    (h : valveEntry c v pos o now b = some e) : e.valve = v := by
  unfold valveEntry at h
  split at h
  · obtain rfl := Option.some.inj h
    rfl
  · exact nomatch h

theorem newTrack_entryValves (c : Cfg) (b : Bounds) (id : Byte) (x : Detection) :
    (newTrack c b id x).entryValves.Sublist (List.finRange 2) := by
  have h (f : Fin 2 → Option ValveEntry) (hf : ∀ v e, f v = some e → e.valve = v) (l : List (Fin 2)) :
      ((l.filterMap f).map ValveEntry.valve).Sublist l := by
    induction l with
    | nil => exact .slnil
    | cons v rest ih =>
      rw [List.filterMap_cons]
      cases hv : f v with
      | none => exact ih.cons v
      | some e =>
        rw [List.map_cons, hf v e hv]
        exact ih.cons_cons v
  exact h _ (fun v e he => valveEntry_valve he) _

/-- What the Quench Unit leaves of a new track: the valves that it has an entry for, and its gate decision where it is UNQUENCHED. -/
structure TrackTaken (d : Fin 4) (y : Track) (s t : State) (causes : List StopCause) : Prop where
  valves : ∃ u, ValvesTaken d y.entryValves s u ∧ (∀ v, t.valve d v = u.valve d v) ∧
    (∀ z n, Raised t z .valveFault n ↔ Raised u z .valveFault n)
  told : Told (valveNotices s t d 0 ++ valveNotices s t d 1 ++ (if y.quenched then [] else decisionNotices s d (s.gate d) [y])) s t
  causes : causes = if y.quenched then [] else [gateResult (s.gateCfg d) (s.gate d) s.tick y.gate]
  gate : t.gate d = if y.quenched then s.gate d else gateAfter (s.gateCfg d) s.tick (s.gate d) y
  close : CloseTold d s t

theorem takeNewTrack_taken {d : Fin 4} {y : Track} (hy : y.entryValves.Sublist (List.finRange 2)) (s : State) :
    TrackTaken d y s (takeNewTrack d y s).2 (takeNewTrack d y s).1 := by
  have hvalves := evalSome_taken d (hy.nodup (List.nodup_finRange 2)) s
  have hfold : y.valves.foldl (fun s e => evalValve d e.valve s) s = y.entryValves.foldl (fun s v => evalValve d v s) s := by
    rw [Track.entryValves, List.foldl_map]
  have hwithin := (Local.foldl (fun s (e : ValveEntry) => evalValve d e.valve s) y.valves s fun t e => evalValve_local d e.valve t).within
  unfold takeNewTrack
  rw [hfold] at *
  dsimp only
  generalize y.entryValves.foldl (fun s v => evalValve d v s) s = u at *
  have hgate : u.gate d = s.gate d := by
    rw [State.gate, hvalves.duct]
    rfl
  have hclose : CloseTold d s u := .inl (hvalves.others _ _ _ fun e => nomatch e.2.1)
  have htold := hvalves.told
  rw [hvalves.both hy] at htold
  cases hq : y.quenched
  · have hcfg : u.gateCfg d = s.gateCfg d := by rw [State.gateCfg, State.gateCfg, State.ductCfg, State.ductCfg, hwithin.fixed.cfg_eq]
    obtain ⟨hcause, hdecided, hafter⟩ := gateDecision_left d y u
    have hclose' := gateDecision_closeTold y hclose hwithin.fixed.cfg_eq
    have hraised (z : Fin 16) (n : Nat) := gateDecision_raised d y (k := .valveFault) (by decide) u z n
    have hkeep := (gateDecision_local d y u).same .valves (by decide)
    rw [if_neg Bool.false_ne_true]
    generalize gateDecision d y u = r at *
    rw [hcfg, hwithin.fixed.tick_eq, hgate] at hcause hdecided hafter
    have hvalve (v : Fin 2) : r.2.valve d v = u.valve d v := valve_of_valves hkeep v
    refine ⟨⟨u, hvalves, hvalve, hraised⟩, ?_, by rw [hq, hcause]; rfl, by rw [hq]; exact hafter, hclose'⟩
    rw [hq, if_neg Bool.false_ne_true, valveNotices_congr (v := 0) (s := s) (t := u) rfl (hvalve 0) .rfl,
      valveNotices_congr (v := 1) (s := s) (t := u) rfl (hvalve 1) .rfl]
    have hnotices : closeNotices u d (s.gate d) = closeNotices s d (s.gate d) :=
      hgate ▸ hclose.notices hwithin.fixed.cfg_eq hwithin.fixed.tick_eq
    rw [hnotices] at hdecided
    rw [decisionNotices, decisionNotices, List.append_nil]
    exact htold.trans hdecided hwithin.fixed.tick_eq
  · rw [if_pos rfl]
    refine ⟨⟨u, hvalves, fun _ => rfl, fun _ _ => .rfl⟩, ?_, by rw [hq]; rfl, by rw [hq]; exact hgate, hclose⟩
    rw [hq, if_pos rfl, List.append_nil]
    exact htold

end Sys2Proof.Machine
end

