-- ==== Sys2Proof/Proofs/DetectionReports.lean ====
section
/-! PROOFS. What the Duct Controller makes of the report of a detection: the count, ALERT, and the stop (R97, R99, R100, R103, R104). -/

namespace Sys2Proof.Machine

open Sys2Proof

/-! ### The count (R99, R100) -/

theorem atShutdown_iff {s : State} {d : Fin 4} (hc : (s.ctl d).state.counts = true) :
    atShutdown (s.effective d) (countedCtl s.tick (s.effective d).window (s.ctl d)) = true ↔ RateReached s d := by
  unfold atShutdown RateReached countedCtl
  dsimp only
  rw [Bool.and_eq_true, decide_eq_true_iff, decide_eq_true_iff]
  exact (and_iff_right hc).symm

theorem counts_running {x : DuctState} (h : x.counts = true) : x.isRunning = true := by
  cases x
  all_goals first | rfl | exact nomatch h

theorem counts_not_waiting {c : Ctl} (h : c.state.counts = true) : c.fireStopping = false :=
  Bool.eq_false_iff.mpr fun hf => by
    rw [Ctl.fireStopping_state hf] at h
    exact nomatch h

/-- The record after a counted detection that stops nothing, the arming window spoiled (R97, R100). -/
def calmRecord (s : State) (d : Fin 4) : Ctl :=
  { counted s d (s.ctl d) with windowClean := (countedCtl s.tick (s.effective d).window (s.ctl d)).windowClean }

/-- The same by the record of steps 1 and 2. -/
theorem calmRecord_eq (s : State) (d : Fin 4) :
    let p := s.effective d
    let k := countedCtl s.tick p.window (s.ctl d)
    let quiet := some (s.after (secondsTicks (s.ductCfg d).quietTime))
    calmRecord s d = if k.state = .guarded ∧ p.alert ≠ 0 ∧ p.alert ≤ k.rateCount then { k with state := .alert, quiet := quiet }
      else if k.state = .alert then { k with quiet := quiet } else k := by
  intro p k quiet
  have h : calmRecord s d = { k with
      state := if k.state = .guarded ∧ p.alert ≠ 0 ∧ p.alert ≤ k.rateCount then .alert else k.state,
      quiet := if (k.state = .guarded ∧ p.alert ≠ 0 ∧ p.alert ≤ k.rateCount) ∨ k.state = .alert then quiet else k.quiet } := rfl
  rw [h]
  by_cases ha : k.state = .guarded ∧ p.alert ≠ 0 ∧ p.alert ≤ k.rateCount
  · rw [if_pos ha, if_pos ha, if_pos (.inl ha)]
  · rw [if_neg ha, if_neg ha, if_congr (or_iff_right ha) rfl rfl]
    split <;> rfl

section
variable {d : Fin 4} {causes : List StopCause} {s : State}

/-- What the count of a detection leaves of the causes, the record and the notices. -/
structure CountLeft (d : Fin 4) (causes : List StopCause) (s : State) (r : List StopCause × State) : Prop where
  stops : RateReached s d → r.1 = causes ++ [.sparkRate]
  keeps : ¬RateReached s d → r.1 = causes
  record : RateReached s d ∨ causes ≠ [] → r.2.ctl d = if (s.ctl d).state.counts then
    countedCtl s.tick (s.effective d).window (s.ctl d) else s.ctl d
  counts : (s.ctl d).state.counts = true → ¬RateReached s d → causes = [] → r.2.ctl d = calmRecord s d ∧
    Told (if (r.2.ctl d).state = (s.ctl d).state then [] else [stateNotice d (s.ctl d) (r.2.ctl d)]) s r.2
  rests : (s.ctl d).state.counts = false → r = (causes, s)

theorem countedCtl_clean (now : Tick) (n : Nat) (c : Ctl) : (countedCtl now n c).windowClean = (c.spoiled true).windowClean := by
  unfold countedCtl Ctl.spoiled
  by_cases h : c.state = .arming <;> simp [h]

theorem withOutputs_alerted {c k : Ctl} (hc : CtlOk c) {quiet : Option Tick} (h : c.state = .guarded) {n : Nat} {now : Tick}
    (hk : k = countedCtl now n c) : ({ k with state := .alert, quiet := quiet } : Ctl).withOutputs =
      { k with state := .alert, quiet := quiet } := by
  subst hk
  obtain ⟨hfeeder, hfan, -⟩ := hc
  cases c
  dsimp only at h hfeeder hfan
  subst h hfeeder hfan
  rfl

theorem countDetection_left (hout : CtlOk (s.ctl d)) : CountLeft d causes s (countDetection d causes s) := by
  by_cases hc : (s.ctl d).state.counts = true
  · have hreached := atShutdown_iff hc
    have hrecord : (countedCtl s.tick (s.effective d).window (s.ctl d)).withOutputs =
        countedCtl s.tick (s.effective d).window (s.ctl d) := withOutputs_same hout rfl rfl rfl rfl rfl
    have hclean := countedCtl_clean s.tick (s.effective d).window (s.ctl d)
    unfold countDetection
    rw [if_pos hc]
    extract_lets p k s1 quiet
    have hs1 : s1.ctl d = k := (s.setCtl_ctl_self d k).trans hrecord
    have hports : s1.ports = s.ports := rfl
    have htick : s1.tick = s.tick := rfl
    clear_value s1
    by_cases hrate : RateReached s d
    · rw [if_pos (hreached.mpr hrate)]
      exact ⟨fun _ => rfl, fun h => absurd hrate h, fun _ => hs1.trans (if_pos hc).symm, fun _ h => absurd hrate h,
        fun h => nomatch hc.symm.trans h⟩
    rw [if_neg (mt hreached.mp hrate)]
    by_cases hne : causes = []
    · subst hne
      rw [if_neg (by decide)]
      have hcalm := calmRecord_eq s d
      dsimp only at hcalm
      refine (fun h : _ ∧ _ ∧ _ => ⟨fun e => absurd e hrate, fun _ => h.1, fun e => (e.elim hrate (absurd rfl)).elim,
        fun _ _ _ => h.2, fun e => nomatch hc.symm.trans e⟩) ?_
      rw [hcalm]
      split
      · rename_i ha
        have hsame : (changeCtl d { k with state := .alert, quiet := quiet } s1).ctl d = { k with state := .alert, quiet := quiet } := by
          rw [changeCtl_ctl]
          exact withOutputs_alerted hout ha.1 rfl
        have hold : stateNotice d (s1.ctl d) { k with state := .alert, quiet := quiet } =
            stateNotice d (s.ctl d) { k with state := .alert, quiet := quiet } := by
          rw [hs1]
          rfl
        refine ⟨rfl, hsame, ?_⟩
        rw [hsame, if_neg (by rw [show (s.ctl d).state = .guarded from ha.1]; nofun), ← hold]
        exact .after hports htick (changeCtl_told d _ s1)
      · split
        · have hsame : (s1.setCtl d { k with quiet := quiet }).ctl d = { k with quiet := quiet } :=
            (s1.setCtl_ctl_self d _).trans (withOutputs_same hout rfl rfl rfl rfl rfl)
          refine ⟨rfl, hsame, ?_⟩
          rw [hsame, if_pos (by rfl)]
          exact .of_ports hports
        · refine ⟨rfl, hs1, ?_⟩
          rw [hs1, if_pos (by rfl)]
          exact .of_ports hports
    · rw [if_pos (by simpa using hne)]
      exact ⟨fun h => absurd h hrate, fun _ => rfl, fun _ => hs1.trans (if_pos hc).symm, fun _ _ h => absurd h hne,
        fun h => nomatch hc.symm.trans h⟩
  · have hrate : ¬RateReached s d := fun h => hc h.1
    unfold countDetection
    rw [if_neg hc]
    exact ⟨fun h => absurd h hrate, fun _ => rfl, fun _ => (if_neg hc).symm, fun h => absurd h hc, fun _ => rfl⟩

end

theorem countDetection_zones (d : Fin 4) (causes : List StopCause) (s : State) : (countDetection d causes s).2.zones = s.zones := by
  unfold countDetection
  split
  · dsimp only
    split
    · rfl
    · split
      · rfl
      · split
        · rfl
        · split <;> rfl
  · rfl

/-! ### The stop by the record before the count -/

/-- Two records that differ in the count alone. -/
def SameButCount (a b : Ctl) : Prop := a = { b with rate := a.rate, rateCount := a.rateCount } ∧ (b.state.isRunning = false → a = b)

theorem SameButCount.refl (a : Ctl) : SameButCount a a := ⟨rfl, fun _ => rfl⟩

/-- A stop ends the count (R103). -/
theorem FireStopped.counted {d : Fin 4} {cause : StopCause} {a b : Ctl} {s t : State} (h : FireStopped d cause a s t)
    (hab : SameButCount a b) : FireStopped d cause b s t := by
  obtain ⟨hsame, hrest⟩ := hab
  by_cases hrun : b.state.isRunning = true
  · obtain ⟨hshut, htold, hctl⟩ := h
    generalize a.rate = rate, a.rateCount = count at hsame
    subst hsame
    refine ⟨hshut, htold, ?_⟩
    rw [hctl, if_pos hrun, if_pos hrun]
  · rw [← hrest (Bool.eq_false_iff.mpr hrun)]
    exact h

/-! ### The report of a detection (R97, R99, R100, R103, R104) -/

/-- A stop cause that the Track Unit's outcome brings. -/
def OutcomeCause (c : StopCause) : Prop := c = .outrun ∨ c = .diverted ∨ c = .overflow

/-- The strongest cause of an event, SPARK_RATE with them or not (R103; Assumption 20). -/
theorem OutcomeCause.strongest {c : StopCause} (h : OutcomeCause c) (rate : List StopCause) (hr : rate = [] ∨ rate = [.sparkRate]) :
    c.kind = .fire ∧ strongest ([c] ++ rate) = some c ∧ strongest (([c] ++ rate).filter StopCause.takenStopping) = some c ∧
      ([c] ++ rate).filter (fun c => decide (c = .zoneFire)) = [] := by
  rcases h with rfl | rfl | rfl <;> rcases hr with rfl | rfl <;> decide

/-- The record as the event's reports left it, by the window-clean mark at the event's end. -/
def marked (c : Ctl) (d : Fin 4) (t : State) : Ctl := { c with windowClean := (t.ctl d).windowClean }

/-- What the report of a detection leaves at the Duct Controller: `k` is its record before the report, `g` the gate. -/
structure DetectionReported (d : Fin 4) (causes : List StopCause) (s x t : State) : Prop where
  stops : ∀ c ∈ causes, TakesFireStop (x.ctl d) → FireStopped d c (marked (x.ctl d) d t) s t
  rate : causes = [] → RateReached x d → FireStopped d .sparkRate (marked (x.ctl d) d t) s t
  counts : causes = [] → (x.ctl d).state.counts = true → ¬RateReached x d →
    t.ctl d = counted x d (marked (x.ctl d) d t) ∧ t.gate d = x.gate d ∧
      ((t.ctl d).state ≠ (x.ctl d).state → OffersThese [stateNotice d (x.ctl d) (t.ctl d)] s t)
  goes : (x.ctl d).fireStopping = true →
    FireStopGoes d causes.head? (marked (x.ctl d) d t) s t ∧ t.gate d = x.gate d
  rests : (x.ctl d).state = .offline ∨ (x.ctl d).state = .stopped ∨
      causes = [] ∧ (x.ctl d).state.counts = false ∧ (x.ctl d).fireStopping = false →
    t.ctl d = marked (x.ctl d) d t ∧ t.gate d = x.gate d

theorem detection_reported {d : Fin 4} {l : List Track} {causes : List StopCause} {s x : State} (hok : ZonesOk x)
    (hout : DuctOutputsOk (x.duct d)) (hcfg : x.cfg = s.cfg) (htick : x.tick = s.tick) (hclose : CloseTold d s x)
    (hgate : x.gate d = l.foldl (gateAfter (s.gateCfg d) s.tick) (s.gate d))
    (htold : OffersThese (decisionNotices s d (s.gate d) l) s x) (hcauses : causes = [] ∨ ∃ c, OutcomeCause c ∧ causes = [c]) :
    let q := countDetection d causes x
    DetectionReported d causes s x (dcEvent d q.1 q.2) ∧ ∀ y ∈ l, y.gate.isSome = true → GateShut d s (dcEvent d q.1 q.2) := by
  intro q
  have hcount : CountLeft d causes x q := countDetection_left hout.1
  have hlocal := countDetection_local d causes x
  have hcalm := countDetection_calm d causes x
  have hzones : q.2.zones = x.zones := countDetection_zones d causes x
  change Local _ d x q.2 at hlocal
  change Calm x q.2 at hcalm
  clear_value q
  have hgateQ : q.2.gate d = x.gate d := hlocal.same .gate (by simp)
  obtain ⟨rate, hrate, hq⟩ : ∃ rate, (rate = [] ∨ rate = [.sparkRate]) ∧ q.1 = causes ++ rate := by
    by_cases h : RateReached x d
    · exact ⟨_, .inr rfl, hcount.stops h⟩
    · exact ⟨[], .inl rfl, (hcount.keeps h).trans (List.append_nil causes).symm⟩
  have hresting : q.1.filter (fun c => decide (c = .zoneFire)) = [] := by
    rw [hq]
    rcases hcauses with rfl | ⟨c, hc, rfl⟩
    · rcases hrate with rfl | rfl <;> rfl
    · exact (hc.strongest rate hrate).2.2.2
  have hcloseQ : CloseTold d s q.2 := hclose.imp (raised_of_zones hzones _ _ _).trans (hgateQ ▸ id)
  have htaken := dcEvent_causes (d := d) (l := l) (causes := q.1) (s := s) (u := q.2) (hlocal.hazards.zonesOk hlocal.nodup hok)
    (hlocal.outputs hout).1 (hlocal.within.fixed.cfg_eq.trans hcfg) (hcalm.tells.1.trans htick) hcloseQ (hgateQ.trans hgate)
    (htold.more htick hcalm.tells) hresting
  have hclean : ((dcEvent d q.1 q.2).ctl d).windowClean = (q.2.ctl d).windowClean := dcEvent_clean d q.1 q.2 d
  have htells : Tells q.2 (dcEvent d q.1 q.2) := (dcEvent_kept d q.1 q.2).tells
  generalize dcEvent d q.1 q.2 = t at *
  have hidle (h : (x.ctl d).state.counts = false) : q = (causes, x) ∧ marked (x.ctl d) d t = x.ctl d := by
    have hrests := hcount.rests h
    rw [hrests] at hclean
    exact ⟨hrests, by rw [marked, hclean]⟩
  have hsame (h : RateReached x d ∨ causes ≠ []) : SameButCount (q.2.ctl d) (marked (x.ctl d) d t) := by
    by_cases hc : (x.ctl d).state.counts = true
    · have hrecord := (hcount.record h).trans (if_pos hc)
      rw [hrecord] at hclean ⊢
      rw [marked, hclean]
      exact ⟨rfl, fun hr => nomatch hr.symm.trans (counts_running hc)⟩
    · obtain ⟨hrests, hmarked⟩ := hidle (Bool.eq_false_iff.mpr hc)
      rw [hrests, hmarked]
      exact .refl _
  have hwaits (h : (x.ctl d).fireStopping = true) : (x.ctl d).state.counts = false := by
    rw [Ctl.fireStopping_state h]
    rfl
  refine ⟨⟨fun c hc htakes => ?_, fun hnone hreach => ?_, fun hnone hcounts hrate => ?_, fun hf => ?_, fun hs => ?_⟩, htaken.shuts⟩
  · obtain ⟨c, hout, rfl⟩ := hcauses.resolve_left fun e => by rw [e] at hc; exact nomatch hc
    obtain rfl := List.mem_singleton.mp hc
    obtain ⟨hkind, hwhole, hstopping, -⟩ := hout.strongest rate hrate
    rw [← hq] at hwhole hstopping
    have hab := hsame (.inr (by simp))
    refine (htaken.stops _ hkind hwhole (.inr hstopping) ?_).counted hab
    rw [hab.1]
    exact htakes
  · subst hnone
    have hq1 : q.1 = [.sparkRate] := hcount.stops hreach
    have hrun : (q.2.ctl d).state.isRunning = true := by
      rw [(hsame (.inl hreach)).1]
      exact counts_running hreach.1
    exact (htaken.stops .sparkRate rfl (by rw [hq1]; rfl) (.inl hrun) (.inl hrun)).counted (hsame (.inl hreach))
  · obtain ⟨hrecord, hnotice⟩ := hcount.counts hcounts hrate hnone
    have hstill : (q.2.ctl d).fireStopping = false := by
      refine counts_not_waiting ?_
      rw [hrecord]
      show (if _ then _ else _ : DuctState).counts = true
      split
      · rfl
      · exact hcounts
    obtain ⟨hctl, hsameGate⟩ := htaken.rests (.inr (.inr ⟨(hcount.keeps hrate).trans hnone, hstill⟩))
    refine ⟨?_, hsameGate.trans hgateQ, fun hne => ?_⟩
    · rw [marked, hctl, hrecord]
      rfl
    · rw [hctl] at hne ⊢
      rw [if_neg hne] at hnotice
      exact .before (htold.tells htick) ((hnotice.offersThese (.refl _)).more hcalm.tells.1 htells)
  · obtain ⟨hrests, hmarked⟩ := hidle (hwaits hf)
    obtain ⟨hgoes, hstay⟩ := htaken.goes (by rw [hrests]; exact hf)
    rw [hrests] at hgoes hstay
    have hhead : strongest (causes.filter StopCause.takenStopping) = causes.head? := by
      rcases hcauses with rfl | ⟨c, hc, rfl⟩
      · rfl
      · exact (hc.strongest [] (.inl rfl)).2.2.1
    rw [hhead] at hgoes
    exact ⟨hmarked ▸ hgoes, hstay⟩
  · have hcounts : (x.ctl d).state.counts = false := by
      rcases hs with h | h | h
      · rw [h]
        rfl
      · rw [h]
        rfl
      · exact h.2.1
    obtain ⟨hrests, hmarked⟩ := hidle hcounts
    have h := htaken.rests (by
      rw [hrests]
      exact hs.imp id (Or.imp id fun h => ⟨h.1, h.2.2⟩))
    rw [hrests] at h
    exact ⟨h.1.trans hmarked.symm, h.2⟩

end Sys2Proof.Machine
end

