-- ==== Sys2Proof/Proofs/DetectionFrames.lean ====
section
/-! PROOFS. What the parts of a detection's event leave beside what they are about. -/

namespace Sys2Proof.Machine

open Sys2Proof

/-! ### Detectors, captures and ports alone -/

/-- From `s` to `t` detectors, captures and the ports' notices have moved at most. -/
structure Aside (s t : State) : Prop where
  within : Within { channels := true, stations := true, captures := true } s t
  tells : Tells s t

section
variable {s t w : State}

theorem Aside.refl (s : State) : Aside s s := ⟨.refl _ s, .refl s⟩

theorem Aside.trans (h : Aside s t) (k : Aside t w) : Aside s w := ⟨h.within.trans k.within, h.tells.trans k.tells⟩

theorem Aside.zones (h : Aside s t) : t.zones = s.zones := h.within.zones rfl

theorem Aside.cfg (h : Aside s t) : t.cfg = s.cfg := h.within.fixed.cfg_eq

theorem Aside.tick (h : Aside s t) : t.tick = s.tick := h.within.fixed.tick_eq

theorem Aside.duct (h : Aside s t) (d : Fin 4) : t.duct d = s.duct d := State.duct_eq_of_ducts (h.within.ducts rfl) d

theorem Aside.ctl (h : Aside s t) (d : Fin 4) : t.ctl d = s.ctl d := congrArg Duct.ctl (h.duct d)

theorem Aside.gate (h : Aside s t) (d : Fin 4) : t.gate d = s.gate d := congrArg Duct.gate (h.duct d)

theorem Aside.raised (h : Aside s t) (z : Fin 16) (k : TroubleKind) (n : Nat) : Raised t z k n ↔ Raised s z k n :=
  raised_of_zones h.zones z k n

theorem Aside.keepsWater (h : Aside s t) (d : Fin 4) : KeepsWater d s t := by
  unfold KeepsWater
  rw [h.duct]
  exact ⟨rfl, rfl, rfl, rfl, rfl⟩

theorem captureSamples_aside (d st : Fin 4) (words : List Code) (s : State) : Aside s (captureSamples d st words s) := by
  have hkept := captureSamples_kept d st words s
  have hw := captureSamples_within d st words s
  refine ⟨⟨hw.fixed, hw.links, fun _ => ?_, hw.inputs, nofun, nofun, fun _ => hkept.ducts, fun _ => ?_, fun _ => ?_, nofun⟩,
    (captureSamples_calm d st words s).tells⟩
  all_goals rw [hkept.rest]

theorem setStation_aside (d st : Fin 4) (x : Station) (s : State) : Aside s (s.setStation d st x) :=
  ⟨(setStation_within s d st x).mono rfl, ⟨rfl, [], .of_ports rfl⟩⟩

theorem absorbCapture_aside (d st : Fin 4) (s : State) : Aside s (absorbCapture d st s) :=
  ⟨(absorbCapture_within d st s).mono rfl, (absorbCapture_calm d st s).tells⟩

end

/-! ### Up to a detection's settlement -/

/-- From `s` a station sample event has led to `v`, and beside detectors, captures, notices and troubles of channels it has touched the
window-clean mark of duct `d` at most. -/
structure Ready (d : Fin 4) (s v : State) : Prop where
  fixed : KeepsFixed s v
  tells : Tells s v
  duct : v.duct d = { s.duct d with ctl := { s.ctl d with windowClean := (v.ctl d).windowClean } }
  others : KeepsOtherDucts d s v
  hazards : KeepsHazards s v
  sound : ZonesOk v
  outputs : OutputsOk v
  bounds : BoundsOk v
  doors : v.doors = s.doors
  arbiter : v.arbiter = s.arbiter
  raised : ∀ k, NoSampleKind k → ∀ z n, Raised v z k n ↔ Raised s z k n
  clean : (s.ctl d).state ≠ .arming → (v.ctl d).windowClean = (s.ctl d).windowClean

section
variable {d st : Fin 4} {s v t : State}

theorem StationTaken.ready {l : List (Fin 16 × Sampled)} (h : StationTaken d st l s v) (hok : ZonesOk s) (ho : OutputsOk s)
    (hb : BoundsOk s) : Ready d s v where
  fixed := h.within.fixed
  tells := ⟨h.within.fixed.tick_eq, _, h.told⟩
  duct := by
    have hd := h.spoilt.duct ho hb
    have hctl : v.ctl d = (s.ctl d).spoiled (anyFault l) := congrArg Duct.ctl hd
    rw [hctl]
    exact hd
  others := h.spoilt.others
  hazards := h.hazards
  sound := h.spoilt.sound.zones hok
  outputs := h.spoilt.sound.outputs ho
  bounds := h.spoilt.sound.bounds hb
  doors := h.within.doors rfl
  arbiter := h.within.arbiter rfl
  raised := h.kept
  clean := fun hs => by
    rw [h.spoilt.clean, Ctl.spoiled, decide_eq_false hs, Bool.and_false]
    rfl

theorem Ready.aside (h : Ready d s v) (k : Aside v t) : Ready d s t where
  fixed := h.fixed.trans k.within.fixed
  tells := h.tells.trans k.tells
  duct := by
    rw [k.duct, k.ctl]
    exact h.duct
  others := fun e he => (k.duct e).trans (h.others e he)
  hazards := h.hazards.trans (.of_zones k.zones)
  sound := fun z => by rw [State.zone_eq_of_zones k.zones]; exact h.sound z
  outputs := fun e => k.duct e ▸ h.outputs e
  bounds := fun e => by
    have := h.bounds e
    rwa [← k.duct, State.ctl, ← k.duct, State.ductCfg, ← k.cfg] at this
  doors := (k.within.doors rfl).trans h.doors
  arbiter := (k.within.arbiter rfl).trans h.arbiter
  raised := fun kind hk z n => (k.raised z kind n).trans (h.raised kind hk z n)
  clean := fun hs => by rw [k.ctl, h.clean hs]

end

/-! ### A capture of a new track (R65, R160) -/

/-- A track list in which the track of an id may have been handed a capture's sequence. -/
def Handed (id : Byte) (l m : List Track) : Prop :=
  ∃ f : Track → Track, m = l.map f ∧ (∀ u, f u = { u with capture := (f u).capture }) ∧ ∀ u, u.id ≠ id → f u = u

theorem Handed.refl (id : Byte) (l : List Track) : Handed id l l := ⟨fun u => u, (List.map_id' l).symm, fun _ => rfl, fun _ _ => rfl⟩

/-- From `s` to `t` the Capture Store has settled a detection that became the track of an id. -/
structure Handing (d : Fin 4) (id : Byte) (s t : State) : Prop where
  within : Within { channels := true, stations := true, captures := true, ducts := true } s t
  tells : Tells s t
  duct : t.duct d = { s.duct d with tracks := (t.duct d).tracks }
  others : KeepsOtherDucts d s t
  handed : Handed id (s.duct d).tracks (t.duct d).tracks

theorem Aside.handing {s t : State} (h : Aside s t) (d : Fin 4) (id : Byte) : Handing d id s t :=
  ⟨h.within.mono rfl, h.tells, by rw [h.duct], fun e _ => h.duct e, by rw [h.duct]; exact .refl id _⟩

theorem skipCapture_aside (s : State) : Aside s (skipCapture s) := by
  unfold skipCapture
  dsimp only
  split
  · exact .refl s
  · have hset (c : Captures) : Aside s (s.setCaptures c) := ⟨(setCaptures_within s c).mono rfl, ⟨rfl, [], .of_ports rfl⟩⟩
    exact (hset _).trans ⟨(offer_within _ _).mono rfl, (offer_calm _ _).tells⟩

theorem startCapture_aside {x : Detection} {o : TrackOutcome} (ho : ∀ id, o ≠ .tracked id) (b : Nat) (hi lo : Nat) (s : State) :
    Aside s (startCapture b x o hi lo s) := by
  unfold startCapture
  dsimp only
  split
  · exact absurd rfl (ho _)
  all_goals exact ⟨((setCaptures_within s _).mono rfl).trans ((setStation_within _ _ _ _).mono rfl), ⟨rfl, [], .of_ports rfl⟩⟩

theorem startCapture_handing (x : Detection) (id : Byte) (b : Nat) (hi lo : Nat) (s : State) :
    Handing x.duct id s (startCapture b x (.tracked id) hi lo s) := by
  have hself (u : State) (D : Duct) : (u.setDuct x.duct D).duct x.duct = D := u.setDuct_duct_self x.duct D
  unfold startCapture handSequence
  dsimp only
  refine ⟨((setCaptures_within s _).mono rfl).trans (((setStation_within _ _ _ _).mono rfl).trans ((setDuct_within _ _ _).mono rfl)),
    ⟨rfl, [], .of_ports rfl⟩, ?_, fun e he => State.setDuct_duct_ne _ _ e _ he, ?_⟩
  · rw [hself]
    rfl
  · rw [hself]
    refine ⟨_, rfl, fun u => ?_, fun u hu => if_neg hu⟩
    split <;> rfl

/-- What the Capture Store's settlement leaves beside captures and marks (R160). -/
theorem settleCapture_beside (x : Detection) (o : TrackOutcome) (hi lo : Nat) (s : State) :
    let t := settleCapture x o hi lo s
    ((∀ id, o ≠ .tracked id) → Aside s t) ∧ ∀ id, o = .tracked id → Handing x.duct id s t := by
  have hcount (b : Nat) : Aside s (countExtra b s) := ⟨(setCaptures_within s _).mono rfl, ⟨rfl, [], .of_ports rfl⟩⟩
  unfold settleCapture
  split
  · exact ⟨fun _ => hcount _, fun id _ => (hcount _).handing _ id⟩
  · split
    · refine ⟨fun ho => startCapture_aside ho _ hi lo s, fun id h => ?_⟩
      subst h
      exact startCapture_handing x id _ hi lo s
    · exact ⟨fun _ => skipCapture_aside s, fun id _ => (skipCapture_aside s).handing _ id⟩

/-- Another station's marks and the dead-time counts stay. -/
def KeepsMarks (i : Fin 16) (s t : State) : Prop :=
  (∀ q : Fin 16, q ≠ i → t.stations[q] = s.stations[q]) ∧ t.stations[i].dead = s.stations[i].dead

theorem KeepsMarks.of_stations {i : Fin 16} {s t : State} (h : t.stations = s.stations) : KeepsMarks i s t :=
  ⟨fun q _ => by rw [h], by rw [h]⟩

theorem KeepsMarks.trans {i : Fin 16} {s t w : State} (h : KeepsMarks i s t) (k : KeepsMarks i t w) : KeepsMarks i s w :=
  ⟨fun q hq => (k.1 q hq).trans (h.1 q hq), k.2.trans h.2⟩

theorem setInFlight_marks (d st : Fin 4) (b : Bool) (s : State) : KeepsMarks (stationIx d st) s (setInFlight d st b s) := by
  have hset (q : Fin 16) : (setInFlight d st b s).stations[q] =
      if q = stationIx d st then { s.station d st with inFlight := b } else s.stations[q] := Vector.getElem_set_fin _ _ _ _
  refine ⟨fun q hq => (hset q).trans (if_neg hq), ?_⟩
  rw [hset, if_pos rfl]
  rfl

theorem settleCapture_marks (x : Detection) (o : TrackOutcome) (hi lo : Nat) (s : State) :
    KeepsMarks (stationIx x.duct x.station) s (settleCapture x o hi lo s) := by
  unfold settleCapture
  split
  · exact .of_stations rfl
  · split
    · unfold startCapture
      dsimp only
      split
      all_goals exact setInFlight_marks x.duct x.station true (s.setCaptures _)
    · exact .of_stations (skipCapture_left s).2.1

theorem captureSamples_marks (d st : Fin 4) (words : List Code) (s : State) :
    KeepsMarks (stationIx d st) s (captureSamples d st words s) :=
  ⟨(captureSamples_kept d st words s).stations, (captureSamples_kept d st words s).dead _⟩

/-! ### The end of a duct's event (R109) -/

/-- An event that leaves its duct zone below FIRE brings nothing to another duct, and no cause to another zone. -/
theorem settleDuct_frame {d : Fin 4} {s : State} (hok : ZonesOk s) (h : ((settleDuct d s).zone (ductZone d)).level ≠ .fire) :
    KeepsOtherDucts d s (settleDuct d s) ∧ ∀ z, z ≠ ductZone d → KeepsHazard z s (settleDuct d s) := by
  obtain ⟨n, k, hends⟩ := settleDuct_ends (d := d) hok
  have hquiet : settleDuct d s = (dcPost d s).state := by
    refine settleDuct_quiet hok fun hfire => absurd ?_ h
    refine hends.posted.zone_fire hends.sound ?_
    rw [show (settleDuct d s).ctl d = s.ctl d by rw [State.ctl, hends.duct]; rfl]
    exact hfire
  rw [hquiet]
  exact ⟨fun e he => dcPost_duct_ne he s, fun z hz => dcPost_hazard d s hz⟩

theorem dcEvent_frame {d : Fin 4} {s : State} (hok : ZonesOk s) (l : List StopCause)
    (h : ((dcEvent d l s).zone (ductZone d)).level ≠ .fire) :
    KeepsOtherDucts d s (dcEvent d l s) ∧ ∀ z, z ≠ ductZone d → KeepsHazard z s (dcEvent d l s) := by
  have hlocal := (takeCauses_local d l s).trans ((fireWait_local d (takeCauses d l s)).mono (by simp))
  obtain ⟨hothers, hzones⟩ := settleDuct_frame (hlocal.hazards.zonesOk hlocal.nodup hok) h
  exact ⟨fun e he => (hothers e he).trans (hlocal.others e he), fun z hz => (hlocal.hazards z).trans (hzones z hz)⟩

end Sys2Proof.Machine
end

