-- ==== Sys2Proof/Proofs/TrackedDetections.lean ====
section
/-! PROOFS. A confirmed detection that becomes a track (R64), up to its report. -/

namespace Sys2Proof.Machine

open Sys2Proof

/-! ### The facts of one state told of another -/

theorem NewTrackOf.of {s v : State} {d st : Fin 4} {o : Tick} {y : Track} (h : NewTrackOf v d st o y) (hc : v.cfg = s.cfg)
    (ht : v.tick = s.tick) (hb : (v.duct d).vel = (s.duct d).vel) (hv : (v.duct d).valves = (s.duct d).valves) :
    NewTrackOf s d st o y := by
  unfold NewTrackOf State.valve State.ductCfg at h ⊢
  rwa [hc, ht, hb, hv] at h

theorem decisionNotices_congr {s u : State} {d : Fin 4} (hc : u.cfg = s.cfg) (ht : u.tick = s.tick)
    (hr : Raised u (ductZone d) .gateFault 0 ↔ Raised s (ductZone d) .gateFault 0) (l : List Track) (g : Gate) :
    decisionNotices u d g l = decisionNotices s d g l := by
  induction l generalizing g with
  | nil => rfl
  | cons y rest ih =>
    rw [decisionNotices, decisionNotices, ih, closeNotices_raised hc ht hr, State.gateCfg, State.gateCfg, State.ductCfg, State.ductCfg,
      hc, ht]

theorem CloseTold.of {d : Fin 4} {s a b : State} (h : CloseTold d a b) (hc : a.cfg = s.cfg)
    (hr : Raised a (ductZone d) .gateFault 0 ↔ Raised s (ductZone d) .gateFault 0) : CloseTold d s b :=
  h.imp (fun h => h.trans hr) fun h => by rwa [State.gateCfg, State.ductCfg, hc] at h

theorem CloseTold.then {d : Fin 4} {s a b : State} (h : CloseTold d s a) (hz : b.zones = a.zones) (hg : b.gate d = a.gate d) :
    CloseTold d s b := h.imp (raised_of_zones hz _ _ _).trans (hg ▸ id)

/-- The condition of R75 reads a track's valve entries alone. -/
theorem SprayDue.of_tracks {d : Fin 4} {v : Fin 2} {s t : State} (hc : t.cfg = s.cfg) (ht : t.tick = s.tick)
    (hl : (t.duct d).tracks.map Track.valves = (s.duct d).tracks.map Track.valves) (hf : (t.duct d).flood = (s.duct d).flood)
    (hr : (t.duct d).test = (s.duct d).test) : SprayDue t d v ↔ SprayDue s d v := by
  have hentries (p : List ValveEntry → Prop) : (∃ y ∈ (t.duct d).tracks, p y.valves) ↔ ∃ y ∈ (s.duct d).tracks, p y.valves := by
    have h (u : State) : (∃ y ∈ (u.duct d).tracks, p y.valves) ↔ ∃ l ∈ (u.duct d).tracks.map Track.valves, p l := by simp
    rw [h, h, hl]
  unfold SprayDue State.valveCfg State.ductCfg
  rw [hf, hr, ht, hc]
  exact and_congr_right fun _ => or_congr_left (hentries fun l => ∃ e ∈ l, e.valve = v ∧ Tick.notLater e.openTick s.tick = true ∧
    Tick.later e.closeTick s.tick = true)

theorem Handed.valves {id : Byte} {l m : List Track} (h : Handed id l m) : m.map Track.valves = l.map Track.valves := by
  obtain ⟨f, rfl, hf, -⟩ := h
  rw [List.map_map]
  refine List.map_congr_left fun u _ => ?_
  rw [Function.comp_apply, hf]

theorem Handed.length {id : Byte} {l m : List Track} (h : Handed id l m) : m.length = l.length := by
  obtain ⟨f, rfl, -⟩ := h
  exact List.length_map ..

theorem Handed.trans {id : Byte} {l m n : List Track} (h : Handed id l m) (k : Handed id m n) : Handed id l n := by
  obtain ⟨f, rfl, hf, hfother⟩ := h
  obtain ⟨g, rfl, hg, hgother⟩ := k
  refine ⟨g ∘ f, List.map_map, fun u => ?_, fun u hu => ?_⟩
  · rw [Function.comp_apply, hg, hf]
  · rw [Function.comp_apply, hfother u hu, hgother u hu]

/-! ### The new track in the list (R58, R60, R64) -/

/-- The id of a detection's new track. -/
def newId (x : Detection) (s : State) : Byte := freshId (s.duct x.duct).tracks 256 (s.duct x.duct).nextId

/-- The new track of a detection, judged. -/
def trackOf (x : Detection) (s : State) : Track := judgedTrack s (newId x s) x

/-- The state with the new track in its list. -/
def withTrack (x : Detection) (s : State) : State :=
  s.setDuct x.duct { s.duct x.duct with tracks := insertTrack (trackOf x s) (s.duct x.duct).tracks, nextId := newId x s + 1 }

theorem trackedOffer_eq (d st : Fin 4) (n m : Nat) (id : Byte) (o c : Tick) (b : Bool) :
    detectionOffer d st n m .tracked (le8 id.toNat ++ le32 o ++ le32 c ++ leFlag b) =
      detectionNotice d st n m 0 (id :: (le32 o ++ le32 c ++ [bitByte b])) := by
  rw [show le8 id.toNat = [id] by simp [le8, byteOf]]
  rfl

theorem settleTracked_eq {x : Detection} {s : State} (hx : x.confirm = s.tick) :
    let y := trackOf x s
    let n := (s.duct x.duct).tracks.length
    let r := takeNewTrack x.duct y (withTrack x s)
    settleTracked x s = ⟨.tracked y.id, y.vHi, y.vLo, r.1,
      offer (detectionNotice x.duct x.station n (n + 1) 0 (y.id :: (le32 x.origin ++ le32 s.tick ++ [bitByte y.blind]))) r.2⟩ := by
  intro y n r
  rw [← hx, ← trackedOffer_eq]
  rfl

theorem matchFirst_fitless {st : Fin 4} {o : Tick} {l : List Track} (h : ∀ u ∈ l, ¬Fits st o u) : matchFirst st o l = none := by
  cases hm : matchFirst st o l with
  | none => rfl
  | some r =>
    obtain ⟨i, hi, -⟩ := matchFirst_some hm
    exact absurd hi.2.1 (h r.1 (List.mem_of_getElem? hi.1))

theorem settleDetection_tracks {x : Detection} {s : State} (hfit : ∀ u ∈ (s.duct x.duct).tracks, ¬Fits x.station x.origin u)
    (hlen : (s.duct x.duct).tracks.length < 8) : settleDetection x s = settleTracked x s := by
  unfold settleDetection
  rw [matchFirst_fitless hfit]
  exact if_pos hlen

/-- What the settlement of a new track leaves and the report keeps, told of the state `s` before. -/
structure Tracked (d st : Fin 4) (o : Tick) (s m : State) (y : Track) : Prop where
  new : NewTrackOf s d st o y
  fresh : FreshId (s.duct d).nextId (s.duct d).tracks y.id
  nextId : (m.duct d).nextId = y.id + 1
  place : ∃ i : Fin 9, (m.duct d).tracks = (s.duct d).tracks.take i.val ++ y :: (s.duct d).tracks.drop i.val ∧
    (∀ u ∈ (s.duct d).tracks.take i.val, Tick.later u.origin o = false) ∧
    ∀ u ∈ ((s.duct d).tracks.drop i.val).head?, Tick.later u.origin o = true
  flood : (m.duct d).flood = (s.duct d).flood
  test : (m.duct d).test = (s.duct d).test
  turned : ∀ v : Fin 2, (∃ e ∈ y.valves, e.valve = v) → ((m.valve d v).output = true ↔ SprayDue m d v) ∧ ValveTurned d v s m
  other : ∀ v : Fin 2, (∀ e ∈ y.valves, e.valve ≠ v) → m.valve d v = s.valve d v
  told : OffersThese (detectionNotice d st (s.duct d).tracks.length ((s.duct d).tracks.length + 1) 0
      (y.id :: (le32 o ++ le32 s.tick ++ [bitByte y.blind])) ::
    (valveNotices s m d 0 ++ valveNotices s m d 1 ++ (if y.quenched then [] else decisionNotices s d (s.gate d) [y]))) s m

/-- What the settlement of a new track leaves at the gate, and its stop cause. -/
structure Decided (d : Fin 4) (y : Track) (causes : List StopCause) (s m : State) : Prop where
  causes : causes = if y.quenched then [] else [gateResult (s.gateCfg d) (s.gate d) s.tick y.gate]
  gate : m.gate d = if y.quenched then s.gate d else gateAfter (s.gateCfg d) s.tick (s.gate d) y
  close : CloseTold d s m

/-- From `m` to `t` a duct's track list may have been handed a capture, and its water stays. -/
structure WaterHanded (d : Fin 4) (id : Byte) (m t : State) : Prop where
  cfg : t.cfg = m.cfg
  tells : Tells m t
  valves : (t.duct d).valves = (m.duct d).valves
  nextId : (t.duct d).nextId = (m.duct d).nextId
  flood : (t.duct d).flood = (m.duct d).flood
  test : (t.duct d).test = (m.duct d).test
  handed : Handed id (m.duct d).tracks (t.duct d).tracks
  falls : ∀ n, Raised t (ductZone d) .valveFault n → Raised m (ductZone d) .valveFault n

theorem Handing.water {d : Fin 4} {id : Byte} {s t : State} (h : Handing d id s t) : WaterHanded d id s t where
  cfg := h.within.fixed.cfg_eq
  tells := h.tells
  valves := by rw [h.duct]
  nextId := by rw [h.duct]
  flood := by rw [h.duct]
  test := by rw [h.duct]
  handed := h.handed
  falls := fun n => (raised_of_zones (h.within.zones rfl) _ _ n).mp

theorem WaterHanded.of_water {d : Fin 4} {id : Byte} {s t : State} (hw : KeepsWater d s t) (hc : t.cfg = s.cfg) (ht : Tells s t)
    (hr : ∀ n, Raised t (ductZone d) .valveFault n → Raised s (ductZone d) .valveFault n) : WaterHanded d id s t := by
  obtain ⟨htracks, hnext, hvalves, hflood, htest⟩ := hw
  exact ⟨hc, ht, hvalves, hnext, hflood, htest, htracks ▸ .refl id _, hr⟩

theorem WaterHanded.trans {d : Fin 4} {id : Byte} {s t w : State} (h : WaterHanded d id s t) (k : WaterHanded d id t w) :
    WaterHanded d id s w :=
  ⟨k.cfg.trans h.cfg, h.tells.trans k.tells, k.valves.trans h.valves, k.nextId.trans h.nextId, k.flood.trans h.flood,
    k.test.trans h.test, h.handed.trans k.handed, fun n hn => h.falls n (k.falls n hn)⟩

theorem Aside.water {s t : State} (h : Aside s t) (d : Fin 4) (id : Byte) : WaterHanded d id s t := (h.handing d id).water

section
variable {d st : Fin 4} {o : Tick} {s u m t : State} {y : Track}

/-- What follows hands the track its capture at most. -/
theorem Tracked.more (h : Tracked d st o s m y) (ht : m.tick = s.tick) (k : WaterHanded d y.id m t) :
    ∃ c, Tracked d st o s t { y with capture := c } := by
  have hvalve (v : Fin 2) : t.valve d v = m.valve d v := valve_of_valves k.valves v
  have hmap := k.handed.valves
  obtain ⟨f, hf, hsame, hother⟩ := k.handed
  obtain ⟨i, hplace, hbefore, hnext⟩ := h.place
  have hold {l : List Track} (hl : ∀ x ∈ l, x ∈ (s.duct d).tracks) : l.map f = l :=
    (List.map_congr_left fun x hx => hother x (h.fresh.1 x (hl x hx))).trans (List.map_id l)
  have hy := hsame y
  generalize (f y).capture = c at hy
  refine ⟨c, ⟨h.new, h.fresh, k.nextId.trans h.nextId, ⟨i, ?_, hbefore, hnext⟩, k.flood.trans h.flood, k.test.trans h.test,
    fun v hv => ?_, fun v hv => (hvalve v).trans (h.other v hv), ?_⟩⟩
  · rw [hf, hplace, List.map_append, List.map_cons, hold fun x => List.mem_of_mem_take, hold fun x => List.mem_of_mem_drop, hy]
  · obtain ⟨hout, hturned⟩ := h.turned v hv
    refine ⟨?_, hturned.later (hvalve v) (k.falls v.val)⟩
    rw [hvalve]
    exact hout.trans (SprayDue.of_tracks k.cfg k.tells.1 hmap k.flood k.test).symm
  · have htold := h.told.more ht k.tells
    rwa [valveNotices_congr (v := 0) (s := s) (u := s) rfl (hvalve 0).symm .rfl,
      valveNotices_congr (v := 1) (s := s) (u := s) rfl (hvalve 1).symm .rfl] at htold

/-- What went before moved nothing of the duct that the settlement reads. -/
theorem Tracked.before (h : Tracked d st o u m y) (hc : u.cfg = s.cfg) (ht : Tells s u)
    (hd : u.duct d = { s.duct d with ctl := (u.duct d).ctl }) (hz : ZonesOk s → ZonesOk u)
    (hr : ∀ k, NoSampleKind k → ∀ z n, Raised u z k n ↔ Raised s z k n) : Tracked d st o s m y := by
  have htracks : (u.duct d).tracks = (s.duct d).tracks := by rw [hd]
  have hvalve (v : Fin 2) : u.valve d v = s.valve d v := valve_of_valves (by rw [hd]) v
  have hgate : u.gate d = s.gate d := by
    rw [State.gate, hd]
    rfl
  have htold := h.told
  rw [valveNotices_congr (v := 0) (s := s) (t := m) (hvalve 0) rfl (hr .valveFault ⟨nofun, nofun, nofun, nofun⟩ _ _),
    valveNotices_congr (v := 1) (s := s) (t := m) (hvalve 1) rfl (hr .valveFault ⟨nofun, nofun, nofun, nofun⟩ _ _),
    decisionNotices_congr hc ht.1 (hr .gateFault ⟨nofun, nofun, nofun, nofun⟩ _ _), htracks, ht.1, hgate] at htold
  refine ⟨h.new.of hc ht.1 (by rw [hd]) (by rw [hd]), ?_, h.nextId, ?_, ?_, ?_, fun v hv => ?_, fun v hv => ?_, .before ht htold⟩
  · have := h.fresh
    rwa [hd] at this
  · have := h.place
    rwa [htracks] at this
  · rw [h.flood, hd]
  · rw [h.test, hd]
  · obtain ⟨hout, hturned⟩ := h.turned v hv
    exact ⟨hout, hturned.earlier (hvalve v) hc ht.1 hz⟩
  · exact (h.other v hv).trans (hvalve v)

end

theorem settleTracked_left {x : Detection} {s : State} (hb : BoundsOk s) (hx : x.confirm = s.tick)
    (hlen : (s.duct x.duct).tracks.length < 8) :
    let y := trackOf x s
    (settleTracked x s).outcome = .tracked y.id ∧ Tracked x.duct x.station x.origin s (settleTracked x s).state y ∧
      Decided x.duct y (settleTracked x s).causes s (settleTracked x s).state := by
  intro y
  have hnew : NewTrackOf s x.duct x.station x.origin y := judgedTrack_new hb _ x rfl hx none
  have hentries : y.entryValves.Sublist (List.finRange 2) :=
    newTrack_entryValves s.cfg (s.duct x.duct).vel.bounds (newId x s) x
  have hwith : (withTrack x s).duct x.duct = _ := s.setDuct_duct_self x.duct _
  have htaken : TrackTaken x.duct y _ _ _ := takeNewTrack_taken hentries (withTrack x s)
  have hlocal := takeNewTrack_local x.duct y (withTrack x s)
  have hinsert := insertTrack_at y (s.duct x.duct).tracks
  rw [settleTracked_eq hx]
  change TrackTaken x.duct y _ (takeNewTrack x.duct y (withTrack x s)).2 (takeNewTrack x.duct y (withTrack x s)).1 at htaken
  change _ ∧ Tracked _ _ _ s (offer _ (takeNewTrack x.duct y (withTrack x s)).2) y ∧
    Decided _ y (takeNewTrack x.duct y (withTrack x s)).1 s (offer _ (takeNewTrack x.duct y (withTrack x s)).2)
  generalize takeNewTrack x.duct y (withTrack x s) = q at *
  have hgate : (withTrack x s).gate x.duct = s.gate x.duct := by
    rw [State.gate, hwith]
    rfl
  have hold (v : Fin 2) : (withTrack x s).valve x.duct v = s.valve x.duct v := valve_of_valves (by rw [hwith]) v
  have hkeep (p : DuctPart) (hp : p ∉ [DuctPart.valves, .gate]) : p.Same ((withTrack x s).duct x.duct) (q.2.duct x.duct) :=
    hlocal.same p hp
  have htracks : (q.2.duct x.duct).tracks = ((withTrack x s).duct x.duct).tracks := hkeep .tracks (by decide)
  have hflood : (q.2.duct x.duct).flood = ((withTrack x s).duct x.duct).flood := hkeep .flood (by decide)
  have htest : (q.2.duct x.duct).test = ((withTrack x s).duct x.duct).test := hkeep .test (by decide)
  have hfixed := hlocal.within.fixed
  refine ⟨rfl, ⟨hnew, freshId_of hlen _, ?_, ?_, ?_, ?_, fun v hv => ?_, fun v hv => ?_, ?_⟩, ⟨?_, ?_, ?_⟩⟩
  · exact Eq.trans (hkeep .nextId (by decide)) (by rw [hwith]; rfl)
  · obtain ⟨i, hi, heq, hbefore, hnext⟩ := hinsert
    exact ⟨⟨i, by omega⟩, htracks.trans (by rw [hwith]; exact heq), hbefore, hnext⟩
  · exact hflood.trans (by rw [hwith])
  · exact htest.trans (by rw [hwith])
  · obtain ⟨u, hvalves, hvalve, hfault⟩ := htaken.valves
    obtain ⟨hout, hturned⟩ := hvalves.turned v (List.mem_map.mpr hv)
    refine ⟨?_, (hturned.later (hvalve v) (hfault _ _).mp).earlier (hold v) rfl rfl id⟩
    show (q.2.valve x.duct v).output = true ↔ _
    rw [hvalve, hout, wanted_iff]
    exact (SprayDue.of_tracks (t := q.2) hfixed.cfg_eq hfixed.tick_eq (congrArg _ htracks) hflood htest).symm
  · obtain ⟨u, hvalves, hvalve, -⟩ := htaken.valves
    refine (hvalve v).trans ((hvalves.other v fun hm => ?_).trans (hold v))
    obtain ⟨e, he, hev⟩ := List.mem_map.mp hm
    exact hv e he hev
  · have hnotices (v : Fin 2) : valveNotices (withTrack x s) q.2 x.duct v = valveNotices s q.2 x.duct v :=
      valveNotices_congr (hold v) rfl .rfl
    have htold := htaken.told
    rw [hnotices, hnotices, hgate, decisionNotices_congr (s := s) (u := withTrack x s) rfl rfl .rfl] at htold
    exact (Told.after rfl rfl (htold.trans (offer_told _ q.2) hfixed.tick_eq)).offersThese
      (List.perm_append_singleton _ _).symm.subperm
  · exact htaken.causes.trans (by rw [hgate]; rfl)
  · exact htaken.gate.trans (by rw [hgate]; rfl)
  · exact htaken.close

end Sys2Proof.Machine
end

