-- ==== Sys2Proof/Proofs/DetectionFloods.lean ====
section
/-! PROOFS. A confirmed detection at a full track list: the flood (R65, R75, R87). -/

namespace Sys2Proof.Machine

open Sys2Proof

/-! ### The flood's end tick (R57, R87) -/

/-- Of two ticks behind one, neither of which is later than the other, there is one alone. -/
theorem eq_of_not_later {a b t : Tick} (ha : Tick.later a t = true) (hb : Tick.later b t = true) (hab : Tick.later a b = false)
    (hba : Tick.later b a = false) : a = b := by
  unfold Tick.later at *
  rw [decide_eq_true_iff] at ha hb
  rw [decide_eq_false_iff_not] at hab hba
  have hsub (x y : Tick) : x - y = (x - t) - (y - t) := (sub_sub_sub_cancel_right x y t).symm
  rw [hsub] at hab hba
  have hle (x : Tick) : x.toInt < 2 ^ 31 := BitVec.toInt_lt (x := x)
  have hpa := hle (a - t)
  have hpb := hle (b - t)
  have hfrom : a - t = b - t := by
    refine BitVec.eq_of_toInt_eq ?_
    rw [BitVec.toInt_sub, Int.bmod_def] at hab hba
    omega
  exact sub_left_inj.mp hfrom

/-- A running flood ends at the later of its end tick and the new one. -/
def floodEnd (s : State) (d : Fin 4) : Tick :=
  match (s.duct d).flood with
  | none => s.tick.plus (4000 * (s.ductCfg d).floodTime)
  | some e => if Tick.later e (s.tick.plus (4000 * (s.ductCfg d).floodTime)) then e else s.tick.plus (4000 * (s.ductCfg d).floodTime)

section
variable {d : Fin 4} {s : State}

theorem startFlood_eq (hlo : 1 ≤ (s.ductCfg d).floodTime) (hhi : (s.ductCfg d).floodTime ≤ 60)
    (hflood : ∀ e ∈ (s.duct d).flood, Tick.later e s.tick = true) :
    startFlood d s = evalValves d (offer (floodNotice d (if (s.duct d).flood = none then 0 else 1) 1 (floodEnd s d))
      (s.setDuct d { s.duct d with flood := some (floodEnd s d) })) := by
  unfold startFlood floodEnd
  cases h : (s.duct d).flood with
  | none => rfl
  | some e =>
    have hnew := later_plus s.tick (n := 4000 * (s.ductCfg d).floodTime) (by omega) (by omega)
    have hend : laterTick e (s.tick.plus (4000 * (s.ductCfg d).floodTime)) =
        if Tick.later e (s.tick.plus (4000 * (s.ductCfg d).floodTime)) then e else s.tick.plus (4000 * (s.ductCfg d).floodTime) := by
      unfold laterTick
      cases hlater : Tick.later (s.tick.plus (4000 * (s.ductCfg d).floodTime)) e
      · cases hold : Tick.later e (s.tick.plus (4000 * (s.ductCfg d).floodTime))
        · exact eq_of_not_later (hflood e h) hnew hold hlater
        · rfl
      · rw [later_antisymm hlater]
        rfl
    show evalValves d (offer (floodOffer d 1 1 (laterTick e (s.tick.plus (4000 * (s.ductCfg d).floodTime)))) (s.setDuct d { s.duct d with
      flood := some (laterTick e (s.tick.plus (4000 * (s.ductCfg d).floodTime))) })) = _
    rw [hend]
    rfl

theorem floodEnd_later (hlo : 1 ≤ (s.ductCfg d).floodTime) (hhi : (s.ductCfg d).floodTime ≤ 60)
    (hflood : ∀ e ∈ (s.duct d).flood, Tick.later e s.tick = true) : Tick.later (floodEnd s d) s.tick = true := by
  have hnew := later_plus s.tick (n := 4000 * (s.ductCfg d).floodTime) (by omega) (by omega)
  unfold floodEnd
  split
  · exact hnew
  · rename_i e he
    split
    · exact hflood e he
    · exact hnew

end

/-! ### The settlement -/

/-- What the settlement at a full list leaves, told of the state `s` before. -/
structure Flooded (d st : Fin 4) (o : Tick) (s m : State) : Prop where
  duct : m.duct d = { s.duct d with flood := some (floodEnd s d), valves := (m.duct d).valves }
  told : OffersThese (detectionNotice d st 8 8 2 (le32 o ++ le32 s.tick) ::
    floodNotice d (if (s.duct d).flood = none then 0 else 1) 1 (floodEnd s d) :: (valveNotices s m d 0 ++ valveNotices s m d 1)) s m
  turned : ∀ v : Fin 2, ValveTurned d v s m ∧ ((s.valveCfg d v).installed = true → (m.valve d v).output = true)
  close : CloseTold d s m

theorem settleDetection_full {x : Detection} {s : State} (hfit : ∀ u ∈ (s.duct x.duct).tracks, ¬Fits x.station x.origin u)
    (hlen : 8 ≤ (s.duct x.duct).tracks.length) : settleDetection x s = settleOverflow x s := by
  unfold settleDetection
  rw [matchFirst_fitless hfit]
  exact if_neg (Nat.not_lt.mpr hlen)

theorem settleOverflow_left {x : Detection} {s : State} (hx : x.confirm = s.tick) (hlen : (s.duct x.duct).tracks.length = 8)
    (hlo : 1 ≤ (s.ductCfg x.duct).floodTime) (hhi : (s.ductCfg x.duct).floodTime ≤ 60)
    (hflood : ∀ e ∈ (s.duct x.duct).flood, Tick.later e s.tick = true) :
    Flooded x.duct x.station x.origin s (settleOverflow x s).state := by
  have hlater := floodEnd_later hlo hhi hflood
  have hstate : (settleOverflow x s).state = offer (detectionNotice x.duct x.station 8 8 2 (le32 x.origin ++ le32 s.tick))
      (startFlood x.duct s) := by
    show offer (detectionOffer _ _ (s.duct x.duct).tracks.length (s.duct x.duct).tracks.length .overflow _) _ = _
    rw [hlen, hx]
    rfl
  have hmoved := sprayMoved (d := x.duct) (floodNotice x.duct (if (s.duct x.duct).flood = none then 0 else 1) 1 (floodEnd s x.duct))
    { s.duct x.duct with flood := some (floodEnd s x.duct) } s
  rw [hstate, startFlood_eq hlo hhi hflood]
  generalize offer (floodNotice _ _ _ _) _ = u at *
  obtain ⟨hduct, hvalves, htold⟩ := hmoved.evalValves rfl
  have hraised : Raised (evalValves x.duct u) (ductZone x.duct) .gateFault 0 ↔ Raised s (ductZone x.duct) .gateFault 0 :=
    ((evalValve_sets x.duct 1 _).others _ .gateFault _ fun e => nomatch e.2.1).trans
      (((evalValve_sets x.duct 0 u).others _ .gateFault _ fun e => nomatch e.2.1).trans (raised_of_zones hmoved.zones _ _ _))
  have hfixed := hmoved.fixed.trans (evalValves_local x.duct u).within.fixed
  generalize evalValves x.duct u = w at *
  refine ⟨hduct, ?_, fun v => ⟨(hvalves v).2.2, fun hinst => ?_⟩, .inl hraised⟩
  · exact (htold.trans (offer_told _ w) hfixed.tick_eq).offersThese (List.perm_append_singleton _ _).symm.subperm
  · refine (hvalves v).1.trans ((wanted_iff u x.duct v).mpr ⟨?_, .inr (.inl ⟨floodEnd s x.duct, ?_, ?_⟩)⟩)
    · rw [State.valveCfg, State.ductCfg, hmoved.fixed.cfg_eq]
      exact hinst
    · exact congrArg Duct.flood hmoved.duct
    · rw [hmoved.fixed.tick_eq]
      exact hlater

end Sys2Proof.Machine
end

