-- ==== Sys2Proof/Proofs/DetectionOutcomes.lean ====
section
/-! PROOFS. A confirmed detection by its outcome, from its settlement to its report (R61 to R65, R69, R97 to R104). -/

namespace Sys2Proof.Machine

open Sys2Proof

/-! ### Beside the duct -/

/-- An event that leaves its duct zone below FIRE brings nothing to another duct, and no cause to another zone. -/
def Framed (d : Fin 4) (s t : State) : Prop :=
  (t.zone (ductZone d)).level ≠ .fire → KeepsOtherDucts d s t ∧ ∀ z : Fin 16, z ≠ ductZone d → KeepsHazard z s t

/-- Of a duct a list and the window-clean mark have moved at most, and no zone, door or siren. -/
structure Kept (d : Fin 4) (tracks : List Track) (s t : State) : Prop where
  duct : t.duct d = { s.duct d with tracks := tracks, ctl := { s.ctl d with windowClean := (t.ctl d).windowClean } }
  others : KeepsOtherDucts d s t
  hazards : KeepsHazards s t
  doors : t.doors = s.doors
  arbiter : t.arbiter = s.arbiter

section
variable {d : Fin 4} {l : List Track} {s v w t : State}

theorem Framed.aside (h : Framed d s w) (k : Aside w t) : Framed d s t := fun hlevel => by
  rw [State.zone_eq_of_zones k.zones] at hlevel
  obtain ⟨hothers, hzones⟩ := h hlevel
  have hkeep : KeepsHazards w t := .of_zones k.zones
  exact ⟨fun e he => (k.duct e).trans (hothers e he), fun z hz => (hzones z hz).trans (hkeep z)⟩

theorem Kept.aside (h : Kept d l s w) (k : Aside w t) : Kept d l s t where
  duct := by
    rw [k.duct, k.ctl]
    exact h.duct
  others := fun e he => (k.duct e).trans (h.others e he)
  hazards := h.hazards.trans (.of_zones k.zones)
  doors := (k.within.doors rfl).trans h.doors
  arbiter := (k.within.arbiter rfl).trans h.arbiter

theorem Kept.framed (h : Kept d l s t) : Framed d s t := fun _ => ⟨h.others, fun z _ => h.hazards z⟩

theorem Ready.kept (h : Ready d s v) : Kept d (s.duct d).tracks s v := ⟨h.duct, h.others, h.hazards, h.doors, h.arbiter⟩

end

/-! ### What the report begins with -/

/-- The state that a detection's settlement leaves at the Track Unit and at the Capture Store. -/
def settledAt (x : Detection) (s : State) : State :=
  let s1 := s.setStation x.duct x.station { s.station x.duct x.station with dead := (s.ductCfg x.duct).base.deadTime }
  let r := settleDetection x s1
  settleCapture x r.outcome r.vHi r.vLo r.state

/-- The state with the list mark that the report of a new track brings (R69). -/
def listMarked (d : Fin 4) (s : State) : State := if (s.duct d).tracks.length = 1 then setListMark d true s else s

/-- The report of a counted detection (R99 to R104). -/
def countedReport (d : Fin 4) (causes : List StopCause) (s : State) : State :=
  let q := countDetection d causes s
  dcEvent d q.1 q.2

section
variable {d : Fin 4} {x : Detection} {s v m : State}

theorem settledAt_inside (x : Detection) (s : State) :
    Inside [.tracks, .ids, .nextId, .valves, .gate, .flood] x.duct s (settledAt x s) := by
  have hdead : Inside [] x.duct s (s.setStation x.duct x.station { s.station x.duct x.station with
      dead := (s.ductCfg x.duct).base.deadTime }) :=
    (setStation_sound (x := { s.station x.duct x.station with dead := (s.ductCfg x.duct).base.deadTime }) rfl).inside rfl rfl
  exact (hdead.mono (by simp)).trans (((settleDetection_local x _).inside (by simp)).trans ((settleCapture_inside x _ _ _ _).mono (by simp)))

theorem listMarked_local (d : Fin 4) (s : State) : Local [.ctl, .mark, .posts] d s (listMarked d s) := by
  unfold listMarked
  split
  · exact setListMark_local d true s
  · exact .refl _ d s

theorem countedReport_framed (h : Ready d s v) (k : Inside detectionParts d v m) (causes : List StopCause) :
    Framed d s (countedReport d causes m) := fun hlevel => by
  have hcount := countDetection_local d causes m
  obtain ⟨hothers, hzones⟩ := dcEvent_frame (hcount.hazards.zonesOk hcount.nodup (k.keeps.zones h.sound)) _ hlevel
  refine ⟨fun e he => ?_, fun z hz => ?_⟩
  · exact (hothers e he).trans ((hcount.others e he).trans ((k.others e he).trans (h.others e he)))
  · exact ((h.hazards.trans k.hazards).trans hcount.hazards z).trans (hzones z hz)

theorem countedReport_mark (hok : ZonesOk m) (causes : List StopCause) :
    ((countedReport d causes m).ctl d).listMark = (m.ctl d).listMark := by
  have hcount := countDetection_local d causes m
  unfold countedReport
  generalize countDetection d causes m = q at *
  have hlocal := (takeCauses_local d q.1 q.2).trans ((fireWait_local d _).mono (by simp))
  have hctl : (dcEvent d q.1 q.2).ctl d = (fireWait d (takeCauses d q.1 q.2)).ctl d :=
    (settleDuct_reported (d := d) (hlocal.hazards.zonesOk hlocal.nodup (hcount.hazards.zonesOk hcount.nodup hok)) (Told.refl _) rfl
      rfl).ctl
  rw [hctl]
  exact Eq.trans (hlocal.same .mark (by decide)) (hcount.same .mark (by decide))

theorem countedReport_clean (d : Fin 4) (causes : List StopCause) (m : State) :
    ((countedReport d causes m).ctl d).windowClean = ((m.ctl d).spoiled true).windowClean :=
  (dcEvent_clean d _ _ d).trans (countDetection_clean d causes m)

theorem countedReport_keeps (d : Fin 4) (causes : List StopCause) (m : State) : KeepsWater d m (countedReport d causes m) :=
  ((countDetection_local d causes m).keepsWater (by decide)).trans ((dcEvent_kept d _ _).water d)

theorem countedReport_water (d : Fin 4) (causes : List StopCause) (m : State) (id : Byte) :
    WaterHanded d id m (countedReport d causes m) := by
  have hlocal := countDetection_local d causes m
  have hzones := countDetection_zones d causes m
  have hcalm := countDetection_calm d causes m
  have hkept := dcEvent_kept d (countDetection d causes m).1 (countDetection d causes m).2
  refine .of_water (countedReport_keeps d causes m) (hkept.within.fixed.cfg_eq.trans hlocal.within.fixed.cfg_eq)
    (hcalm.tells.trans hkept.tells) fun n h => ?_
  exact (raised_of_zones hzones _ _ n).mp ((hkept.raised .valveFault ⟨by decide, by decide⟩ (by decide) _ n).mp h)

theorem RateReached.congr {a b : State} (he : b.effective d = a.effective d) (hs : (b.ctl d).state = (a.ctl d).state)
    (hr : (b.ctl d).rateCount = (a.ctl d).rateCount) : RateReached b d ↔ RateReached a d := by
  unfold RateReached
  dsimp only
  rw [he, hs, hr]

theorem counted_congr {a b : State} (he : b.effective d = a.effective d) (ht : b.tick = a.tick) (hc : b.cfg = a.cfg) (c : Ctl) :
    counted b d c = counted a d c := by
  unfold counted State.ductCfg
  rw [he, ht, hc]

theorem DetectionReported.aside {causes : List StopCause} {w t : State} (h : DetectionReported d causes s m w) (ht : w.tick = s.tick)
    (k : Aside w t) : DetectionReported d causes s m t := by
  have hmarked : marked (m.ctl d) d t = marked (m.ctl d) d w := by rw [marked, k.ctl, marked]
  have hctl := k.ctl d
  have hgate := k.gate d
  refine ⟨fun c hc htakes => ?_, fun hn hr => ?_, fun hn hc hr => ?_, fun hf => ?_, fun hs => ?_⟩
  · exact hmarked ▸ (h.stops c hc htakes).more ht k.tells hctl hgate
  · exact hmarked ▸ (h.rate hn hr).more ht k.tells hctl hgate
  · obtain ⟨hrecord, hsame, htold⟩ := h.counts hn hc hr
    rw [hmarked, hctl, hgate]
    exact ⟨hrecord, hsame, fun hne => (htold hne).more ht k.tells⟩
  · obtain ⟨hgoes, hsame⟩ := h.goes hf
    exact ⟨hmarked ▸ hgoes.more ht k.tells hctl hgate, hgate.trans hsame⟩
  · rw [hmarked, hctl, hgate]
    exact h.rests hs

end

end Sys2Proof.Machine
end

