-- ==== Sys2Proof/Proofs/TracksReported.lean ====
section
/-! PROOFS. What the Duct Controller makes of a new track and of a flood (R69, R97, R99, R100, R103, R104). -/

namespace Sys2Proof.Machine

open Sys2Proof

/-- The record before the event with the mark of a list that is not empty, by the window-clean mark at the event's end (R69). -/
def relisted (s : State) (d : Fin 4) (t : State) : Ctl := { s.ctl d with windowClean := (t.ctl d).windowClean, listMark := true }

/-- The Duct Controller's side of a detection that became the track `y`. -/
structure TrackReported (d : Fin 4) (y : Track) (s t : State) : Prop where
  mark : (t.ctl d).listMark = true
  clean : (s.ctl d).state = .arming → (t.ctl d).windowClean = false
  stops : y.quenched = false → TakesFireStop (s.ctl d) →
    FireStopped d (gateResult (s.gateCfg d) (s.gate d) s.tick y.gate) (relisted s d t) s t
  rests : y.quenched = false → (s.ctl d).state = .offline ∨ (s.ctl d).state = .stopped → t.ctl d = relisted s d t ∧
    (y.gate.isSome = true → GateShut d s t) ∧ (y.gate = none → t.gate d = s.gate d)
  rate : y.quenched = true → RateReached s d → FireStopped d .sparkRate (relisted s d t) s t
  counts : y.quenched = true → (s.ctl d).state.counts = true → ¬RateReached s d →
    t.ctl d = counted s d (relisted s d t) ∧ t.gate d = s.gate d ∧
      ((t.ctl d).state ≠ (s.ctl d).state → OffersThese [stateNotice d (s.ctl d) (t.ctl d)] s t)
  goes : (s.ctl d).fireStopping = true →
    FireStopGoes d (if y.quenched then none else some (gateResult (s.gateCfg d) (s.gate d) s.tick y.gate)) (relisted s d t) s t ∧
      t.gate d = (if y.quenched then s.gate d else gateAfter (s.gateCfg d) s.tick (s.gate d) y)
  idles : y.quenched = true → (s.ctl d).state.counts = false → (s.ctl d).fireStopping = false →
    t.ctl d = relisted s d t ∧ t.gate d = s.gate d

section
variable {d st : Fin 4} {o : Tick} {y : Track} {causes : List StopCause} {s v m t : State}

/-- What a settlement has moved before its report. -/
structure Reporting (d : Fin 4) (s m : State) : Prop where
  sound : ZonesOk m
  outputs : DuctOutputsOk (m.duct d)
  cfg : m.cfg = s.cfg
  tick : m.tick = s.tick
  effective : m.effective d = s.effective d

theorem Ready.reporting (h : Ready d s v) (k : Inside detectionParts d v m) (ht : m.tick = v.tick) : Reporting d s m where
  sound := k.keeps.zones h.sound
  outputs := k.keeps.outputs h.outputs d
  cfg := k.keeps.cfg.trans h.fixed.cfg_eq
  tick := ht.trans h.fixed.tick_eq
  effective := by
    have hoverlays : (m.duct d).overlays = (v.duct d).overlays := k.same .overlays (by decide)
    rw [State.effective, State.effective, hoverlays, State.ductCfg, State.ductCfg, k.keeps.cfg, h.fixed.cfg_eq, h.duct]

theorem track_reported (hm : Reporting d s m) (hctl : m.ctl d = { s.ctl d with windowClean := (m.ctl d).windowClean, listMark := true })
    (hdecided : Decided d y causes s m) (htold : OffersThese (if y.quenched then [] else decisionNotices s d (s.gate d) [y]) s m)
    (ht : Aside (countedReport d causes m) t) : TrackReported d y s t := by
  have hcauses : causes = [] ∨ ∃ c, OutcomeCause c ∧ causes = [c] := by
    rw [hdecided.causes]
    split
    · exact .inl rfl
    · exact .inr ⟨_, (gateResult_or ..).imp id .inl, rfl⟩
  obtain ⟨hreport, hshut⟩ := detection_reported (l := if y.quenched then [] else [y]) hm.sound hm.outputs hm.cfg hm.tick hdecided.close
    (by rw [hdecided.gate]; cases y.quenched <;> rfl) (by cases hq : y.quenched <;> rw [hq] at htold <;> exact htold) hcauses
  have htick : (countedReport d causes m).tick = s.tick := (countedReport_water d causes m 0).tells.1.trans hm.tick
  have hmark := countedReport_mark (d := d) hm.sound causes
  have hclean := countedReport_clean d causes m
  have hreport : DetectionReported d causes s m t := DetectionReported.aside (w := countedReport d causes m) hreport htick ht
  have hshut : ∀ x ∈ if y.quenched then [] else [y], x.gate.isSome = true → GateShut d s t := fun x hx hs =>
    (ht.gate d).trans (hshut x hx hs)
  rw [← ht.ctl] at hmark hclean
  obtain ⟨hcause, hgate, -⟩ := hdecided
  have hmarked : marked (m.ctl d) d t = relisted s d t := by
    rw [marked, hctl]
    rfl
  have hstate : (m.ctl d).state = (s.ctl d).state := by rw [hctl]
  have hrates : RateReached m d ↔ RateReached s d := RateReached.congr hm.effective hstate (by rw [hctl])
  have htakes : TakesFireStop (m.ctl d) ↔ TakesFireStop (s.ctl d) := by rw [hctl]; rfl
  have hwaits : (m.ctl d).fireStopping = (s.ctl d).fireStopping := by rw [hctl]; rfl
  obtain ⟨hstops, hrate, hcounts, hgoes, hrests⟩ := hreport
  rw [hmarked] at hrate hcounts hgoes hrests
  refine ⟨?_, fun harm => ?_, fun hq htake => ?_, fun hq hs => ?_, fun hq hr => ?_, fun hq hc hr => ?_, fun hf => ?_, fun hq hc hf => ?_⟩
  · rw [hmark, hctl]
  · rw [hclean, Ctl.spoiled, decide_eq_true (hstate.trans harm)]
    rfl
  · rw [hq] at hcause
    exact hmarked ▸ hstops _ (by rw [hcause]; exact List.mem_singleton_self _) (htakes.mpr htake)
  · obtain ⟨hrecord, hsame⟩ := hrests (hs.imp hstate.trans fun h => .inl (hstate.trans h))
    rw [hq] at hshut hgate
    refine ⟨hrecord, hshut y (List.mem_singleton_self y), fun hnone => hsame.trans (hgate.trans ?_)⟩
    rw [if_neg Bool.false_ne_true, gateAfter, hnone]
    rfl
  · rw [hq] at hcause
    exact hrate hcause (hrates.mpr hr)
  · rw [hq] at hcause hgate
    obtain ⟨hrecord, hsame, hnotice⟩ := hcounts hcause (hstate ▸ hc) (mt hrates.mp hr)
    refine ⟨hrecord.trans (counted_congr hm.effective hm.tick hm.cfg _), hsame.trans hgate, fun hne => ?_⟩
    have := hnotice (hstate ▸ hne)
    rwa [hctl] at this
  · obtain ⟨hgone, hsame⟩ := hgoes (hwaits.trans hf)
    refine ⟨?_, hsame.trans hgate⟩
    rw [hcause] at hgone
    cases hq : y.quenched <;> rw [hq] at hgone <;> exact hgone
  · rw [hq] at hcause hgate
    obtain ⟨hrecord, hsame⟩ := hrests (.inr (.inr ⟨hcause, hstate ▸ hc, hwaits.trans hf⟩))
    exact ⟨hrecord, hsame.trans hgate⟩

/-- The record before the event, by the window-clean mark at its end. -/
def unlisted (s : State) (d : Fin 4) (t : State) : Ctl := { s.ctl d with windowClean := (t.ctl d).windowClean }

/-- The Duct Controller's side of a detection at a full list. -/
structure FloodReported (d : Fin 4) (s t : State) : Prop where
  goes : (s.ctl d).fireStopping = true → FireStopGoes d (some .overflow) (unlisted s d t) s t ∧ t.gate d = s.gate d
  stops : TakesFireStop (s.ctl d) → FireStopped d .overflow (unlisted s d t) s t
  rests : (s.ctl d).state = .offline ∨ (s.ctl d).state = .stopped → t.ctl d = unlisted s d t ∧ t.gate d = s.gate d

theorem flood_reported (hm : Reporting d s m) (hctl : m.ctl d = { s.ctl d with windowClean := (m.ctl d).windowClean })
    (hgate : m.gate d = s.gate d) (hclose : CloseTold d s m) (htold : OffersThese [] s m)
    (ht : Aside (countedReport d [.overflow] m) t) : FloodReported d s t := by
  obtain ⟨hreport, -⟩ := detection_reported (l := []) hm.sound hm.outputs hm.cfg hm.tick hclose hgate htold
    (.inr ⟨.overflow, .inr (.inr rfl), rfl⟩)
  have htick : (countedReport d [.overflow] m).tick = s.tick := (countedReport_water d [.overflow] m 0).tells.1.trans hm.tick
  have hreport : DetectionReported d [.overflow] s m t := DetectionReported.aside (w := countedReport d [.overflow] m) hreport htick ht
  have hmarked : marked (m.ctl d) d t = unlisted s d t := by
    rw [marked, hctl]
    rfl
  have hstate : (m.ctl d).state = (s.ctl d).state := by rw [hctl]
  obtain ⟨hstops, -, -, hgoes, hrests⟩ := hreport
  rw [hmarked] at hgoes hrests
  refine ⟨fun hf => ?_, fun htake => ?_, fun hs => ?_⟩
  · obtain ⟨hgone, hsame⟩ := hgoes (by rw [hctl]; exact hf)
    exact ⟨hgone, hsame.trans hgate⟩
  · exact hmarked ▸ hstops .overflow (List.mem_singleton_self _) (by rw [hctl]; exact htake)
  · obtain ⟨hrecord, hsame⟩ := hrests (hs.imp hstate.trans fun h => .inl (hstate.trans h))
    exact ⟨hrecord, hsame.trans hgate⟩

end

end Sys2Proof.Machine
end

