-- ==== Sys2Proof/Proofs/ConfirmedDetections.lean ====
section
/-! PROOFS. A confirmed detection: the track that it joins or becomes, or the flood (R61 to R65, R87). -/

namespace Sys2Proof.Machine

open Sys2Proof

/-- The state with a detection's dead time begun (R34). -/
def deadStarted (x : Detection) (s : State) : State :=
  s.setStation x.duct x.station { s.station x.duct x.station with dead := (s.ductCfg x.duct).base.deadTime }

section
variable {x : Detection} {s v t : State}

theorem deadStarted_aside (x : Detection) (s : State) : Aside s (deadStarted x s) := setStation_aside x.duct x.station _ s

theorem confirmDetection_settled {r : Settled} (hr : settleDetection x (deadStarted x s) = r) :
    confirmDetection x s = reportDetection x r (settleCapture x r.outcome r.vHi r.vLo r.state) := by
  rw [← hr]
  rfl

theorem Ready.tracks (h : Ready x.duct s v) : ((deadStarted x v).duct x.duct).tracks = (s.duct x.duct).tracks := by
  show (v.duct x.duct).tracks = _
  rw [h.duct]

/-! ### The marks (R34) -/

theorem confirmDetection_marks (x : Detection) (s : State) :
    (∀ q : Fin 16, q ≠ stationIx x.duct x.station → (confirmDetection x s).stations[q] = s.stations[q]) ∧
      ((confirmDetection x s).station x.duct x.station).dead = (s.ductCfg x.duct).base.deadTime := by
  have hset (q : Fin 16) : (deadStarted x s).stations[q] = if q = stationIx x.duct x.station then
      { s.station x.duct x.station with dead := (s.ductCfg x.duct).base.deadTime } else s.stations[q] := Vector.getElem_set_fin _ _ _ _
  have hsettle : (settleDetection x (deadStarted x s)).state.stations = (deadStarted x s).stations :=
    (settleDetection_within x _).stations rfl
  have hmarks := (KeepsMarks.of_stations (i := stationIx x.duct x.station) hsettle).trans
    (settleCapture_marks x (settleDetection x (deadStarted x s)).outcome (settleDetection x (deadStarted x s)).vHi
      (settleDetection x (deadStarted x s)).vLo _)
  have hreport : (confirmDetection x s).stations = (settledAt x s).stations := (reportDetection_within x _ _).stations rfl
  change KeepsMarks _ _ (settledAt x s) at hmarks
  refine ⟨fun q hq => ?_, ?_⟩
  · rw [hreport]
    exact (hmarks.1 q hq).trans ((hset q).trans (if_neg hq))
  · show (confirmDetection x s).stations[stationIx x.duct x.station].dead = _
    rw [hreport]
    exact hmarks.2.trans (by rw [hset, if_pos rfl])

/-! ### Beside the duct -/

theorem confirmDetection_framed (h : Ready x.duct s v) : Framed x.duct s (confirmDetection x v) := by
  have hin := settledAt_inside x v
  have hwide : Inside detectionParts x.duct v (settledAt x v) := hin.mono (by simp [detectionParts])
  have hreport : confirmDetection x v = reportDetection x (settleDetection x (deadStarted x v)) (settledAt x v) := rfl
  rw [hreport]
  unfold reportDetection
  cases (settleDetection x (deadStarted x v)).outcome with
  | matched id => exact fun _ => ⟨fun e he => (hin.others e he).trans (h.others e he), fun z _ => (h.hazards.trans hin.hazards) z⟩
  | tracked id =>
    exact countedReport_framed h (hwide.trans (((listMarked_local x.duct _).inside (by simp)).mono (by simp [detectionParts]))) _
  | overflow => exact countedReport_framed h hwide _

/-! ### A detection that joins a track (R61) -/

theorem settleDetection_joins {i : Nat} {u : Track} (hfit : FirstFit x.station x.origin (s.duct x.duct).tracks i u) :
    settleDetection x s = settleMatched x u ((s.duct x.duct).tracks.set i { u with matched := u.matched ++ [x.station] }) s := by
  unfold settleDetection
  cases hm : matchFirst x.station x.origin (s.duct x.duct).tracks with
  | none => exact absurd hfit.2.1 (matchFirst_none hm u (List.mem_of_getElem? hfit.1))
  | some r =>
    obtain ⟨j, hj, hset⟩ := matchFirst_some hm
    obtain ⟨rfl, rfl⟩ := hj.unique hfit
    rw [← hset]

theorem matchedOffer_eq (d st q : Fin 4) (n : Nat) (id : Byte) (o c : Tick) :
    detectionOffer d st n n .matched (le8 id.toNat ++ le8 q.val ++ le32 o ++ le32 c) =
      detectionNotice d st n n 1 (id :: byteOf q.val :: (le32 o ++ le32 c)) := by
  rw [show le8 id.toNat = [id] by simp [le8, byteOf]]
  rfl

theorem Ready.retracked (h : Ready x.duct s v) (l : List Track) (o : Offer) :
    Kept x.duct l s (offer o (v.setDuct x.duct { v.duct x.duct with tracks := l })) := by
  have hself : (offer o (v.setDuct x.duct { v.duct x.duct with tracks := l })).duct x.duct = { v.duct x.duct with tracks := l } :=
    v.setDuct_duct_self x.duct _
  refine ⟨?_, fun e he => (State.setDuct_duct_ne _ _ e _ he).trans (h.others e he), h.hazards, h.doors, h.arbiter⟩
  have hctl : (offer o (v.setDuct x.duct { v.duct x.duct with tracks := l })).ctl x.duct = v.ctl x.duct :=
    (congrArg Duct.ctl hself).trans rfl
  rw [hself, hctl]
  exact congrArg (fun D : Duct => { D with tracks := l }) h.duct

theorem confirmDetection_joins (h : Ready x.duct s v) (hx : x.confirm = v.tick) {i : Nat} {u : Track}
    (hfit : FirstFit x.station x.origin (s.duct x.duct).tracks i u) :
    Kept x.duct ((s.duct x.duct).tracks.set i { u with matched := u.matched ++ [x.station] }) s (confirmDetection x v) ∧
      OffersThese [detectionNotice x.duct x.station (s.duct x.duct).tracks.length (s.duct x.duct).tracks.length 1
        (u.id :: byteOf u.station.val :: (le32 x.origin ++ le32 s.tick))] s (confirmDetection x v) := by
  have hready := h.aside (deadStarted_aside x v)
  have htracks := h.tracks
  rw [confirmDetection_settled (settleDetection_joins (s := deadStarted x v) (htracks ▸ hfit)), htracks]
  generalize hl : (s.duct x.duct).tracks.set i { u with matched := u.matched ++ [x.station] } = l at *
  have hlen : (s.duct x.duct).tracks.length = l.length := by rw [← hl, List.length_set]
  have hoffer := matchedOffer_eq x.duct x.station u.station l.length u.id x.origin x.confirm
  have htold := offer_told (detectionOffer x.duct x.station l.length l.length .matched
    (le8 u.id.toNat ++ le8 u.station.val ++ le32 x.origin ++ le32 x.confirm))
    ((deadStarted x v).setDuct x.duct { (deadStarted x v).duct x.duct with tracks := l })
  have hkept := hready.retracked l (detectionOffer x.duct x.station l.length l.length .matched
    (le8 u.id.toNat ++ le8 u.station.val ++ le32 x.origin ++ le32 x.confirm))
  have haside := (settleCapture_beside x (.matched u.id) u.vHi u.vLo (settleMatched x u l (deadStarted x v)).state).1 nofun
  refine ⟨hkept.aside haside, ?_⟩
  rw [hlen, ← h.fixed.tick_eq, ← hx, ← hoffer]
  exact .before hready.tells ((Told.offersThese (Told.after rfl rfl htold) (.refl _)).more rfl haside.tells)

/-! ### A detection that becomes a track (R64) -/

theorem reportDetection_tracked {r : Settled} {id : Byte} (h : r.outcome = .tracked id) (s : State) :
    reportDetection x r s = countedReport x.duct r.causes (listMarked x.duct s) := by
  unfold reportDetection
  rw [h]
  rfl

theorem listMarked_ctl (hout : CtlOk (s.ctl x.duct)) (hmark : (s.duct x.duct).tracks.length ≠ 1 → (s.ctl x.duct).listMark = true) :
    (listMarked x.duct s).ctl x.duct = { s.ctl x.duct with listMark := true } := by
  unfold listMarked
  split
  · exact (s.setCtl_ctl_self x.duct _).trans (withOutputs_same hout rfl rfl rfl rfl rfl)
  · rename_i h
    rw [← hmark h]

theorem listMarked_water (d : Fin 4) (id : Byte) (s : State) : WaterHanded d id s (listMarked d s) := by
  have hlocal := listMarked_local d s
  have hzones : (listMarked d s).zones = s.zones := by
    unfold listMarked
    split <;> rfl
  have hcalm : Calm s (listMarked d s) := by
    unfold listMarked
    split
    · exact setListMark_calm d true s
    · exact .refl s
  exact .of_water (hlocal.keepsWater (by decide)) hlocal.within.fixed.cfg_eq hcalm.tells fun n => (raised_of_zones hzones _ _ n).mp

theorem TrackReported.captured {d : Fin 4} {y : Track} (h : TrackReported d y s t) (c : Option Word16) :
    TrackReported d { y with capture := c } s t := ⟨h.mark, h.clean, h.stops, h.rests, h.rate, h.counts, h.goes, h.idles⟩

/-- A gate decision, told of an earlier state and of a later one that have the gates. -/
theorem Decided.moved {d : Fin 4} {y : Track} {causes : List StopCause} {a b m : State} (h : Decided d y causes a b) (hc : a.cfg = s.cfg)
    (ht : a.tick = s.tick) (hg : a.gate d = s.gate d) (hr : Raised a (ductZone d) .gateFault 0 ↔ Raised s (ductZone d) .gateFault 0)
    (hz : m.zones = b.zones) (hm : m.gate d = b.gate d) : Decided d y causes s m := by
  have hcfg : a.gateCfg d = s.gateCfg d := by rw [State.gateCfg, State.gateCfg, State.ductCfg, State.ductCfg, hc]
  obtain ⟨hcauses, hgate, hclose⟩ := h
  rw [hcfg, ht, hg] at hcauses hgate
  exact ⟨hcauses, hm.trans hgate, (hclose.then hz hm).of hc hr⟩

theorem Ready.base {d : Fin 4} (h : Ready d s v) : v.duct d = { s.duct d with ctl := (v.duct d).ctl } := by
  rw [h.duct]

/-- A track and the Duct Controller's side of it, told of the state before the event. -/
theorem confirmDetection_tracks (h : Ready x.duct s v) (hx : x.confirm = v.tick) (htracks : TracksOk s)
    (hfit : ∀ u ∈ (s.duct x.duct).tracks, ¬Fits x.station x.origin u) (hlen : (s.duct x.duct).tracks.length < 8)
    (k : Aside (confirmDetection x v) t) :
    ∃ y ∈ (t.duct x.duct).tracks, Tracked x.duct x.station x.origin s t y ∧ TrackReported x.duct y s t := by
  have hready := h.aside (deadStarted_aside x v)
  have hlist := h.tracks
  have hsettle : settleDetection x (deadStarted x v) = _ := settleDetection_tracks (hlist ▸ hfit) (hlist ▸ hlen)
  obtain ⟨houtcome, htracked, hdecided⟩ := settleTracked_left (s := deadStarted x v) hready.bounds hx (hlist ▸ hlen)
  have hlocal := settleDetection_local x (deadStarted x v)
  rw [hsettle] at hlocal
  rw [confirmDetection_settled hsettle, reportDetection_tracked houtcome] at k
  generalize settleTracked x (deadStarted x v) = r at *
  generalize trackOf x (deadStarted x v) = y at *
  have hhanding := (settleCapture_beside x r.outcome r.vHi r.vLo r.state).2 y.id houtcome
  have hinside := (settleCapture_inside x r.outcome r.vHi r.vLo r.state)
  generalize settleCapture x r.outcome r.vHi r.vLo r.state = w at *
  have hmarks := listMarked_local x.duct w
  have hzones : (listMarked x.duct w).zones = w.zones := by
    unfold listMarked
    split <;> rfl
  have hmarked := listMarked_water x.duct y.id w
  have hctlW : w.ctl x.duct = v.ctl x.duct := Eq.trans (hinside.same .ctl (by simp)) (hlocal.ctl_eq (by simp))
  have hbefore : Tracked x.duct x.station x.origin s r.state y :=
    htracked.before hready.fixed.cfg_eq hready.tells hready.base (fun _ => hready.sound) hready.raised
  have hgrown : (w.duct x.duct).tracks.length = (s.duct x.duct).tracks.length + 1 := by
    obtain ⟨i, hplace, -⟩ := hbefore.place
    rw [hhanding.handed.length, hplace, List.length_append, List.length_cons, ← Nat.add_assoc, ← List.length_append,
      List.take_append_drop]
  have hctlV : v.ctl x.duct = { s.ctl x.duct with windowClean := (v.ctl x.duct).windowClean } :=
    (congrArg Duct.ctl h.duct).trans rfl
  have hctlM : (listMarked x.duct w).ctl x.duct = { v.ctl x.duct with listMark := true } := by
    refine (listMarked_ctl (by rw [hctlW]; exact (h.outputs x.duct).1) fun hone => ?_).trans (by rw [hctlW])
    rw [hctlW, hctlV]
    exact (htracks x.duct).2.2.mpr (List.ne_nil_of_length_pos (by omega))
  have hin : Inside detectionParts x.duct (deadStarted x v) (listMarked x.duct w) :=
    (hlocal.inside (by simp)).mono (by simp [detectionParts]) |>.trans ((hinside.mono (by simp [detectionParts])).trans
      ((hmarks.inside (by simp)).mono (by simp [detectionParts])))
  have hwater := hhanding.water.trans hmarked
  have hgateM : (listMarked x.duct w).gate x.duct = r.state.gate x.duct :=
    Eq.trans (hmarks.same .gate (by simp)) (hinside.same .gate (by simp))
  have htickR : r.state.tick = s.tick := hlocal.within.fixed.tick_eq.trans hready.fixed.tick_eq
  have hdecidedM := hdecided.moved hready.fixed.cfg_eq hready.fixed.tick_eq (by rw [State.gate, hready.base]; rfl)
    (hready.raised .gateFault ⟨nofun, nofun, nofun, nofun⟩ _ _) (hzones.trans (hhanding.within.zones rfl)) hgateM
  have hreported := track_reported (hready.reporting hin (hwater.tells.1.trans hlocal.within.fixed.tick_eq))
    (by rw [hctlM, hctlV]) hdecidedM
    ((hbefore.told.part (((List.sublist_append_right _ _).trans (List.sublist_cons_self _ _)).subperm)).more htickR hwater.tells) k
  obtain ⟨c, hafter⟩ := hbefore.more htickR (hwater.trans ((countedReport_water x.duct r.causes _ y.id).trans (k.water x.duct y.id)))
  obtain ⟨i, hplace, -⟩ := hafter.place
  exact ⟨_, by rw [hplace]; simp, hafter, hreported.captured c⟩

/-! ### A detection at a full list (R65, R87) -/

/-- What the event leaves of a duct that it floods. -/
structure FloodLeft (d st : Fin 4) (o : Tick) (s t : State) : Prop where
  tracks : (t.duct d).tracks = (s.duct d).tracks
  nextId : (t.duct d).nextId = (s.duct d).nextId
  test : (t.duct d).test = (s.duct d).test
  flood : (t.duct d).flood = some (floodEnd s d)
  told : OffersThese (detectionNotice d st 8 8 2 (le32 o ++ le32 s.tick) ::
    floodNotice d (if (s.duct d).flood = none then 0 else 1) 1 (floodEnd s d) :: (valveNotices s t d 0 ++ valveNotices s t d 1)) s t
  turned : ∀ v : Fin 2, ValveTurned d v s t ∧ ((s.valveCfg d v).installed = true → (t.valve d v).output = true)

theorem reportDetection_overflow {r : Settled} (h : r.outcome = .overflow) (s : State) :
    reportDetection x r s = countedReport x.duct r.causes s := by
  unfold reportDetection
  rw [h]
  rfl

theorem floodEnd_congr {d : Fin 4} (hc : v.cfg = s.cfg) (ht : v.tick = s.tick) (hf : (v.duct d).flood = (s.duct d).flood) :
    floodEnd v d = floodEnd s d := by
  unfold floodEnd State.ductCfg
  rw [hc, ht, hf]

/-- The settlement at a full list, told of an earlier state and of a later one that have the duct's water. -/
theorem Flooded.left {d st : Fin 4} {o : Tick} {a b : State} (h : Flooded d st o a b) (hc : a.cfg = s.cfg) (ht : Tells s a)
    (hd : a.duct d = { s.duct d with ctl := (a.duct d).ctl }) (hz : ZonesOk s → ZonesOk a)
    (hr : ∀ n, Raised a (ductZone d) .valveFault n ↔ Raised s (ductZone d) .valveFault n) (htick : b.tick = a.tick)
    (hw : KeepsWater d b t) (k : Tells b t)
    (hfalls : ∀ n, Raised t (ductZone d) .valveFault n → Raised b (ductZone d) .valveFault n) : FloodLeft d st o s t := by
  obtain ⟨htracks, hnext, hvalves, hflood, htest⟩ := hw
  have hvalve (v : Fin 2) : t.valve d v = b.valve d v := valve_of_valves hvalves v
  have hold (v : Fin 2) : a.valve d v = s.valve d v := valve_of_valves (by rw [hd]) v
  have hend := floodEnd_congr (d := d) hc ht.1 (by rw [hd])
  have hnotices (v : Fin 2) : valveNotices a b d v = valveNotices s t d v := valveNotices_congr (hold v) (hvalve v).symm (hr v.val)
  have htold := h.told
  rw [hnotices, hnotices, hend, ht.1, show (a.duct d).flood = (s.duct d).flood by rw [hd]] at htold
  refine ⟨htracks.trans ?_, hnext.trans ?_, htest.trans ?_, hflood.trans ?_, ?_, fun v => ⟨?_, fun hinst => ?_⟩⟩
  · rw [h.duct, hd]
  · rw [h.duct, hd]
  · rw [h.duct, hd]
  · rw [h.duct, hend]
  · exact .before ht (htold.more htick k)
  · exact ((h.turned v).1.later (hvalve v) (hfalls _)).earlier (hold v) hc ht.1 hz
  · rw [hvalve]
    refine (h.turned v).2 ?_
    rw [State.valveCfg, State.ductCfg, hc]
    exact hinst

theorem confirmDetection_floods (h : Ready x.duct s v) (hx : x.confirm = v.tick) (htracks : TracksOk s)
    (hfit : ∀ u ∈ (s.duct x.duct).tracks, ¬Fits x.station x.origin u) (hlen : 8 ≤ (s.duct x.duct).tracks.length)
    (hlo : 1 ≤ (s.ductCfg x.duct).floodTime) (hhi : (s.ductCfg x.duct).floodTime ≤ 60)
    (hflood : ∀ e ∈ (s.duct x.duct).flood, Tick.later e s.tick = true) (k : Aside (confirmDetection x v) t) :
    FloodLeft x.duct x.station x.origin s t ∧ FloodReported x.duct s t := by
  have hready := h.aside (deadStarted_aside x v)
  have hlist := h.tracks
  have hcfg : (deadStarted x v).ductCfg x.duct = s.ductCfg x.duct := by rw [State.ductCfg, State.ductCfg, hready.fixed.cfg_eq]
  have hlen8 : (s.duct x.duct).tracks.length = 8 := Nat.le_antisymm (htracks x.duct).1 hlen
  have hsettle : settleDetection x (deadStarted x v) = _ := settleDetection_full (hlist ▸ hfit) (hlist ▸ hlen)
  have hflooded : Flooded x.duct x.station x.origin (deadStarted x v) (settleOverflow x (deadStarted x v)).state :=
    settleOverflow_left hx (by rw [hlist, hlen8]) (by rw [hcfg]; exact hlo) (by rw [hcfg]; exact hhi) fun e he => by
      rw [hready.fixed.tick_eq]
      rw [hready.base] at he
      exact hflood e he
  have hlocal := settleDetection_local x (deadStarted x v)
  rw [hsettle] at hlocal
  have houtcome : (settleOverflow x (deadStarted x v)).outcome = .overflow := rfl
  have hcauses : (settleOverflow x (deadStarted x v)).causes = [.overflow] := rfl
  rw [confirmDetection_settled hsettle, reportDetection_overflow houtcome, hcauses] at k
  generalize settleOverflow x (deadStarted x v) = r at *
  have haside := (settleCapture_beside x r.outcome r.vHi r.vLo r.state).1 (by rw [houtcome]; nofun)
  have hinside := settleCapture_inside x r.outcome r.vHi r.vLo r.state
  generalize settleCapture x r.outcome r.vHi r.vLo r.state = w at *
  have hctlW : w.ctl x.duct = v.ctl x.duct := (haside.ctl x.duct).trans (hlocal.ctl_eq (by simp))
  have hctlV : v.ctl x.duct = { s.ctl x.duct with windowClean := (v.ctl x.duct).windowClean } :=
    (congrArg Duct.ctl h.duct).trans rfl
  have hgateW : w.gate x.duct = s.gate x.duct := by
    rw [haside.gate, State.gate, hflooded.duct, hready.base]
    rfl
  have hin : Inside detectionParts x.duct (deadStarted x v) w :=
    ((hlocal.inside (by simp)).mono (by simp [detectionParts])).trans (hinside.mono (by simp [detectionParts]))
  have hreport := (haside.water x.duct 0).trans (countedReport_water x.duct [.overflow] w 0)
  have hwater := hreport.trans (k.water x.duct 0)
  have hkeeps := (haside.keepsWater x.duct).trans ((countedReport_keeps x.duct [.overflow] w).trans (k.keepsWater x.duct))
  have htickR := hlocal.within.fixed.tick_eq
  refine ⟨hflooded.left hready.fixed.cfg_eq hready.tells hready.base (fun _ => hready.sound)
    (hready.raised .valveFault ⟨nofun, nofun, nofun, nofun⟩ _) htickR hkeeps hwater.tells hwater.falls, ?_⟩
  refine flood_reported (hready.reporting hin (haside.tick.trans htickR)) (by rw [hctlW, hctlV]) hgateW ?_ ?_ k
  · exact (hflooded.close.then haside.zones (haside.gate _)).of hready.fixed.cfg_eq
      (hready.raised .gateFault ⟨nofun, nofun, nofun, nofun⟩ _ _)
  · exact .before hready.tells ((hflooded.told.part List.nil_subperm).more htickR haside.tells)

end

end Sys2Proof.Machine
end

