-- ==== Sys2Proof/Proofs/DetectionEvents.lean ====
section
/-! PROOFS. The qualifying events of a station (R32 to R35): absorbed, a flash, or a confirmed detection. -/

namespace Sys2Proof.Machine

open Sys2Proof

/-! ### The flash counters (R35) -/

theorem sampleChannel_flash (threshold nq limit : Nat) (code : Code) (now : Tick) (x : Channel) :
    (sampleChannel threshold nq limit code now x).channel.flash = x.flash := by
  by_cases h : x.state = .active
  · rw [sampleChannel_active h]
    dsimp only
    split <;> rfl
  · rw [sampleChannel_resting h]
    dsimp only
    unfold Channel.recorded
    split <;> rfl

theorem StationTaken.flash {d st : Fin 4} {codes : Vector Code 4} {s u : State}
    (h : StationTaken d st (stationSamples s d st codes) s u) (q : Fin 16) : (u.channel q).flash = (s.channel q).flash := by
  by_cases hq : q ∈ (stationSamples s d st codes).map Prod.fst
  · obtain ⟨⟨c, r⟩, hr, rfl⟩ := List.mem_map.mp hq
    obtain ⟨⟨a, code⟩, ha, he⟩ := List.mem_map.mp hr
    obtain ⟨rfl, rfl⟩ := Prod.mk.inj he
    rw [h.channel _ hr]
    exact sampleChannel_flash ..
  · rw [h.channel_ne q hq]

/-! ### The event's stages -/

/-- A station sample event as stage 5 finds the state, in `v`, and as it ends, in `t`, by the judgment `w` of stage 5. -/
structure Stages (d st : Fin 4) (codes : Vector Code 4) (s v w t : State) : Prop where
  judged : w = judgeStation d st (s.station d st).dead (stationSamples s d st codes) v
  ready : Ready d s v
  under : Underway d st codes s v
  dead : (v.station d st).dead = (s.station d st).dead - 1
  flash : ∀ q : Fin 16, (v.channel q).flash = (s.channel q).flash
  others : ∀ q : Fin 16, q ≠ stationIx d st → v.stations[q] = s.stations[q]
  active : activeCount t d st = activeCount v d st
  aside : Aside w t
  marks : KeepsMarks (stationIx d st) w t
  channels : t.channels = w.channels

section
variable {d st : Fin 4} {codes : Vector Code 4} {s v w t : State}

theorem stationEvent_stages (d st : Fin 4) (codes : Vector Code 4) (first : Bool) {s : State} (hok : ZonesOk s) (ho : OutputsOk s)
    (hb : BoundsOk s) (hlimit : 0 < (s.ductCfg d).base.stuckLimit) :
    ∃ v w, Stages d st codes s v w (stationEvent d st codes first s) := by
  have hl := stationSamples_nodup s d st codes
  have htaken := stationTaken_left (d := d) (st := st) hl s
  have hcount := stationEvent_activeCount d st codes first s
  have heq := stationEvent_eq d st codes first s
  have hflash := htaken.flash
  have hstations (q : Fin 16) : (stationTaken d st (stationSamples s d st codes) s).stations[q] =
      if q = stationIx d st then { s.station d st with dead := (s.station d st).dead - 1 } else s.stations[q] := by
    rw [htaken.stations]
    exact Vector.getElem_set_fin _ _ _ _
  have hready := htaken.ready hok ho hb
  have hunder := htaken.underway hlimit hb
  dsimp only at heq
  generalize stationTaken d st (stationSamples s d st codes) s = u, (stationCodes s d st codes).map Prod.snd = words,
    stationEvent d st codes first s = t at *
  have hdead : (u.station d st).dead = (s.station d st).dead - 1 := by
    rw [State.station, hstations, if_pos rfl]
  have hothers (q : Fin 16) (hq : q ≠ stationIx d st) : u.stations[q] = s.stations[q] := (hstations q).trans (if_neg hq)
  cases first
  · have hkept := captureSamples_kept d st words (judgeStation d st (s.station d st).dead (stationSamples s d st codes) u)
    refine ⟨u, _, rfl, hready, hunder, hdead, hflash, hothers, hcount, ?_, ?_, ?_⟩
    · rw [heq]
      exact captureSamples_aside ..
    · rw [heq]
      exact captureSamples_marks ..
    · rw [heq]
      exact hkept.channels
  · have hkept := captureSamples_kept d st words u
    have haside := captureSamples_aside d st words u
    have hfive := captureSamples_stageFive d st words [] u
    refine ⟨captureSamples d st words u, _, rfl, hready.aside haside, hunder.sampled hkept haside.tells, ?_, fun q => ?_, fun q hq => ?_,
      hcount.trans (hfive.activeCount d st).symm, ?_, ?_, ?_⟩
    · exact (hkept.dead _).trans hdead
    · rw [State.channel, hkept.channels]
      exact hflash q
    · exact (hkept.stations q hq).trans (hothers q hq)
    all_goals rw [heq]
    · exact .refl _
    · exact .of_stations rfl
    · rfl

theorem Stages.joint (h : Stages d st codes s v w t) (hlimit : 0 < (s.ductCfg d).base.stuckLimit) :
    Joint d st (stationSamples s d st codes) v ↔ Coincides s d st codes t := joint_iff hlimit codes h.under.cfg h.active

/-! ### The outcomes -/

/-- Stage 5 outside dead time with coincidence confirms the detection (R32, R33). -/
theorem Stages.confirms (h : Stages d st codes s v w t) (hlimit : 0 < (s.ductCfg d).base.stuckLimit)
    (hset : qualifyingNow s d st codes ≠ []) (hdead : (s.station d st).dead = 0) (hc : Coincides s d st codes t) :
    w = confirmDetection (detectionAt d st (stationSamples s d st codes) v) v := by
  rw [h.judged, hdead]
  exact judgeStation_confirms (by rwa [qualifyingSet_now hlimit]) ((h.joint hlimit).mpr hc)

theorem Stages.flashes (h : Stages d st codes s v w t) (hlimit : 0 < (s.ductCfg d).base.stuckLimit)
    (hset : qualifyingNow s d st codes ≠ []) (hdead : (s.station d st).dead = 0) (hc : ¬Coincides s d st codes t) :
    Flashed d st (coincidenceRequirement (v.ductCfg d).base.coincidence (activeCount v d st))
      (coincidenceCount (stationSamples s d st codes)) (qualifyingNow s d st codes) v w := by
  have hl := stationSamples_nodup s d st codes
  have hnow := qualifyingSet_now hlimit st codes
  rw [h.judged, hdead, judgeStation_flashes (by rwa [hnow]) (mt (h.joint hlimit).mp hc), hnow]
  exact unconfirmedFlash_left d st _ _ (hnow ▸ qualifyingSet_nodup hl) v

/-- A detection that is absorbed, or none, leaves detectors and captures alone (R34). -/
theorem Stages.rests (h : Stages d st codes s v w t) (hlimit : 0 < (s.ductCfg d).base.stuckLimit)
    (hset : qualifyingNow s d st codes = [] ∨ 0 < (s.station d st).dead) :
    Aside v w ∧ w.stations = v.stations ∧ w.channels = v.channels := by
  have hrest : w = v ∨ w = absorbCapture d st v := by
    rw [h.judged]
    by_cases hnone : qualifyingSet (stationSamples s d st codes) = []
    · exact .inl (judgeStation_rests hnone v)
    · rw [judgeStation_absorbs (hset.resolve_left (qualifyingSet_now hlimit st codes ▸ hnone)),
        if_neg (by rwa [List.isEmpty_iff])]
      exact .inr rfl
  rcases hrest with rfl | rfl
  · exact ⟨.refl _, rfl, rfl⟩
  · have hwithin := absorbCapture_within d st v
    exact ⟨absorbCapture_aside d st v, hwithin.stations rfl, hwithin.channels rfl⟩

end

end Sys2Proof.Machine
end

