-- ==== Sys2Proof/Proofs/DetectionsSettled.lean ====
section
/-! PROOFS. O41: the outcomes of a qualifying event, and what each leaves (R32 to R35, R51 to R65, R97 to R104). -/

namespace Sys2Proof.Machine

open Sys2Proof

section
variable {d st : Fin 4} {codes : Vector Code 4} {o : Tick} {s v w t : State}

theorem Flashed.aside {requirement count : Nat} {set : List (Fin 16)} (h : Flashed d st requirement count set s t) : Aside s t :=
  ⟨h.within.mono rfl, h.within.fixed.tick_eq, _, h.told⟩

/-- The judgment leaves the duct alone, or is a confirmed detection. -/
theorem Stages.outcome (h : Stages d st codes s v w t) (hlimit : 0 < (s.ductCfg d).base.stuckLimit) :
    Aside v w ∧ w.stations = v.stations ∨ ∃ x : Detection, x.duct = d ∧ x.station = st ∧ w = confirmDetection x v := by
  by_cases hrest : qualifyingNow s d st codes = [] ∨ 0 < (s.station d st).dead
  · obtain ⟨haside, hstations, -⟩ := h.rests hlimit hrest
    exact .inl ⟨haside, hstations⟩
  · obtain ⟨hset, hdead⟩ := not_or.mp hrest
    have hdead := Nat.eq_zero_of_not_pos hdead
    by_cases hc : Coincides s d st codes t
    · exact .inr ⟨_, rfl, rfl, h.confirms hlimit hset hdead hc⟩
    · have hflashed := h.flashes hlimit hset hdead hc
      exact .inl ⟨hflashed.aside, hflashed.within.stations rfl⟩

theorem Stages.framed (h : Stages d st codes s v w t) (hlimit : 0 < (s.ductCfg d).base.stuckLimit) : Framed d s t := by
  refine Framed.aside (w := w) ?_ h.aside
  rcases h.outcome hlimit with ⟨haside, -⟩ | ⟨x, rfl, rfl, hx⟩
  · exact (h.ready.kept.aside haside).framed
  · rw [hx]
    exact confirmDetection_framed h.ready

theorem Stages.stations (h : Stages d st codes s v w t) (hlimit : 0 < (s.ductCfg d).base.stuckLimit) (q : Fin 16)
    (hq : q ≠ stationIx d st) : t.stations[q] = s.stations[q] := by
  refine (h.marks.1 q hq).trans (Eq.trans ?_ (h.others q hq))
  rcases h.outcome hlimit with ⟨-, hstations⟩ | ⟨x, rfl, rfl, hx⟩
  · rw [hstations]
  · rw [hx]
    exact (confirmDetection_marks x v).1 q hq

/-- The window-clean mark stays where no arming window runs (R97). -/
theorem Stages.clean (h : Stages d st codes s v w t) (hs : (s.ctl d).state ≠ .arming) :
    (t.ctl d).windowClean = (s.ctl d).windowClean := by
  have hready := h.ready.clean hs
  have hstate : (v.ctl d).state = (s.ctl d).state := (congrArg (fun D : Duct => D.ctl.state) h.ready.duct).trans rfl
  have hspoilt : ((v.ctl d).spoiled true).windowClean = (v.ctl d).windowClean := by
    rw [Ctl.spoiled, decide_eq_false (hstate ▸ hs), Bool.and_false]
    rfl
  have hfive := (judgeStation_stageFive (d := d) (st := st) (dead := (s.station d st).dead) (stationSamples_nodup s d st codes) v).clean
  rw [← h.judged, MayspoilAt, hspoilt, or_self] at hfive
  rw [h.aside.ctl, hfive, hready]

/-- The event of a detection that is absorbed, or of none (R34). -/
theorem Stages.absorbed (h : Stages d st codes s v w t) (hlimit : 0 < (s.ductCfg d).base.stuckLimit)
    (hset : qualifyingNow s d st codes = [] ∨ 0 < (s.station d st).dead) :
    Kept d (s.duct d).tracks s t ∧ (t.station d st).dead = (s.station d st).dead - 1 ∧
      ∀ q : Fin 16, (t.channel q).flash = (s.channel q).flash := by
  obtain ⟨haside, hstations, hchannels⟩ := h.rests hlimit hset
  refine ⟨(h.ready.kept.aside haside).aside h.aside, h.marks.2.trans (Eq.trans ?_ h.dead), fun q => ?_⟩
  · rw [hstations]
    rfl
  · rw [State.channel, h.channels, hchannels]
    exact h.flash q

theorem flashOffer_eq (d st : Fin 4) (n m : Nat) (set : List (Fin 16)) (o : Tick) :
    flashOffer d st n m set o = detectionNotice d st n m 4 (byteOf set.length :: (set.map (fun q => byteOf q.val) ++ le32 o)) := by
  have hlist : listField (set.map fun c => le8 c.val) = byteOf set.length :: set.map fun q => byteOf q.val := by
    rw [listField, List.length_map, ← List.flatMap_def]
    exact congrArg (byteOf set.length :: ·) (List.flatMap_pure_eq_map _ set)
  rw [flashOffer, hlist]
  rfl

/-- The event of an unconfirmed flash (R35). -/
theorem Stages.flashed (h : Stages d st codes s v w t) (hlimit : 0 < (s.ductCfg d).base.stuckLimit)
    (hdead : (s.station d st).dead = 0) (hc : ¬Coincides s d st codes t) :
    Kept d (s.duct d).tracks s t ∧ (t.station d st).dead = 0 ∧
      (∀ q : Fin 16, (t.channel q).flash = if q ∈ qualifyingNow s d st codes then min 65535 ((s.channel q).flash + 1)
        else (s.channel q).flash) ∧
      (IsOrigin s d st codes o → OffersThese [detectionNotice d st (min (s.ductCfg d).base.coincidence (activeCount t d st - 1))
        (coincidenceNow s d st codes) 4 (byteOf (qualifyingNow s d st codes).length ::
          ((qualifyingNow s d st codes).map (fun q => byteOf q.val) ++ le32 o))] s t) := by
  by_cases hset : qualifyingNow s d st codes = []
  · obtain ⟨hkept, hleft, hflash⟩ := h.absorbed hlimit (.inl hset)
    refine ⟨hkept, hleft.trans (by rw [hdead]), fun q => ?_, fun ⟨⟨c, hmem, _⟩, _⟩ => ?_⟩
    · rw [hset]
      exact hflash q
    · rw [hset] at hmem
      exact nomatch hmem
  have hflashed := h.flashes hlimit hset hdead hc
  refine ⟨(h.ready.kept.aside hflashed.aside).aside h.aside, h.marks.2.trans ?_, fun q => ?_, fun horigin => ?_⟩
  · rw [hflashed.within.stations rfl]
    exact h.dead.trans (by rw [hdead])
  · have hchannel : t.channel q = w.channel q := congrArg (·[q]) h.channels
    rw [hchannel, hflashed.channel, ← h.flash]
    split <;> rfl
  · have htold := hflashed.told
    rw [flashOffer_eq, earliestStart_eq horigin h.under.runStart, coincidenceCount_now hlimit, ← h.active,
      State.ductCfg, h.under.cfg] at htold
    exact .before h.ready.tells ((htold.offersThese (.refl _)).more hflashed.aside.tick h.aside.tells)

/-- A confirmed detection of a station, with its origin. -/
structure Confirmed (d st : Fin 4) (o : Tick) (s v w : State) (x : Detection) : Prop where
  duct : x.duct = d
  station : x.station = st
  origin : x.origin = o
  confirm : x.confirm = v.tick
  state : w = confirmDetection x v

theorem Stages.confirmed (h : Stages d st codes s v w t) (hlimit : 0 < (s.ductCfg d).base.stuckLimit)
    (hdead : (s.station d st).dead = 0) (hc : Coincides s d st codes t) (ho : IsOrigin s d st codes o) :
    ∃ x, Confirmed d st o s v w x := by
  have hset : qualifyingNow s d st codes ≠ [] := by
    obtain ⟨⟨c, hmem, -⟩, -⟩ := ho
    exact List.ne_nil_of_mem hmem
  refine ⟨_, rfl, rfl, ?_, rfl, h.confirms hlimit hset hdead hc⟩
  show earliestStart v (qualifyingSet (stationSamples s d st codes)) = o
  rw [qualifyingSet_now hlimit]
  exact earliestStart_eq ho h.under.runStart

/-- A confirmed detection begins the dead time and counts no flash (R34). -/
theorem Stages.deadens (h : Stages d st codes s v w t) {x : Detection} (hx : Confirmed d st o s v w x) :
    (t.station d st).dead = (s.ductCfg d).base.deadTime ∧ ∀ q : Fin 16, (t.channel q).flash = (s.channel q).flash := by
  obtain ⟨rfl, rfl, -, -, rfl⟩ := hx
  refine ⟨h.marks.2.trans ((confirmDetection_marks x v).2.trans ?_), fun q => ?_⟩
  · rw [State.ductCfg, State.ductCfg, h.under.cfg]
  · rw [State.channel, h.channels, confirmDetection_channels]
    exact h.flash q

/-- A confirmed detection that fits a track joins the first one (R61). -/
theorem Stages.joins (h : Stages d st codes s v w t) {x : Detection} (hx : Confirmed d st o s v w x) (hlen : (s.duct d).tracks.length ≤ 8)
    (hfits : ∃ u ∈ (s.duct d).tracks, Fits st o u) :
    ∃ i : Fin 8, ∃ u ∈ (s.duct d).tracks[i.val]?, Fits st o u ∧ (∀ y ∈ (s.duct d).tracks.take i.val, ¬Fits st o y) ∧
      Kept d ((s.duct d).tracks.set i.val { u with matched := u.matched ++ [st] }) s t ∧
      OffersThese [detectionNotice d st (s.duct d).tracks.length (s.duct d).tracks.length 1
        (u.id :: byteOf u.station.val :: (le32 o ++ le32 s.tick))] s t := by
  obtain ⟨rfl, rfl, rfl, hconfirm, rfl⟩ := hx
  cases hm : matchFirst x.station x.origin (s.duct x.duct).tracks with
  | none =>
    obtain ⟨u, hu, hfit⟩ := hfits
    exact absurd hfit (matchFirst_none hm u hu)
  | some r =>
    obtain ⟨i, hfirst, -⟩ := matchFirst_some hm
    obtain ⟨hi, -⟩ := List.getElem?_eq_some_iff.mp hfirst.1
    obtain ⟨hkept, htold⟩ := confirmDetection_joins h.ready hconfirm hfirst
    have htick := (confirmDetection_calm x v).tells.1.trans h.ready.tells.1
    exact ⟨⟨i, by omega⟩, r.1, hfirst.1, hfirst.2.1, hfirst.2.2, hkept.aside h.aside, htold.more htick h.aside.tells⟩

end

/-- Settles O41: the stages of the event, and the outcome of stage 5. -/
theorem detectionsMatchTrackOrFlood : Obligations.DetectionsMatchTrackOrFlood := by
  intro d st codes first o s hup hzones houts hbounds htracks _ hdue hlimit D c set unstopped kept listed fits
  have hexec : exec (.stationSampleEvent d st codes first) s = .next (stationEvent d st codes first (s.tookSample (.station d st))) :=
    (live_up s _ hup).trans (congrArg Host.Outcome.next (sampling_due (x := .station d st) hdue _))
  refine ⟨_, hexec, ?_⟩
  obtain ⟨v, w, h⟩ := stationEvent_stages d st codes first (s := s.tookSample (.station d st)) hzones houts hbounds hlimit
  have hwithin := stationEvent_within d st codes first (s.tookSample (.station d st))
  generalize stationEvent d st codes first (s.tookSample (.station d st)) = t at *
  have hkept {l : List Track} (hk : Kept d l (s.tookSample (.station d st)) t) : kept l t :=
    ⟨hk.duct, hk.others, hk.hazards, hk.doors, hk.arbiter⟩
  refine ⟨hwithin.fixed, hwithin.links, hwithin.inputs rfl, h.stations hlimit, h.framed hlimit, h.clean, fun hset => ?_,
    fun hdead hc => ?_, fun hdead hc ho => ?_⟩
  · obtain ⟨hk, hrest⟩ := h.absorbed hlimit hset
    exact ⟨hkept hk, hrest⟩
  · obtain ⟨hk, hrest⟩ := h.flashed (o := o) hlimit hdead hc
    exact ⟨hkept hk, hrest⟩
  obtain ⟨x, hx⟩ := h.confirmed hlimit hdead hc ho
  obtain ⟨hstart, hflash⟩ := h.deadens hx
  refine ⟨hstart, hflash, fun hfit => ?_, fun hfit hlen => ?_, fun hfit hlen hlo hhi hflood => ?_⟩
  · obtain ⟨i, u, hu, hfits, hfirst, hk, htold⟩ := h.joins hx (htracks d).1 hfit
    exact ⟨i, u, hu, hfits, hfirst, hkept hk, htold⟩
  · obtain ⟨rfl, rfl, rfl, hconfirm, rfl⟩ := hx
    obtain ⟨y, hy, htracked, hreport⟩ :=
      confirmDetection_tracks h.ready hconfirm htracks (fun u hu e => hfit ⟨u, hu, e⟩) hlen h.aside
    exact ⟨y, hy, htracked.new, htracked.fresh, htracked.nextId, htracked.place, htracked.flood, htracked.test, htracked.told,
      htracked.turned, htracked.other, hreport.mark, hreport.clean, hreport.stops, hreport.rests, hreport.rate, hreport.counts,
      hreport.goes, hreport.idles⟩
  · obtain ⟨rfl, rfl, rfl, hconfirm, rfl⟩ := hx
    obtain ⟨hleft, hreport⟩ :=
      confirmDetection_floods h.ready hconfirm htracks (fun u hu e => hfit ⟨u, hu, e⟩) hlen hlo hhi hflood h.aside
    exact ⟨hleft.tracks, hleft.nextId, hleft.test, ⟨hleft.flood, hleft.told⟩, hleft.turned,
      hreport.goes, hreport.stops, hreport.rests⟩

end Sys2Proof.Machine
end
